-- ==== Sys2Proof/Word.lean ====
section
/-! DEFINITION. The word types of the IXH-4128: 32-bit words, bytes, and the widths of its larger registers. -/

namespace Sys2Proof

/-- A 32-bit register or instruction word (R57, R72). -/
abbrev Word := BitVec 32

/-- One byte of memory (R215). -/
abbrev Byte := BitVec 8

/-- A code offset: 40 bits (R28). -/
abbrev Pc := BitVec 40

end Sys2Proof
end

