-- ==== Sys2Proof/Syntax.lean ====
section
/-! DEFINITION. The syntax of the machine's steps: one constructor of Instr for each row of the opcode table.
The first 221 are instruction words (R57 to R71); the other 92 are the steps of the part's agents that are no
instruction words, which spec/95_what_each_step_holds.md lists beside them. -/

namespace Sys2Proof

/-- The XP word that extends another word (R65): format code, rounding mode, saturate, third source, high immediate. -/
structure Pfx where
  ty : BitVec 5
  rm : BitVec 3
  sat : BitVec 1
  c : BitVec 7
  immx : BitVec 8
  deriving DecidableEq, Repr

/-- Operand fields of a word: LR or LI: g d a b (R60, R62, R64). -/
structure FmtR where
  g : BitVec 3
  d : BitVec 7
  a : BitVec 7
  b : BitVec 7
  p : Option Pfx
  deriving DecidableEq, Repr

/-- Operand fields of a word: LR without XP: g d a b (R60, R62, R64). -/
structure FmtR0 where
  g : BitVec 3
  d : BitVec 7
  a : BitVec 7
  b : BitVec 7
  deriving DecidableEq, Repr

/-- Operand fields of a word: LR with a required XP: g d a b (R60, R62, R64). -/
structure FmtRP where
  g : BitVec 3
  d : BitVec 7
  a : BitVec 7
  b : BitVec 7
  p : Pfx
  deriving DecidableEq, Repr

/-- Operand fields of a word: LR with D zero: g a b (R60, R62, R64). -/
structure FmtRW where
  g : BitVec 3
  a : BitVec 7
  b : BitVec 7
  p : Option Pfx
  deriving DecidableEq, Repr

/-- Operand fields of a word: LR or LI compare: g cond pd a b (R60, R62, R64). -/
structure FmtC where
  g : BitVec 3
  cond : BitVec 4
  pd : BitVec 3
  a : BitVec 7
  b : BitVec 7
  p : Option Pfx
  deriving DecidableEq, Repr

/-- Operand fields of a word: LR compare without XP (R60, R62, R64). -/
structure FmtC0 where
  g : BitVec 3
  cond : BitVec 4
  pd : BitVec 3
  a : BitVec 7
  b : BitVec 7
  deriving DecidableEq, Repr

/-- Operand fields of a word: LU with a function code: g d a (R60, R62, R64). -/
structure FmtU where
  g : BitVec 3
  d : BitVec 7
  a : BitVec 7
  p : Option Pfx
  deriving DecidableEq, Repr

/-- Operand fields of a word: LU with a function code, without XP: g d a (R60, R62, R64). -/
structure FmtU0 where
  g : BitVec 3
  d : BitVec 7
  a : BitVec 7
  deriving DecidableEq, Repr

/-- Operand fields of a word: LW: imm[16:14] d imm[13:0] (R60, R62, R64). -/
structure FmtW17 where
  ih : BitVec 3
  d : BitVec 7
  il : BitVec 14
  p : Option Pfx
  deriving DecidableEq, Repr

/-- Operand fields of a word: Predicates: g pd pa pb (R60, R62, R64). -/
structure FmtP30 where
  g : BitVec 3
  pd : BitVec 3
  pa : BitVec 3
  pb : BitVec 3
  deriving DecidableEq, Repr

/-- Operand fields of a word: Predicates, PNOT: g pd pa (R60, R62, R64). -/
structure FmtP20 where
  g : BitVec 3
  pd : BitVec 3
  pa : BitVec 3
  deriving DecidableEq, Repr

/-- Operand fields of a word: LU with A zero: g d (R60, R62, R64). -/
structure FmtD1 where
  g : BitVec 3
  d : BitVec 7
  p : Option Pfx
  deriving DecidableEq, Repr

/-- Operand fields of a word: LU with D zero: g a (R60, R62, R64). -/
structure FmtA1 where
  g : BitVec 3
  a : BitVec 7
  p : Option Pfx
  deriving DecidableEq, Repr

/-- Operand fields of a word: Capability LR or LI: g ad as b (R60, R62, R64). -/
structure FmtCN where
  g : BitVec 3
  ad : BitVec 3
  src : BitVec 3
  b : BitVec 7
  p : Option Pfx
  deriving DecidableEq, Repr

/-- Operand fields of a word: Capability move: g ad as (R60, R62, R64). -/
structure FmtCM where
  g : BitVec 3
  ad : BitVec 3
  src : BitVec 3
  p : Option Pfx
  deriving DecidableEq, Repr

/-- Operand fields of a word: Capability query: g d as (R60, R62, R64). -/
structure FmtCQ where
  g : BitVec 3
  d : BitVec 7
  src : BitVec 3
  p : Option Pfx
  deriving DecidableEq, Repr

/-- Operand fields of a word: MFSR: g d n (R60, R62, R64). -/
structure FmtMF where
  g : BitVec 3
  d : BitVec 7
  n : BitVec 7
  p : Option Pfx
  deriving DecidableEq, Repr

/-- Operand fields of a word: MTSR: g a n (R60, R62, R64). -/
structure FmtMT where
  g : BitVec 3
  a : BitVec 7
  n : BitVec 7
  p : Option Pfx
  deriving DecidableEq, Repr

/-- Operand fields of a word: ERET: a, G is 7 (R60, R62, R64). -/
structure FmtE1 where
  a : BitVec 7
  p : Option Pfx
  deriving DecidableEq, Repr

/-- Operand fields of a word: No operand, G is 7 (R60, R62, R64). -/
structure FmtN where
  p : Option Pfx
  deriving DecidableEq, Repr

/-- Operand fields of a word: Conversion with a 5-bit code in B: g d a e (R60, R62, R64). -/
structure FmtFE where
  g : BitVec 3
  d : BitVec 7
  a : BitVec 7
  e : BitVec 5
  p : Option Pfx
  deriving DecidableEq, Repr

/-- Operand fields of a word: VOTE: g d pa (R60, R62, R64). -/
structure FmtV0 where
  g : BitVec 3
  d : BitVec 7
  pa : BitVec 3
  deriving DecidableEq, Repr

/-- Operand fields of a word: LM with an immediate: g d a sel imm (R60, R62, R64). -/
structure FmtM where
  g : BitVec 3
  d : BitVec 7
  a : BitVec 7
  sel : BitVec 4
  imm : BitVec 3
  p : Option Pfx
  deriving DecidableEq, Repr

/-- Operand fields of a word: LM without XP: g d a sel imm (R60, R62, R64). -/
structure FmtM0 where
  g : BitVec 3
  d : BitVec 7
  a : BitVec 7
  sel : BitVec 4
  imm : BitVec 3
  deriving DecidableEq, Repr

/-- Operand fields of a word: LM scratchpad, selector zero: g d a imm (R60, R62, R64). -/
structure FmtMS where
  g : BitVec 3
  d : BitVec 7
  a : BitVec 7
  imm : BitVec 3
  p : Option Pfx
  deriving DecidableEq, Repr

/-- Operand fields of a word: LM with a function code in B[2:0]: g d a sel (R60, R62, R64). -/
structure FmtMN where
  g : BitVec 3
  d : BitVec 7
  a : BitVec 7
  sel : BitVec 4
  p : Option Pfx
  deriving DecidableEq, Repr

/-- Operand fields of a word: LM with a function code in B[2:0], without XP: g d a sel (R60, R62, R64). -/
structure FmtMN0 where
  g : BitVec 3
  d : BitVec 7
  a : BitVec 7
  sel : BitVec 4
  deriving DecidableEq, Repr

/-- Operand fields of a word: LM lattice, XP required: g d a sel acq (R60, R62, R64). -/
structure FmtMQ where
  g : BitVec 3
  d : BitVec 7
  a : BitVec 7
  sel : BitVec 4
  acq : BitVec 1
  p : Pfx
  deriving DecidableEq, Repr

/-- Operand fields of a word: LM capability access: g ad a sel imm (R60, R62, R64). -/
structure FmtMC where
  g : BitVec 3
  ad : BitVec 3
  a : BitVec 7
  sel : BitVec 4
  imm : BitVec 3
  p : Option Pfx
  deriving DecidableEq, Repr

/-- Operand fields of a word: FENCE: g scope (R60, R62, R64). -/
structure FmtSC0 where
  g : BitVec 3
  scope : BitVec 3
  deriving DecidableEq, Repr

/-- Operand fields of a word: WAIT: ld st cp eo (R60, R62, R64). -/
structure FmtWT0 where
  ld : BitVec 6
  st : BitVec 6
  cp : BitVec 4
  eo : BitVec 4
  deriving DecidableEq, Repr

/-- Operand fields of a word: LB: g off (R60, R62, R64). -/
structure FmtB where
  g : BitVec 3
  off : BitVec 21
  p : Option Pfx
  deriving DecidableEq, Repr

/-- Operand fields of a word: LBX, BRA.J: g slot off (R60, R62, R64). -/
structure FmtBJ where
  g : BitVec 3
  slot : BitVec 4
  off : BitVec 14
  p : Option Pfx
  deriving DecidableEq, Repr

/-- Operand fields of a word: LM, only a memory operand: g a sel (R60, R62, R64). -/
structure FmtTB0 where
  g : BitVec 3
  a : BitVec 7
  sel : BitVec 4
  deriving DecidableEq, Repr

/-- Operand fields of a word: LL: lc count end (R60, R62, R64). -/
structure FmtLP where
  lc : BitVec 2
  cnt : BitVec 7
  fin : BitVec 15
  p : Option Pfx
  deriving DecidableEq, Repr

/-- Operand fields of a word: LBX, SPAWN: g n off (R60, R62, R64). -/
structure FmtSP where
  g : BitVec 3
  n : BitVec 7
  off : BitVec 14
  p : Option Pfx
  deriving DecidableEq, Repr

/-- Operand fields of a word: JOIN: slot, G is 7 (R60, R62, R64). -/
structure FmtJ0 where
  slot : BitVec 4
  deriving DecidableEq, Repr

/-- Operand fields of a word: Only a guard (R60, R62, R64). -/
structure FmtG where
  g : BitVec 3
  p : Option Pfx
  deriving DecidableEq, Repr

/-- Operand fields of a word: SIGN: g cset (R60, R62, R64). -/
structure FmtSG0 where
  g : BitVec 3
  cset : BitVec 3
  deriving DecidableEq, Repr

/-- Operand fields of a word: CVSET: cset count (R60, R62, R64). -/
structure FmtCV0 where
  cset : BitVec 3
  count : BitVec 11
  deriving DecidableEq, Repr

/-- Operand fields of a word: S2V: g d n (R60, R62, R64). -/
structure FmtSR0 where
  g : BitVec 3
  d : BitVec 7
  n : BitVec 7
  deriving DecidableEq, Repr

/-- Operand fields of a word: TRAP and SYSC: g n (R60, R62, R64). -/
structure FmtTR0 where
  g : BitVec 3
  n : BitVec 7
  deriving DecidableEq, Repr

/-- Operand fields of a word: UR: cv d a b (R60, R62, R64). -/
structure FmtUR where
  cv : BitVec 3
  d : BitVec 6
  a : BitVec 6
  b : BitVec 6
  p : Option Pfx
  deriving DecidableEq, Repr

/-- Operand fields of a word: UR with F[0]: cv d a b u (R60, R62, R64). -/
structure FmtUM where
  cv : BitVec 3
  d : BitVec 6
  a : BitVec 6
  b : BitVec 6
  u : BitVec 1
  p : Option Pfx
  deriving DecidableEq, Repr

/-- Operand fields of a word: UR with B zero: cv d a (R60, R62, R64). -/
structure FmtU2 where
  cv : BitVec 3
  d : BitVec 6
  a : BitVec 6
  p : Option Pfx
  deriving DecidableEq, Repr

/-- Operand fields of a word: UR with F: cv d a b f (R60, R62, R64). -/
structure FmtUF where
  cv : BitVec 3
  d : BitVec 6
  a : BitVec 6
  b : BitVec 6
  f : BitVec 3
  p : Option Pfx
  deriving DecidableEq, Repr

/-- Operand fields of a word: UCNAR: cv bd ba b (R60, R62, R64). -/
structure FmtUN where
  cv : BitVec 3
  bd : BitVec 4
  ba : BitVec 4
  b : BitVec 6
  p : Option Pfx
  deriving DecidableEq, Repr

/-- Operand fields of a word: UI: cv d imm (R60, R62, R64). -/
structure FmtUI where
  cv : BitVec 3
  d : BitVec 6
  imm : BitVec 15
  p : Option Pfx
  deriving DecidableEq, Repr

/-- Operand fields of a word: UC load: cv kd bs g (R60, R62, R64). -/
structure FmtEL where
  cv : BitVec 3
  kd : BitVec 4
  bs : BitVec 4
  glob : BitVec 1
  deriving DecidableEq, Repr

/-- Operand fields of a word: UC MMRUN: cv kd acc (R60, R62, R64). -/
structure FmtER where
  cv : BitVec 3
  kd : BitVec 4
  acc : BitVec 1
  deriving DecidableEq, Repr

/-- Operand fields of a word: UC MMOUT: cv kd q act bias (R60, R62, R64). -/
structure FmtEO where
  cv : BitVec 3
  kd : BitVec 4
  q : BitVec 1
  act : BitVec 1
  bias : BitVec 1
  deriving DecidableEq, Repr

/-- Operand fields of a word: UC with a source: cv kd bs bar (R60, R62, R64). -/
structure FmtXS where
  cv : BitVec 3
  kd : BitVec 4
  bs : BitVec 4
  bar : BitVec 1
  deriving DecidableEq, Repr

/-- Operand fields of a word: UC with a destination: cv kd bd bar (R60, R62, R64). -/
structure FmtXD where
  cv : BitVec 3
  kd : BitVec 4
  bd : BitVec 4
  bar : BitVec 1
  deriving DecidableEq, Repr

/-- Operand fields of a word: UC with both: cv kd bs bd bar (R60, R62, R64). -/
structure FmtXB where
  cv : BitVec 3
  kd : BitVec 4
  bs : BitVec 4
  bd : BitVec 4
  bar : BitVec 1
  deriving DecidableEq, Repr

/-- Operand fields of a word: UC COLL: cv kd bar (R60, R62, R64). -/
structure FmtXN where
  cv : BitVec 3
  kd : BitVec 4
  bar : BitVec 1
  deriving DecidableEq, Repr

/-- Operand fields of a word: UC BARINIT: cv kd (R60, R62, R64). -/
structure FmtXI where
  cv : BitVec 3
  kd : BitVec 4
  deriving DecidableEq, Repr

/-- Operand fields of a word: UC SOW: cv kd bs (R60, R62, R64). -/
structure FmtXW where
  cv : BitVec 3
  kd : BitVec 4
  bs : BitVec 4
  deriving DecidableEq, Repr

/-- Operand fields of a word: LDLAYER: cv bd a bs rt (R60, R62, R64). -/
structure FmtLY where
  cv : BitVec 3
  bd : BitVec 4
  a : BitVec 6
  bs : BitVec 4
  rt : BitVec 1
  deriving DecidableEq, Repr

/-- Operand fields of a word: RELLAYER: cv bd a bs (R60, R62, R64). -/
structure FmtLZ where
  cv : BitVec 3
  bd : BitVec 4
  a : BitVec 6
  bs : BitVec 4
  deriving DecidableEq, Repr

/-- Operand fields of a word: MINT: cv bd ka t (R60, R62, R64). -/
structure FmtMI where
  cv : BitVec 3
  bd : BitVec 4
  ka : BitVec 4
  t : BitVec 1
  deriving DecidableEq, Repr

/-- Operand fields of a word: SEAL: cv d bs (R60, R62, R64). -/
structure FmtSL where
  cv : BitVec 3
  d : BitVec 6
  bs : BitVec 4
  deriving DecidableEq, Repr

/-- Operand fields of a word: OBJINV: cv d a (R60, R62, R64). -/
structure FmtOB where
  cv : BitVec 3
  d : BitVec 6
  a : BitVec 6
  deriving DecidableEq, Repr

/-- Operand fields of a word: MIGR, UNPUBL: cv d ka (R60, R62, R64). -/
structure FmtOQ where
  cv : BitVec 3
  d : BitVec 6
  ka : BitVec 4
  deriving DecidableEq, Repr

/-- Operand fields of a word: BIAS: cv d kp (R60, R62, R64). -/
structure FmtOE where
  cv : BitVec 3
  d : BitVec 6
  kp : BitVec 5
  deriving DecidableEq, Repr

/-- The set of plots that a pre-emption request names (R430). -/
inductive PreemptSet where
  | plot (pid : Nat)
  | field (ctx fld : Nat)
  | context (ctx : Nat)
  | core (core : Nat)
  deriving DecidableEq, Repr

/-- What the host names when it creates a context through the reeve interface (R390, R392, R420, R435). -/
structure CtxCfg where
  ctx : Nat
  handlerCode : Option (BitVec 128)
  handlerEntry : BitVec 40
  handlerA : List (BitVec 128 × Bool)
  lists : List (Nat × Nat × Bool)
  sysLists : Bool
  savePool : Nat
  framePool : List Nat
  deriving DecidableEq, Repr

/-- What system software does to a context's save pool through the reeve interface: it gives it a size, or writes bytes of it (R435, R438, R439). -/
inductive PoolOp where
  | size (bytes : Nat)
  | write (off : Nat) (bytes : List Byte)
  deriving DecidableEq, Repr

/-- A place outside the package's own memory: of host memory, of CXL-attached memory, of a peer package (R445). -/
inductive Source where
  | host (addr : Nat)
  | cxl (addr : Nat)
  | peer (package addr : Nat)
  deriving DecidableEq, Repr

/-- One layer of a crop registration: its weight object and its source, a place and a length (R445). -/
structure LayerCfg where
  obj : Nat
  src : Source
  len : Nat
  deriving DecidableEq, Repr

/-- How data outside the package answers reads: clean, with poison, or with poison on its first read alone (R459, R475). -/
inductive SourcePoison where
  | clean
  | poisoned
  | once
  deriving DecidableEq, Repr

/-- What a snoop of the host does to a line of host memory (R208): it recalls the package's copies, or the host, or the agent that holds a source,
writes bytes there as well (R445, R459). -/
inductive HostSnoop where
  | recall (addr : Nat)
  | write (at_ : Source) (bytes : List Byte) (poison : SourcePoison)
  deriving DecidableEq, Repr

/-- A crop registration (R445). -/
structure CropCfg where
  ctx : Nat
  crop : Nat
  table : Nat
  count : Nat
  prio : Nat
  layers : List LayerCfg
  deriving DecidableEq, Repr

/-- A line of an object of a context; for a lattice object the replica's die plus 1, else 0 (R282). -/
structure LineRef where
  ctx : Nat
  obj : Nat
  line : Nat
  rep : Nat
  deriving DecidableEq, Repr

/-- Where an error of a protected structure lies (R457). Addresses are the model's physical addresses. -/
inductive ErrSite where
  | registerFile (pid fid : Nat)
  | memory (addr : Nat)
  | l1 (core : Nat) (line : LineRef) (off : Nat)
  | icache (core : Nat) (line : LineRef)
  | l2Clean (addr : Nat)
  | l2Line (addr : Nat)
  | directory (line : LineRef)
  | seedbed (core slot : Nat)
  | accumulator (core bank row : Nat)
  deriving DecidableEq, Repr

/-- What a scrub finds at a protected word: a good word, one that its code corrects, or one that it cannot correct (R457, R458). -/
inductive ScrubFind where
  | clean
  | corrected
  | uncorrectable
  deriving DecidableEq, Repr

/-- What becomes of a flit that failed its CRC: a replay fails or succeeds, or after 8 failed replays the flit is lost with what it carried (R460 to
R462): data of writes for some granules, the answer to a core's reads of a line, with its granules of the line, or control for some lines, whose
home has sent the flit that awaits it some ccy ago. -/
inductive FlitLoad where
  | failed
  | replayed
  | data (granules : List Nat)
  | answer (core : Nat) (line : LineRef) (granules : List Nat)
  | control (lines : List LineRef) (ago : Nat)
  deriving DecidableEq, Repr

/-- The registers of the management port (R339, R458, R470). -/
inductive MgmtReg where
  | powerLimit
  | scrubPeriod
  | fixedClocks (die : Nat)
  deriving DecidableEq, Repr

/-- The steps of the machine: one constructor per row of the opcode table. -/
inductive Instr where
  /-- IADD (R131). Adds two registers mod 2^32, or with SAT clamps the signed sum. -/
  | iadd (x : FmtR)
  /-- ISUB (R131). Subtracts two registers mod 2^32, or saturating with SAT. -/
  | isub (x : FmtR)
  /-- IMUL (R131). Multiplies two registers, keeping the low 32 bits, or saturating with SAT. -/
  | imul (x : FmtR)
  /-- IMULH (R131). Returns the high 32 bits of the signed product. -/
  | imulh (x : FmtR)
  /-- IMULH.U (R131). Returns the high 32 bits of the unsigned product. -/
  | imulhU (x : FmtR)
  /-- IMAD (R131). Computes A times B plus C mod 2^32, with C defaulting to D. -/
  | imad (x : FmtR)
  /-- IDIV (R134). Signed division rounded towards zero, with defined results for zero and overflow. -/
  | idiv (x : FmtR)
  /-- IDIV.U (R134). Unsigned division rounded towards zero; division by zero gives all ones and sets DZ. -/
  | idivU (x : FmtR)
  /-- IMIN (R131). Returns the smaller of two registers read as signed. -/
  | imin (x : FmtR)
  /-- IMIN.U (R131). Returns the smaller of two registers read as unsigned. -/
  | iminU (x : FmtR)
  /-- IMAX (R131). Returns the larger of two registers read as signed. -/
  | imax (x : FmtR)
  /-- IMAX.U (R131). Returns the larger of two registers read as unsigned. -/
  | imaxU (x : FmtR)
  /-- IADDC (R133). Adds two registers and a carry predicate, writing the sum and the carry-out. -/
  | iaddc (x : FmtR)
  /-- ISUBB (R133). Subtracts two registers and a borrow predicate, writing the difference and the borrow-out. -/
  | isubb (x : FmtR)
  /-- AND (R131). Bitwise AND of two registers. -/
  | and (x : FmtR)
  /-- OR (R131). Bitwise OR of two registers. -/
  | or (x : FmtR)
  /-- XOR (R131). Bitwise XOR of two registers. -/
  | xor (x : FmtR)
  /-- SHL (R131). Shifts left by B[7:0], giving 0 for shifts of 32 or more. -/
  | shl (x : FmtR)
  /-- SHR (R131). Logical right shift by B[7:0]. -/
  | shr (x : FmtR)
  /-- SAR (R131). Arithmetic right shift by min(B[7:0], 31). -/
  | sar (x : FmtR)
  /-- ROL (R131). Rotates left by B[4:0]. -/
  | rol (x : FmtR)
  /-- BFX (R132). Extracts a zero-extended bit field. -/
  | bfx (x : FmtR)
  /-- BFI (R132). Inserts a bit field of A into C. -/
  | bfi (x : FmtR)
  /-- ISEL (R136). Selects A or B by a predicate named in G, in every active member. -/
  | isel (x : FmtR)
  /-- ICMP (R135). Compares two registers under a condition and writes a predicate. -/
  | icmp (x : FmtC)
  /-- IADD (R131). Adds a sign-extended immediate to a register. -/
  | iaddLi (x : FmtR)
  /-- AND (R131). Bitwise AND of a register and an immediate. -/
  | andLi (x : FmtR)
  /-- OR (R131). Bitwise OR of a register and an immediate. -/
  | orLi (x : FmtR)
  /-- XOR (R131). Bitwise XOR of a register and an immediate. -/
  | xorLi (x : FmtR)
  /-- SHL (R131). Shifts left by an immediate amount. -/
  | shlLi (x : FmtR)
  /-- SHR (R131). Logical right shift by an immediate amount. -/
  | shrLi (x : FmtR)
  /-- SAR (R131). Arithmetic right shift by an immediate amount. -/
  | sarLi (x : FmtR)
  /-- ICMP (R135). Compares a register with an immediate and writes a predicate. -/
  | icmpLi (x : FmtC)
  /-- IABS (R137). Absolute value mod 2^32. -/
  | iabs (x : FmtU)
  /-- INEG (R137). Negation mod 2^32. -/
  | ineg (x : FmtU)
  /-- NOT (R137). Bitwise complement. -/
  | not (x : FmtU)
  /-- POPC (R137). Counts the set bits. -/
  | popc (x : FmtU)
  /-- CLZ (R137). Counts leading zero bits. -/
  | clz (x : FmtU)
  /-- BREV (R137). Reverses the bit order. -/
  | brev (x : FmtU)
  /-- MOV (R137). Copies a register. -/
  | mov (x : FmtU)
  /-- MOVI (R138). Writes a sign-extended 17-bit immediate to every active member. -/
  | movi (x : FmtW17)
  /-- PAND (R139). ANDs two predicates. -/
  | pand (x : FmtP30)
  /-- POR (R139). ORs two predicates. -/
  | por (x : FmtP30)
  /-- PXOR (R139). XORs two predicates. -/
  | pxor (x : FmtP30)
  /-- PNOT (R139). Complements a predicate. -/
  | pnot (x : FmtP20)
  /-- P2V (R140). Moves p0-p6 into the low bits of a v register. -/
  | p2v (x : FmtD1)
  /-- V2P (R140). Sets p0-p6 from the low bits of a register. -/
  | v2p (x : FmtA1)
  /-- BARA (R362). Arrives at a barrier, adds expected bytes and returns the phase, as a PLT release. -/
  | bara (x : FmtR)
  /-- BARW (R362). Parks the member until the named barrier phase completes. -/
  | barw (x : FmtRW)
  /-- BART (R362). Tests whether a barrier phase has completed without waiting. -/
  | bart (x : FmtR)
  /-- CNARROW (R404). Derives a capability narrowed to an offset and length, clearing the tag if it reaches beyond the source. -/
  | cnarrow (x : FmtCN)
  /-- CRIGHT (R404). Removes rights named by a mask from a capability. -/
  | cright (x : FmtCN)
  /-- CMOV (R404). Copies a capability register with its tag. -/
  | cmov (x : FmtCM)
  /-- CBASE (R405). Reads a capability's BASE into a register pair. -/
  | cbase (x : FmtCQ)
  /-- CLEN (R405). Reads a capability's LEN into a register pair. -/
  | clen (x : FmtCQ)
  /-- CVALID (R405). Reads a capability's tag, rights and kind. -/
  | cvalid (x : FmtCQ)
  /-- MFSR (R393). Reads a context system register, privileged. -/
  | mfsr (x : FmtMF)
  /-- MTSR (R393). Writes a context system register, dropping cached extents for object-table registers. -/
  | mtsr (x : FmtMT)
  /-- ERET (R424). Ends the handler fibre and resumes, aborts or escalates the halted plot, once its signed instances complete. -/
  | eret (x : FmtE1)
  /-- HALT (R425). Stops the issuing plot with stop cause 24 and escalates it to the reeve. -/
  | halt (x : FmtN)
  /-- DBGB (R425). Raises DBG in every member, halting the plot for the debugger or the handler. -/
  | dbgb (x : FmtN)
  /-- FADD (R141). Floating-point addition with one rounding. -/
  | fadd (x : FmtR)
  /-- FSUB (R141). Floating-point subtraction with one rounding. -/
  | fsub (x : FmtR)
  /-- FMUL (R141). Floating-point multiplication with one rounding. -/
  | fmul (x : FmtR)
  /-- FFMA (R141). Fused multiply-add with one rounding, addend defaulting to D. -/
  | ffma (x : FmtR)
  /-- FMIN (R142). Returns the smaller operand, ignoring a single NaN. -/
  | fmin (x : FmtR)
  /-- FMAX (R142). Returns the larger operand, ignoring a single NaN. -/
  | fmax (x : FmtR)
  /-- FCMP (R143). Compares two FP32 values under a quiet condition and writes a predicate. -/
  | fcmp (x : FmtC0)
  /-- DOT4 (R149). Adds the exact dot product of four INT8 pairs to C. -/
  | dot4 (x : FmtR)
  /-- FDOT2 (R150). Adds the exact dot product of two FP16 pairs to an FP32 C with one rounding. -/
  | fdot2 (x : FmtR)
  /-- QDOT.E2M1 (R151). Adds a block-scaled E2M1 block contribution from a lane pair to each lane's FP32 accumulator. -/
  | qdotE2m1 (x : FmtRP)
  /-- QDOT.INT4 (R151). Adds a block-scaled INT4 block contribution from a lane pair to each lane's FP32 accumulator. -/
  | qdotInt4 (x : FmtRP)
  /-- QDOT.UINT4 (R151). Adds a block-scaled UINT4 block contribution from a lane pair to each lane's FP32 accumulator. -/
  | qdotUint4 (x : FmtRP)
  /-- FPACK (R147). Converts two FP32 values into two packed elements of a narrow format. -/
  | fpack (x : FmtR)
  /-- FUNPK (R148). Widens one packed element to FP32 exactly. -/
  | funpk (x : FmtFE)
  /-- FCVT (R146). Converts between formats and lane types with rounding and saturation. -/
  | fcvt (x : FmtFE)
  /-- FCLASS (R144). Writes a one-hot classification of a floating-point value. -/
  | fclass (x : FmtU)
  /-- FRND (R145). Rounds to an integral value in the same format. -/
  | frnd (x : FmtU)
  /-- EXP2 (R153). Computes 2^x within 1 ulp. -/
  | exp2 (x : FmtU0)
  /-- LOG2 (R153). Computes log2 x within 1 ulp. -/
  | log2 (x : FmtU0)
  /-- RCP (R153). Computes 1/x correctly rounded. -/
  | rcp (x : FmtU0)
  /-- RSQ (R153). Computes 1/sqrt x correctly rounded. -/
  | rsq (x : FmtU0)
  /-- SQRT (R153). Computes sqrt x correctly rounded. -/
  | sqrt (x : FmtU0)
  /-- SIN (R153). Computes sin x in radians. -/
  | sin (x : FmtU0)
  /-- COS (R153). Computes cos x in radians. -/
  | cos (x : FmtU0)
  /-- TANH (R153). Computes tanh x within 2 ulp. -/
  | tanh (x : FmtU0)
  /-- SIGM (R153). Computes the logistic sigmoid within 2 ulp. -/
  | sigm (x : FmtU0)
  /-- SHFL.IDX (R156). Reads A from the participant in the lane named by B. -/
  | shflIdx (x : FmtR0)
  /-- SHFL.UP (R156). Reads A from the participant B lanes below. -/
  | shflUp (x : FmtR0)
  /-- SHFL.DN (R156). Reads A from the participant B lanes above. -/
  | shflDn (x : FmtR0)
  /-- SHFL.XOR (R156). Reads A from the participant in lane L XOR B. -/
  | shflXor (x : FmtR0)
  /-- VOTE.ANY (R157). Returns 1 if the predicate holds in some participant. -/
  | voteAny (x : FmtV0)
  /-- VOTE.ALL (R157). Returns 1 if the predicate holds in every participant. -/
  | voteAll (x : FmtV0)
  /-- VOTE.BAL (R157). Returns the ballot of the predicate over participating lanes. -/
  | voteBal (x : FmtV0)
  /-- LRED.ADD (R158). Returns the sum of A over all participants. -/
  | lredAdd (x : FmtU0)
  /-- LRED.MIN (R158). Returns the signed minimum of A over participants. -/
  | lredMin (x : FmtU0)
  /-- LRED.MAX (R158). Returns the signed maximum of A over participants. -/
  | lredMax (x : FmtU0)
  /-- LRED.AND (R158). Returns the bitwise AND of A over participants. -/
  | lredAnd (x : FmtU0)
  /-- LRED.OR (R158). Returns the bitwise OR of A over participants. -/
  | lredOr (x : FmtU0)
  /-- LRED.XOR (R158). Returns the bitwise XOR of A over participants. -/
  | lredXor (x : FmtU0)
  /-- LRED.MIN.U (R158). Returns the unsigned minimum of A over participants. -/
  | lredMinU (x : FmtU0)
  /-- LRED.MAX.U (R158). Returns the unsigned maximum of A over participants. -/
  | lredMaxU (x : FmtU0)
  /-- MATCH (R159). Returns the mask of participating lanes whose A equals the member's own. -/
  | matchLanes (x : FmtU0)
  /-- LD.8 (R258). Plain load of 1 byte, zero-extended. -/
  | ld8 (x : FmtM)
  /-- LD.16 (R258). Plain load of 2 bytes, zero-extended. -/
  | ld16 (x : FmtM)
  /-- LD.32 (R258). Plain load of 4 bytes. -/
  | ld32 (x : FmtM)
  /-- LD.64 (R258). Plain load of 8 bytes into a register pair. -/
  | ld64 (x : FmtM)
  /-- LD.128 (R258). Plain load of 16 bytes into a register quad. -/
  | ld128 (x : FmtM)
  /-- LD.8.S (R258). Plain load of 1 byte, sign-extended. -/
  | ld8S (x : FmtM)
  /-- LD.16.S (R258). Plain load of 2 bytes, sign-extended. -/
  | ld16S (x : FmtM)
  /-- ST.8 (R258). Plain store of 1 byte. -/
  | st8 (x : FmtM)
  /-- ST.16 (R258). Plain store of 2 bytes. -/
  | st16 (x : FmtM)
  /-- ST.32 (R258). Plain store of 4 bytes. -/
  | st32 (x : FmtM)
  /-- ST.64 (R258). Plain store of 8 bytes from a register pair. -/
  | st64 (x : FmtM)
  /-- ST.128 (R258). Plain store of 16 bytes from a register quad. -/
  | st128 (x : FmtM)
  /-- LDS.8 (R261). Scratchpad load of 1 byte, zero-extended. -/
  | lds8 (x : FmtMS)
  /-- LDS.16 (R261). Scratchpad load of 2 bytes, zero-extended. -/
  | lds16 (x : FmtMS)
  /-- LDS.32 (R261). Scratchpad load of 4 bytes. -/
  | lds32 (x : FmtMS)
  /-- LDS.64 (R261). Scratchpad load of 8 bytes. -/
  | lds64 (x : FmtMS)
  /-- LDS.128 (R261). Scratchpad load of 16 bytes. -/
  | lds128 (x : FmtMS)
  /-- LDS.8.S (R261). Scratchpad load of 1 byte, sign-extended. -/
  | lds8S (x : FmtMS)
  /-- LDS.16.S (R261). Scratchpad load of 2 bytes, sign-extended. -/
  | lds16S (x : FmtMS)
  /-- STS.8 (R261). Scratchpad store of 1 byte. -/
  | sts8 (x : FmtMS)
  /-- STS.16 (R261). Scratchpad store of 2 bytes. -/
  | sts16 (x : FmtMS)
  /-- STS.32 (R261). Scratchpad store of 4 bytes. -/
  | sts32 (x : FmtMS)
  /-- STS.64 (R261). Scratchpad store of 8 bytes. -/
  | sts64 (x : FmtMS)
  /-- STS.128 (R261). Scratchpad store of 16 bytes. -/
  | sts128 (x : FmtMS)
  /-- LDA (R259). Acquire load at a scope, with drains and invalidation at DIE scope and wider. -/
  | lda (x : FmtM)
  /-- STR (R259). Release store at a scope, lazy or eager at DIE scope and wider. -/
  | str (x : FmtM)
  /-- LDK (R260). Constant load from a sealed object into constant L1 lines. -/
  | ldk (x : FmtM0)
  /-- ATOM.ADD (R266). Atomic add returning the old value. -/
  | atomAdd (x : FmtMN)
  /-- ATOM.MIN (R266). Atomic minimum returning the old value. -/
  | atomMin (x : FmtMN)
  /-- ATOM.MAX (R266). Atomic maximum returning the old value. -/
  | atomMax (x : FmtMN)
  /-- ATOM.AND (R266). Atomic bitwise AND on an integer type, returning the old value. -/
  | atomAnd (x : FmtMN)
  /-- ATOM.OR (R266). Atomic bitwise OR on an integer type, returning the old value. -/
  | atomOr (x : FmtMN)
  /-- ATOM.XOR (R266). Atomic bitwise XOR on an integer type, returning the old value. -/
  | atomXor (x : FmtMN)
  /-- ATOM.EXCH (R266). Atomic exchange returning the old value. -/
  | atomExch (x : FmtMN)
  /-- ATOM.CAS (R266). Atomic compare-and-swap by bit equality, returning the old value. -/
  | atomCas (x : FmtMN)
  /-- ATOM.INC (R266). Atomic unsigned increment that wraps to 0 at the operand. -/
  | atomInc (x : FmtMN)
  /-- RED.ADD (R266). Atomic add without a return value, or accumulation into a commutative range. -/
  | redAdd (x : FmtMN)
  /-- RED.MIN (R266). Atomic minimum without a return value. -/
  | redMin (x : FmtMN)
  /-- RED.MAX (R266). Atomic maximum without a return value. -/
  | redMax (x : FmtMN)
  /-- RED.AND (R266). Atomic bitwise AND without a return value. -/
  | redAnd (x : FmtMN)
  /-- RED.OR (R266). Atomic bitwise OR without a return value. -/
  | redOr (x : FmtMN)
  /-- RED.XOR (R266). Atomic bitwise XOR without a return value. -/
  | redXor (x : FmtMN)
  /-- PREF (R276). Prefetches a line into L1 or its home slice without being an access. -/
  | pref (x : FmtM)
  /-- WAITA.EQ (R273). Parks until the word at the home equals the comparand. -/
  | waitaEq (x : FmtMN0)
  /-- WAITA.NE (R273). Parks until the word at the home differs from the comparand. -/
  | waitaNe (x : FmtMN0)
  /-- WAITA.GE (R273). Parks until the word at the home is unsigned at or above the comparand. -/
  | waitaGe (x : FmtMN0)
  /-- LDLAT (R286). Reads a lattice cell of the local replica, parking until it passes a threshold, with optional acquire. -/
  | ldlat (x : FmtMQ)
  /-- LJOIN (R285). Joins an operand into a lattice cell of the local replica, with optional release. -/
  | ljoin (x : FmtMQ)
  /-- PUBL (R277). Publishes a code range from W to X in the background, completing as a release. -/
  | publ (x : FmtM0)
  /-- CLD (R262). Loads a 16-byte capability with its tag. -/
  | cld (x : FmtMC)
  /-- CST (R262). Stores a 16-byte capability with its tag. -/
  | cst (x : FmtMC)
  /-- FENCE (R271). Orders the fibre's accesses at a scope, writing back and invalidating at DIE scope and wider. -/
  | fence (x : FmtSC0)
  /-- WAIT (R272). Parks until the four outstanding counters are at or below their limits. -/
  | wait (x : FmtWT0)
  /-- BRA (R344). PC-relative branch. -/
  | bra (x : FmtB)
  /-- BRA.J (R345). Branch that adds every unmasked member to the opened set of a join slot. -/
  | braJ (x : FmtBJ)
  /-- BRX (R346). Indexed branch through a table of displacements read as a plain load. -/
  | brx (x : FmtTB0)
  /-- CALL (R344). Branch that writes the return offset into the last window register. -/
  | call (x : FmtB)
  /-- LOOP (R350). Starts a hardware loop counter, skipping the body for a zero count. -/
  | loop (x : FmtLP)
  /-- SPAWN (R355). Creates a fibre per true-guarded member with the lowest free FID and puts it in a bin. -/
  | spawn (x : FmtSP)
  /-- JOIN (R352). Records arrival at a join slot and holds the fibre until the slot releases. -/
  | join (x : FmtJ0)
  /-- NOP (R348). Has no effect. -/
  | nop (x : FmtG)
  /-- RET (R347). Sets the PC from a register. -/
  | ret (x : FmtA1)
  /-- EXIT (R356). Ends each true-guarded member, removing it from sets and slots. -/
  | exit (x : FmtG)
  /-- YIELD (R348). Dissolves the furrow, its members ready again with age 0. -/
  | yield (x : FmtN)
  /-- BIND (R353). Pins the issuing furrow as a bound region. -/
  | bind (x : FmtN)
  /-- UNBIND (R353). Ends a bound region and dissolves its furrow. -/
  | unbind (x : FmtN)
  /-- PMARK (R357). Adds the number of true-guarded members to the plot's STEP. -/
  | pmark (x : FmtG)
  /-- SIGN (R360). Makes a neutral signature on the next instance of a convergence set. -/
  | sign (x : FmtSG0)
  /-- CVSET (R358). Joins the fibre to a convergence set, fixing the count of a free set. -/
  | cvset (x : FmtCV0)
  /-- S2V (R75). Reads a special register into a v register. -/
  | s2v (x : FmtSR0)
  /-- PDLOG (R365). Appends the fibre's path digest record to a log at its home. -/
  | pdlog (x : FmtTB0)
  /-- TRAP (R423). Raises TRAPI precisely with a trap number. -/
  | trap (x : FmtTR0)
  /-- SYSC (R423). Raises TRAPI precisely to ask the handler for a service. -/
  | sysc (x : FmtTR0)
  /-- UADD (R367). Uniform add of two k registers. -/
  | uadd (x : FmtUR)
  /-- USUB (R367). Uniform subtract of two k registers. -/
  | usub (x : FmtUR)
  /-- UMUL (R367). Uniform multiply of two k registers. -/
  | umul (x : FmtUR)
  /-- UMAD (R367). Uniform multiply-add. -/
  | umad (x : FmtUR)
  /-- UAND (R367). Uniform bitwise AND. -/
  | uand (x : FmtUR)
  /-- UOR (R367). Uniform bitwise OR. -/
  | uor (x : FmtUR)
  /-- UXOR (R367). Uniform bitwise XOR. -/
  | uxor (x : FmtUR)
  /-- USHL (R367). Uniform left shift. -/
  | ushl (x : FmtUR)
  /-- USHR (R367). Uniform logical right shift. -/
  | ushr (x : FmtUR)
  /-- UMIN (R367). Uniform minimum, signed or unsigned by F. -/
  | umin (x : FmtUM)
  /-- UMAX (R367). Uniform maximum, signed or unsigned by F. -/
  | umax (x : FmtUM)
  /-- UMOV (R367). Uniform register copy. -/
  | umov (x : FmtU2)
  /-- UCMP (R367). Uniform compare writing 1 or 0. -/
  | ucmp (x : FmtUF)
  /-- USEL (R367). Uniform select by the destination's prior value. -/
  | usel (x : FmtUR)
  /-- UCNAR (R368). Narrows a uniform capability, clearing the tag if it would widen. -/
  | ucnar (x : FmtUN)
  /-- UADD (R367). Uniform add of a sign-extended immediate. -/
  | uaddUi (x : FmtUI)
  /-- UAND (R367). Uniform AND with a zero-extended immediate. -/
  | uandUi (x : FmtUI)
  /-- UOR (R367). Uniform OR with a zero-extended immediate. -/
  | uorUi (x : FmtUI)
  /-- USHL (R367). Uniform left shift by an immediate. -/
  | ushlUi (x : FmtUI)
  /-- USHR (R367). Uniform right shift by an immediate. -/
  | ushrUi (x : FmtUI)
  /-- UMOVI (R367). Uniform move of a sign-extended immediate. -/
  | umovi (x : FmtUI)
  /-- SBLD (R180). Loads a B tile into a seedbed slot with its finite bit and checksum column. -/
  | sbld (x : FmtEL)
  /-- MMRUN (R182). Drills A rows through a slot into accumulator rows. -/
  | mmrun (x : FmtER)
  /-- MMOUT (R186). Drains accumulator rows through bias, activation and requantisation into the scratchpad. -/
  | mmout (x : FmtEO)
  /-- MTAB (R183). Loads the 256-segment activation table. -/
  | mtab (x : FmtEL)
  /-- MBIAS (R183). Loads the 256-entry column parameter vector. -/
  | mbias (x : FmtEL)
  /-- COPY.GS (R304). Copies global memory into the scratchpad. -/
  | copyGs (x : FmtXS)
  /-- COPY.SG (R304). Copies the scratchpad to global memory. -/
  | copySg (x : FmtXD)
  /-- COPY.GG (R304). Copies global memory to global memory. -/
  | copyGg (x : FmtXB)
  /-- TCOPY.GS (R312). Copies a shaped tensor from global memory to the scratchpad. -/
  | tcopyGs (x : FmtXS)
  /-- TCOPY.SG (R312). Copies a shaped tensor from the scratchpad to global memory. -/
  | tcopySg (x : FmtXD)
  /-- COPYP.IN (R305). Copies from a peer CORE page into the own scratchpad. -/
  | copypIn (x : FmtXS)
  /-- COPYP.OUT (R305). Copies from the own scratchpad into a peer CORE page. -/
  | copypOut (x : FmtXD)
  /-- COLL (R313). Joins a collective reduce, allreduce or allgather of a fabric group. -/
  | coll (x : FmtXN)
  /-- BARINIT (R309). Writes a barrier object whole in the scratchpad. -/
  | barinit (x : FmtXI)
  /-- SOW (R370). Launches a child field from a launch record and writes a status. -/
  | sow (x : FmtXW)
  /-- LDLAYER (R453). Takes a reference on a crop layer, waiting for its swap-in, and mints a capability for its weights. -/
  | ldlayer (x : FmtLY)
  /-- RELLAYER (R454). Releases a reference on a crop layer and clears the capability. -/
  | rellayer (x : FmtLZ)
  /-- MINT (R406). Creates a tagged capability checked against the object table, privileged. -/
  | mint (x : FmtMI)
  /-- SEAL (R402). Seals an object irrevocably, revoking write rights and publishing code. -/
  | seal (x : FmtSL)
  /-- OBJINV (R401). Drops cached extents of an object at every port and sends drops to cores. -/
  | objinv (x : FmtOB)
  /-- MIGR (R408). Starts migration of one page to a new descriptor. -/
  | migr (x : FmtOQ)
  /-- BIAS.D (R409). Moves a CXL.mem-exposed page to device-bias. -/
  | biasD (x : FmtOE)
  /-- BIAS.H (R409). Moves a CXL.mem-exposed page to host-bias. -/
  | biasH (x : FmtOE)
  /-- UNPUBL (R410). Moves code pages from X back to W after recalling instruction-cache copies. -/
  | unpubl (x : FmtOQ)
  /-- UNIFORM_PIPE_EXECUTE (R366). A complete instance that waited executes in the uniform pipe in completion order. -/
  | uniformPipeExecute (core : Nat)
  /-- UNIFORM_RESULT_WRITE (R49). An executed uniform instance writes its destination and wakes fibres parked on it. -/
  | uniformResultWrite (core : Nat)
  /-- LANE_RESULT_WRITE (R130). A lane result becomes consumable after its latency and sets its FLG bits. -/
  | laneResultWrite (pid : Nat)
  /-- LOAD_RETURN (R254). A load's answer writes its register and frees its count. -/
  | loadReturn (pid : Nat)
  /-- STORE_ACKNOWLEDGE (R228). The home acknowledges a store or release, freeing the stores count. -/
  | storeAcknowledge (pid : Nat)
  /-- FORM_FURROW (R37). Each ccy the furrow former forms at most one furrow per quadrant with a free slot. -/
  | formFurrow (core quad : Nat)
  /-- FILL_WAIT_EXPIRY (R38). A passed-over group below 32 fibres is formed after 4 ccy. -/
  | fillWaitExpiry (pid pc : Nat)
  /-- GROUP_PROMOTION (R38). A group whose oldest fibre has been ready 256 ccy is promoted. -/
  | groupPromotion (pid pc : Nat)
  /-- ISSUE_SELECT (R334). Each ccy each quadrant issues at most one issuable furrow. -/
  | issueSelect (core quad : Nat)
  /-- FURROW_PROMOTION (R334). A furrow issuable for 64 ccy without issuing is promoted. -/
  | furrowPromotion (core quad : Nat)
  /-- BIN_TIMER_EXPIRY (R34). A bin is released when its timer reaches the field's bin timer. -/
  | binTimerExpiry (core : Nat)
  /-- JOIN_HOLD_EXPIRY (R52). A join slot releases when its hold timer reaches the join-hold limit. -/
  | joinHoldExpiry (pid slot : Nat)
  /-- ENGINE_QUEUE_ENTRY (R187). An executed engine command that waited for room enters its engine queue. -/
  | engineQueueEntry (core : Nat)
  /-- MATRIX_COMMAND_START (R187). A queued matrix command starts on its path when the path is free and interlocks allow. -/
  | matrixCommandStart (core : Nat)
  /-- SCRATCHPAD_PORT_GRANT (R187). A load-path command waiting for the scratchpad port obtains it. -/
  | scratchpadPortGrant (core : Nat)
  /-- MATRIX_COMMAND_COMPLETE (R187). A matrix command completes and frees its signers' engine-operations counts. -/
  | matrixCommandComplete (core : Nat)
  /-- WAIN_COMMAND_START (R310). The oldest unstarted wain command starts when the scoreboard allows and fewer than 4 run. -/
  | wainCommandStart (core : Nat)
  /-- PIECE_LANDED (R306). A piece lands, subtracting its bytes from the barrier's PEND. -/
  | pieceLanded (core : Nat)
  /-- COLL_ROOT_RESULT (R314). The root forms a reduction result from the exact sum and flags. -/
  | collRootResult (ctx gid : Nat)
  /-- HOME_REQUEST (R232). A home serves an arriving request in round-robin order in the line's coherence order. -/
  | homeRequest
  /-- DRAIN (R229). A core receiving a drain writes back Dirty-partial lines up to the epoch and acknowledges. -/
  | drain (core : Nat)
  /-- DRAIN_ACKNOWLEDGE (R229). The last drain acknowledgement lets the home clear records and perform the acquire. -/
  | drainAcknowledge (core : Nat)
  /-- RECALL (R244). A core or engine receiving a recall returns the line to its home. -/
  | recall (core ctx obj line : Nat)
  /-- GATHER (R240). A contributor receiving a gather returns and drops its partials of a range line. -/
  | gather (core ctx obj line : Nat)
  /-- WRITE_BACK (R203). A write-back arriving at the home is applied by its byte mask. -/
  | writeBack
  /-- L1_EVICTION (R202). An L1 evicts a line, writing back its dirty bytes or partials. -/
  | l1Eviction (core ctx obj line : Nat)
  /-- OWNERSHIP_RETRY (R232). After its backoff, a requester answered with retry sends its ownership request again. -/
  | ownershipRetry
  /-- WATCH_RETEST (R274). A WAITA watch is retested every 1,024 ccy. -/
  | watchRetest (pid fid : Nat)
  /-- LDLAT_RETEST (R287). An LDLAT without a directory watch retests every 256 ccy. -/
  | ldlatRetest (pid fid : Nat)
  /-- OBJECT_DROP (R401). A core receiving a drop drops, writes back and invalidates its lines of the object. -/
  | objectDrop (core ctx obj : Nat)
  /-- MIGRATION_LINE_COPY (R211). The migration copies the next line with its registrations and advances its pointer. -/
  | migrationLineCopy (ctx obj page : Nat)
  /-- MIGRATION_COMPLETE (R408). The old home writes the new descriptor with release and drops the page's extents. -/
  | migrationComplete (ctx obj page : Nat)
  /-- PUBL_LINE_MOVE (R247). The publishing port moves one line from W to X. -/
  | publLineMove
  /-- PUBL_COMPLETE (R247). A publish completes once X states are visible at the instance's ports, as a release. -/
  | publComplete
  /-- HOST_ATOMIC_COMPLETION (R269). A PCIe AtomicOp completes and the next member's AtomicOp is sent. -/
  | hostAtomicCompletion
  /-- HOST_SNOOP (R208). The host agent answers a host snoop by recalling L1 copies. -/
  | hostSnoop (addr : HostSnoop)
  /-- HOST_MEM_READ (R209). A host read over CXL.mem is served by the home after recalls. -/
  | hostMemRead (ctx obj off size : Nat)
  /-- HOST_MEM_WRITE (R209). A host write over CXL.mem is served by the home, or dropped and logged for lattice or X pages. -/
  | hostMemWrite (ctx obj off : Nat) (bytes : List Byte) (poison : Bool)
  /-- EXCHANGE_TICK (R291). An exchange agent's period expires and it ships changed lines to its schedule's dies. -/
  | exchangeTick (die ctx obj : Nat)
  /-- LATTICE_MERGE (R290). A shipped line is merged into the receiving replica at its home. -/
  | latticeMerge
  /-- TAKE_RECORD (R324). The reeve of die 0 takes a launch record past TAIL and advances HEAD. -/
  | takeRecord (ctx list : Nat)
  /-- TAIL_RETEST (R324). A stopped list's TAIL is reread every 100 us. -/
  | tailRetest (ctx list : Nat)
  /-- FIELD_ELIGIBLE (R328). A field's dependency test passes and its plots become candidates. -/
  | fieldEligible (ctx fld : Nat)
  /-- PLACE_PLOT (R331). The reeves place the highest-ranked fitting candidate on the core its placement selects. -/
  | placePlot
  /-- GANG_WAIT_LIMIT (R333). A fallow set standing 200 us makes the reeves save plots on its cores. -/
  | gangWaitLimit
  /-- GANG_OF_ONE (R332). A non-gang plot unplaced for 200 us is treated as a gang of one plot. -/
  | gangOfOne
  /-- RESTORE_ROOM (R337). A saved plot unplaced for 50 us makes the reeves save parked plots to give it room. -/
  | restoreRoom
  /-- PLOT_RETIREMENT (R55). A plot whose fibres, commands and stores are all complete retires and frees its resources. -/
  | plotRetirement (pid : Nat)
  /-- PORT_FAULT_REPORT (R414). A port or command fault report reaches the plot's core and starts a halt. -/
  | portFaultReport (pid : Nat)
  /-- HALT_COMPLETE (R417). A halt completes once every fibre has stopped and pending results have finished. -/
  | haltComplete (pid : Nat)
  /-- HALT_FRAME_WRITE (R421). The handler slot being free, the frame is written for the first queued plot. -/
  | haltFrameWrite (core : Nat)
  /-- HANDLER_START (R421). The handler fibre starts at its entry 16 ccy after its frame is written. -/
  | handlerStart (core : Nat)
  /-- HANDLER_TIMEOUT (R422). A handler without ERET after 10 ms escalates its plot. -/
  | handlerTimeout (core : Nat)
  /-- HOST_ESCALATION_ANSWER (R426). The host answers an escalation with resume, abort plot or abort field. -/
  | hostEscalationAnswer (pid action : Nat) (edits : List (Nat × Byte))
  /-- PREEMPTION_REQUEST (R431). A pre-emption request takes effect on a plot, choosing retire, flush, drain or save. -/
  | preemptionRequest (req : PreemptSet) (lb : Nat)
  /-- DRAIN_BUDGET_EXPIRY (R433). A drained plot not retired after LB is saved. -/
  | drainBudgetExpiry (pid : Nat)
  /-- SAVE (R435). After the stop completes, the core commits, writes back and writes the save image, freeing resources. -/
  | save (pid : Nat)
  /-- RESTORE (R441). A placed saved plot loads its image and its fibres resume or retest their waits. -/
  | restore (pid : Nat)
  /-- CONTEXT_SWITCH (R444). A request pre-empts every plot of a context and stops taking its records. -/
  | contextSwitch (ctx lb : Nat)
  /-- CONTEXT_CREATE (R390). The host creates a context and binds launch lists through the reeve interface. -/
  | contextCreate (cfg : CtxCfg)
  /-- CROP_REGISTRATION (R445). System software registers a crop, refused if a weight object is not sealed. -/
  | cropRegistration (cfg : CropCfg)
  /-- SWAP_IN (R448). The reeve starts the next queued layer swap-in of a crop, joining the arriving state. -/
  | swapIn (ctx crop : Nat)
  /-- SWAP_IN_COMPLETE (R448). When every piece has landed, the count word is reset and the resident state joined with release. -/
  | swapInComplete (ctx crop : Nat)
  /-- SWAP_IN_TIMEOUT (R448). A source silent for 100 ms, or a port fault, joins the failed state. -/
  | swapInTimeout (ctx crop : Nat)
  /-- UNCORRECTABLE_ERROR (R457). An uncorrectable storage error poisons, refetches or stops as its structure gives. -/
  | uncorrectableError (at_ : ErrSite)
  /-- SCRUB (R458). Scrubbing visits a protected word, rewriting corrected data and poisoning the rest. -/
  | scrub (at_ : ErrSite) (bad : ScrubFind)
  /-- FLIT_REPLAY (R460). A die-link flit failing CRC is replayed, and after 8 failures lost with a retrain. -/
  | flitReplay (boundary : Nat) (load : FlitLoad)
  /-- LINK_RETRAIN_COMPLETE (R460). A retraining boundary resumes carrying its waiting traffic. -/
  | linkRetrainComplete (boundary : Nat)
  /-- LINK_DOWN (R460). A boundary not retrained within 10 ms is down, a fatal error. -/
  | linkDown (boundary : Nat)
  /-- CONTROL_TIMEOUT (R462). A home times out a lost control flit after 16,384 ccy and poisons the lines. -/
  | controlTimeout (boundary : Nat) (lines : List LineRef)
  /-- LATE_ANSWER (R462). An answer arriving after the timeout is discarded. -/
  | lateAnswer
  /-- YOTIS_FLIT_LOST (R463). A Yotis flit lost after 8 replays ends its COPY or COLL with POISON. -/
  | yotisFlitLost (port core : Nat)
  /-- HOST_LINK_DOWN (R463). The host link going down is a fatal error. -/
  | hostLinkDown
  /-- DEBUGGER_HALT (R465). A debugger halts one die's execution while its memory side keeps running. -/
  | debuggerHalt (die : Nat)
  /-- DEBUGGER_RESUME (R465). A halted die resumes and faults that arrived are handled. -/
  | debuggerResume (die : Nat)
  /-- POWER_GOOD (R468). Power good starts the reeve's coming-up stages. -/
  | powerGood
  /-- STAGE_COMPLETE (R468). A coming-up stage completes, advancing STAGE or setting READY or FAIL. -/
  | stageComplete (fail fdet : Nat)
  /-- PERST_DEASSERT (R468). The host port trains and answers configuration requests after PERST# is deasserted. -/
  | perstDeassert
  /-- CLOCK_REBALANCE (R339). At each 20 us window the power controller of a die, with its budget in watts and the parked fraction that it has measured for
  each core that takes part, moves the clocks of its cores. -/
  | clockRebalance (die : Nat) (budget : Nat) (frac : List (Nat × Nat))
  /-- THERMAL_THROTTLE (R470). A die at 95 C has its clocks lowered. -/
  | thermalThrottle (die : Nat)
  /-- THERMAL_SHUTDOWN (R470). A die at 105 C writes a fatal record and loses power. -/
  | thermalShutdown (die : Nat)
  /-- MONITOR_WINDOW (R471). A monitor freezes its results at the end of each window and starts afresh. -/
  | monitorWindow (die mon : Nat)
  /-- MONITOR_CONTROL_WRITE (R471). A write to a monitor's control word selects its source, bins and window. -/
  | monitorControlWrite (die mon : Nat) (w : BitVec 64)
  /-- MANAGEMENT_REGISTER_WRITE (R470). A management-port write sets the power limit, scrub period or fixed clocks. -/
  | managementRegisterWrite (reg : MgmtReg) (v : Nat)
  /-- CONTEXT_DESTROY (R390). The host destroys a context through the reeve interface. -/
  | contextDestroy (ctx : Nat)
  /-- CONTEXT_SWITCH_BACK (R444). Switching back makes the context's saved plots candidates again and resumes the taking of its records. -/
  | contextSwitchBack (ctx : Nat)
  /-- SAVE_POOL (R435). System software names or gives room in the context's save pool through the reeve interface, so that plots reported with code 5 can be saved. -/
  | savePool (ctx : Nat) (bytes : PoolOp)
  /-- DEBUGGER_ATTACH (R425). A debugger attaches to or detaches from a context through the reeve interface, deciding where DBGB halts go. -/
  | debuggerAttach (ctx : Nat) (on : Bool)
  /-- DEBUGGER_ACTION (R425). The debugger resumes or aborts a plot halted by DBGB with the actions of R424. -/
  | debuggerAction (pid action : Nat)
  /-- CORE_POWER_GATE (R233). A core is power-gated after writing back all its dirty, partial-sum and Owned lines, and homes then treat drains to it as acknowledged. -/
  | corePowerGate (core : Nat)
  /-- YOTIS_RETRAIN (R463). A Yotis port that retrains after a lost flit comes back up, or stays down and fails later commands routed through it. -/
  | yotisRetrain (port : Nat) (up : Bool)
  /-- PACKAGE_RESET (R456). The host resets the package after a fatal error, clearing die cycle counters, epochs and exchange rounds. -/
  | packageReset
  deriving DecidableEq, Repr

end Sys2Proof
end

