-- ==== Sys2Proof/Machine/State.lean ====
section
/-! DEFINITION. The state of the package as plain data: fibres, plots, fields, cores, dies, homes, contexts, the host's
side of the package, and the model's own fields; the faults and refusals of a step; the state after reset. -/

namespace Sys2Proof.Machine

/-! ### Capabilities and registers -/

/-- A capability register or granule: 128 bits and the out-of-band tag (R385). -/
structure Cap where
  bits : BitVec 128
  tag : Bool
  deriving DecidableEq, Repr

/-- An untagged capability of zero bits. -/
def Cap.null : Cap := ⟨0, false⟩

/-- A hardware loop counter: remaining count and the address of the LOOP that started it, with the first and the last
instruction of the body, which the part takes from the LOOP word when the LOOP issues (R350). -/
structure LoopCtr where
  count : Word
  addr : Pc
  first : Pc
  last : Pc
  deriving DecidableEq, Repr

/-! ### Waits -/

/-- Where a barrier lies: the plot's allocation, or an object address through a CORE page (R361). -/
inductive BarLoc where
  | own (off : Nat)
  | core (ctx obj off : Nat)
  deriving DecidableEq, Repr

/-- A line as a test of WAITA has found it at its home: how many writes its home has performed on it, its bytes as a number, its exact sums, its
poisoned granules (R274, R275). -/
structure LineView where
  writes : Nat
  bytes : Nat
  sums : List (Nat × Int)
  poison : List Nat
  deriving DecidableEq, Repr

/-- What a member parked in WAITA tests; the line as its last test found it, none before the first; when it is tested again if nothing is
written (R273, R274). -/
structure WatchWait where
  kind : Nat
  obj : Nat
  off : Nat
  cond : Nat
  cmp : Word
  size : Nat
  seen : Option LineView
  retest : Nat
  deriving DecidableEq, Repr

/-- What a member parked in LDLAT tests and writes (R286, R287). -/
structure LatWait where
  cap : Cap
  obj : Nat
  off : Nat
  ty : Nat
  thr : Option Nat
  acq : Bool
  dst : Nat
  size : Nat
  deriving DecidableEq, Repr

/-- The outstanding-operation classes (R254). -/
inductive OpClass where
  | loads
  | stores
  | copies
  | engine
  deriving DecidableEq, Repr

/-- Why a fibre is parked; the comment gives the PARK code of R440. The registers of uniformResult are k0 to k63 as 0 to 63 and
b0 to b15 as 64 to 79. -/
inductive Park where
  | waita (w : WatchWait)            -- 1
  | barw (l : BarLoc) (phase : Nat) (size : Nat)  -- 2
  | ldlat (w : LatWait)              -- 3
  | ldlayer (cset num : Nat)         -- 4
  | uniformResult (regs : List Nat)  -- 5
  | openLimit (cset : Nat)           -- 6
  | counter (c : OpClass)            -- 7
  | setClose (cset : Nat)            -- 8
  | wait (ld st cp eo : Nat)         -- 9
  | ownBarinit (off : Nat)           -- 10
  deriving DecidableEq, Repr

/-- The run states of R32 (halted is a state of the plot, exited fibres leave the list). -/
inductive RunState where
  | binned
  | ready (since : Nat)
  | inFurrow
  | parked (w : Park)
  | held (slot : Nat)
  deriving DecidableEq, Repr

/-- Why an issue waits at its instruction without having begun it: not any more, its wait before it being over (R298), for the plot's
resumption, signing being frozen (R414), for the members' earlier accesses (R225), for a way over a boundary that
retrains (R460), for what its core has sent to the homes (R231), for registers that loads are still to write, a registers as 128 and up
(R72, R256), for bytes that an earlier access of a member still has outstanding (R256). -/
inductive IssueWait where
  | ready
  | frozen
  | quiet
  | way
  | sent
  | operands (regs : List Nat)
  | bytes
  deriving DecidableEq, Repr

/-- A fibre's architectural state (R28). lane is the lane that it holds or held last; readyAt the cycle at which it last became
ready, from which its age counts (R38), or at which it parked (R337); flight whether it comes from a furrow that has dissolved (R38). -/
structure Fibre where
  fid : Nat
  pc : Pc
  preds : BitVec 7
  wbase : Nat
  v : List Word
  a : List Cap
  lc : List LoopCtr
  loads : Nat
  stores : Nat
  copies : Nat
  engine : Nat
  pathd : BitVec 64
  seq : List Nat
  run : RunState
  lane : Nat
  readyAt : Nat
  flight : Bool
  deriving DecidableEq, Repr

/-! ### Convergence sets and join slots -/

/-- One signature of an instance: the fibre, whether it is neutral (R45). -/
structure Signature where
  fid : Nat
  neutral : Bool
  deriving DecidableEq, Repr

/-- What an LDLAYER that has parked waits for: its crop and layer, and the residency word that readies it (R453). -/
structure LayerPark where
  crop : Nat
  layer : Nat
  thr : Nat
  deriving DecidableEq, Repr

/-- An open instance of a convergence set (R46): its number, the instruction and PC of its first non-neutral signature,
its signatures in order, its required signers at opening; whether an LDLAYER has asked for a
retry, or a SEAL has done its first part; an LDLAYER's Park (R402, R453). -/
structure Inst where
  num : Nat
  code : Option Instr
  pc : Pc
  size : Nat
  sigs : List Signature
  req : List Nat
  complete : Bool
  executed : Bool
  retried : Bool
  park : Option LayerPark
  deriving DecidableEq, Repr

/-- A convergence register (R30, R44): member count, how many have joined, live members, open instances, lowest instance not executed, next instance
to open. -/
structure CSet where
  count : Nat
  joined : Nat
  members : List Nat
  closed : Bool
  insts : List Inst
  low : Nat
  next : Nat
  deriving DecidableEq, Repr

/-- A free convergence set. -/
def CSet.free : CSet := ⟨0, 0, [], false, [], 0, 0⟩

/-- A join slot (R51, R52): opened fibres, arrived ones with the cycles of their arrivals, held ones with the cycles from which their ages
count, the cycle of the first arrival since the last release, from which the hold timer counts. -/
structure JSlot where
  opened : List Nat
  arrived : List (Nat × Nat)
  held : List (Nat × Nat)
  start : Option Nat
  deriving DecidableEq, Repr

/-- An empty join slot. -/
def JSlot.empty : JSlot := ⟨[], [], [], none⟩

/-! ### Faults of the machine, halts and records -/

/-- The fault codes of R413 that the part raises. A raised fault halts the plot and is a next state of the machine. -/
inductive FaultCode where
  | illop | priv | capt | capb | capr | objx | resn | latnm | latty | xne | xhalf | atomt | align | umis | swapf | layx
  | barx | nest | spwn | poison | mmchk | dbg | trapi | halt
  deriving DecidableEq, Repr

/-- What a fibre's record of a halt holds (R419). -/
structure FaultRec where
  code : FaultCode
  pc : Pc
  rpc : Option Pc
  obj : Nat
  off : Nat
  num : Nat
  sc : Bool
  unit : Nat
  acc : Nat
  more : Nat
  deriving DecidableEq, Repr

/-- Who is served by a halt that has completed (R421, R425, R426, R435). -/
inductive HaltPhase where
  | stopping
  | queued
  | withHandler
  | debugger
  | escalated
  | saving
  deriving DecidableEq, Repr

/-- What a pre-emption or an abort has chosen for a plot: a save that reports a code, flush-and-restart, the discard of an aborted field,
or a request that waits for the end of the plot's handler or of its restore with the cycle at which its budget ends (R424, R431 to R436). -/
inductive Intent where
  | save (code : Nat)
  | flush
  | abort
  | waiting (until_ : Nat)
  deriving DecidableEq, Repr

/-- A plot's halt (R414 to R419): the fault cycle, FIRST and FCAUSE, the records, the quadrants of the fibres that have faulted, the FID of
each instruction of the skid (R414, R415), the cycle from which the plot's timers stand still, who is served; done is the ccy in which it joined the
handler queue (R421), framed whether its frame stands in the reeve's copy already, as a restore has left it (R441). -/
structure Halt where
  fcyc : Nat
  first : Nat
  cause : Nat
  recs : List (Nat × FaultRec)
  quads : List Nat
  skids : List Nat
  since : Nat
  framed : Bool
  phase : HaltPhase
  toReeve : Bool
  done : Nat
  pcs : List (Nat × Pc)
  deriving DecidableEq, Repr

/-! ### Pending results -/

/-- A result that an access has obtained and not yet delivered (R254, R417). -/
inductive PendLoad where
  | regs (fid dst : Nat) (vals : List Word)
  | cap (fid dst : Nat) (c : Cap)
  | free (fid : Nat)
  | fault (fid : Nat) (r : FaultRec)
  deriving DecidableEq, Repr

/-- A store-class operation that has been performed and not yet been acknowledged (R254). -/
inductive PendStore where
  | done (fid : Nat)
  | fault (fid : Nat) (counted : Bool) (r : FaultRec)
  deriving DecidableEq, Repr

/-- A layer reference of a plot (R452). -/
structure LayerRef where
  crop : Nat
  layer : Nat
  mult : Nat
  deriving DecidableEq, Repr

/-- A plot's state (R30, R327), with what its launch record fixes for it (R325). pid is the model's own handle; exited lists the FIDs of the
fibres that have exited in this ccy, which are not yet free (R29). -/
structure Plot where
  pid : Nat
  ctx : Nat
  fld : Nat
  plot : Nat
  core : Nat
  order : Nat
  system : Bool
  handler : Option Nat
  window : Nat
  code : Cap
  entry : Pc
  k : List Word
  b : List Cap
  c : List CSet
  j : List JSlot
  sbase : Nat
  ssize : Nat
  flg : BitVec 32
  flgPend : BitVec 6
  step : Word
  prio : Nat
  bint : Nat
  jhold : Nat
  replant : Bool
  uncommitted : Bool
  est : Nat
  rcnt : Nat
  disc : Nat
  progress : List (Nat × Nat)
  layers : List LayerRef
  windows : List (Nat × Nat)
  fibres : List Fibre
  exited : List Nat
  pendLoads : List PendLoad
  pendStores : List PendStore
  halt : Option Halt
  drainBy : Option Nat
  intent : Option Intent
  deriving DecidableEq, Repr

/-! ### Fields -/

/-- A launch record's fields (R325). -/
structure LaunchRec where
  code : Cap
  a : List Cap
  depc : Cap
  cmpc : Cap
  entry : Nat
  plots : Nat
  fibm1 : Nat
  win : Nat
  scr : Nat
  prio : Nat
  replant : Bool
  gang : Bool
  place : Nat
  hdie : Nat
  bint : Nat
  jhold : Nat
  crop : Nat
  cropv : Bool
  est : Nat
  dty : Nat
  cty : Nat
  doff : Nat
  coff : Nat
  dval : Nat
  cval : Nat
  deriving DecidableEq, Repr

/-- A taken or sown field (R54, R328, R329). -/
structure Field where
  ctx : Nat
  fld : Nat
  record : LaunchRec
  system : Bool
  depth : Nat
  parent : Option (Nat × Nat)
  order : Nat
  eligible : Option Nat
  unplaced : List (Nat × Nat)
  nextPlot : Nat
  live : Nat
  retired : Nat
  stepSum : Nat
  aborted : Bool
  deriving DecidableEq, Repr

/-- A valid seedbed slot (R160, R164 to R168): type and dimensions, scales, element codes, checksums (R180), poison mark. -/
structure SlotState where
  ty : Nat
  kdim : Nat
  ndim : Nat
  ssc : Bool
  scf : Nat
  elems : List (List Nat)
  scales : List (List Nat)
  finite : Bool
  cs : List (Int × Int)
  poisoned : Bool
  deriving DecidableEq, Repr

/-- An entry of an accumulator row: a fixed-class integer, or an extended entry's 96 bits (R171, R175). -/
inductive RowTag where
  | fixed (g : Int)
  | extended
  deriving DecidableEq, Repr

/-- An accumulator row that is not empty: tag, entries of columns 0 to 255 (fixed: the integer; extended: the code),
poison mark (R171, R182). -/
structure AccRow where
  bank : Nat
  row : Nat
  tag : RowTag
  vals : List Int
  poisoned : Bool
  deriving DecidableEq, Repr

/-- The matrix state of a core (R160): valid slots by first slot, rows that are not empty, table and parameters if loaded. -/
structure MatState where
  slots : List (Nat × SlotState)
  rows : List AccRow
  table : Option (List (Word × Word × Word))
  params : Option (List (Word × Word × Word))
  deriving DecidableEq, Repr

/-- Matrix state at a claim: slots invalid, rows empty, table and parameters unloaded (R161). -/
def MatState.claimed : MatState := ⟨[], [], none, none⟩

/-- An engine command: the word that its instance executed, what it read then, and the entry order (R162, R167, R300). -/
structure Cmd where
  pid : Nat
  order : Nat
  code : Instr
  pc : Pc
  desc : BitVec 128
  src : Cap
  dst : Cap
  seed : Word
  first : Nat
  signers : List Nat
  deriving DecidableEq, Repr

/-- A piece of a running wain command that has not landed (R306): its byte count, and the writes that land with it: offset in the plot's
allocation, or in the destination object, and bytes, less those that a recall has already taken home (R244). -/
structure Piece where
  size : Nat
  cells : List (Nat × List Byte)
  deriving DecidableEq, Repr

/-- A running wain command: its pieces to land, its barrier, the fault that ended it early, whether it waits for the other members of
its collective, the global lines whose ownership it still waits for, the exception causes that it has records of (R126, R243, R301, R306, R313). -/
structure WainRun where
  cmd : Cmd
  pieces : List Piece
  bar : Option BarLoc
  failed : Option FaultRec
  waiting : Bool
  want : List LineRef
  logged : List Nat
  deriving DecidableEq, Repr

/-- The matrix engine of a core (R160 to R187): holder, state, queue, the command on each path and whether the load path's
command holds the scratchpad port. -/
structure MatEngine where
  holder : Option Nat
  st : MatState
  queue : List Cmd
  load : Option Cmd
  compute : Option Cmd
  port : Option Nat
  deriving DecidableEq, Repr

/-- A result that the uniform pipe has computed and not yet written (R49). -/
inductive UDest where
  | k (n : Nat) (v : Word)
  | b (pid n : Nat) (c : Cap)
  | none
  deriving DecidableEq, Repr

/-- An executed uniform instance before its completion, at the end of the ccy due (R49, R366). -/
structure UResult where
  pid : Nat
  cset : Nat
  num : Nat
  dest : UDest
  due : Nat
  deriving DecidableEq, Repr

/-- A complete instance that waits in the uniform pipe, with the ccy in which it became complete (R366). -/
structure PipeInst where
  pid : Nat
  cset : Nat
  num : Nat
  since : Nat
  deriving DecidableEq, Repr

/-! ### L1 -/

/-- The states of an L1 line (R202), with constant lines (R260) and partial-sum lines (R239). -/
inductive LineKind where
  | clean
  | partialDirty
  | owned
  | const
  | psum
  deriving DecidableEq, Repr

/-- An L1 line: tag, state, bytes held (offset in the line and value), bytes written, tags of granules written with a
capability, epoch at the first dirtying store, tentative owner, partial sums by element (R202, R227, R239, R427); the granules that have come
poisoned from its home, and those that an error of the L1 has poisoned (R457, R459); the kind of the capability and the level of the access that
made it or wrote it last, the rights that its writes have needed, with which its write-back is checked (R399). -/
structure L1Line where
  ctx : Nat
  obj : Nat
  line : Nat
  kind : LineKind
  bytes : List (Nat × Byte)
  written : List Nat
  tags : List Nat
  poison : List Nat
  errs : List Nat
  epoch : Nat
  tent : Option Nat
  sums : List (Nat × Int)
  capKind : Nat
  system : Bool
  need : Nat
  deriving DecidableEq, Repr

/-- A line of an instruction cache: always of an X line (R16, R188, R246); its bytes and its poisoned granules. -/
structure ILine where
  ctx : Nat
  obj : Nat
  line : Nat
  bytes : List Byte
  poison : List Nat
  deriving DecidableEq, Repr

/-- A loop body that the loop buffer holds: its object, its first and last byte offsets, its words (R16, R246, R351). -/
structure LoopBody where
  ctx : Nat
  obj : Nat
  first : Nat
  last : Nat
  words : List (BitVec 32)
  deriving DecidableEq, Repr

/-! ### Cores -/

/-- A formed furrow (R37, R39): core, quadrant, slot, plot, lanes with their FIDs in ascending lane order, members off
their home lane, bound (R41), since when it is issuable, promoted (R334), what its next issue waits for. -/
structure Furrow where
  core : Nat
  quad : Nat
  slot : Nat
  pid : Nat
  lanes : List (Nat × Nat)
  m : Nat
  bound : Bool
  since : Nat
  promoted : Bool
  waiting : Option IssueWait
  deriving DecidableEq, Repr

/-- A bin (R33, R34). -/
structure Bin where
  pid : Nat
  pc : Pc
  fids : List Nat
  start : Nat
  order : Nat
  deriving DecidableEq, Repr

/-- A spawned fibre whose SPAWN is still issuing: it enters the bin of its plot and entry at the end of a ccy (R34, R371). -/
structure Entering where
  pid : Nat
  pc : Pc
  fid : Nat
  at_ : Nat
  deriving DecidableEq, Repr

/-- A ready group that is passed over, promoted or past its fill wait (R38). -/
structure GroupMark where
  pid : Nat
  pc : Pc
  since : Nat
  filled : Bool
  promoted : Bool
  deriving DecidableEq, Repr

/-- One core's own state (R16); ports holds until when the issue port of a quadrant is taken (R40). parked, alive and phases count, in the window
of the power controller, the fibre-ccy spent parked in BARW, all fibre-ccy, and the barrier phases completed on the core (R339). -/
structure Core where
  num : Nat
  ports : List (Nat × Nat)
  furrows : List Furrow
  bins : List Bin
  spawning : List Entering
  marks : List GroupMark
  pipeWait : List PipeInst
  results : List UResult
  cmdWait : List Cmd
  mat : MatEngine
  wainQueue : List Cmd
  wainRun : List WainRun
  restoring : List (Nat × MatState)
  lines : List L1Line
  icache : List ILine
  loopBuf : List LoopBody
  epoch : Nat
  predictor : List (Nat × Nat)
  handlerQueue : List Nat
  frameOf : Option Nat
  handlerAt : Option Nat
  handlerStarted : Bool
  gated : Bool
  clock : Nat
  parked : Nat
  alive : Nat
  phases : Nat
  deriving DecidableEq, Repr

/-! ### Dies -/

/-- A record of a die's error queue (R466). -/
structure ErrRec where
  cyc : Nat
  off : Nat
  obj : Nat
  ctx : Option Nat
  unitNum : Nat
  die : Nat
  src : Nat
  sev : Nat
  count : Nat
  seq : Nat
  deriving DecidableEq, Repr

/-- A monitor's results (R471). -/
structure MonRes where
  min : Nat
  max : Nat
  count : Nat
  bins : List Nat
  deriving DecidableEq, Repr

/-- A monitor (R471): control word, running results, frozen copy, start of the window. -/
structure Monitor where
  num : Nat
  ctl : BitVec 64
  run : MonRes
  frozen : MonRes
  start : Nat
  deriving DecidableEq, Repr

/-- One die's own state (R18, R290, R465, R466, R470, R471); window is the start of the power controller's window (R339). -/
structure Die where
  num : Nat
  cyc : Nat
  halted : Bool
  errq : List ErrRec
  overflow : Nat
  errSeq : Nat
  errBase : Nat
  monitors : List Monitor
  fixedClock : Bool
  throttled : Bool
  window : Nat
  powered : Bool
  changed : List (LineRef × Nat)
  rounds : List (LineRef × Nat)
  lastTick : List (LineRef × Nat)
  pushq : List LineRef
  deriving DecidableEq, Repr

/-! ### Homes -/

/-- What a request asks of a line's home (R222, R232); a lattice load carries the cell that its test has found (R286). -/
inductive HomeOp where
  | acquireLoad (size : Nat) (dst : Nat)
  | releaseStore (bytes : List Byte) (epoch : Option Nat)
  | load (size : Nat) (sx : Bool) (dst : Nat)
  | own (order : Nat)
  | store (bytes : List Byte)
  | capLoad (dst : Nat)
  | capStore (c : Cap)
  | atom (op ty : Nat) (opnd cmp : Nat) (dst : Option Nat)
  | join (ty : Nat) (opnd : Nat) (epoch : Option Nat)
  | latLoad (ty : Nat) (acq : Bool) (dst : Nat) (cell : Option Nat)
  | pdlog (lim : Nat) (rec : Nat)
  deriving DecidableEq, Repr

/-- One member's access as a home sees it: requester and access (R232). -/
structure HomeReq where
  pid : Nat
  fid : Nat
  pc : Pc
  core : Nat
  ctx : Nat
  system : Bool
  cap : Cap
  obj : Nat
  off : Nat
  op : HomeOp
  deriving DecidableEq, Repr

/-- A request on its way to or waiting at a home (R205, R206, R232): the accesses that the members of one issue make to one line, in
ascending lane order; the number of the issue; the ccy of its arrival; the ccy that it has last waited as a retry (R232); whether it
waits for the drains of its line. -/
structure Request where
  parts : List HomeReq
  issue : Nat
  at_ : Nat
  backoff : Nat
  draining : Bool
  deriving DecidableEq, Repr

/-- The exception causes of an issue's accesses that homes perform, until its last access has been performed: one record for each cause
comes of them (R126); left lists the FIDs of the members whose accesses are still to be performed. -/
structure IssueLog where
  issue : Nat
  pid : Nat
  pc : Pc
  ty : Nat
  left : List Nat
  causes : List (Nat × List Nat)
  deriving DecidableEq, Repr

/-- A record of the exception log on its way to its home (R126, R460): the context, the plot, the core that writes it, its bits less CYC and
SEQ. -/
structure LogWrite where
  ctx : Nat
  pid : Nat
  core : Nat
  bits : Nat
  deriving DecidableEq, Repr

/-- A drop on its way to a core from the port of its die: of an object, or of one page of it (R401, R409). -/
structure Drop where
  core : Nat
  ctx : Nat
  obj : Nat
  page : Option Nat
  deriving DecidableEq, Repr

/-- A line that an L2 slice holds: the line, its address div 128, whether the slice holds a newer value than HBM (R20). -/
structure L2Line where
  ref : LineRef
  slot : Nat
  dirty : Bool
  deriving DecidableEq, Repr

/-- A drain in flight to a core, or its acknowledgement in flight to the home (R229): the line whose records it serves, the
recorded epoch. -/
structure DrainMsg where
  core : Nat
  line : LineRef
  epoch : Nat
  acked : Bool
  deriving DecidableEq, Repr

/-- A write-back in flight to its home (R202, R203). -/
structure WriteBackMsg where
  core : Nat
  line : L1Line
  deriving DecidableEq, Repr

/-- A shipped replica line in flight (R290): receiving die, the line, its bytes and its poisoned granules, the shipping die. -/
structure Shipment where
  dest : Nat
  line : LineRef
  bytes : List Byte
  poison : List Nat
  src : Nat
  deriving DecidableEq, Repr

/-- A publish or a withdrawal in arrival order (R247, R248, R277, R278): the lines still to move and the pages; the publishing port; the
fibre whose stores count it holds, with the number of the issue that it followed; whether its wait is over and its pages are publishing;
the convergence set and instance of an UNPUBL that waits for its turn. -/
structure Publish where
  pid : Nat
  fid : Nat
  pc : Pc
  core : Nat
  ctx : Nat
  obj : Nat
  todo : List Nat
  pages : List Nat
  die : Nat
  counted : Bool
  issue : Nat
  started : Bool
  unpubl : Option (Nat × Nat)
  deriving DecidableEq, Repr

/-- A migration in progress (R211, R408). -/
structure Migration where
  ctx : Nat
  obj : Nat
  page : Nat
  newDesc : BitVec 64
  p : Nat
  deriving DecidableEq, Repr

/-- An UNCACHED host atomic's remaining member operations, with the number of their issue (R269). -/
structure HostAtomic where
  reqs : List HomeReq
  issue : Nat
  deriving DecidableEq, Repr

/-! ### Contexts -/

/-- One layer of a registered crop (R445). -/
structure Layer where
  obj : Nat
  src : Source
  len : Nat
  released : Nat
  deriving DecidableEq, Repr

/-- A swap-in in progress (R448): layer, generation, whether its pages have their frames, and since when. -/
structure Swap where
  layer : Nat
  gen : Nat
  placed : Bool
  started : Nat
  deriving DecidableEq, Repr

/-- A registered crop (R445, R448). -/
structure Crop where
  num : Nat
  table : Nat
  count : Nat
  prio : Nat
  layers : List Layer
  queue : List (Nat × Nat)
  swap : Option Swap
  deriving DecidableEq, Repr

/-- A saved plot (R438 to R441): its plot data, engine state if it held the engine, queued commands, bins and bound furrows, the cells of its
scratchpad allocation with its poisoned granules and of its halt frame if it was halted, by offset; the address and size of its image;
its rank among saves; the core of a placement that has not loaded it yet; whether its image was refused. -/
structure SavedPlot where
  plot : Plot
  mat : Option MatState
  queued : List Cmd
  bins : List Bin
  bound : List Furrow
  poison : List Nat
  frame : Option (List Host.Cell)
  at_ : Nat
  size : Nat
  order : Nat
  placed : Option Nat
  refused : Bool
  deriving DecidableEq, Repr

/-- A member's contribution to a collective: its plot, core, command (order, first signer, PC), rank, the OP, TY, G and NEL that it names, its elements
(integer multiples and the flags POS 1, NEG 2, NAN 4; codes for ALLGATHER) (R313, R314). -/
structure CollPart where
  pid : Nat
  core : Nat
  order : Nat
  first : Nat
  pc : Pc
  rank : Nat
  key : Nat × Nat × Nat × Nat
  elems : List (Int × Nat)
  deriving DecidableEq, Repr

/-- A collective that waits for its members' contributions (R313): context, group, member count, root, the contributions in hand. -/
structure CollWait where
  ctx : Nat
  gid : Nat
  nmem : Nat
  root : Nat
  parts : List CollPart
  deriving DecidableEq, Repr

/-- One context (R390, R392, R420, R435, R445); stopped lists the launch lists that a bad TAIL has stopped, with the ccy of die 0 in which each
is read again (R324). -/
structure Ctx where
  num : Nat
  otfr : Word
  otnp : BitVec 24
  otne : BitVec 24
  shape : BitVec 25
  exlog : BitVec 25
  ll : List (BitVec 26)
  handlerCode : Option Cap
  handlerEntry : Pc
  handlerA : List Cap
  sysLists : Bool
  debugger : Bool
  savePool : Nat
  framePool : List Nat
  saved : List SavedPlot
  crops : List Crop
  stopped : List (Nat × Nat)
  away : Bool
  nextFld : Nat
  deriving DecidableEq, Repr

/-! ### The package -/

/-- Reports that leave the package through the reeve interface (R326, R422, R426, R429, R437, R448). -/
inductive Report where
  | refused (ctx list index code : Nat)
  | listStop (ctx list head : Nat)
  | escalated (ctx fld plot first cause : Nat)
  | handlerFault (ctx fld plot cause : Nat) (pc : Pc)
  | replant (ctx fld plot obj page : Nat)
  | preempted (ctx fld plot code : Nat)
  | completed (ctx fld : Nat)
  | restoreRefused (ctx fld plot : Nat)
  | cropRefused (ctx crop : Nat)
  | hostRead (bytes : List Byte) (poison : Bool)
  | msix (die seq : Nat)
  deriving DecidableEq, Repr

/-- A die-to-die boundary's link state, with the ccy in which its retraining began (R460). -/
structure Link where
  num : Nat
  replays : Nat
  retraining : Bool
  down : Bool
  since : Nat
  deriving DecidableEq, Repr

/-- A control flit that a boundary has lost: the lines of its transaction, the ccy of the loss (R462). -/
structure LostControl where
  boundary : Nat
  lines : List LineRef
  at_ : Nat
  deriving DecidableEq, Repr

/-- The status register of R469 and the facts of coming up: perst is the ccy in which PERST# has been deasserted (R468). -/
structure Status where
  good : Bool
  stage : Nat
  ready : Bool
  fail : Nat
  fdet : Nat
  hostUp : Bool
  perst : Option Nat
  fatal : Bool
  deriving DecidableEq, Repr

/-- A declared fallow set (R332). -/
structure Fallow where
  ctx : Nat
  fld : Nat
  cores : List Nat
  since : Nat
  deriving DecidableEq, Repr

/-- The issue in progress: the plot, the furrow's core, quadrant and slot (or a lone member that completes its instruction
on waking, R49), the address, and the members in ascending lane order with their lanes. -/
structure Issue where
  pid : Nat
  core : Nat
  furrow : Option (Nat × Nat)
  pc : Pc
  members : List (Nat × Nat)
  deriving DecidableEq, Repr

/-- A woken fibre that completes its instruction alone from a cycle on (R32, R49), and what it waits for at that instruction. -/
structure Resume where
  pid : Nat
  fid : Nat
  due : Nat
  waiting : Option IssueWait
  deriving DecidableEq, Repr

/-- The whole machine. decisions holds the cycles of die 0 at which the reeves placed plots within the last µs (R331), merges the ccy of the last
lattice merge at each home (R338). -/
structure State where
  status : Status
  powerLimit : Nat
  scrubHours : Nat
  links : List Link
  yotisDown : List Nat
  dies : List Die
  cores : List Core
  plots : List Plot
  fields : List Field
  ctxs : List Ctx
  mem : List Host.Cell
  tags : List Nat
  poison : List Nat
  poisonOnce : List Nat
  homeWrites : List (LineRef × Nat)
  relRecs : List (LineRef × Nat × Nat)
  atomLast : List (LineRef × Nat)
  owners : List (LineRef × Nat)
  sums : List (LineRef × Nat × Int)
  contribs : List (LineRef × Nat)
  xlines : List LineRef
  homeQ : List Request
  portTurn : List (Nat × Nat)
  nextIssue : Nat
  issueLogs : List IssueLog
  engineOwned : List (LineRef × Nat × Nat)
  readers : List (LineRef × Nat)
  l2 : List L2Line
  drains : List DrainMsg
  writeBacks : List WriteBackMsg
  retries : List (Request × Nat)
  drops : List Drop
  ships : List Shipment
  publishes : List Publish
  migrations : List Migration
  hostAtomics : List HostAtomic
  colls : List CollWait
  fallow : Option Fallow
  gangOne : List (Nat × Nat × Nat)
  decisions : List Nat
  merges : List (Nat × Nat)
  lostControl : List LostControl
  tops : List (Nat × (Nat × Nat × Nat) × Nat)
  reports : List Report
  inputs : List Instr
  logWrites : List LogWrite
  issuing : Option Issue
  resumes : List Resume
  now : Nat
  nextPid : Nat
  nextOrder : Nat
  rotor : Nat
  freeCtr : Nat
  deriving DecidableEq, Repr

/-- Why a step of the model stops the machine. None of these is a fault of the part: a fault of the part halts its plot and
is a next state. -/
inductive Fault where
  /-- Raised by the meaning of an instruction word that runs while no issue is in progress, which no step of the machine does.
  Safe: the part has no such step. -/
  | noIssue
  /-- Raised by the meaning of an event whose subject (the plot, core, queue entry or agent it names) does not exist in the
  state, which no step of the machine schedules. Safe: the part has no such step. -/
  | noSubject
  deriving DecidableEq, Repr

/-- Why a step is refused. -/
inductive Refusal where
  /-- Raised by the dispatch of an instruction that the model gives no meaning. Safe: nothing is proved of it. -/
  | notModelled (mnemonic : String)
  deriving DecidableEq, Repr

/-! ### Reset -/

/-- A matrix engine that no plot holds (R161). -/
def MatEngine.idle : MatEngine := ⟨none, .claimed, [], none, none, none⟩

/-- A monitor after reset: off, WLOG 20 (R471). -/
def Monitor.reset (n : Nat) : Monitor :=
  ⟨n, 20, ⟨0xFFFFFFFF, 0, 0, List.replicate 16 0⟩, ⟨0, 0, 0, List.replicate 16 0⟩, 0⟩

/-- A core after reset (R227: epoch 0; R236: every predictor entry 1, entries not listed are 1; R339: 1.6 GHz). -/
def Core.reset (n : Nat) : Core :=
  { num := n, ports := [], furrows := [], bins := [], spawning := [], marks := [], pipeWait := [], results := [], cmdWait := [], mat := .idle,
    wainQueue := [], wainRun := [], restoring := [], lines := [], icache := [], loopBuf := [], epoch := 0, predictor := [], handlerQueue := [], frameOf := none,
    handlerAt := none, handlerStarted := false, gated := false, clock := 1600,
    parked := 0, alive := 0, phases := 0 }

/-- A die after reset (R456: the cycle counter is cleared). -/
def Die.reset (n : Nat) : Die :=
  { num := n, cyc := 0, halted := false, errq := [], overflow := 0, errSeq := 0, errBase := 0, monitors := (List.range 8).map .reset, fixedClock := false,
    throttled := false, window := 0, powered := true, changed := [], rounds := [], lastTick := [], pushq := [] }

/-- The machine right after reset: nothing placed, memory zero (R468), every counter at its reset value. -/
def State.reset : State :=
  { status := ⟨false, 0, false, 0, 0, false, none, false⟩, powerLimit := 2400, scrubHours := 12,
    links := [⟨0, 0, false, false, 0⟩, ⟨1, 0, false, false, 0⟩, ⟨2, 0, false, false, 0⟩, ⟨3, 0, false, false, 0⟩], yotisDown := [],
    dies := [.reset 0, .reset 1, .reset 2, .reset 3], cores := [], plots := [], fields := [], ctxs := [], mem := [],
    tags := [], poison := [], poisonOnce := [], homeWrites := [], relRecs := [], atomLast := [], owners := [], sums := [], contribs := [], xlines := [],
    homeQ := [], portTurn := [], nextIssue := 0, issueLogs := [], engineOwned := [], readers := [], l2 := [], drains := [], writeBacks := [], retries := [], drops := [], ships := [], publishes := [],
    migrations := [], hostAtomics := [], colls := [], fallow := none, gangOne := [], decisions := [], merges := [], lostControl := [], tops := [], reports := [], inputs := [], logWrites := [],
    issuing := none, resumes := [], now := 0, nextPid := 0, nextOrder := 0, rotor := 0, freeCtr := 0 }

end Sys2Proof.Machine
end

