-- ==== Sys2Proof/Machine/Bits.lean ====
section
/-! DEFINITION. Helpers over plain data: bit fields of numbers, bytes of words, sorted lists, Mix64. -/

namespace Sys2Proof.Machine

/-- Bits [lo + w - 1 : lo] of a number. -/
def field (n lo w : Nat) : Nat :=
  n / 2 ^ lo % 2 ^ w

/-- Bit i of a number. -/
def bit (n i : Nat) : Bool :=
  n / 2 ^ i % 2 == 1

/-- A number of w bits read as two's complement. -/
def signedOf (w n : Nat) : Int :=
  if n % 2 ^ w < 2 ^ (w - 1) then (n % 2 ^ w : Nat) else (n % 2 ^ w : Nat) - (2 ^ w : Nat)

/-- An integer mod 2^w. -/
def wrap (w : Nat) (x : Int) : Nat :=
  (x % (2 ^ w : Nat)).toNat

/-- An integer mod 2^32 as a word. -/
def wordOfInt (x : Int) : Word :=
  BitVec.ofInt 32 x

/-- The n bytes of a number, little-endian. -/
def leBytes (n v : Nat) : List Byte :=
  match n with
  | 0 => []
  | k + 1 => BitVec.ofNat 8 v :: leBytes k (v / 256)

/-- The number that little-endian bytes hold. -/
def leNat (bs : List Byte) : Nat :=
  match bs with
  | [] => 0
  | b :: rest => b.toNat + 256 * leNat rest

/-- Sets element i of a list; a list that is shorter stays as it is. -/
def setNth {α : Type} (l : List α) (i : Nat) (v : α) : List α :=
  l.set i v

/-- Writes consecutive elements of a list from element i. -/
def setRun {α : Type} (l : List α) (i : Nat) (vs : List α) : List α :=
  match vs with
  | [] => l
  | v :: rest => setRun (l.set i v) (i + 1) rest

/-- Inserts a number into a strictly rising list. -/
def insertNat (l : List Nat) (n : Nat) : List Nat :=
  match l with
  | [] => [n]
  | a :: rest => if n < a then n :: a :: rest else if n = a then a :: rest else a :: insertNat rest n

/-- Adds a number to a list unless it is there. -/
def addNat (l : List Nat) (n : Nat) : List Nat :=
  if l.contains n then l else l ++ [n]

/-- The value that a list of pairs holds for a key. -/
def assoc {α β : Type} [BEq α] (l : List (α × β)) (k : α) : Option β :=
  (l.find? fun p => p.1 == k).map (·.2)

/-- Replaces or adds the pair of a key, at the list's end when it is new. -/
def assocSet {α β : Type} [BEq α] (l : List (α × β)) (k : α) (v : β) : List (α × β) :=
  if l.any (fun p => p.1 == k) then l.map fun p => if p.1 == k then (k, v) else p else l ++ [(k, v)]

/-- Removes a key's pairs. -/
def assocDel {α β : Type} [BEq α] (l : List (α × β)) (k : α) : List (α × β) :=
  l.filter fun p => !(p.1 == k)

/-- The first answer of a list of options. -/
def firstSome {α : Type} (l : List (Option α)) : Option α :=
  match l with
  | [] => none
  | some a :: _ => some a
  | none :: rest => firstSome rest

/-- The codes of n registers from a code. -/
def codesFrom (d n : Nat) : List Nat :=
  (List.range n).map (d + ·)

/-- The least element by a number, the earliest among equals. -/
def minBy? {α : Type} (l : List α) (key : α → Nat) : Option α :=
  match l with
  | [] => none
  | a :: rest =>
    match minBy? rest key with
    | none => some a
    | some b => if key b < key a then some b else some a

/-- Sorts by a number, keeping the order of equals. -/
def insertBy {α : Type} (key : α → Nat) (a : α) (l : List α) : List α :=
  match l with
  | [] => [a]
  | b :: rest => if key a < key b then a :: b :: rest else b :: insertBy key a rest

/-- Sorts a list by a number, keeping the order of equals. -/
def sortBy {α : Type} (key : α → Nat) (l : List α) : List α :=
  l.foldl (fun acc a => insertBy key a acc) []

/-- Drops repeats, keeping first occurrences. -/
def dedup {α : Type} [BEq α] (l : List α) : List α :=
  l.foldl (fun acc a => if acc.contains a then acc else acc ++ [a]) []

/-- The integer square root, by bits from bit k downward. -/
def isqrtAux (n : Nat) (k : Nat) (r : Nat) : Nat :=
  match k with
  | 0 => r
  | j + 1 => if (r + 2 ^ j) * (r + 2 ^ j) ≤ n then isqrtAux n j (r + 2 ^ j) else isqrtAux n j r

/-- The integer square root of n. -/
def isqrt (n : Nat) : Nat :=
  isqrtAux n (Nat.log2 n / 2 + 1) 0

/-- The part's one mixing function, mod 2^64 (R111). -/
def mix64 (z0 : Nat) : Nat :=
  let z := BitVec.ofNat 64 z0
  let z := z ^^^ (z >>> 30)
  let z := z * 0x8F3A6C1D27B5E94B#64
  let z := z ^^^ (z >>> 27)
  let z := z * 0xE35D0B794C28A1F3#64
  (z ^^^ (z >>> 31)).toNat

end Sys2Proof.Machine
end

