-- ==== Sys2Proof/Machine/Num.lean ====
section
/-! DEFINITION. The number formats, exact values, Round and Sat (R77, R78, R99 to R120). -/

namespace Sys2Proof.Machine

/-! ### Flags (R74) -/

/-- FLG bits [5:0]: SA NX UF OF DZ NV. -/
abbrev Flg := BitVec 6

/-- Invalid operation. -/
def flgNV : Flg := 1
/-- Division by zero. -/
def flgDZ : Flg := 2
/-- Overflow. -/
def flgOF : Flg := 4
/-- Underflow. -/
def flgUF : Flg := 8
/-- Inexact. -/
def flgNX : Flg := 16
/-- Saturated. -/
def flgSA : Flg := 32

/-! ### Exact values -/

/-- A value before rounding: a NaN with its sign and, where its format carries a payload, its 23-bit FP32 fraction (R117,
R119); an infinity; a zero with its sign; or a nonzero number m times 2^e. -/
inductive Val where
  | nan (neg : Bool) (frac : Option Nat)
  | inf (neg : Bool)
  | zero (neg : Bool)
  | fin (neg : Bool) (m : Nat) (e : Int)
  deriving DecidableEq, Repr

/-- A number m times 2^e, of either sign. -/
structure Dy where
  m : Int
  e : Int
  deriving DecidableEq, Repr

/-- 2 to a number that may not be negative. -/
def pow2 (e : Int) : Nat :=
  2 ^ e.toNat

/-- Two numbers over one exponent: the two significands and the exponent. -/
def Dy.align (a b : Dy) : Int × Int × Int :=
  let e := min a.e b.e
  (a.m * pow2 (a.e - e), b.m * pow2 (b.e - e), e)

/-- The exact sum. -/
def Dy.add (a b : Dy) : Dy :=
  let (x, y, e) := a.align b
  ⟨x + y, e⟩

/-- The exact product. -/
def Dy.mul (a b : Dy) : Dy :=
  ⟨a.m * b.m, a.e + b.e⟩

/-- The negation. -/
def Dy.neg (a : Dy) : Dy :=
  ⟨-a.m, a.e⟩

/-- Whether a is below b. -/
def Dy.lt (a b : Dy) : Bool :=
  let (x, y, _) := a.align b
  decide (x < y)

/-- Whether a equals b. -/
def Dy.eq (a b : Dy) : Bool :=
  let (x, y, _) := a.align b
  decide (x = y)

/-- A nonzero number as a value, zero with the sign given. -/
def Dy.val (zneg : Bool) (a : Dy) : Val :=
  if a.m = 0 then .zero zneg else .fin (decide (a.m < 0)) a.m.natAbs a.e

/-- An integer as a value; zero is +0. -/
def Val.ofInt (x : Int) : Val :=
  (Dy.mk x 0).val false

/-- The number of a finite value, 0 for the others. -/
def Val.dy : Val → Dy
  | .fin n m e => ⟨if n then -(m : Int) else m, e⟩
  | _ => ⟨0, 0⟩

/-- Whether a value is a NaN. -/
def Val.isNan : Val → Bool
  | .nan _ _ => true
  | _ => false

/-- Whether a value is an infinity. -/
def Val.isInf : Val → Bool
  | .inf _ => true
  | _ => false

/-- Whether a value is a zero. -/
def Val.isZero : Val → Bool
  | .zero _ => true
  | _ => false

/-- Whether a value is a signalling NaN: a payload whose quiet bit is clear (R116). -/
def Val.isSnan : Val → Bool
  | .nan _ (some m) => !(bit m 22)
  | _ => false

/-- The sign of a value. -/
def Val.isNeg : Val → Bool
  | .nan n _ => n
  | .inf n => n
  | .zero n => n
  | .fin n _ _ => n

/-- The value with the sign given. -/
def Val.setNeg (n : Bool) : Val → Val
  | .nan _ f => .nan n f
  | .inf _ => .inf n
  | .zero _ => .zero n
  | .fin _ m e => .fin n m e

/-! ### Formats -/

/-- A floating-point format: exponent and fraction widths, bias, whether it has infinities, whether its all-ones codes are
NaNs (R99). -/
structure FpSpec where
  eb : Nat
  mb : Nat
  bias : Int
  inf : Bool
  topNan : Bool
  deriving DecidableEq, Repr

/-- The floating-point formats by TY (R99). -/
def fpSpec (ty : Nat) : Option FpSpec :=
  match ty with
  | 0 => some ⟨8, 23, 127, true, false⟩
  | 1 => some ⟨5, 10, 15, true, false⟩
  | 2 => some ⟨8, 7, 127, true, false⟩
  | 3 => some ⟨5, 2, 15, true, false⟩
  | 4 => some ⟨4, 3, 7, false, true⟩
  | 5 => some ⟨3, 2, 3, false, false⟩
  | 6 => some ⟨2, 3, 1, false, false⟩
  | 7 => some ⟨2, 1, 1, false, false⟩
  | 8 => some ⟨3, 4, 3, false, true⟩
  | _ => none

/-- The width in bits of a format or lane type by TY (R99, R101, R102, R104). -/
def tyWidth (ty : Nat) : Nat :=
  match ty with
  | 0 => 32 | 1 => 16 | 2 => 16 | 3 => 8 | 4 => 8 | 5 => 6 | 6 => 6 | 7 => 4 | 8 => 8 | 9 => 8 | 10 => 6
  | 11 => 16 | 12 => 16 | 13 => 8 | 14 => 8 | 15 => 4 | 16 => 4 | 17 => 2 | 18 => 2 | 19 => 1
  | 20 => 32 | 21 => 32 | 22 => 64 | 23 => 64 | 26 => 8
  | _ => 32

/-- The least and greatest values of the integer formats by TY, TERN2 as integers (R101, R102). -/
def intRange (ty : Nat) : Option (Int × Int) :=
  match ty with
  | 11 => some (-32768, 32767)
  | 12 => some (0, 65535)
  | 13 => some (-128, 127)
  | 14 => some (0, 255)
  | 15 => some (-8, 7)
  | 16 => some (0, 15)
  | 17 => some (-2, 1)
  | 18 => some (-1, 1)
  | 20 => some (0, 4294967295)
  | 21 => some (-2147483648, 2147483647)
  | 22 => some (0, 18446744073709551615)
  | 23 => some (-9223372036854775808, 9223372036854775807)
  | _ => none

/-- The table T of linear significands (R104). -/
def logTable : List Nat :=
  [32768, 35734, 38968, 42495, 46341, 50535, 55109, 60097]

/-- T at an index. -/
def logT (q : Nat) : Nat :=
  logTable.getD q 0

/-- The magnitude of exponent sum n in L8 (TY 9) or L6 (TY 10): T[q] times 2^(i - 15) (R104, R105). -/
def logDy (ty : Nat) (n : Int) : Dy :=
  if ty = 9 then ⟨logT (n % 8).toNat, n / 8 - 15⟩ else ⟨logT (2 * (n % 4).toNat), n / 4 - 15⟩

/-- The bias of an L format (R104). -/
def logBias (ty : Nat) : Int :=
  if ty = 9 then 64 else 16

/-- The number of codes of one sign of an L format. -/
def logCodes (ty : Nat) : Nat :=
  if ty = 9 then 128 else 32

/-- The value of a floating-point code (R99, R100, R116). -/
def fpVal (ty : Nat) (f : FpSpec) (code : Nat) : Val :=
  let neg := bit code (f.eb + f.mb)
  let e := field code f.mb f.eb
  let m := field code 0 f.mb
  if f.inf && e == 2 ^ f.eb - 1 then
    if m = 0 then .inf neg else if ty = 3 then .nan neg none else .nan neg (some (m * 2 ^ (23 - f.mb)))
  else if f.topNan && e == 2 ^ f.eb - 1 && m == 2 ^ f.mb - 1 then .nan neg none
  else if e = 0 then
    if m = 0 then .zero neg else .fin neg m (1 - f.bias - f.mb)
  else .fin neg (2 ^ f.mb + m) (e - f.bias - f.mb)

/-- The value of an L code (R104). -/
def logVal (ty : Nat) (code : Nat) : Val :=
  let half := logCodes ty
  let neg := decide (half ≤ code % (2 * half))
  let e := code % half
  if e = 0 then (if neg then .nan false none else .zero false)
  else
    let d := logDy ty (e - logBias ty)
    .fin neg d.m.toNat d.e

/-- The value of a code of any format: floating, logarithmic, integer, ternary, binary or E8M0 (R99 to R106). -/
def codeVal (ty : Nat) (code : Nat) : Val :=
  let code := code % 2 ^ tyWidth ty
  match fpSpec ty with
  | some f => fpVal ty f code
  | none =>
    if ty = 9 ∨ ty = 10 then logVal ty code
    else if ty = 18 then .ofInt (if code = 1 then 1 else if code = 3 then -1 else 0)
    else if ty = 19 then .ofInt (if code = 0 then 1 else -1)
    else if ty = 26 then (if code = 255 then .nan false none else .fin false 1 ((code : Int) - 127))
    else
      match intRange ty with
      | some (lo, _) => .ofInt (if lo < 0 then signedOf (tyWidth ty) code else code)
      | none => .zero false

/-! ### Rounding -/

/-- What a rounding depends on besides its value (R77, R111, R112, R117): mode, seed, FID, element index, address of the
instruction, whether the conversion is narrowing (R113). -/
structure RndCtx where
  rm : Nat
  seed : Nat
  fid : Nat
  idx : Nat
  pc : Nat
  narrow : Bool
  deriving DecidableEq, Repr

/-- A result with its flags and the causes of its exception-log records (R122). -/
structure NumRes where
  code : Nat
  flg : Flg
  causes : List Nat
  deriving DecidableEq, Repr

/-- The origin hash (R117). -/
def originHash (pc fid : Nat) : Nat :=
  mix64 (pc * 1024 + fid) / 2 ^ 43

/-- The 23-bit fraction of a created NaN: quiet bit, marker bit and origin hash (R117). -/
def originFrac (pc fid : Nat) : Nat :=
  0x600000 + originHash pc fid

/-- A NaN that an invalid operation creates (R117). -/
def originNan (pc fid : Nat) : Val :=
  .nan false (some (originFrac pc fid))

/-- The 32-bit draw of stochastic rounding (R111). -/
def srDraw (c : RndCtx) : Nat :=
  mix64 (c.seed * 2 ^ 32 + c.fid * 2 ^ 22 + c.idx % 2 ^ 22) / 2 ^ 32

/-- Whether the magnitude rounds up, from the lower neighbour: the remainder is r of d (0 < r < d), even says whether the lower
neighbour's code is even (R110, R111). -/
def roundsUp (c : RndCtx) (neg even : Bool) (r d : Nat) : Bool :=
  match c.rm with
  | 0 => decide (d < 2 * r) || (decide (d = 2 * r) && !even)
  | 1 => false
  | 2 => !neg
  | 3 => neg
  | 4 => decide (d ≤ 2 * r)
  | _ =>
    if neg then !decide (srDraw c * d < (d - r) * 2 ^ 32) else decide (srDraw c * d < r * 2 ^ 32)

/-- A magnitude m times 2^e as a whole number of units 2^q, and the remainder over its denominator. -/
def splitAt (m : Nat) (e q : Int) : Nat × Nat × Nat :=
  if q ≤ e then (m * pow2 (e - q), 0, 1)
  else (m / pow2 (q - e), m % pow2 (q - e), pow2 (q - e))

/-- The code of a NaN in a format with NaN codes (R117, R119, R120), the quiet bit set. -/
def nanCode (c : RndCtx) (ty : Nat) (neg : Bool) (frac : Option Nat) : Nat :=
  let frac := match frac with
    | some m => if bit m 22 then m else m + 0x400000
    | none => originFrac c.pc c.fid
  let s := if neg then 1 else 0
  match ty with
  | 0 => s * 2 ^ 31 + 0x7F800000 + frac
  | 1 => s * 2 ^ 15 + 0x7C00 + frac / 2 ^ 13
  | 2 => s * 2 ^ 15 + 0x7F80 + frac / 2 ^ 16
  | 3 => s * 2 ^ 7 + 0x7F
  | 4 => s * 2 ^ 7 + 0x7F
  | 8 => s * 2 ^ 7 + 0x7F
  | 9 => 0x80
  | _ => 0x20

/-- Whether a format has NaN codes (R99, R104). -/
def hasNan (ty : Nat) : Bool :=
  ty ≤ 4 || ty == 8 || ty == 9 || ty == 10

/-- The infinity code of a format with infinities. -/
def infCode (f : FpSpec) (neg : Bool) : Nat :=
  (if neg then 2 ^ (f.eb + f.mb) else 0) + (2 ^ f.eb - 1) * 2 ^ f.mb

/-- The code of the largest finite magnitude of a floating-point format. -/
def maxCode (f : FpSpec) (neg : Bool) : Nat :=
  (if neg then 2 ^ (f.eb + f.mb) else 0) +
    (if f.inf then (2 ^ f.eb - 1) * 2 ^ f.mb - 1
     else if f.topNan then 2 ^ (f.eb + f.mb) - 2
     else 2 ^ (f.eb + f.mb) - 1)

/-- The largest finite magnitude of a floating-point format. -/
def maxDy (f : FpSpec) : Dy :=
  let c := maxCode f false
  let e := field c f.mb f.eb
  ⟨2 ^ f.mb + field c 0 f.mb, (e : Int) - f.bias - f.mb⟩

/-- The code of a representable magnitude n times 2^q, q at or above the least unit. -/
def fpCode (f : FpSpec) (neg : Bool) (n : Nat) (q : Int) : Nat :=
  let s := if neg then 2 ^ (f.eb + f.mb) else 0
  if n = 0 then s
  else if n < 2 ^ f.mb then s + n
  else if n < 2 ^ (f.mb + 1) then s + (q + f.bias + f.mb).toNat * 2 ^ f.mb + (n - 2 ^ f.mb)
  else s + (q + 1 + f.bias + f.mb).toNat * 2 ^ f.mb

/-- Rounds a nonzero magnitude into a floating-point format (R77 steps 3 to 5, R113). -/
def roundFp (c : RndCtx) (f : FpSpec) (neg : Bool) (m : Nat) (e : Int) : NumRes :=
  let top := (Nat.log2 m : Int) + e
  let q := max (top - f.mb) (1 - f.bias - f.mb)
  let (n, r, d) := splitAt m e q
  let n' := if r ≠ 0 ∧ roundsUp c neg (n % 2 == 0) r d then n + 1 else n
  let y : Dy := ⟨n', q⟩
  let noInf := c.narrow || !f.inf
  if (maxDy f).lt y || (noInf && (maxDy f).lt ⟨m, e⟩) then
    if noInf then ⟨maxCode f neg, flgSA ||| flgNX, []⟩
    else
      let toInf := match c.rm with
        | 1 => false
        | 2 => !neg
        | 3 => neg
        | _ => true
      ⟨if toInf then infCode f neg else maxCode f neg, flgOF ||| flgNX, []⟩
  else if r = 0 then ⟨fpCode f neg n' q, 0, []⟩
  else
    let tiny := n' ≠ 0 && y.lt ⟨1, 1 - f.bias⟩
    ⟨fpCode f neg n' q, flgNX ||| (if tiny then flgUF else 0), []⟩

/-- Rounds a nonzero magnitude into an L format: the neighbours are zero and the table values, continued above the largest
(R109, R110). -/
def roundLog (c : RndCtx) (ty : Nat) (neg : Bool) (m : Nat) (e : Int) : NumRes :=
  let x : Dy := ⟨m, e⟩
  let mag (k : Nat) : Dy := if k = 0 then ⟨0, 0⟩ else logDy ty ((k : Int) - logBias ty)
  let lo := (List.range (logCodes ty + 1)).foldl (fun acc k => if x.lt (mag k) then acc else k) 0
  let s := if neg then logCodes ty else 0
  let top := logCodes ty - 1
  if (mag lo).eq x && decide (lo ≤ top) then ⟨s + lo, 0, []⟩
  else if lo > top then ⟨s + top, flgSA ||| flgNX, []⟩
  else
    let a := mag lo
    let b := mag (lo + 1)
    let q := min (min a.e b.e) e
    let ua := a.m.toNat * pow2 (a.e - q)
    let r := m * pow2 (e - q) - ua
    let d := b.m.toNat * pow2 (b.e - q) - ua
    let k := if roundsUp c neg (lo % 2 == 0) r d then lo + 1 else lo
    if lo = top then ⟨s + top, flgSA ||| flgNX, []⟩
    else ⟨if k = 0 then 0 else s + k, flgNX, []⟩

/-- A nonzero value rounded to an integer, with whether it was inexact (R110). -/
def roundInt (c : RndCtx) (neg : Bool) (m : Nat) (e : Int) : Int × Bool :=
  let (n, r, d) := splitAt m e 0
  let n' : Int := if r ≠ 0 ∧ roundsUp c neg (n % 2 == 0) r d then n + 1 else n
  (if neg then -n' else n', r != 0)

/-- The code of an integer in an integer or ternary format (R101). -/
def intCode (ty : Nat) (x : Int) : Nat :=
  wrap (tyWidth ty) x

/-- Rounds a nonzero value into an integer or ternary format (R113, R114). DEDUCED (log entry 36): a negative number whose integer y is not
zero sets SA into an unsigned format, and NX besides where y differs from it, as R110 has it in every mode. -/
def roundToInt (c : RndCtx) (ty : Nat) (lo hi : Int) (neg : Bool) (m : Nat) (e : Int) : NumRes :=
  let (y, inexact) := roundInt c neg m e
  let x : Dy := ⟨if neg then -(m : Int) else m, e⟩
  if lo = 0 ∧ neg then
    if y = 0 then ⟨0, flgNX, []⟩ else ⟨0, flgSA ||| (if inexact ∨ hi < -y then flgNX else 0), []⟩
  else if y < lo ∨ hi < y ∨ x.lt ⟨lo, 0⟩ ∨ Dy.lt ⟨hi, 0⟩ x then
    ⟨intCode ty (if neg then lo else hi), flgSA ||| flgNX, []⟩
  else ⟨intCode ty y, if inexact then flgNX else 0, []⟩

/-- Round into BIN1: the sign of x; NX unless x is 1 or -1, and SA where its magnitude is above 1 (R77, R113, R114, R119). -/
def roundBin (x : Val) : NumRes :=
  match x with
  | .nan _ f => ⟨0, flgNV, if (Val.nan false f).isSnan then [1, 3] else [3]⟩
  | .inf n => ⟨if n then 1 else 0, flgSA ||| flgNX, []⟩
  | .zero n => ⟨if n then 1 else 0, flgNX, []⟩
  | .fin n m e =>
    let x : Dy := ⟨m, e⟩
    ⟨if n then 1 else 0, if x.eq ⟨1, 0⟩ then 0 else if x.lt ⟨1, 0⟩ then flgNX else flgSA ||| flgNX, []⟩

/-- Round(x, fmt, rm): the code of x in a format, with flags and records (R77, R109 to R120). DEDUCED (log entry 36): a signalling NaN that
is narrowed into a format without a NaN code writes both records, cause 1 for the operand (R118) and cause 3 for the narrowing (R119). -/
def roundVal (c : RndCtx) (ty : Nat) (x : Val) : NumRes :=
  if ty = 19 then roundBin x
  else
    match x with
    | .nan n f =>
      let s : Bool := (Val.nan n f).isSnan
      if hasNan ty then ⟨nanCode c ty n f, if s then flgNV else 0, if s then [1] else []⟩
      else ⟨0, flgNV, if s then [1, 3] else [3]⟩
    | .inf n =>
      match fpSpec ty with
      | some f => if f.inf && !c.narrow then ⟨infCode f n, 0, []⟩ else ⟨maxCode f n, flgSA, []⟩
      | none =>
        if ty = 9 ∨ ty = 10 then ⟨(if n then logCodes ty else 0) + logCodes ty - 1, flgSA, []⟩
        else
          match intRange ty with
          | some (lo, hi) => ⟨intCode ty (if n then lo else hi), flgSA, []⟩
          | none => ⟨0, flgSA, []⟩
    | .zero n =>
      match fpSpec ty with
      | some f => ⟨if n then 2 ^ (f.eb + f.mb) else 0, 0, []⟩
      | none => ⟨0, 0, []⟩
    | .fin n m e =>
      match fpSpec ty with
      | some f => roundFp c f n m e
      | none =>
        if ty = 9 ∨ ty = 10 then roundLog c ty n m e
        else
          match intRange ty with
          | some (lo, hi) => roundToInt c ty lo hi n m e
          | none => ⟨0, 0, []⟩

/-- The largest finite magnitude of a format, with a sign (R78). -/
def maxVal (ty : Nat) (neg : Bool) : Val :=
  match fpSpec ty with
  | some f => codeVal ty (maxCode f neg)
  | none =>
    if ty = 9 ∨ ty = 10 then codeVal ty ((if neg then logCodes ty else 0) + logCodes ty - 1)
    else if ty = 19 then .ofInt (if neg then -1 else 1)
    else
      match intRange ty with
      | some (lo, hi) => .ofInt (if neg then lo else hi)
      | none => .zero neg

/-- Sat(x, fmt): a value clamped to the finite range of a format, and whether SA is set (R78). A NaN is returned as it is;
the caller rounds it. -/
def satVal (ty : Nat) (x : Val) : Val × Flg :=
  match x with
  | .inf n => (maxVal ty n, flgSA)
  | .fin n _ _ =>
    let top := (maxVal ty n).dy
    if (n && x.dy.lt top) || (!n && top.lt x.dy) then (maxVal ty n, flgSA) else (x, 0)
  | _ => (x, 0)

/-! ### Exact arithmetic (R141) -/

/-- An exact result and whether the operation was invalid. -/
structure ValRes where
  v : Val
  invalid : Bool
  deriving DecidableEq, Repr

/-- The exact sum of two values that are no NaNs, under a rounding mode for the sign of an exact zero. -/
def Val.add (rm : Nat) (a b : Val) : ValRes :=
  match a, b with
  | .inf x, .inf y => if x = y then ⟨.inf x, false⟩ else ⟨.zero false, true⟩
  | .inf x, _ => ⟨.inf x, false⟩
  | _, .inf y => ⟨.inf y, false⟩
  | .zero x, .zero y => ⟨.zero (if x = y then x else rm == 3), false⟩
  | _, _ => ⟨(a.dy.add b.dy).val (rm == 3), false⟩

/-- The exact product of two values that are no NaNs. -/
def Val.mul (a b : Val) : ValRes :=
  let n := a.isNeg != b.isNeg
  match a, b with
  | .inf _, .zero _ => ⟨.zero false, true⟩
  | .zero _, .inf _ => ⟨.zero false, true⟩
  | .inf _, _ => ⟨.inf n, false⟩
  | _, .inf _ => ⟨.inf n, false⟩
  | .fin _ m e, .fin _ m' e' => ⟨.fin n (m * m') (e + e'), false⟩
  | _, _ => ⟨.zero n, false⟩

/-- The first NaN of a list of operands (R118). -/
def firstNan (l : List Val) : Option Val :=
  l.find? Val.isNan

/-- The flags and causes of signalling operands (R118). -/
def snanFlags (l : List Val) : Flg × List Nat :=
  if l.any Val.isSnan then (flgNV, [1]) else (0, [])

/-- Rounds an exact result whose operands are given: NaN operands first (R118), then an invalid operation (R117), then the
value. -/
def roundRes (c : RndCtx) (ty : Nat) (ops : List Val) (x : ValRes) : NumRes :=
  let (sf, sc) := snanFlags ops
  match firstNan ops with
  | some (.nan n f) => ⟨nanCode c ty n f, sf, sc⟩
  | _ =>
    if x.invalid then ⟨nanCode c ty false (some (originFrac c.pc c.fid)), flgNV, [1]⟩
    else roundVal c ty x.v

/-- Adds the flags and causes of one result to another's. -/
def NumRes.andFlags (r : NumRes) (f : Flg) (cs : List Nat) : NumRes :=
  ⟨r.code, r.flg ||| f, dedup (r.causes ++ cs)⟩

end Sys2Proof.Machine
end

