-- ==== Sys2Proof/Machine/Fixed.lean ====
section
/-! DEFINITION. Fixed(G) entries: 96-bit integers over 2^G with codes for the infinities and NaN, and their addition (R171 to
R173); the elements of commutative ranges (R237 to R240). -/

namespace Sys2Proof.Machine

/-- The code of plus infinity (R171). -/
def fixInf : Int := 2 ^ 95 - 1

/-- The code of minus infinity (R171). -/
def fixNegInf : Int := -(2 ^ 95) + 1

/-- The code of NaN (R171). -/
def fixNan : Int := -(2 ^ 95)

/-- The largest finite entry (R171). -/
def fixMax : Int := 2 ^ 95 - 2

/-- Whether an entry is finite. -/
def fixFinite (i : Int) : Bool :=
  decide (-fixMax ≤ i ∧ i ≤ fixMax)

/-- A value clamped to the finite entries, with SA where it is clamped (R173, R239). -/
def fixClamp (i : Int) : Int × Flg :=
  if fixMax < i then (fixMax, flgSA) else if i < -fixMax then (-fixMax, flgSA) else (i, 0)

/-- A value rounded to a multiple of 2^G with RNE, NX where it is inexact; infinities and NaN take their codes (R172, R239). -/
def toFixed (g : Int) (v : Val) : Int × Flg :=
  match v with
  | .nan _ _ => (fixNan, 0)
  | .inf n => (if n then fixNegInf else fixInf, 0)
  | .zero _ => (0, 0)
  | .fin n m e =>
    let (y, inexact) := roundInt ⟨0, 0, 0, 0, 0, false⟩ n m (e - g)
    let (z, f) := fixClamp y
    (z, f ||| (if inexact then flgNX else 0))

/-- The value of an entry (R171). -/
def fixedVal (g : Int) (i : Int) : Val :=
  if i = fixNan then .nan false none
  else if i = fixInf then .inf false
  else if i = fixNegInf then .inf true
  else (Dy.mk i g).val false

/-- The sum of two entries, with its flags and causes (R173). -/
def addFixed (a b : Int) : Int × Flg × List Nat :=
  if a = fixNan ∨ b = fixNan then (fixNan, 0, [])
  else if fixFinite a ∧ fixFinite b then
    let (z, f) := fixClamp (a + b)
    (z, f, [])
  else if fixFinite a then (b, 0, [])
  else if fixFinite b then (a, 0, [])
  else if a = b then (a, 0, [])
  else (fixNan, flgNV, [1])

/-- The element width in bytes of a range format: U32, S32, U64, FP32, BF16 (R237, R395). -/
def rangeWidth (crty : Nat) : Nat :=
  match crty with
  | 3 => 8
  | 5 => 2
  | _ => 4

/-- Whether a range format is FP32 or BF16. -/
def rangeFloat (crty : Nat) : Bool :=
  crty == 4 || crty == 5

/-- The number format of a floating range (R237). -/
def rangeFp (crty : Nat) : Nat :=
  if crty = 4 then 0 else 2

/-- The TY code of a range's type (R125). -/
def rangeTy (crty : Nat) : Nat :=
  match crty with
  | 1 => 20
  | 2 => 21
  | 3 => 22
  | 4 => 0
  | _ => 2

/-- A RED operand or stored value converted to the range's entry, with its flags and causes: a signalling NaN sets NV and
writes a record (R118, R239). -/
def toRange (crty : Nat) (g : Int) (code : Nat) : Int × Flg × List Nat :=
  if rangeFloat crty then
    let v := codeVal (rangeFp crty) code
    let (i, f) := toFixed g v
    if v.isSnan then (i, f ||| flgNV, [1]) else (i, f, [])
  else if crty = 2 then (signedOf 32 code, 0, [])
  else (code, 0, [])

/-- The sum of two entries of a range: R173 for the floats, mod 2^96 for the integers (R238, R239). -/
def addRange (crty : Nat) (a b : Int) : Int × Flg × List Nat :=
  if rangeFloat crty then addFixed a b else ((a + b) % 2 ^ 96, 0, [])

/-- The read value of an entry: its code and flags, a NaN stamped by the rounding context (R240). -/
def rangeRead (c : RndCtx) (crty : Nat) (g : Int) (i : Int) : Nat × Flg :=
  if rangeFloat crty then
    let r := roundVal c (rangeFp crty) (fixedVal g i)
    (r.code, r.flg)
  else (wrap (8 * rangeWidth crty) i, 0)

/-- The code that memory holds for an entry: a NaN as sign 0 and marker 0 (R238). -/
def rangeStored (crty : Nat) (g : Int) (i : Int) : Nat :=
  if rangeFloat crty && i == fixNan then (if crty = 4 then 0x7FC00000 else 0x7FC0)
  else (rangeRead ⟨0, 0, 0, 0, 0, false⟩ crty g i).1

end Sys2Proof.Machine
end

