-- ==== Sys2Proof/Config.lean ====
section
/-! DEFINITION. What an implementation fixes and the spec leaves open: free values, which nothing in Lean can evaluate. -/

namespace Sys2Proof.Config

/-- The free choice of the FP32 result of SIN and COS, which R153 bounds and does not fix: function code of R69 and input
bits. The result is the candidate that the choice selects among the values R153 allows. A fixed function of the input
(R153). Log entry 6. -/
opaque sfuChoice : Nat → Nat → Nat

/-- The free choice of the FP32 results of EXP2, LOG2, TANH and SIGM, which R153 bounds and requires to be monotone: by function
code and the place of a result in the order of the FP32 values, the place of the input from which on the result is at least
that value, where R153's bound leaves both possible. Log entry 6. -/
opaque sfuStep : Nat → Int → Int

/-- SIN and COS of 2^20 < |x| < infinity: some value in [-1, +1] with no stated bound (R153), by function and input. Log entry 6. -/
opaque sfuFar : Nat → Nat → Nat

/-- A value that the spec leaves open, fresh for each number drawn (the counter freeCtr of State). -/
opaque freeValue : Nat → Nat

/-- Whether a command of a context reaches another package through Yotis port `port`, by port, context and the object or group
that it names. The spec gives no route between packages (R24, R309), so which ports a command needs is open. Log entry 9. -/
opaque yotisCarries : Nat → Nat → Nat → Bool

end Sys2Proof.Config
end

