-- ==== Sys2Proof/Machine/Routes.lean ====
section
/-! DEFINITION. The dies of the package, the boundaries between them, the fixed routes over the boundaries (R13, R14). -/

namespace Sys2Proof.Machine

/-- The two dies of a boundary, which the spec names by its pair of dies alone: 0–1, 0–2, 1–3, 2–3 (R13). Their numbers 0 to 3 in
this order, as INST of an error record names them (R466), are the model's choice (DESIGN CHOICE, log entry 37). -/
def boundaryEnds (n : Nat) : Option (Nat × Nat) :=
  match n with
  | 0 => some (0, 1)
  | 1 => some (0, 2)
  | 2 => some (1, 3)
  | 3 => some (2, 3)
  | _ => none

/-- The die whose error queue takes the records of a boundary. The spec says 'its die's error queue' of a boundary that has two
(R456); the model takes the lower die (DESIGN CHOICE, log entry 37). -/
def boundaryDie (n : Nat) : Nat :=
  match boundaryEnds n with
  | some e => e.1
  | none => 0

/-- The boundary that joins two dies; none joins 0 to 3 or 1 to 2 (R13). -/
def boundaryOf (a b : Nat) : Option Nat :=
  [0, 1, 2, 3].find? fun n => boundaryEnds n == some (a, b) || boundaryEnds n == some (b, a)

/-- The dies that traffic from one die to another passes, the first one left out: a route of two hops first changes bit 0 of the die
number, then bit 1 (R14). -/
def route (a b : Nat) : List Nat :=
  if a = b then []
  else
    let mid := a / 2 * 2 + b % 2
    if mid = a ∨ mid = b then [b] else [mid, b]

/-- The boundaries that a way over some dies crosses. -/
def crossings (a : Nat) (ds : List Nat) : List Nat :=
  match ds with
  | [] => []
  | d :: rest => (boundaryOf a d).toList ++ crossings d rest

/-- Whether a boundary carries traffic: it is neither retraining nor down (R460). -/
def State.carries (s : State) (n : Nat) : Bool :=
  !(s.links.any fun l => l.num == n && (l.retraining || l.down))

/-- Whether every boundary carries traffic. -/
def State.allUp (s : State) : Bool :=
  !(s.links.any fun l => l.retraining || l.down)

/-- Whether traffic from one die reaches another now; while a boundary of its route retrains it waits (R14, R460). -/
def State.reaches (s : State) (a b : Nat) : Bool :=
  (crossings a (route a b)).all s.carries

/-- Whether a request from one die to another and its answer, which has a route of its own, pass now. -/
def State.wayOpen (s : State) (a b : Nat) : Bool :=
  s.reaches a b && s.reaches b a

end Sys2Proof.Machine
end

