-- ==== Sys2Proof/Machine/Mem.lean ====
section
/-! DEFINITION. The package's memory: one canonical list of bytes over the model's physical addresses, with the tags and the
poison of its 16-byte granules; and the objects of a context as the memory port translates them (R188 to R211, R390 to R399). -/

namespace Sys2Proof.Machine

/-! ### Bytes -/

/-- Whether a memory is in its canonical form: addresses strictly rising, no byte equal to what an unlisted address reads as,
which is 0 (R468). -/
def Memory.wf (m : List Host.Cell) : Bool :=
  match m with
  | [] => true
  | [c] => c.2 != 0
  | c :: d :: rest => c.2 != 0 && decide (c.1 < d.1) && Memory.wf (d :: rest)

/-- The byte at an address: 0 where nothing is listed (R468 for device memory; log entry 5 for host memory). -/
def Memory.read (m : List Host.Cell) (a : Nat) : Byte :=
  match m with
  | [] => 0
  | c :: rest => if c.1 = a then c.2 else Memory.read rest a

/-- Removes the entry of an address. -/
def Memory.erase (m : List Host.Cell) (a : Nat) : List Host.Cell :=
  match m with
  | [] => []
  | c :: rest => if c.1 = a then rest else c :: Memory.erase rest a

/-- Puts a byte that is not 0 at an address. -/
def Memory.put (m : List Host.Cell) (a : Nat) (v : Byte) : List Host.Cell :=
  match m with
  | [] => [(a, v)]
  | c :: rest =>
    if a < c.1 then (a, v) :: c :: rest
    else if c.1 = a then (a, v) :: rest
    else c :: Memory.put rest a v

/-- Writes one byte, keeping the canonical form. -/
def Memory.write (m : List Host.Cell) (a : Nat) (v : Byte) : List Host.Cell :=
  if v = 0 then Memory.erase m a else Memory.put m a v

/-- Reads n bytes. -/
def Memory.readN (m : List Host.Cell) (a n : Nat) : List Byte :=
  match n with
  | 0 => []
  | k + 1 => Memory.read m a :: Memory.readN m (a + 1) k

/-- Writes bytes from an address upward. -/
def Memory.writeN (m : List Host.Cell) (a : Nat) (bs : List Byte) : List Host.Cell :=
  match bs with
  | [] => m
  | b :: rest => Memory.writeN (Memory.write m a b) (a + 1) rest

/-! ### Places of the model's physical address space (log entry 4) -/

/-- Line slots of an HBM channel (R397). -/
def chanSlots : Nat := 11718750

/-- The address of a line slot of a channel (R397). -/
def hbmAddr (chan slot : Nat) : Nat :=
  (chan * chanSlots + slot) * 128

/-- The first address of a core's scratchpad, cores numbered 32 die + core (R15, R16). -/
def scratchAddr (core : Nat) : Nat :=
  2 ^ 40 + core * 2 ^ 20

/-- Bytes of a core's scratchpad (R16). -/
def scratchSize : Nat := 524288

/-- The first address of a core's halt frame (R418). -/
def frameAddr (core : Nat) : Nat :=
  2 ^ 41 + core * 2 ^ 20

/-- The core whose scratchpad or halt frame holds an address. -/
def sramCore (a : Nat) : Nat :=
  a / 2 ^ 20 % 128

/-- The model's address of a host physical address. -/
def hostAddr (a : Nat) : Nat :=
  2 ^ 50 + a

/-! ### Granules: tags and poison -/

/-- The model's address of a place outside the package (R445; log entry 4). -/
def sourceAt : Source → Nat
  | .host a => hostAddr a
  | .cxl a => 2 ^ 55 + a
  | .peer n a => 2 ^ 56 + n * 2 ^ 52 + a

/-- The granules that bytes a to a + n - 1 touch. -/
def granules (a n : Nat) : List Nat :=
  if n = 0 then [] else (List.range ((a + n - 1) / 16 - a / 16 + 1)).map (· + a / 16)

/-- Removes granules from a list. -/
def without (l gs : List Nat) : List Nat :=
  l.filter fun g => !gs.contains g

/-- Adds granules to a strictly rising list. -/
def withAll (l gs : List Nat) : List Nat :=
  gs.foldl insertNat l

/-- Whether a granule lies wholly in bytes a to a + n - 1. -/
def coversGranule (a n g : Nat) : Bool :=
  decide (a ≤ 16 * g ∧ 16 * g + 16 ≤ a + n)

/-- Whether a write of the given bytes touches or clears a poisoned granule: reading any byte of it consumes poison (R459). -/
def State.poisoned (s : State) (a n : Nat) : Bool :=
  (granules a n).any s.poison.contains

/-- The place in n bytes at an address of the first poisoned one; 0 where none is (R419). -/
def State.poisonAt (s : State) (a n : Nat) : Nat :=
  match (granules a n).find? s.poison.contains with
  | some g => 16 * g - a
  | none => 0

/-- One write of bytes at an address: the bytes, the tags of its granules cleared (R263), the poison of the granules that it
covers whole cleared (R459). -/
def State.store (s : State) (a : Nat) (bs : List Byte) : State :=
  let gs := granules a bs.length
  { s with mem := Memory.writeN s.mem a bs, tags := without s.tags gs,
           poison := without s.poison (gs.filter (coversGranule a bs.length)) }

/-- Reads n bytes at an address. -/
def State.load (s : State) (a n : Nat) : List Byte :=
  Memory.readN s.mem a n

/-- Reads n bytes at an address as a little-endian number. -/
def State.loadNat (s : State) (a n : Nat) : Nat :=
  leNat (s.load a n)

/-- Writes a number as n little-endian bytes. -/
def State.storeNat (s : State) (a n v : Nat) : State :=
  s.store a (leBytes n v)

/-- What was poisoned for one read of a place outside the package is clean after the read (R459, R475). -/
def State.sourceRead (s : State) (a n : Nat) : State :=
  let gone := (granules a n).filter s.poisonOnce.contains
  { s with poison := without s.poison gone, poisonOnce := without s.poisonOnce gone }

/-- Sets the tag of the granule at an address, which a poisoned granule does not show (R262, R459). -/
def State.setTag (s : State) (a : Nat) (t : Bool) : State :=
  { s with tags := if t then insertNat s.tags (a / 16) else without s.tags [a / 16] }

/-- Whether the granule at an address reads as tagged (R459). -/
def State.tagAt (s : State) (a : Nat) : Bool :=
  s.tags.contains (a / 16) && !s.poison.contains (a / 16)

/-- Poisons granules; a poisoned granule's tag reads as clear, and the tag does not come back when the poison is cleared,
since the clearing write clears it. -/
def State.poisonGranules (s : State) (gs : List Nat) : State :=
  { s with poison := withAll s.poison gs, tags := without s.tags gs }

/-! ### Contexts, and the object table (R390 to R397) -/

/-- A context by number. -/
def State.ctx? (s : State) (n : Nat) : Option Ctx :=
  s.ctxs.find? fun c => c.num == n

/-- Replaces a context. -/
def State.setCtx (s : State) (c : Ctx) : State :=
  { s with ctxs := s.ctxs.map fun d => if d.num == c.num then c else d }

/-- The first die frame limits of R397 by PLACE: the frames whose last slot exists. -/
def frameOk (home place frame : Nat) : Bool :=
  if home = 3 then decide (frame < 8)
  else match place with
    | 0 => decide (frame ≤ 5859374)
    | 1 => decide (frame ≤ 1464842)
    | 2 => decide (frame ≤ 22887)
    | _ => true

/-- A page descriptor (R396). -/
structure PageDesc where
  frame : Nat
  home : Nat
  place : Nat
  pdie : Nat
  pchan : Nat
  bias : Nat
  wx : Nat
  res : Nat
  mig : Nat
  deriving DecidableEq, Repr

/-- The fields of a descriptor's 64 bits (R396). -/
def PageDesc.ofNat (d : Nat) : PageDesc :=
  { frame := field d 32 32, home := field d 30 2, place := field d 28 2, pdie := field d 26 2, pchan := field d 18 8,
    bias := field d 17 1, wx := field d 15 2, res := field d 14 1, mig := field d 13 1 }

/-- Where replica d of a lattice page lies: DIE placement on die d, or the slice of the same position on die d; a page that is
neither CACHED nor SLICE, or in host memory, is not resident (R282). -/
def PageDesc.replica (d : PageDesc) (die : Nat) : PageDesc :=
  if d.place = 3 ∧ d.home ≠ 3 then { d with res := 0 }
  else match d.home with
    | 0 => { d with place := 1, pdie := die }
    | 2 => { d with pchan := 64 * die + d.pchan % 64 }
    | _ => { d with res := 0 }

/-- The 64 bits of a descriptor, reserved bits zero (R396). -/
def PageDesc.toNat (d : PageDesc) : Nat :=
  d.frame * 2 ^ 32 + d.home * 2 ^ 30 + d.place * 2 ^ 28 + d.pdie * 2 ^ 26 + d.pchan * 2 ^ 18 + d.bias * 2 ^ 17 +
    d.wx * 2 ^ 15 + d.res * 2 ^ 14 + d.mig * 2 ^ 13

/-- Whether the port accepts a descriptor's HOME and PLACE, and its frame exists; a CORE page's PLACE and the upper bits of its PCHAN
are ignored (R191, R397). -/
def PageDesc.ok (d : PageDesc) : Bool :=
  (d.home != 2 || d.place == 2) && frameOk d.home d.place d.frame

/-- The package channel of line l of a page (R193); none for host and CORE pages. -/
def PageDesc.chan (d : PageDesc) (l : Nat) : Option Nat :=
  if d.home = 3 then none
  else match d.place with
    | 0 => some ((l + 37 * d.frame) % 256)
    | 1 => some (64 * d.pdie + (l + 37 * d.frame) % 64)
    | 2 => some d.pchan
    | _ => none

/-- The core that a CORE page names (R191). -/
def PageDesc.core (d : PageDesc) : Nat :=
  32 * d.pdie + d.pchan % 32

/-- The model's address of line l of a page (R193, R397). -/
def PageDesc.lineAddr (d : PageDesc) (l : Nat) : Nat :=
  if d.home = 3 then scratchAddr d.core + scratchSize - 65536 * (d.frame % 8 + 1) + 128 * l
  else match d.place with
    | 0 => hbmAddr ((l + 37 * d.frame) % 256) (2 * d.frame + l / 256)
    | 1 => hbmAddr (64 * d.pdie + (l + 37 * d.frame) % 64) (8 * d.frame + l / 64)
    | 2 => hbmAddr d.pchan (512 * d.frame + l)
    | _ => hostAddr (65536 * d.frame + 128 * l)

/-- The descriptor of page p of object 0: CACHED, PKG, resident, frames from OTFR (R394). -/
def Ctx.desc0 (c : Ctx) (p : Nat) : PageDesc :=
  { frame := c.otfr.toNat + p, home := 0, place := 0, pdie := 0, pchan := 0, bias := 0, wx := 0, res := 1, mig := 0 }

/-- The address of byte off of object 0; none beyond OTNP pages or the channels' slots (R394, R397). -/
def Ctx.addr0 (c : Ctx) (off : Nat) : Option Nat :=
  let d := c.desc0 (off / 65536)
  if off / 65536 < c.otnp.toNat ∧ d.ok then some (d.lineAddr (off % 65536 / 128) + off % 128) else none

/-- Bytes [off, off + n) of object 0 as a number, byte by byte, 0 where object 0 has no page. -/
def State.read0 (s : State) (c : Ctx) (off n : Nat) : Nat :=
  match n with
  | 0 => 0
  | k + 1 =>
    (match c.addr0 off with
      | some a => (Memory.read s.mem a).toNat
      | none => 0) + 256 * s.read0 c (off + 1) k

/-- Writes bytes of object 0 at its home (R398 is applied by the caller's writes of entries; a descriptor is no entry's SEALED
bit). -/
def State.write0 (s : State) (c : Ctx) (off : Nat) (bs : List Byte) : State :=
  match bs with
  | [] => s
  | b :: rest =>
    match c.addr0 off with
    | some a => ({ s with mem := Memory.write s.mem a b, tags := without s.tags [a / 16] }).write0 c (off + 1) rest
    | none => s.write0 c (off + 1) rest

/-- An object-table entry (R395). -/
structure Entry where
  shoff : Nat
  ptoff : Nat
  npages : Nat
  sealed : Bool
  kind : Nat
  rceil : Nat
  ltype : Nat
  sched : Nat
  per : Nat
  crty : Nat
  crg : Int
  deriving DecidableEq, Repr

/-- Reads an entry's 512 bits; none if VALID is 0 or a field holds a reserved code (R395). LTYPE of a layer table is not read (R281). -/
def Entry.ofNat (e : Nat) : Option Entry :=
  let kind := field e 58 4
  let ltype := field e 44 4
  let crty := field e 31 3
  if bit e 63 = false ∨ 5 < kind ∨ 5 < crty ∨ (kind ≠ 3 ∧ 8 < ltype) then none
  else some
    { shoff := field e 128 40, ptoff := field e 88 40, npages := field e 64 24, sealed := bit e 62, kind := kind,
      rceil := field e 48 10, ltype := ltype, sched := field e 42 2, per := field e 34 8, crty := crty,
      crg := signedOf 8 (field e 23 8) }

/-- Whether the entry of a lattice object is valid but for a reserved LTYPE, which a lattice instruction meets as LATTY (R285). -/
def reservedLtype (e : Nat) : Bool :=
  bit e 63 && decide (field e 58 4 = 2 ∧ field e 31 3 ≤ 5 ∧ 8 < field e 44 4)

/-- The entry of object 0 itself: OTNP pages, all rights, KIND data (R394). -/
def Ctx.entry0 (c : Ctx) : Entry :=
  { shoff := 0, ptoff := 0, npages := c.otnp.toNat, sealed := false, kind := 0, rceil := 1023, ltype := 0, sched := 0,
    per := 0, crty := 0, crg := 0 }

/-- The entry of an object of a context; none where R399 step 1 fails. -/
def State.entry? (s : State) (c : Ctx) (obj : Nat) : Option Entry :=
  if c.otne.toNat ≤ obj then none
  else if obj = 0 then some c.entry0
  else Entry.ofNat (s.read0 c (64 * obj) 64)

/-- The descriptor of page p of an object (R396). -/
def State.desc (s : State) (c : Ctx) (obj : Nat) (e : Entry) (p : Nat) : PageDesc :=
  if obj = 0 then c.desc0 p else .ofNat (s.read0 c (e.ptoff + 8 * p) 8)

/-- Changes the descriptor of a page (R396), its reserved bits kept. -/
def State.modDesc (s : State) (ctx obj page : Nat) (f : PageDesc → PageDesc) : State :=
  match s.ctx? ctx with
  | none => s
  | some c =>
    match s.entry? c obj with
    | none => s
    | some e =>
      let old := s.read0 c (e.ptoff + 8 * page) 8
      s.write0 c (e.ptoff + 8 * page) (leBytes 8 ((f (.ofNat old)).toNat + old % 2 ^ 13))

/-- The right bits of R386. -/
def rightR : Nat := 1
def rightW : Nat := 2
def rightX : Nat := 4
def rightA : Nat := 8
def rightJ : Nat := 16
def rightC : Nat := 32
def rightS : Nat := 64
def rightP : Nat := 128
def rightG : Nat := 256
def rightL : Nat := 512

/-- Whether a set of rights is within another. -/
def rightsWithin (need have_ : Nat) : Bool :=
  need &&& have_ == need

/-- The ceiling of an entry: RCEIL, less W, A and J while SEALED (R399 step 4). -/
def Entry.ceiling (e : Entry) : Nat :=
  if e.sealed then e.rceil &&& (1023 - rightW - rightA - rightJ) else e.rceil

/-- Whether an object is replicated: KIND lattice or layer table (R281, R282). -/
def Entry.lattice (e : Entry) : Bool :=
  e.kind == 2 || e.kind == 3

/-- The descriptor of a page as the port of a die uses it. -/
def Entry.localDesc (e : Entry) (die : Nat) (d : PageDesc) : PageDesc :=
  if e.lattice then d.replica die else d

/-- The descriptor that routes line l of a page: the new home's below a migration's pointer (R211), with the page's own WX. -/
def State.routed (s : State) (ctx obj page l : Nat) (d : PageDesc) : PageDesc :=
  match s.migrations.find? fun m => m.ctx == ctx && m.obj == obj && m.page == page with
  | some m => if l < m.p then { PageDesc.ofNat m.newDesc.toNat with wx := d.wx } else d
  | none => d

/-- What the port finds for an access that passes R399. -/
structure PortHit where
  entry : Entry
  desc : PageDesc
  addr : Nat
  deriving DecidableEq, Repr

/-- The checks at the memory port of a die, in the order of R399: who asks, the capability's KIND, the object, the need, the
byte. -/
def State.port (s : State) (die ctx : Nat) (system : Bool) (kind obj need off : Nat) : Except FaultCode PortHit :=
  match s.ctx? ctx with
  | none => .error .objx
  | some c =>
    match s.entry? c obj with
    | none => .error .objx
    | some e =>
      if !system && (obj == 0 || e.kind == 5) then .error .capr
      else if kind ≠ e.kind then .error .capr
      else if !rightsWithin need e.ceiling then .error .capr
      else if e.npages ≤ off / 65536 then .error .capb
      else
        let d := e.localDesc die (s.desc c obj e (off / 65536))
        if d.res = 0 ∨ !d.ok then .error .resn
        else
          let l := off % 65536 / 128
          let d := e.localDesc die (s.routed ctx obj (off / 65536) l d)
          .ok ⟨e, d, d.lineAddr l + off % 128⟩

/-- Where a byte of an object lies for the port of a die, without the checks of rights (write-backs, gathers and the part's own records). -/
def State.place? (s : State) (die ctx obj off : Nat) : Option PortHit :=
  match s.ctx? ctx with
  | none => none
  | some c =>
    match s.entry? c obj with
    | none => none
    | some e =>
      if e.npages ≤ off / 65536 then none
      else
        let d := e.localDesc die (s.desc c obj e (off / 65536))
        if d.res = 0 ∨ !d.ok then none
        else
          let l := off % 65536 / 128
          let d := e.localDesc die (s.routed ctx obj (off / 65536) l d)
          some ⟨e, d, d.lineAddr l + off % 128⟩

/-- Whether a hit's page is a CORE page. -/
def PortHit.isCore (h : PortHit) : Bool :=
  h.desc.home == 3

/-- Whether a hit's page is host memory. -/
def PortHit.isHost (h : PortHit) : Bool :=
  h.desc.home != 3 && h.desc.place == 3

/-- The die that holds a hit's line: a CORE page's, the host port's die 0, else that of the line's channel (R193). -/
def PortHit.homeDie (h : PortHit) : Nat :=
  if h.isCore then h.desc.pdie else if h.isHost then 0 else h.addr / 128 / chanSlots / 64

/-- A read of a hit's bytes at its home has been made: of host memory, what was poisoned for one read is clean (R459). -/
def State.afterRead (s : State) (h : PortHit) (n : Nat) : State :=
  if h.isHost then s.sourceRead h.addr n else s

/-- The number of a hit's home: the slice of the line's channel, a core's scratchpad after the 256 slices, then the host agent (R193). -/
def PortHit.homeNum (h : PortHit) : Nat :=
  if h.isCore then 256 + h.desc.core else if h.isHost then 384 else h.addr / 128 / chanSlots

/-- Whether L1 may hold the line: CACHED and SLICE pages (R194), of an object that is no commutative range (R238). -/
def PortHit.cacheable (h : PortHit) : Bool :=
  (h.desc.home == 0 || h.desc.home == 2) && h.entry.crty == 0

/-- Whether the line of a code page is X: the page is X, or it is publishing and the line has moved (R247); xlines lists the
moved lines of publishing pages. -/
def State.lineIsX (s : State) (ctx obj off : Nat) (h : PortHit) : Bool :=
  h.entry.kind == 1 && (h.desc.wx == 1 || (h.desc.wx == 2 && s.xlines.contains ⟨ctx, obj, off / 128, 0⟩))

/-- The home applies R398 to a write that changes object 0: a sealed, valid entry keeps SEALED and stays without W, A and J
unless the write clears VALID. old and new are the memories before and after. -/
def State.keepSeal (s : State) (old : List Host.Cell) (c : Ctx) (off : Nat) : State :=
  let n := off / 64
  let before := ({ s with mem := old } : State).read0 c (64 * n) 64
  let after := s.read0 c (64 * n) 64
  if bit before 63 && bit before 62 && bit after 63 then
    match c.addr0 (64 * n + 4) with
    | some a =>
      let hi := field after 32 32
      let hi := hi ||| 2 ^ 30
      let hi := hi - (hi &&& (2 ^ 17 + 2 ^ 19 + 2 ^ 20))
      { s with mem := Memory.writeN s.mem a (leBytes 4 hi) }
    | none => s
  else s

/-- The page whose descriptor holds its MIG bit in a byte of object 0 (R394, R396): the object, and the page. -/
def State.migByte (s : State) (c : Ctx) (off : Nat) : Option (Nat × Nat) :=
  firstSome ((List.range c.otne.toNat).map fun obj =>
    if obj = 0 then none
    else
      match s.entry? c obj with
      | some e => if e.ptoff ≤ off ∧ off < e.ptoff + 8 * e.npages ∧ (off - e.ptoff) % 8 = 1 then some (obj, (off - e.ptoff) / 8) else none
      | none => none)

/-- MIG is read only: a write to a descriptor leaves it 1 while the page migrates and 0 otherwise (R10, R396). -/
def State.keepMig (s : State) (c : Ctx) (off : Nat) : State :=
  match s.migByte c off, c.addr0 off with
  | some (obj, page), some a =>
    let b := (Memory.read s.mem a).toNat
    let mig := s.migrations.any fun m => m.ctx == c.num && m.obj == obj && m.page == page
    { s with mem := Memory.write s.mem a (BitVec.ofNat 8 (b - 32 * (b / 32 % 2) + 32 * mig.toNat)) }
  | _, _ => s

/-- What the home of object 0 keeps of a write of n bytes from a byte on: SEALED entries, MIG bits (R396, R398). -/
def State.keepTable (s : State) (old : List Host.Cell) (ctx off n : Nat) : State :=
  match s.ctx? ctx with
  | some c =>
    let t := (List.range ((off % 64 + n + 63) / 64)).foldl (fun t i =>
      if 0 < off / 64 + i ∧ off / 64 + i < c.otne.toNat then t.keepSeal old c (64 * (off / 64 + i)) else t) s
    ((List.range n).filter fun i => (off + i) % 8 == 1).foldl (fun t i => t.keepMig c (off + i)) t
  | none => s

/-- Whether an object is a launch list of a context (R323, R392). -/
def Ctx.isList (c : Ctx) (obj : Nat) : Bool :=
  c.ll.any fun w => bit w.toNat 24 && field w.toNat 0 24 == obj

/-- Whether a byte of a launch list's header is read only to its producer: HEAD, REFUSED, LASTREF, LASTERR and the reserved bytes (R323). -/
def listRo (off : Nat) : Bool :=
  decide (8 ≤ off ∧ off < 16 ∨ 20 ≤ off ∧ off < 64)

/-- Whether a byte of an exception log is read only: the reserved bytes of its header, and its records (R10, R124, R125). -/
def logRo (off : Nat) : Bool :=
  decide (20 ≤ off)

/-- Whether an object is the exception log of a context: EXLOG names it, and its KIND is exception log (R124, R392). -/
def State.isLog (s : State) (c : Ctx) (obj : Nat) : Bool :=
  bit c.exlog.toNat 24 && field c.exlog.toNat 0 24 == obj && (s.entry? c obj).any fun e => e.kind == 4

/-- Whether a byte of an object is read only to software: of a launch list's header, of a crop's count words, of the exception log (R10, R124,
R125, R323, R447). -/
def State.readOnly (s : State) (c : Ctx) (obj off : Nat) : Bool :=
  (c.isList obj && listRo off) || (c.crops.any fun k => k.count == obj && decide (off < 8 * k.layers.length)) ||
    (s.isLog c obj && logRo off)

/-- What the home keeps of a write of n bytes at an address: the bytes that are read only (R10). -/
def State.keepHeader (s : State) (old : List Host.Cell) (ctx obj off a n : Nat) : State :=
  match s.ctx? ctx with
  | some c =>
    { s with mem := ((List.range n).filter fun i => s.readOnly c obj (off + i)).foldl (fun m i => Memory.write m (a + i) (Memory.read old (a + i))) s.mem }
  | none => s

/-- One write performed at the home of an object's line: bytes that do not cross the line (R203, R216, R323, R396, R398). -/
def State.homeStore (s : State) (ctx obj off : Nat) (a : Nat) (bs : List Byte) : State :=
  let t := s.store a bs
  if obj = 0 then t.keepTable s.mem ctx off bs.length else t.keepHeader s.mem ctx obj off a bs.length

end Sys2Proof.Machine
end

