-- ==== Sys2Proof/Machine/Ops.lean ====
section
/-! DEFINITION. The named operations over plots, fibres, cores and dies; raising a fault; the combinator that runs a lane word
for the members of an issue; dissolution, joins and exits (R35, R42, R51, R52, R351, R356, R413 to R416). -/

namespace Sys2Proof.Machine

/-- What a meaning answers. -/
abbrev Result := Host.Outcome State Fault Refusal

/-! ### Lookups and updates -/

/-- The plot with a handle. -/
def State.plot? (s : State) (pid : Nat) : Option Plot :=
  s.plots.find? fun p => p.pid == pid

/-- Replaces a plot. -/
def State.setPlot (s : State) (p : Plot) : State :=
  { s with plots := s.plots.map fun q => if q.pid == p.pid then p else q }

/-- Changes a plot. -/
def State.modPlot (s : State) (pid : Nat) (f : Plot → Plot) : State :=
  { s with plots := s.plots.map fun q => if q.pid == pid then f q else q }

/-- The fibre with a FID. -/
def Plot.fibre? (p : Plot) (fid : Nat) : Option Fibre :=
  p.fibres.find? fun f => f.fid == fid

/-- Replaces a fibre. -/
def Plot.setFibre (p : Plot) (f : Fibre) : Plot :=
  { p with fibres := p.fibres.map fun g => if g.fid == f.fid then f else g }

/-- Changes a fibre. -/
def Plot.modFibre (p : Plot) (fid : Nat) (f : Fibre → Fibre) : Plot :=
  { p with fibres := p.fibres.map fun g => if g.fid == fid then f g else g }

/-- Changes a fibre of a plot. -/
def State.modFibre (s : State) (pid fid : Nat) (f : Fibre → Fibre) : State :=
  s.modPlot pid fun p => p.modFibre fid f

/-- The fibre of a plot. -/
def State.fibre? (s : State) (pid fid : Nat) : Option Fibre :=
  (s.plot? pid).bind fun p => p.fibre? fid

/-- A core, at its reset state when nothing has changed it. -/
def State.core (s : State) (n : Nat) : Core :=
  match s.cores.find? fun c => c.num == n with
  | some c => c
  | none => .reset n

/-- Replaces a core. -/
def State.setCore (s : State) (c : Core) : State :=
  if s.cores.any fun d => d.num == c.num then
    { s with cores := s.cores.map fun d => if d.num == c.num then c else d }
  else { s with cores := s.cores ++ [c] }

/-- Changes a core. -/
def State.modCore (s : State) (n : Nat) (f : Core → Core) : State :=
  s.setCore (f (s.core n))

/-- A die. -/
def State.die (s : State) (n : Nat) : Die :=
  match s.dies.find? fun d => d.num == n with
  | some d => d
  | none => .reset n

/-- Replaces a die. -/
def State.setDie (s : State) (d : Die) : State :=
  { s with dies := s.dies.map fun e => if e.num == d.num then d else e }

/-- Changes a die. -/
def State.modDie (s : State) (n : Nat) (f : Die → Die) : State :=
  s.setDie (f (s.die n))

/-- The die of a core (R15). -/
def dieOf (core : Nat) : Nat :=
  core / 32

/-- The cycle counter of a core's die (R18). -/
def State.cycOf (s : State) (core : Nat) : Nat :=
  (s.die (dieOf core)).cyc

/-- A fresh free value, and the state with the counter advanced. -/
def State.draw (s : State) : Nat × State :=
  (Config.freeValue s.freeCtr, { s with freeCtr := s.freeCtr + 1 })

/-- Adds a report of the reeve to the host. -/
def State.report (s : State) (r : Report) : State :=
  { s with reports := s.reports ++ [r] }

/-! ### Registers -/

/-- A v register; registers outside the list read 0, which no well-formed word names (R61). -/
def Fibre.vreg (f : Fibre) (n : Nat) : Word :=
  f.v.getD n 0

/-- A k register. -/
def Plot.kreg (p : Plot) (n : Nat) : Word :=
  p.k.getD n 0

/-- A b register. -/
def Plot.breg (p : Plot) (n : Nat) : Cap :=
  p.b.getD n .null

/-- An a register. -/
def Fibre.areg (f : Fibre) (n : Nat) : Cap :=
  f.a.getD n .null

/-- A register operand code: 0x00 to 0x5F v0 to v95, 0x60 to 0x7F k0 to k31 (R61). -/
def readReg (p : Plot) (f : Fibre) (code : Nat) : Word :=
  if code < 96 then f.vreg code else p.kreg (code - 96)

/-- A 64-bit operand: the pair from a code, low word first (R61). -/
def readReg64 (p : Plot) (f : Fibre) (code : Nat) : Nat :=
  (readReg p f code).toNat + 2 ^ 32 * (readReg p f (code + 1)).toNat

/-- The words of n registers from a code. -/
def readRegs (p : Plot) (f : Fibre) (code n : Nat) : List Word :=
  (List.range n).map fun i => readReg p f (code + i)

/-- Writes a v register. -/
def Fibre.setV (f : Fibre) (n : Nat) (v : Word) : Fibre :=
  { f with v := f.v.set n v }

/-- Writes consecutive v registers. -/
def Fibre.setVs (f : Fibre) (n : Nat) (vs : List Word) : Fibre :=
  { f with v := setRun f.v n vs }

/-- Writes an a register. -/
def Fibre.setA (f : Fibre) (n : Nat) (c : Cap) : Fibre :=
  { f with a := f.a.set n c }

/-- A predicate; code 7 is pt and reads 1 (R62). -/
def Fibre.pred (f : Fibre) (n : Nat) : Bool :=
  n == 7 || f.preds.getLsbD n

/-- Writes a predicate; a write to pt is discarded (R62). -/
def Fibre.setPred (f : Fibre) (n : Nat) (v : Bool) : Fibre :=
  if n = 7 then f
  else
    let m : BitVec 7 := BitVec.ofNat 7 (2 ^ n)
    { f with preds := if v then f.preds ||| m else f.preds &&& ~~~m }

/-- Writes a k register. -/
def Plot.setK (p : Plot) (n : Nat) (v : Word) : Plot :=
  { p with k := p.k.set n v }

/-- Writes a b register. -/
def Plot.setB (p : Plot) (n : Nat) (c : Cap) : Plot :=
  { p with b := p.b.set n c }

/-! ### Capability fields (R385) -/

/-- The object number. -/
def Cap.obj (c : Cap) : Nat :=
  (c.bits.extractLsb' 104 24).toNat

/-- The first byte's offset in the object. -/
def Cap.base (c : Cap) : Nat :=
  (c.bits.extractLsb' 64 40).toNat

/-- The length in bytes. -/
def Cap.len (c : Cap) : Nat :=
  (c.bits.extractLsb' 24 40).toNat

/-- The rights, bit i for right i of R386. -/
def Cap.rights (c : Cap) : Nat :=
  (c.bits.extractLsb' 8 10).toNat

/-- The kind. -/
def Cap.kind (c : Cap) : Nat :=
  (c.bits.extractLsb' 4 4).toNat

/-- A capability of given fields, reserved bits zero. -/
def Cap.make (obj base len rights kind : Nat) (tag : Bool) : Cap :=
  ⟨BitVec.ofNat 24 obj ++ (BitVec.ofNat 40 base ++ (BitVec.ofNat 40 len ++ ((0 : BitVec 6) ++
    (BitVec.ofNat 10 rights ++ (BitVec.ofNat 4 kind ++ (0 : BitVec 4)))))), tag⟩

/-- Cap.check: the fault, or the object and the byte offset in it (R79). kinds lists the kinds that the entry accepts. -/
def Cap.check (c : Cap) (off size need align : Nat) (kinds : List Nat) : Except FaultCode (Nat × Nat) :=
  if !c.tag then .error .capt
  else if !rightsWithin need c.rights || !kinds.contains c.kind then .error .capr
  else if c.len < off + size then .error .capb
  else if (c.base + off) % align ≠ 0 then .error .align
  else .ok (c.obj, c.base + off)

/-- The first byte in OBJ that a failed check of an offset names: past LEN, the first byte outside (R419). -/
def Cap.faultOff (c : Cap) (off : Nat) (e : FaultCode) : Nat :=
  (c.base + if e = .capb then max off c.len else off) % 2 ^ 40

/-! ### Faults and halts -/

/-- The code of a fault (R413). -/
def FaultCode.num : FaultCode → Nat
  | .illop => 1 | .priv => 2 | .capt => 3 | .capb => 4 | .capr => 5 | .objx => 6 | .resn => 7 | .latnm => 8 | .latty => 9
  | .xne => 10 | .xhalf => 11 | .atomt => 12 | .align => 13 | .umis => 14 | .swapf => 15 | .layx => 16 | .barx => 17
  | .nest => 18 | .spwn => 19 | .poison => 20 | .mmchk => 21 | .dbg => 22 | .trapi => 23 | .halt => 24

/-- A record of a precise fault at an instruction: RPC is PC (R413, R419). -/
def FaultRec.precise (code : FaultCode) (pc : Pc) : FaultRec :=
  { code := code, pc := pc, rpc := some pc, obj := 0, off := 0, num := 0, sc := false, unit := 0, acc := 0, more := 0 }

/-- A record of a fault of an access: its object, byte and kind (R419). -/
def FaultRec.access (code : FaultCode) (pc : Pc) (obj off acc : Nat) : FaultRec :=
  { FaultRec.precise code pc with obj := obj, off := off, acc := acc }

/-- A record of an imprecise fault that a unit reports: RPC is the fibre's next PC (R413, R419). -/
def FaultRec.late (code : FaultCode) (pc : Pc) (obj off acc unit : Nat) : FaultRec :=
  { FaultRec.precise code pc with rpc := none, obj := obj, off := off, acc := acc, unit := unit }

/-- Adds a fibre's record to a halt: its first cause stands, later ones count in MORE (R416). -/
def Halt.addRec (h : Halt) (fid : Nat) (r : FaultRec) : Halt :=
  if h.recs.any fun q => q.1 == fid then
    { h with recs := h.recs.map fun q => if q.1 == fid then (q.1, { q.2 with more := min 63 (q.2.more + 1) }) else q }
  else { h with recs := h.recs ++ [(fid, r)] }

/-- A halt that starts now (R414). -/
def Halt.start (cyc first cause : Nat) (recs : List (Nat × FaultRec)) (toReeve : Bool) : Halt :=
  { fcyc := cyc, first := first, cause := cause, recs := recs, quads := [], skids := [], since := cyc, framed := false, phase := .stopping,
    toReeve := toReeve, done := 0, pcs := [] }

/-- A halt with one more fault: a record; FIRST and CAUSE those of the lowest FID that faults in the halt's ccy, before those of a stop with
cause 0 in that ccy; a HALT sends it to the reeve (R414, R416, R425). -/
def Halt.andFault (h : Halt) (now fid : Nat) (r : FaultRec) : Halt :=
  let g := { h.addRec fid r with toReeve := h.toReeve || r.code == FaultCode.halt }
  if h.fcyc = now ∧ (h.cause = 0 ∨ fid < h.first) then { g with first := fid, cause := r.code.num } else g

/-- A halt in which a fibre of a quadrant has faulted (R414). -/
def Halt.inQuad (h : Halt) (q : Option Nat) : Halt :=
  { h with quads := h.quads ++ q.toList }

/-- The halt of a plot in which a fibre of a quadrant faults: it starts, or takes one more record; FIRST is the lowest of the fibres that fault in its
ccy (R414, R416). TAKING AN EXCEPTION on this part: the plot stops, and the fibre's record says where. -/
def haltWith (halt : Option Halt) (now : Nat) (quad : Option Nat) (fid : Nat) (r : FaultRec) : Halt :=
  let h : Halt := match halt with
    | some h => h.andFault now fid r
    | none => .start now fid r.code.num [(fid, r)] (r.code == .halt)
  h.inQuad quad

/-- The quadrant of the furrow in which a fibre is a member (R37). -/
def State.quadOf (s : State) (pid fid core : Nat) : Option Nat :=
  ((s.core core).furrows.find? fun f => f.pid == pid && f.lanes.any fun l => l.2 == fid).map (·.quad)

/-- Starts the halt of a plot for a fault that an issue of its fibre does not raise, or adds a record to the halt it is in (R414, R416). -/
def State.raise (s : State) (pid fid : Nat) (r : FaultRec) : State :=
  s.modPlot pid fun p => { p with halt := some (haltWith p.halt (s.cycOf p.core) (s.quadOf pid fid p.core) fid r) }

/-- Raises the faults of one issue in a quadrant, lowest FID first, so that FIRST is the lower FID (R416). -/
def State.raiseAll (s : State) (pid : Nat) (quad : Option Nat) (l : List (Nat × FaultRec)) : State :=
  (sortBy (·.1) l).foldl (fun t q =>
    t.modPlot pid fun p => { p with halt := some (haltWith p.halt (t.cycOf p.core) quad q.1 q.2) }) s

/-- Stops a plot with stop cause 0 (R424, R430, R456): a halt in which no fibre has a cause. -/
def State.stopPlot (s : State) (pid : Nat) (toReeve : Bool) : State :=
  s.modPlot pid fun p =>
    match p.halt with
    | some h => { p with halt := some { h with toReeve := h.toReeve || toReeve } }
    | none => { p with halt := some (.start (s.cycOf p.core) 0 0 [] toReeve) }

/-! ### Exception log (R124 to R126) -/

/-- The log object of a context and its entry, if it has one that the part may write: of KIND exception log, W in its ceiling, not sealed (R124,
R392, R399, R402). -/
def State.exlog (s : State) (ctx : Nat) : Option (Nat × Entry) :=
  match s.ctx? ctx with
  | none => none
  | some c =>
    let obj := field c.exlog.toNat 0 24
    if s.isLog c obj then ((s.entry? c obj).filter fun e => rightsWithin rightW e.ceiling).map fun e => (obj, e) else none

/-- The bits of a record (R125). -/
def logRecord (cyc pc plot fld fid core count unit ty cause seq : Nat) : Nat :=
  cyc * 2 ^ 192 + (pc - pc % 64) * 2 ^ 152 + plot * 2 ^ 128 + fld * 2 ^ 112 + fid * 2 ^ 102 + dieOf core * 2 ^ 100 +
    core % 32 * 2 ^ 95 + count * 2 ^ 89 + unit * 2 ^ 86 + ty * 2 ^ 81 + cause * 2 ^ 64 + seq % 2 ^ 64

/-- The part's own write of bytes of an object at their home, 16 bytes at most, inside one line: fields that are read only to software among
them (R124, R447). -/
def State.putObj (s : State) (ctx obj off : Nat) (bs : List Byte) : State :=
  match s.place? 0 ctx obj off with
  | some h => s.store h.addr bs
  | none => s

/-- Reads a number of n bytes of an object at its home, 0 where it has no page. -/
def State.getObj (s : State) (ctx obj off n : Nat) : Nat :=
  match s.place? 0 ctx obj off with
  | some h => s.loadNat h.addr n
  | none => 0

/-- Appends one record to a context's exception log, or counts it in DROP (R126). -/
def State.appendRecord (s : State) (w : LogWrite) : State :=
  match s.exlog w.ctx with
  | none => s
  | some (obj, e) =>
    match s.place? 0 w.ctx obj 0 with
    | none => s
    | some _ =>
      let head := s.getObj w.ctx obj 0 8
      let capn := s.getObj w.ctx obj 16 4
      let full := decide (capn ≤ head) || decide (65536 * e.npages < 64 + 32 * (head + 1))
      if full || (s.place? 0 w.ctx obj (64 + 32 * head)).isNone then
        s.putObj w.ctx obj 8 (leBytes 8 (s.getObj w.ctx obj 8 8 + 1))
      else
        let r := s.cycOf w.core * 2 ^ 192 + w.bits + head % 2 ^ 64
        let t := s.putObj w.ctx obj (64 + 32 * head) (leBytes 16 r)
        let t := t.putObj w.ctx obj (64 + 32 * head + 16) (leBytes 16 (r / 2 ^ 128))
        t.putObj w.ctx obj 0 (leBytes 8 (head + 1))

/-- Whether a core reaches the header of its context's exception log and the place of the next record (R14, R460). -/
def State.logOpen (s : State) (w : LogWrite) : Bool :=
  match s.exlog w.ctx with
  | none => true
  | some (obj, _) =>
    [0, 64 + 32 * s.getObj w.ctx obj 0 8].all fun off =>
      match s.place? 0 w.ctx obj off with
      | some h => s.wayOpen (dieOf w.core) h.homeDie
      | none => true

/-- Writes a record to the exception log of a plot's context; one whose way is shut, or that follows such a one of its core, waits (R126, R460). -/
def State.logException (s : State) (p : Plot) (pc fid count unit ty cause : Nat) : State :=
  let w : LogWrite := ⟨p.ctx, p.pid, p.core, logRecord 0 pc p.plot p.fld fid p.core count unit ty cause 0⟩
  if s.logWrites.any (fun q => q.core == w.core) || !s.logOpen w then { s with logWrites := s.logWrites ++ [w] } else s.appendRecord w

/-- The first record that waits and whose way is open now, none of its core before it (R126, R460). -/
def State.nextLog (s : State) (cores : List Nat) (l : List LogWrite) : Option LogWrite :=
  match l with
  | [] => none
  | w :: rest => if !cores.contains w.core && s.logOpen w then some w else s.nextLog (w.core :: cores) rest

/-- A record that has waited for its way is appended (R126, R460). -/
def landLog (s : State) : Result :=
  match s.nextLog [] s.logWrites with
  | some w => .next (({ s with logWrites := s.logWrites.erase w } : State).appendRecord w)
  | none => .fault .noSubject

/-- The records of one issue: one per cause, lowest FID and number of the members that raised it (R126). -/
def State.logIssue (s : State) (p : Plot) (pc unit ty : Nat) (l : List (Nat × List Nat)) : State :=
  [1, 2, 3].foldl (fun t cause =>
    match sortBy id ((l.filter fun q => q.2.contains cause).map (·.1)) with
    | [] => t
    | fid :: rest => t.logException p pc fid (rest.length + 1) unit ty cause) s

/-! ### Answers (R254) -/

/-- A load's answer, on its way to the register. -/
def State.giveLoad (s : State) (pid : Nat) (l : PendLoad) : State :=
  s.modPlot pid fun p => { p with pendLoads := p.pendLoads ++ [l] }

/-- A store's acknowledgement, on its way to the fibre's count. -/
def State.giveStore (s : State) (pid : Nat) (x : PendStore) : State :=
  s.modPlot pid fun p => { p with pendStores := p.pendStores ++ [x] }

/-- Sets flags of a plot that an access raises (R123). -/
def State.setFlags (s : State) (pid : Nat) (f : Flg) : State :=
  s.modPlot pid fun p => { p with flg := p.flg ||| f.setWidth 32 }

/-- Writes the exception-log records of one member's access (R126). -/
def State.logAccess (s : State) (pid : Nat) (pc : Pc) (fid unit ty : Nat) (causes : List Nat) : State :=
  match s.plot? pid with
  | none => s
  | some p => s.logIssue p pc.toNat unit ty [(fid, causes)]

/-! ### Runnable fibres -/

/-- The furrow that holds a fibre. -/
def Core.furrowOf? (c : Core) (pid fid : Nat) : Option Furrow :=
  c.furrows.find? fun f => f.pid == pid && f.lanes.any fun l => l.2 == fid

/-- The furrow of a slot. -/
def Core.furrow? (c : Core) (quad slot : Nat) : Option Furrow :=
  c.furrows.find? fun f => f.quad == quad && f.slot == slot

/-- Replaces the furrow of a slot. -/
def Core.setFurrow (c : Core) (f : Furrow) : Core :=
  { c with furrows := c.furrows.map fun g => if g.quad == f.quad && g.slot == f.slot then f else g }

/-- Frees a furrow slot. -/
def Core.dropFurrow (c : Core) (quad slot : Nat) : Core :=
  { c with furrows := c.furrows.filter fun g => !(g.quad == quad && g.slot == slot) }

/-- Whether a member of a furrow can issue. -/
def Plot.runsIn (p : Plot) (fu : Furrow) : Bool :=
  fu.lanes.any fun l => (p.fibre? l.2).any fun f => f.run == .inFurrow

/-- A fibre becomes runnable at its PC from a cycle on, its age counted from one: ready, or, as a member of a bound furrow, issuable again
in its furrow, which has not been issuable while no member could issue (R32, R42, R334). -/
def State.readyAs (s : State) (pid fid since age : Nat) (flight : Bool) : State :=
  match s.plot? pid with
  | none => s
  | some p =>
    match ((s.core p.core).furrowOf? pid fid).filter fun fu => fu.bound with
    | none => s.modFibre pid fid fun f => { f with run := .ready since, readyAt := age, flight := flight }
    | some fu =>
      let t := if p.runsIn fu then s else s.modCore p.core fun k => k.setFurrow { fu with since := max fu.since since, promoted := false }
      t.modFibre pid fid fun f => { f with run := .inFurrow, readyAt := age, flight := false }

/-- A fibre becomes runnable from a cycle on, with its age counted from it (R32). -/
def State.makeReady (s : State) (pid fid since : Nat) : State :=
  s.readyAs pid fid since since false

/-! ### Join slots (R51 to R53) -/

/-- A join slot of a plot. -/
def Plot.jslot (p : Plot) (j : Nat) : JSlot :=
  p.j.getD j .empty

/-- Replaces a join slot. -/
def Plot.setJslot (p : Plot) (j : Nat) (x : JSlot) : Plot :=
  { p with j := p.j.set j x }

/-- The fibres that have arrived at a slot by the end of a ccy. -/
def JSlot.here (x : JSlot) (now : Nat) : List Nat :=
  (x.arrived.filter fun q => decide (q.2 ≤ now)).map (·.1)

/-- Whether a slot releases by completion at the end of a ccy: a fibre has arrived since the last release, and every fibre of the opened set that
has not exited has (R52). -/
def JSlot.full (x : JSlot) (now : Nat) : Bool :=
  x.start.any (fun t => decide (t ≤ now)) && x.opened.all (x.here now).contains

/-- Whether the hold timer of a slot has reached a limit at the end of a ccy; it runs on though the fibre that started it exits (R52). -/
def JSlot.expired (x : JSlot) (limit now : Nat) : Bool :=
  x.start.any fun t => decide (t + limit ≤ now)

/-- The ccy from which a held fibre of a slot that releases at the end of a ccy is ready: the next one; a fibre whose JOIN is still issuing
then finds an empty slot and dissolves its furrow (R36, R51, R52). -/
def JSlot.ready (x : JSlot) (now fid : Nat) : Nat :=
  match assoc x.arrived fid with
  | some a => if now < a then a + 2 else now + 1
  | none => now + 1

/-- Releases a slot: every held fibre becomes ready at the PC after its JOIN with the age of the oldest, both sets empty (R52). -/
def State.releaseJoin (s : State) (pid j : Nat) : State :=
  match s.plot? pid with
  | none => s
  | some p =>
    let x := p.jslot j
    let age := x.held.foldl (fun a q => min a q.2) ((x.held.headD (0, 0)).2)
    let s := s.modPlot pid fun p => p.setJslot j .empty
    x.held.foldl (fun t q => t.readyAs pid q.1 (x.ready (s.cycOf p.core) q.1) age false) s

/-- A slot without a fibre that exits (R52, R356). -/
def JSlot.leave (x : JSlot) (fid : Nat) : JSlot :=
  { x with opened := x.opened.filter (· != fid), arrived := x.arrived.filter fun q => q.1 != fid }

/-! ### Convergence sets (R44 to R48) -/

/-- A convergence set of a plot. -/
def Plot.cset (p : Plot) (c : Nat) : CSet :=
  p.c.getD c .free

/-- Replaces a convergence set. -/
def Plot.setCset (p : Plot) (c : Nat) (x : CSet) : Plot :=
  { p with c := p.c.set c x }

/-- The live members of a set: c0 holds every live fibre (R44). -/
def Plot.membersOf (p : Plot) (c : Nat) : List Nat :=
  if c = 0 then p.fibres.map (·.fid) else (p.cset c).members

/-- Whether an instance holds only neutral signatures (R46). -/
def Inst.neutral (i : Inst) : Bool :=
  i.code.isNone

/-- Whether every required signer has signed (R46). -/
def Inst.full (i : Inst) : Bool :=
  i.req.all fun f => i.sigs.any fun g => g.fid == f

/-- The first non-neutral signer (R46, R167). -/
def Inst.firstSigner (i : Inst) : Nat :=
  match i.sigs.find? fun g => !g.neutral with
  | some g => g.fid
  | none => 0

/-- Distance of a sequence number ahead of another, mod 2^16 (R45). -/
def seqAhead (s e : Nat) : Nat :=
  (s + 65536 - e % 65536) % 65536

/-- The destinations that an instruction names: k registers (R49). -/
def kDests : Instr → List Nat
  | .uadd x => [x.d.toNat] | .usub x => [x.d.toNat] | .umul x => [x.d.toNat] | .umad x => [x.d.toNat]
  | .uand x => [x.d.toNat] | .uor x => [x.d.toNat] | .uxor x => [x.d.toNat] | .ushl x => [x.d.toNat]
  | .ushr x => [x.d.toNat] | .umin x => [x.d.toNat] | .umax x => [x.d.toNat] | .umov x => [x.d.toNat]
  | .ucmp x => [x.d.toNat] | .usel x => [x.d.toNat] | .uaddUi x => [x.d.toNat] | .uandUi x => [x.d.toNat]
  | .uorUi x => [x.d.toNat] | .ushlUi x => [x.d.toNat] | .ushrUi x => [x.d.toNat] | .umovi x => [x.d.toNat]
  | .sow x => [4 * x.kd.toNat + 3]
  | .seal x => [x.d.toNat] | .objinv x => [x.d.toNat] | .migr x => [x.d.toNat] | .biasD x => [x.d.toNat]
  | .biasH x => [x.d.toNat] | .unpubl x => [x.d.toNat]
  | _ => []

/-- The destinations that an instruction names: b registers of the plot (R49, R406). -/
def bDests : Instr → List Nat
  | .ucnar x => [x.bd.toNat]
  | .mint x => if x.t = 0 then [x.bd.toNat] else []
  | .ldlayer x => [x.bd.toNat]
  | .rellayer x => [x.bd.toNat]
  | _ => []

/-- Whether a fibre has signed an instance that names one of the registers and has not completed (R49). -/
def Plot.pending (p : Plot) (fid : Nat) (ks bs : List Nat) : Bool :=
  p.c.any fun c => c.insts.any fun i =>
    i.sigs.any (fun g => g.fid == fid) &&
      match i.code with
      | some w => (kDests w).any ks.contains || (bDests w).any bs.contains
      | none => false

/-! ### The issue of a lane word -/

/-- How a member leaves its instruction: on to the next, to a target, not at all since it waits before it begins, out of the plot, held at a join slot, parked at the instruction, or with a fault. -/
inductive Act where
  | seq (f : Fibre)
  | goto (f : Fibre) (pc : Pc)
  | again (w : IssueWait)
  | exit
  | hold (f : Fibre) (slot : Nat)
  | park (f : Fibre) (w : Park)
  | fault (r : FaultRec)
  deriving DecidableEq, Repr

/-- What one member's instruction does: the state with its effect on shared state, the member, its flags and causes. -/
structure Eff where
  s : State
  act : Act
  flg : Flg
  causes : List Nat

/-- A member's effect with no flag. -/
def Eff.of (s : State) (a : Act) : Eff :=
  ⟨s, a, 0, []⟩

/-- What a member's instruction reads beside its own fibre: the issue, the plot before the issue, the participants (guard
true and not parked) with their lanes, its own lane, the size of the instruction. -/
structure IssueCtx where
  iss : Issue
  p : Plot
  parts : List (Nat × Fibre)
  lane : Nat
  size : Nat

/-- The address after the instruction. -/
def IssueCtx.nextPc (c : IssueCtx) : Pc :=
  c.iss.pc + BitVec.ofNat 40 c.size

/-- What a lane word's issue needs to know of it: its guard (7 always), its size, the codes of the registers that it reads (R61; a registers
as 128 and up) and writes, the b registers and the k registers that it reads as a uniform word, whether it is privileged, whether it dissolves its furrow whatever its members
do, the TY of its log records, its issue cost, whether the cost is a ccy for each 8 members that take part (R130), the object and line of a
member's access (R205). -/
structure LaneWord where
  guard : Nat := 7
  size : Nat := 4
  codes : List Nat := []
  dst : List Nat := []
  bs : List Nat := []
  uks : List Nat := []
  privileged : Bool := false
  dissolves : Bool := false
  ty : Nat := 0
  cost : Nat := 1
  eighths : Bool := false
  touch : Plot → Fibre → Option (Nat × Nat) := fun _ _ => none

/-- The k registers among register operand codes (R61). -/
def kOf (codes : List Nat) : List Nat :=
  (codes.filter fun c => decide (96 ≤ c ∧ c < 128)).map (· - 96)

/-- The k registers that a word reads: k0 to k31 in a lane, any of k0 to k63 as a uniform word (R49, R61). -/
def LaneWord.ks (w : LaneWord) : List Nat :=
  kOf w.codes ++ w.uks

/-- The v and a registers that a lane word reads or writes (R72, R256). -/
def LaneWord.uses (w : LaneWord) : List Nat :=
  (w.codes ++ w.dst).filter fun c => decide (c < 96 ∨ 128 ≤ c)

/-- The size of an instruction with an optional prefix (R57). -/
def sizeOf (p : Option Pfx) : Nat :=
  if p.isSome then 8 else 4

/-- A loop counter that ends at an address takes its back edge or counts down (R351). Returns the counters and the target. -/
def loopCheck (lc : List LoopCtr) (order : List Nat) (e : Pc) : List LoopCtr × Option Pc :=
  match order with
  | [] => (lc, none)
  | n :: rest =>
    let c := lc.getD n ⟨0, 0, 0, 0⟩
    if c.count ≠ 0 ∧ c.last = e then
      let lc' := lc.set n { c with count := c.count - 1 }
      if c.count - 1 ≠ 0 then (lc', some c.first) else loopCheck lc' rest e
    else loopCheck lc rest e

/-- A member that completed the instruction at an address without a transfer: the end-of-body check, then its next PC (R351). -/
def Fibre.advance (f : Fibre) (pc next : Pc) : Fibre :=
  let (lc, t) := loopCheck f.lc [2, 1, 0] pc
  { f with lc := lc, pc := t.getD next }

/-- Counts n retired fibre-instructions of a plot, and notes the progress made in this ccy: those, or steps where EST is 0 (R432). -/
def State.noteRetired (s : State) (pid n steps : Nat) : State :=
  s.modPlot pid fun p =>
    let made := if p.est = 0 then steps else n
    let now := s.cycOf p.core
    { p with
      rcnt := min 0xFFFFFFFF (p.rcnt + n)
      progress := if made = 0 then p.progress else (p.progress.filter fun q => decide (now < q.1 + 4096)) ++ [(now, made)] }

/-- A parked fibre's wait is met at an instruction that completes by it: the fibre goes on to the next PC, ready (R32). -/
def State.wakePast (s : State) (pid fid size since : Nat) : State :=
  ((s.modFibre pid fid fun f => f.advance f.pc (f.pc + BitVec.ofNat 40 size)).makeReady pid fid since).noteRetired pid 1 0

/-- The number under which an exited fibre's operations and signatures run on: no live fibre has it (R356). -/
def ghost (fid : Nat) : Nat :=
  fid + 1024

/-- Removes an exiting fibre from every convergence set and from the required signers of instances it has not signed; its
signatures stand (R44, R46, R356). The instances this completes are found by the uniform pipe. -/
def Plot.leaveSets (p : Plot) (fid : Nat) : Plot :=
  let rename (f : Nat) : Nat := if f = fid then ghost f else f
  { p with c := p.c.map fun c =>
      { c with
        members := c.members.filter (· != fid)
        insts := c.insts.map fun i =>
          if i.sigs.any (fun g => g.fid == fid) then
            { i with req := i.req.map rename, sigs := i.sigs.map fun g => { g with fid := rename g.fid } }
          else { i with req := i.req.filter (· != fid) } } }

/-- Whether an operation at a home only answers a register. -/
def HomeOp.plainLoad : HomeOp → Bool
  | .acquireLoad _ _ => true
  | .load _ _ _ => true
  | .capLoad _ => true
  | .latLoad _ _ _ _ => true
  | _ => false

/-- An access of an exited fibre runs on without it. -/
def HomeReq.orphan (q : HomeReq) (pid fid : Nat) : HomeReq :=
  if q.pid = pid ∧ q.fid = fid then { q with fid := ghost fid } else q

/-- Whether an access is a fibre's. -/
def HomeReq.of (q : HomeReq) (pid fid : Nat) : Bool :=
  q.pid == pid && q.fid == fid

/-- A request without the loads of an exited fibre, its other accesses running on without it. -/
def Request.orphan (g : Request) (pid fid : Nat) : Request :=
  { g with parts := (g.parts.filter fun q => !(q.of pid fid && q.op.plainLoad)).map (·.orphan pid fid) }

/-- An answered load of an exited fibre is discarded. -/
def PendLoad.owner : PendLoad → Nat
  | .regs f _ _ => f
  | .cap f _ _ => f
  | .free f => f
  | .fault f _ => f

/-- An acknowledgement of an exited fibre's store goes to nobody. -/
def PendStore.orphan (fid : Nat) : PendStore → PendStore
  | .done f => .done (if f = fid then ghost f else f)
  | .fault f c r => .fault (if f = fid then ghost f else f) c r

/-- An engine command of an exited fibre frees no count of a later fibre of its FID. -/
def Cmd.orphan (d : Cmd) (pid fid : Nat) : Cmd :=
  if d.pid = pid then { d with signers := d.signers.map fun f => if f = fid then ghost f else f } else d

/-- The commands of a core go on without an exited fibre (R356). -/
def Core.orphan (c : Core) (pid fid : Nat) : Core :=
  let o (d : Cmd) : Cmd := d.orphan pid fid
  { c with
    cmdWait := c.cmdWait.map o
    wainQueue := c.wainQueue.map o
    wainRun := c.wainRun.map fun r => { r with cmd := o r.cmd }
    mat := { c.mat with queue := c.mat.queue.map o, load := c.mat.load.map o, compute := c.mat.compute.map o } }

/-- A fibre exits: its state goes, it leaves its sets and join slots, its outstanding loads are discarded, its other operations go on
without it; its FID is free from the next ccy on (R29, R52, R356). -/
def State.exitFibre (s : State) (pid fid : Nat) : State :=
  let s : State := { s with
    homeQ := (s.homeQ.map (·.orphan pid fid)).filter fun g => !g.parts.isEmpty
    retries := s.retries.map fun q => (q.1.orphan pid fid, q.2)
    hostAtomics := s.hostAtomics.map fun a => { a with reqs := a.reqs.map (·.orphan pid fid) }
    publishes := s.publishes.map fun q => if q.pid = pid ∧ q.fid = fid then { q with fid := ghost fid } else q }
  let s := s.modPlot pid fun p =>
    { p.leaveSets fid with
      fibres := p.fibres.filter fun f => f.fid != fid
      exited := p.exited ++ [fid]
      j := p.j.map (·.leave fid)
      pendLoads := p.pendLoads.filter fun q => q.owner != fid
      pendStores := p.pendStores.map (·.orphan fid) }
  match s.plot? pid with
  | some p => s.modCore p.core (·.orphan pid fid)
  | none => s

/-- Writes one member's outcome into its plot (R76): its registers, next PC and run state. A transfer to the address after it is none (R340,
R351). -/
def State.settle (s : State) (iss : Issue) (size : Nat) (fid : Nat) (a : Act) : State :=
  let next := iss.pc + BitVec.ofNat 40 size
  match a with
  | .seq f => s.modPlot iss.pid fun p => p.setFibre (f.advance iss.pc next)
  | .goto f pc => s.modPlot iss.pid fun p => p.setFibre (if pc = next then f.advance iss.pc next else { f with pc := pc })
  | .again _ => s
  | .exit => s.exitFibre iss.pid fid
  | .hold f j =>
    (s.modPlot iss.pid fun p => p.setFibre { f.advance iss.pc next with run := .held j, readyAt := s.cycOf iss.core })
  | .park f w => s.modPlot iss.pid fun p => p.setFibre { f with run := .parked w, readyAt := s.cycOf iss.core }
  | .fault _ => s

/-- Whether a furrow outside a bound region dissolves at the end of an issue with these outcomes (R35). -/
def dissolvesNow (w : LaneWord) (acts : List (Nat × Act)) (pcs : List Pc) : Bool :=
  w.dissolves || decide (1 < (dedup pcs).length) ||
    acts.any fun q =>
      match q.2 with
      | .exit => true
      | .hold _ _ => true
      | .park _ _ => true
      | _ => false

/-- The members of an issue with their lanes. -/
def Issue.live (iss : Issue) (p : Plot) : List (Nat × Fibre) :=
  iss.members.filterMap fun m => (p.fibre? m.2).map fun f => (m.1, f)

/-- Whether a member waits for a register that an uncompleted uniform instance it has signed will write (R49, R127). -/
def Plot.waits (p : Plot) (w : LaneWord) (f : Fibre) : Bool :=
  f.pred w.guard && p.pending f.fid w.ks w.bs

/-- Whether a member takes part: its guard is true and it does not wait. -/
def Plot.takes (p : Plot) (w : LaneWord) (f : Fibre) : Bool :=
  f.pred w.guard && !p.waits w f

/-- The members of an issue that take part, with their lanes. -/
def Issue.parts (iss : Issue) (p : Plot) (w : LaneWord) : List (Nat × Fibre) :=
  (iss.live p).filter fun m => p.takes w m.2

/-- The furrow of an issue. -/
def State.furrowOf (s : State) (iss : Issue) : Option Furrow :=
  match iss.furrow with
  | some (quad, slot) => (s.core iss.core).furrow? quad slot
  | none => none

/-- How long an issue occupies its port: its cost, ⌈m / 8⌉ for m members off their home lanes, ⌈q / 2⌉ for q requests, the most of them
(R40, R42, R130, R207). DESIGN CHOICE (log entry 55): with every guard false the formula of R207 holds, not its last sentence, so that m above 8c
takes ⌈m / 8⌉. -/
def State.occupancy (s : State) (iss : Issue) (w : LaneWord) (p : Plot) : Nat :=
  let m := match s.furrowOf iss with
    | some fu => fu.m
    | none => 0
  let parts := iss.parts p w
  let a := ((iss.live p).filter fun q => q.2.pred w.guard).length
  let q := (dedup (parts.filterMap fun z => w.touch p z.2)).length
  max (max w.cost (if w.eighths then (a + 7) / 8 else 1)) (max ((m + 7) / 8) ((q + 1) / 2))

/-- Whether the loop buffer of a core holds a body with an instruction of an object (R371). -/
def Core.buffers (c : Core) (ctx obj off : Nat) : Bool :=
  c.loopBuf.any fun b => b.ctx == ctx && b.obj == obj && decide (b.first ≤ off ∧ off ≤ b.last)

/-- How many ccy a furrow that stays whole waits for its next instruction beyond the issue's start: 3 after a transfer, and after a back edge
that the loop buffer does not serve (R371). -/
def State.redirect (s : State) (iss : Issue) (size : Nat) (acts : List (Nat × Act)) : Nat :=
  let next := iss.pc + BitVec.ofNat 40 size
  match s.plot? iss.pid with
  | none => 0
  | some p =>
    let far (q : Nat × Act) : Bool :=
      match q.2, p.fibre? q.1 with
      | .goto _ t, _ => t != next
      | .seq _, some f => f.pc != next && !(s.core iss.core).buffers p.ctx p.code.obj (p.code.base + f.pc.toNat)
      | _, _ => false
    if acts.any far then 3 else 0

/-- Keeps the furrow of an issue for its next one. -/
def State.keepFurrow (s : State) (iss : Issue) (fu : Furrow) (lanes : List (Nat × Nat)) (wait : Nat) : State :=
  s.modCore iss.core fun c =>
    c.setFurrow { fu with lanes := lanes, since := s.cycOf iss.core + wait, promoted := false, waiting := none }

/-- A furrow ends with an issue of some ccy: its slot is free once the issue is over (R35, R37). -/
def Core.endFurrow (c : Core) (fu : Furrow) (now occ : Nat) : Core :=
  if occ ≤ 1 then c.dropFurrow fu.quad fu.slot
  else c.setFurrow { fu with lanes := [], bound := false, since := now + occ, promoted := false, waiting := none }

/-- The furrow of an issue that occupies its port for some ccy, after it: dissolved with its members ready two ccy after the issue's end (R35,
R36), or kept, less the members that exited (R42); a lone member that completed on waking becomes runnable (R49). -/
def State.regroup (s : State) (iss : Issue) (w : LaneWord) (acts : List (Nat × Act)) (occ : Nat) : State :=
  let now := s.cycOf iss.core
  let stay := acts.filter fun q =>
    match q.2 with
    | .seq _ => true
    | .goto _ _ => true
    | .fault _ => true
    | _ => false
  let loose (t : State) : State :=
    stay.foldl (fun t q => t.readyAs iss.pid q.1 (now + occ + 1) (now + occ + 1) true) t
  match iss.furrow with
  | none => stay.foldl (fun t q => t.makeReady iss.pid q.1 (now + 1)) s
  | some (quad, slot) =>
    match (s.core iss.core).furrow? quad slot with
    | none => loose s
    | some fu =>
      let gone (fid : Nat) : Bool := acts.any fun q => q.1 == fid && q.2 == .exit
      let wait := max occ (s.redirect iss w.size acts)
      if fu.bound then
        let lanes := fu.lanes.filter fun l => !gone l.2
        if lanes.isEmpty then s.modCore iss.core fun c => c.endFurrow fu now occ else s.keepFurrow iss fu lanes wait
      else
        let pcs := acts.filterMap fun q => (s.fibre? iss.pid q.1).map (·.pc)
        if dissolvesNow w acts pcs then loose (s.modCore iss.core fun c => c.endFurrow fu now occ) else s.keepFurrow iss fu fu.lanes wait

/-- An issue takes its quadrant's port for its occupancy (R40). -/
def State.takePort (s : State) (iss : Issue) (occ : Nat) : State :=
  match iss.furrow with
  | some (quad, _) => s.modCore iss.core fun c => { c with ports := assocSet c.ports quad (s.cycOf iss.core + occ) }
  | none => s

/-- A halt with an instruction of the skid of each member of an issue, if the issue is after the halt's fault cycle (R415). -/
def Halt.skid (h : Halt) (now : Nat) (iss : Issue) : Halt :=
  if h.fcyc < now then { h with skids := h.skids ++ iss.members.map (·.2) } else h

/-- Counts the skid that an issue makes (R415). -/
def State.countSkid (s : State) (iss : Issue) : State :=
  s.modPlot iss.pid fun p => { p with halt := p.halt.map fun h => h.skid (s.cycOf p.core) iss }

/-- The end of an issue: members' outcomes in ascending lane order, flags to the plot, records of the exception log, faults, the
furrow; the plot's issue count (R432 to R434). -/
def State.finish (s : State) (iss : Issue) (w : LaneWord) (p0 : Plot) (effs : List (Nat × Act × Flg × List Nat)) : State :=
  let done := effs.filter fun q =>
    (match q.2.1 with
      | .fault _ => false
      | .park _ _ => false
      | .again _ => false
      | _ => true) && (p0.fibre? q.1).any (·.pred w.guard)
  let steps := match s.plot? iss.pid with
    | some p => p.step.toNat - p0.step.toNat
    | none => 0
  let s := effs.foldl (fun t q => t.settle iss w.size q.1 q.2.1) s
  let s := s.noteRetired iss.pid done.length steps
  let flg := effs.foldl (fun a q => a ||| q.2.2.1) 0
  let s := s.modPlot iss.pid fun p => { p with flgPend := p.flgPend ||| flg }
  let s := s.logIssue p0 iss.pc.toNat 0 w.ty (effs.map fun q => (q.1, q.2.2.2))
  let acts := effs.map fun q => (q.1, q.2.1)
  let occ := s.occupancy iss w p0
  let s := ((s.regroup iss w acts occ).takePort iss occ).countSkid iss
  let faults := acts.filterMap fun q =>
    match q.2 with
    | .fault r => some (q.1, r)
    | _ => none
  { s.raiseAll iss.pid (iss.furrow.map (·.1)) faults with issuing := none, nextIssue := s.nextIssue + 1 }

/-- What a member's meaning reads beside its fibre. -/
def Issue.context (iss : Issue) (p : Plot) (w : LaneWord) (lane : Nat) : IssueCtx :=
  ⟨iss, p, iss.parts p w, lane, w.size⟩

/-- One member of a lane word's issue: it parks for a register (R49, R127), runs, or passes the word by (R62). -/
def memberStep (w : LaneWord) (iss : Issue) (p : Plot) (body : IssueCtx → State → Fibre → Eff)
    (acc : State × List (Nat × Act × Flg × List Nat)) (m : Nat × Fibre) : State × List (Nat × Act × Flg × List Nat) :=
  if p.waits w m.2 then (acc.1, acc.2 ++ [(m.2.fid, .park m.2 (.uniformResult (w.ks ++ w.bs.map (· + 64))), 0, [])])
  else if m.2.pred w.guard then
    let e := body (iss.context p w m.1) acc.1 m.2
    (e.s, acc.2 ++ [(m.2.fid, e.act, e.flg, e.causes)])
  else (acc.1, acc.2 ++ [(m.2.fid, .seq m.2, 0, [])])

/-- The registers that an access will write: v registers, an a register as 128 and up. -/
def HomeOp.targets : HomeOp → List Nat
  | .acquireLoad n d => codesFrom d ((n + 3) / 4)
  | .load n _ d => codesFrom d ((n + 3) / 4)
  | .capLoad d => [128 + d]
  | .atom _ ty _ _ (some d) => codesFrom d (if ty = 22 then 2 else 1)
  | .latLoad ty _ d _ => codesFrom d (if ty = 7 then 4 else 2)
  | _ => []

/-- The registers that an answer on its way will write. -/
def PendLoad.targets : PendLoad → List Nat
  | .regs _ d vs => codesFrom d vs.length
  | .cap _ d _ => [128 + d]
  | _ => []

/-- A fibre's accesses that no home has performed yet. -/
def State.accessesOf (s : State) (pid fid : Nat) : List HomeReq :=
  ((s.homeQ ++ s.retries.map (·.1)).flatMap (·.parts) ++ s.hostAtomics.flatMap (·.reqs)).filter fun q => q.of pid fid

/-- The v and a registers of a fibre that its loads have still to write (R72, R256). -/
def State.loading (s : State) (pid fid : Nat) : List Nat :=
  (s.accessesOf pid fid).flatMap (·.op.targets) ++
    match s.plot? pid with
    | some p => (p.pendLoads.filter fun l => l.owner == fid).flatMap (·.targets)
    | none => []

/-- Whether a member is held by an interlock on a register of its instruction (R72, R256, R334). -/
def State.interlocked (s : State) (p : Plot) (w : LaneWord) (f : Fibre) : Bool :=
  p.takes w f && (s.loading p.pid f.fid).any w.uses.contains

/-- An issue that must wait does not begin: its furrow is not issuable until the wait is over, its quadrant chooses again in this ccy, and a lone
member's completion stands (R225, R334, R460). -/
def State.waitIssue (s : State) (iss : Issue) (w : IssueWait) : State :=
  let t : State := { s with issuing := none }
  match t.furrowOf iss with
  | some fu => { t with rotor := s.rotor - 1 }.modCore iss.core fun c => c.setFurrow { fu with since := s.cycOf iss.core + 1, promoted := false, waiting := some w }
  | none => { t with resumes := t.resumes ++ iss.members.map fun m => ⟨iss.pid, m.2, s.cycOf iss.core + 1, some w⟩ }

/-- What an issue waits for, if a member cannot begin. -/
def issueWait (effs : List (Nat × Act × Flg × List Nat)) : Option IssueWait :=
  firstSome (effs.map fun q =>
    match q.2.1 with
    | .again w => some w
    | _ => none)

/-- Runs a lane word for every active member whose guard is true, in ascending lane order; the others pass it by. A member that
reads a register which a signed, uncompleted instance names parks (R49, R127). An issue of which a member must wait before it begins has
no effect yet (R72, R225, R256, R334). -/
def runLane (w : LaneWord) (s : State) (body : IssueCtx → State → Fibre → Eff) : Result :=
  match s.issuing with
  | none => .fault .noIssue
  | some iss =>
    match s.plot? iss.pid with
    | none => .fault .noSubject
    | some p =>
      if w.privileged && !p.system then
        .next (s.finish iss w p ((iss.live p).map fun m => (m.2.fid, .fault (.precise .priv iss.pc), 0, [])))
      else
        let r := (iss.live p).foldl (memberStep w iss p body) (s, [])
        let wait := if (iss.live p).any fun m => s.interlocked p w m.2 then some (.operands w.uses) else issueWait r.2
        match wait with
        | some k => .next (s.waitIssue iss k)
        | none => .next (r.1.finish iss w p r.2)

/-- A lane word whose members change only their own registers and flags. -/
def runPure (w : LaneWord) (s : State) (body : IssueCtx → Fibre → Fibre × Flg × List Nat) : Result :=
  runLane w s fun c t f =>
    let r := body c f
    ⟨t, .seq r.1, r.2.1, r.2.2⟩

end Sys2Proof.Machine
end

