-- ==== Sys2Proof/Machine/Operands.lean ====
section
/-! DEFINITION. Operand forms: prefix fields with their defaults, immediates, memory operands, register destinations (R60 to
R66, R91, R251). -/

namespace Sys2Proof.Machine

/-! ### Prefix fields (R65, R66) -/

/-- TY, 0 without a prefix. -/
def pTy (p : Option Pfx) : Nat :=
  match p with
  | some q => q.ty.toNat
  | none => 0

/-- RM, 0 (RNE) without a prefix. -/
def pRm (p : Option Pfx) : Nat :=
  match p with
  | some q => q.rm.toNat
  | none => 0

/-- SAT, off without a prefix. -/
def pSat (p : Option Pfx) : Bool :=
  match p with
  | some q => q.sat == 1
  | none => false

/-- C, 0 without a prefix. -/
def pC (p : Option Pfx) : Nat :=
  match p with
  | some q => q.c.toNat
  | none => 0

/-- IMMX, 0 without a prefix. -/
def pImmx (p : Option Pfx) : Nat :=
  match p with
  | some q => q.immx.toNat
  | none => 0

/-- The third source: the code in C, or the default where C is zero (R128). -/
def pSrc (p : Option Pfx) (dflt : Nat) : Nat :=
  if pC p = 0 then dflt else pC p

/-! ### Immediates (R60, R64, R66) -/

/-- A signed immediate of w bits, extended by IMMX; an IMMX of zero takes the sign extension of the short immediate (R66). -/
def simm (p : Option Pfx) (w imm : Nat) : Int :=
  if pImmx p = 0 then signedOf w imm else signedOf (w + 8) (pImmx p * 2 ^ w + imm)

/-- An unsigned immediate of w bits, extended by IMMX. -/
def uimm (p : Option Pfx) (w imm : Nat) : Nat :=
  pImmx p * 2 ^ w + imm

/-- The LI immediate as a word. -/
def liWord (p : Option Pfx) (b : BitVec 7) : Word :=
  wordOfInt (simm p 7 b.toNat)

/-- The target of a PC-relative transfer, offset in words (R340). -/
def relTarget (pc : Pc) (off : Int) : Pc :=
  pc + BitVec.ofInt 40 (4 * off)

/-! ### Memory operands (R251) -/

/-- The capability that a selector names: a0 to a7, b0 to b7 (R62). -/
def selCap (p : Plot) (f : Fibre) (sel : Nat) : Cap :=
  if sel < 8 then f.areg sel else p.breg (sel - 8)

/-- The b registers that a selector reads. -/
def selB (sel : BitVec 4) : List Nat :=
  if sel.toNat < 8 then [] else [sel.toNat - 8]

/-- The a register that a selector reads, among the codes of a word's registers. -/
def selA (sel : BitVec 4) : List Nat :=
  if sel.toNat < 8 then [128 + sel.toNat] else []

/-- The byte offset of a memory operand of s-byte units. -/
def memOff (p : Plot) (f : Fibre) (a : BitVec 7) (s u : Nat) : Nat :=
  (readReg p f a.toNat).toNat + s * u

/-- The words that an s-byte value fills: one register up to 4 bytes, s / 4 registers above (R257). -/
def wordsOf (s v : Nat) : List Word :=
  if s ≤ 4 then [BitVec.ofNat 32 v] else (List.range (s / 4)).map fun i => BitVec.ofNat 32 (v / 2 ^ (32 * i))

/-- A loaded value as register words: sign-extended where the instruction says so (R258). -/
def loadWords (s : Nat) (signed : Bool) (v : Nat) : List Word :=
  if signed then [wordOfInt (signedOf (8 * s) v)] else wordsOf s v

/-- The bytes that an s-byte store takes from registers, low word first (R258). -/
def storeBytes (p : Plot) (f : Fibre) (d s : Nat) : List Byte :=
  if s ≤ 4 then leBytes s (readReg p f d).toNat
  else (List.range (s / 4)).flatMap fun i => leBytes 4 (readReg p f (d + i)).toNat

end Sys2Proof.Machine
end

