-- ==== Sys2Proof/Machine/L1.lean ====
section
/-! DEFINITION. The L1 of a core and the homes it talks to: lines, fills, stores, write-backs, recalls, gathers, drains, tentative
lines (R188, R202 to R204, R221 to R249, R427, R428). -/

namespace Sys2Proof.Machine

/-! ### Lines of an L1 -/

/-- The class of a line's kind: two lines of one tag may stand beside each other in different classes. -/
def LineKind.cls : LineKind → Nat
  | .const => 1
  | .psum => 2
  | _ => 0

/-- Whether two lines are the same entry of an L1. -/
def L1Line.same (a b : L1Line) : Bool :=
  a.ctx == b.ctx && a.obj == b.obj && a.line == b.line && a.kind.cls == b.kind.cls && a.tent == b.tent

/-- The line of a class and owner. -/
def Core.line? (c : Core) (ctx obj line cls : Nat) (tent : Option Nat) : Option L1Line :=
  c.lines.find? fun l => l.ctx == ctx && l.obj == obj && l.line == line && l.kind.cls == cls && l.tent == tent

/-- Replaces a line, or adds it as the youngest. -/
def Core.setLine (c : Core) (l : L1Line) : Core :=
  if c.lines.any l.same then { c with lines := c.lines.map fun m => if l.same m then l else m }
  else { c with lines := c.lines ++ [l] }

/-- Drops a line. -/
def Core.dropLine (c : Core) (l : L1Line) : Core :=
  { c with lines := c.lines.filter fun m => !l.same m }

/-- The L1 set of a line (R188). -/
def l1Set (ctx obj line : Nat) : Nat :=
  mix64 ((ctx * 2 ^ 24 + obj) * 2 ^ 33 + line) % 256

/-- The byte of a line at an offset, if it is held. -/
def L1Line.byte? (l : L1Line) (o : Nat) : Option Byte :=
  assoc l.bytes o

/-- The reference of a line. -/
def L1Line.ref (l : L1Line) : LineRef :=
  ⟨l.ctx, l.obj, l.line, 0⟩

/-- Whether a line is dirty: it has bytes to write back (R202). -/
def L1Line.dirty (l : L1Line) : Bool :=
  l.kind == LineKind.partialDirty && l.tent.isNone

/-- Whether a granule of a line is poisoned (R457, R459). -/
def L1Line.bad (l : L1Line) (g : Nat) : Bool :=
  l.poison.contains g || l.errs.contains g

/-- Whether a granule of a line goes home poisoned: one that an error has poisoned, and, where the line goes home whole, one that has come so (R457,
R459). -/
def L1Line.sendsBad (l : L1Line) (g : Nat) : Bool :=
  l.errs.contains g || (l.kind != .partialDirty && l.poison.contains g)

/-- Adds a strictly rising list's missing numbers. -/
def addAll (l ns : List Nat) : List Nat :=
  ns.foldl insertNat l

/-- Stores bytes into a held line: the bytes, the mask of a partial line, the tags of the granules cleared (R202, R263), the
poison of granules covered whole cleared (R459). -/
def L1Line.put (l : L1Line) (o : Nat) (bs : List Byte) : L1Line :=
  let offs := (List.range bs.length).map (· + o)
  let gs := granules o bs.length
  let whole := gs.filter (coversGranule o bs.length)
  { l with
    bytes := (offs.zip bs).foldl (fun m q => assocSet m q.1 q.2) l.bytes
    written := addAll l.written offs
    tags := without l.tags gs
    poison := without l.poison whole
    errs := without l.errs whole }

/-! ### Error records -/

/-- An error record at a die's queue: corrected (0), contained (1) or fatal (2) (R466). Corrected errors of one source and
number are summed into the record of this ms. -/
def Die.logError (d : Die) (src sev unitNum : Nat) (ctx : Option Nat) (obj off : Nat) : Die :=
  let rec_ : ErrRec :=
    { cyc := d.cyc, off := off, obj := obj, ctx := ctx, unitNum := unitNum, die := d.num, src := src, sev := sev, count := 1,
      seq := d.errSeq }
  let same (r : ErrRec) : Bool :=
    r.sev == 0 && r.src == src && r.unitNum == unitNum && decide (d.errBase ≤ r.seq ∧ d.cyc < r.cyc + 1600000)
  if sev = 0 && d.errq.any same then
    { d with errq := d.errq.map fun r => if same r then { r with count := r.count + 1 } else r }
  else if d.errq.length < 512 then { d with errq := d.errq ++ [rec_], errSeq := d.errSeq + 1 }
  else if sev = 0 then d
  else
    match d.errq.find? fun r => r.sev == 0 with
    | some old => { d with errq := d.errq.erase old ++ [rec_], errSeq := d.errSeq + 1 }
    | none => { d with overflow := d.overflow + 1 }

/-- Writes an error record on a die; a contained or fatal record raises an MSI-X message (R466). -/
def State.logError (s : State) (die src sev unitNum : Nat) (ctx : Option Nat) (obj off : Nat) : State :=
  let d := (s.die die).logError src sev unitNum ctx obj off
  let t := s.setDie d
  if sev ≠ 0 ∧ d.errSeq ≠ (s.die die).errSeq then t.report (.msix die (s.die die).errSeq) else t

/-- A record as the host reads it from the error queue: 256 bits (R466). -/
def ErrRec.word (r : ErrRec) : BitVec 256 :=
  BitVec.ofNat 64 r.cyc ++ BitVec.ofNat 40 r.off ++ BitVec.ofNat 24 r.obj ++ BitVec.ofNat 6 (r.ctx.getD 0) ++ BitVec.ofNat 8 r.unitNum ++
    BitVec.ofNat 2 r.die ++ BitVec.ofNat 8 r.src ++ BitVec.ofNat 2 r.sev ++ BitVec.ofBool r.ctx.isSome ++ (0 : BitVec 37) ++
    BitVec.ofNat 32 r.count ++ BitVec.ofNat 32 r.seq

/-- What the host reads of a die's error queue through the reeve interface or I3C: its records, oldest first, and its overflow count (R466). -/
def State.readErrors (s : State) (die : Nat) : List (BitVec 256) × Nat :=
  ((s.die die).errq.map ErrRec.word, (s.die die).overflow)

/-! ### Commutative ranges: the exact sums (R238 to R240) -/

/-- Where the shadow of a range's element lies in object 0 (R238, R395). -/
def Entry.shadowAt (e : Entry) (el : Nat) : Nat :=
  e.shoff + 16 * el

/-- The exact sum of an element: the slice's beside the line, or the shadow's while the line is out of the slice (R238). The shadow
holds it as 96 bits of two's complement in the low bytes of its 16 (DESIGN CHOICE, log entry 38). -/
def State.rangeSum (s : State) (e : Entry) (ctx obj off : Nat) : Int :=
  let el := off / rangeWidth e.crty
  match s.sums.find? fun q => q.1 == ⟨ctx, obj, off / 128, 0⟩ && q.2.1 == el with
  | some q => q.2.2
  | none =>
    match s.ctx? ctx with
    | some c => signedOf 96 (s.read0 c (e.shadowAt el) 12)
    | none => 0

/-- Sets an element's exact sum in the slice (R238). -/
def State.setRangeSum (s : State) (e : Entry) (ctx obj off : Nat) (v : Int) : State :=
  let el := off / rangeWidth e.crty
  let r : LineRef := ⟨ctx, obj, off / 128, 0⟩
  { s with sums := (s.sums.filter fun q => !(q.1 == r && q.2.1 == el)) ++ [(r, el, v)] }

/-- The sums of a line go to the shadow, as the line leaves its slice (R238). -/
def State.sumsToShadow (s : State) (r : LineRef) : State :=
  let mine := s.sums.filter fun q => q.1 == r
  let t : State := { s with sums := s.sums.filter fun q => q.1 != r }
  match (t.ctx? r.ctx).bind fun c => (t.entry? c r.obj).map fun e => (c, e) with
  | some (c, e) => mine.foldl (fun t q => t.write0 c (e.shadowAt q.2.1) (leBytes 16 (wrap 96 q.2.2))) t
  | none => t

/-- The bytes of a range line become the read values of its sums, where they differ (R238, R240). -/
def State.showSums (s : State) (e : Entry) (r : LineRef) : State :=
  let w := rangeWidth e.crty
  (s.sums.filter fun q => q.1 == r).foldl (fun t q =>
    let v := rangeStored e.crty e.crg q.2.2
    if t.getObj r.ctx r.obj (q.2.1 * w) w = v then t else t.putObj r.ctx r.obj (q.2.1 * w) (leBytes w v)) s

/-- The bytes that a load of a range returns: the read value of each element, stamped for the reader; the flags (R240). -/
def State.rangeLoad (s : State) (e : Entry) (ctx obj off n : Nat) (pc fid : Nat) : List Byte × Flg :=
  let w := rangeWidth e.crty
  let el0 := off / w
  let els := (List.range ((off + n + w - 1) / w - el0)).map (· + el0)
  let rs := els.map fun el => rangeRead ⟨0, 0, fid, 0, pc, false⟩ e.crty e.crg (s.rangeSum e ctx obj (el * w))
  let bs := rs.flatMap fun r => leBytes w r.1
  ((bs.drop (off - el0 * w)).take n, rs.foldl (fun f r => f ||| r.2) 0)

/-- A plain store to a range: each element's sum becomes its new value, converted as an operand, with the flags and causes of the
conversions; the bytes hold its read value (R240). -/
def State.rangeStore (s : State) (e : Entry) (ctx obj off : Nat) (a : Nat) (bs : List Byte) : State × Flg × List Nat :=
  let w := rangeWidth e.crty
  let el0 := off / w
  let els := (List.range ((off + bs.length + w - 1) / w - el0)).map (· + el0)
  let s := s.store a bs
  let (t, f, cs) := els.foldl (fun (acc : State × Flg × List Nat) el =>
    let (v, f, cs) := toRange e.crty e.crg (s.getObj ctx obj (el * w) w)
    (acc.1.setRangeSum e ctx obj (el * w) v, acc.2.1 ||| f, dedup (acc.2.2 ++ cs))) (s, 0, [])
  (t.showSums e ⟨ctx, obj, off / 128, 0⟩, f, cs)

/-! ### The L2 slices (R20, R195) -/

/-- The channel and set of an address div 128 in its slice: 512 sets (R20, R195). -/
def l2Set (slot : Nat) : Nat × Nat :=
  (slot / chanSlots, slot % chanSlots % 512)

/-- The pages that a slice pins: SLICE pages of every object of every context, a lattice page's replicas on their own dies, and pages
on their way to the slice (R195, R282). R195 refuses a ninth page of a slice to MIGR; of one that a table store or a swap-in makes it says
nothing, and it is pinned too, in a way of its own (DESIGN CHOICE, log entry 17). -/
def State.pinned (s : State) (chan : Nat) : Nat :=
  let named (e : Entry) (d : PageDesc) : Nat :=
    if d.home = 2 ∧ d.place = 2 ∧ d.res = 1 ∧ (d.pchan = chan ∨ e.lattice ∧ d.pchan % 64 = chan % 64) then 1 else 0
  let there := s.ctxs.map fun c =>
    ((List.range c.otne.toNat).map fun obj =>
      match s.entry? c obj with
      | none => 0
      | some e => if obj = 0 then 0 else ((List.range e.npages).map fun p => named e (s.desc c obj e p)).sum).sum
  let coming := s.migrations.map fun m =>
    match (s.ctx? m.ctx).bind fun c => (s.entry? c m.obj).map fun e => (c, e) with
    | some (c, e) =>
      let old := s.desc c m.obj e m.page
      if old.home = 2 ∧ named e old = 1 then 0 else named e { PageDesc.ofNat m.newDesc.toNat with res := 1 }
    | none => 0
  there.sum + coming.sum

/-- The slice and set of a line that is in no pinned page: where its home keeps what it knows of it (R20, R195). -/
def State.setOf (s : State) (r : LineRef) : Option (Nat × Nat) :=
  ((s.place? (r.rep - 1) r.ctx r.obj (128 * r.line)).filter fun h => !h.isCore && !h.isHost && h.desc.home != 2).map fun h => l2Set (h.addr / 128)

/-- Whether a line holds release records, with which it stays in its slice (R228). -/
def State.recorded (s : State) (r : LineRef) : Bool :=
  s.relRecs.any fun q => q.1 == r

/-- Whether the set of a line has no room for one more line with release records: it holds 7 of them, so that a way is left for other lines (R20,
R228). The spec names no such case; the release is then eager (DESIGN CHOICE, log entry 17). -/
def State.recordsFull (s : State) (r : LineRef) : Bool :=
  !s.recorded r && (s.setOf r).isSome && decide (7 ≤ ((dedup (s.relRecs.map (·.1))).filter fun q => s.setOf q == s.setOf r).length)

/-- Whether a lattice wait watches a line, which keeps it in its slice (R287). -/
def State.latticeWatched (s : State) (r : LineRef) : Bool :=
  r.rep != 0 && s.plots.any fun p => p.ctx == r.ctx && dieOf p.core + 1 == r.rep && p.fibres.any fun f =>
    match f.run with
    | .parked (.ldlat w) => w.obj == r.obj && w.off / 128 == r.line
    | _ => false

/-- The line that a set gives up for another: the one used least recently that need not stay, else one of lattice waits alone, for whose watches the
directory then has no room (R20, R228, R287). The spec names no replacement rule (DESIGN CHOICE, log entry 17). -/
def State.victim (s : State) (mine : List L2Line) (slot : Nat) : Option L2Line :=
  let free := mine.filter fun l => l.slot != slot && !s.recorded l.ref
  match free.find? fun l => !s.latticeWatched l.ref with
  | some l => some l
  | none => free.head?

/-- A slice gives up n lines of the set of a line, which stays itself; their range sums go to the shadow (R20, R238). -/
def State.evictL2 (s : State) (slot : Nat) (n : Nat) : State :=
  match n with
  | 0 => s
  | k + 1 =>
    match s.victim (s.l2.filter fun l => l2Set l.slot == l2Set slot) slot with
    | some l => (({ s with l2 := s.l2.erase l } : State).sumsToShadow l.ref).evictL2 slot k
    | none => s

/-- A slice holds no more lines of a set than its ways: 16, less the pinned pages' (R20, R195). -/
def State.trimL2 (s : State) (slot : Nat) : State :=
  let n := (s.l2.filter fun l => l2Set l.slot == l2Set slot).length
  if n ≤ 1 then s else s.evictL2 slot (n - (16 - s.pinned (l2Set slot).1))

/-- The sets of a slice that has pinned another page give up the ways that it takes (R195). -/
def State.trimSlice (s : State) (chan : Nat) : State :=
  ((s.l2.filter fun l => l.slot / chanSlots == chan).map (·.slot)).foldl State.trimL2 s

/-- A home has performed a write of a line, which wakes those who watch it (R274). -/
def State.noteWrite (s : State) (r : LineRef) : State :=
  { s with homeWrites := assocSet s.homeWrites r ((assoc s.homeWrites r).getD 0 + 1) }

/-- An access at a line's home brings the line into its slice, as the youngest of its set; a write makes it dirty there, and wakes its watchers. A
replica's line stands under the replica's die. Pinned lines have ways of their own, and the lines of other homes are in no slice (R20, R194, R274,
R282). -/
def State.touchL2 (s : State) (r : LineRef) (h : PortHit) (dirty : Bool) : State :=
  let r : LineRef := if h.entry.lattice then { r with rep := h.homeDie + 1 } else r
  let s := if dirty then s.noteWrite r else s
  if h.isCore || h.isHost || h.desc.home == 2 then s
  else
    let slot := h.addr / 128
    let was := s.l2.any fun l => l.slot == slot && l.dirty
    let rest := s.l2.filter fun l => l.slot != slot
    State.trimL2 { s with l2 := rest ++ [⟨r, slot, was || dirty⟩] } slot

/-! ### Write-backs at the home (R203, R399) -/

/-- Writes one granule's part of a line at its address: the bytes at the offsets listed, as one write, then its tag. -/
def State.writeGranule (s : State) (ctx obj line : Nat) (a : Nat) (g : Nat) (cells : List (Nat × Byte)) (tag poison : Bool) : State :=
  let mine := cells.filter fun q => q.1 / 16 == g
  let whole := decide (mine.length = 16)
  if mine.isEmpty then s
  else
    let m := mine.foldl (fun m q => Memory.write m (a + q.1) q.2) s.mem
    let gr := a / 16 + g
    let t : State := { s with mem := m, tags := without s.tags [gr], poison := if whole then without s.poison [gr] else s.poison }
    let t := if tag then t.setTag (16 * gr) true else t
    let t := if poison then t.poisonGranules [gr] else t
    if obj = 0 then t.keepTable s.mem ctx (line * 128 + 16 * g) 16 else t.keepHeader s.mem ctx obj (line * 128 + 16 * g) (a + 16 * g) 16

/-- Whether the port takes a write-back of a line: the checks of R399, with the kind of the capability and the level of the store that
made it and the need of its access, and no X line (R247). -/
def State.acceptsWriteBack (s : State) (core : Nat) (l : L1Line) (need : Nat) : Option PortHit :=
  match s.port (dieOf core) l.ctx l.system l.capKind l.obj need (128 * l.line) with
  | .ok h => if s.lineIsX l.ctx l.obj (128 * l.line) h then none else some h
  | .error _ => none

/-- A write-back that the port discards: a contained error (R399). -/
def State.discardLine (s : State) (core : Nat) (l : L1Line) : State :=
  s.logError (dieOf core) 12 1 (core % 32) (some l.ctx) l.obj (128 * l.line)

/-- Applies a line's written bytes, or an Owned line's bytes, at its home (R203, R212), or discards them (R399). -/
def State.putLine (s : State) (core : Nat) (l : L1Line) : State :=
  match s.acceptsWriteBack core l l.need with
  | none => s.discardLine core l
  | some h =>
    let cells := if l.kind == LineKind.owned then l.bytes else l.bytes.filter fun q => l.written.contains q.1
    ((List.range 8).foldl (fun t g => t.writeGranule l.ctx l.obj l.line h.addr g cells (l.tags.contains g) (l.sendsBad g)) s).touchL2
      l.ref h true

/-- Whether a core still has partials of a line, in its L1 or in flight (R239). -/
def State.hasPartials (s : State) (core : Nat) (r : LineRef) : Bool :=
  ((s.core core).lines.any fun l => l.kind == .psum && l.ref == r) ||
    s.writeBacks.any fun w => w.core == core && w.line.kind == .psum && w.line.ref == r

/-- Adds a line's partials to the sums at the home, or discards them where the port refuses the need of a RED; its poisoned granules
arrive poisoned (R240, R399, R457). The bytes of the range stay until a gather (R238). -/
def State.putPartials (s : State) (core : Nat) (l : L1Line) : State :=
  let t : State :=
    if s.hasPartials core l.ref then s else { s with contribs := s.contribs.filter fun q => !(q.1 == l.ref && q.2 == core) }
  match t.acceptsWriteBack core l l.need with
  | none => t.discardLine core l
  | some h =>
    if h.entry.crty = 0 then t.discardLine core l
    else
      let w := rangeWidth h.entry.crty
      let t := t.touchL2 l.ref h true
      let t := l.sums.foldl (fun u q =>
        let off := q.1 * w
        u.setRangeSum h.entry l.ctx l.obj off (addRange h.entry.crty (u.rangeSum h.entry l.ctx l.obj off) q.2).1) t
      t.poisonGranules (((List.range 8).filter l.sendsBad).map (· + h.addr / 16))

/-- A write-back that reaches its home: a line's bytes or partials; an Owned line's registration ends (R202, R203, R240). -/
def State.land (s : State) (core : Nat) (l : L1Line) : State :=
  match l.kind with
  | .psum => s.putPartials core l
  | .owned => { s.putLine core l with owners := (s.putLine core l).owners.filter fun q => !(q.1 == l.ref && q.2 == core) }
  | _ => s.putLine core l

/-- The Owned lines and partials of a core in flight that satisfy a test reach their homes, in the order in which they left (R203, R232). -/
def State.landWhere (s : State) (core : Nat) (p : L1Line → Bool) : State :=
  let mine (w : WriteBackMsg) : Bool := w.core == core && p w.line
  (s.writeBacks.filter mine).foldl (fun t w => t.land core w.line) { s with writeBacks := s.writeBacks.filter fun w => !mine w }

/-! ### Gathers (R240) -/

/-- A partial-sum line leaves the L1 and reaches its home (R240). -/
def State.applyPartials (s : State) (core : Nat) (l : L1Line) : State :=
  (s.modCore core fun c => c.dropLine l).putPartials core l

/-- Gathers a range line: every contributor returns and drops its partials, those in flight arrive, the bytes take the read values
(R240). -/
def State.gather (s : State) (r : LineRef) : State :=
  let t := (s.contribs.filter fun q => q.1 == r).foldl (fun t q =>
    let t := t.landWhere q.2 fun l => l.ref == r && l.kind == .psum
    match (t.core q.2).line? r.ctx r.obj r.line 2 none with
    | some l => t.applyPartials q.2 l
    | none => { t with contribs := t.contribs.filter fun z => !(z.1 == r && z.2 == q.2) }) s
  match (t.ctx? r.ctx).bind fun c => t.entry? c r.obj with
  | some e => if e.crty = 0 then t else t.showSums e r
  | none => t

/-! ### Ownership (R202, R235, R236, R243, R244) -/

/-- The predictor's index of a line (R236). -/
def predIndex (obj line : Nat) : Nat :=
  mix64 (obj * 2 ^ 32 + line) % 1024

/-- A predictor counter; every entry starts at 1 (R236). -/
def Core.pred (c : Core) (i : Nat) : Nat :=
  (assoc c.predictor i).getD 1

/-- Raises a counter, saturating at 3 (R236). -/
def Core.predUp (c : Core) (i : Nat) : Core :=
  { c with predictor := assocSet c.predictor i (min 3 (c.pred i + 1)) }

/-- Lowers a counter, saturating at 0 (R236). -/
def Core.predDown (c : Core) (i : Nat) : Core :=
  { c with predictor := assocSet c.predictor i (c.pred i - 1) }

/-- Recalls a line that a core owns: the whole line, or its write-back in flight, returns to its home and leaves the L1 (R202, R232). -/
def State.recallFrom (s : State) (core : Nat) (r : LineRef) (byOther : Bool) : State :=
  let t := s.landWhere core fun l => l.ref == r && l.kind == .owned
  let t := match (t.core core).line? r.ctx r.obj r.line 0 none with
    | some l => if l.kind == LineKind.owned then (t.modCore core fun c => c.dropLine l).putLine core l else t
    | none => t
  let t := { t with owners := t.owners.filter fun q => !(q.1 == r && q.2 == core) }
  if byOther then t.modCore core fun c => c.predDown (predIndex r.obj r.line) else t

/-- The cells of a piece that lie on a line. -/
def cellsOn (line : Nat) (cells : List (Nat × List Byte)) : List (Nat × List Byte) :=
  cells.filter fun c => c.1 / 128 == line

/-- The fault record of a port's refusal of an engine's write: unit 5, access 6 (R302, R419). -/
def Cmd.writeFault (d : Cmd) (code : FaultCode) (obj off : Nat) : FaultRec :=
  FaultRec.late code d.pc obj off 6 5

/-- The exception records of an engine command: one for each cause that it has none of yet (R125, R126). -/
def State.logEngine (s : State) (p : Plot) (d : Cmd) (ty : Nat) (causes : List Nat) : State :=
  let mine (w : WainRun) : Bool := w.cmd.order == d.order
  let seen := (((s.core p.core).wainRun.find? mine).map (·.logged)).getD []
  let t := s.modCore p.core fun k =>
    { k with wainRun := k.wainRun.map fun w => if mine w then { w with logged := dedup (w.logged ++ causes) } else w }
  t.logIssue p d.pc.toNat 3 ty [(d.first, causes.filter fun c => !seen.contains c)]

/-- One run of bytes of an engine command is written at its home, a range's elements converted, with the flags to the plot; the first
refusal of the port is the command's fault (R240, R243, R247, R399). The global side may lie in a CORE page: R196 names two paths to another core's
scratchpad and not this one, and R302 names no fault for it (DESIGN CHOICE, log entry 51). -/
def State.engineWrite (s : State) (p : Plot) (d : Cmd) (off : Nat) (bs : List Byte) : State × Option FaultRec :=
  match s.port (dieOf p.core) p.ctx p.system d.dst.kind d.dst.obj rightW off with
  | .error e => (s, some (d.writeFault e d.dst.obj off))
  | .ok h =>
    if h.entry.lattice then (s, some (d.writeFault .latnm d.dst.obj off))
    else if s.lineIsX p.ctx d.dst.obj off h then (s, some (d.writeFault .capr d.dst.obj off))
    else
      let t := s.touchL2 ⟨p.ctx, d.dst.obj, off / 128, 0⟩ h true
      if h.entry.crty ≠ 0 then
        let (t, f, cs) := (t.gather ⟨p.ctx, d.dst.obj, off / 128, 0⟩).rangeStore h.entry p.ctx d.dst.obj off h.addr bs
        ((t.setFlags p.pid f).logEngine p d (rangeTy h.entry.crty) cs, none)
      else (t.homeStore p.ctx d.dst.obj off h.addr bs, none)

/-- Bytes by offset as runs of neighbours, in the order of the list. -/
def runsOf (l : List (Nat × Byte)) : List (Nat × List Byte) :=
  (l.foldl (fun (acc : List (Nat × List Byte)) z =>
    match acc with
    | (a, bs) :: more => if a + bs.length = z.1 then (a, bs ++ [z.2]) :: more else (z.1, [z.2]) :: acc
    | [] => [(z.1, [z.2])]) []).reverse

/-- The writes of a piece as one write of each run of neighbouring bytes, the later of two writes of a byte standing (R306, R312, R459). -/
def pieceRuns (cells : List (Nat × List Byte)) : List (Nat × List Byte) :=
  let bytes := cells.foldl (fun m c => ((List.range c.2.length).zip c.2).foldl (fun m q => assocSet m (c.1 + q.1) q.2) m) []
  runsOf (sortBy (·.1) bytes)

/-- The bytes of a piece are written at the home of its line; the first refusal is the command's fault (R302, R306). -/
def State.engineCells (s : State) (p : Plot) (d : Cmd) (cells : List (Nat × List Byte)) : State × Option FaultRec :=
  (pieceRuns cells).foldl (fun (acc : State × Option FaultRec) c => if acc.2.isSome then acc else acc.1.engineWrite p d c.1 c.2) (s, none)

/-- A command of which the home has refused a line: it keeps the pieces before the line, and ends with the fault once they have landed (R302, R306). -/
def WainRun.refused (w : WainRun) (line : Nat) (f : FaultRec) : WainRun :=
  let kept := w.pieces.takeWhile fun x => (cellsOn line x.cells).isEmpty
  { w with want := w.want.filter (fun r => kept.any fun x => !(cellsOn r.line x.cells).isEmpty), failed := some (w.failed.getD f), pieces := kept }

/-- The engine of a core writes its bytes of a line that a running command owns, and the line returns to its home (R244). -/
def State.engineFlush (s : State) (core order : Nat) (r : LineRef) : State :=
  let t : State := { s with engineOwned := s.engineOwned.filter fun q => q != (r, core, order) }
  match (t.core core).wainRun.find? fun w => w.cmd.order == order with
  | none => t
  | some w =>
    match t.plot? w.cmd.pid with
    | none => t
    | some p =>
      let (t, bad) := t.engineCells p w.cmd (cellsOn r.line (w.pieces.flatMap (·.cells)))
      let left (q : Piece) : Piece := { q with cells := q.cells.filter fun c => c.1 / 128 != r.line }
      t.modCore core fun k => { k with wainRun := k.wainRun.map fun v =>
        if v.cmd.order = order then
          match bad with
          | some f => v.refused r.line f
          | none => { v with pieces := v.pieces.map left }
        else v }

/-- Before an access at the home: any Owned copy is recalled, an engine that owns the line writes its bytes first (R209, R242, R244). The
predictor of the owner counts a recall by another core's request only (R236); by is the requesting core, none for other agents. -/
def State.homeReady (s : State) (r : LineRef) (by_ : Option Nat) : State :=
  let t := (s.owners.filter fun q => q.1 == r).foldl (fun t q => t.recallFrom q.2 r (by_.any (· != q.2))) s
  (t.engineOwned.filter fun q => q.1 == r).foldl (fun t q => t.engineFlush q.2.1 q.2.2 r) t

/-- A line of a core reaches its home as a write-back: a Dirty-partial one after any Owned copy of another core is recalled (R203, R220,
R244). -/
def State.applyLine (s : State) (core : Nat) (l : L1Line) : State :=
  match l.kind with
  | .partialDirty => (s.homeReady l.ref (some core)).land core l
  | _ => s.land core l

/-- The write-backs of a core in flight that satisfy a test reach their homes, in the order in which they left (R203, R232). -/
def State.deliver (s : State) (core : Nat) (p : L1Line → Bool) : State :=
  let mine (w : WriteBackMsg) : Bool := w.core == core && p w.line
  (s.writeBacks.filter mine).foldl (fun t w => t.applyLine core w.line) { s with writeBacks := s.writeBacks.filter fun w => !mine w }

/-- A dirty line written back and acknowledged: applied at the home, the L1 left with no bytes of it (R202). -/
def State.writeBackLine (s : State) (core : Nat) (l : L1Line) : State :=
  (s.modCore core fun c => c.dropLine l).applyLine core l

/-- The dirty lines of a core that satisfy a test, and its write-backs in flight, reach their homes and are acknowledged. -/
def State.writeBackWhere (s : State) (core : Nat) (p : L1Line → Bool) : State :=
  let t := s.deliver core fun l => l.kind != .owned && p l
  (t.core core).lines.foldl (fun t l => if l.dirty && p l then t.writeBackLine core l else t) t

/-- Whether an access of a line from a die reaches its home, and the home everyone whom it calls upon for the line: its owner, the
contributors of a range (R14, R460). A line whose transaction has lost its control waits for the home's timeout (R462). -/
def State.lineOpenFrom (s : State) (die : Nat) (r : LineRef) (h : PortHit) : Bool :=
  let way (k : Nat) : Bool := s.wayOpen (dieOf k) h.homeDie
  (s.lostControl.all fun q => !q.lines.contains r) && s.wayOpen die h.homeDie && (s.owners.filter fun q => q.1 == r).all (fun q => way q.2) &&
    (s.engineOwned.filter fun q => q.1 == r).all (fun q => way q.2.1) && (s.contribs.filter fun q => q.1 == r).all fun q => way q.2

/-- Whether a core's access of a line passes now (R14, R460). -/
def State.lineOpen (s : State) (core : Nat) (r : LineRef) (h : PortHit) : Bool :=
  s.lineOpenFrom (dieOf core) r h

/-- Whether a core owns a line and holds it in its L1; one that it has evicted is on its way home (R202). -/
def State.owns (s : State) (core : Nat) (r : LineRef) : Bool :=
  s.owners.contains (r, core) && ((s.core core).line? r.ctx r.obj r.line 0 none).any fun l => l.kind == LineKind.owned

/-- Changes the descriptor of a page at its home, after any Owned copy of its line is recalled (R203, R220, R396). -/
def State.setDesc (s : State) (ctx obj page : Nat) (f : PageDesc → PageDesc) : State :=
  match (s.ctx? ctx).bind fun c => s.entry? c obj with
  | none => s
  | some e => (s.homeReady ⟨ctx, 0, (e.ptoff + 8 * page) / 128, 0⟩ none).modDesc ctx obj page f

/-- Whether the write-backs that a test of a core's dirty lines asks for can pass: no boundary on their ways retrains (R460). -/
def State.backOpen (s : State) (core : Nat) (p : L1Line → Bool) : Bool :=
  let way (l : L1Line) : Bool :=
    match s.place? (dieOf core) l.ctx l.obj (128 * l.line) with
    | some h => s.wayOpen (dieOf core) h.homeDie
    | none => true
  ((s.core core).lines.filter fun l => (l.dirty || l.kind == .psum) && p l).all way &&
    (s.writeBacks.filter fun w => w.core == core && p w.line).all fun w => way w.line

/-! ### Loads and stores in the L1 -/

/-- Who accesses: the plot, its fibre, the instruction, the core, context and level. -/
structure Who where
  pid : Nat
  fid : Nat
  pc : Pc
  core : Nat
  ctx : Nat
  system : Bool
  deriving DecidableEq, Repr

/-- The requester of a member's access. -/
def IssueCtx.who (c : IssueCtx) (f : Fibre) : Who :=
  { pid := c.p.pid, fid := f.fid, pc := c.iss.pc, core := c.p.core, ctx := c.p.ctx, system := c.p.system }

/-- The line of a home as a fill brings it: its bytes, tags and poison. -/
def State.homeLine (s : State) (addr : Nat) : List (Nat × Byte) × List Nat × List Nat :=
  let bs := s.load addr 128
  ((List.range 128).zip bs, (List.range 8).filter (fun g => s.tagAt (addr + 16 * g)),
    (List.range 8).filter fun g => s.poison.contains (addr / 16 + g))

/-- Before an access of a core at the home: its own write-backs in flight arrive, its own dirty bytes of the line go home (R223, R242,
R274). -/
def State.ownBack (s : State) (core : Nat) (r : LineRef) : State :=
  s.writeBackWhere core fun l => l.ref == r

/-- Fills a line into the L1: a new Valid-clean line, or the bytes outside the mask of a line that is held; the core's own write-backs
in flight arrive first (R202, R223). -/
def State.fill (s : State) (w : Who) (kind obj line : Nat) (h : PortHit) (cls : Nat) : State :=
  let r : LineRef := ⟨w.ctx, obj, line, 0⟩
  let s := ((s.deliver w.core fun l => l.ref == r).homeReady r (some w.core)).touchL2 r h false
  let (bs, tags, poison) := s.homeLine (h.addr - h.addr % 128)
  let s := if h.isHost then s.sourceRead (h.addr - h.addr % 128) 128 else s
  s.modCore w.core fun c =>
    match c.line? w.ctx obj line cls none with
    | none =>
      c.setLine { ctx := w.ctx, obj := obj, line := line, kind := if cls = 1 then .const else .clean, bytes := bs, written := [],
                  tags := tags, poison := poison, errs := [], epoch := 0, tent := none, sums := [], capKind := kind, system := w.system,
                  need := rightR }
    | some l =>
      let dirtyG := l.written.map (· / 16)
      c.setLine { l with
        bytes := bs.map fun q => (q.1, if l.written.contains q.1 then (l.byte? q.1).getD q.2 else q.2)
        tags := l.tags ++ tags.filter fun g => !dirtyG.contains g
        poison := addAll l.poison (poison.filter fun g => (l.written.filter fun o => o / 16 == g).length != 16) }

/-- The bytes that a plot's access finds in its core's L1: its tentative line first, then the core's line; whether the byte's granule is poisoned
there (R427, R459). -/
def State.l1Bytes (s : State) (w : Who) (obj off n cls : Nat) : List (Option (Byte × Bool)) :=
  let line := off / 128
  let c := s.core w.core
  let tent := if cls = 0 then c.line? w.ctx obj line 0 (some w.pid) else none
  let main := c.line? w.ctx obj line cls none
  (List.range n).map fun i =>
    let o := off % 128 + i
    match tent.bind (·.byte? o) with
    | some b => some (b, tent.any fun l => l.bad (o / 16))
    | none =>
      match main with
      | some l => (l.byte? o).map fun b => (b, l.bad (o / 16))
      | none => none

/-- A plain load through the L1: a hit, or a fill from the home after the port's checks (R202, R221, R399). The answer holds the
bytes, and whether the granule is tagged. -/
def State.l1Load (s : State) (w : Who) (kind obj off n need : Nat) (cls : Nat) : State × Except FaultCode (List Byte × Bool) :=
  let found := s.l1Bytes w obj off n cls
  let (s, found, err) :=
    if found.all Option.isSome then (s, found, none)
    else
      match s.port (dieOf w.core) w.ctx w.system kind obj need off with
      | .error e => (s, found, some e)
      | .ok h =>
        if cls = 1 && !h.entry.sealed then (s, found, some .capr)
        else
          let t := s.fill w kind obj (off / 128) h cls
          (t, t.l1Bytes w obj off n cls, none)
  match err with
  | some e => (s, .error e)
  | none =>
    let got := found.map fun q => q.getD (0, false)
    if got.any (·.2) then (s, .error .poison)
    else
      let c := s.core w.core
      let g := off % 128 / 16
      let tent := (c.line? w.ctx obj (off / 128) 0 (some w.pid)).filter fun l => l.written.any fun o => o / 16 == g
      let tag := match tent, c.line? w.ctx obj (off / 128) cls none with
        | some l, _ => l.tags.contains g
        | none, some m => m.tags.contains g
        | none, none => false
      (s, .ok (got.map (·.1), tag))

/-- The tentative lines of a plot. -/
def Core.tentative (c : Core) (pid : Nat) : List L1Line :=
  c.lines.filter fun l => l.tent == some pid

/-- Commits a replant region: each tentative line becomes an ordinary Dirty-partial line of the current epoch (R428). -/
def State.commit (s : State) (pid : Nat) : State :=
  match s.plot? pid with
  | none => s
  | some p =>
    if !p.uncommitted then s
    else
      let s := s.modPlot pid fun p => { p with uncommitted := false }
      s.modCore p.core fun c =>
        (c.tentative pid).foldl (fun c l =>
          let c := c.dropLine l
          match c.line? l.ctx l.obj l.line 0 none with
          | none => c.setLine { l with tent := none, epoch := c.epoch }
          | some m =>
            let cells := l.bytes.filter fun q => l.written.contains q.1
            let m' := cells.foldl (fun m q => m.put q.1 [q.2]) m
            let gs := dedup (l.written.map (· / 16))
            let whole := gs.filter fun g => (l.written.filter fun o => o / 16 == g).length == 16
            c.setLine { m' with
              capKind := l.capKind
              system := l.system
              kind := if m.kind == LineKind.owned then .owned else .partialDirty
              epoch := if m.kind == LineKind.partialDirty then m.epoch else c.epoch
              tags := addAll (without m'.tags gs) l.tags
              poison := addAll (without m'.poison whole) l.poison
              errs := addAll (without m'.errs whole) l.errs
              need := m.need ||| l.need }) c

/-- Discards the tentative lines of a plot (R429, R434). -/
def State.discardTentative (s : State) (pid : Nat) : State :=
  match s.plot? pid with
  | none => s
  | some p => s.modCore p.core fun c => { c with lines := c.lines.filter fun l => l.tent != some pid }

/-- Whether a store to a line needs a tentative line that the region may not take: a fifth in its set or a 257th (R428). -/
def Core.tentativeFull (c : Core) (pid ctx obj line : Nat) : Bool :=
  (c.line? ctx obj line 0 (some pid)).isNone &&
    (decide (256 ≤ (c.tentative pid).length) ||
      decide (4 ≤ (c.lines.filter fun l => l.tent.isSome && l1Set l.ctx l.obj l.line == l1Set ctx obj line).length))

/-- The granules of a line that are poisoned at its home and that a store to a line new to the L1 covers in part: they stay poisoned (R459). -/
def State.poisonUnder (s : State) (w : Who) (obj off n : Nat) : List Nat :=
  match s.place? (dieOf w.core) w.ctx obj off with
  | none => []
  | some h => (granules (off % 128) n).filter fun g => !coversGranule (off % 128) n g && s.poison.contains ((h.addr - h.addr % 128) / 16 + g)

/-- A plain store in the L1: into the plot's tentative line while its region is uncommitted (R427), else into the core's line,
made Dirty-partial with the core's epoch (R202, R227). A line new to the L1 is checked at the port; a tagged capability is
stored whole (R262). The line keeps what the access needs, for its write-back (R399). -/
def State.l1Put (s : State) (w : Who) (kind need obj off : Nat) (bs : List Byte) (tag : Bool) (tent : Option Nat) : State :=
  s.modCore w.core fun c =>
    let g := off % 128 / 16
    let mark (l : L1Line) : L1Line := if tag then { l with tags := insertNat l.tags g } else l
    match c.line? w.ctx obj (off / 128) 0 tent with
    | none =>
      c.setLine (mark (({ ctx := w.ctx, obj := obj, line := off / 128, kind := .partialDirty, bytes := [], written := [], tags := [],
                          poison := s.poisonUnder w obj off bs.length, errs := [], epoch := c.epoch, tent := tent, sums := [], capKind := kind,
                          system := w.system, need := need } : L1Line).put (off % 128) bs))
    | some l =>
      let l' := { mark (l.put (off % 128) bs) with capKind := kind, system := w.system }
      c.setLine (match l.kind with
        | .clean => { l' with kind := .partialDirty, epoch := c.epoch, need := need }
        | _ => { l' with need := l.need ||| need })

/-- The need and page checks of a plain store to a cacheable line, and the store (R247, R258). A region that cannot hold the
line commits first (R428). -/
def State.l1Store (s : State) (w : Who) (kind need obj off : Nat) (bs : List Byte) (tag : Bool) : State :=
  match s.plot? w.pid with
  | none => s
  | some p =>
    if p.uncommitted then
      if (s.core w.core).tentativeFull w.pid w.ctx obj (off / 128) then (s.commit w.pid).l1Put w kind need obj off bs tag none
      else s.l1Put w kind need obj off bs tag (some w.pid)
    else s.l1Put w kind need obj off bs tag none

/-! ### Epochs, drains, acquires (R227 to R231) -/

/-- The dirty and the partial-sum lines of a core that satisfy a test are written back (R229, R230, R240). -/
def State.flushWhere (s : State) (core : Nat) (p : L1Line → Bool) : State :=
  let t := s.writeBackWhere core p
  ((t.core core).lines.filter fun l => l.kind == LineKind.psum && p l).foldl (fun u l => u.applyPartials core l) t

/-- A drain: every Dirty-partial line, and partial-sum line, whose epoch is at or below the one received is written back; one evicted
before counts once its write-back has arrived (R229, R232). -/
def State.drainCore (s : State) (core epoch : Nat) : State :=
  s.flushWhere core fun l => decide (l.epoch ≤ epoch)

/-- An eager flush: every Dirty-partial line of the core, whatever its epoch, and its partial-sum lines (R230, R231, R240). -/
def State.flushCore (s : State) (core : Nat) : State :=
  s.flushWhere core fun _ => true

/-- Raises the core's release epoch; at the wrap every dirty line is written back first (R227). -/
def State.bumpEpoch (s : State) (core : Nat) : State :=
  if 0xFFFF ≤ (s.core core).epoch then (s.flushCore core).modCore core fun c => { c with epoch := 0 }
  else s.modCore core fun c => { c with epoch := c.epoch + 1 }

/-- The invalidation of an acquire: Valid-clean lines, and the bytes of each Dirty-partial line outside its mask; Owned and
constant lines stay (R229, R260). -/
def State.invalidate (s : State) (core : Nat) : State :=
  s.modCore core fun c =>
    { c with lines := (c.lines.filter fun l => l.kind != LineKind.clean).map fun l =>
        if l.kind == LineKind.partialDirty && l.tent.isNone then
          { l with
            bytes := l.bytes.filter fun q => l.written.contains q.1
            tags := l.tags.filter fun g => (l.written.filter fun o => o / 16 == g).length == 16
            poison := l.poison.filter fun g => l.written.any fun o => o / 16 == g
            errs := l.errs.filter fun g => l.written.any fun o => o / 16 == g }
        else l }

/-- Bytes at a place of an object as a fibre of a plot sees them: its plot's tentative bytes over the home's (R223, R427). -/
def State.overTentative (s : State) (core pid ctx obj off : Nat) (bs : List Byte) : List Byte :=
  match (s.core core).line? ctx obj (off / 128) 0 (some pid) with
  | none => bs
  | some l => ((List.range bs.length).zip bs).map fun q =>
      if l.written.contains (off % 128 + q.1) then (l.byte? (off % 128 + q.1)).getD q.2 else q.2

end Sys2Proof.Machine
end

