-- ==== Sys2Proof/Machine/Flags.lean ====
section
/-! DEFINITION. The flag computations of the integer instructions: saturating results, the carry and the borrow, and the
conditions of the compares (R115, R131 to R135, R143). -/

namespace Sys2Proof.Machine

/-- An exact integer result as a word: mod 2^32, or with SAT clamped to S32, SA set when it clamps (R115, R131). -/
def satWord (sat : Bool) (x : Int) : Word × Flg :=
  if sat then
    if x < -2147483648 then (0x80000000, flgSA)
    else if 2147483647 < x then (0x7FFFFFFF, flgSA)
    else (wordOfInt x, 0)
  else (wordOfInt x, 0)

/-- The sum with carry-in and its carry-out (R133). -/
def addCarry (a b : Word) (c : Bool) : Word × Bool :=
  let t := a.toNat + b.toNat + c.toNat
  (BitVec.ofNat 32 t, decide (2 ^ 32 ≤ t))

/-- The difference with borrow-in and its borrow-out (R133). -/
def subBorrow (a b : Word) (c : Bool) : Word × Bool :=
  let t : Int := a.toNat - b.toNat - c.toNat
  (wordOfInt t, decide (t < 0))

/-- The integer conditions by code (R135). -/
def icond (code : Nat) (a b : Word) : Bool :=
  match code with
  | 0 => a == b
  | 1 => a != b
  | 2 => a.slt b
  | 3 => a.sle b
  | 4 => b.slt a
  | 5 => b.sle a
  | 6 => a.ult b
  | 7 => a.ule b
  | 8 => b.ult a
  | _ => b.ule a

/-- The order of two values that are no NaNs: less, equal or greater. -/
def valOrd (a b : Val) : Ordering :=
  let key (v : Val) : Int :=
    match v with
    | .inf true => -1
    | .inf false => 1
    | _ => 0
  if key a < key b then .lt
  else if key b < key a then .gt
  else if a.dy.lt b.dy then .lt
  else if b.dy.lt a.dy then .gt
  else .eq

/-- The floating conditions by code; a NaN operand is unordered (R143). -/
def fcond (code : Nat) (a b : Val) : Bool :=
  let un := a.isNan || b.isNan
  match code with
  | 0 => !un && valOrd a b == .eq
  | 1 => un || valOrd a b != .eq
  | 2 => !un && valOrd a b == .lt
  | 3 => !un && valOrd a b != .gt
  | 4 => !un && valOrd a b == .gt
  | 5 => !un && valOrd a b != .lt
  | 6 => un
  | _ => !un

end Sys2Proof.Machine
end

