-- ==== Sys2Proof/Machine/LaneInt.lean ====
section
/-! DEFINITION. Integer and predicate lane instructions (R127 to R140). -/

namespace Sys2Proof.Machine

/-- A word of format LR or LI as the issue sees it: guard, size and the k registers among its operand codes. -/
def lrWord (g : BitVec 3) (p : Option Pfx) (codes dst : List Nat) (ty : Nat := 0) : LaneWord :=
  { guard := g.toNat, size := sizeOf p, codes := codes, dst := dst, ty := ty }

/-- f.D := op A B, the flags as the operation gives them. -/
def binOp (x : FmtR) (s : State) (op : Word → Word → Word × Flg) : Result :=
  runPure (lrWord x.g x.p [x.a.toNat, x.b.toNat] [x.d.toNat]) s fun c f =>
    let r := op (readReg c.p f x.a.toNat) (readReg c.p f x.b.toNat)
    (f.setV x.d.toNat r.1, r.2, [])

/-- f.D := op A imm, the immediate sign-extended (R131). -/
def binOpImm (x : FmtR) (s : State) (op : Word → Word → Word × Flg) : Result :=
  runPure (lrWord x.g x.p [x.a.toNat] [x.d.toNat]) s fun c f =>
    let r := op (readReg c.p f x.a.toNat) (liWord x.p x.b)
    (f.setV x.d.toNat r.1, r.2, [])

/-- f.D := op A B C, C defaulting to D. -/
def triOp (x : FmtR) (s : State) (op : Word → Word → Word → Word × Flg) : Result :=
  let cc := pSrc x.p x.d.toNat
  runPure (lrWord x.g x.p [x.a.toNat, x.b.toNat, cc] [x.d.toNat]) s fun c f =>
    let r := op (readReg c.p f x.a.toNat) (readReg c.p f x.b.toNat) (readReg c.p f cc)
    (f.setV x.d.toNat r.1, r.2, [])

/-- f.D := op A. -/
def unOp (x : FmtU) (s : State) (op : Word → Word × Flg) : Result :=
  runPure (lrWord x.g x.p [x.a.toNat] [x.d.toNat]) s fun c f =>
    let r := op (readReg c.p f x.a.toNat)
    (f.setV x.d.toNat r.1, r.2, [])

/-- A result without flags. -/
def noFlg (w : Word) : Word × Flg :=
  (w, 0)

/-! ### The functions -/

/-- A times 2^n mod 2^32, n = B[7:0] (R131). -/
def shlWord (a b : Word) : Word :=
  a <<< (b.toNat % 256)

/-- U(A) over 2^n, n = B[7:0] (R131). -/
def shrWord (a b : Word) : Word :=
  a >>> (b.toNat % 256)

/-- S(A) over 2^n rounded down, n = min(B[7:0], 31) (R131). -/
def sarWord (a b : Word) : Word :=
  a.sshiftRight (min (b.toNat % 256) 31)

/-- A rotated left by B[4:0] (R131). -/
def rolWord (a b : Word) : Word :=
  a.rotateLeft (b.toNat % 32)

/-- The high word of the signed product (R131). -/
def mulhWord (a b : Word) : Word :=
  wordOfInt (a.toInt * b.toInt / 2 ^ 32)

/-- The high word of the unsigned product (R131). -/
def mulhuWord (a b : Word) : Word :=
  BitVec.ofNat 32 (a.toNat * b.toNat / 2 ^ 32)

/-- The extracted field (R132). -/
def bfxWord (a b : Word) : Word :=
  BitVec.ofNat 32 (a.toNat / 2 ^ (b.toNat % 32) % 2 ^ min (field b.toNat 8 6) 32)

/-- C with the field replaced by the low bits of A (R132). -/
def bfiWord (a b c : Word) : Word :=
  let pos := b.toNat % 32
  let len := min (field b.toNat 8 6) 32
  let m : Word := BitVec.ofNat 32 ((2 ^ len - 1) * 2 ^ pos)
  (c &&& ~~~m) ||| (BitVec.ofNat 32 (a.toNat * 2 ^ pos) &&& m)

/-- The unsigned quotient; division by zero gives all ones, DZ and a record of cause 2 (R134). -/
def divuWord (a b : Word) : Word × Flg × List Nat :=
  if b = 0 then (0xFFFFFFFF, flgDZ, [2]) else (BitVec.ofNat 32 (a.toNat / b.toNat), 0, [])

/-- The signed quotient towards zero, with its two edge cases (R134). -/
def divWord (sat : Bool) (a b : Word) : Word × Flg × List Nat :=
  if b = 0 then (0xFFFFFFFF, flgDZ, [2])
  else if a = 0x80000000 ∧ b = 0xFFFFFFFF then
    if sat then (0x7FFFFFFF, flgSA, []) else (0x80000000, 0, [])
  else (wordOfInt (a.toInt.tdiv b.toInt), 0, [])

/-- The number of set bits (R137). -/
def popcWord (a : Word) : Word :=
  BitVec.ofNat 32 ((List.range 32).foldl (fun n i => n + (a.getLsbD i).toNat) 0)

/-- The number of leading zero bits, 32 for zero (R137). -/
def clzWord (a : Word) : Word :=
  BitVec.ofNat 32 (if a = 0 then 32 else 31 - Nat.log2 a.toNat)

/-- Bit i of the result is bit 31 - i of A (R137). -/
def brevWord (a : Word) : Word :=
  BitVec.ofNat 32 ((List.range 32).foldl (fun n i => n + (a.getLsbD (31 - i)).toNat * 2 ^ i) 0)

/-! ### R131 -/

/-- IADD (R131). -/
def execIadd (x : FmtR) (s : State) : Result :=
  binOp x s fun a b => satWord (pSat x.p) (a.toInt + b.toInt)

/-- ISUB (R131). -/
def execIsub (x : FmtR) (s : State) : Result :=
  binOp x s fun a b => satWord (pSat x.p) (a.toInt - b.toInt)

/-- IMUL (R131). -/
def execImul (x : FmtR) (s : State) : Result :=
  binOp x s fun a b => satWord (pSat x.p) (a.toInt * b.toInt)

/-- IMULH (R131). -/
def execImulh (x : FmtR) (s : State) : Result :=
  binOp x s fun a b => noFlg (mulhWord a b)

/-- IMULH.U (R131). -/
def execImulhU (x : FmtR) (s : State) : Result :=
  binOp x s fun a b => noFlg (mulhuWord a b)

/-- IMAD (R131). -/
def execImad (x : FmtR) (s : State) : Result :=
  triOp x s fun a b c => satWord (pSat x.p) (a.toInt * b.toInt + c.toInt)

/-- IMIN (R131). -/
def execImin (x : FmtR) (s : State) : Result :=
  binOp x s fun a b => noFlg (if b.slt a then b else a)

/-- IMIN.U (R131). -/
def execIminU (x : FmtR) (s : State) : Result :=
  binOp x s fun a b => noFlg (if b.ult a then b else a)

/-- IMAX (R131). -/
def execImax (x : FmtR) (s : State) : Result :=
  binOp x s fun a b => noFlg (if a.slt b then b else a)

/-- IMAX.U (R131). -/
def execImaxU (x : FmtR) (s : State) : Result :=
  binOp x s fun a b => noFlg (if a.ult b then b else a)

/-- AND (R131). -/
def execAnd (x : FmtR) (s : State) : Result :=
  binOp x s fun a b => noFlg (a &&& b)

/-- OR (R131). -/
def execOr (x : FmtR) (s : State) : Result :=
  binOp x s fun a b => noFlg (a ||| b)

/-- XOR (R131). -/
def execXor (x : FmtR) (s : State) : Result :=
  binOp x s fun a b => noFlg (a ^^^ b)

/-- SHL (R131). -/
def execShl (x : FmtR) (s : State) : Result :=
  binOp x s fun a b => noFlg (shlWord a b)

/-- SHR (R131). -/
def execShr (x : FmtR) (s : State) : Result :=
  binOp x s fun a b => noFlg (shrWord a b)

/-- SAR (R131). -/
def execSar (x : FmtR) (s : State) : Result :=
  binOp x s fun a b => noFlg (sarWord a b)

/-- ROL (R131). -/
def execRol (x : FmtR) (s : State) : Result :=
  binOp x s fun a b => noFlg (rolWord a b)

/-- IADD with an immediate (R131). -/
def execIaddLi (x : FmtR) (s : State) : Result :=
  binOpImm x s fun a b => satWord (pSat x.p) (a.toInt + b.toInt)

/-- AND with an immediate (R131). -/
def execAndLi (x : FmtR) (s : State) : Result :=
  binOpImm x s fun a b => noFlg (a &&& b)

/-- OR with an immediate (R131). -/
def execOrLi (x : FmtR) (s : State) : Result :=
  binOpImm x s fun a b => noFlg (a ||| b)

/-- XOR with an immediate (R131). -/
def execXorLi (x : FmtR) (s : State) : Result :=
  binOpImm x s fun a b => noFlg (a ^^^ b)

/-- SHL with an immediate (R131). -/
def execShlLi (x : FmtR) (s : State) : Result :=
  binOpImm x s fun a b => noFlg (shlWord a b)

/-- SHR with an immediate (R131). -/
def execShrLi (x : FmtR) (s : State) : Result :=
  binOpImm x s fun a b => noFlg (shrWord a b)

/-- SAR with an immediate (R131). -/
def execSarLi (x : FmtR) (s : State) : Result :=
  binOpImm x s fun a b => noFlg (sarWord a b)

/-! ### R132 to R138 -/

/-- BFX (R132). -/
def execBfx (x : FmtR) (s : State) : Result :=
  binOp x s fun a b => noFlg (bfxWord a b)

/-- BFI (R132). -/
def execBfi (x : FmtR) (s : State) : Result :=
  triOp x s fun a b c => noFlg (bfiWord a b c)

/-- The carry predicate's code: C[2:0] of the prefix, p0 by default (R133). -/
def carryPred (x : FmtR) : Nat :=
  pC x.p % 8

/-- IADDC (R133). -/
def execIaddc (x : FmtR) (s : State) : Result :=
  runPure (lrWord x.g x.p [x.a.toNat, x.b.toNat] [x.d.toNat]) s fun c f =>
    let r := addCarry (readReg c.p f x.a.toNat) (readReg c.p f x.b.toNat) (f.pred (carryPred x))
    ((f.setV x.d.toNat r.1).setPred (carryPred x) r.2, 0, [])

/-- ISUBB (R133). -/
def execIsubb (x : FmtR) (s : State) : Result :=
  runPure (lrWord x.g x.p [x.a.toNat, x.b.toNat] [x.d.toNat]) s fun c f =>
    let r := subBorrow (readReg c.p f x.a.toNat) (readReg c.p f x.b.toNat) (f.pred (carryPred x))
    ((f.setV x.d.toNat r.1).setPred (carryPred x) r.2, 0, [])

/-- IDIV (R134). -/
def execIdiv (x : FmtR) (s : State) : Result :=
  runPure { lrWord x.g x.p [x.a.toNat, x.b.toNat] [x.d.toNat] 21 with cost := 8 } s fun c f =>
    let r := divWord (pSat x.p) (readReg c.p f x.a.toNat) (readReg c.p f x.b.toNat)
    (f.setV x.d.toNat r.1, r.2.1, r.2.2)

/-- IDIV.U (R134). -/
def execIdivU (x : FmtR) (s : State) : Result :=
  runPure { lrWord x.g x.p [x.a.toNat, x.b.toNat] [x.d.toNat] 20 with cost := 8 } s fun c f =>
    let r := divuWord (readReg c.p f x.a.toNat) (readReg c.p f x.b.toNat)
    (f.setV x.d.toNat r.1, r.2.1, r.2.2)

/-- ICMP (R135). -/
def execIcmp (x : FmtC) (s : State) : Result :=
  runPure (lrWord x.g x.p [x.a.toNat, x.b.toNat] []) s fun c f =>
    (f.setPred x.pd.toNat (icond x.cond.toNat (readReg c.p f x.a.toNat) (readReg c.p f x.b.toNat)), 0, [])

/-- ICMP with an immediate (R135). -/
def execIcmpLi (x : FmtC) (s : State) : Result :=
  runPure (lrWord x.g x.p [x.a.toNat] []) s fun c f =>
    (f.setPred x.pd.toNat (icond x.cond.toNat (readReg c.p f x.a.toNat) (liWord x.p x.b)), 0, [])

/-- ISEL: G names the selecting predicate and is no guard (R136). -/
def execIsel (x : FmtR) (s : State) : Result :=
  runPure { size := sizeOf x.p, codes := [x.a.toNat, x.b.toNat], dst := [x.d.toNat] } s fun c f =>
    (f.setV x.d.toNat (if f.pred x.g.toNat then readReg c.p f x.a.toNat else readReg c.p f x.b.toNat), 0, [])

/-- IABS (R137). -/
def execIabs (x : FmtU) (s : State) : Result :=
  unOp x s fun a => satWord (pSat x.p) (if a.toInt < 0 then -a.toInt else a.toInt)

/-- INEG (R137). -/
def execIneg (x : FmtU) (s : State) : Result :=
  unOp x s fun a => satWord (pSat x.p) (-a.toInt)

/-- NOT (R137). -/
def execNot (x : FmtU) (s : State) : Result :=
  unOp x s fun a => noFlg (~~~a)

/-- POPC (R137). -/
def execPopc (x : FmtU) (s : State) : Result :=
  unOp x s fun a => noFlg (popcWord a)

/-- CLZ (R137). -/
def execClz (x : FmtU) (s : State) : Result :=
  unOp x s fun a => noFlg (clzWord a)

/-- BREV (R137). -/
def execBrev (x : FmtU) (s : State) : Result :=
  unOp x s fun a => noFlg (brevWord a)

/-- MOV (R137). -/
def execMov (x : FmtU) (s : State) : Result :=
  unOp x s fun a => noFlg a

/-- MOVI: no guard; the sign extension of imm17, or of IMMX:imm17 (R138). -/
def execMovi (x : FmtW17) (s : State) : Result :=
  runPure { size := sizeOf x.p, dst := [x.d.toNat] } s fun _ f =>
    (f.setV x.d.toNat (wordOfInt (simm x.p 17 (x.ih.toNat * 2 ^ 14 + x.il.toNat))), 0, [])

/-! ### Predicates (R139, R140) -/

/-- f.pd := op pa pb. -/
def predOp (x : FmtP30) (s : State) (op : Bool → Bool → Bool) : Result :=
  runPure { guard := x.g.toNat } s fun _ f =>
    (f.setPred x.pd.toNat (op (f.pred x.pa.toNat) (f.pred x.pb.toNat)), 0, [])

/-- PAND (R139). -/
def execPand (x : FmtP30) (s : State) : Result :=
  predOp x s fun a b => a && b

/-- POR (R139). -/
def execPor (x : FmtP30) (s : State) : Result :=
  predOp x s fun a b => a || b

/-- PXOR (R139). -/
def execPxor (x : FmtP30) (s : State) : Result :=
  predOp x s fun a b => a != b

/-- PNOT (R139). -/
def execPnot (x : FmtP20) (s : State) : Result :=
  runPure { guard := x.g.toNat } s fun _ f => (f.setPred x.pd.toNat (!f.pred x.pa.toNat), 0, [])

/-- P2V (R140). -/
def execP2v (x : FmtD1) (s : State) : Result :=
  runPure (lrWord x.g x.p [] [x.d.toNat]) s fun _ f => (f.setV x.d.toNat (f.preds.setWidth 32), 0, [])

/-- V2P (R140). -/
def execV2p (x : FmtA1) (s : State) : Result :=
  runPure (lrWord x.g x.p [x.a.toNat] []) s fun c f =>
    ({ f with preds := (readReg c.p f x.a.toNat).setWidth 7 }, 0, [])

end Sys2Proof.Machine
end

