-- ==== Sys2Proof/Machine/LaneFloat.lean ====
section
/-! DEFINITION. Floating-point lane instructions: arithmetic, minimum and maximum, compare, class, rounding to integral
(R141 to R145). -/

namespace Sys2Proof.Machine

/-- The rounding context of a lane instruction: RM, the seed in k31, FID, element index, address; SAT makes it narrowing
(R112, R115). -/
def laneRnd (c : IssueCtx) (p : Option Pfx) (f : Fibre) (idx : Nat) : RndCtx :=
  { rm := pRm p, seed := (c.p.kreg 31).toNat, fid := f.fid, idx := idx, pc := c.iss.pc.toNat, narrow := pSat p }

/-- The operand codes, with k31 where the rounding is stochastic (R112). -/
def withSeed (p : Option Pfx) (codes : List Nat) : List Nat :=
  if pRm p = 5 then codes ++ [127] else codes

/-- The number format of the elements of TY: FP32, H2 or B2 (R102, R141). -/
def elemTy (ty : Nat) : Nat :=
  match ty with
  | 24 => 1
  | 25 => 2
  | t => t

/-- Applies an operation to each element of packed words, the FP32 form as one element (R102, R141). -/
def byElem (ty : Nat) (ws : List Word) (op : Nat → List Nat → NumRes) : Word × Flg × List Nat :=
  if ty = 24 ∨ ty = 25 then
    let r0 := op 0 (ws.map fun w => w.toNat % 2 ^ 16)
    let r1 := op 1 (ws.map fun w => w.toNat / 2 ^ 16)
    (BitVec.ofNat 32 (r0.code + 2 ^ 16 * r1.code), r0.flg ||| r1.flg, dedup (r0.causes ++ r1.causes))
  else
    let r := op 0 (ws.map (·.toNat))
    (BitVec.ofNat 32 r.code, r.flg, r.causes)

/-- f.D := the rounded element results of A and B. -/
def floatOp (x : FmtR) (s : State) (op : Nat → Val → Val → ValRes) : Result :=
  let ty := pTy x.p
  runPure (lrWord x.g x.p (withSeed x.p [x.a.toNat, x.b.toNat]) [x.d.toNat] ty) s fun c f =>
    let r := byElem ty [readReg c.p f x.a.toNat, readReg c.p f x.b.toNat] fun i l =>
      let a := codeVal (elemTy ty) (l.getD 0 0)
      let b := codeVal (elemTy ty) (l.getD 1 0)
      roundRes (laneRnd c x.p f i) (elemTy ty) [a, b] (op (pRm x.p) a b)
    (f.setV x.d.toNat r.1, r.2)

/-- FADD (R141). -/
def execFadd (x : FmtR) (s : State) : Result :=
  floatOp x s fun rm a b => Val.add rm a b

/-- FSUB (R141). -/
def execFsub (x : FmtR) (s : State) : Result :=
  floatOp x s fun rm a b => Val.add rm a (if b.isNan then b else b.setNeg (!b.isNeg))

/-- FMUL (R141). -/
def execFmul (x : FmtR) (s : State) : Result :=
  floatOp x s fun _ a b => Val.mul a b

/-- The exact A times B plus C and its special cases: an invalid product is invalid even beside a NaN C (R141). -/
def fmaRes (c : RndCtx) (ty : Nat) (a b d : Val) : NumRes :=
  let p := if a.isNan || b.isNan then ⟨.zero false, false⟩ else Val.mul a b
  if p.invalid then
    let sf := snanFlags [d]
    ⟨nanCode c ty false (some (originFrac c.pc c.fid)), flgNV ||| sf.1, [1]⟩
  else roundRes c ty [a, b, d] (Val.add c.rm p.v d)

/-- FFMA, C defaulting to D (R141). -/
def execFfma (x : FmtR) (s : State) : Result :=
  let ty := pTy x.p
  let cc := pSrc x.p x.d.toNat
  runPure (lrWord x.g x.p (withSeed x.p [x.a.toNat, x.b.toNat, cc]) [x.d.toNat] ty) s fun c f =>
    let r := byElem ty [readReg c.p f x.a.toNat, readReg c.p f x.b.toNat, readReg c.p f cc] fun i l =>
      fmaRes (laneRnd c x.p f i) (elemTy ty) (codeVal (elemTy ty) (l.getD 0 0)) (codeVal (elemTy ty) (l.getD 1 0))
        (codeVal (elemTy ty) (l.getD 2 0))
    (f.setV x.d.toNat r.1, r.2)

/-- Whether a is the smaller operand, -0 below +0 (R142). -/
def valBelow (a b : Val) : Bool :=
  match valOrd a b with
  | .lt => true
  | .gt => false
  | .eq => a.isNeg && !b.isNeg

/-- The smaller or larger of two codes: a NaN is ignored beside a number (R142). -/
def minMaxCode (pc fid ty : Nat) (wantMax : Bool) (ca cb : Nat) : NumRes :=
  let a := codeVal ty ca
  let b := codeVal ty cb
  let (sf, sc) := snanFlags [a, b]
  match a, b with
  | .nan n m, .nan _ _ => ⟨nanCode ⟨0, 0, fid, 0, pc, false⟩ ty n m, sf, sc⟩
  | .nan _ _, _ => ⟨cb, sf, sc⟩
  | _, .nan _ _ => ⟨ca, sf, sc⟩
  | _, _ => ⟨if wantMax then (if valBelow a b then cb else ca) else (if valBelow b a then cb else ca), 0, []⟩

/-- f.D := the smaller or larger elements. -/
def minMaxOp (x : FmtR) (s : State) (wantMax : Bool) : Result :=
  let ty := pTy x.p
  runPure (lrWord x.g x.p [x.a.toNat, x.b.toNat] [x.d.toNat] ty) s fun c f =>
    let r := byElem ty [readReg c.p f x.a.toNat, readReg c.p f x.b.toNat] fun _ l =>
      minMaxCode c.iss.pc.toNat f.fid (elemTy ty) wantMax (l.getD 0 0) (l.getD 1 0)
    (f.setV x.d.toNat r.1, r.2)

/-- FMIN (R142). -/
def execFmin (x : FmtR) (s : State) : Result :=
  minMaxOp x s false

/-- FMAX (R142). -/
def execFmax (x : FmtR) (s : State) : Result :=
  minMaxOp x s true

/-- FCMP of two FP32 values (R143). Its result is a predicate, for which R125 names no TY: its record carries TY 0, the format
of its operands (DESIGN CHOICE, log entry 36). -/
def execFcmp (x : FmtC0) (s : State) : Result :=
  runPure (lrWord x.g none [x.a.toNat, x.b.toNat] []) s fun c f =>
    let a := codeVal 0 (readReg c.p f x.a.toNat).toNat
    let b := codeVal 0 (readReg c.p f x.b.toNat).toNat
    (f.setPred x.pd.toNat (fcond x.cond.toNat a b), snanFlags [a, b])

/-- The class word of a code of FP32, FP16 or BF16 (R144). -/
def classWord (ty code : Nat) : Nat :=
  match fpSpec ty with
  | none => 0
  | some f =>
    let sub (n : Bool) (e : Nat) : Nat := if e = 0 then (if n then 2 else 5) else (if n then 1 else 6)
    match codeVal ty code with
    | .inf n => if n then 2 ^ 0 else 2 ^ 7
    | .zero n => if n then 2 ^ 3 else 2 ^ 4
    | .fin n _ _ => 2 ^ sub n (field code f.mb f.eb)
    | .nan _ (some m) => if bit m 22 then 2 ^ 9 + (if bit m 21 then 2 ^ 10 else 0) else 2 ^ 8
    | .nan _ none => 2 ^ 9

/-- FCLASS (R144). -/
def execFclass (x : FmtU) (s : State) : Result :=
  runPure (lrWord x.g x.p [x.a.toNat] [x.d.toNat]) s fun c f =>
    let code := (readReg c.p f x.a.toNat).toNat % 2 ^ tyWidth (pTy x.p)
    (f.setV x.d.toNat (BitVec.ofNat 32 (classWord (pTy x.p) code)), 0, [])

/-- A code rounded to an integral value of its own format, never inexact (R145). -/
def frndCode (c : RndCtx) (ty code : Nat) : NumRes :=
  match codeVal ty code with
  | .fin n m e =>
    let y := (roundInt c n m e).1
    let r := roundVal c ty (if y = 0 then .zero n else .ofInt y)
    ⟨r.code, 0, []⟩
  | v => roundVal c ty v

/-- FRND (R145). -/
def execFrnd (x : FmtU) (s : State) : Result :=
  let ty := pTy x.p
  runPure (lrWord x.g x.p (withSeed x.p [x.a.toNat]) [x.d.toNat] ty) s fun c f =>
    let r := frndCode (laneRnd c x.p f 0) ty ((readReg c.p f x.a.toNat).toNat % 2 ^ tyWidth ty)
    (f.setV x.d.toNat (BitVec.ofNat 32 r.code), r.flg, r.causes)

end Sys2Proof.Machine
end

