-- ==== Sys2Proof/Machine/Homes.lean ====
section
/-! DEFINITION. What the home of a line performs: acquires, releases, plain accesses of lines that no L1 holds, atomics,
lattice joins and loads, path-digest appends; and the answers that it sends (R204, R222, R228 to R240, R264 to R270, R285 to
R288, R365, R399, R459). -/

namespace Sys2Proof.Machine

/-! ### Atomics (R265, R266) -/

/-- The access size of an atomic's type (R265). -/
def atomSize (ty : Nat) : Nat :=
  if ty = 22 then 8 else 4

/-- The new value of an atomic: op 0 ADD, 1 MIN, 2 MAX, 3 AND, 4 OR, 5 XOR, 6 EXCH, 7 CAS, 8 INC (R68, R266). -/
def atomNew (pc fid op ty old d c : Nat) : NumRes :=
  let w := 8 * atomSize ty
  let rc : RndCtx := ⟨0, 0, fid, 0, pc, false⟩
  let fl (f : Nat → Nat → Nat → NumRes) : NumRes :=
    if ty = 25 then
      let r0 := f 2 (old % 2 ^ 16) (d % 2 ^ 16)
      let r1 := f 2 (old / 2 ^ 16) (d / 2 ^ 16)
      ⟨r0.code + 2 ^ 16 * r1.code, r0.flg ||| r1.flg, dedup (r0.causes ++ r1.causes)⟩
    else f 0 old d
  let isF := ty == 0 || ty == 25
  match op with
  | 0 =>
    if isF then fl fun t a b => roundRes rc t [codeVal t a, codeVal t b] (Val.add 0 (codeVal t a) (codeVal t b))
    else ⟨(old + d) % 2 ^ w, 0, []⟩
  | 1 =>
    if isF then fl fun t a b => minMaxCode pc fid t false a b
    else if ty = 21 then ⟨if signedOf 32 d < signedOf 32 old then d else old, 0, []⟩ else ⟨min old d, 0, []⟩
  | 2 =>
    if isF then fl fun t a b => minMaxCode pc fid t true a b
    else if ty = 21 then ⟨if signedOf 32 old < signedOf 32 d then d else old, 0, []⟩ else ⟨max old d, 0, []⟩
  | 3 => ⟨old &&& d, 0, []⟩
  | 4 => ⟨old ||| d, 0, []⟩
  | 5 => ⟨old ^^^ d, 0, []⟩
  | 6 => ⟨d, 0, []⟩
  | 7 => ⟨if old = c then d else old, 0, []⟩
  | _ => ⟨if d ≤ old then 0 else old + 1, 0, []⟩

/-- Whether a RED.ADD's type is the range's (R237). -/
def rangeMatches (crty ty : Nat) : Bool :=
  match crty with
  | 1 => ty == 20
  | 2 => ty == 21
  | 3 => ty == 22
  | 4 => ty == 0
  | 5 => ty == 25
  | _ => false

/-- The port's fault on an atomic by the object and page: LATNM on lattices, ATOMT on ranges and by the ops that an UNCACHED
host page takes (R252, R268, R269). -/
def atomFault (h : PortHit) (op ty : Nat) : Option FaultCode :=
  if h.entry.lattice then some .latnm
  else if h.entry.crty ≠ 0 then some .atomt
  else if h.isHost && h.desc.home == 1 && (ty == 0 || ty == 25 || !(op == 0 || op == 6 || op == 7)) then some .atomt
  else none

/-! ### Lattice values (R280) -/

/-- The cell size of a lattice type. -/
def latSize (ty : Nat) : Nat :=
  match ty with
  | 1 => 4
  | 3 => 4
  | 8 => 4
  | 6 => 32
  | 7 => 16
  | _ => 8

/-- The register words of a lattice type's value (R284). -/
def latRegs (ty : Nat) : Nat :=
  match ty with
  | 1 => 1
  | 3 => 1
  | 8 => 1
  | 7 => 4
  | _ => 2

/-- totalOrder of FP32 codes as a rising number. -/
def fmaxKey (a : Nat) : Nat :=
  if a < 2 ^ 31 then 2 ^ 31 + a else 2 ^ 32 - 1 - a

/-- Field i of w bits of a cell. -/
def cellPart (v w i : Nat) : Nat :=
  field v (w * i) w

/-- a below or equal b in a lattice type's order. -/
def latLe (ty a b : Nat) : Bool :=
  match ty with
  | 3 => decide (b ≤ a)
  | 4 => a &&& b == a
  | 6 => (List.range 4).all fun i => decide (cellPart a 64 i ≤ cellPart b 64 i)
  | 7 => (List.range 4).all fun i => decide (cellPart a 32 i ≤ cellPart b 32 i)
  | 8 => decide (fmaxKey a ≤ fmaxKey b)
  | _ => decide (a ≤ b)

/-- The join of two cells of a lattice type. -/
def latJoin (ty a b : Nat) : Nat :=
  match ty with
  | 3 => min a b
  | 4 => a ||| b
  | 6 => (List.range 4).foldl (fun n i => n + max (cellPart a 64 i) (cellPart b 64 i) * 2 ^ (64 * i)) 0
  | 7 => (List.range 4).foldl (fun n i => n + max (cellPart a 32 i) (cellPart b 32 i) * 2 ^ (32 * i)) 0
  | 8 => if fmaxKey a ≤ fmaxKey b then b else a
  | _ => max a b

/-- The cell after an LJOIN on a die: the join, or for GCNT the die's slot raised by the operand, saturating (R285). -/
def latApply (ty die old x : Nat) : Nat :=
  if ty = 6 then
    let slot := cellPart old 64 die
    old - slot * 2 ^ (64 * die) + min (slot + x) (2 ^ 64 - 1) * 2 ^ (64 * die)
  else latJoin ty old x

/-- The exact sum of a GCNT cell's slots. -/
def gcntSum (v : Nat) : Nat :=
  (List.range 4).foldl (fun n i => n + cellPart v 64 i) 0

/-- The value that LDLAT returns of a cell (R280). -/
def latValue (ty v : Nat) : Nat :=
  if ty = 6 then min (gcntSum v) (2 ^ 64 - 1) else v

/-- Whether a cell has passed a threshold (R286). -/
def latPassed (ty thr v : Nat) : Bool :=
  if ty = 6 then decide (thr ≤ gcntSum v) else latLe ty thr v

/-- The lattice type of an object: a layer table is MAX64 whatever its entry says (R281). -/
def Entry.latType (e : Entry) : Nat :=
  if e.kind = 3 then 2 else e.ltype

/-- Sets a line's changed bits for the other dies; under EAGER the line joins the die's push queue of 64 (R290, R291). -/
def State.markChanged (s : State) (die : Nat) (e : Entry) (r : LineRef) (eager : Bool) : State :=
  s.modDie die fun d =>
    let bits := ([0, 1, 2, 3].filter (· != die)).map fun t => (r, t)
    let changed := d.changed ++ bits.filter fun b => !d.changed.contains b
    let push := if eager && e.sched == 2 && decide (d.pushq.length < 64) && !d.pushq.contains r then d.pushq ++ [r] else d.pushq
    { d with changed := changed, pushq := push }

/-! ### Requests -/

/-- The line that an access reaches, a lattice line on the requester's die (R282). -/
def HomeReq.ref (q : HomeReq) (h : PortHit) : LineRef :=
  ⟨q.ctx, q.obj, q.off / 128, if h.entry.lattice then dieOf q.core + 1 else 0⟩

/-- The rights that an access needs. -/
def HomeOp.need : HomeOp → Nat
  | .acquireLoad _ _ => rightR
  | .releaseStore _ _ => rightW
  | .load _ _ _ => rightR
  | .own _ => rightW
  | .store _ => rightW
  | .capLoad _ => rightR + rightC
  | .capStore _ => rightW + rightC
  | .atom _ _ _ _ (some _) => rightR + rightW + rightA
  | .atom _ _ _ _ none => rightW + rightA
  | .join _ _ _ => rightJ
  | .latLoad _ _ _ _ => rightR
  | .pdlog _ _ => rightA

/-- The kind of access for a fault record (R419). -/
def HomeOp.acc : HomeOp → Nat
  | .acquireLoad _ _ => 1
  | .load _ _ _ => 1
  | .capLoad _ => 1
  | .latLoad _ _ _ _ => 1
  | .releaseStore _ _ => 2
  | .store _ => 2
  | .capStore _ => 2
  | .own _ => 6
  | _ => 3

/-- Whether an access answers a register (loads class) or a store's count. -/
def HomeOp.isLoad : HomeOp → Bool
  | .acquireLoad _ _ => true
  | .load _ _ _ => true
  | .capLoad _ => true
  | .latLoad _ _ _ _ => true
  | .atom _ _ _ _ d => d.isSome
  | _ => false

/-- The bytes that an access covers at its place; of a path-digest append, the header's (R365). -/
def HomeOp.size : HomeOp → Nat
  | .acquireLoad n _ => n
  | .releaseStore bs _ => bs.length
  | .load n _ _ => n
  | .own _ => 128
  | .store bs => bs.length
  | .capLoad _ => 16
  | .capStore _ => 16
  | .atom _ ty _ _ _ => atomSize ty
  | .join ty _ _ => latSize ty
  | .latLoad ty _ _ _ => latSize ty
  | .pdlog _ _ => 32

/-- Whether the members of one issue join their accesses of a line in one request (R205, R288). -/
def HomeOp.joins : HomeOp → Bool
  | .acquireLoad _ _ => true
  | .releaseStore _ _ => true
  | .load _ _ _ => true
  | .store _ => true
  | .atom _ _ _ _ _ => true
  | .join _ _ _ => true
  | .latLoad _ _ _ _ => true
  | _ => false

/-- Whether an access is an acquire (R229, R294). -/
def HomeOp.acquires : HomeOp → Bool
  | .acquireLoad _ _ => true
  | .latLoad _ acq _ _ => acq
  | _ => false

/-- Whether an access is a release that its home records, or one that it performs after its core's flush (R228, R230, R293). -/
def HomeOp.releases : HomeOp → Bool
  | .releaseStore _ _ => true
  | .join _ _ epoch => epoch.isSome
  | _ => false

/-- Whether an access stores bytes. -/
def HomeOp.stores : HomeOp → Bool
  | .releaseStore _ _ => true
  | .store _ => true
  | .capStore _ => true
  | _ => false

/-- Whether an access is an atomic on floating-point values, which may write exception records (R266). -/
def HomeOp.floatAtom : HomeOp → Bool
  | .atom _ ty _ _ _ => ty == 0 || ty == 25
  | _ => false

/-- The type of an atomic for its exception records (R125): a BF16 pair's elements are BF16. -/
def HomeOp.ty : HomeOp → Nat
  | .atom _ ty _ _ _ => if ty = 25 then 2 else ty
  | _ => 0

/-- The port's check of an access on its way to the home (R399); a lattice instruction meets a lattice object's reserved LTYPE as LATTY (R285, log
entry 39). -/
def State.portOf (s : State) (q : HomeReq) : Except FaultCode PortHit :=
  let lat := match q.op with
    | .join _ _ _ => true
    | .latLoad _ _ _ _ => true
    | _ => false
  let odd := match s.ctx? q.ctx with
    | some c => q.obj != 0 && decide (q.obj < c.otne.toNat) && reservedLtype (s.read0 c (64 * q.obj) 64)
    | none => false
  if lat && odd then .error .latty
  else
    match s.port (dieOf q.core) q.ctx q.system q.cap.kind q.obj q.op.need q.off with
    | .error e => .error e
    | .ok h =>
      match q.op with
      | .join ty _ _ => if h.entry.latType ≠ ty then .error .latty else .ok h
      | .latLoad ty _ _ _ => if h.entry.latType ≠ ty then .error .latty else .ok h
      | _ => .ok h

/-- Where a request's line lies, whatever the port's checks say. -/
def Request.hit? (g : Request) (s : State) : Option PortHit :=
  match g.parts with
  | q :: _ => s.place? (dieOf q.core) q.ctx q.obj q.off
  | [] => none

/-- The core that sends a request. -/
def Request.core (g : Request) : Nat :=
  match g.parts with
  | q :: _ => q.core
  | [] => 0

/-- The line of a request. -/
def Request.ref (g : Request) (s : State) : Option LineRef :=
  match g.parts, g.hit? s with
  | q :: _, some h => some (q.ref h)
  | _, _ => none

/-- The format of a commutative range, 0 of an object that is none (R395). -/
def State.crtyOf (s : State) (ctx obj : Nat) : Nat :=
  match (s.ctx? ctx).bind fun c => s.entry? c obj with
  | some e => e.crty
  | none => 0

/-- Whether an access may write exception records: a floating-point atomic, or a store to a floating-point commutative range (R126, R240, R266). -/
def State.owesLog (s : State) (q : HomeReq) : Bool :=
  q.op.floatAtom || (q.op.stores && decide (4 ≤ s.crtyOf q.ctx q.obj))

/-- The type of the exception records of an access (R125). -/
def State.logTy (s : State) (q : HomeReq) : Nat :=
  if q.op.floatAtom then q.op.ty else rangeTy (s.crtyOf q.ctx q.obj)

/-- The log records that issues owe with one more access in them, counted with its issue's (R126, R240, R266). -/
def State.logsWith (s : State) (q : HomeReq) : List IssueLog :=
  if !s.owesLog q then s.issueLogs
  else if s.issueLogs.any fun l => l.issue == s.nextIssue then
    s.issueLogs.map fun l => if l.issue = s.nextIssue then { l with left := l.left ++ [q.fid % 1024] } else l
  else s.issueLogs ++ [{ issue := s.nextIssue, pid := q.pid, pc := q.pc, ty := s.logTy q, left := [q.fid % 1024], causes := [] }]

/-- Whether a member's access goes in a request that waits: its issue's, of the same line (R205). -/
def State.joinsRequest (s : State) (q : HomeReq) (g : Request) : Bool :=
  q.op.joins && !g.draining && g.issue == s.nextIssue &&
    match g.parts with
    | r :: _ => r.op.joins && r.ctx == q.ctx && r.obj == q.obj && r.off / 128 == q.off / 128
    | [] => false

/-- The requests with a member's access: in the request that its issue has made to the line, or as a request of its own (R205, R232). -/
def State.queueWith (s : State) (q : HomeReq) : List Request :=
  if s.homeQ.any (s.joinsRequest q) then
    s.homeQ.map fun g => if s.joinsRequest q g then { g with parts := g.parts ++ [q] } else g
  else s.homeQ ++ [{ parts := [q], issue := s.nextIssue, at_ := s.now, backoff := 0, draining := false }]

/-- Sends a member's access to its home (R205, R232). -/
def State.send (s : State) (q : HomeReq) : State :=
  { s with issueLogs := s.logsWith q, homeQ := s.queueWith q }

/-- Sends an access that belongs to no issue: that of a parked member whose test has passed (R287). -/
def State.sendAlone (s : State) (q : HomeReq) : State :=
  { s with homeQ := s.homeQ ++ [{ parts := [q], issue := s.nextIssue, at_ := s.now, backoff := 0, draining := false }] }

/-- An access of an issue has been performed or refused, with its exception causes; the issue's last one writes its records: one for
each cause, with the members that raised it (R126, R240, R266). -/
def State.closeLog (s : State) (issue fid : Nat) (causes : List Nat) : State :=
  match s.issueLogs.find? fun l => l.issue == issue && l.left.contains (fid % 1024) with
  | none => s
  | some l =>
    let l := { l with left := l.left.filter (· != fid % 1024), causes := l.causes ++ [(fid % 1024, causes)] }
    if l.left.isEmpty then
      let t := { s with issueLogs := s.issueLogs.filter fun m => m.issue != issue }
      match t.plot? l.pid with
      | some p => t.logIssue p l.pc.toNat 0 l.ty l.causes
      | none => t
    else { s with issueLogs := s.issueLogs.map fun m => if m.issue = issue then l else m }

/-! ### The home's service -/

/-- An engine's request for ownership is refused (R302, R306). -/
def State.refuseEngine (s : State) (q : HomeReq) (order : Nat) (code : FaultCode) : State :=
  s.modCore q.core fun k => { k with wainRun := k.wainRun.map fun w =>
    if w.cmd.order = order then w.refused (q.off / 128) (w.cmd.writeFault code q.obj q.off) else w }

/-- The home refuses an access: the fault goes back to the member (R253). -/
def State.refuse (s : State) (q : HomeReq) (code : FaultCode) : State :=
  let r := FaultRec.late code q.pc q.obj q.off q.op.acc 2
  match q.op with
  | .own order => s.refuseEngine q order code
  | _ => if q.op.isLoad then s.giveLoad q.pid (.fault q.fid r) else s.giveStore q.pid (.fault q.fid true r)

/-- The core's own copy of bytes that the home has performed: the value updated, the bytes no longer dirty (R223, R228). -/
def State.ownUpdate (s : State) (core ctx obj off : Nat) (bs : List Byte) : State :=
  s.modCore core fun c =>
    match c.line? ctx obj (off / 128) 0 none with
    | none => c
    | some l =>
      let offs := (List.range bs.length).map (· + off % 128)
      let held := (offs.zip bs).filter fun q => (l.byte? q.1).isSome
      let l' := held.foldl (fun m q => { m with bytes := assocSet m.bytes q.1 q.2 }) l
      let gs := granules (off % 128) bs.length
      c.setLine { l' with written := l'.written.filter (fun o => !offs.contains o), tags := without l'.tags gs }

/-- Whether a release to a line is eager by its records: eight other cores stand there, or its set has no room for a line with records (R230, log
entry 17). -/
def State.eagerByRecords (s : State) (r : LineRef) (core : Nat) : Bool :=
  decide (8 ≤ (s.relRecs.filter fun q => q.1 == r && q.2.1 != core).length) || s.recordsFull r

/-- A release's record at the home: a newer pair from the same core replaces the older one; a ninth core is not recorded (R228). -/
def State.recordRelease (s : State) (r : LineRef) (core epoch : Nat) : State :=
  if s.eagerByRecords r core then s
  else { s with relRecs := (s.relRecs.filter fun q => !(q.1 == r && q.2.1 == core)) ++ [(r, core, epoch)] }

/-- A lazy release that finds eight other cores recorded at its home, since their releases arrived before it, is eager: its core writes
everything back first (R228, R230). -/
def State.releaseFirst (s : State) (r : LineRef) (core : Nat) (epoch : Option Nat) : State :=
  if epoch.isSome && s.eagerByRecords r core then s.flushCore core else s

/-- An atomic performed on bytes that are ready at their place: the new value, flags and causes, the old value's answer (R266). -/
def State.atomAnswer (s : State) (q : HomeReq) (issue old op ty d c : Nat) (dst : Option Nat) : State × Nat :=
  let r := atomNew q.pc.toNat (q.fid % 1024) op ty old d c
  let t := (s.setFlags q.pid r.flg).closeLog issue q.fid r.causes
  let t := match dst with
    | some n => t.giveLoad q.pid (.regs q.fid n (wordsOf (atomSize ty) old))
    | none => t.giveStore q.pid (.done q.fid)
  (t, r.code)

/-- An atomic that meets poison: POISON to the member that reads, a contained error otherwise (R459). -/
def State.atomPoison (s : State) (q : HomeReq) (issue : Nat) (dst : Option Nat) : State :=
  let t := s.closeLog issue q.fid []
  if dst.isSome then t.refuse q .poison
  else (t.logError (dieOf q.core) 16 1 (q.core % 32) (some q.ctx) q.obj (q.off - q.off % 128)).giveStore q.pid (.done q.fid)

/-- The core of a near atomic takes ownership of the line, if it does not own it (R235, R236, R270). -/
def State.takeOwnership (s : State) (q : HomeReq) (h : PortHit) : State :=
  let r := q.ref h
  if s.owns q.core r then s
  else
    let t := ((s.ownBack q.core r).homeReady r (some q.core)).touchL2 r h false
    let (bs, tags, poison) := t.homeLine (h.addr - h.addr % 128)
    let t := t.modCore q.core fun k =>
      k.setLine { ctx := q.ctx, obj := q.obj, line := q.off / 128, kind := .owned, bytes := bs, written := [], tags := tags,
                  poison := poison, errs := [], epoch := 0, tent := none, sums := [], capKind := q.cap.kind, system := q.system,
                  need := q.op.need }
    { t with owners := t.owners ++ [(r, q.core)] }

/-- An atomic in the L1 of the core that owns the line (R266, R270). -/
def State.nearAtom (s : State) (q : HomeReq) (issue op ty d c : Nat) (dst : Option Nat) : State :=
  match (s.core q.core).line? q.ctx q.obj (q.off / 128) 0 none with
  | none => s
  | some l =>
    let o := q.off % 128
    let n := atomSize ty
    if (granules o n).any l.bad then s.atomPoison q issue dst
    else
      let old := leNat (((List.range n).map fun i => (l.byte? (o + i)).getD 0))
      let (t, v) := s.atomAnswer q issue old op ty d c dst
      t.modCore q.core fun k => k.setLine { l.put o (leBytes n v) with need := l.need ||| q.op.need }

/-- An atomic at the home (R266). -/
def State.farAtom (s : State) (q : HomeReq) (h : PortHit) (issue op ty d c : Nat) (dst : Option Nat) : State :=
  let n := atomSize ty
  if s.poisoned h.addr n then s.atomPoison q issue dst
  else
    let old := s.loadNat h.addr n
    let (t, v) := s.atomAnswer q issue old op ty d c dst
    let bs := leBytes n v
    (t.homeStore q.ctx q.obj q.off h.addr bs).ownUpdate q.core q.ctx q.obj q.off bs

/-- What an atomic trains: its core's counter rises where the line is still Owned from the core's previous atomic; the answer of a far
atomic lowers it where another core has performed one since (R236). -/
def State.trainAtom (s : State) (q : HomeReq) (h : PortHit) (near : Bool) : State :=
  let r := q.ref h
  let i := predIndex q.obj (q.off / 128)
  if !h.cacheable || h.isHost then s
  else
    let other := match assoc s.atomLast r with
      | some k => k != q.core
      | none => false
    let t := if s.owns q.core r then s.modCore q.core fun k => k.predUp i
      else if !near && other then s.modCore q.core fun k => k.predDown i
      else s
    { t with atomLast := assocSet t.atomLast r q.core }

/-- Whether an atomic on a line executes near: a CACHED or SLICE device line whose counter stands at 2 or 3 (R236, R270). -/
def State.nearLine (s : State) (q : HomeReq) (h : PortHit) : Bool :=
  h.cacheable && !h.isHost && decide (2 ≤ (s.core q.core).pred (predIndex q.obj (q.off / 128)))

/-- The atomics of one request, as one run in ascending lane order: near, far, or sent to the host one by one (R267, R269, R270). Those that
the port refuses take no part. -/
def State.serveAtoms (s : State) (g : Request) : State :=
  let fate (q : HomeReq) : Except FaultCode PortHit :=
    match s.portOf q, q.op with
    | .ok h, .atom op ty _ _ _ =>
      match atomFault h op ty with
      | some e => .error e
      | none => .ok h
    | r, _ => r
  let s := g.parts.foldl (fun t q =>
    match fate q with
    | .error e => (t.closeLog g.issue q.fid []).refuse q e
    | .ok _ => t) s
  let run := g.parts.filterMap fun q =>
    match fate q with
    | .error _ => none
    | .ok h => some (q, h)
  match run with
  | [] => s
  | (q, h) :: _ =>
    if h.isHost && h.desc.home == 1 then { s with hostAtomics := s.hostAtomics ++ [⟨run.map (·.1), g.issue⟩] }
    else
      let near := s.nearLine q h
      let s := s.trainAtom q h near
      let r := q.ref h
      let s := if near then s.takeOwnership q h else ((s.ownBack q.core r).homeReady r (some q.core)).touchL2 r h true
      run.foldl (fun t z =>
        match z.1.op with
        | .atom op ty d c dst => if near then t.nearAtom z.1 g.issue op ty d c dst else t.farAtom z.1 z.2 g.issue op ty d c dst
        | _ => t) s

/-- Appends a path-digest record at the home of the header line (R365). -/
def State.appendLog (s : State) (q : HomeReq) (h : PortHit) (lim rec_ : Nat) : State :=
  let s := (s.homeReady (q.ref h) (some q.core)).touchL2 (q.ref h) h true
  if s.poisoned h.addr 32 then s.refuse q .poison
  else
    let n := s.loadNat h.addr 8
    let capn := s.loadNat (h.addr + 16) 4
    if n < capn ∧ 64 + 16 * (n + 1) ≤ lim then
      let off := q.off + 64 + 16 * n
      match s.port (dieOf q.core) q.ctx q.system q.cap.kind q.obj rightA off with
      | .error e => s.refuse { q with off := off } e
      | .ok h' =>
        let r : LineRef := ⟨q.ctx, q.obj, off / 128, 0⟩
        let t := ((s.homeReady r (some q.core)).touchL2 r h' true).homeStore q.ctx q.obj off h'.addr (leBytes 16 rec_)
        (t.homeStore q.ctx q.obj q.off h.addr (leBytes 8 (n + 1))).giveStore q.pid (.done q.fid)
    else (s.homeStore q.ctx q.obj (q.off + 8) (h.addr + 8) (leBytes 8 (s.loadNat (h.addr + 8) 8 + 1))).giveStore q.pid (.done q.fid)

/-- The line of an access is ready at its home for a read: the core's own dirty bytes are there, Owned copies recalled, a range gathered (R209,
R223, R240). -/
def State.readyRead (s : State) (q : HomeReq) (h : PortHit) : State :=
  let r := q.ref h
  let t := ((s.ownBack q.core r).homeReady r (some q.core)).touchL2 r h false
  if h.entry.crty ≠ 0 then t.gather r else t

/-- The bytes that a read at the home finds, a range's read values with their flags (R238, R240). -/
def State.readAt (s : State) (q : HomeReq) (h : PortHit) (n : Nat) : List Byte × Flg :=
  if h.entry.crty ≠ 0 then s.rangeLoad h.entry q.ctx q.obj q.off n q.pc.toNat (q.fid % 1024) else (s.load h.addr n, 0)

/-- Performs an acquire's load at the home once its drains are in: the load, then the core's invalidation (R229); the plot's own tentative
bytes are its latest writes (R223). -/
def State.performAcquire (s : State) (q : HomeReq) (size dst : Nat) : State :=
  match s.portOf q with
  | .error e => s.refuse q e
  | .ok h =>
    let s := s.readyRead q h
    if s.poisoned h.addr size then (s.afterRead h size).refuse q .poison
    else
      let (bs, f) := s.readAt q h size
      let bs := s.overTentative q.core q.pid q.ctx q.obj q.off bs
      ((s.setFlags q.pid f).invalidate q.core).giveLoad q.pid (.regs q.fid dst (wordsOf size (leNat bs)))

/-- Answers an LDLAT with the cell that its test has found, after the drains where it acquires (R286, R294). -/
def State.performLat (s : State) (q : HomeReq) (ty : Nat) (acq : Bool) (dst v : Nat) : State :=
  let v := latValue ty v
  let t := if acq then s.invalidate q.core else s
  t.giveLoad q.pid (.regs q.fid dst ((List.range (latRegs ty)).map fun i => BitVec.ofNat 32 (v / 2 ^ (32 * i))))

/-- Whether a write may be performed on the line: a lattice refuses it with LATNM, an X line with CAPR (R247, R252). -/
def State.writeFault (s : State) (ctx obj off : Nat) (h : PortHit) : Option FaultCode :=
  if h.entry.lattice then some .latnm
  else if s.lineIsX ctx obj off h then some .capr
  else none

/-- A store performed at the home by a member: any Owned copy recalled, a range gathered, the bytes written, the core's own copy
updated; the causes of a range's conversions are its issue's (R126, R203, R223, R240). -/
def State.homePut (s : State) (issue : Nat) (q : HomeReq) (h : PortHit) (bs : List Byte) : State :=
  let r := q.ref h
  let s := ((s.deliver q.core fun l => l.ref == r).homeReady r (some q.core)).touchL2 r h true
  if h.entry.crty ≠ 0 then
    let (t, f, cs) := (s.gather r).rangeStore h.entry q.ctx q.obj q.off h.addr bs
    (t.setFlags q.pid f).closeLog issue q.fid cs
  else (s.homeStore q.ctx q.obj q.off h.addr bs).ownUpdate q.core q.ctx q.obj q.off bs

/-- Whether a later store of a request covers a byte. The stores of one request write each byte once, with the highest lane's value
(R206), so bytes that a later member covers are left to that member. -/
def laterBytes (rest : List HomeReq) (o : Nat) : Bool :=
  rest.any fun q =>
    match q.op with
    | .store bs => decide (q.off ≤ o ∧ o < q.off + bs.length)
    | .releaseStore bs _ => decide (q.off ≤ o ∧ o < q.off + bs.length)
    | _ => false

/-- The runs of bytes of a store that no later member of its request covers, by offset. -/
def freeRuns (rest : List HomeReq) (off : Nat) (bs : List Byte) : List (Nat × List Byte) :=
  runsOf ((((List.range bs.length).map (· + off)).zip bs).filter fun z => !laterBytes rest z.1)

/-- A store of a request, less the bytes of later members. -/
def State.putFree (s : State) (issue : Nat) (rest : List HomeReq) (q : HomeReq) (h : PortHit) (bs : List Byte) : State :=
  if h.entry.crty ≠ 0 then (if (freeRuns rest q.off bs).isEmpty then s else s.homePut issue q h bs)
  else (freeRuns rest q.off bs).foldl (fun t z => t.homePut issue { q with off := z.1 } { h with addr := h.addr + (z.1 - q.off) } z.2) s

/-- Starts the drains of a line's records that no running drain covers: one to each recorded core with its epoch (R229, R232). -/
def State.startDrains (s : State) (r : LineRef) : State :=
  let due := s.relRecs.filter fun q => q.1 == r && !(s.drains.any fun d => d.line == r && d.core == q.2.1 && d.epoch == q.2.2)
  { s with drains := s.drains ++ due.map fun q => ⟨q.2.1, r, q.2.2, false⟩ }

/-- A lattice load takes the cell that its test finds, the line not yet drained (R286, R294). -/
def HomeReq.tested (q : HomeReq) (s : State) : HomeReq :=
  match q.op, s.portOf q with
  | .latLoad ty acq dst none, .ok h =>
    if s.poisoned h.addr (latSize ty) then q else { q with op := .latLoad ty acq dst (some (s.loadNat h.addr (latSize ty))) }
  | _, _ => q

/-- A request waits for the drains of its line; lattice loads have found their cells (R229, R232, R294). -/
def State.waitDrains (s : State) (r : LineRef) (g : Request) : State :=
  let t := s.startDrains r
  { t with homeQ := t.homeQ ++ [{ g with parts := g.parts.map (·.tested s), draining := true }] }

/-- The engine of a core becomes the owner of a line, if its command still wants it: the core's own copy is written back and invalidated, Owned
copies are recalled (R243). -/
def State.grantEngine (s : State) (q : HomeReq) (h : PortHit) (order : Nat) : State :=
  let r := q.ref h
  if !((s.core q.core).wainRun.any fun w => w.cmd.order == order && w.want.contains r) then s
  else
    let t := ((s.ownBack q.core r).homeReady r (some q.core)).touchL2 r h true
    let t := t.modCore q.core fun k =>
      { k with
        lines := k.lines.filter fun l => !(l.ref == r && l.kind.cls == 0 && l.tent.isNone)
        wainRun := k.wainRun.map fun w => if w.cmd.order = order then { w with want := w.want.filter (· != r) } else w }
    { t with engineOwned := t.engineOwned ++ [(r, q.core, order)] }

/-- One access of a request that waits for nothing; rest holds the later accesses of the request. A capability that a commutative range would alter
leaves no tag (R240, R388). -/
def State.servePart (s : State) (issue : Nat) (rest : List HomeReq) (q : HomeReq) : State :=
  let no (e : FaultCode) : State := (s.closeLog issue q.fid []).refuse q e
  match s.portOf q with
  | .error e => no e
  | .ok h =>
    let r := q.ref h
    match q.op with
    | .acquireLoad size dst => s.performAcquire q size dst
    | .releaseStore bs epoch =>
      match s.writeFault q.ctx q.obj q.off h with
      | some e => no e
      | none =>
        let t := (s.releaseFirst r q.core epoch).putFree issue rest q h bs
        let t := match epoch with
          | some e => t.recordRelease r q.core e
          | none => t
        (t.closeLog issue q.fid []).giveStore q.pid (.done q.fid)
    | .load size sx dst =>
      let s := s.readyRead q h
      if s.poisoned h.addr size then (s.afterRead h size).refuse q .poison
      else
        let (bs, f) := s.readAt q h size
        (s.setFlags q.pid f).giveLoad q.pid (.regs q.fid dst (loadWords size sx (leNat bs)))
    | .own order =>
      match s.writeFault q.ctx q.obj q.off h with
      | some e => s.refuse q e
      | none => s.grantEngine q h order
    | .store bs =>
      match s.writeFault q.ctx q.obj q.off h with
      | some e => no e
      | none => ((s.putFree issue rest q h bs).closeLog issue q.fid []).giveStore q.pid (.done q.fid)
    | .capLoad dst =>
      let s := s.readyRead q h
      if s.poisoned h.addr 16 then (s.afterRead h 16).refuse q .poison
      else
        let (bs, f) := s.readAt q h 16
        (s.setFlags q.pid f).giveLoad q.pid (.cap q.fid dst ⟨BitVec.ofNat 128 (leNat bs), s.tagAt h.addr⟩)
    | .capStore c =>
      match s.writeFault q.ctx q.obj q.off h with
      | some e => no e
      | none =>
        if c.tag && !rightsWithin rightG c.rights && !h.isCore then no .capr
        else
          let t := (s.homePut issue q h (leBytes 16 c.bits.toNat)).closeLog issue q.fid []
          (if c.tag && t.loadNat h.addr 16 == c.bits.toNat then t.setTag h.addr true else t).giveStore q.pid (.done q.fid)
    | .atom _ _ _ _ _ => s
    | .latLoad ty acq dst cell =>
      match cell with
      | some v => s.performLat q ty acq dst v
      | none =>
        if s.poisoned h.addr (latSize ty) then s.refuse q .poison
        else s.performLat q ty acq dst (s.loadNat h.addr (latSize ty))
    | .join ty x epoch =>
      if s.poisoned h.addr (latSize ty) then s.refuse q .poison
      else
        let s := s.releaseFirst r q.core epoch
        let new := latApply ty (dieOf q.core) (s.loadNat h.addr (latSize ty)) x
        let t := (s.storeNat h.addr (latSize ty) new).touchL2 r h true
        let t := t.ownUpdate q.core q.ctx q.obj q.off (leBytes (latSize ty) new)
        let t := t.markChanged (dieOf q.core) h.entry r true
        let t := match epoch with
          | some e => t.recordRelease r q.core e
          | none => t
        t.giveStore q.pid (.done q.fid)
    | .pdlog lim rec_ =>
      if h.isHost && h.desc.home == 1 then s.refuse q .atomt
      else
        match s.writeFault q.ctx q.obj q.off h with
        | some e => s.refuse q e
        | none => s.appendLog q h lim rec_

/-- The accesses of a request, one after another in ascending lane order. -/
def State.serveParts (s : State) (issue : Nat) (l : List HomeReq) : State :=
  match l with
  | [] => s
  | q :: rest => (s.servePart issue rest q).serveParts issue rest

/-- The line with release records on which a request acquires, if the port takes the access (R229, R294). -/
def Request.drainLine (g : Request) (s : State) : Option (LineRef × PortHit) :=
  firstSome (g.parts.map fun q =>
    match s.portOf q with
    | .ok h => if q.op.acquires && s.recorded (q.ref h) then some (q.ref h, h) else none
    | .error _ => none)

/-- Whether a request's accesses are atomics, which its home performs as one run (R267). -/
def Request.atomic (g : Request) : Bool :=
  g.parts.any fun q =>
    match q.op with
    | .atom _ _ _ _ _ => true
    | _ => false

/-- Serves one request at its home, all its accesses in one run (R206, R267, R288). An acquire whose line holds records waits in the queue,
draining, until the last acknowledgement (R229, R232). -/
def State.serve (s : State) (g : Request) : State :=
  if g.atomic then s.serveAtoms g
  else
    match g.drainLine s with
    | some (r, h) => (if h.entry.crty ≠ 0 then s.gather r else s).waitDrains r g
    | none => s.serveParts g.issue g.parts

/-- The last acknowledgement of a line's drain is in: the acquires that waited for it are performed (R229, R232). -/
def State.finishDrain (s : State) (r : LineRef) : State :=
  let due (g : Request) : Bool :=
    g.draining &&
      match g.ref s, g.parts with
      | some z, _ => z == r
      | none, q :: _ => q.ctx == r.ctx && q.obj == r.obj && q.off / 128 == r.line
      | none, [] => true
  let mine := s.homeQ.filter due
  let s := { s with homeQ := s.homeQ.filter fun g => !due g }
  mine.foldl (fun t g => t.serveParts g.issue g.parts) s

/-- Whether an earlier access of a fibre still has one of these bytes outstanding (R256), or is an acquire whose invalidation of the L1 is still to
come (R229, R294). -/
def State.bytesBusy (s : State) (pid fid obj off n : Nat) : Bool :=
  (s.accessesOf pid fid).any fun q => q.op.acquires || (q.obj == obj && decide (q.off < off + n ∧ off < q.off + q.op.size))

/-- Whether writes of a core to host lines are still on their way (R231). -/
def State.hostBusy (s : State) (core : Nat) : Bool :=
  ((s.homeQ ++ s.retries.map (·.1)).any fun g =>
    g.core == core && g.parts.any (fun q => !q.op.plainLoad) && (g.hit? s).any (·.isHost)) ||
    s.hostAtomics.any fun a => a.reqs.any fun q => q.core == core

/-- Whether a fibre's earlier loads have returned and its earlier stores are performed: the wait of R225. -/
def State.quiet (s : State) (pid fid : Nat) : Bool :=
  !(s.homeQ.any fun g => g.parts.any fun q => q.of pid fid) &&
  !(s.retries.any fun g => g.1.parts.any fun q => q.of pid fid) &&
  !(s.hostAtomics.any fun a => a.reqs.any fun q => q.of pid fid) &&
  !(s.publishes.any fun q => q.pid == pid && q.fid == fid) &&
  (match s.plot? pid with
    | none => true
    | some p =>
      !(p.pendLoads.any fun l => l.owner == fid) &&
      !(p.pendStores.any fun x =>
        match x with
        | .done f => f == fid
        | .fault f _ _ => f == fid))

end Sys2Proof.Machine
end

