-- ==== Sys2Proof/Machine/MemInstr.lean ====
section
/-! DEFINITION. Memory lane instructions: plain, acquire and release accesses, constant loads, scratchpad accesses, capability
loads and stores, prefetch, watches, fences, waits, publishing (R251 to R263, R271 to R278). -/

namespace Sys2Proof.Machine

/-! ### What every access shares -/

/-- The object and the line that a member's access touches, if Cap.check passes it (R205). -/
def touches (sel : BitVec 4) (off : Plot → Fibre → Nat) (n need align : Nat) (kinds : List Nat) (p : Plot) (f : Fibre) : Option (Nat × Nat) :=
  match (selCap p f sel.toNat).check (off p f) n need align kinds with
  | .ok (o, y) => some (o, y / 128)
  | .error _ => none

/-- A word of format LM as the issue sees it: the registers that it reads and writes, the register of its selector. -/
def lmWord (g : BitVec 3) (p : Option Pfx) (sel : BitVec 4) (codes : List Nat) (dst : List Nat := []) : LaneWord :=
  { guard := g.toNat, size := sizeOf p, codes := codes ++ selA sel, dst := dst, bs := selB sel }

/-- The fault of a Cap.check, with the object and byte that the register's fields name (R79, R419; log entry 8). -/
def capFault (c : IssueCtx) (cap : Cap) (off acc : Nat) (code : FaultCode) : Act :=
  .fault (.access code c.iss.pc cap.obj (cap.faultOff off code) acc)

/-- A request of a member to a home. -/
def IssueCtx.request (c : IssueCtx) (f : Fibre) (cap : Cap) (obj off : Nat) (op : HomeOp) : HomeReq :=
  { pid := c.p.pid, fid := f.fid, pc := c.iss.pc, core := c.p.core, ctx := c.p.ctx, system := c.p.system, cap := cap, obj := obj,
    off := off, op := op }

/-- The limit of a counter class (R254). -/
def counterFull (f : Fibre) (k : OpClass) : Bool :=
  match k with
  | .loads => decide (63 ≤ f.loads)
  | .stores => decide (63 ≤ f.stores)
  | .copies => decide (15 ≤ f.copies)
  | .engine => decide (15 ≤ f.engine)

/-- A member whose counter stands at its limit parks before the instruction takes effect for it (R255). -/
def counted (k : OpClass) (s : State) (f : Fibre) (go : State → Eff) : Eff :=
  if counterFull f k then .of s (.park f (.counter k)) else go s

/-- One more load outstanding. -/
def Fibre.moreLoads (f : Fibre) : Fibre :=
  { f with loads := f.loads + 1 }

/-- One more store outstanding. -/
def Fibre.moreStores (f : Fibre) : Fibre :=
  { f with stores := f.stores + 1 }

/-- A member's instruction does not begin before its own earlier accesses are done (R225). -/
def waitQuiet (c : IssueCtx) (s : State) (f : Fibre) (go : State → Eff) : Eff :=
  if s.quiet c.p.pid f.fid then go s else .of s (.again .quiet)

/-- An access does not begin before the member's earlier accesses of its bytes are done (R256). -/
def onBytes (c : IssueCtx) (s : State) (f : Fibre) (obj off n : Nat) (go : State → Eff) : Eff :=
  if s.bytesBusy c.p.pid f.fid obj off n then .of s (.again .bytes) else go s

/-- An instruction does not begin before the ways that it takes at once are open (R460). -/
def onWay (open_ : Bool) (s : State) (go : State → Eff) : Eff :=
  if open_ then go s else .of s (.again .way)

/-- Every kind of R387. -/
def allKinds : List Nat := [0, 1, 2, 3, 4, 5]

/-- A load of a global object: from the L1, from a fill, or at the home for a line that no L1 holds, by the access op (R202, R221, R238). give
makes the answer that is on its way. -/
def globalLoad (c : IssueCtx) (s : State) (f : Fibre) (cap : Cap) (obj off n need cls : Nat) (op : HomeOp)
    (give : List Byte → Bool → PendLoad) : Eff :=
  let w := c.who f
  let out (t : State) : Eff := .of t (.seq f.moreLoads)
  let fail (t : State) (e : FaultCode) : Eff := out (t.giveLoad w.pid (.fault f.fid (.late e w.pc obj off 1 2)))
  let answer (r : State × Except FaultCode (List Byte × Bool)) : Eff :=
    match r.2 with
    | .ok (bs, tag) => out (r.1.giveLoad w.pid (give bs tag))
    | .error e => fail r.1 e
  if (s.l1Bytes w obj off n cls).all Option.isSome then answer (s.l1Load w cap.kind obj off n need cls)
  else
    match s.port (dieOf w.core) w.ctx w.system cap.kind obj need off with
    | .error e => fail s e
    | .ok h =>
      if h.cacheable then
        onWay (s.lineOpen w.core ⟨w.ctx, obj, off / 128, 0⟩ h) s fun s => answer (s.l1Load w cap.kind obj off n need cls)
      else if cls = 1 && !h.entry.sealed then fail s .capr
      else out (s.send (c.request f cap obj off op))

/-- A plain load of n bytes of a global object (R257, R258, R260). -/
def loadGlobal (c : IssueCtx) (s : State) (f : Fibre) (cap : Cap) (obj off n : Nat) (sx : Bool) (dst cls : Nat) : Eff :=
  onBytes c s f obj off n fun s =>
    globalLoad c s f cap obj off n rightR cls (.load n sx dst) fun bs _ => .regs f.fid dst (loadWords n sx (leNat bs))

/-- Whether a core's L1 holds a line that takes stores without the port: Dirty-partial or Owned, or the plot's own tentative
line (R202, R427). -/
def State.holdsDirty (s : State) (w : Who) (obj line : Nat) : Bool :=
  ((s.core w.core).line? w.ctx obj line 0 (some w.pid)).isSome ||
    match (s.core w.core).line? w.ctx obj line 0 none with
    | some l => l.kind == LineKind.partialDirty || l.kind == LineKind.owned
    | none => false

/-- Whether a line is X at its place, whoever holds it (R247). -/
def State.isX (s : State) (w : Who) (obj off : Nat) : Bool :=
  match s.place? (dieOf w.core) w.ctx obj off with
  | some h => s.lineIsX w.ctx obj off h
  | none => false

/-- A store to a host line commits the region first (R428). -/
def State.commitHost (s : State) (w : Who) (obj off : Nat) : State :=
  match s.place? (dieOf w.core) w.ctx obj off with
  | some h => if h.isHost then s.commit w.pid else s
  | none => s

/-- A store to a global object: in the L1, or at the home for a line that no L1 holds, by the access op (R202, R247, R258, R262). The
acknowledgement is on its way. dirtyHit says whether a held dirty line takes it without the port; check refuses what the page may not
hold. -/
def globalStore (c : IssueCtx) (s : State) (f : Fibre) (cap : Cap) (obj off need : Nat) (bs : List Byte) (tag dirtyHit : Bool)
    (check : PortHit → Option FaultCode) (op : HomeOp) : State :=
  let w := c.who f
  let fail (e : FaultCode) : State := s.giveStore w.pid (.fault f.fid true (.late e w.pc obj off 2 2))
  if dirtyHit && s.holdsDirty w obj (off / 128) then
    if s.isX w obj off then fail .capr else ((s.commitHost w obj off).l1Store w cap.kind need obj off bs tag).giveStore w.pid (.done f.fid)
  else
    match s.port (dieOf w.core) w.ctx w.system cap.kind obj need off with
    | .error e => fail e
    | .ok h =>
      match (s.writeFault w.ctx obj off h).or (check h) with
      | some e => fail e
      | none =>
        if h.cacheable then
          (((if h.isHost then s.commit w.pid else s).l1Store w cap.kind need obj off bs tag)).giveStore w.pid (.done f.fid)
        else (s.commit w.pid).send (c.request f cap obj off op)

/-- A plain store to a global object (R258). -/
def storeGlobal (c : IssueCtx) (s : State) (f : Fibre) (cap : Cap) (obj off : Nat) (bs : List Byte) : Eff :=
  onBytes c s f obj off bs.length fun s =>
    .of (globalStore c s f cap obj off rightW bs false true (fun _ => none) (.store bs)) (.seq f.moreStores)

/-! ### LD and ST (R257, R258) -/

/-- LD of n bytes. -/
def ldOp (n : Nat) (sx : Bool) (x : FmtM) (s : State) : Result :=
  let at_ (p : Plot) (f : Fibre) : Nat := memOff p f x.a n (uimm x.p 3 x.imm.toNat)
  let word := lmWord x.g x.p x.sel [x.a.toNat] (codesFrom x.d.toNat ((n + 3) / 4))
  runLane { word with touch := touches x.sel at_ n rightR n allKinds } s fun c s f =>
    counted .loads s f fun s =>
      let cap := selCap c.p f x.sel.toNat
      match cap.check (at_ c.p f) n rightR n allKinds with
      | .error e => .of s (capFault c cap (at_ c.p f) 1 e)
      | .ok (o, y) => loadGlobal c s f cap o y n sx x.d.toNat 0

/-- ST of n bytes. -/
def stOp (n : Nat) (x : FmtM) (s : State) : Result :=
  let at_ (p : Plot) (f : Fibre) : Nat := memOff p f x.a n (uimm x.p 3 x.imm.toNat)
  let word := lmWord x.g x.p x.sel (x.a.toNat :: codesFrom x.d.toNat (max 1 (n / 4)))
  runLane { word with touch := touches x.sel at_ n rightW n allKinds } s fun c s f =>
    counted .stores s f fun s =>
      let cap := selCap c.p f x.sel.toNat
      match cap.check (at_ c.p f) n rightW n allKinds with
      | .error e => .of s (capFault c cap (at_ c.p f) 2 e)
      | .ok (o, y) => storeGlobal c s f cap o y (storeBytes c.p f x.d.toNat n)

/-- LD.8 (R258). -/
def execLd8 (x : FmtM) (s : State) : Result :=
  ldOp 1 false x s

/-- LD.16 (R258). -/
def execLd16 (x : FmtM) (s : State) : Result :=
  ldOp 2 false x s

/-- LD.32 (R258). -/
def execLd32 (x : FmtM) (s : State) : Result :=
  ldOp 4 false x s

/-- LD.64 (R258). -/
def execLd64 (x : FmtM) (s : State) : Result :=
  ldOp 8 false x s

/-- LD.128 (R258). -/
def execLd128 (x : FmtM) (s : State) : Result :=
  ldOp 16 false x s

/-- LD.8.S (R258). -/
def execLd8S (x : FmtM) (s : State) : Result :=
  ldOp 1 true x s

/-- LD.16.S (R258). -/
def execLd16S (x : FmtM) (s : State) : Result :=
  ldOp 2 true x s

/-- ST.8 (R258). -/
def execSt8 (x : FmtM) (s : State) : Result :=
  stOp 1 x s

/-- ST.16 (R258). -/
def execSt16 (x : FmtM) (s : State) : Result :=
  stOp 2 x s

/-- ST.32 (R258). -/
def execSt32 (x : FmtM) (s : State) : Result :=
  stOp 4 x s

/-- ST.64 (R258). -/
def execSt64 (x : FmtM) (s : State) : Result :=
  stOp 8 x s

/-- ST.128 (R258). -/
def execSt128 (x : FmtM) (s : State) : Result :=
  stOp 16 x s

/-! ### LDA, STR and LDK (R259, R260) -/

/-- The scope of LDA and STR: C[2:0] of the prefix, FRW by default. -/
def scopeOf (p : Option Pfx) : Nat :=
  pC p % 8

/-- The access size that a size code names: 4, 8 or 16 bytes. -/
def sizeCode (imm : BitVec 3) : Nat :=
  match imm.toNat with
  | 0 => 4
  | 1 => 8
  | _ => 16

/-- LDA: a plain load after the wait of R225 at FRW, PLT and CORE; an acquire at the home at the wider scopes (R226, R229, R259). -/
def execLda (x : FmtM) (s : State) : Result :=
  let n := sizeCode x.imm
  let at_ (p : Plot) (f : Fibre) : Nat := memOff p f x.a n 0
  let word := lmWord x.g x.p x.sel [x.a.toNat] (codesFrom x.d.toNat ((n + 3) / 4))
  runLane { word with touch := touches x.sel at_ n rightR n allKinds } s fun c s f =>
    counted .loads s f fun s =>
      let cap := selCap c.p f x.sel.toNat
      match cap.check (at_ c.p f) n rightR n allKinds with
      | .error e => .of s (capFault c cap (at_ c.p f) 1 e)
      | .ok (o, y) =>
        if scopeOf x.p ≤ 2 then waitQuiet c s f fun s => loadGlobal c s f cap o y n false x.d.toNat 0
        else onBytes c s f o y n fun s => .of (s.send (c.request f cap o y (.acquireLoad n x.d.toNat))) (.seq f.moreLoads)

/-- Whether a release to a place is lazy: a CACHED or SLICE device line, at a scope below SYS, that does not record eight other cores (R228,
R230). -/
def State.lazyRelease (s : State) (core ctx obj off : Nat) (sys : Bool) : Bool :=
  match s.place? (dieOf core) ctx obj off with
  | some h => !sys && (h.desc.home == 0 || h.desc.home == 2) && !h.isHost && !s.eagerByRecords ⟨ctx, obj, off / 128, 0⟩ core
  | none => false

/-- A release's way to its home: lazy with the core's epoch, which rises, or eager after a flush (R227, R228, R230). -/
def releaseStore (c : IssueCtx) (s : State) (f : Fibre) (cap : Cap) (obj off : Nat) (bs : List Byte) (sys : Bool) : Eff :=
  let k := c.p.core
  let t := s.commit c.p.pid
  let e := (t.core k).epoch
  let lazy := t.lazyRelease k c.p.ctx obj off sys
  onWay (lazy && decide (e < 0xFFFF) || t.backOpen k fun _ => true) s fun _ =>
    if lazy then .of ((t.bumpEpoch k).send (c.request f cap obj off (.releaseStore bs (some e)))) (.seq f.moreStores)
    else .of ((t.flushCore k).send (c.request f cap obj off (.releaseStore bs none))) (.seq f.moreStores)

/-- STR: the wait of R225, then a plain store at FRW, PLT and CORE, a release at the wider scopes (R226, R228, R230, R259). -/
def execStr (x : FmtM) (s : State) : Result :=
  let n := sizeCode x.imm
  let at_ (p : Plot) (f : Fibre) : Nat := memOff p f x.a n 0
  let word := lmWord x.g x.p x.sel (x.a.toNat :: codesFrom x.d.toNat (n / 4))
  runLane { word with touch := touches x.sel at_ n rightW n allKinds } s fun c s f =>
    counted .stores s f fun s =>
      let cap := selCap c.p f x.sel.toNat
      match cap.check (at_ c.p f) n rightW n allKinds with
      | .error e => .of s (capFault c cap (at_ c.p f) 2 e)
      | .ok (o, y) =>
        let bs := storeBytes c.p f x.d.toNat n
        waitQuiet c s f fun s =>
          if scopeOf x.p ≤ 2 then storeGlobal c s f cap o y bs else releaseStore c s f cap o y bs (scopeOf x.p == 5)

/-- LDK: a load through constant lines of a sealed object (R260). -/
def execLdk (x : FmtM0) (s : State) : Result :=
  let n := sizeCode x.imm
  let at_ (p : Plot) (f : Fibre) : Nat := memOff p f x.a n 0
  let word := lmWord x.g none x.sel [x.a.toNat] (codesFrom x.d.toNat ((n + 3) / 4))
  runLane { word with touch := touches x.sel at_ n rightR n [0, 1] } s fun c s f =>
    counted .loads s f fun s =>
      let cap := selCap c.p f x.sel.toNat
      match cap.check (at_ c.p f) n rightR n [0, 1] with
      | .error e => .of s (capFault c cap (at_ c.p f) 1 e)
      | .ok (o, y) => loadGlobal c s f cap o y n false x.d.toNat 1

/-! ### LDS and STS (R261) -/

/-- The allocation that LDS and STS reach: the plot's, or the halt frame for a handler (R418, R420). First address and size. -/
def Plot.alloc (p : Plot) : Nat × Nat :=
  match p.handler with
  | some _ => (frameAddr p.core, 33024)
  | none => (scratchAddr p.core + p.sbase, p.ssize)

/-- The checks of a scratchpad access (R198, R261). -/
def scratchCheck (p : Plot) (off n : Nat) : Option FaultCode :=
  if p.alloc.2 < off + n then some .capb else if off % n ≠ 0 then some .align else none

/-- LDS of n bytes. -/
def ldsOp (n : Nat) (sx : Bool) (x : FmtMS) (s : State) : Result :=
  runLane { guard := x.g.toNat, size := sizeOf x.p, codes := [x.a.toNat], dst := codesFrom x.d.toNat ((n + 3) / 4) } s fun c s f =>
    counted .loads s f fun s =>
      let off := memOff c.p f x.a n (uimm x.p 3 x.imm.toNat)
      match scratchCheck c.p off n with
      | some e => .of s (.fault (.access e c.iss.pc 0 off 1))
      | none =>
        let a := c.p.alloc.1 + off
        if s.poisoned a n then .of (s.giveLoad c.p.pid (.fault f.fid (.late .poison c.iss.pc 0 off 1 2))) (.seq f.moreLoads)
        else .of (s.giveLoad c.p.pid (.regs f.fid x.d.toNat (loadWords n sx (s.loadNat a n)))) (.seq f.moreLoads)

/-- STS of n bytes; the highest lane's value stands (R201). -/
def stsOp (n : Nat) (x : FmtMS) (s : State) : Result :=
  runLane { guard := x.g.toNat, size := sizeOf x.p, codes := x.a.toNat :: codesFrom x.d.toNat (max 1 (n / 4)) } s fun c s f =>
    counted .stores s f fun s =>
      let off := memOff c.p f x.a n (uimm x.p 3 x.imm.toNat)
      match scratchCheck c.p off n with
      | some e => .of s (.fault (.access e c.iss.pc 0 off 2))
      | none => .of ((s.store (c.p.alloc.1 + off) (storeBytes c.p f x.d.toNat n)).giveStore c.p.pid (.done f.fid)) (.seq f.moreStores)

/-- LDS.8 (R261). -/
def execLds8 (x : FmtMS) (s : State) : Result :=
  ldsOp 1 false x s

/-- LDS.16 (R261). -/
def execLds16 (x : FmtMS) (s : State) : Result :=
  ldsOp 2 false x s

/-- LDS.32 (R261). -/
def execLds32 (x : FmtMS) (s : State) : Result :=
  ldsOp 4 false x s

/-- LDS.64 (R261). -/
def execLds64 (x : FmtMS) (s : State) : Result :=
  ldsOp 8 false x s

/-- LDS.128 (R261). -/
def execLds128 (x : FmtMS) (s : State) : Result :=
  ldsOp 16 false x s

/-- LDS.8.S (R261). -/
def execLds8S (x : FmtMS) (s : State) : Result :=
  ldsOp 1 true x s

/-- LDS.16.S (R261). -/
def execLds16S (x : FmtMS) (s : State) : Result :=
  ldsOp 2 true x s

/-- STS.8 (R261). -/
def execSts8 (x : FmtMS) (s : State) : Result :=
  stsOp 1 x s

/-- STS.16 (R261). -/
def execSts16 (x : FmtMS) (s : State) : Result :=
  stsOp 2 x s

/-- STS.32 (R261). -/
def execSts32 (x : FmtMS) (s : State) : Result :=
  stsOp 4 x s

/-- STS.64 (R261). -/
def execSts64 (x : FmtMS) (s : State) : Result :=
  stsOp 8 x s

/-- STS.128 (R261). -/
def execSts128 (x : FmtMS) (s : State) : Result :=
  stsOp 16 x s

/-! ### CLD and CST (R262, R263) -/

/-- CLD: a tagged granule's bits and tag (R262). -/
def execCld (x : FmtMC) (s : State) : Result :=
  let at_ (p : Plot) (f : Fibre) : Nat := memOff p f x.a 16 (uimm x.p 3 x.imm.toNat)
  let need := rightR + rightC
  let word := lmWord x.g x.p x.sel [x.a.toNat] [128 + x.ad.toNat]
  runLane { word with touch := touches x.sel at_ 16 need 16 allKinds } s fun c s f =>
    counted .loads s f fun s =>
      let cap := selCap c.p f x.sel.toNat
      match cap.check (at_ c.p f) 16 need 16 allKinds with
      | .error e => .of s (capFault c cap (at_ c.p f) 1 e)
      | .ok (o, y) =>
        onBytes c s f o y 16 fun s =>
          globalLoad c s f cap o y 16 need 0 (.capLoad x.ad.toNat) fun bs tag => .cap f.fid x.ad.toNat ⟨BitVec.ofNat 128 (leNat bs), tag⟩

/-- CST: the register's bits and tag; a capability without G only into a CORE page (R262, R263). -/
def execCst (x : FmtMC) (s : State) : Result :=
  let at_ (p : Plot) (f : Fibre) : Nat := memOff p f x.a 16 (uimm x.p 3 x.imm.toNat)
  let need := rightW + rightC
  runLane { lmWord x.g x.p x.sel [x.a.toNat, 128 + x.ad.toNat] with touch := touches x.sel at_ 16 need 16 allKinds } s fun c s f =>
    counted .stores s f fun s =>
      let cap := selCap c.p f x.sel.toNat
      match cap.check (at_ c.p f) 16 need 16 allKinds with
      | .error e => .of s (capFault c cap (at_ c.p f) 2 e)
      | .ok (o, y) =>
        let v := f.areg x.ad.toNat
        let local_ (h : PortHit) : Option FaultCode :=
          if v.tag && !rightsWithin rightG v.rights && !h.isCore then some .capr else none
        onBytes c s f o y 16 fun s =>
          .of (globalStore c s f cap o y need (leBytes 16 v.bits.toNat) v.tag false local_ (.capStore v)) (.seq f.moreStores)

/-! ### FENCE and WAIT (R271, R272) -/

/-- FENCE: the wait of R225; from DIE scope the region commits, every Dirty-partial line is written back, the epoch rises and the
L1 is invalidated; at SYS the core's writes to UNCACHED host pages have passed too (R231). -/
def execFence (x : FmtSC0) (s : State) : Result :=
  runLane { guard := x.g.toNat } s fun c s f =>
    waitQuiet c s f fun s =>
      if x.scope.toNat ≤ 2 then .of s (.seq f)
      else if x.scope.toNat = 5 ∧ s.hostBusy c.p.core then .of s (.again .sent)
      else
        let t := s.commit c.p.pid
        onWay (t.backOpen c.p.core fun _ => true) s fun _ =>
          .of (((t.flushCore c.p.core).bumpEpoch c.p.core).invalidate c.p.core) (.seq f)

/-- WAIT: parks until each counter is at or below its limit (R272). -/
def execWait (x : FmtWT0) (s : State) : Result :=
  runLane {} s fun _ s f =>
    if f.loads ≤ x.ld.toNat ∧ f.stores ≤ x.st.toNat ∧ f.copies ≤ x.cp.toNat ∧ f.engine ≤ x.eo.toNat then .of s (.seq f)
    else .of s (.park f (.wait x.ld.toNat x.st.toNat x.cp.toNat x.eo.toNat))

/-! ### WAITA (R273 to R275) -/

/-- WAITA: every member whose guard is true parks; its tests are made at the home (R273, R274). -/
def waitaOp (cond : Nat) (x : FmtMN0) (s : State) : Result :=
  let at_ (p : Plot) (f : Fibre) : Nat := memOff p f x.a 4 0
  runLane { lmWord x.g none x.sel [x.a.toNat, x.d.toNat] with touch := touches x.sel at_ 4 rightR 4 allKinds } s fun c s f =>
    let cap := selCap c.p f x.sel.toNat
    match cap.check (at_ c.p f) 4 rightR 4 allKinds with
    | .error e => .of s (capFault c cap (at_ c.p f) 1 e)
    | .ok (o, y) =>
      onBytes c s f o y 4 fun s => .of s (.park f (.waita ⟨cap.kind, o, y, cond, readReg c.p f x.d.toNat, 4, none, 0⟩))

/-- WAITA.EQ (R273). -/
def execWaitaEq (x : FmtMN0) (s : State) : Result :=
  waitaOp 0 x s

/-- WAITA.NE (R273). -/
def execWaitaNe (x : FmtMN0) (s : State) : Result :=
  waitaOp 1 x s

/-- WAITA.GE (R273). -/
def execWaitaGe (x : FmtMN0) (s : State) : Result :=
  waitaOp 2 x s

/-! ### PREF and PUBL (R276 to R278) -/

/-- PREF: the line is filled Valid-clean into the L1, or brought into its home slice, where it can be; a prefetch that would fault, that meets a
line of an engine, or whose way is closed is dropped (R276). -/
def execPref (x : FmtM) (s : State) : Result :=
  let at_ (p : Plot) (f : Fibre) : Nat := memOff p f x.a 128 (uimm x.p 3 x.imm.toNat)
  runLane { lmWord x.g x.p x.sel [x.a.toNat] with touch := touches x.sel at_ 128 rightR 128 allKinds } s fun c s f =>
    let cap := selCap c.p f x.sel.toNat
    let w := c.who f
    let t :=
      match cap.check (at_ c.p f) 128 rightR 128 allKinds with
      | .error _ => s
      | .ok (o, y) =>
        let r : LineRef := ⟨w.ctx, o, y / 128, 0⟩
        match s.port (dieOf w.core) w.ctx w.system cap.kind o rightR y with
        | .error _ => s
        | .ok h =>
          if (s.engineOwned.any fun q => q.1 == r) || !s.lineOpen w.core r h then s
          else if x.d ≠ 0 then s.touchL2 r h false
          else if h.cacheable ∧ ((s.core w.core).line? w.ctx o (y / 128) 0 none).isNone then s.fill w cap.kind o (y / 128) h 0
          else s
    .of t (.seq f)

/-- The first fault of a publish's pages at the port, in rising order. -/
def pagesFault (s : State) (w : Who) (kind obj need : Nat) (pages : List Nat) : Option (FaultCode × Nat) :=
  match pages with
  | [] => none
  | p :: rest =>
    match s.port (dieOf w.core) w.ctx w.system kind obj need (65536 * p) with
    | .error e => some (e, 65536 * p)
    | .ok _ => pagesFault s w kind obj need rest

/-- The lines of a range of bytes. -/
def rangeLines (off len : Nat) : List Nat :=
  if len = 0 then [] else (List.range ((off + len - 1) / 128 - off / 128 + 1)).map (· + off / 128)

/-- PUBL: the publish runs behind the fibre with one stores count, after the fibre's earlier accesses (R247, R277, R278). -/
def execPubl (x : FmtM0) (s : State) : Result :=
  let len (p : Plot) (f : Fibre) : Nat := (readReg p f x.d.toNat).toNat
  runLane { lmWord x.g none x.sel [x.a.toNat, x.d.toNat] with cost := 2 } s fun c s f =>
    counted .stores s f fun s =>
      let cap := selCap c.p f x.sel.toNat
      let off := memOff c.p f x.a 1 0
      match cap.check off (len c.p f) rightP 1 [1] with
      | .error e => .of s (capFault c cap off 2 e)
      | .ok (o, y) =>
        let w := c.who f
        let lines := rangeLines y (len c.p f)
        let pages := dedup (lines.map (· / 512))
        let s := s.commit c.p.pid
        match pagesFault s w cap.kind o rightP pages with
        | some (e, at_) => .of (s.giveStore c.p.pid (.fault f.fid true (.late e c.iss.pc o at_ 2 2))) (.seq f.moreStores)
        | none =>
          let q : Publish :=
            { pid := c.p.pid, fid := f.fid, pc := c.iss.pc, core := c.p.core, ctx := c.p.ctx, obj := o, todo := lines, pages := pages,
              die := dieOf c.p.core, counted := true, issue := s.nextIssue, started := false, unpubl := none }
          .of { s with publishes := s.publishes ++ [q] } (.seq f.moreStores)

end Sys2Proof.Machine
end

