-- ==== Sys2Proof/Machine/Atomics.lean ====
section
/-! DEFINITION. Atomic lane instructions: ATOM, ATOM.INC, RED, with the accumulation of RED.ADD on commutative ranges (R235 to
R240, R264 to R270). -/

namespace Sys2Proof.Machine

/-- The kinds that an atomic accepts at Cap.check: data, lattice, layer table (both refused later with LATNM), exception log
(R252, R269, R387). -/
def atomKinds : List Nat := [0, 2, 3, 4]

/-- ATOM and ATOM.INC of an op: the old value returns to D (R264, R266). cmp is the register code of CAS's compare value. -/
def atomOp (op : Nat) (cmp : Option Nat) (x : FmtMN) (s : State) : Result :=
  let ty := pTy x.p
  let n := atomSize ty
  let data := codesFrom x.d.toNat (n / 4)
  let codes := data ++ (match cmp with
    | some k => codesFrom k (n / 4)
    | none => [])
  let need := rightR + rightW + rightA
  let at_ (p : Plot) (f : Fibre) : Nat := memOff p f x.a n 0
  runLane { lmWord x.g x.p x.sel (x.a.toNat :: codes) data with touch := touches x.sel at_ n need n atomKinds } s fun c s f =>
    counted .loads s f fun s =>
      let cap := selCap c.p f x.sel.toNat
      match cap.check (at_ c.p f) n need n atomKinds with
      | .error e => .of s (capFault c cap (at_ c.p f) 3 e)
      | .ok (o, y) =>
        let d := leNat (storeBytes c.p f x.d.toNat n)
        let k := match cmp with
          | some k => leNat (storeBytes c.p f k n)
          | none => 0
        onBytes c s f o y n fun s =>
          .of ((s.commit c.p.pid).send (c.request f cap o y (.atom op ty d k (some x.d.toNat)))) (.seq f.moreLoads)

/-- The elements that a RED's operand holds: one of the range's width, or two BF16 elements (R237). -/
def redParts (crty n : Nat) (off d : Nat) : List (Nat × Nat) :=
  let w := rangeWidth crty
  if w < n then (List.range (n / w)).map fun i => (off / w + i, d / 2 ^ (8 * w * i) % 2 ^ (8 * w)) else [(off / w, d)]

/-- Adds an operand to a partial of a partial-sum line: the flags and the causes go to the plot of the RED (R239, R240). -/
def addPartial (e : Entry) (sums : List (Nat × Int)) (el d : Nat) : List (Nat × Int) × Flg × List Nat :=
  let (v, f, zs) := toRange e.crty e.crg d
  let old := (assoc sums el).getD 0
  let (r, f', cs) := addRange e.crty old v
  (assocSet sums el r, f ||| f', dedup (zs ++ cs))

/-- RED.ADD of the range's type: into a partial-sum line of the issuing core's L1, made with the core's epoch; the core registers
as a contributor at the home (R239). -/
def redRange (c : IssueCtx) (s : State) (f : Fibre) (e : Entry) (kind obj off n d : Nat) : Eff :=
  let core := c.p.core
  let line := off / 128
  let r : LineRef := ⟨c.p.ctx, obj, line, 0⟩
  let s := s.commit c.p.pid
  let k := s.core core
  let l : L1Line := match k.line? c.p.ctx obj line 2 none with
    | some l => { l with capKind := kind, system := c.p.system, need := l.need ||| (rightW + rightA) }
    | none => { ctx := c.p.ctx, obj := obj, line := line, kind := .psum, bytes := [], written := [], tags := [], poison := [],
                errs := [], epoch := k.epoch, tent := none, sums := [], capKind := kind, system := c.p.system,
                need := rightW + rightA }
  let (sums, flg, cs) := (redParts e.crty n off d).foldl (fun (acc : List (Nat × Int) × Flg × List Nat) q =>
    let (m, g, z) := addPartial e acc.1 q.1 q.2
    (m, acc.2.1 ||| g, dedup (acc.2.2 ++ z))) (l.sums, 0, [])
  let t := s.modCore core fun k => k.setLine { l with sums := sums }
  let t := if t.contribs.contains (r, core) then t else { t with contribs := t.contribs ++ [(r, core)] }
  ⟨t.giveStore c.p.pid (.done f.fid), .seq f.moreStores, flg, cs⟩

/-- The port's answer to a RED.ADD of a commutative range's own type, which takes the place of R268's ATOMT; the faults of lattices and of
UNCACHED host pages stand (R237, R239, R252, R269). -/
def rangeFault (h : PortHit) (op ty : Nat) : Option FaultCode :=
  atomFault { h with entry := { h.entry with crty := 0 } } op ty

/-- RED of an op: no register is written; one that the port refuses commits the region as well (R264, R266, R268, R428). -/
def redOp (op : Nat) (x : FmtMN) (s : State) : Result :=
  let ty := pTy x.p
  let n := atomSize ty
  let need := rightW + rightA
  let at_ (p : Plot) (f : Fibre) : Nat := memOff p f x.a n 0
  let word := { lmWord x.g x.p x.sel (x.a.toNat :: codesFrom x.d.toNat (n / 4)) with ty := if ty = 25 then 2 else ty }
  runLane { word with touch := touches x.sel at_ n need n atomKinds } s fun c s f =>
    counted .stores s f fun s =>
      let cap := selCap c.p f x.sel.toNat
      match cap.check (at_ c.p f) n need n atomKinds with
      | .error e => .of s (capFault c cap (at_ c.p f) 3 e)
      | .ok (o, y) =>
        let d := leNat (storeBytes c.p f x.d.toNat n)
        let fail (e : FaultCode) : Eff := .of ((s.commit c.p.pid).giveStore c.p.pid (.fault f.fid true (.late e c.iss.pc o y 3 2))) (.seq f.moreStores)
        onBytes c s f o y n fun s =>
          match s.port (dieOf c.p.core) c.p.ctx c.p.system cap.kind o need y with
          | .error e => fail e
          | .ok h =>
            if op = 0 ∧ h.entry.crty ≠ 0 ∧ rangeMatches h.entry.crty ty then
              match rangeFault h op ty with
              | some e => fail e
              | none => redRange c s f h.entry cap.kind o y n d
            else .of ((s.commit c.p.pid).send (c.request f cap o y (.atom op ty d 0 none))) (.seq f.moreStores)

/-- ATOM.ADD (R264). -/
def execAtomAdd (x : FmtMN) (s : State) : Result :=
  atomOp 0 none x s

/-- ATOM.MIN (R264). -/
def execAtomMin (x : FmtMN) (s : State) : Result :=
  atomOp 1 none x s

/-- ATOM.MAX (R264). -/
def execAtomMax (x : FmtMN) (s : State) : Result :=
  atomOp 2 none x s

/-- ATOM.AND (R264). -/
def execAtomAnd (x : FmtMN) (s : State) : Result :=
  atomOp 3 none x s

/-- ATOM.OR (R264). -/
def execAtomOr (x : FmtMN) (s : State) : Result :=
  atomOp 4 none x s

/-- ATOM.XOR (R264). -/
def execAtomXor (x : FmtMN) (s : State) : Result :=
  atomOp 5 none x s

/-- ATOM.EXCH (R264). -/
def execAtomExch (x : FmtMN) (s : State) : Result :=
  atomOp 6 none x s

/-- ATOM.CAS, the compare value in the register that C names, v0 where C is zero (R264). -/
def execAtomCas (x : FmtMN) (s : State) : Result :=
  atomOp 7 (some (pC x.p)) x s

/-- ATOM.INC (R264). -/
def execAtomInc (x : FmtMN) (s : State) : Result :=
  atomOp 8 none x s

/-- RED.ADD (R264, R239). -/
def execRedAdd (x : FmtMN) (s : State) : Result :=
  redOp 0 x s

/-- RED.MIN (R264). -/
def execRedMin (x : FmtMN) (s : State) : Result :=
  redOp 1 x s

/-- RED.MAX (R264). -/
def execRedMax (x : FmtMN) (s : State) : Result :=
  redOp 2 x s

/-- RED.AND (R264). -/
def execRedAnd (x : FmtMN) (s : State) : Result :=
  redOp 3 x s

/-- RED.OR (R264). -/
def execRedOr (x : FmtMN) (s : State) : Result :=
  redOp 4 x s

/-- RED.XOR (R264). -/
def execRedXor (x : FmtMN) (s : State) : Result :=
  redOp 5 x s

end Sys2Proof.Machine
end

