-- ==== Sys2Proof/Decode.lean ====
section
/-! DEFINITION. The decoder, total on any bytes and rejecting by name, the encoder, and decodeTableWord. -/

namespace Sys2Proof

/-- Why bytes are not an instruction word that the decoder reads (R71 point 2). Reserved codes and operand rules (R61, R62,
R66) are Machine.checkWord's. -/
inductive DecodeError where
  /-- Fewer bytes than the word or pair takes. -/
  | short
  /-- An OP that no row of R68 or R70 assigns, OP 0x00 and 0x7F among them. -/
  | unassignedOp
  /-- A function code that R69 or the instruction's entry does not list. -/
  | unassignedFunction
  /-- A bit in a field that the encoding fixes at another value. -/
  | fixedBits
  /-- A prefix on a word whose entry or format takes none (R66). -/
  | prefixRefused
  /-- No prefix on a word that always carries one (R151, R284). -/
  | prefixMissing
  /-- A prefix followed by a prefix. -/
  | prefixTwice
  /-- A prefix followed by a word of the other set. -/
  | prefixOtherSet
  deriving DecidableEq, Repr

/-! ### Fields of the formats: unpack reads them from bits [23:0], pack writes them there (R59 to R64) -/

/-- Bits [23:0]: LR or LI: g d a b. -/
def FmtR.pack (x : FmtR) : BitVec 24 :=
  x.g ++ (x.d ++ (x.a ++ x.b))

/-- Reads the fields of LR or LI and refuses a bit that the encoding fixes otherwise. -/
def FmtR.unpack (p : Option Pfx) (r : BitVec 24) : Except DecodeError FmtR :=
  .ok { g := r.extractLsb' 21 3, d := r.extractLsb' 14 7, a := r.extractLsb' 7 7, b := r.extractLsb' 0 7, p := p }

/-- Bits [23:0]: LR without XP: g d a b. -/
def FmtR0.pack (x : FmtR0) : BitVec 24 :=
  x.g ++ (x.d ++ (x.a ++ x.b))

/-- Reads the fields of LR without XP and refuses a bit that the encoding fixes otherwise. -/
def FmtR0.unpack (r : BitVec 24) : Except DecodeError FmtR0 :=
  .ok { g := r.extractLsb' 21 3, d := r.extractLsb' 14 7, a := r.extractLsb' 7 7, b := r.extractLsb' 0 7 }

/-- Bits [23:0]: LR with a required XP: g d a b. -/
def FmtRP.pack (x : FmtRP) : BitVec 24 :=
  x.g ++ (x.d ++ (x.a ++ x.b))

/-- Reads the fields of LR with a required XP and refuses a bit that the encoding fixes otherwise. -/
def FmtRP.unpack (p : Pfx) (r : BitVec 24) : Except DecodeError FmtRP :=
  .ok { g := r.extractLsb' 21 3, d := r.extractLsb' 14 7, a := r.extractLsb' 7 7, b := r.extractLsb' 0 7, p := p }

/-- Bits [23:0]: LR with D zero: g a b. -/
def FmtRW.pack (x : FmtRW) : BitVec 24 :=
  x.g ++ ((0 : BitVec 7) ++ (x.a ++ x.b))

/-- Reads the fields of LR with D zero and refuses a bit that the encoding fixes otherwise. -/
def FmtRW.unpack (p : Option Pfx) (r : BitVec 24) : Except DecodeError FmtRW :=
  if r.extractLsb' 14 7 = 0 then
    .ok { g := r.extractLsb' 21 3, a := r.extractLsb' 7 7, b := r.extractLsb' 0 7, p := p }
  else .error .fixedBits

/-- Bits [23:0]: LR or LI compare: g cond pd a b. -/
def FmtC.pack (x : FmtC) : BitVec 24 :=
  x.g ++ (x.cond ++ (x.pd ++ (x.a ++ x.b)))

/-- Reads the fields of LR or LI compare and refuses a bit that the encoding fixes otherwise. -/
def FmtC.unpack (p : Option Pfx) (r : BitVec 24) : Except DecodeError FmtC :=
  .ok { g := r.extractLsb' 21 3, cond := r.extractLsb' 17 4, pd := r.extractLsb' 14 3, a := r.extractLsb' 7 7, b := r.extractLsb' 0 7, p := p }

/-- Bits [23:0]: LR compare without XP. -/
def FmtC0.pack (x : FmtC0) : BitVec 24 :=
  x.g ++ (x.cond ++ (x.pd ++ (x.a ++ x.b)))

/-- Reads the fields of LR compare without XP and refuses a bit that the encoding fixes otherwise. -/
def FmtC0.unpack (r : BitVec 24) : Except DecodeError FmtC0 :=
  .ok { g := r.extractLsb' 21 3, cond := r.extractLsb' 17 4, pd := r.extractLsb' 14 3, a := r.extractLsb' 7 7, b := r.extractLsb' 0 7 }

/-- Bits [23:0]: LU with a function code: g d a. -/
def FmtU.pack (x : FmtU) (fn : BitVec 7) : BitVec 24 :=
  x.g ++ (x.d ++ (x.a ++ fn))

/-- Reads the fields of LU with a function code and refuses a bit that the encoding fixes otherwise. -/
def FmtU.unpack (p : Option Pfx) (r : BitVec 24) : Except DecodeError FmtU :=
  .ok { g := r.extractLsb' 21 3, d := r.extractLsb' 14 7, a := r.extractLsb' 7 7, p := p }

/-- Bits [23:0]: LU with a function code, without XP: g d a. -/
def FmtU0.pack (x : FmtU0) (fn : BitVec 7) : BitVec 24 :=
  x.g ++ (x.d ++ (x.a ++ fn))

/-- Reads the fields of LU with a function code, without XP and refuses a bit that the encoding fixes otherwise. -/
def FmtU0.unpack (r : BitVec 24) : Except DecodeError FmtU0 :=
  .ok { g := r.extractLsb' 21 3, d := r.extractLsb' 14 7, a := r.extractLsb' 7 7 }

/-- Bits [23:0]: LW: imm[16:14] d imm[13:0]. -/
def FmtW17.pack (x : FmtW17) : BitVec 24 :=
  x.ih ++ (x.d ++ x.il)

/-- Reads the fields of LW and refuses a bit that the encoding fixes otherwise. -/
def FmtW17.unpack (p : Option Pfx) (r : BitVec 24) : Except DecodeError FmtW17 :=
  .ok { ih := r.extractLsb' 21 3, d := r.extractLsb' 14 7, il := r.extractLsb' 0 14, p := p }

/-- Bits [23:0]: Predicates: g pd pa pb. -/
def FmtP30.pack (x : FmtP30) (fn : BitVec 4) : BitVec 24 :=
  x.g ++ ((0 : BitVec 4) ++ (x.pd ++ ((0 : BitVec 4) ++ (x.pa ++ (fn ++ x.pb)))))

/-- Reads the fields of Predicates and refuses a bit that the encoding fixes otherwise. -/
def FmtP30.unpack (r : BitVec 24) : Except DecodeError FmtP30 :=
  if r.extractLsb' 17 4 = 0 ∧ r.extractLsb' 10 4 = 0 then
    .ok { g := r.extractLsb' 21 3, pd := r.extractLsb' 14 3, pa := r.extractLsb' 7 3, pb := r.extractLsb' 0 3 }
  else .error .fixedBits

/-- Bits [23:0]: Predicates, PNOT: g pd pa. -/
def FmtP20.pack (x : FmtP20) (fn : BitVec 4) : BitVec 24 :=
  x.g ++ ((0 : BitVec 4) ++ (x.pd ++ ((0 : BitVec 4) ++ (x.pa ++ (fn ++ (0 : BitVec 3))))))

/-- Reads the fields of Predicates, PNOT and refuses a bit that the encoding fixes otherwise. -/
def FmtP20.unpack (r : BitVec 24) : Except DecodeError FmtP20 :=
  if r.extractLsb' 17 4 = 0 ∧ r.extractLsb' 10 4 = 0 ∧ r.extractLsb' 0 3 = 0 then
    .ok { g := r.extractLsb' 21 3, pd := r.extractLsb' 14 3, pa := r.extractLsb' 7 3 }
  else .error .fixedBits

/-- Bits [23:0]: LU with A zero: g d. -/
def FmtD1.pack (x : FmtD1) (fn : BitVec 7) : BitVec 24 :=
  x.g ++ (x.d ++ ((0 : BitVec 7) ++ fn))

/-- Reads the fields of LU with A zero and refuses a bit that the encoding fixes otherwise. -/
def FmtD1.unpack (p : Option Pfx) (r : BitVec 24) : Except DecodeError FmtD1 :=
  if r.extractLsb' 7 7 = 0 then
    .ok { g := r.extractLsb' 21 3, d := r.extractLsb' 14 7, p := p }
  else .error .fixedBits

/-- Bits [23:0]: LU with D zero: g a. -/
def FmtA1.pack (x : FmtA1) (fn : BitVec 7) : BitVec 24 :=
  x.g ++ ((0 : BitVec 7) ++ (x.a ++ fn))

/-- Reads the fields of LU with D zero and refuses a bit that the encoding fixes otherwise. -/
def FmtA1.unpack (p : Option Pfx) (r : BitVec 24) : Except DecodeError FmtA1 :=
  if r.extractLsb' 14 7 = 0 then
    .ok { g := r.extractLsb' 21 3, a := r.extractLsb' 7 7, p := p }
  else .error .fixedBits

/-- Bits [23:0]: Capability LR or LI: g ad as b. -/
def FmtCN.pack (x : FmtCN) : BitVec 24 :=
  x.g ++ ((0 : BitVec 4) ++ (x.ad ++ ((0 : BitVec 4) ++ (x.src ++ x.b))))

/-- Reads the fields of Capability LR or LI and refuses a bit that the encoding fixes otherwise. -/
def FmtCN.unpack (p : Option Pfx) (r : BitVec 24) : Except DecodeError FmtCN :=
  if r.extractLsb' 17 4 = 0 ∧ r.extractLsb' 10 4 = 0 then
    .ok { g := r.extractLsb' 21 3, ad := r.extractLsb' 14 3, src := r.extractLsb' 7 3, b := r.extractLsb' 0 7, p := p }
  else .error .fixedBits

/-- Bits [23:0]: Capability move: g ad as. -/
def FmtCM.pack (x : FmtCM) : BitVec 24 :=
  x.g ++ ((0 : BitVec 4) ++ (x.ad ++ ((0 : BitVec 4) ++ (x.src ++ (0 : BitVec 7)))))

/-- Reads the fields of Capability move and refuses a bit that the encoding fixes otherwise. -/
def FmtCM.unpack (p : Option Pfx) (r : BitVec 24) : Except DecodeError FmtCM :=
  if r.extractLsb' 17 4 = 0 ∧ r.extractLsb' 10 4 = 0 ∧ r.extractLsb' 0 7 = 0 then
    .ok { g := r.extractLsb' 21 3, ad := r.extractLsb' 14 3, src := r.extractLsb' 7 3, p := p }
  else .error .fixedBits

/-- Bits [23:0]: Capability query: g d as. -/
def FmtCQ.pack (x : FmtCQ) (fn : BitVec 7) : BitVec 24 :=
  x.g ++ (x.d ++ ((0 : BitVec 4) ++ (x.src ++ fn)))

/-- Reads the fields of Capability query and refuses a bit that the encoding fixes otherwise. -/
def FmtCQ.unpack (p : Option Pfx) (r : BitVec 24) : Except DecodeError FmtCQ :=
  if r.extractLsb' 10 4 = 0 then
    .ok { g := r.extractLsb' 21 3, d := r.extractLsb' 14 7, src := r.extractLsb' 7 3, p := p }
  else .error .fixedBits

/-- Bits [23:0]: MFSR: g d n. -/
def FmtMF.pack (x : FmtMF) : BitVec 24 :=
  x.g ++ (x.d ++ ((0 : BitVec 7) ++ x.n))

/-- Reads the fields of MFSR and refuses a bit that the encoding fixes otherwise. -/
def FmtMF.unpack (p : Option Pfx) (r : BitVec 24) : Except DecodeError FmtMF :=
  if r.extractLsb' 7 7 = 0 then
    .ok { g := r.extractLsb' 21 3, d := r.extractLsb' 14 7, n := r.extractLsb' 0 7, p := p }
  else .error .fixedBits

/-- Bits [23:0]: MTSR: g a n. -/
def FmtMT.pack (x : FmtMT) : BitVec 24 :=
  x.g ++ ((0 : BitVec 7) ++ (x.a ++ x.n))

/-- Reads the fields of MTSR and refuses a bit that the encoding fixes otherwise. -/
def FmtMT.unpack (p : Option Pfx) (r : BitVec 24) : Except DecodeError FmtMT :=
  if r.extractLsb' 14 7 = 0 then
    .ok { g := r.extractLsb' 21 3, a := r.extractLsb' 7 7, n := r.extractLsb' 0 7, p := p }
  else .error .fixedBits

/-- Bits [23:0]: ERET: a, G is 7. -/
def FmtE1.pack (x : FmtE1) (fn : BitVec 7) : BitVec 24 :=
  (7 : BitVec 3) ++ ((0 : BitVec 7) ++ (x.a ++ fn))

/-- Reads the fields of ERET and refuses a bit that the encoding fixes otherwise. -/
def FmtE1.unpack (p : Option Pfx) (r : BitVec 24) : Except DecodeError FmtE1 :=
  if r.extractLsb' 21 3 = 7 ∧ r.extractLsb' 14 7 = 0 then
    .ok { a := r.extractLsb' 7 7, p := p }
  else .error .fixedBits

/-- Bits [23:0]: No operand, G is 7. -/
def FmtN.pack (_ : FmtN) (fn : BitVec 7) : BitVec 24 :=
  (7 : BitVec 3) ++ ((0 : BitVec 7) ++ ((0 : BitVec 7) ++ fn))

/-- Reads the fields of No operand, G is 7 and refuses a bit that the encoding fixes otherwise. -/
def FmtN.unpack (p : Option Pfx) (r : BitVec 24) : Except DecodeError FmtN :=
  if r.extractLsb' 21 3 = 7 ∧ r.extractLsb' 14 7 = 0 ∧ r.extractLsb' 7 7 = 0 then
    .ok { p := p }
  else .error .fixedBits

/-- Bits [23:0]: Conversion with a 5-bit code in B: g d a e. -/
def FmtFE.pack (x : FmtFE) : BitVec 24 :=
  x.g ++ (x.d ++ (x.a ++ ((0 : BitVec 2) ++ x.e)))

/-- Reads the fields of Conversion with a 5-bit code in B and refuses a bit that the encoding fixes otherwise. -/
def FmtFE.unpack (p : Option Pfx) (r : BitVec 24) : Except DecodeError FmtFE :=
  if r.extractLsb' 5 2 = 0 then
    .ok { g := r.extractLsb' 21 3, d := r.extractLsb' 14 7, a := r.extractLsb' 7 7, e := r.extractLsb' 0 5, p := p }
  else .error .fixedBits

/-- Bits [23:0]: VOTE: g d pa. -/
def FmtV0.pack (x : FmtV0) (fn : BitVec 7) : BitVec 24 :=
  x.g ++ (x.d ++ ((0 : BitVec 4) ++ (x.pa ++ fn)))

/-- Reads the fields of VOTE and refuses a bit that the encoding fixes otherwise. -/
def FmtV0.unpack (r : BitVec 24) : Except DecodeError FmtV0 :=
  if r.extractLsb' 10 4 = 0 then
    .ok { g := r.extractLsb' 21 3, d := r.extractLsb' 14 7, pa := r.extractLsb' 7 3 }
  else .error .fixedBits

/-- Bits [23:0]: LM with an immediate: g d a sel imm. -/
def FmtM.pack (x : FmtM) : BitVec 24 :=
  x.g ++ (x.d ++ (x.a ++ (x.sel ++ x.imm)))

/-- Reads the fields of LM with an immediate and refuses a bit that the encoding fixes otherwise. -/
def FmtM.unpack (p : Option Pfx) (r : BitVec 24) : Except DecodeError FmtM :=
  .ok { g := r.extractLsb' 21 3, d := r.extractLsb' 14 7, a := r.extractLsb' 7 7, sel := r.extractLsb' 3 4, imm := r.extractLsb' 0 3, p := p }

/-- Bits [23:0]: LM without XP: g d a sel imm. -/
def FmtM0.pack (x : FmtM0) : BitVec 24 :=
  x.g ++ (x.d ++ (x.a ++ (x.sel ++ x.imm)))

/-- Reads the fields of LM without XP and refuses a bit that the encoding fixes otherwise. -/
def FmtM0.unpack (r : BitVec 24) : Except DecodeError FmtM0 :=
  .ok { g := r.extractLsb' 21 3, d := r.extractLsb' 14 7, a := r.extractLsb' 7 7, sel := r.extractLsb' 3 4, imm := r.extractLsb' 0 3 }

/-- Bits [23:0]: LM scratchpad, selector zero: g d a imm. -/
def FmtMS.pack (x : FmtMS) : BitVec 24 :=
  x.g ++ (x.d ++ (x.a ++ ((0 : BitVec 4) ++ x.imm)))

/-- Reads the fields of LM scratchpad, selector zero and refuses a bit that the encoding fixes otherwise. -/
def FmtMS.unpack (p : Option Pfx) (r : BitVec 24) : Except DecodeError FmtMS :=
  if r.extractLsb' 3 4 = 0 then
    .ok { g := r.extractLsb' 21 3, d := r.extractLsb' 14 7, a := r.extractLsb' 7 7, imm := r.extractLsb' 0 3, p := p }
  else .error .fixedBits

/-- Bits [23:0]: LM with a function code in B[2:0]: g d a sel. -/
def FmtMN.pack (x : FmtMN) (fn : BitVec 3) : BitVec 24 :=
  x.g ++ (x.d ++ (x.a ++ (x.sel ++ fn)))

/-- Reads the fields of LM with a function code in B[2 and refuses a bit that the encoding fixes otherwise. -/
def FmtMN.unpack (p : Option Pfx) (r : BitVec 24) : Except DecodeError FmtMN :=
  .ok { g := r.extractLsb' 21 3, d := r.extractLsb' 14 7, a := r.extractLsb' 7 7, sel := r.extractLsb' 3 4, p := p }

/-- Bits [23:0]: LM with a function code in B[2:0], without XP: g d a sel. -/
def FmtMN0.pack (x : FmtMN0) (fn : BitVec 3) : BitVec 24 :=
  x.g ++ (x.d ++ (x.a ++ (x.sel ++ fn)))

/-- Reads the fields of LM with a function code in B[2 and refuses a bit that the encoding fixes otherwise. -/
def FmtMN0.unpack (r : BitVec 24) : Except DecodeError FmtMN0 :=
  .ok { g := r.extractLsb' 21 3, d := r.extractLsb' 14 7, a := r.extractLsb' 7 7, sel := r.extractLsb' 3 4 }

/-- Bits [23:0]: LM lattice, XP required: g d a sel acq. -/
def FmtMQ.pack (x : FmtMQ) : BitVec 24 :=
  x.g ++ (x.d ++ (x.a ++ (x.sel ++ ((0 : BitVec 2) ++ x.acq))))

/-- Reads the fields of LM lattice, XP required and refuses a bit that the encoding fixes otherwise. -/
def FmtMQ.unpack (p : Pfx) (r : BitVec 24) : Except DecodeError FmtMQ :=
  if r.extractLsb' 1 2 = 0 then
    .ok { g := r.extractLsb' 21 3, d := r.extractLsb' 14 7, a := r.extractLsb' 7 7, sel := r.extractLsb' 3 4, acq := r.extractLsb' 0 1, p := p }
  else .error .fixedBits

/-- Bits [23:0]: LM capability access: g ad a sel imm. -/
def FmtMC.pack (x : FmtMC) : BitVec 24 :=
  x.g ++ ((0 : BitVec 4) ++ (x.ad ++ (x.a ++ (x.sel ++ x.imm))))

/-- Reads the fields of LM capability access and refuses a bit that the encoding fixes otherwise. -/
def FmtMC.unpack (p : Option Pfx) (r : BitVec 24) : Except DecodeError FmtMC :=
  if r.extractLsb' 17 4 = 0 then
    .ok { g := r.extractLsb' 21 3, ad := r.extractLsb' 14 3, a := r.extractLsb' 7 7, sel := r.extractLsb' 3 4, imm := r.extractLsb' 0 3, p := p }
  else .error .fixedBits

/-- Bits [23:0]: FENCE: g scope. -/
def FmtSC0.pack (x : FmtSC0) : BitVec 24 :=
  x.g ++ ((0 : BitVec 7) ++ ((0 : BitVec 7) ++ ((0 : BitVec 4) ++ x.scope)))

/-- Reads the fields of FENCE and refuses a bit that the encoding fixes otherwise. -/
def FmtSC0.unpack (r : BitVec 24) : Except DecodeError FmtSC0 :=
  if r.extractLsb' 14 7 = 0 ∧ r.extractLsb' 7 7 = 0 ∧ r.extractLsb' 3 4 = 0 then
    .ok { g := r.extractLsb' 21 3, scope := r.extractLsb' 0 3 }
  else .error .fixedBits

/-- Bits [23:0]: WAIT: ld st cp eo. -/
def FmtWT0.pack (x : FmtWT0) : BitVec 24 :=
  x.ld ++ (x.st ++ (x.cp ++ (x.eo ++ (0 : BitVec 4))))

/-- Reads the fields of WAIT and refuses a bit that the encoding fixes otherwise. -/
def FmtWT0.unpack (r : BitVec 24) : Except DecodeError FmtWT0 :=
  if r.extractLsb' 0 4 = 0 then
    .ok { ld := r.extractLsb' 18 6, st := r.extractLsb' 12 6, cp := r.extractLsb' 8 4, eo := r.extractLsb' 4 4 }
  else .error .fixedBits

/-- Bits [23:0]: LB: g off. -/
def FmtB.pack (x : FmtB) : BitVec 24 :=
  x.g ++ x.off

/-- Reads the fields of LB and refuses a bit that the encoding fixes otherwise. -/
def FmtB.unpack (p : Option Pfx) (r : BitVec 24) : Except DecodeError FmtB :=
  .ok { g := r.extractLsb' 21 3, off := r.extractLsb' 0 21, p := p }

/-- Bits [23:0]: LBX, BRA.J: g slot off. -/
def FmtBJ.pack (x : FmtBJ) : BitVec 24 :=
  x.g ++ ((0 : BitVec 3) ++ (x.slot ++ x.off))

/-- Reads the fields of LBX, BRA.J and refuses a bit that the encoding fixes otherwise. -/
def FmtBJ.unpack (p : Option Pfx) (r : BitVec 24) : Except DecodeError FmtBJ :=
  if r.extractLsb' 18 3 = 0 then
    .ok { g := r.extractLsb' 21 3, slot := r.extractLsb' 14 4, off := r.extractLsb' 0 14, p := p }
  else .error .fixedBits

/-- Bits [23:0]: LM, only a memory operand: g a sel. -/
def FmtTB0.pack (x : FmtTB0) : BitVec 24 :=
  x.g ++ ((0 : BitVec 7) ++ (x.a ++ (x.sel ++ (0 : BitVec 3))))

/-- Reads the fields of LM, only a memory operand and refuses a bit that the encoding fixes otherwise. -/
def FmtTB0.unpack (r : BitVec 24) : Except DecodeError FmtTB0 :=
  if r.extractLsb' 14 7 = 0 ∧ r.extractLsb' 0 3 = 0 then
    .ok { g := r.extractLsb' 21 3, a := r.extractLsb' 7 7, sel := r.extractLsb' 3 4 }
  else .error .fixedBits

/-- Bits [23:0]: LL: lc count end. -/
def FmtLP.pack (x : FmtLP) : BitVec 24 :=
  x.lc ++ (x.cnt ++ x.fin)

/-- Reads the fields of LL and refuses a bit that the encoding fixes otherwise. -/
def FmtLP.unpack (p : Option Pfx) (r : BitVec 24) : Except DecodeError FmtLP :=
  .ok { lc := r.extractLsb' 22 2, cnt := r.extractLsb' 15 7, fin := r.extractLsb' 0 15, p := p }

/-- Bits [23:0]: LBX, SPAWN: g n off. -/
def FmtSP.pack (x : FmtSP) : BitVec 24 :=
  x.g ++ (x.n ++ x.off)

/-- Reads the fields of LBX, SPAWN and refuses a bit that the encoding fixes otherwise. -/
def FmtSP.unpack (p : Option Pfx) (r : BitVec 24) : Except DecodeError FmtSP :=
  .ok { g := r.extractLsb' 21 3, n := r.extractLsb' 14 7, off := r.extractLsb' 0 14, p := p }

/-- Bits [23:0]: JOIN: slot, G is 7. -/
def FmtJ0.pack (x : FmtJ0) : BitVec 24 :=
  (7 : BitVec 3) ++ ((0 : BitVec 7) ++ ((0 : BitVec 7) ++ ((0 : BitVec 3) ++ x.slot)))

/-- Reads the fields of JOIN and refuses a bit that the encoding fixes otherwise. -/
def FmtJ0.unpack (r : BitVec 24) : Except DecodeError FmtJ0 :=
  if r.extractLsb' 21 3 = 7 ∧ r.extractLsb' 14 7 = 0 ∧ r.extractLsb' 7 7 = 0 ∧ r.extractLsb' 4 3 = 0 then
    .ok { slot := r.extractLsb' 0 4 }
  else .error .fixedBits

/-- Bits [23:0]: Only a guard. -/
def FmtG.pack (x : FmtG) (fn : BitVec 7) : BitVec 24 :=
  x.g ++ ((0 : BitVec 7) ++ ((0 : BitVec 7) ++ fn))

/-- Reads the fields of Only a guard and refuses a bit that the encoding fixes otherwise. -/
def FmtG.unpack (p : Option Pfx) (r : BitVec 24) : Except DecodeError FmtG :=
  if r.extractLsb' 14 7 = 0 ∧ r.extractLsb' 7 7 = 0 then
    .ok { g := r.extractLsb' 21 3, p := p }
  else .error .fixedBits

/-- Bits [23:0]: SIGN: g cset. -/
def FmtSG0.pack (x : FmtSG0) : BitVec 24 :=
  x.g ++ ((0 : BitVec 7) ++ ((0 : BitVec 7) ++ ((0 : BitVec 4) ++ x.cset)))

/-- Reads the fields of SIGN and refuses a bit that the encoding fixes otherwise. -/
def FmtSG0.unpack (r : BitVec 24) : Except DecodeError FmtSG0 :=
  if r.extractLsb' 14 7 = 0 ∧ r.extractLsb' 7 7 = 0 ∧ r.extractLsb' 3 4 = 0 then
    .ok { g := r.extractLsb' 21 3, cset := r.extractLsb' 0 3 }
  else .error .fixedBits

/-- Bits [23:0]: CVSET: cset count. -/
def FmtCV0.pack (x : FmtCV0) : BitVec 24 :=
  x.cset ++ ((0 : BitVec 10) ++ x.count)

/-- Reads the fields of CVSET and refuses a bit that the encoding fixes otherwise. -/
def FmtCV0.unpack (r : BitVec 24) : Except DecodeError FmtCV0 :=
  if r.extractLsb' 11 10 = 0 then
    .ok { cset := r.extractLsb' 21 3, count := r.extractLsb' 0 11 }
  else .error .fixedBits

/-- Bits [23:0]: S2V: g d n. -/
def FmtSR0.pack (x : FmtSR0) : BitVec 24 :=
  x.g ++ (x.d ++ ((0 : BitVec 7) ++ x.n))

/-- Reads the fields of S2V and refuses a bit that the encoding fixes otherwise. -/
def FmtSR0.unpack (r : BitVec 24) : Except DecodeError FmtSR0 :=
  if r.extractLsb' 7 7 = 0 then
    .ok { g := r.extractLsb' 21 3, d := r.extractLsb' 14 7, n := r.extractLsb' 0 7 }
  else .error .fixedBits

/-- Bits [23:0]: TRAP and SYSC: g n. -/
def FmtTR0.pack (x : FmtTR0) : BitVec 24 :=
  x.g ++ ((0 : BitVec 7) ++ ((0 : BitVec 7) ++ x.n))

/-- Reads the fields of TRAP and SYSC and refuses a bit that the encoding fixes otherwise. -/
def FmtTR0.unpack (r : BitVec 24) : Except DecodeError FmtTR0 :=
  if r.extractLsb' 14 7 = 0 ∧ r.extractLsb' 7 7 = 0 then
    .ok { g := r.extractLsb' 21 3, n := r.extractLsb' 0 7 }
  else .error .fixedBits

/-- Bits [23:0]: UR: cv d a b. -/
def FmtUR.pack (x : FmtUR) : BitVec 24 :=
  x.cv ++ (x.d ++ (x.a ++ (x.b ++ (0 : BitVec 3))))

/-- Reads the fields of UR and refuses a bit that the encoding fixes otherwise. -/
def FmtUR.unpack (p : Option Pfx) (r : BitVec 24) : Except DecodeError FmtUR :=
  if r.extractLsb' 0 3 = 0 then
    .ok { cv := r.extractLsb' 21 3, d := r.extractLsb' 15 6, a := r.extractLsb' 9 6, b := r.extractLsb' 3 6, p := p }
  else .error .fixedBits

/-- Bits [23:0]: UR with F[0]: cv d a b u. -/
def FmtUM.pack (x : FmtUM) : BitVec 24 :=
  x.cv ++ (x.d ++ (x.a ++ (x.b ++ ((0 : BitVec 2) ++ x.u))))

/-- Reads the fields of UR with F[0] and refuses a bit that the encoding fixes otherwise. -/
def FmtUM.unpack (p : Option Pfx) (r : BitVec 24) : Except DecodeError FmtUM :=
  if r.extractLsb' 1 2 = 0 then
    .ok { cv := r.extractLsb' 21 3, d := r.extractLsb' 15 6, a := r.extractLsb' 9 6, b := r.extractLsb' 3 6, u := r.extractLsb' 0 1, p := p }
  else .error .fixedBits

/-- Bits [23:0]: UR with B zero: cv d a. -/
def FmtU2.pack (x : FmtU2) : BitVec 24 :=
  x.cv ++ (x.d ++ (x.a ++ ((0 : BitVec 6) ++ (0 : BitVec 3))))

/-- Reads the fields of UR with B zero and refuses a bit that the encoding fixes otherwise. -/
def FmtU2.unpack (p : Option Pfx) (r : BitVec 24) : Except DecodeError FmtU2 :=
  if r.extractLsb' 3 6 = 0 ∧ r.extractLsb' 0 3 = 0 then
    .ok { cv := r.extractLsb' 21 3, d := r.extractLsb' 15 6, a := r.extractLsb' 9 6, p := p }
  else .error .fixedBits

/-- Bits [23:0]: UR with F: cv d a b f. -/
def FmtUF.pack (x : FmtUF) : BitVec 24 :=
  x.cv ++ (x.d ++ (x.a ++ (x.b ++ x.f)))

/-- Reads the fields of UR with F and refuses a bit that the encoding fixes otherwise. -/
def FmtUF.unpack (p : Option Pfx) (r : BitVec 24) : Except DecodeError FmtUF :=
  .ok { cv := r.extractLsb' 21 3, d := r.extractLsb' 15 6, a := r.extractLsb' 9 6, b := r.extractLsb' 3 6, f := r.extractLsb' 0 3, p := p }

/-- Bits [23:0]: UCNAR: cv bd ba b. -/
def FmtUN.pack (x : FmtUN) : BitVec 24 :=
  x.cv ++ ((0 : BitVec 2) ++ (x.bd ++ ((0 : BitVec 2) ++ (x.ba ++ (x.b ++ (0 : BitVec 3))))))

/-- Reads the fields of UCNAR and refuses a bit that the encoding fixes otherwise. -/
def FmtUN.unpack (p : Option Pfx) (r : BitVec 24) : Except DecodeError FmtUN :=
  if r.extractLsb' 19 2 = 0 ∧ r.extractLsb' 13 2 = 0 ∧ r.extractLsb' 0 3 = 0 then
    .ok { cv := r.extractLsb' 21 3, bd := r.extractLsb' 15 4, ba := r.extractLsb' 9 4, b := r.extractLsb' 3 6, p := p }
  else .error .fixedBits

/-- Bits [23:0]: UI: cv d imm. -/
def FmtUI.pack (x : FmtUI) : BitVec 24 :=
  x.cv ++ (x.d ++ x.imm)

/-- Reads the fields of UI and refuses a bit that the encoding fixes otherwise. -/
def FmtUI.unpack (p : Option Pfx) (r : BitVec 24) : Except DecodeError FmtUI :=
  .ok { cv := r.extractLsb' 21 3, d := r.extractLsb' 15 6, imm := r.extractLsb' 0 15, p := p }

/-- Bits [23:0]: UC load: cv kd bs g. -/
def FmtEL.pack (x : FmtEL) : BitVec 24 :=
  x.cv ++ (x.kd ++ ((0 : BitVec 2) ++ ((0 : BitVec 2) ++ (x.bs ++ ((0 : BitVec 6) ++ ((0 : BitVec 2) ++ x.glob))))))

/-- Reads the fields of UC load and refuses a bit that the encoding fixes otherwise. -/
def FmtEL.unpack (r : BitVec 24) : Except DecodeError FmtEL :=
  if r.extractLsb' 15 2 = 0 ∧ r.extractLsb' 13 2 = 0 ∧ r.extractLsb' 3 6 = 0 ∧ r.extractLsb' 1 2 = 0 then
    .ok { cv := r.extractLsb' 21 3, kd := r.extractLsb' 17 4, bs := r.extractLsb' 9 4, glob := r.extractLsb' 0 1 }
  else .error .fixedBits

/-- Bits [23:0]: UC MMRUN: cv kd acc. -/
def FmtER.pack (x : FmtER) : BitVec 24 :=
  x.cv ++ (x.kd ++ ((0 : BitVec 2) ++ ((0 : BitVec 6) ++ ((0 : BitVec 6) ++ ((0 : BitVec 2) ++ x.acc)))))

/-- Reads the fields of UC MMRUN and refuses a bit that the encoding fixes otherwise. -/
def FmtER.unpack (r : BitVec 24) : Except DecodeError FmtER :=
  if r.extractLsb' 15 2 = 0 ∧ r.extractLsb' 9 6 = 0 ∧ r.extractLsb' 3 6 = 0 ∧ r.extractLsb' 1 2 = 0 then
    .ok { cv := r.extractLsb' 21 3, kd := r.extractLsb' 17 4, acc := r.extractLsb' 0 1 }
  else .error .fixedBits

/-- Bits [23:0]: UC MMOUT: cv kd q act bias. -/
def FmtEO.pack (x : FmtEO) : BitVec 24 :=
  x.cv ++ (x.kd ++ ((0 : BitVec 2) ++ ((0 : BitVec 6) ++ ((0 : BitVec 6) ++ (x.q ++ (x.act ++ x.bias))))))

/-- Reads the fields of UC MMOUT and refuses a bit that the encoding fixes otherwise. -/
def FmtEO.unpack (r : BitVec 24) : Except DecodeError FmtEO :=
  if r.extractLsb' 15 2 = 0 ∧ r.extractLsb' 9 6 = 0 ∧ r.extractLsb' 3 6 = 0 then
    .ok { cv := r.extractLsb' 21 3, kd := r.extractLsb' 17 4, q := r.extractLsb' 2 1, act := r.extractLsb' 1 1, bias := r.extractLsb' 0 1 }
  else .error .fixedBits

/-- Bits [23:0]: UC with a source: cv kd bs bar. -/
def FmtXS.pack (x : FmtXS) (fn : BitVec 2) : BitVec 24 :=
  x.cv ++ (x.kd ++ ((0 : BitVec 2) ++ ((0 : BitVec 2) ++ (x.bs ++ ((0 : BitVec 6) ++ (x.bar ++ fn))))))

/-- Reads the fields of UC with a source and refuses a bit that the encoding fixes otherwise. -/
def FmtXS.unpack (r : BitVec 24) : Except DecodeError FmtXS :=
  if r.extractLsb' 15 2 = 0 ∧ r.extractLsb' 13 2 = 0 ∧ r.extractLsb' 3 6 = 0 then
    .ok { cv := r.extractLsb' 21 3, kd := r.extractLsb' 17 4, bs := r.extractLsb' 9 4, bar := r.extractLsb' 2 1 }
  else .error .fixedBits

/-- Bits [23:0]: UC with a destination: cv kd bd bar. -/
def FmtXD.pack (x : FmtXD) (fn : BitVec 2) : BitVec 24 :=
  x.cv ++ (x.kd ++ ((0 : BitVec 2) ++ ((0 : BitVec 6) ++ ((0 : BitVec 2) ++ (x.bd ++ (x.bar ++ fn))))))

/-- Reads the fields of UC with a destination and refuses a bit that the encoding fixes otherwise. -/
def FmtXD.unpack (r : BitVec 24) : Except DecodeError FmtXD :=
  if r.extractLsb' 15 2 = 0 ∧ r.extractLsb' 9 6 = 0 ∧ r.extractLsb' 7 2 = 0 then
    .ok { cv := r.extractLsb' 21 3, kd := r.extractLsb' 17 4, bd := r.extractLsb' 3 4, bar := r.extractLsb' 2 1 }
  else .error .fixedBits

/-- Bits [23:0]: UC with both: cv kd bs bd bar. -/
def FmtXB.pack (x : FmtXB) (fn : BitVec 2) : BitVec 24 :=
  x.cv ++ (x.kd ++ ((0 : BitVec 2) ++ ((0 : BitVec 2) ++ (x.bs ++ ((0 : BitVec 2) ++ (x.bd ++ (x.bar ++ fn)))))))

/-- Reads the fields of UC with both and refuses a bit that the encoding fixes otherwise. -/
def FmtXB.unpack (r : BitVec 24) : Except DecodeError FmtXB :=
  if r.extractLsb' 15 2 = 0 ∧ r.extractLsb' 13 2 = 0 ∧ r.extractLsb' 7 2 = 0 then
    .ok { cv := r.extractLsb' 21 3, kd := r.extractLsb' 17 4, bs := r.extractLsb' 9 4, bd := r.extractLsb' 3 4, bar := r.extractLsb' 2 1 }
  else .error .fixedBits

/-- Bits [23:0]: UC COLL: cv kd bar. -/
def FmtXN.pack (x : FmtXN) : BitVec 24 :=
  x.cv ++ (x.kd ++ ((0 : BitVec 2) ++ ((0 : BitVec 6) ++ ((0 : BitVec 6) ++ (x.bar ++ (0 : BitVec 2))))))

/-- Reads the fields of UC COLL and refuses a bit that the encoding fixes otherwise. -/
def FmtXN.unpack (r : BitVec 24) : Except DecodeError FmtXN :=
  if r.extractLsb' 15 2 = 0 ∧ r.extractLsb' 9 6 = 0 ∧ r.extractLsb' 3 6 = 0 ∧ r.extractLsb' 0 2 = 0 then
    .ok { cv := r.extractLsb' 21 3, kd := r.extractLsb' 17 4, bar := r.extractLsb' 2 1 }
  else .error .fixedBits

/-- Bits [23:0]: UC BARINIT: cv kd. -/
def FmtXI.pack (x : FmtXI) : BitVec 24 :=
  x.cv ++ (x.kd ++ ((0 : BitVec 2) ++ ((0 : BitVec 6) ++ ((0 : BitVec 6) ++ (0 : BitVec 3)))))

/-- Reads the fields of UC BARINIT and refuses a bit that the encoding fixes otherwise. -/
def FmtXI.unpack (r : BitVec 24) : Except DecodeError FmtXI :=
  if r.extractLsb' 15 2 = 0 ∧ r.extractLsb' 9 6 = 0 ∧ r.extractLsb' 3 6 = 0 ∧ r.extractLsb' 0 3 = 0 then
    .ok { cv := r.extractLsb' 21 3, kd := r.extractLsb' 17 4 }
  else .error .fixedBits

/-- Bits [23:0]: UC SOW: cv kd bs. -/
def FmtXW.pack (x : FmtXW) : BitVec 24 :=
  x.cv ++ (x.kd ++ ((0 : BitVec 2) ++ ((0 : BitVec 2) ++ (x.bs ++ ((0 : BitVec 6) ++ (0 : BitVec 3))))))

/-- Reads the fields of UC SOW and refuses a bit that the encoding fixes otherwise. -/
def FmtXW.unpack (r : BitVec 24) : Except DecodeError FmtXW :=
  if r.extractLsb' 15 2 = 0 ∧ r.extractLsb' 13 2 = 0 ∧ r.extractLsb' 3 6 = 0 ∧ r.extractLsb' 0 3 = 0 then
    .ok { cv := r.extractLsb' 21 3, kd := r.extractLsb' 17 4, bs := r.extractLsb' 9 4 }
  else .error .fixedBits

/-- Bits [23:0]: LDLAYER: cv bd a bs rt. -/
def FmtLY.pack (x : FmtLY) : BitVec 24 :=
  x.cv ++ ((0 : BitVec 2) ++ (x.bd ++ (x.a ++ ((0 : BitVec 2) ++ (x.bs ++ ((0 : BitVec 2) ++ x.rt))))))

/-- Reads the fields of LDLAYER and refuses a bit that the encoding fixes otherwise. -/
def FmtLY.unpack (r : BitVec 24) : Except DecodeError FmtLY :=
  if r.extractLsb' 19 2 = 0 ∧ r.extractLsb' 7 2 = 0 ∧ r.extractLsb' 1 2 = 0 then
    .ok { cv := r.extractLsb' 21 3, bd := r.extractLsb' 15 4, a := r.extractLsb' 9 6, bs := r.extractLsb' 3 4, rt := r.extractLsb' 0 1 }
  else .error .fixedBits

/-- Bits [23:0]: RELLAYER: cv bd a bs. -/
def FmtLZ.pack (x : FmtLZ) : BitVec 24 :=
  x.cv ++ ((0 : BitVec 2) ++ (x.bd ++ (x.a ++ ((0 : BitVec 2) ++ (x.bs ++ (0 : BitVec 3))))))

/-- Reads the fields of RELLAYER and refuses a bit that the encoding fixes otherwise. -/
def FmtLZ.unpack (r : BitVec 24) : Except DecodeError FmtLZ :=
  if r.extractLsb' 19 2 = 0 ∧ r.extractLsb' 7 2 = 0 ∧ r.extractLsb' 0 3 = 0 then
    .ok { cv := r.extractLsb' 21 3, bd := r.extractLsb' 15 4, a := r.extractLsb' 9 6, bs := r.extractLsb' 3 4 }
  else .error .fixedBits

/-- Bits [23:0]: MINT: cv bd ka t. -/
def FmtMI.pack (x : FmtMI) : BitVec 24 :=
  x.cv ++ ((0 : BitVec 2) ++ (x.bd ++ (x.ka ++ ((0 : BitVec 2) ++ ((0 : BitVec 6) ++ ((0 : BitVec 2) ++ x.t))))))

/-- Reads the fields of MINT and refuses a bit that the encoding fixes otherwise. -/
def FmtMI.unpack (r : BitVec 24) : Except DecodeError FmtMI :=
  if r.extractLsb' 19 2 = 0 ∧ r.extractLsb' 9 2 = 0 ∧ r.extractLsb' 3 6 = 0 ∧ r.extractLsb' 1 2 = 0 then
    .ok { cv := r.extractLsb' 21 3, bd := r.extractLsb' 15 4, ka := r.extractLsb' 11 4, t := r.extractLsb' 0 1 }
  else .error .fixedBits

/-- Bits [23:0]: SEAL: cv d bs. -/
def FmtSL.pack (x : FmtSL) : BitVec 24 :=
  x.cv ++ (x.d ++ ((0 : BitVec 6) ++ ((0 : BitVec 2) ++ (x.bs ++ (0 : BitVec 3)))))

/-- Reads the fields of SEAL and refuses a bit that the encoding fixes otherwise. -/
def FmtSL.unpack (r : BitVec 24) : Except DecodeError FmtSL :=
  if r.extractLsb' 9 6 = 0 ∧ r.extractLsb' 7 2 = 0 ∧ r.extractLsb' 0 3 = 0 then
    .ok { cv := r.extractLsb' 21 3, d := r.extractLsb' 15 6, bs := r.extractLsb' 3 4 }
  else .error .fixedBits

/-- Bits [23:0]: OBJINV: cv d a. -/
def FmtOB.pack (x : FmtOB) : BitVec 24 :=
  x.cv ++ (x.d ++ (x.a ++ ((0 : BitVec 6) ++ (0 : BitVec 3))))

/-- Reads the fields of OBJINV and refuses a bit that the encoding fixes otherwise. -/
def FmtOB.unpack (r : BitVec 24) : Except DecodeError FmtOB :=
  if r.extractLsb' 3 6 = 0 ∧ r.extractLsb' 0 3 = 0 then
    .ok { cv := r.extractLsb' 21 3, d := r.extractLsb' 15 6, a := r.extractLsb' 9 6 }
  else .error .fixedBits

/-- Bits [23:0]: MIGR, UNPUBL: cv d ka. -/
def FmtOQ.pack (x : FmtOQ) : BitVec 24 :=
  x.cv ++ (x.d ++ (x.ka ++ ((0 : BitVec 2) ++ ((0 : BitVec 6) ++ (0 : BitVec 3)))))

/-- Reads the fields of MIGR, UNPUBL and refuses a bit that the encoding fixes otherwise. -/
def FmtOQ.unpack (r : BitVec 24) : Except DecodeError FmtOQ :=
  if r.extractLsb' 9 2 = 0 ∧ r.extractLsb' 3 6 = 0 ∧ r.extractLsb' 0 3 = 0 then
    .ok { cv := r.extractLsb' 21 3, d := r.extractLsb' 15 6, ka := r.extractLsb' 11 4 }
  else .error .fixedBits

/-- Bits [23:0]: BIAS: cv d kp. -/
def FmtOE.pack (x : FmtOE) (fn : BitVec 3) : BitVec 24 :=
  x.cv ++ (x.d ++ (x.kp ++ ((0 : BitVec 1) ++ ((0 : BitVec 6) ++ fn))))

/-- Reads the fields of BIAS and refuses a bit that the encoding fixes otherwise. -/
def FmtOE.unpack (r : BitVec 24) : Except DecodeError FmtOE :=
  if r.extractLsb' 9 1 = 0 ∧ r.extractLsb' 3 6 = 0 then
    .ok { cv := r.extractLsb' 21 3, d := r.extractLsb' 15 6, kp := r.extractLsb' 10 5 }
  else .error .fixedBits

/-- Gives the prefix to a reader that needs one. -/
def withPfx {α : Type} (p : Option Pfx) (f : Pfx → Except DecodeError α) : Except DecodeError α :=
  match p with
  | some q => f q
  | none => .error .prefixMissing

/-- Refuses a prefix. -/
def noPfx {α : Type} (p : Option Pfx) (f : Except DecodeError α) : Except DecodeError α :=
  match p with
  | some _ => .error .prefixRefused
  | none => f

/-- The instructions of OP 0x22 of the lane set, by function code. -/
def decodeGroup22 (p : Option Pfx) (r : BitVec 24) : Except DecodeError Instr :=
  match (r.extractLsb' 0 7).toNat with
  | 0 => (FmtU.unpack p r).map .iabs
  | 1 => (FmtU.unpack p r).map .ineg
  | 2 => (FmtU.unpack p r).map .not
  | 3 => (FmtU.unpack p r).map .popc
  | 4 => (FmtU.unpack p r).map .clz
  | 5 => (FmtU.unpack p r).map .brev
  | 6 => (FmtU.unpack p r).map .mov
  | _ => .error .unassignedFunction

/-- The instructions of OP 0x24 of the lane set, by function code. -/
def decodeGroup24 (p : Option Pfx) (r : BitVec 24) : Except DecodeError Instr :=
  match (r.extractLsb' 3 4).toNat with
  | 0 => noPfx p ((FmtP30.unpack r).map .pand)
  | 1 => noPfx p ((FmtP30.unpack r).map .por)
  | 2 => noPfx p ((FmtP30.unpack r).map .pxor)
  | 3 => noPfx p ((FmtP20.unpack r).map .pnot)
  | _ => .error .unassignedFunction

/-- The instructions of OP 0x25 of the lane set, by function code. -/
def decodeGroup25 (p : Option Pfx) (r : BitVec 24) : Except DecodeError Instr :=
  match (r.extractLsb' 0 7).toNat with
  | 0 => (FmtD1.unpack p r).map .p2v
  | 1 => (FmtA1.unpack p r).map .v2p
  | _ => .error .unassignedFunction

/-- The instructions of OP 0x2C of the lane set, by function code. -/
def decodeGroup2C (p : Option Pfx) (r : BitVec 24) : Except DecodeError Instr :=
  match (r.extractLsb' 0 7).toNat with
  | 0 => (FmtCQ.unpack p r).map .cbase
  | 1 => (FmtCQ.unpack p r).map .clen
  | 2 => (FmtCQ.unpack p r).map .cvalid
  | _ => .error .unassignedFunction

/-- The instructions of OP 0x2F of the lane set, by function code. -/
def decodeGroup2F (p : Option Pfx) (r : BitVec 24) : Except DecodeError Instr :=
  match (r.extractLsb' 0 7).toNat with
  | 0 => (FmtE1.unpack p r).map .eret
  | 1 => (FmtN.unpack p r).map .halt
  | 2 => (FmtN.unpack p r).map .dbgb
  | _ => .error .unassignedFunction

/-- The instructions of OP 0x3F of the lane set, by function code. -/
def decodeGroup3F (p : Option Pfx) (r : BitVec 24) : Except DecodeError Instr :=
  match (r.extractLsb' 0 7).toNat with
  | 0 => (FmtU.unpack p r).map .fclass
  | 1 => (FmtU.unpack p r).map .frnd
  | _ => .error .unassignedFunction

/-- The instructions of OP 0x40 of the lane set, by function code. -/
def decodeGroup40 (p : Option Pfx) (r : BitVec 24) : Except DecodeError Instr :=
  match (r.extractLsb' 0 7).toNat with
  | 0 => noPfx p ((FmtU0.unpack r).map .exp2)
  | 1 => noPfx p ((FmtU0.unpack r).map .log2)
  | 2 => noPfx p ((FmtU0.unpack r).map .rcp)
  | 3 => noPfx p ((FmtU0.unpack r).map .rsq)
  | 4 => noPfx p ((FmtU0.unpack r).map .sqrt)
  | 5 => noPfx p ((FmtU0.unpack r).map .sin)
  | 6 => noPfx p ((FmtU0.unpack r).map .cos)
  | 7 => noPfx p ((FmtU0.unpack r).map .tanh)
  | 8 => noPfx p ((FmtU0.unpack r).map .sigm)
  | _ => .error .unassignedFunction

/-- The instructions of OP 0x45 of the lane set, by function code. -/
def decodeGroup45 (p : Option Pfx) (r : BitVec 24) : Except DecodeError Instr :=
  match (r.extractLsb' 0 7).toNat with
  | 0 => noPfx p ((FmtV0.unpack r).map .voteAny)
  | 1 => noPfx p ((FmtV0.unpack r).map .voteAll)
  | 2 => noPfx p ((FmtV0.unpack r).map .voteBal)
  | _ => .error .unassignedFunction

/-- The instructions of OP 0x46 of the lane set, by function code. -/
def decodeGroup46 (p : Option Pfx) (r : BitVec 24) : Except DecodeError Instr :=
  match (r.extractLsb' 0 7).toNat with
  | 0 => noPfx p ((FmtU0.unpack r).map .lredAdd)
  | 1 => noPfx p ((FmtU0.unpack r).map .lredMin)
  | 2 => noPfx p ((FmtU0.unpack r).map .lredMax)
  | 3 => noPfx p ((FmtU0.unpack r).map .lredAnd)
  | 4 => noPfx p ((FmtU0.unpack r).map .lredOr)
  | 5 => noPfx p ((FmtU0.unpack r).map .lredXor)
  | 6 => noPfx p ((FmtU0.unpack r).map .lredMinU)
  | 7 => noPfx p ((FmtU0.unpack r).map .lredMaxU)
  | _ => .error .unassignedFunction

/-- The instructions of OP 0x47 of the lane set, by function code. -/
def decodeGroup47 (p : Option Pfx) (r : BitVec 24) : Except DecodeError Instr :=
  match (r.extractLsb' 0 7).toNat with
  | 0 => noPfx p ((FmtU0.unpack r).map .matchLanes)
  | _ => .error .unassignedFunction

/-- The instructions of OP 0x63 of the lane set, by function code. -/
def decodeGroup63 (p : Option Pfx) (r : BitVec 24) : Except DecodeError Instr :=
  match (r.extractLsb' 0 3).toNat with
  | 0 => (FmtMN.unpack p r).map .atomAdd
  | 1 => (FmtMN.unpack p r).map .atomMin
  | 2 => (FmtMN.unpack p r).map .atomMax
  | 3 => (FmtMN.unpack p r).map .atomAnd
  | 4 => (FmtMN.unpack p r).map .atomOr
  | 5 => (FmtMN.unpack p r).map .atomXor
  | 6 => (FmtMN.unpack p r).map .atomExch
  | 7 => (FmtMN.unpack p r).map .atomCas
  | _ => .error .unassignedFunction

/-- The instructions of OP 0x64 of the lane set, by function code. -/
def decodeGroup64 (p : Option Pfx) (r : BitVec 24) : Except DecodeError Instr :=
  match (r.extractLsb' 0 3).toNat with
  | 0 => (FmtMN.unpack p r).map .atomInc
  | _ => .error .unassignedFunction

/-- The instructions of OP 0x65 of the lane set, by function code. -/
def decodeGroup65 (p : Option Pfx) (r : BitVec 24) : Except DecodeError Instr :=
  match (r.extractLsb' 0 3).toNat with
  | 0 => (FmtMN.unpack p r).map .redAdd
  | 1 => (FmtMN.unpack p r).map .redMin
  | 2 => (FmtMN.unpack p r).map .redMax
  | 3 => (FmtMN.unpack p r).map .redAnd
  | 4 => (FmtMN.unpack p r).map .redOr
  | 5 => (FmtMN.unpack p r).map .redXor
  | _ => .error .unassignedFunction

/-- The instructions of OP 0x67 of the lane set, by function code. -/
def decodeGroup67 (p : Option Pfx) (r : BitVec 24) : Except DecodeError Instr :=
  match (r.extractLsb' 0 3).toNat with
  | 0 => noPfx p ((FmtMN0.unpack r).map .waitaEq)
  | 1 => noPfx p ((FmtMN0.unpack r).map .waitaNe)
  | 2 => noPfx p ((FmtMN0.unpack r).map .waitaGe)
  | _ => .error .unassignedFunction

/-- The instructions of OP 0x76 of the lane set, by function code. -/
def decodeGroup76 (p : Option Pfx) (r : BitVec 24) : Except DecodeError Instr :=
  match (r.extractLsb' 0 7).toNat with
  | 0 => (FmtG.unpack p r).map .nop
  | 1 => (FmtA1.unpack p r).map .ret
  | 2 => (FmtG.unpack p r).map .exit
  | 3 => (FmtN.unpack p r).map .yield
  | 4 => (FmtN.unpack p r).map .bind
  | 5 => (FmtN.unpack p r).map .unbind
  | 6 => (FmtG.unpack p r).map .pmark
  | _ => .error .unassignedFunction

/-- The lane words (R68, R69). -/
def decodeLane (p : Option Pfx) (op : Nat) (r : BitVec 24) : Except DecodeError Instr :=
  match op with
  | 0x01 => (FmtR.unpack p r).map .iadd
  | 0x02 => (FmtR.unpack p r).map .isub
  | 0x03 => (FmtR.unpack p r).map .imul
  | 0x04 => (FmtR.unpack p r).map .imulh
  | 0x05 => (FmtR.unpack p r).map .imulhU
  | 0x06 => (FmtR.unpack p r).map .imad
  | 0x07 => (FmtR.unpack p r).map .idiv
  | 0x08 => (FmtR.unpack p r).map .idivU
  | 0x09 => (FmtR.unpack p r).map .imin
  | 0x0A => (FmtR.unpack p r).map .iminU
  | 0x0B => (FmtR.unpack p r).map .imax
  | 0x0C => (FmtR.unpack p r).map .imaxU
  | 0x0D => (FmtR.unpack p r).map .iaddc
  | 0x0E => (FmtR.unpack p r).map .isubb
  | 0x0F => (FmtR.unpack p r).map .and
  | 0x10 => (FmtR.unpack p r).map .or
  | 0x11 => (FmtR.unpack p r).map .xor
  | 0x12 => (FmtR.unpack p r).map .shl
  | 0x13 => (FmtR.unpack p r).map .shr
  | 0x14 => (FmtR.unpack p r).map .sar
  | 0x15 => (FmtR.unpack p r).map .rol
  | 0x16 => (FmtR.unpack p r).map .bfx
  | 0x17 => (FmtR.unpack p r).map .bfi
  | 0x18 => (FmtR.unpack p r).map .isel
  | 0x19 => (FmtC.unpack p r).map .icmp
  | 0x1A => (FmtR.unpack p r).map .iaddLi
  | 0x1B => (FmtR.unpack p r).map .andLi
  | 0x1C => (FmtR.unpack p r).map .orLi
  | 0x1D => (FmtR.unpack p r).map .xorLi
  | 0x1E => (FmtR.unpack p r).map .shlLi
  | 0x1F => (FmtR.unpack p r).map .shrLi
  | 0x20 => (FmtR.unpack p r).map .sarLi
  | 0x21 => (FmtC.unpack p r).map .icmpLi
  | 0x22 => decodeGroup22 p r
  | 0x23 => (FmtW17.unpack p r).map .movi
  | 0x24 => decodeGroup24 p r
  | 0x25 => decodeGroup25 p r
  | 0x26 => (FmtR.unpack p r).map .bara
  | 0x27 => (FmtRW.unpack p r).map .barw
  | 0x28 => (FmtR.unpack p r).map .bart
  | 0x29 => (FmtCN.unpack p r).map .cnarrow
  | 0x2A => (FmtCN.unpack p r).map .cright
  | 0x2B => (FmtCM.unpack p r).map .cmov
  | 0x2C => decodeGroup2C p r
  | 0x2D => (FmtMF.unpack p r).map .mfsr
  | 0x2E => (FmtMT.unpack p r).map .mtsr
  | 0x2F => decodeGroup2F p r
  | 0x30 => (FmtR.unpack p r).map .fadd
  | 0x31 => (FmtR.unpack p r).map .fsub
  | 0x32 => (FmtR.unpack p r).map .fmul
  | 0x33 => (FmtR.unpack p r).map .ffma
  | 0x34 => (FmtR.unpack p r).map .fmin
  | 0x35 => (FmtR.unpack p r).map .fmax
  | 0x36 => noPfx p ((FmtC0.unpack r).map .fcmp)
  | 0x37 => (FmtR.unpack p r).map .dot4
  | 0x38 => (FmtR.unpack p r).map .fdot2
  | 0x39 => withPfx p fun q => (FmtRP.unpack q r).map .qdotE2m1
  | 0x3A => withPfx p fun q => (FmtRP.unpack q r).map .qdotInt4
  | 0x3B => withPfx p fun q => (FmtRP.unpack q r).map .qdotUint4
  | 0x3C => (FmtR.unpack p r).map .fpack
  | 0x3D => (FmtFE.unpack p r).map .funpk
  | 0x3E => (FmtFE.unpack p r).map .fcvt
  | 0x3F => decodeGroup3F p r
  | 0x40 => decodeGroup40 p r
  | 0x41 => noPfx p ((FmtR0.unpack r).map .shflIdx)
  | 0x42 => noPfx p ((FmtR0.unpack r).map .shflUp)
  | 0x43 => noPfx p ((FmtR0.unpack r).map .shflDn)
  | 0x44 => noPfx p ((FmtR0.unpack r).map .shflXor)
  | 0x45 => decodeGroup45 p r
  | 0x46 => decodeGroup46 p r
  | 0x47 => decodeGroup47 p r
  | 0x48 => (FmtM.unpack p r).map .ld8
  | 0x49 => (FmtM.unpack p r).map .ld16
  | 0x4A => (FmtM.unpack p r).map .ld32
  | 0x4B => (FmtM.unpack p r).map .ld64
  | 0x4C => (FmtM.unpack p r).map .ld128
  | 0x4D => (FmtM.unpack p r).map .ld8S
  | 0x4E => (FmtM.unpack p r).map .ld16S
  | 0x4F => (FmtM.unpack p r).map .st8
  | 0x50 => (FmtM.unpack p r).map .st16
  | 0x51 => (FmtM.unpack p r).map .st32
  | 0x52 => (FmtM.unpack p r).map .st64
  | 0x53 => (FmtM.unpack p r).map .st128
  | 0x54 => (FmtMS.unpack p r).map .lds8
  | 0x55 => (FmtMS.unpack p r).map .lds16
  | 0x56 => (FmtMS.unpack p r).map .lds32
  | 0x57 => (FmtMS.unpack p r).map .lds64
  | 0x58 => (FmtMS.unpack p r).map .lds128
  | 0x59 => (FmtMS.unpack p r).map .lds8S
  | 0x5A => (FmtMS.unpack p r).map .lds16S
  | 0x5B => (FmtMS.unpack p r).map .sts8
  | 0x5C => (FmtMS.unpack p r).map .sts16
  | 0x5D => (FmtMS.unpack p r).map .sts32
  | 0x5E => (FmtMS.unpack p r).map .sts64
  | 0x5F => (FmtMS.unpack p r).map .sts128
  | 0x60 => (FmtM.unpack p r).map .lda
  | 0x61 => (FmtM.unpack p r).map .str
  | 0x62 => noPfx p ((FmtM0.unpack r).map .ldk)
  | 0x63 => decodeGroup63 p r
  | 0x64 => decodeGroup64 p r
  | 0x65 => decodeGroup65 p r
  | 0x66 => (FmtM.unpack p r).map .pref
  | 0x67 => decodeGroup67 p r
  | 0x68 => withPfx p fun q => (FmtMQ.unpack q r).map .ldlat
  | 0x69 => withPfx p fun q => (FmtMQ.unpack q r).map .ljoin
  | 0x6A => noPfx p ((FmtM0.unpack r).map .publ)
  | 0x6B => (FmtMC.unpack p r).map .cld
  | 0x6C => (FmtMC.unpack p r).map .cst
  | 0x6D => noPfx p ((FmtSC0.unpack r).map .fence)
  | 0x6E => noPfx p ((FmtWT0.unpack r).map .wait)
  | 0x6F => (FmtB.unpack p r).map .bra
  | 0x70 => (FmtBJ.unpack p r).map .braJ
  | 0x71 => noPfx p ((FmtTB0.unpack r).map .brx)
  | 0x72 => (FmtB.unpack p r).map .call
  | 0x73 => (FmtLP.unpack p r).map .loop
  | 0x74 => (FmtSP.unpack p r).map .spawn
  | 0x75 => noPfx p ((FmtJ0.unpack r).map .join)
  | 0x76 => decodeGroup76 p r
  | 0x77 => noPfx p ((FmtSG0.unpack r).map .sign)
  | 0x78 => noPfx p ((FmtCV0.unpack r).map .cvset)
  | 0x79 => noPfx p ((FmtSR0.unpack r).map .s2v)
  | 0x7A => noPfx p ((FmtTB0.unpack r).map .pdlog)
  | 0x7B => noPfx p ((FmtTR0.unpack r).map .trap)
  | 0x7C => noPfx p ((FmtTR0.unpack r).map .sysc)
  | _ => .error .unassignedOp

/-- The instructions of OP 0x28 of the uniform set, by function code. -/
def decodeGroupA8 (p : Option Pfx) (r : BitVec 24) : Except DecodeError Instr :=
  match (r.extractLsb' 0 2).toNat with
  | 0 => noPfx p ((FmtXS.unpack r).map .copyGs)
  | 1 => noPfx p ((FmtXD.unpack r).map .copySg)
  | 2 => noPfx p ((FmtXB.unpack r).map .copyGg)
  | _ => .error .unassignedFunction

/-- The instructions of OP 0x29 of the uniform set, by function code. -/
def decodeGroupA9 (p : Option Pfx) (r : BitVec 24) : Except DecodeError Instr :=
  match (r.extractLsb' 0 2).toNat with
  | 0 => noPfx p ((FmtXS.unpack r).map .tcopyGs)
  | 1 => noPfx p ((FmtXD.unpack r).map .tcopySg)
  | _ => .error .unassignedFunction

/-- The instructions of OP 0x2A of the uniform set, by function code. -/
def decodeGroupAA (p : Option Pfx) (r : BitVec 24) : Except DecodeError Instr :=
  match (r.extractLsb' 0 2).toNat with
  | 0 => noPfx p ((FmtXS.unpack r).map .copypIn)
  | 1 => noPfx p ((FmtXD.unpack r).map .copypOut)
  | _ => .error .unassignedFunction

/-- The instructions of OP 0x3C of the uniform set, by function code. -/
def decodeGroupBC (p : Option Pfx) (r : BitVec 24) : Except DecodeError Instr :=
  match (r.extractLsb' 0 3).toNat with
  | 0 => noPfx p ((FmtOE.unpack r).map .biasD)
  | 1 => noPfx p ((FmtOE.unpack r).map .biasH)
  | _ => .error .unassignedFunction

/-- The uniform words (R70). -/
def decodeUniform (p : Option Pfx) (op : Nat) (r : BitVec 24) : Except DecodeError Instr :=
  match op with
  | 0x01 => (FmtUR.unpack p r).map .uadd
  | 0x02 => (FmtUR.unpack p r).map .usub
  | 0x03 => (FmtUR.unpack p r).map .umul
  | 0x04 => (FmtUR.unpack p r).map .umad
  | 0x05 => (FmtUR.unpack p r).map .uand
  | 0x06 => (FmtUR.unpack p r).map .uor
  | 0x07 => (FmtUR.unpack p r).map .uxor
  | 0x08 => (FmtUR.unpack p r).map .ushl
  | 0x09 => (FmtUR.unpack p r).map .ushr
  | 0x0A => (FmtUM.unpack p r).map .umin
  | 0x0B => (FmtUM.unpack p r).map .umax
  | 0x0C => (FmtU2.unpack p r).map .umov
  | 0x0D => (FmtUF.unpack p r).map .ucmp
  | 0x0E => (FmtUR.unpack p r).map .usel
  | 0x0F => (FmtUN.unpack p r).map .ucnar
  | 0x10 => (FmtUI.unpack p r).map .uaddUi
  | 0x11 => (FmtUI.unpack p r).map .uandUi
  | 0x12 => (FmtUI.unpack p r).map .uorUi
  | 0x13 => (FmtUI.unpack p r).map .ushlUi
  | 0x14 => (FmtUI.unpack p r).map .ushrUi
  | 0x15 => (FmtUI.unpack p r).map .umovi
  | 0x20 => noPfx p ((FmtEL.unpack r).map .sbld)
  | 0x21 => noPfx p ((FmtER.unpack r).map .mmrun)
  | 0x22 => noPfx p ((FmtEO.unpack r).map .mmout)
  | 0x23 => noPfx p ((FmtEL.unpack r).map .mtab)
  | 0x24 => noPfx p ((FmtEL.unpack r).map .mbias)
  | 0x28 => decodeGroupA8 p r
  | 0x29 => decodeGroupA9 p r
  | 0x2A => decodeGroupAA p r
  | 0x2B => noPfx p ((FmtXN.unpack r).map .coll)
  | 0x2C => noPfx p ((FmtXI.unpack r).map .barinit)
  | 0x30 => noPfx p ((FmtXW.unpack r).map .sow)
  | 0x31 => noPfx p ((FmtLY.unpack r).map .ldlayer)
  | 0x32 => noPfx p ((FmtLZ.unpack r).map .rellayer)
  | 0x38 => noPfx p ((FmtMI.unpack r).map .mint)
  | 0x39 => noPfx p ((FmtSL.unpack r).map .seal)
  | 0x3A => noPfx p ((FmtOB.unpack r).map .objinv)
  | 0x3B => noPfx p ((FmtOQ.unpack r).map .migr)
  | 0x3C => decodeGroupBC p r
  | 0x3D => noPfx p ((FmtOQ.unpack r).map .unpubl)
  | _ => .error .unassignedOp

/-- The payload of an XP word (R65). -/
def Pfx.unpack (r : BitVec 24) : Pfx :=
  { ty := r.extractLsb' 19 5, rm := r.extractLsb' 16 3, sat := r.extractLsb' 15 1, c := r.extractLsb' 8 7,
    immx := r.extractLsb' 0 8 }

/-- Bits [23:0] of an XP word (R65). -/
def Pfx.pack (p : Pfx) : BitVec 24 :=
  p.ty ++ (p.rm ++ (p.sat ++ (p.c ++ p.immx)))

/-- Whether a word is an XP word of either set (R65). -/
def isPfxWord (w : BitVec 32) : Bool :=
  w.extractLsb' 24 7 == 0x7E

/-- One word, with the prefix that stands before it. -/
def decodeWord (p : Option Pfx) (w : BitVec 32) : Except DecodeError Instr :=
  if w.extractLsb' 31 1 = 0 then decodeLane p (w.extractLsb' 24 7).toNat (w.extractLsb' 0 24)
  else decodeUniform p (w.extractLsb' 24 7).toNat (w.extractLsb' 0 24)

/-- A word, or a prefix and the word it extends (R57, R65, R66): the instruction and its size in bytes. -/
def decodeWords (w0 w1 : BitVec 32) : Except DecodeError (Instr × Nat) :=
  if isPfxWord w0 then
    if isPfxWord w1 then .error .prefixTwice
    else if w0.extractLsb' 31 1 = w1.extractLsb' 31 1 then
      (decodeWord (some (.unpack (w0.extractLsb' 0 24))) w1).map (·, 8)
    else .error .prefixOtherSet
  else (decodeWord none w0).map (·, 4)

/-- A little-endian word (R57). -/
def wordOfBytes (b0 b1 b2 b3 : Byte) : BitVec 32 :=
  b3 ++ (b2 ++ (b1 ++ b0))

/-- The four bytes of a word, lowest address first (R57). -/
def bytesOfWord (w : BitVec 32) : List Byte :=
  [w.extractLsb' 0 8, w.extractLsb' 8 8, w.extractLsb' 16 8, w.extractLsb' 24 8]

/-- The first instruction of a list of bytes, its size in bytes and the bytes after it. -/
def decode (bytes : List Byte) : Except DecodeError (Instr × Nat × List Byte) :=
  match bytes with
  | b0 :: b1 :: b2 :: b3 :: rest =>
    if isPfxWord (wordOfBytes b0 b1 b2 b3) then
      match rest with
      | c0 :: c1 :: c2 :: c3 :: rest' =>
        (decodeWords (wordOfBytes b0 b1 b2 b3) (wordOfBytes c0 c1 c2 c3)).map fun (i, n) => (i, n, rest')
      | _ => .error .short
    else (decodeWords (wordOfBytes b0 b1 b2 b3) 0).map fun (i, n) => (i, n, rest)
  | _ => .error .short

/-- The XP word before a word of the lane set (0) or the uniform set (1). -/
def pfxWords (top : BitVec 1) (p : Option Pfx) : List (BitVec 32) :=
  match p with
  | some q => [top ++ ((0x7E : BitVec 7) ++ q.pack)]
  | none => []

/-- A word from its OP with bit 31, and its bits [23:0]. -/
def opWord (op : BitVec 8) (r : BitVec 24) : BitVec 32 :=
  op ++ r

/-- The words of an instruction, from the encoding tables (R57 to R71). The steps that are no instruction words have none. -/
def encode (i : Instr) : List (BitVec 32) :=
  match i with
  | .iadd x => pfxWords 0 x.p ++ [opWord 0x01 x.pack]
  | .isub x => pfxWords 0 x.p ++ [opWord 0x02 x.pack]
  | .imul x => pfxWords 0 x.p ++ [opWord 0x03 x.pack]
  | .imulh x => pfxWords 0 x.p ++ [opWord 0x04 x.pack]
  | .imulhU x => pfxWords 0 x.p ++ [opWord 0x05 x.pack]
  | .imad x => pfxWords 0 x.p ++ [opWord 0x06 x.pack]
  | .idiv x => pfxWords 0 x.p ++ [opWord 0x07 x.pack]
  | .idivU x => pfxWords 0 x.p ++ [opWord 0x08 x.pack]
  | .imin x => pfxWords 0 x.p ++ [opWord 0x09 x.pack]
  | .iminU x => pfxWords 0 x.p ++ [opWord 0x0A x.pack]
  | .imax x => pfxWords 0 x.p ++ [opWord 0x0B x.pack]
  | .imaxU x => pfxWords 0 x.p ++ [opWord 0x0C x.pack]
  | .iaddc x => pfxWords 0 x.p ++ [opWord 0x0D x.pack]
  | .isubb x => pfxWords 0 x.p ++ [opWord 0x0E x.pack]
  | .and x => pfxWords 0 x.p ++ [opWord 0x0F x.pack]
  | .or x => pfxWords 0 x.p ++ [opWord 0x10 x.pack]
  | .xor x => pfxWords 0 x.p ++ [opWord 0x11 x.pack]
  | .shl x => pfxWords 0 x.p ++ [opWord 0x12 x.pack]
  | .shr x => pfxWords 0 x.p ++ [opWord 0x13 x.pack]
  | .sar x => pfxWords 0 x.p ++ [opWord 0x14 x.pack]
  | .rol x => pfxWords 0 x.p ++ [opWord 0x15 x.pack]
  | .bfx x => pfxWords 0 x.p ++ [opWord 0x16 x.pack]
  | .bfi x => pfxWords 0 x.p ++ [opWord 0x17 x.pack]
  | .isel x => pfxWords 0 x.p ++ [opWord 0x18 x.pack]
  | .icmp x => pfxWords 0 x.p ++ [opWord 0x19 x.pack]
  | .iaddLi x => pfxWords 0 x.p ++ [opWord 0x1A x.pack]
  | .andLi x => pfxWords 0 x.p ++ [opWord 0x1B x.pack]
  | .orLi x => pfxWords 0 x.p ++ [opWord 0x1C x.pack]
  | .xorLi x => pfxWords 0 x.p ++ [opWord 0x1D x.pack]
  | .shlLi x => pfxWords 0 x.p ++ [opWord 0x1E x.pack]
  | .shrLi x => pfxWords 0 x.p ++ [opWord 0x1F x.pack]
  | .sarLi x => pfxWords 0 x.p ++ [opWord 0x20 x.pack]
  | .icmpLi x => pfxWords 0 x.p ++ [opWord 0x21 x.pack]
  | .iabs x => pfxWords 0 x.p ++ [opWord 0x22 (x.pack 0)]
  | .ineg x => pfxWords 0 x.p ++ [opWord 0x22 (x.pack 1)]
  | .not x => pfxWords 0 x.p ++ [opWord 0x22 (x.pack 2)]
  | .popc x => pfxWords 0 x.p ++ [opWord 0x22 (x.pack 3)]
  | .clz x => pfxWords 0 x.p ++ [opWord 0x22 (x.pack 4)]
  | .brev x => pfxWords 0 x.p ++ [opWord 0x22 (x.pack 5)]
  | .mov x => pfxWords 0 x.p ++ [opWord 0x22 (x.pack 6)]
  | .movi x => pfxWords 0 x.p ++ [opWord 0x23 x.pack]
  | .pand x => [opWord 0x24 (x.pack 0)]
  | .por x => [opWord 0x24 (x.pack 1)]
  | .pxor x => [opWord 0x24 (x.pack 2)]
  | .pnot x => [opWord 0x24 (x.pack 3)]
  | .p2v x => pfxWords 0 x.p ++ [opWord 0x25 (x.pack 0)]
  | .v2p x => pfxWords 0 x.p ++ [opWord 0x25 (x.pack 1)]
  | .bara x => pfxWords 0 x.p ++ [opWord 0x26 x.pack]
  | .barw x => pfxWords 0 x.p ++ [opWord 0x27 x.pack]
  | .bart x => pfxWords 0 x.p ++ [opWord 0x28 x.pack]
  | .cnarrow x => pfxWords 0 x.p ++ [opWord 0x29 x.pack]
  | .cright x => pfxWords 0 x.p ++ [opWord 0x2A x.pack]
  | .cmov x => pfxWords 0 x.p ++ [opWord 0x2B x.pack]
  | .cbase x => pfxWords 0 x.p ++ [opWord 0x2C (x.pack 0)]
  | .clen x => pfxWords 0 x.p ++ [opWord 0x2C (x.pack 1)]
  | .cvalid x => pfxWords 0 x.p ++ [opWord 0x2C (x.pack 2)]
  | .mfsr x => pfxWords 0 x.p ++ [opWord 0x2D x.pack]
  | .mtsr x => pfxWords 0 x.p ++ [opWord 0x2E x.pack]
  | .eret x => pfxWords 0 x.p ++ [opWord 0x2F (x.pack 0)]
  | .halt x => pfxWords 0 x.p ++ [opWord 0x2F (x.pack 1)]
  | .dbgb x => pfxWords 0 x.p ++ [opWord 0x2F (x.pack 2)]
  | .fadd x => pfxWords 0 x.p ++ [opWord 0x30 x.pack]
  | .fsub x => pfxWords 0 x.p ++ [opWord 0x31 x.pack]
  | .fmul x => pfxWords 0 x.p ++ [opWord 0x32 x.pack]
  | .ffma x => pfxWords 0 x.p ++ [opWord 0x33 x.pack]
  | .fmin x => pfxWords 0 x.p ++ [opWord 0x34 x.pack]
  | .fmax x => pfxWords 0 x.p ++ [opWord 0x35 x.pack]
  | .fcmp x => [opWord 0x36 x.pack]
  | .dot4 x => pfxWords 0 x.p ++ [opWord 0x37 x.pack]
  | .fdot2 x => pfxWords 0 x.p ++ [opWord 0x38 x.pack]
  | .qdotE2m1 x => pfxWords 0 (some x.p) ++ [opWord 0x39 x.pack]
  | .qdotInt4 x => pfxWords 0 (some x.p) ++ [opWord 0x3A x.pack]
  | .qdotUint4 x => pfxWords 0 (some x.p) ++ [opWord 0x3B x.pack]
  | .fpack x => pfxWords 0 x.p ++ [opWord 0x3C x.pack]
  | .funpk x => pfxWords 0 x.p ++ [opWord 0x3D x.pack]
  | .fcvt x => pfxWords 0 x.p ++ [opWord 0x3E x.pack]
  | .fclass x => pfxWords 0 x.p ++ [opWord 0x3F (x.pack 0)]
  | .frnd x => pfxWords 0 x.p ++ [opWord 0x3F (x.pack 1)]
  | .exp2 x => [opWord 0x40 (x.pack 0)]
  | .log2 x => [opWord 0x40 (x.pack 1)]
  | .rcp x => [opWord 0x40 (x.pack 2)]
  | .rsq x => [opWord 0x40 (x.pack 3)]
  | .sqrt x => [opWord 0x40 (x.pack 4)]
  | .sin x => [opWord 0x40 (x.pack 5)]
  | .cos x => [opWord 0x40 (x.pack 6)]
  | .tanh x => [opWord 0x40 (x.pack 7)]
  | .sigm x => [opWord 0x40 (x.pack 8)]
  | .shflIdx x => [opWord 0x41 x.pack]
  | .shflUp x => [opWord 0x42 x.pack]
  | .shflDn x => [opWord 0x43 x.pack]
  | .shflXor x => [opWord 0x44 x.pack]
  | .voteAny x => [opWord 0x45 (x.pack 0)]
  | .voteAll x => [opWord 0x45 (x.pack 1)]
  | .voteBal x => [opWord 0x45 (x.pack 2)]
  | .lredAdd x => [opWord 0x46 (x.pack 0)]
  | .lredMin x => [opWord 0x46 (x.pack 1)]
  | .lredMax x => [opWord 0x46 (x.pack 2)]
  | .lredAnd x => [opWord 0x46 (x.pack 3)]
  | .lredOr x => [opWord 0x46 (x.pack 4)]
  | .lredXor x => [opWord 0x46 (x.pack 5)]
  | .lredMinU x => [opWord 0x46 (x.pack 6)]
  | .lredMaxU x => [opWord 0x46 (x.pack 7)]
  | .matchLanes x => [opWord 0x47 (x.pack 0)]
  | .ld8 x => pfxWords 0 x.p ++ [opWord 0x48 x.pack]
  | .ld16 x => pfxWords 0 x.p ++ [opWord 0x49 x.pack]
  | .ld32 x => pfxWords 0 x.p ++ [opWord 0x4A x.pack]
  | .ld64 x => pfxWords 0 x.p ++ [opWord 0x4B x.pack]
  | .ld128 x => pfxWords 0 x.p ++ [opWord 0x4C x.pack]
  | .ld8S x => pfxWords 0 x.p ++ [opWord 0x4D x.pack]
  | .ld16S x => pfxWords 0 x.p ++ [opWord 0x4E x.pack]
  | .st8 x => pfxWords 0 x.p ++ [opWord 0x4F x.pack]
  | .st16 x => pfxWords 0 x.p ++ [opWord 0x50 x.pack]
  | .st32 x => pfxWords 0 x.p ++ [opWord 0x51 x.pack]
  | .st64 x => pfxWords 0 x.p ++ [opWord 0x52 x.pack]
  | .st128 x => pfxWords 0 x.p ++ [opWord 0x53 x.pack]
  | .lds8 x => pfxWords 0 x.p ++ [opWord 0x54 x.pack]
  | .lds16 x => pfxWords 0 x.p ++ [opWord 0x55 x.pack]
  | .lds32 x => pfxWords 0 x.p ++ [opWord 0x56 x.pack]
  | .lds64 x => pfxWords 0 x.p ++ [opWord 0x57 x.pack]
  | .lds128 x => pfxWords 0 x.p ++ [opWord 0x58 x.pack]
  | .lds8S x => pfxWords 0 x.p ++ [opWord 0x59 x.pack]
  | .lds16S x => pfxWords 0 x.p ++ [opWord 0x5A x.pack]
  | .sts8 x => pfxWords 0 x.p ++ [opWord 0x5B x.pack]
  | .sts16 x => pfxWords 0 x.p ++ [opWord 0x5C x.pack]
  | .sts32 x => pfxWords 0 x.p ++ [opWord 0x5D x.pack]
  | .sts64 x => pfxWords 0 x.p ++ [opWord 0x5E x.pack]
  | .sts128 x => pfxWords 0 x.p ++ [opWord 0x5F x.pack]
  | .lda x => pfxWords 0 x.p ++ [opWord 0x60 x.pack]
  | .str x => pfxWords 0 x.p ++ [opWord 0x61 x.pack]
  | .ldk x => [opWord 0x62 x.pack]
  | .atomAdd x => pfxWords 0 x.p ++ [opWord 0x63 (x.pack 0)]
  | .atomMin x => pfxWords 0 x.p ++ [opWord 0x63 (x.pack 1)]
  | .atomMax x => pfxWords 0 x.p ++ [opWord 0x63 (x.pack 2)]
  | .atomAnd x => pfxWords 0 x.p ++ [opWord 0x63 (x.pack 3)]
  | .atomOr x => pfxWords 0 x.p ++ [opWord 0x63 (x.pack 4)]
  | .atomXor x => pfxWords 0 x.p ++ [opWord 0x63 (x.pack 5)]
  | .atomExch x => pfxWords 0 x.p ++ [opWord 0x63 (x.pack 6)]
  | .atomCas x => pfxWords 0 x.p ++ [opWord 0x63 (x.pack 7)]
  | .atomInc x => pfxWords 0 x.p ++ [opWord 0x64 (x.pack 0)]
  | .redAdd x => pfxWords 0 x.p ++ [opWord 0x65 (x.pack 0)]
  | .redMin x => pfxWords 0 x.p ++ [opWord 0x65 (x.pack 1)]
  | .redMax x => pfxWords 0 x.p ++ [opWord 0x65 (x.pack 2)]
  | .redAnd x => pfxWords 0 x.p ++ [opWord 0x65 (x.pack 3)]
  | .redOr x => pfxWords 0 x.p ++ [opWord 0x65 (x.pack 4)]
  | .redXor x => pfxWords 0 x.p ++ [opWord 0x65 (x.pack 5)]
  | .pref x => pfxWords 0 x.p ++ [opWord 0x66 x.pack]
  | .waitaEq x => [opWord 0x67 (x.pack 0)]
  | .waitaNe x => [opWord 0x67 (x.pack 1)]
  | .waitaGe x => [opWord 0x67 (x.pack 2)]
  | .ldlat x => pfxWords 0 (some x.p) ++ [opWord 0x68 x.pack]
  | .ljoin x => pfxWords 0 (some x.p) ++ [opWord 0x69 x.pack]
  | .publ x => [opWord 0x6A x.pack]
  | .cld x => pfxWords 0 x.p ++ [opWord 0x6B x.pack]
  | .cst x => pfxWords 0 x.p ++ [opWord 0x6C x.pack]
  | .fence x => [opWord 0x6D x.pack]
  | .wait x => [opWord 0x6E x.pack]
  | .bra x => pfxWords 0 x.p ++ [opWord 0x6F x.pack]
  | .braJ x => pfxWords 0 x.p ++ [opWord 0x70 x.pack]
  | .brx x => [opWord 0x71 x.pack]
  | .call x => pfxWords 0 x.p ++ [opWord 0x72 x.pack]
  | .loop x => pfxWords 0 x.p ++ [opWord 0x73 x.pack]
  | .spawn x => pfxWords 0 x.p ++ [opWord 0x74 x.pack]
  | .join x => [opWord 0x75 x.pack]
  | .nop x => pfxWords 0 x.p ++ [opWord 0x76 (x.pack 0)]
  | .ret x => pfxWords 0 x.p ++ [opWord 0x76 (x.pack 1)]
  | .exit x => pfxWords 0 x.p ++ [opWord 0x76 (x.pack 2)]
  | .yield x => pfxWords 0 x.p ++ [opWord 0x76 (x.pack 3)]
  | .bind x => pfxWords 0 x.p ++ [opWord 0x76 (x.pack 4)]
  | .unbind x => pfxWords 0 x.p ++ [opWord 0x76 (x.pack 5)]
  | .pmark x => pfxWords 0 x.p ++ [opWord 0x76 (x.pack 6)]
  | .sign x => [opWord 0x77 x.pack]
  | .cvset x => [opWord 0x78 x.pack]
  | .s2v x => [opWord 0x79 x.pack]
  | .pdlog x => [opWord 0x7A x.pack]
  | .trap x => [opWord 0x7B x.pack]
  | .sysc x => [opWord 0x7C x.pack]
  | .uadd x => pfxWords 1 x.p ++ [opWord 0x81 x.pack]
  | .usub x => pfxWords 1 x.p ++ [opWord 0x82 x.pack]
  | .umul x => pfxWords 1 x.p ++ [opWord 0x83 x.pack]
  | .umad x => pfxWords 1 x.p ++ [opWord 0x84 x.pack]
  | .uand x => pfxWords 1 x.p ++ [opWord 0x85 x.pack]
  | .uor x => pfxWords 1 x.p ++ [opWord 0x86 x.pack]
  | .uxor x => pfxWords 1 x.p ++ [opWord 0x87 x.pack]
  | .ushl x => pfxWords 1 x.p ++ [opWord 0x88 x.pack]
  | .ushr x => pfxWords 1 x.p ++ [opWord 0x89 x.pack]
  | .umin x => pfxWords 1 x.p ++ [opWord 0x8A x.pack]
  | .umax x => pfxWords 1 x.p ++ [opWord 0x8B x.pack]
  | .umov x => pfxWords 1 x.p ++ [opWord 0x8C x.pack]
  | .ucmp x => pfxWords 1 x.p ++ [opWord 0x8D x.pack]
  | .usel x => pfxWords 1 x.p ++ [opWord 0x8E x.pack]
  | .ucnar x => pfxWords 1 x.p ++ [opWord 0x8F x.pack]
  | .uaddUi x => pfxWords 1 x.p ++ [opWord 0x90 x.pack]
  | .uandUi x => pfxWords 1 x.p ++ [opWord 0x91 x.pack]
  | .uorUi x => pfxWords 1 x.p ++ [opWord 0x92 x.pack]
  | .ushlUi x => pfxWords 1 x.p ++ [opWord 0x93 x.pack]
  | .ushrUi x => pfxWords 1 x.p ++ [opWord 0x94 x.pack]
  | .umovi x => pfxWords 1 x.p ++ [opWord 0x95 x.pack]
  | .sbld x => [opWord 0xA0 x.pack]
  | .mmrun x => [opWord 0xA1 x.pack]
  | .mmout x => [opWord 0xA2 x.pack]
  | .mtab x => [opWord 0xA3 x.pack]
  | .mbias x => [opWord 0xA4 x.pack]
  | .copyGs x => [opWord 0xA8 (x.pack 0)]
  | .copySg x => [opWord 0xA8 (x.pack 1)]
  | .copyGg x => [opWord 0xA8 (x.pack 2)]
  | .tcopyGs x => [opWord 0xA9 (x.pack 0)]
  | .tcopySg x => [opWord 0xA9 (x.pack 1)]
  | .copypIn x => [opWord 0xAA (x.pack 0)]
  | .copypOut x => [opWord 0xAA (x.pack 1)]
  | .coll x => [opWord 0xAB x.pack]
  | .barinit x => [opWord 0xAC x.pack]
  | .sow x => [opWord 0xB0 x.pack]
  | .ldlayer x => [opWord 0xB1 x.pack]
  | .rellayer x => [opWord 0xB2 x.pack]
  | .mint x => [opWord 0xB8 x.pack]
  | .seal x => [opWord 0xB9 x.pack]
  | .objinv x => [opWord 0xBA x.pack]
  | .migr x => [opWord 0xBB x.pack]
  | .biasD x => [opWord 0xBC (x.pack 0)]
  | .biasH x => [opWord 0xBC (x.pack 1)]
  | .unpubl x => [opWord 0xBD x.pack]
  | .uniformPipeExecute _ => []
  | .uniformResultWrite _ => []
  | .laneResultWrite _ => []
  | .loadReturn _ => []
  | .storeAcknowledge _ => []
  | .formFurrow _ _ => []
  | .fillWaitExpiry _ _ => []
  | .groupPromotion _ _ => []
  | .issueSelect _ _ => []
  | .furrowPromotion _ _ => []
  | .binTimerExpiry _ => []
  | .joinHoldExpiry _ _ => []
  | .engineQueueEntry _ => []
  | .matrixCommandStart _ => []
  | .scratchpadPortGrant _ => []
  | .matrixCommandComplete _ => []
  | .wainCommandStart _ => []
  | .pieceLanded _ => []
  | .collRootResult _ _ => []
  | .homeRequest => []
  | .drain _ => []
  | .drainAcknowledge _ => []
  | .recall _ _ _ _ => []
  | .gather _ _ _ _ => []
  | .writeBack => []
  | .l1Eviction _ _ _ _ => []
  | .ownershipRetry => []
  | .watchRetest _ _ => []
  | .ldlatRetest _ _ => []
  | .objectDrop _ _ _ => []
  | .migrationLineCopy _ _ _ => []
  | .migrationComplete _ _ _ => []
  | .publLineMove => []
  | .publComplete => []
  | .hostAtomicCompletion => []
  | .hostSnoop _ => []
  | .hostMemRead _ _ _ _ => []
  | .hostMemWrite _ _ _ _ _ => []
  | .exchangeTick _ _ _ => []
  | .latticeMerge => []
  | .takeRecord _ _ => []
  | .tailRetest _ _ => []
  | .fieldEligible _ _ => []
  | .placePlot => []
  | .gangWaitLimit => []
  | .gangOfOne => []
  | .restoreRoom => []
  | .plotRetirement _ => []
  | .portFaultReport _ => []
  | .haltComplete _ => []
  | .haltFrameWrite _ => []
  | .handlerStart _ => []
  | .handlerTimeout _ => []
  | .hostEscalationAnswer _ _ _ => []
  | .preemptionRequest _ _ => []
  | .drainBudgetExpiry _ => []
  | .save _ => []
  | .restore _ => []
  | .contextSwitch _ _ => []
  | .contextCreate _ => []
  | .cropRegistration _ => []
  | .swapIn _ _ => []
  | .swapInComplete _ _ => []
  | .swapInTimeout _ _ => []
  | .uncorrectableError _ => []
  | .scrub _ _ => []
  | .flitReplay _ _ => []
  | .linkRetrainComplete _ => []
  | .linkDown _ => []
  | .controlTimeout _ _ => []
  | .lateAnswer => []
  | .yotisFlitLost _ _ => []
  | .hostLinkDown => []
  | .debuggerHalt _ => []
  | .debuggerResume _ => []
  | .powerGood => []
  | .stageComplete _ _ => []
  | .perstDeassert => []
  | .clockRebalance _ _ _ => []
  | .thermalThrottle _ => []
  | .thermalShutdown _ => []
  | .monitorWindow _ _ => []
  | .monitorControlWrite _ _ _ => []
  | .managementRegisterWrite _ _ => []
  | .contextDestroy _ => []
  | .contextSwitchBack _ => []
  | .savePool _ _ => []
  | .debuggerAttach _ _ => []
  | .debuggerAction _ _ => []
  | .corePowerGate _ => []
  | .yotisRetrain _ _ => []
  | .packageReset => []

/-- The bytes of an instruction, lowest address first. -/
def encodeBytes (i : Instr) : List Byte :=
  (encode i).flatMap bytesOfWord

/-- Whether a constructor is an instruction word (and not one of the steps that have no encoding). -/
def Instr.isWord (i : Instr) : Bool :=
  encode i != []

/-- The instruction that the decoder reads from bits numbered as the opcode table numbers them: word 0 is the low 32 bits of w,
a second word the next 32; bits above nbits are zero. -/
def decodeTableWord (nbits w : Nat) : Option Instr :=
  let v := w % 2 ^ nbits
  match decode (bytesOfWord (BitVec.ofNat 32 v) ++ bytesOfWord (BitVec.ofNat 32 (v / 2 ^ 32))) with
  | .ok (i, _, _) => some i
  | .error _ => none

end Sys2Proof
end

