-- ==== Sys2Proof/Machine/Fetch.lean ====
section
/-! DEFINITION. Instruction fetch: the instruction cache and the loop buffer of a core, the checks on the code capability and the code page,
the words at an address (R16, R57, R71, R246, R247, R341, R371, R399). -/

namespace Sys2Proof.Machine

/-- The record of a fault at fetch: precise, unit 1, access 4 (R413, R419). -/
def FaultRec.fetch (code : FaultCode) (pc : Pc) (obj off : Nat) : FaultRec :=
  { FaultRec.access code pc obj off 4 with unit := 1 }

/-! ### The instruction cache and the loop buffer -/

/-- A line that an instruction cache holds. -/
def Core.iline? (k : Core) (ctx obj line : Nat) : Option ILine :=
  k.icache.find? fun l => l.ctx == ctx && l.obj == obj && l.line == line

/-- A word of a loop body that the loop buffer holds (R371). -/
def Core.loopWord? (k : Core) (ctx obj off : Nat) : Option (BitVec 32) :=
  match k.loopBuf.find? fun b => b.ctx == ctx && b.obj == obj && decide (b.first ≤ off ∧ off ≤ b.last) with
  | some b => b.words[(off - b.first) / 4]?
  | none => none

/-- Whether the loop buffer of a core holds a word of a line of code. -/
def Core.buffersLine (k : Core) (ctx obj line : Nat) : Bool :=
  k.loopBuf.any fun b => b.ctx == ctx && b.obj == obj && decide (b.first / 128 ≤ line ∧ line ≤ b.last / 128)

/-- The word at an offset of a cached line, none where its granule is poisoned (R459). -/
def ILine.word? (l : ILine) (off : Nat) : Option (BitVec 32) :=
  if l.poison.contains (off % 128 / 16) then none else some (BitVec.ofNat 32 (leNat ((l.bytes.drop (off % 128)).take 4)))

/-- A word of code as its port serves it: the port's checks, the page's WX and the line's state, poison (R247, R399). -/
def State.homeWord (s : State) (p : Plot) (here : Pc) (kind obj off : Nat) : Except FaultRec (BitVec 32) :=
  match s.port (dieOf p.core) p.ctx p.system kind obj rightX off with
  | .error e => .error (.fetch e here obj off)
  | .ok h =>
    if h.desc.wx = 1 ∨ s.lineIsX p.ctx obj off h then
      if s.poisoned h.addr 4 then .error (.fetch .poison here obj off) else .ok (BitVec.ofNat 32 (s.loadNat h.addr 4))
    else if h.desc.wx = 2 then .error (.fetch .xhalf here obj off)
    else .error (.fetch .xne here obj off)

/-- One 32-bit word at an address of a plot's code object, fetched for the instruction at pc: Cap.check with X, then the loop buffer, the
instruction cache, or the home (R71, R246). A capability whose BASE is no multiple of 4 meets ALIGN here, which the spec's list of fetch
faults does not name (DESIGN CHOICE, log entry 40). -/
def State.fetchWord (s : State) (p : Plot) (pc at_ : Nat) : Except FaultRec (BitVec 32) :=
  let c := p.code
  let here := BitVec.ofNat 40 pc
  match c.check at_ 4 rightX 4 [1] with
  | .error e => .error (.fetch e here c.obj (c.faultOff at_ e))
  | .ok (o, y) =>
    let k := s.core p.core
    match k.loopWord? p.ctx o y, k.iline? p.ctx o (y / 128) with
    | some w, _ => .ok w
    | none, some l =>
      match l.word? y with
      | some w => .ok w
      | none => .error (.fetch .poison here o y)
    | none, none => s.homeWord p here c.kind o y

/-- The words of the instruction at an address: one, or a prefix and the word after it (R57, R71). -/
def State.fetch (s : State) (p : Plot) (pc : Pc) : Except FaultRec (BitVec 32 × BitVec 32) :=
  match s.fetchWord p pc.toNat pc.toNat with
  | .error r => .error r
  | .ok w0 =>
    if isPfxWord w0 then
      match s.fetchWord p pc.toNat (pc.toNat + 4) with
      | .error r => .error r
      | .ok w1 => .ok (w0, w1)
    else .ok (w0, 0)

/-- The size of the instruction at an address: 8 where a prefix stands there, else 4 (R57). -/
def State.sizeAt (s : State) (p : Plot) (pc : Pc) : Nat :=
  match s.fetchWord p pc.toNat pc.toNat with
  | .ok w => if isPfxWord w then 8 else 4
  | .error _ => 4

/-! ### Fills (R16, R204, R246, R371) -/

/-- Lines of an instruction cache: 128 KiB (R16). -/
def icacheLines : Nat := 1024

/-- Whether the fetch at an address of a plot's code needs a line from its home, and its way is closed (R460). -/
def State.fetchShut (s : State) (p : Plot) (at_ : Nat) : Bool :=
  let y := p.code.base + at_
  let k := s.core p.core
  (k.loopWord? p.ctx p.code.obj y).isNone && (k.iline? p.ctx p.code.obj (y / 128)).isNone &&
    match s.place? (dieOf p.core) p.ctx p.code.obj y with
    | some h => !s.wayOpen (dieOf p.core) h.homeDie
    | none => false

/-- Whether the word at an address, and the next where it may follow a prefix, can be fetched now (R460). -/
def State.codeOpen (s : State) (p : Plot) (pc : Pc) : Bool :=
  !s.fetchShut p pc.toNat && !s.fetchShut p (pc.toNat + 4)

/-- The fill of the line of an address into the instruction cache, where the home serves the word: the core registers as a reader. A full
cache drops the line that it has held longest, for which the spec names no rule (DESIGN CHOICE, log entry 17); the core stays a reader of a line of
which its loop buffer holds words (R246). -/
def State.fillCode (s : State) (p : Plot) (at_ : Nat) : State :=
  let c := p.code
  let y := c.base + at_
  let k := s.core p.core
  let known := (k.loopWord? p.ctx c.obj y).isSome || (k.iline? p.ctx c.obj (y / 128)).isSome
  match c.check at_ 4 rightX 4 [1], s.homeWord p (BitVec.ofNat 40 at_) c.kind c.obj y, s.place? (dieOf p.core) p.ctx c.obj y with
  | .ok _, .ok _, some h =>
    if known then s
    else
      let r : LineRef := ⟨p.ctx, c.obj, y / 128, 0⟩
      let base := h.addr - h.addr % 128
      let l : ILine :=
        { ctx := p.ctx, obj := c.obj, line := y / 128, bytes := s.load base 128,
          poison := (List.range 8).filter fun g => s.poison.contains (base / 16 + g) }
      let old := k.icache.drop (k.icache.length + 1 - icacheLines)
      let gone := ((k.icache.take (k.icache.length + 1 - icacheLines)).filter fun l => !k.buffersLine l.ctx l.obj l.line).map fun l => ((⟨l.ctx, l.obj, l.line, 0⟩ : LineRef), p.core)
      let t := (s.touchL2 r h false).modCore p.core fun k => { k with icache := (if k.icache.length < icacheLines then k.icache else old) ++ [l] }
      { t with readers := (t.readers.filter fun q => !(gone.contains q) && q != (r, p.core)) ++ [(r, p.core)] }
  | _, _, _ => s

/-- The words of a body of code that an instruction cache holds whole. -/
def Core.bodyWords (k : Core) (ctx obj first n : Nat) : Option (List (BitVec 32)) :=
  let ws := (List.range n).filterMap fun i => (k.iline? ctx obj ((first + 4 * i) / 128)).bind fun l => l.word? (first + 4 * i)
  if ws.length = n then some ws else none

/-- The loop bodies that the fibres of a core are in, by object and offset. -/
def State.liveBody (s : State) (core : Nat) (b : LoopBody) : Bool :=
  s.plots.any fun p => p.core == core && p.ctx == b.ctx && p.code.obj == b.obj && p.fibres.any fun f => f.lc.any fun c =>
    c.count != 0 && p.code.base + c.first.toNat == b.first

/-- The loop buffer takes the body of a loop whose first instruction a member issues, once the instruction cache holds the body whole and it fits
beside the bodies of loops that still run (R16, R371). Which bodies it holds is the part's choice (DESIGN CHOICE, log entry 17). -/
def State.bufferLoop (s : State) (p : Plot) (f : Fibre) : State :=
  let o := p.code.base
  match f.lc.find? fun c => c.count != 0 && c.first == f.pc with
  | none => s
  | some c =>
    let first := o + c.first.toNat
    let last := o + c.last.toNat
    let k := s.core p.core
    let held := k.loopBuf.filter (s.liveBody p.core)
    let n := (last - first) / 4 + s.sizeAt p c.last / 4
    match k.bodyWords p.ctx p.code.obj first n with
    | some ws =>
      if first ≤ last ∧ (held.map (·.words.length)).sum + n ≤ 256 ∧ k.loopWord? p.ctx p.code.obj first = none then
        s.modCore p.core fun k =>
          { k with loopBuf := held ++ [{ ctx := p.ctx, obj := p.code.obj, first := first, last := first + 4 * n - 1, words := ws }] }
      else s
    | none => s

/-- What the fetch of an issue brings in: the line of its word, the next one's where a prefix may need it, a loop's body. -/
def State.prefetch (s : State) (iss : Issue) : State :=
  match s.plot? iss.pid with
  | none => s
  | some p =>
    let t := s.fillCode p iss.pc.toNat
    let t := if t.sizeAt p iss.pc = 8 then t.fillCode p (iss.pc.toNat + 4) else t
    match iss.members.head?.bind fun m => p.fibre? m.2 with
    | some f => t.bufferLoop p f
    | none => t

/-- The copies of code that satisfy a test leave every instruction cache and loop buffer that a test of cores names, and their registrations
end (R248, R401). -/
def State.recallCode (s : State) (who : Nat → Bool) (ctx obj : Nat) (line : Nat → Bool) : State :=
  let hitI (l : ILine) : Bool := l.ctx == ctx && l.obj == obj && line l.line
  let hitB (b : LoopBody) : Bool :=
    b.ctx == ctx && b.obj == obj && (List.range (b.last / 128 - b.first / 128 + 1)).any fun i => line (b.first / 128 + i)
  { s with
    cores := s.cores.map fun k =>
      if who k.num then { k with icache := k.icache.filter fun l => !hitI l, loopBuf := k.loopBuf.filter fun b => !hitB b } else k
    readers := s.readers.filter fun q => !(who q.2 && q.1.ctx == ctx && q.1.obj == obj && line q.1.line) }

end Sys2Proof.Machine
end

