-- ==== Sys2Proof/Machine/Lattice.lean ====
section
/-! DEFINITION. Lattice lane instructions: LDLAT and LJOIN (R284 to R294). -/

namespace Sys2Proof.Machine

/-- The kinds that lattice instructions accept: lattice and layer table (R284). -/
def latKinds : List Nat := [2, 3]

/-- The number in n registers from a code. -/
def regsNat (p : Plot) (f : Fibre) (code n : Nat) : Nat :=
  leNat ((readRegs p f code n).flatMap fun w => leBytes 4 w.toNat)

/-- Whether an LDLAT may be answered now: its access faults at the port, or its cell has passed the threshold (R286). -/
def State.latReady (s : State) (p : Plot) (cap : Cap) (obj off ty : Nat) (thr : Option Nat) : Bool :=
  match s.port (dieOf p.core) p.ctx p.system cap.kind obj rightR off with
  | .error _ => true
  | .ok h =>
    h.entry.latType != ty || s.poisoned h.addr (latSize ty) ||
      match thr with
      | none => true
      | some t => latPassed ty t (s.loadNat h.addr (latSize ty))

/-- The cell that a passed threshold test has found, which the load then returns; none without a threshold or where the port refuses
(R286). -/
def State.latCell (s : State) (p : Plot) (cap : Cap) (obj off ty : Nat) (thr : Option Nat) : Option Nat :=
  match thr, s.port (dieOf p.core) p.ctx p.system cap.kind obj rightR off with
  | some _, .ok h => if s.poisoned h.addr (latSize ty) then none else some (s.loadNat h.addr (latSize ty))
  | _, _ => none

/-- LDLAT: a load of the replica's cell at its home; below its threshold the member parks with its loads count taken (R286, R287). -/
def execLdlat (x : FmtMQ) (s : State) : Result :=
  let ty := x.p.ty.toNat
  let n := latRegs ty
  let vt := x.p.c.toNat
  let tcodes := if vt = 0 then [] else codesFrom vt n
  let at_ (p : Plot) (f : Fibre) : Nat := memOff p f x.a (latSize ty) 0
  let word := lmWord x.g (some x.p) x.sel (x.a.toNat :: tcodes) (codesFrom x.d.toNat n)
  runLane { word with touch := touches x.sel at_ (latSize ty) rightR (latSize ty) latKinds } s fun c s f =>
    counted .loads s f fun s =>
      let cap := selCap c.p f x.sel.toNat
      match cap.check (at_ c.p f) (latSize ty) rightR (latSize ty) latKinds with
      | .error e => .of s (capFault c cap (at_ c.p f) 1 e)
      | .ok (o, y) =>
        let thr := if vt = 0 then none else some (regsNat c.p f vt n)
        let acq := x.acq == 1
        onBytes c s f o y (latSize ty) fun s =>
          if s.latReady c.p cap o y ty thr then
            .of (s.send (c.request f cap o y (.latLoad ty acq x.d.toNat (s.latCell c.p cap o y ty thr)))) (.seq f.moreLoads)
          else .of s (.park f.moreLoads (.ldlat ⟨cap, o, y, ty, thr, acq, x.d.toNat, c.size⟩))

/-- LJOIN: a join of the replica's cell at its home, after the checks of its object; .REL waits as FENCE.FRW does and releases lazily with the
core's epoch, or eagerly where the line records 8 other cores (R285, R293). -/
def execLjoin (x : FmtMQ) (s : State) : Result :=
  let ty := x.p.ty.toNat
  let n := latRegs ty
  let at_ (p : Plot) (f : Fibre) : Nat := memOff p f x.a (latSize ty) 0
  let word := lmWord x.g (some x.p) x.sel (x.a.toNat :: codesFrom x.d.toNat n)
  runLane { word with touch := touches x.sel at_ (latSize ty) rightJ (latSize ty) latKinds } s fun c s f =>
    counted .stores s f fun s =>
      let cap := selCap c.p f x.sel.toNat
      match cap.check (at_ c.p f) (latSize ty) rightJ (latSize ty) latKinds with
      | .error e => .of s (capFault c cap (at_ c.p f) 3 e)
      | .ok (o, y) =>
        let v := regsNat c.p f x.d.toNat n
        let req (epoch : Option Nat) : HomeReq := c.request f cap o y (.join ty v epoch)
        let go (s : State) (epoch : Option Nat) : Eff := .of (s.send (req epoch)) (.seq f.moreStores)
        let refused := match s.portOf (req none) with
          | .error _ => true
          | .ok _ => false
        if x.acq = 0 || refused then onBytes c s f o y (latSize ty) fun s => go (s.commit c.p.pid) none
        else
          waitQuiet c s f fun s =>
            let k := c.p.core
            let t := s.commit c.p.pid
            let e := (t.core k).epoch
            let eager := t.eagerByRecords ⟨c.p.ctx, o, y / 128, dieOf k + 1⟩ k
            onWay (!eager && decide (e < 0xFFFF) || t.backOpen k fun _ => true) s fun _ =>
              if eager then go (t.flushCore k) none else go (t.bumpEpoch k) (some e)

end Sys2Proof.Machine
end

