-- ==== Sys2Proof/Machine/Sync.lean ====
section
/-! DEFINITION. Barrier objects and the instructions on them: BARA, BARW, BART (R305 to R309, R361 to R363). -/

namespace Sys2Proof.Machine

/-! ### Barrier objects (R307, R308) -/

/-- The fields of a barrier object (R307). -/
structure Barrier where
  tag : Nat
  pend : Int
  arr : Nat
  exp : Nat
  ph : Nat
  rest : Nat
  deriving DecidableEq, Repr

/-- The fields of 128 bits. -/
def Barrier.ofNat (n : Nat) : Barrier :=
  { tag := field n 59 4, pend := signedOf 36 (field n 23 36), arr := field n 12 11, exp := field n 1 11, ph := field n 0 1,
    rest := field n 63 65 }

/-- The 128 bits of a barrier object. -/
def Barrier.toNat (b : Barrier) : Nat :=
  b.rest * 2 ^ 63 + b.tag * 2 ^ 59 + wrap 36 b.pend * 2 ^ 23 + b.arr * 2 ^ 12 + b.exp * 2 + b.ph

/-- The address of a barrier location (R361). -/
def State.barAddr (s : State) (p : Plot) (l : BarLoc) : Option Nat :=
  match l with
  | .own off => some (scratchAddr p.core + p.sbase + off)
  | .core ctx obj off => (s.place? (dieOf p.core) ctx obj off).map (·.addr)

/-- The barrier object at an address. -/
def State.barrier (s : State) (a : Nat) : Barrier :=
  .ofNat (s.loadNat a 16)

/-- Writes a barrier object at its bank. -/
def State.setBarrier (s : State) (a : Nat) (b : Barrier) : State :=
  s.store a (leBytes 16 b.toNat)

/-- Whether a fibre waits in BARW on the barrier at an address for a phase. -/
def State.waitsBarrier (s : State) (p : Plot) (f : Fibre) (a : Nat) (phase : Option Nat) : Option Nat :=
  match f.run with
  | .parked (.barw l ph size) => if s.barAddr p l = some a ∧ (phase = none ∨ phase = some ph) then some size else none
  | _ => none

/-- Readies every fibre parked in BARW for a phase of the barrier at an address; a halted plot's fibres test again at ERET
(R82, R308, R362). -/
def State.wakeBarrier (s : State) (a phase : Nat) : State :=
  s.plots.foldl (fun t p =>
    if p.halt.isSome then t
    else p.fibres.foldl (fun u f =>
      match s.waitsBarrier p f a (some phase) with
      | some size => u.wakePast p.pid f.fid size (s.cycOf p.core + 1)
      | none => u) t) s

/-- A barrier phase has completed on the core that holds an address (R339). -/
def State.countPhase (s : State) (a : Nat) : State :=
  s.modCore (sramCore a) fun k => { k with phases := k.phases + 1 }

/-- The end of an update: the phase completes when every arrival is in and no byte is pending (R308). -/
def State.testBarrier (s : State) (a : Nat) (b : Barrier) : State :=
  if b.arr = b.exp ∧ b.pend = 0 then
    ((s.setBarrier a { b with ph := 1 - b.ph, arr := 0 }).wakeBarrier a b.ph).countPhase a
  else s.setBarrier a b

/-- A piece of n bytes lands: PEND falls by n; none where the update raises BARX (R306, R308). -/
def State.barPiece (s : State) (a n : Nat) : Option State :=
  let b := s.barrier a
  if b.tag ≠ 0xB ∨ b.pend - n < -(2 ^ 35) then none else some (s.testBarrier a { b with pend := b.pend - n })

/-- An arrival that adds n expected bytes: the phase it belongs to; none where the update raises BARX (R362). -/
def State.barArrive (s : State) (a n : Nat) : Option (State × Nat) :=
  let b := s.barrier a
  if b.tag ≠ 0xB ∨ b.arr = b.exp ∨ 2 ^ 35 ≤ b.pend + n then none
  else some (s.testBarrier a { b with arr := (b.arr + 1) % 2048, pend := b.pend + n }, b.ph)

/-! ### The instructions (R361 to R363) -/

/-- The location and address of a barrier instruction's barrier, or the member's fault (R361). waits says whether the instruction
may name only a page of its own core. -/
def barTarget (c : IssueCtx) (s : State) (f : Fibre) (p : Option Pfx) (off : Nat) (waits : Bool) :
    Except FaultRec (BarLoc × Nat) :=
  if bit (pImmx p) 3 then
    let cap := f.areg (pImmx p % 8)
    match cap.check off 16 (rightR + rightW) 16 allKinds with
    | .error e =>
      .error (.access e c.iss.pc cap.obj (cap.faultOff off e) 3)
    | .ok (o, y) =>
      match s.port (dieOf c.p.core) c.p.ctx c.p.system cap.kind o (rightR + rightW) y with
      | .error e => .error (.late e c.iss.pc o y 3 2)
      | .ok h =>
        if !h.isCore || (waits && h.desc.core != c.p.core) then .error (.access .barx c.iss.pc o y 3)
        else if s.poisoned h.addr 16 then .error (.late .poison c.iss.pc o y 3 2)
        else .ok (.core c.p.ctx o y, h.addr)
  else if off % 16 ≠ 0 ∨ c.p.ssize < off + 16 then .error (.access .barx c.iss.pc 0 off 3)
  else
    let a := scratchAddr c.p.core + c.p.sbase + off
    if s.poisoned a 16 then .error (.late .poison c.iss.pc 0 off 3 2) else .ok (.own off, a)

/-- Whether a command is a BARINIT of the barrier at an offset that a fibre has signed. -/
def Cmd.initsBarrier (d : Cmd) (pid fid off : Nat) : Bool :=
  match d.code with
  | .barinit _ => d.pid == pid && d.signers.contains fid && field d.desc.toNat 0 19 == off
  | _ => false

/-- Whether a fibre has signed a BARINIT of the barrier at an offset that has not completed: an instance not yet executed, by its
k register as it stands, or a command that waits or runs (R309). -/
def State.barinitPending (s : State) (p : Plot) (fid off : Nat) : Bool :=
  (p.c.any fun x => x.insts.any fun i =>
    !i.executed && i.sigs.any (fun g => g.fid == fid && !g.neutral) &&
      match i.code with
      | some (.barinit w) => (p.kreg (4 * w.kd.toNat)).toNat % 2 ^ 19 == off
      | _ => false) ||
  (let k := s.core p.core
   k.cmdWait.any (·.initsBarrier p.pid fid off) || k.wainQueue.any (·.initsBarrier p.pid fid off) ||
     k.wainRun.any fun r => r.cmd.initsBarrier p.pid fid off)

/-- A barrier instruction of a member: it waits for its own BARINIT of the barrier, then acts on the barrier's address. -/
def barOp (c : IssueCtx) (s : State) (f : Fibre) (p : Option Pfx) (a : BitVec 7) (waits : Bool)
    (go : BarLoc → Nat → Eff) : Eff :=
  let off := (readReg c.p f a.toNat).toNat
  match barTarget c s f p off waits with
  | .error r => .of s (.fault r)
  | .ok (l, at_) =>
    match l with
    | .own o => if s.barinitPending c.p f.fid o then .of s (.park f (.ownBarinit o)) else go l at_
    | .core _ _ _ => go l at_

/-- A BARX of a member at a barrier (R362). -/
def barFault (c : IssueCtx) (l : BarLoc) : Act :=
  match l with
  | .own off => .fault (.access .barx c.iss.pc 0 off 3)
  | .core _ obj off => .fault (.access .barx c.iss.pc obj off 3)

/-- The a register of a barrier instruction that names a global barrier, among the codes of its registers (R361). -/
def barA (p : Option Pfx) : List Nat :=
  if bit (pImmx p) 3 then [128 + pImmx p % 8] else []

/-- BARA: a release at PLT scope, it waits for the member's earlier accesses; then it arrives, adds expected bytes, returns the phase of the arrival
(R215, R225, R226, R362). An arrival on a CORE page of another die takes the way there (R14, R460). -/
def execBara (x : FmtR) (s : State) : Result :=
  runLane { guard := x.g.toNat, size := sizeOf x.p, codes := [x.a.toNat, x.b.toNat] ++ barA x.p, dst := [x.d.toNat] } s fun c s f =>
    barOp c s f x.p x.a false fun l a =>
      waitQuiet c s f fun s => onWay (s.wayOpen (dieOf c.p.core) (dieOf (sramCore a))) s fun s =>
      match s.barArrive a (readReg c.p f x.b.toNat).toNat with
      | none => .of s (barFault c l)
      | some (t, ph) => .of t (.seq (f.setV x.d.toNat (BitVec.ofNat 32 ph)))

/-- BARW: parks while the named phase has not completed (R362). -/
def execBarw (x : FmtRW) (s : State) : Result :=
  runLane { guard := x.g.toNat, size := sizeOf x.p, codes := [x.a.toNat, x.b.toNat] ++ barA x.p } s fun c s f =>
    barOp c s f x.p x.a true fun l a =>
      let b := s.barrier a
      let phase := (readReg c.p f x.b.toNat).toNat % 2
      if b.tag ≠ 0xB then .of s (barFault c l)
      else if b.ph ≠ phase then .of s (.seq f)
      else .of s (.park f (.barw l phase c.size))

/-- BART: tests without waiting (R362). -/
def execBart (x : FmtR) (s : State) : Result :=
  runLane { guard := x.g.toNat, size := sizeOf x.p, codes := [x.a.toNat, x.b.toNat] ++ barA x.p, dst := [x.d.toNat] } s fun c s f =>
    barOp c s f x.p x.a true fun l a =>
      let b := s.barrier a
      let phase := (readReg c.p f x.b.toNat).toNat % 2
      if b.tag ≠ 0xB then .of s (barFault c l)
      else .of s (.seq (f.setV x.d.toNat (if b.ph ≠ phase then 1 else 0)))

end Sys2Proof.Machine
end

