-- ==== Sys2Proof/Machine/Control.lean ====
section
/-! DEFINITION. Control-flow lane instructions: transfers, loops, joins, bound regions, SPAWN, PMARK, CVSET, S2V, PDLOG, TRAP and
SYSC (R340 to R358, R364, R365, R423). -/

namespace Sys2Proof.Machine

/-! ### Transfers (R340 to R347) -/

/-- A taken transfer's path digest (R342). -/
def Fibre.digest (f : Fibre) (t : Pc) : Fibre :=
  { f with pathd := BitVec.ofNat 64 (mix64 (f.pathd.toNat ^^^ t.toNat)) }

/-- A taken PC-relative branch: the digest changes under a guard only (R342). -/
def branchTo (g : BitVec 3) (f : Fibre) (t : Pc) : Act :=
  .goto (if g = 7 then f else f.digest t) t

/-- BRA (R344). -/
def execBra (x : FmtB) (s : State) : Result :=
  runLane { guard := x.g.toNat, size := sizeOf x.p } s fun c s f =>
    .of s (branchTo x.g f (relTarget c.iss.pc (simm x.p 21 x.off.toNat)))

/-- The window of the plot that issues (R28). -/
def State.issueWindow (s : State) : Nat :=
  match s.issuing.bind fun iss => s.plot? iss.pid with
  | some p => p.window
  | none => 1

/-- CALL: the return offset goes to the last register of the window; one of 2^32 or more raises CAPB (R344). -/
def execCall (x : FmtB) (s : State) : Result :=
  let word (w : Nat) : LaneWord := { guard := x.g.toNat, size := sizeOf x.p, dst := [w - 1] }
  runLane (word s.issueWindow) s fun c s f =>
    let ret := c.iss.pc.toNat + c.size
    if 2 ^ 32 ≤ ret then .of s (.fault (.precise .capb c.iss.pc))
    else
      let f := f.setV (c.p.window - 1) (BitVec.ofNat 32 ret)
      .of s (branchTo x.g f (relTarget c.iss.pc (simm x.p 21 x.off.toNat)))

/-- Adds fibres to the opened set of a join slot (R51). -/
def Plot.openJoin (p : Plot) (j : Nat) (fids : List Nat) : Plot :=
  let x := p.jslot j
  p.setJslot j { x with opened := dedup (x.opened ++ fids) }

/-- BRA.J: every member of the issue opens the slot, then those whose guard is true transfer (R51, R345). DESIGN CHOICE (log
entry 55): an issue of several ccy opens the slot in its first ccy, while the arrivals of a JOIN count at its end. -/
def execBraJ (x : FmtBJ) (s : State) : Result :=
  let s' := match s.issuing with
    | some iss => s.modPlot iss.pid fun p => p.openJoin x.slot.toNat (iss.members.map (·.2))
    | none => s
  runLane { guard := x.g.toNat, size := sizeOf x.p } s' fun c s f =>
    .of s (branchTo x.g f (relTarget c.iss.pc (simm x.p 14 x.off.toNat)))

/-- The entry read of BRX: a plain load, from the L1, a fill, or the home, once its ways are open (R223, R346, R460). -/
def brxEntry (c : IssueCtx) (s : State) (f : Fibre) (cap : Cap) (obj off : Nat) (go : State → Except FaultCode Nat → Eff) : Eff :=
  let w := c.who f
  let through (s : State) : Eff :=
    let r := s.l1Load w cap.kind obj off 4 rightR 0
    go r.1 (r.2.map fun q => leNat q.1)
  if (s.l1Bytes w obj off 4 0).all Option.isSome then through s
  else
    match s.port (dieOf w.core) w.ctx w.system cap.kind obj rightR off with
    | .error e => go s (.error e)
    | .ok h =>
      onWay (s.lineOpen w.core ⟨w.ctx, obj, off / 128, 0⟩ h) s fun s =>
        if h.cacheable then through s
        else
          let q := c.request f cap obj off (.load 4 false 0)
          let t := s.readyRead q h
          if t.poisoned h.addr 4 then go t (.error .poison)
          else
            let (bs, g) := t.readAt q h 4
            go (t.setFlags w.pid g) (.ok (leNat bs))

/-- BRX: a transfer by a signed displacement from the table; its faults are precise, a port fault included (R346, R413). -/
def execBrx (x : FmtTB0) (s : State) : Result :=
  let at_ (p : Plot) (f : Fibre) : Nat := 4 * (readReg p f x.a.toNat).toNat
  runLane { lmWord x.g none x.sel [x.a.toNat] with touch := touches x.sel at_ 4 rightR 4 [0, 1] } s fun c s f =>
    counted .loads s f fun s =>
      let cap := selCap c.p f x.sel.toNat
      match cap.check (at_ c.p f) 4 rightR 4 [0, 1] with
      | .error e => .of s (capFault c cap (at_ c.p f) 1 e)
      | .ok (o, y) =>
        onBytes c s f o y 4 fun s =>
          brxEntry c s f cap o y fun t r =>
            match r with
            | .error e => .of t (.fault { FaultRec.access e c.iss.pc o y 1 with unit := 2 })
            | .ok e =>
              let tgt := c.iss.pc + BitVec.ofInt 40 (signedOf 32 e)
              if tgt.toNat % 4 ≠ 0 then .of t (.fault (.precise .align c.iss.pc)) else .of t (.goto (f.digest tgt) tgt)

/-- RET: a target whose low bits are not zero raises ALIGN (R57, R341, R347). -/
def execRet (x : FmtA1) (s : State) : Result :=
  runLane { guard := x.g.toNat, size := sizeOf x.p, codes := [x.a.toNat] } s fun c s f =>
    let t := (readReg c.p f x.a.toNat).toNat
    if t % 4 ≠ 0 then .of s (.fault (.precise .align c.iss.pc)) else .of s (.goto f (BitVec.ofNat 40 t))

/-! ### NOP, YIELD, BIND, UNBIND (R41, R42, R348, R353) -/

/-- NOP (R348). -/
def execNop (x : FmtG) (s : State) : Result :=
  runLane { guard := x.g.toNat, size := sizeOf x.p } s fun _ s f => .of s (.seq f)

/-- YIELD dissolves a furrow that is not bound (R42, R348). -/
def execYield (x : FmtN) (s : State) : Result :=
  runLane { size := sizeOf x.p, dissolves := true } s fun _ s f => .of s (.seq f)

/-- BIND pins its furrow with the members of the issue; inside a bound region it has no effect (R41). -/
def execBind (x : FmtN) (s : State) : Result :=
  let s' := match s.issuing with
    | some iss =>
      match s.furrowOf iss with
      | some fu => if fu.bound then s else s.modCore iss.core fun c => c.setFurrow { fu with bound := true }
      | none => s
    | none => s
  runLane { size := sizeOf x.p } s' fun _ s f => .of s (.seq f)

/-- UNBIND ends a bound region: its furrow dissolves, the members masked off becoming ready at their own PCs (R36, R41, R353). -/
def execUnbind (x : FmtN) (s : State) : Result :=
  let word (d : Bool) : LaneWord := { size := sizeOf x.p, dissolves := d }
  let run (s : State) (d : Bool) : Result := runLane (word d) s fun _ s f => .of s (.seq f)
  match s.issuing with
  | none => .fault .noIssue
  | some iss =>
    match s.furrowOf iss, s.plot? iss.pid with
    | some fu, some p =>
      if !fu.bound then run s false
      else
        match run (s.modCore iss.core fun c => c.setFurrow { fu with bound := false }) true with
        | .next t =>
          let masked := fu.lanes.filter fun l =>
            !(iss.members.any fun m => m.2 == l.2) &&
              match t.fibre? iss.pid l.2 with
              | some f => f.run == .inFurrow
              | none => false
          let at_ := t.cycOf iss.core + s.occupancy iss (word true) p + 1
          .next (masked.foldl (fun u l => u.readyAs iss.pid l.2 at_ at_ true) t)
        | r => r
    | _, _ => run s false

/-! ### LOOP (R349, R350) -/

/-- LOOP: starts a counter, or skips the body where the member's count is 0 (R350). -/
def execLoop (x : FmtLP) (s : State) : Result :=
  runLane { size := sizeOf x.p, codes := [x.cnt.toNat] } s fun c s f =>
    let n := readReg c.p f x.cnt.toNat
    let last := c.iss.pc + BitVec.ofNat 40 (4 * uimm x.p 15 x.fin.toNat)
    let f := { f with lc := f.lc.set x.lc.toNat ⟨n, c.iss.pc, c.nextPc, last⟩ }
    if n = 0 then .of s (.goto f (last + BitVec.ofNat 40 (s.sizeAt c.p last))) else .of s (.seq f)

/-! ### JOIN (R51, R52, R352) -/

/-- A member arrives at a slot whose opened set is not empty, at the end of its JOIN's issue. -/
def JSlot.arrive (x : JSlot) (fid at_ : Nat) (held : Option Nat) : JSlot :=
  { x with
    start := some (match x.start with
      | some t => min t at_
      | none => at_)
    arrived := assocSet x.arrived fid at_
    held := match held with
      | some age => x.held ++ [(fid, age)]
      | none => x.held }

/-- JOIN: passes on an empty opened set; else the member arrives and, outside a bound region, is held. The slot is tested at the end of the ccy
(R51, R52). -/
def execJoin (x : FmtJ0) (s : State) : Result :=
  let j := x.slot.toNat
  let word : LaneWord := { dissolves := true }
  runLane word s fun c s f =>
    match s.plot? c.p.pid with
    | none => .of s (.seq f)
    | some p =>
      let x := p.jslot j
      if x.opened.isEmpty then .of s (.seq f)
      else
        let bound := match (s.core p.core).furrowOf? p.pid f.fid with
          | some fu => fu.bound
          | none => false
        let at_ := s.cycOf p.core + s.occupancy c.iss word c.p - 1
        let t := s.modPlot p.pid fun p => p.setJslot j (x.arrive f.fid at_ (if bound then none else some f.readyAt))
        .of t (if bound then .seq f else .hold f j)

/-! ### SPAWN (R17, R33, R34, R48, R354, R355) -/

/-- The resident fibres of a core, handlers apart, with those that exit in this ccy (R17, R420). -/
def State.residentFibres (s : State) (core : Nat) : Nat :=
  ((s.plots.filter fun p => p.core == core && p.handler.isNone).map fun p => p.fibres.length + p.exited.length).sum

/-- The v registers of the windows that the resident plots of a core hold, live or exited (R17). -/
def State.windowRegs (s : State) (core : Nat) : Nat :=
  ((s.plots.filter fun p => p.core == core && p.handler.isNone).map fun p => p.windows.length * p.window).sum

/-- Whether a window of n units at a base is free on a core. -/
def windowFree (taken : List (Nat × Nat)) (base n : Nat) : Bool :=
  taken.all fun t => decide (base + n ≤ t.1) || decide (t.1 + t.2 ≤ base)

/-- The windows of a core in units of 8 v registers: base and size. -/
def State.windowsOf (s : State) (core : Nat) : List (Nat × Nat) :=
  (s.plots.filter fun p => p.core == core && p.handler.isNone).flatMap fun p => p.windows.map fun w => (w.2, p.window / 8)

/-- The lowest base for a window of n units: 0 or the end of a taken window (R28). -/
def windowBase (taken : List (Nat × Nat)) (n : Nat) : Nat :=
  ((sortBy id (0 :: taken.map fun t => t.1 + t.2)).find? fun b => windowFree taken b n && decide (b + n ≤ 16384)).getD 0

/-- Marks a ready group as formed from a released bin, to which no fill wait applies (R34). -/
def Core.markFilled (c : Core) (pid : Nat) (pc : Pc) (since : Nat) : Core :=
  { c with marks := (c.marks.filter fun m => !(m.pid == pid && m.pc == pc)) ++
      [{ pid := pid, pc := pc, since := since, filled := true, promoted := false }] }

/-- Releases a bin: its fibres are ready in the next ccy (R34). -/
def State.releaseBin (s : State) (core : Nat) (b : Bin) : State :=
  let now := s.cycOf core
  let s := s.modCore core fun c => { c with bins := c.bins.filter fun q => q.order != b.order }
  let s := s.modCore core fun c => c.markFilled b.pid b.pc (now + 1)
  b.fids.foldl (fun t f => t.makeReady b.pid f (now + 1)) s

/-- A spawned fibre enters the bin of its plot and entry; a full bin is released at the end of the ccy, the oldest bin at once where none is free
(R33, R34). The oldest bin may be a halted plot's: R33 releases it, R414 keeps the timers of its bins only; its fibres are ready, and no furrow
forms of them before the plot runs again (DESIGN CHOICE, log entry 41). -/
def State.enterBin (s : State) (core pid : Nat) (pc : Pc) (fid start : Nat) : State :=
  let same (b : Bin) : Bool := b.pid == pid && b.pc == pc && decide (b.fids.length < 32)
  match (s.core core).bins.find? same with
  | some b =>
    let b' := { b with fids := b.fids ++ [fid] }
    s.modCore core fun c => { c with bins := c.bins.map fun q => if q.order == b.order then b' else q }
  | none =>
    let s := if 32 ≤ (s.core core).bins.length then
        (match minBy? (s.core core).bins (·.order) with
        | some b => s.releaseBin core b
        | none => s)
      else s
    let b : Bin := { pid := pid, pc := pc, fids := [fid], start := start, order := s.nextOrder }
    { s.modCore core (fun c => { c with bins := c.bins ++ [b] }) with nextOrder := s.nextOrder + 1 }

/-- The lowest free FID of a plot; one whose fibre exits in this ccy is free from the next (R29). -/
def Plot.freeFid (p : Plot) : Option Nat :=
  (List.range 1024).find? fun i => !(p.fibres.any fun f => f.fid == i) && !p.exited.contains i

/-- The sequence numbers of a spawned fibre: the next instance of c0, 0 for the others (R48). -/
def Plot.spawnSeq (p : Plot) : List Nat :=
  [(p.cset 0).next, 0, 0, 0, 0, 0, 0, 0]

/-- The loop counters of a new fibre. -/
def noLoops : List LoopCtr := [⟨0, 0, 0, 0⟩, ⟨0, 0, 0, 0⟩, ⟨0, 0, 0, 0⟩]

/-- Creates a fibre from another: the first n v registers, predicates, a registers and PATHD copied (R355); it enters its bin at the end of
the issue. None where R17 or the FIDs allow no more. -/
def State.spawn (s : State) (p : Plot) (f : Fibre) (n : Nat) (entry : Pc) (at_ : Nat) : Option State :=
  match p.freeFid with
  | none => none
  | some fid =>
    let held := assoc p.windows fid
    if p.handler.isSome then none
    else if 2048 < s.residentFibres p.core + 1 then none
    else if held.isNone ∧ 131072 < s.windowRegs p.core + p.window then none
    else
      let base := held.getD (windowBase (s.windowsOf p.core) (p.window / 8))
      let g : Fibre :=
        { fid := fid, pc := entry, preds := f.preds, wbase := base, v := f.v.take n ++ List.replicate (p.window - n) 0, a := f.a,
          lc := noLoops, loads := 0, stores := 0, copies := 0, engine := 0, pathd := f.pathd, seq := p.spawnSeq, run := .binned,
          lane := fid % 32, readyAt := 0, flight := false }
      let t := s.modPlot p.pid fun p =>
        { p with fibres := p.fibres ++ [g], windows := if held.isSome then p.windows else p.windows ++ [(fid, base)] }
      some (t.modCore p.core fun k => { k with spawning := k.spawning ++ [⟨p.pid, entry, fid, at_⟩] })

/-- SPAWN: each member creates a fibre, in ascending lane order, or raises SPWN. It orders the member's accesses as a release at PLT scope does, whose
wait it makes (R225, R226, R355). -/
def execSpawn (x : FmtSP) (s : State) : Result :=
  let word : LaneWord := { guard := x.g.toNat, size := sizeOf x.p, codes := List.range x.n.toNat ++ codesFrom 128 8, cost := 2 }
  runLane word s fun c s f =>
    let at_ := s.cycOf c.p.core + s.occupancy c.iss word c.p - 1
    waitQuiet c s f fun s =>
    match (s.plot? c.p.pid).bind fun p => s.spawn p f x.n.toNat (relTarget c.iss.pc (simm x.p 14 x.off.toNat)) at_ with
    | none => .of s (.fault (.precise .spwn c.iss.pc))
    | some t => .of t (.seq f)

/-! ### PMARK, CVSET, S2V (R73, R75, R357, R358) -/

/-- PMARK: STEP rises by one for each member, saturating (R357). -/
def execPmark (x : FmtG) (s : State) : Result :=
  runLane { guard := x.g.toNat, size := sizeOf x.p } s fun c s f =>
    .of (s.modPlot c.p.pid fun p => { p with step := if p.step = 0xFFFFFFFF then p.step else p.step + 1 }) (.seq f)

/-- A fibre joins a convergence set; none where R44 raises BARX. -/
def CSet.join (x : CSet) (fid n : Nat) : Option CSet :=
  if x.count = 0 then some { CSet.free with count := n, joined := 1, members := [fid], closed := n == 1 }
  else if x.count ≠ n ∨ x.closed ∨ x.members.contains fid then none
  else some { x with joined := x.joined + 1, members := x.members ++ [fid], closed := x.joined + 1 == n }

/-- Fibres parked until a set closes sign now (R359). -/
def State.wakeClosed (s : State) (pid c : Nat) : State :=
  match s.plot? pid with
  | none => s
  | some p =>
    let due := p.fibres.filter fun f => f.run == .parked (.setClose c)
    { s with resumes := s.resumes ++ due.map fun f => ⟨pid, f.fid, s.cycOf p.core + 1, none⟩ }

/-- CVSET (R44, R358). -/
def execCvset (x : FmtCV0) (s : State) : Result :=
  let n := x.cset.toNat
  runLane {} s fun c s f =>
    match (s.plot? c.p.pid).bind fun p => if n = 0 then none else (p.cset n).join f.fid x.count.toNat with
    | none => .of s (.fault (.precise .barx c.iss.pc))
    | some y =>
      let t := s.modPlot c.p.pid fun p => p.setCset n y
      .of (if y.closed then t.wakeClosed c.p.pid n else t) (.seq { f with seq := f.seq.set n 0 })

/-- The members of a furrow that have not exited (R73). -/
def State.furrowSize (s : State) (iss : Issue) : Nat :=
  match s.furrowOf iss with
  | some fu => fu.lanes.length
  | none => iss.members.length

/-- The special registers by code (R73). -/
def specialReg (c : IssueCtx) (s : State) (f : Fibre) (n : Nat) : Word :=
  let cyc := s.cycOf c.p.core
  match n with
  | 0 => BitVec.ofNat 32 f.fid
  | 1 => BitVec.ofNat 32 c.p.plot
  | 2 => BitVec.ofNat 32 c.p.fld
  | 3 => BitVec.ofNat 32 (dieOf c.p.core)
  | 4 => BitVec.ofNat 32 (c.p.core % 32)
  | 5 => BitVec.ofNat 32 c.lane
  | 6 => BitVec.ofNat 32 (f.fid % 32)
  | 7 => BitVec.ofNat 32 (s.furrowSize c.iss)
  | 8 => BitVec.ofNat 32 cyc
  | 9 => BitVec.ofNat 32 (cyc / 2 ^ 32)
  | 10 => f.pathd.setWidth 32
  | 11 => (f.pathd >>> 32).setWidth 32
  | 12 => c.p.flg
  | _ => c.p.step

/-- S2V (R75). -/
def execS2v (x : FmtSR0) (s : State) : Result :=
  runLane { guard := x.g.toNat, dst := [x.d.toNat] } s fun c s f => .of s (.seq (f.setV x.d.toNat (specialReg c s f x.n.toNat)))

/-! ### PDLOG (R364, R365) -/

/-- The record of a fibre's path digest (R364). -/
def pathRecord (p : Plot) (f : Fibre) : Nat :=
  (p.core % 32) * 2 ^ 116 + dieOf p.core * 2 ^ 114 + p.fld % 2 ^ 16 * 2 ^ 98 + p.plot % 2 ^ 24 * 2 ^ 74 + f.fid * 2 ^ 64 +
    f.pathd.toNat

/-- PDLOG: appends a record at the home of the log's header (R364, R365). -/
def execPdlog (x : FmtTB0) (s : State) : Result :=
  let at_ (p : Plot) (f : Fibre) : Nat := memOff p f x.a 1 0
  runLane { lmWord x.g none x.sel [x.a.toNat] with touch := touches x.sel at_ 64 rightA 64 [0] } s fun c s f =>
    counted .stores s f fun s =>
      let cap := selCap c.p f x.sel.toNat
      let off := at_ c.p f
      match cap.check off 64 rightA 64 [0] with
      | .error e => .of s (capFault c cap off 3 e)
      | .ok (o, y) =>
        onBytes c s f o y 32 fun s =>
          .of ((s.commit c.p.pid).send (c.request f cap o y (.pdlog (cap.len - off) (pathRecord c.p f)))) (.seq f.moreStores)

/-! ### TRAP and SYSC (R423) -/

/-- A precise fault after which RPC is the address after the instruction (R419). -/
def FaultRec.past (code : FaultCode) (pc : Pc) (size : Nat) : FaultRec :=
  { FaultRec.precise code pc with rpc := some (pc + BitVec.ofNat 40 size) }

/-- TRAP (R423). -/
def execTrap (x : FmtTR0) (s : State) : Result :=
  runLane { guard := x.g.toNat } s fun c s _ =>
    .of s (.fault { FaultRec.past .trapi c.iss.pc c.size with num := x.n.toNat })

/-- SYSC (R423). -/
def execSysc (x : FmtTR0) (s : State) : Result :=
  runLane { guard := x.g.toNat } s fun c s _ =>
    .of s (.fault { FaultRec.past .trapi c.iss.pc c.size with num := x.n.toNat, sc := true })

end Sys2Proof.Machine
end

