-- ==== Sys2Proof/Machine/CapInstr.lean ====
section
/-! DEFINITION. Lane capability instructions, and the privileged lane words that read and write system registers or stop the plot
(R392, R393, R404, R405, R425). -/

namespace Sys2Proof.Machine

/-! ### Deriving capabilities (R404) -/

/-- A capability with new BASE, LEN and tag, its other bits kept. -/
def Cap.narrow (c : Cap) (off len : Nat) : Cap :=
  ⟨BitVec.ofNat 24 c.obj ++ (BitVec.ofNat 40 (c.base + off) ++ (BitVec.ofNat 40 len ++ c.bits.extractLsb' 0 24)),
    c.tag && decide (off + len ≤ c.len)⟩

/-- A capability with its rights masked, its other bits kept. -/
def Cap.maskRights (c : Cap) (mask : Nat) : Cap :=
  ⟨c.bits.extractLsb' 18 110 ++ (BitVec.ofNat 10 (c.rights &&& mask) ++ c.bits.extractLsb' 0 8), c.tag⟩

/-- CNARROW (R404). -/
def execCnarrow (x : FmtCN) (s : State) : Result :=
  runPure { guard := x.g.toNat, size := sizeOf x.p, codes := [x.b.toNat, x.b.toNat + 1, 128 + x.src.toNat], dst := [128 + x.ad.toNat] } s fun c f =>
    let off := (readReg c.p f x.b.toNat).toNat
    let len := (readReg c.p f (x.b.toNat + 1)).toNat
    (f.setA x.ad.toNat ((f.areg x.src.toNat).narrow off len), 0, [])

/-- CRIGHT: removes the rights of the immediate's mask (R404). -/
def execCright (x : FmtCN) (s : State) : Result :=
  runPure { guard := x.g.toNat, size := sizeOf x.p, codes := [128 + x.src.toNat], dst := [128 + x.ad.toNat] } s fun _ f =>
    let drop := wrap 10 (simm x.p 7 x.b.toNat)
    (f.setA x.ad.toNat ((f.areg x.src.toNat).maskRights (1023 - drop)), 0, [])

/-- CMOV (R404). -/
def execCmov (x : FmtCM) (s : State) : Result :=
  runPure { guard := x.g.toNat, size := sizeOf x.p, codes := [128 + x.src.toNat], dst := [128 + x.ad.toNat] } s fun _ f => (f.setA x.ad.toNat (f.areg x.src.toNat), 0, [])

/-! ### Reading a capability's fields (R405) -/

/-- The two words of a 40-bit field. -/
def words40 (n : Nat) : List Word :=
  [BitVec.ofNat 32 n, BitVec.ofNat 32 (n / 2 ^ 32)]

/-- CBASE (R405). -/
def execCbase (x : FmtCQ) (s : State) : Result :=
  runPure { guard := x.g.toNat, size := sizeOf x.p, codes := [128 + x.src.toNat], dst := codesFrom x.d.toNat 2 } s fun _ f =>
    (f.setVs x.d.toNat (words40 (f.areg x.src.toNat).base), 0, [])

/-- CLEN (R405). -/
def execClen (x : FmtCQ) (s : State) : Result :=
  runPure { guard := x.g.toNat, size := sizeOf x.p, codes := [128 + x.src.toNat], dst := codesFrom x.d.toNat 2 } s fun _ f =>
    (f.setVs x.d.toNat (words40 (f.areg x.src.toNat).len), 0, [])

/-- CVALID (R405). -/
def execCvalid (x : FmtCQ) (s : State) : Result :=
  runPure { guard := x.g.toNat, size := sizeOf x.p, codes := [128 + x.src.toNat], dst := [x.d.toNat] } s fun _ f =>
    let c := f.areg x.src.toNat
    (f.setV x.d.toNat (BitVec.ofNat 32 (c.tag.toNat + 16 * c.rights + 2 ^ 16 * c.kind)), 0, [])

/-! ### System registers (R392, R393) -/

/-- The value of a system register by number; LEVEL reads 1, since only a system-level fibre reads it (R392). -/
def Ctx.sysReg (c : Ctx) (n : Nat) : Word :=
  match n with
  | 0 => BitVec.ofNat 32 c.num
  | 1 => c.otfr
  | 2 => c.otnp.setWidth 32
  | 3 => c.otne.setWidth 32
  | 4 => c.shape.setWidth 32
  | 5 => c.exlog.setWidth 32
  | 14 => 1
  | _ => (c.ll.getD (n - 6) 0).setWidth 32

/-- A context with a system register written: bits outside its fields are ignored, and so is a write to CTX or LEVEL. A launch list
whose SYS bit the host has not enabled keeps its value (R392, R393). -/
def Ctx.setSysReg (c : Ctx) (n : Nat) (v : Word) : Ctx :=
  match n with
  | 0 => c
  | 1 => { c with otfr := v }
  | 2 => { c with otnp := v.setWidth 24 }
  | 3 => { c with otne := v.setWidth 24 }
  | 4 => { c with shape := v.setWidth 25 }
  | 5 => { c with exlog := v.setWidth 25 }
  | 14 => c
  | _ => if v.getLsbD 25 && !c.sysLists then c else { c with ll := c.ll.set (n - 6) (v.setWidth 26) }

/-- The number of a system register: the unsigned IMMX:B (R393). -/
def sysNum (p : Option Pfx) (n : BitVec 7) : Nat :=
  uimm p 7 n.toNat

/-- MFSR (R393). -/
def execMfsr (x : FmtMF) (s : State) : Result :=
  runLane { guard := x.g.toNat, size := sizeOf x.p, dst := [x.d.toNat], privileged := true } s fun c s f =>
    let v := match s.ctx? c.p.ctx with
      | some k => k.sysReg (sysNum x.p x.n)
      | none => 0
    .of s (.seq (f.setV x.d.toNat v))

/-- MTSR: members write in ascending lane order (R393). -/
def execMtsr (x : FmtMT) (s : State) : Result :=
  runLane { guard := x.g.toNat, size := sizeOf x.p, codes := [x.a.toNat], privileged := true } s fun c s f =>
    let t := match s.ctx? c.p.ctx with
      | some k => s.setCtx (k.setSysReg (sysNum x.p x.n) (readReg c.p f x.a.toNat))
      | none => s
    .of t (.seq f)

/-! ### HALT and DBGB (R425) -/

/-- HALT: stops the plot with cause 24 in every member; the halt goes to the reeve (R425). -/
def execHalt (x : FmtN) (s : State) : Result :=
  runLane { size := sizeOf x.p, privileged := true } s fun c s _ =>
    .of s (.fault (.past .halt c.iss.pc c.size))

/-- DBGB: raises DBG in every member (R425). -/
def execDbgb (x : FmtN) (s : State) : Result :=
  runLane { size := sizeOf x.p, privileged := true } s fun c s _ =>
    .of s (.fault (.past .dbg c.iss.pc c.size))

end Sys2Proof.Machine
end

