-- ==== Sys2Proof/Machine/Check.lean ====
section
/-! DEFINITION. The checks of a decoded word that need the plot's window: register operands, reserved codes, prefix fields (R61, R62,
R66, R71 point 2). -/

namespace Sys2Proof.Machine

/-- A register operand that n registers are read from: aligned to n, inside the window or k0 to k31 (R61). -/
def rdNat (w c n : Nat) : Bool :=
  if c < 96 then decide (c % n = 0) && decide (c + n ≤ w) else decide ((c - 96) % n = 0) && decide (c - 96 + n ≤ 32)

/-- A register operand field that n registers are read from (R61). -/
def rd (w : Nat) (c : BitVec 7) (n : Nat) : Bool :=
  rdNat w c.toNat n

/-- A register operand field that n registers are written to: v registers only (R61). -/
def wr (w : Nat) (c : BitVec 7) (n : Nat) : Bool :=
  decide (c.toNat < 96) && rdNat w c.toNat n

/-- Prefix fields beside TY that an entry accepts: RM, SAT, C, IMMX; the others are zero, and RM is no reserved code (R66, R67). -/
def pfxTy (p : Option Pfx) (rm sat c immx : Bool) : Bool :=
  (if rm then decide (pRm p ≤ 5) else pRm p == 0) && (sat || !pSat p) && (c || pC p == 0) && (immx || pImmx p == 0)

/-- As pfxTy, of an entry that accepts no TY (R66). -/
def pfxOnly (p : Option Pfx) (rm sat c immx : Bool) : Bool :=
  pTy p == 0 && pfxTy p rm sat c immx

/-- No prefix, or one of zeros (R66). -/
def plain (p : Option Pfx) : Bool :=
  pfxOnly p false false false false

/-- A third source in C, which a zero leaves at its default (R61, R128). -/
def third (w : Nat) (p : Option Pfx) : Bool :=
  pC p == 0 || rdNat w (pC p) 1

/-- The TY codes of the float arithmetic: FP32, H2, B2 (R141). -/
def laneFp (p : Option Pfx) : Bool :=
  [0, 24, 25].contains (pTy p)

/-- QDOT's prefix (R151). -/
def checkQdot (w : Nat) (x : FmtRP) : Bool :=
  [26, 3, 4].contains x.p.ty.toNat && decide (x.p.rm.toNat ≤ 5) && rd w x.p.c 1 &&
    decide (x.p.immx.toNat < 32) && (decide (16 ≤ x.p.immx.toNat) || decide (x.p.immx.toNat < 8))

/-- FPACK's format and element pair (R147). -/
def checkFpack (x : FmtR) : Bool :=
  decide (1 ≤ pTy x.p ∧ pTy x.p ≤ 19) && decide (pImmx x.p < 16) && decide (2 * pImmx x.p + 1 < 32 / tyWidth (pTy x.p))

/-- FUNPK's format and element (R148). -/
def checkFunpk (x : FmtFE) : Bool :=
  (decide (1 ≤ pTy x.p ∧ pTy x.p ≤ 19) || pTy x.p == 26) && decide (x.e.toNat < 32 / tyWidth (pTy x.p))

/-- FCVT's formats, 64-bit ones in register pairs (R146). -/
def checkFcvt (w : Nat) (x : FmtFE) : Bool :=
  let regs (ty : Nat) : Nat := if ty = 22 ∨ ty = 23 then 2 else 1
  decide (pTy x.p ≤ 23) && (decide (x.e.toNat ≤ 23) || x.e == 26) && wr w x.d (regs (pTy x.p)) && rd w x.a (regs x.e.toNat)

/-- An atomic of one of the types listed; the operand of .U64 is an even pair (R264, R265). -/
def checkAtom (w : Nat) (x : FmtMN) (tys : List Nat) : Bool :=
  wr w x.d (atomSize (pTy x.p) / 4) && rd w x.a 1 && tys.contains (pTy x.p) && pfxTy x.p false false false false

/-- A RED of one of the types listed (R264, R265). -/
def checkRed (w : Nat) (x : FmtMN) (tys : List Nat) : Bool :=
  rd w x.d (atomSize (pTy x.p) / 4) && rd w x.a 1 && tys.contains (pTy x.p) && pfxTy x.p false false false false

/-- A lattice instruction's prefix: a type code of R280, the other fields but C zero (R284). -/
def latType (p : Pfx) : Bool :=
  decide (1 ≤ p.ty.toNat ∧ p.ty.toNat ≤ 8) && p.rm == 0 && p.sat == 0 && p.immx == 0

/-- Whether a decoded instruction is well formed for a window of w registers (R71 point 2). The steps that are no instruction words
are not. -/
def checkWord (w : Nat) (i : Instr) : Bool :=
  match i with
  | .iadd x => wr w x.d 1 && rd w x.a 1 && rd w x.b 1 && pfxOnly x.p false true false false
  | .isub x => wr w x.d 1 && rd w x.a 1 && rd w x.b 1 && pfxOnly x.p false true false false
  | .imul x => wr w x.d 1 && rd w x.a 1 && rd w x.b 1 && pfxOnly x.p false true false false
  | .imulh x => wr w x.d 1 && rd w x.a 1 && rd w x.b 1 && plain x.p
  | .imulhU x => wr w x.d 1 && rd w x.a 1 && rd w x.b 1 && plain x.p
  | .imad x => wr w x.d 1 && rd w x.a 1 && rd w x.b 1 && pfxOnly x.p false true true false && third w x.p
  | .idiv x => wr w x.d 1 && rd w x.a 1 && rd w x.b 1 && pfxOnly x.p false true false false
  | .idivU x => wr w x.d 1 && rd w x.a 1 && rd w x.b 1 && plain x.p
  | .imin x => wr w x.d 1 && rd w x.a 1 && rd w x.b 1 && plain x.p
  | .iminU x => wr w x.d 1 && rd w x.a 1 && rd w x.b 1 && plain x.p
  | .imax x => wr w x.d 1 && rd w x.a 1 && rd w x.b 1 && plain x.p
  | .imaxU x => wr w x.d 1 && rd w x.a 1 && rd w x.b 1 && plain x.p
  | .iaddc x => wr w x.d 1 && rd w x.a 1 && rd w x.b 1 && pfxOnly x.p false false true false && decide (pC x.p ≤ 7)
  | .isubb x => wr w x.d 1 && rd w x.a 1 && rd w x.b 1 && pfxOnly x.p false false true false && decide (pC x.p ≤ 7)
  | .and x => wr w x.d 1 && rd w x.a 1 && rd w x.b 1 && plain x.p
  | .or x => wr w x.d 1 && rd w x.a 1 && rd w x.b 1 && plain x.p
  | .xor x => wr w x.d 1 && rd w x.a 1 && rd w x.b 1 && plain x.p
  | .shl x => wr w x.d 1 && rd w x.a 1 && rd w x.b 1 && plain x.p
  | .shr x => wr w x.d 1 && rd w x.a 1 && rd w x.b 1 && plain x.p
  | .sar x => wr w x.d 1 && rd w x.a 1 && rd w x.b 1 && plain x.p
  | .rol x => wr w x.d 1 && rd w x.a 1 && rd w x.b 1 && plain x.p
  | .bfx x => wr w x.d 1 && rd w x.a 1 && rd w x.b 1 && plain x.p
  | .bfi x => wr w x.d 1 && rd w x.a 1 && rd w x.b 1 && pfxOnly x.p false false true false && third w x.p
  | .isel x => wr w x.d 1 && rd w x.a 1 && rd w x.b 1 && plain x.p
  | .icmp x => decide (x.cond.toNat ≤ 9) && rd w x.a 1 && rd w x.b 1 && plain x.p
  | .iaddLi x => wr w x.d 1 && rd w x.a 1 && pfxOnly x.p false true false true
  | .andLi x => wr w x.d 1 && rd w x.a 1 && pfxOnly x.p false false false true
  | .orLi x => wr w x.d 1 && rd w x.a 1 && pfxOnly x.p false false false true
  | .xorLi x => wr w x.d 1 && rd w x.a 1 && pfxOnly x.p false false false true
  | .shlLi x => wr w x.d 1 && rd w x.a 1 && pfxOnly x.p false false false true
  | .shrLi x => wr w x.d 1 && rd w x.a 1 && pfxOnly x.p false false false true
  | .sarLi x => wr w x.d 1 && rd w x.a 1 && pfxOnly x.p false false false true
  | .icmpLi x => decide (x.cond.toNat ≤ 9) && rd w x.a 1 && pfxOnly x.p false false false true
  | .iabs x => wr w x.d 1 && rd w x.a 1 && pfxOnly x.p false true false false
  | .ineg x => wr w x.d 1 && rd w x.a 1 && pfxOnly x.p false true false false
  | .not x => wr w x.d 1 && rd w x.a 1 && plain x.p
  | .popc x => wr w x.d 1 && rd w x.a 1 && plain x.p
  | .clz x => wr w x.d 1 && rd w x.a 1 && plain x.p
  | .brev x => wr w x.d 1 && rd w x.a 1 && plain x.p
  | .mov x => wr w x.d 1 && rd w x.a 1 && plain x.p
  | .movi x => wr w x.d 1 && pfxOnly x.p false false false true
  | .pand _ => true
  | .por _ => true
  | .pxor _ => true
  | .pnot _ => true
  | .p2v x => wr w x.d 1 && plain x.p
  | .v2p x => rd w x.a 1 && plain x.p
  | .bara x => wr w x.d 1 && rd w x.a 1 && rd w x.b 1 && pfxOnly x.p false false false true && decide (pImmx x.p < 16)
  | .barw x => rd w x.a 1 && rd w x.b 1 && pfxOnly x.p false false false true && decide (pImmx x.p < 16)
  | .bart x => wr w x.d 1 && rd w x.a 1 && rd w x.b 1 && pfxOnly x.p false false false true && decide (pImmx x.p < 16)
  | .cnarrow x => rd w x.b 2 && plain x.p
  | .cright x => pfxOnly x.p false false false true
  | .cmov x => plain x.p
  | .cbase x => wr w x.d 2 && plain x.p
  | .clen x => wr w x.d 2 && plain x.p
  | .cvalid x => wr w x.d 1 && plain x.p
  | .mfsr x => wr w x.d 1 && pfxOnly x.p false false false true && decide (uimm x.p 7 x.n.toNat ≤ 14)
  | .mtsr x => rd w x.a 1 && pfxOnly x.p false false false true && decide (uimm x.p 7 x.n.toNat ≤ 14)
  | .eret x => rd w x.a 1 && plain x.p
  | .halt x => plain x.p
  | .dbgb x => plain x.p
  | .fadd x => wr w x.d 1 && rd w x.a 1 && rd w x.b 1 && laneFp x.p && pfxTy x.p true true false false
  | .fsub x => wr w x.d 1 && rd w x.a 1 && rd w x.b 1 && laneFp x.p && pfxTy x.p true true false false
  | .fmul x => wr w x.d 1 && rd w x.a 1 && rd w x.b 1 && laneFp x.p && pfxTy x.p true true false false
  | .ffma x => wr w x.d 1 && rd w x.a 1 && rd w x.b 1 && laneFp x.p && pfxTy x.p true true true false && third w x.p
  | .fmin x => wr w x.d 1 && rd w x.a 1 && rd w x.b 1 && laneFp x.p && pfxTy x.p false false false false
  | .fmax x => wr w x.d 1 && rd w x.a 1 && rd w x.b 1 && laneFp x.p && pfxTy x.p false false false false
  | .fcmp x => decide (x.cond.toNat ≤ 7) && rd w x.a 1 && rd w x.b 1
  | .dot4 x => wr w x.d 1 && rd w x.a 1 && rd w x.b 1 && pfxOnly x.p false true true false && third w x.p
  | .fdot2 x => wr w x.d 1 && rd w x.a 1 && rd w x.b 1 && pfxOnly x.p true true true false && third w x.p
  | .qdotE2m1 x => wr w x.d 1 && rd w x.a 1 && rd w x.b 1 && checkQdot w x
  | .qdotInt4 x => wr w x.d 1 && rd w x.a 1 && rd w x.b 1 && checkQdot w x
  | .qdotUint4 x => wr w x.d 1 && rd w x.a 1 && rd w x.b 1 && checkQdot w x
  | .fpack x => wr w x.d 1 && rd w x.a 1 && rd w x.b 1 && pfxTy x.p true true false true && checkFpack x
  | .funpk x => wr w x.d 1 && rd w x.a 1 && pfxTy x.p false false false false && checkFunpk x
  | .fcvt x => checkFcvt w x && pfxTy x.p true true false false
  | .fclass x => wr w x.d 1 && rd w x.a 1 && pfxTy x.p false false false false && decide (pTy x.p ≤ 2)
  | .frnd x => wr w x.d 1 && rd w x.a 1 && pfxTy x.p true false false false && decide (pTy x.p ≤ 2)
  | .exp2 x => wr w x.d 1 && rd w x.a 1
  | .log2 x => wr w x.d 1 && rd w x.a 1
  | .rcp x => wr w x.d 1 && rd w x.a 1
  | .rsq x => wr w x.d 1 && rd w x.a 1
  | .sqrt x => wr w x.d 1 && rd w x.a 1
  | .sin x => wr w x.d 1 && rd w x.a 1
  | .cos x => wr w x.d 1 && rd w x.a 1
  | .tanh x => wr w x.d 1 && rd w x.a 1
  | .sigm x => wr w x.d 1 && rd w x.a 1
  | .shflIdx x => wr w x.d 1 && rd w x.a 1 && rd w x.b 1
  | .shflUp x => wr w x.d 1 && rd w x.a 1 && rd w x.b 1
  | .shflDn x => wr w x.d 1 && rd w x.a 1 && rd w x.b 1
  | .shflXor x => wr w x.d 1 && rd w x.a 1 && rd w x.b 1
  | .voteAny x => wr w x.d 1
  | .voteAll x => wr w x.d 1
  | .voteBal x => wr w x.d 1
  | .lredAdd x => wr w x.d 1 && rd w x.a 1
  | .lredMin x => wr w x.d 1 && rd w x.a 1
  | .lredMax x => wr w x.d 1 && rd w x.a 1
  | .lredAnd x => wr w x.d 1 && rd w x.a 1
  | .lredOr x => wr w x.d 1 && rd w x.a 1
  | .lredXor x => wr w x.d 1 && rd w x.a 1
  | .lredMinU x => wr w x.d 1 && rd w x.a 1
  | .lredMaxU x => wr w x.d 1 && rd w x.a 1
  | .matchLanes x => wr w x.d 1 && rd w x.a 1
  | .ld8 x => wr w x.d 1 && rd w x.a 1 && pfxOnly x.p false false false true
  | .ld16 x => wr w x.d 1 && rd w x.a 1 && pfxOnly x.p false false false true
  | .ld32 x => wr w x.d 1 && rd w x.a 1 && pfxOnly x.p false false false true
  | .ld64 x => wr w x.d 2 && rd w x.a 1 && pfxOnly x.p false false false true
  | .ld128 x => wr w x.d 4 && rd w x.a 1 && pfxOnly x.p false false false true
  | .ld8S x => wr w x.d 1 && rd w x.a 1 && pfxOnly x.p false false false true
  | .ld16S x => wr w x.d 1 && rd w x.a 1 && pfxOnly x.p false false false true
  | .st8 x => rd w x.d 1 && rd w x.a 1 && pfxOnly x.p false false false true
  | .st16 x => rd w x.d 1 && rd w x.a 1 && pfxOnly x.p false false false true
  | .st32 x => rd w x.d 1 && rd w x.a 1 && pfxOnly x.p false false false true
  | .st64 x => rd w x.d 2 && rd w x.a 1 && pfxOnly x.p false false false true
  | .st128 x => rd w x.d 4 && rd w x.a 1 && pfxOnly x.p false false false true
  | .lds8 x => wr w x.d 1 && rd w x.a 1 && pfxOnly x.p false false false true
  | .lds16 x => wr w x.d 1 && rd w x.a 1 && pfxOnly x.p false false false true
  | .lds32 x => wr w x.d 1 && rd w x.a 1 && pfxOnly x.p false false false true
  | .lds64 x => wr w x.d 2 && rd w x.a 1 && pfxOnly x.p false false false true
  | .lds128 x => wr w x.d 4 && rd w x.a 1 && pfxOnly x.p false false false true
  | .lds8S x => wr w x.d 1 && rd w x.a 1 && pfxOnly x.p false false false true
  | .lds16S x => wr w x.d 1 && rd w x.a 1 && pfxOnly x.p false false false true
  | .sts8 x => rd w x.d 1 && rd w x.a 1 && pfxOnly x.p false false false true
  | .sts16 x => rd w x.d 1 && rd w x.a 1 && pfxOnly x.p false false false true
  | .sts32 x => rd w x.d 1 && rd w x.a 1 && pfxOnly x.p false false false true
  | .sts64 x => rd w x.d 2 && rd w x.a 1 && pfxOnly x.p false false false true
  | .sts128 x => rd w x.d 4 && rd w x.a 1 && pfxOnly x.p false false false true
  | .lda x => decide (x.imm.toNat ≤ 1) && wr w x.d (sizeCode x.imm / 4) && rd w x.a 1 &&
      pfxOnly x.p false false true false && decide (pC x.p ≤ 5)
  | .str x => decide (x.imm.toNat ≤ 1) && rd w x.d (sizeCode x.imm / 4) && rd w x.a 1 &&
      pfxOnly x.p false false true false && decide (pC x.p ≤ 5)
  | .ldk x => decide (x.imm.toNat ≤ 2) && wr w x.d (sizeCode x.imm / 4) && rd w x.a 1
  | .atomAdd x => checkAtom w x [0, 20, 21, 22, 25]
  | .atomMin x => checkAtom w x [0, 20, 21, 22, 25]
  | .atomMax x => checkAtom w x [0, 20, 21, 22, 25]
  | .atomAnd x => checkAtom w x [20, 21, 22]
  | .atomOr x => checkAtom w x [20, 21, 22]
  | .atomXor x => checkAtom w x [20, 21, 22]
  | .atomExch x => checkAtom w x [0, 20, 21, 22, 25]
  | .atomCas x => wr w x.d (atomSize (pTy x.p) / 4) && rd w x.a 1 && [0, 20, 21, 22, 25].contains (pTy x.p) &&
      pfxTy x.p false false true false && rdNat w (pC x.p) (atomSize (pTy x.p) / 4)
  | .atomInc x => checkAtom w x [20, 22]
  | .redAdd x => checkRed w x [0, 20, 21, 22, 25]
  | .redMin x => checkRed w x [0, 20, 21, 22, 25]
  | .redMax x => checkRed w x [0, 20, 21, 22, 25]
  | .redAnd x => checkRed w x [20, 21, 22]
  | .redOr x => checkRed w x [20, 21, 22]
  | .redXor x => checkRed w x [20, 21, 22]
  | .pref x => decide (x.d.toNat ≤ 1) && rd w x.a 1 && pfxOnly x.p false false false true
  | .waitaEq x => rd w x.d 1 && rd w x.a 1
  | .waitaNe x => rd w x.d 1 && rd w x.a 1
  | .waitaGe x => rd w x.d 1 && rd w x.a 1
  | .ldlat x => latType x.p && wr w x.d (latRegs x.p.ty.toNat) && rd w x.a 1 && (x.p.c == 0 || rd w x.p.c (latRegs x.p.ty.toNat))
  | .ljoin x => latType x.p && rd w x.d (latRegs x.p.ty.toNat) && rd w x.a 1 && x.p.c == 0
  | .publ x => decide (x.imm.toNat ≤ 5) && rd w x.d 1 && rd w x.a 1
  | .cld x => rd w x.a 1 && pfxOnly x.p false false false true
  | .cst x => rd w x.a 1 && pfxOnly x.p false false false true
  | .fence x => decide (x.scope.toNat ≤ 5)
  | .wait _ => true
  | .bra x => pfxOnly x.p false false false true
  | .braJ x => pfxOnly x.p false false false true
  | .brx x => rd w x.a 1
  | .call x => pfxOnly x.p false false false true
  | .loop x => decide (x.lc.toNat ≤ 2) && rd w x.cnt 1 && pfxOnly x.p false false false true &&
      decide (uimm x.p 15 x.fin.toNat ≠ 0)
  | .spawn x => decide (x.n.toNat ≤ 96) && decide (x.n.toNat ≤ w) && pfxOnly x.p false false false true
  | .join _ => true
  | .nop x => plain x.p
  | .ret x => rd w x.a 1 && plain x.p
  | .exit x => plain x.p
  | .yield x => plain x.p
  | .bind x => plain x.p
  | .unbind x => plain x.p
  | .pmark x => plain x.p
  | .sign _ => true
  | .cvset x => decide (1 ≤ x.count.toNat) && decide (x.count.toNat ≤ 1024)
  | .s2v x => wr w x.d 1 && decide (x.n.toNat ≤ 13)
  | .pdlog x => rd w x.a 1
  | .trap _ => true
  | .sysc _ => true
  | .uadd x => pfxOnly x.p false true false false
  | .usub x => pfxOnly x.p false true false false
  | .umul x => pfxOnly x.p false true false false
  | .umad x => pfxOnly x.p false true true false && (pC x.p == 0 || decide (96 ≤ pC x.p))
  | .uand x => plain x.p
  | .uor x => plain x.p
  | .uxor x => plain x.p
  | .ushl x => plain x.p
  | .ushr x => plain x.p
  | .umin x => plain x.p
  | .umax x => plain x.p
  | .umov x => plain x.p
  | .ucmp x => decide (x.f.toNat ≤ 5) && plain x.p
  | .usel x => plain x.p
  | .ucnar x => decide (x.b.toNat % 4 = 0) && plain x.p
  | .uaddUi x => pfxOnly x.p false false false true
  | .uandUi x => pfxOnly x.p false false false true
  | .uorUi x => pfxOnly x.p false false false true
  | .ushlUi x => pfxOnly x.p false false false true
  | .ushrUi x => pfxOnly x.p false false false true
  | .umovi x => pfxOnly x.p false false false true
  | .sbld x => decide (x.glob = 1) || decide (x.bs = 0)
  | .mmrun _ => true
  | .mmout _ => true
  | .mtab x => decide (x.glob = 1) || decide (x.bs = 0)
  | .mbias x => decide (x.glob = 1) || decide (x.bs = 0)
  | .copyGs _ => true
  | .copySg _ => true
  | .copyGg _ => true
  | .tcopyGs _ => true
  | .tcopySg _ => true
  | .copypIn _ => true
  | .copypOut _ => true
  | .coll _ => true
  | .barinit _ => true
  | .sow _ => true
  | .ldlayer _ => true
  | .rellayer _ => true
  | .mint _ => true
  | .seal _ => true
  | .objinv _ => true
  | .migr _ => true
  | .biasD _ => true
  | .biasH _ => true
  | .unpubl _ => true
  | .uniformPipeExecute _ => false
  | .uniformResultWrite _ => false
  | .laneResultWrite _ => false
  | .loadReturn _ => false
  | .storeAcknowledge _ => false
  | .formFurrow _ _ => false
  | .fillWaitExpiry _ _ => false
  | .groupPromotion _ _ => false
  | .issueSelect _ _ => false
  | .furrowPromotion _ _ => false
  | .binTimerExpiry _ => false
  | .joinHoldExpiry _ _ => false
  | .engineQueueEntry _ => false
  | .matrixCommandStart _ => false
  | .scratchpadPortGrant _ => false
  | .matrixCommandComplete _ => false
  | .wainCommandStart _ => false
  | .pieceLanded _ => false
  | .collRootResult _ _ => false
  | .homeRequest => false
  | .drain _ => false
  | .drainAcknowledge _ => false
  | .recall _ _ _ _ => false
  | .gather _ _ _ _ => false
  | .writeBack => false
  | .l1Eviction _ _ _ _ => false
  | .ownershipRetry => false
  | .watchRetest _ _ => false
  | .ldlatRetest _ _ => false
  | .objectDrop _ _ _ => false
  | .migrationLineCopy _ _ _ => false
  | .migrationComplete _ _ _ => false
  | .publLineMove => false
  | .publComplete => false
  | .hostAtomicCompletion => false
  | .hostSnoop _ => false
  | .hostMemRead _ _ _ _ => false
  | .hostMemWrite _ _ _ _ _ => false
  | .exchangeTick _ _ _ => false
  | .latticeMerge => false
  | .takeRecord _ _ => false
  | .tailRetest _ _ => false
  | .fieldEligible _ _ => false
  | .placePlot => false
  | .gangWaitLimit => false
  | .gangOfOne => false
  | .restoreRoom => false
  | .plotRetirement _ => false
  | .portFaultReport _ => false
  | .haltComplete _ => false
  | .haltFrameWrite _ => false
  | .handlerStart _ => false
  | .handlerTimeout _ => false
  | .hostEscalationAnswer _ _ _ => false
  | .preemptionRequest _ _ => false
  | .drainBudgetExpiry _ => false
  | .save _ => false
  | .restore _ => false
  | .contextSwitch _ _ => false
  | .contextCreate _ => false
  | .cropRegistration _ => false
  | .swapIn _ _ => false
  | .swapInComplete _ _ => false
  | .swapInTimeout _ _ => false
  | .uncorrectableError _ => false
  | .scrub _ _ => false
  | .flitReplay _ _ => false
  | .linkRetrainComplete _ => false
  | .linkDown _ => false
  | .controlTimeout _ _ => false
  | .lateAnswer => false
  | .yotisFlitLost _ _ => false
  | .hostLinkDown => false
  | .debuggerHalt _ => false
  | .debuggerResume _ => false
  | .powerGood => false
  | .stageComplete _ _ => false
  | .perstDeassert => false
  | .clockRebalance _ _ _ => false
  | .thermalThrottle _ => false
  | .thermalShutdown _ => false
  | .monitorWindow _ _ => false
  | .monitorControlWrite _ _ _ => false
  | .managementRegisterWrite _ _ => false
  | .contextDestroy _ => false
  | .contextSwitchBack _ => false
  | .savePool _ _ => false
  | .debuggerAttach _ _ => false
  | .debuggerAction _ _ => false
  | .corePowerGate _ => false
  | .yotisRetrain _ _ => false
  | .packageReset => false

end Sys2Proof.Machine
end

