-- ==== Sys2Proof/Machine/Select.lean ====
section
/-! DEFINITION. From an issue to the instruction it runs: fetch, decode, the checks of R71. -/

namespace Sys2Proof.Machine

/-- The issue ends with one fault in every member, nothing else changed (R71). -/
def State.issueFault (s : State) (iss : Issue) (p : Plot) (r : FaultRec) : State :=
  let fids := (iss.members.map (·.2)).filter fun f => (p.fibre? f).isSome
  s.finish iss {} p (fids.map fun f => (f, .fault r, 0, []))

/-- The instruction that an issue runs, or the state after its fetch or encoding fault (R71 points 1 and 2). -/
def State.instrOf (s : State) (iss : Issue) : Except State Instr :=
  match s.plot? iss.pid with
  | none => .error { s with issuing := none }
  | some p =>
    match s.fetch p iss.pc with
    | .error r => .error (s.issueFault iss p r)
    | .ok (w0, w1) =>
      match decodeWords w0 w1 with
      | .error _ => .error (s.issueFault iss p (.precise .illop iss.pc))
      | .ok (i, _) =>
        if checkWord p.window i then .ok i else .error (s.issueFault iss p (.precise .illop iss.pc))

end Sys2Proof.Machine
end

