-- ==== Sys2Proof/Machine/Launch.lean ====
section
/-! DEFINITION. Launch records, the reeve's checks of them, room on a core, the initial state of a plot (R17, R196, R323 to R327,
R331). -/

namespace Sys2Proof.Machine

/-! ### Reading objects for the reeve -/

/-- Lines of bytes off to off + n - 1 of an object are ready at their homes: Owned copies recalled, ranges gathered (R209, R240,
R242). -/
def State.readyLines (s : State) (ctx obj off n : Nat) : State :=
  if n = 0 then s
  else (List.range ((off + n - 1) / 128 - off / 128 + 1)).foldl (fun t i =>
    let r : LineRef := ⟨ctx, obj, off / 128 + i, 0⟩
    (t.homeReady r none).gather r) s

/-- Bytes off to off + n - 1 of an object as a number, 8 bytes at a time where the number of words is n / 8. -/
def State.objWords (s : State) (ctx obj off n : Nat) : Nat :=
  (List.range (n / 8)).foldl (fun a i => a + s.getObj ctx obj (off + 8 * i) 8 * 2 ^ (64 * i)) 0

/-- Whether the granule of an object at an offset reads as tagged. -/
def State.objTag (s : State) (ctx obj off : Nat) : Bool :=
  match s.place? 0 ctx obj off with
  | some h => s.tagAt h.addr
  | none => false

/-- Whether some granule of bytes of an object is poisoned. -/
def State.objPoisoned (s : State) (ctx obj off n : Nat) : Bool :=
  (List.range (n / 16)).any fun i =>
    match s.place? 0 ctx obj (off + 16 * i) with
    | some h => s.poisoned h.addr 16
    | none => false

/-- The first byte of the first poisoned granule of bytes of an object (R419). -/
def State.objPoisonOff (s : State) (ctx obj off n : Nat) : Nat :=
  match (List.range (n / 16)).find? fun i => s.objPoisoned ctx obj (off + 16 * i) 16 with
  | some i => off + 16 * i
  | none => off

/-! ### The pinned region of a core (R196) -/

/-- The position of each CORE page of the named core, over every object of every context, with those on their way to it, whose lines below the
pointer it holds already (R196, R211). -/
def State.corePages (s : State) (core : Nat) : List Nat :=
  (s.ctxs.flatMap fun c =>
    (List.range c.otne.toNat).flatMap fun obj =>
      match s.entry? c obj with
      | none => []
      | some e =>
        (List.range e.npages).filterMap fun p =>
          let d := s.desc c obj e p
          if d.home = 3 ∧ d.res = 1 ∧ d.ok ∧ d.core = core then some (d.frame % 8) else none) ++
  s.migrations.filterMap fun m =>
    let d := PageDesc.ofNat m.newDesc.toNat
    if d.home = 3 ∧ d.core = core then some (d.frame % 8) else none

/-- The bytes of a core's scratchpad below its pinned region (R196). DESIGN CHOICE (log entry 51): with holes between its pages the region reaches to
the highest position. -/
def State.scratchRoom (s : State) (core : Nat) : Nat :=
  scratchSize - 65536 * ((s.corePages core).foldl (fun m p => max m (p + 1)) 0)

/-! ### Launch records (R325, R326) -/

/-- The record of 2048 bits and the tags of its granules (R325). -/
def LaunchRec.ofNat (r : Nat) (tag : Nat → Bool) : LaunchRec :=
  let cap (g : Nat) : Cap := ⟨BitVec.ofNat 128 (field r (128 * g) 128), tag g⟩
  { code := cap 0, a := (List.range 8).map fun i => cap (i + 1), depc := cap 9, cmpc := cap 10, entry := field r 1408 40,
    plots := field r 1472 24, fibm1 := field r 1496 10, win := field r 1506 4, scr := field r 1510 12, prio := field r 1522 3,
    replant := bit r 1525, gang := bit r 1526, place := field r 1527 2, hdie := field r 1529 2, bint := field r 1536 16,
    jhold := field r 1552 16, crop := field r 1568 4, cropv := bit r 1572, est := field r 1600 32, dty := field r 1632 4,
    cty := field r 1636 4, doff := field r 1664 40, coff := field r 1728 40, dval := field r 1792 128, cval := field r 1920 128 }

/-- The launch record at an offset of an object of a context (R324, R370). -/
def State.readRecord (s : State) (ctx obj off : Nat) : LaunchRec :=
  .ofNat (s.objWords ctx obj off 256) fun g => s.objTag ctx obj (off + 16 * g)

/-- The lattice type of a context's object, 0 where it has none. -/
def State.latTypeOf (s : State) (ctx obj : Nat) : Nat :=
  match (s.ctx? ctx).bind fun c => s.entry? c obj with
  | some e => e.latType
  | none => 0

/-- A check of R326 code 6 or 7 fails: of a cell's type, capability, offset and value. -/
def State.badCell (s : State) (ctx : Nat) (ty : Nat) (c : Cap) (need off val : Nat) : Bool :=
  decide (9 ≤ ty) ||
    (ty != 0 && (!c.tag || !rightsWithin need c.rights || c.kind != 2 || s.latTypeOf ctx c.obj != ty ||
      off % latSize ty != 0 || decide (c.len < off + latSize ty) || decide (2 ^ (32 * latRegs ty) ≤ val)))

/-- How many plots of a record an empty core holds that has so many bytes of scratchpad beside its CORE pages (R17, R196). -/
def LaunchRec.perCore (r : LaunchRec) (room : Nat) : Nat :=
  let fib := r.fibm1 + 1
  let n := min 32 (min (2048 / fib) (131072 / (fib * 8 * r.win)))
  if r.scr = 0 then n else min n (room / (256 * r.scr))

/-- Whether the plots of a gang could all be resident at once, every core that its placement allows being empty (R17, R196, R326). -/
def State.gangHolds (s : State) (r : LaunchRec) : Bool :=
  let cores := if r.place = 3 then (List.range 32).map fun i => 32 * r.hdie + i else List.range 128
  decide (r.plots ≤ (cores.map fun k => r.perCore (s.scratchRoom k)).sum)

/-- The refusal code of a record, none where it passes (R326). -/
def State.refusal (s : State) (ctx : Nat) (r : LaunchRec) : Option Nat :=
  if !r.code.tag || r.code.kind != 1 || !rightsWithin rightX r.code.rights then some 1
  else if r.entry % 4 ≠ 0 ∨ r.code.len < r.entry + 4 then some 2
  else if r.plots = 0 then some 3
  else if r.win = 0 ∨ 12 < r.win then some 4
  else if 2048 < r.scr then some 5
  else if s.badCell ctx r.dty r.depc rightR r.doff r.dval then some 6
  else if s.badCell ctx r.cty r.cmpc rightJ r.coff r.cval then some 7
  else if r.cropv && !((s.ctx? ctx).any fun c => c.crops.any fun k => k.num == r.crop) then some 8
  else if r.gang && !s.gangHolds r then some 9
  else none

/-- A field number that no live field of the context has (R73). -/
def State.freeFld (s : State) (ctx start : Nat) : Nat :=
  ((List.range 65536).map fun i => (start + i) % 65536).find? (fun n => !(s.fields.any fun f => f.ctx == ctx && f.fld == n))
    |>.getD start

/-- Takes a field: it has its number, and is eligible at once where it has no dependency (R328). -/
def State.addField (s : State) (ctx : Nat) (r : LaunchRec) (system : Bool) (depth : Nat) (parent : Option (Nat × Nat)) : State :=
  match s.ctx? ctx with
  | none => s
  | some c =>
    let fld := s.freeFld ctx c.nextFld
    let f : Field :=
      { ctx := ctx, fld := fld, record := r, system := system, depth := depth, parent := parent, order := s.nextOrder,
        eligible := if r.dty = 0 then some (s.die 0).cyc else none, unplaced := [], nextPlot := 0, live := 0, retired := 0,
        stepSum := 0, aborted := false }
    { s.setCtx { c with nextFld := (fld + 1) % 65536 } with fields := s.fields ++ [f], nextOrder := s.nextOrder + 1 }

/-! ### Residents of a core (R17, R196) -/

/-- The plots that count against a core's limits: handlers do not (R420). -/
def State.residents (s : State) (core : Nat) : List Plot :=
  s.plots.filter fun p => p.core == core && p.handler.isNone

/-- Whether a plot of n fibres, w windows, window registers each and scr units fits a core beside its residents (R17). -/
def State.hasRoom (s : State) (core n w window scr : Nat) : Bool :=
  let rs := s.residents core
  decide (rs.length + 1 ≤ 32) && decide (s.residentFibres core + n ≤ 2048) &&
    decide (s.windowRegs core + w * window ≤ 131072) &&
    decide ((rs.map (·.ssize)).sum + 256 * scr ≤ s.scratchRoom core)

/-- The lowest free scratchpad base for a size, if the free room has such a hole. -/
def scratchHole (taken : List (Nat × Nat)) (room size : Nat) : Option Nat :=
  (sortBy id (0 :: taken.map fun t => t.1 + t.2)).find? fun b => windowFree taken b size && decide (b + size ≤ room)

/-- Moves the allocations of a core together, in the order of their bases; an allocation's base is invisible (R198). -/
def State.compact (s : State) (core : Nat) : State :=
  let rs := sortBy (·.sbase) (s.residents core)
  let (_, moves) := rs.foldl (fun (acc : Nat × List (Nat × Nat × Nat × Nat)) p =>
    (acc.1 + p.ssize, acc.2 ++ [(p.pid, p.sbase, p.ssize, acc.1)])) (0, [])
  let lo := scratchAddr core
  let hi := lo + s.scratchRoom core
  let moved (a : Nat) : Option Nat :=
    firstSome (moves.map fun m => if lo + m.2.1 ≤ a ∧ a < lo + m.2.1 + m.2.2.1 then some (a - m.2.1 + m.2.2.2) else none)
  let inside (a : Nat) : Bool := decide (lo ≤ a ∧ a < hi)
  let cells := (s.mem.filter fun q => inside q.1).filterMap fun q => (moved q.1).map fun a => (a, q.2)
  let grans (l : List Nat) : List Nat :=
    withAll (l.filter fun g => !inside (16 * g)) ((l.filter fun g => inside (16 * g)).filterMap fun g => (moved (16 * g)).map (· / 16))
  { s with
    mem := cells.foldl (fun m q => Memory.write m q.1 q.2) (s.mem.filter fun q => !inside q.1)
    tags := grans s.tags
    poison := grans s.poison
    plots := s.plots.map fun p =>
      match moves.find? fun m => m.1 == p.pid with
      | some m => { p with sbase := m.2.2.2 }
      | none => p }

/-- A base for an allocation of a size on a core, the residents moved together where no hole is large enough. -/
def State.allocScratch (s : State) (core size : Nat) : State × Nat :=
  let taken (t : State) : List (Nat × Nat) := (t.residents core).map fun p => (p.sbase, p.ssize)
  match scratchHole (taken s) (s.scratchRoom core) size with
  | some b => (s, b)
  | none =>
    let t := s.compact core
    (t, (scratchHole (taken t) (t.scratchRoom core) size).getD 0)

/-- The room that a core's plots have beside a page at a position of its pinned region (R196). -/
def State.roomBeside (s : State) (core pos : Nat) : Nat :=
  min (s.scratchRoom core) (scratchSize - 65536 * (pos + 1))

/-- Whether a core's resident allocations fit beside a page that comes to a position of its pinned region (R17, R196). -/
def State.roomForPage (s : State) (core pos : Nat) : Bool :=
  decide (((s.residents core).map (·.ssize)).sum ≤ s.roomBeside core pos)

/-- The allocations that a page at a position would cover move below it, an allocation's base being invisible (R196, R198). -/
def State.clearRegion (s : State) (core pos : Nat) : State :=
  if (s.residents core).all fun p => decide (p.sbase + p.ssize ≤ s.roomBeside core pos) then s else s.compact core

/-! ### The initial state of a plot (R28, R30, R327) -/

/-- A fibre at plot launch. -/
def Fibre.launched (fid window wbase : Nat) (entry : Pc) (a : List Cap) (since : Nat) : Fibre :=
  { fid := fid, pc := entry, preds := 0, wbase := wbase, v := List.replicate window 0, a := a, lc := noLoops, loads := 0, stores := 0,
    copies := 0, engine := 0, pathd := 0, seq := [0, 0, 0, 0, 0, 0, 0, 0], run := .ready since, lane := fid % 32, readyAt := since,
    flight := false }

/-- Bases for n windows of a core, one after another. -/
def assignWindows (taken : List (Nat × Nat)) (units : Nat) (fids : List Nat) : List (Nat × Nat) :=
  (fids.foldl (fun (acc : List (Nat × Nat) × List (Nat × Nat)) f =>
    let b := windowBase acc.1 units
    (acc.1 ++ [(b, units)], acc.2 ++ [(f, b)])) (taken, [])).2

/-- A plot without fibres: registers zero, sets free, slots empty (R327). -/
def Plot.blank (pid ctx fld plot core order : Nat) (system : Bool) (handler : Option Nat) (window : Nat) (code : Cap) (entry : Pc) : Plot :=
  { pid := pid, ctx := ctx, fld := fld, plot := plot, core := core, order := order, system := system, handler := handler, window := window,
    code := code, entry := entry, k := List.replicate 64 0, b := List.replicate 16 .null, c := List.replicate 8 .free,
    j := List.replicate 16 .empty, sbase := 0, ssize := 0, flg := 0, flgPend := 0, step := 0, prio := 0, bint := 128, jhold := 64,
    replant := false, uncommitted := false, est := 0, rcnt := 0, disc := 0, progress := [], layers := [], windows := [], fibres := [], exited := [],
    pendLoads := [], pendStores := [], halt := none, drainBy := none, intent := none }

/-- Makes a plot of a field resident on a core, its fibres ready (R327, R331). -/
def State.placeNew (s : State) (f : Field) (plot disc core : Nat) : State :=
  let r := f.record
  let n := r.fibm1 + 1
  let window := 8 * r.win
  let (s, base) := s.allocScratch core (256 * r.scr)
  let ws := assignWindows (s.windowsOf core) r.win (List.range n)
  let since := s.cycOf core + 1
  let entry := BitVec.ofNat 40 r.entry
  let p : Plot :=
    { Plot.blank s.nextPid f.ctx f.fld plot core s.nextOrder f.system none window r.code entry with
      sbase := base, ssize := 256 * r.scr, prio := r.prio, bint := if r.bint = 0 then 128 else r.bint,
      jhold := if r.jhold = 0 then 64 else r.jhold, replant := r.replant, uncommitted := r.replant, est := r.est, disc := disc,
      windows := ws, fibres := ws.map fun w => Fibre.launched w.1 window w.2 entry r.a since }
  let t := { s with plots := s.plots ++ [p], nextPid := s.nextPid + 1, nextOrder := s.nextOrder + 1 }
  (t.modCore core fun k => { k with gated := false }).invalidate core

end Sys2Proof.Machine
end

