-- ==== Sys2Proof/Machine/Uniform.lean ====
section
/-! DEFINITION. Convergence sets at work: signing, completion, the effects of the uniform ALU (R44 to R50, R366 to R368). -/

namespace Sys2Proof.Machine

/-! ### Signing (R45, R47, R49) -/

/-- What the signing of a uniform word needs to know of it: its set, its size, the k and b registers it reads, the counter class that
each signer takes a count of, whether it is privileged, whether its signers park until it completes (R453), whether it commits a replant
region (R428). -/
structure UniWord where
  cv : Nat
  size : Nat := 4
  ks : List Nat := []
  bs : List Nat := []
  cls : Option OpClass := none
  privileged : Bool := false
  parks : Bool := false
  commits : Bool := false

/-- One more outstanding operation of a class. -/
def Fibre.more (f : Fibre) (k : Option OpClass) : Fibre :=
  match k with
  | none => f
  | some .loads => { f with loads := f.loads + 1 }
  | some .stores => { f with stores := f.stores + 1 }
  | some .copies => { f with copies := f.copies + 1 }
  | some .engine => { f with engine := f.engine + 1 }

/-- The sequence number of a fibre for a set. -/
def Fibre.seqOf (f : Fibre) (c : Nat) : Nat :=
  f.seq.getD c 0

/-- Adds a signature to an instance, whose first non-neutral one fixes its instruction and PC (R46). -/
def Inst.add (i : Inst) (fid : Nat) (code : Option Instr) (pc : Pc) (size : Nat) : Inst :=
  let sigs := i.sigs ++ [⟨fid, code.isNone⟩]
  if i.code.isNone then { i with sigs := sigs, code := code, pc := pc, size := size } else { i with sigs := sigs }

/-- A new instance with its first signature; its required signers are the members (R46). -/
def Inst.open (num fid : Nat) (code : Option Instr) (pc : Pc) (size : Nat) (req : List Nat) : Inst :=
  { num := num, code := code, pc := pc, size := size, sigs := [⟨fid, code.isNone⟩], req := req, complete := false, executed := false,
    retried := false, park := none }

/-- The outcome of a member's signature: what it is, or the set with the signature. -/
inductive SignOutcome where
  | barx
  | umis
  | park (w : Park)
  | signed (x : CSet) (num : Nat)
  deriving DecidableEq, Repr

/-- A member signs the next instance of a set (R44 to R47, R359). code is none for a neutral signature. -/
def Plot.sign (p : Plot) (f : Fibre) (cv : Nat) (code : Option Instr) (pc : Pc) (size : Nat) : SignOutcome :=
  let x := p.cset cv
  let n := f.seqOf cv
  if !(p.membersOf cv).contains f.fid then .barx
  else if cv ≠ 0 ∧ !x.closed then .park (.setClose cv)
  else if 4 ≤ seqAhead n x.low then .park (.openLimit cv)
  else
    match x.insts.find? fun i => i.num == n with
    | some i =>
      if code.isSome && i.code.isSome && i.pc != pc then .umis
      else .signed { x with insts := x.insts.map fun j => if j.num == n then j.add f.fid code pc size else j } n
    | none => .signed { x with insts := x.insts ++ [Inst.open n f.fid code pc size (p.membersOf cv)], next := (n + 1) % 65536 } n

/-- The signing of one member (R45, R81): it does not wait, but for the parks of R47, R255, R359 and R453; from the ccy after a fault cycle it is
frozen until the plot resumes (R414). -/
def signMember (w : UniWord) (code : Option Instr) (c : IssueCtx) (s : State) (f : Fibre) : Eff :=
  match s.plot? c.p.pid with
  | none => .of s (.seq f)
  | some p =>
    if p.halt.any fun h => h.fcyc != s.cycOf p.core then .of s (.again .frozen)
    else
    match p.sign f w.cv code c.iss.pc c.size with
    | .barx => .of s (.fault (.precise .barx c.iss.pc))
    | .umis => .of s (.fault (.precise .umis c.iss.pc))
    | .park k => .of s (.park f k)
    | .signed x n =>
      let full := match w.cls with
        | some k => counterFull f k
        | none => false
      if full then .of s (.park f (.counter (w.cls.getD .engine)))
      else
        let s := if w.commits && code.isSome then s.commit p.pid else s
        let t := s.modPlot p.pid fun q => q.setCset w.cv x
        let f := { f.more w.cls with seq := f.seq.set w.cv ((n + 1) % 65536) }
        .of t (if w.parks then .park f (.ldlayer w.cv n) else .seq f)

/-- Issues a uniform word: its members sign; a member that waits for a k or b register parks first and signs on waking (R49). -/
def issueUniform (w : UniWord) (i : Instr) (s : State) : Result :=
  runLane { size := w.size, uks := w.ks, bs := w.bs, privileged := w.privileged } s fun c s f => signMember w (some i) c s f

/-! ### Wakes -/

/-- The fibres of a plot whose park satisfies a test issue their instructions again, each alone, from the next ccy on, unless the plot is halted
(R49, R82). -/
def State.resumeWhere (s : State) (pid : Nat) (t : Fibre → Bool) : State :=
  match s.plot? pid with
  | none => s
  | some p =>
    if p.halt.isSome then s
    else
      let due := p.fibres.filter fun f => t f && !(s.resumes.any fun r => r.pid == pid && r.fid == f.fid)
      { s with resumes := s.resumes ++ due.map fun f => ⟨pid, f.fid, s.cycOf p.core + 1, none⟩ }

/-- Whether a fibre has signed an instance that has not completed. -/
def Plot.signedOpen (p : Plot) (fid : Nat) : Bool :=
  p.c.any fun c => c.insts.any fun i => i.sigs.any fun g => g.fid == fid

/-- Whether a fibre parks on a register of an instance that it no longer waits for (R49); one that parks at ERET waits for every instance
that it has signed (R473). -/
def Plot.resultDue (p : Plot) (f : Fibre) : Bool :=
  match f.run with
  | .parked (.uniformResult []) => !p.signedOpen f.fid
  | .parked (.uniformResult regs) =>
    !p.pending f.fid (regs.filter (· < 64)) ((regs.filter (64 ≤ ·)).map (· - 64))
  | _ => false

/-- Fibres whose uniform results have come in issue again (R49). -/
def State.wakeResults (s : State) (pid : Nat) : State :=
  match s.plot? pid with
  | none => s
  | some p => s.resumeWhere pid p.resultDue

/-- Fibres parked at a set's open-instance limit sign again once an instance of it has executed (R47). -/
def State.wakeLimit (s : State) (pid c : Nat) : State :=
  match s.plot? pid with
  | none => s
  | some p =>
    s.resumeWhere pid fun f => f.run == .parked (.openLimit c) && decide (seqAhead (f.seqOf c) (p.cset c).low < 4)

/-- Fibres parked at a counter issue again once a count is free (R255). -/
def State.wakeCounter (s : State) (pid : Nat) (k : OpClass) : State :=
  s.resumeWhere pid fun f => f.run == .parked (.counter k) && !counterFull f k

/-- Whether a fibre's WAIT is met (R272). -/
def Fibre.waitMet (f : Fibre) : Bool :=
  match f.run with
  | .parked (.wait ld st cp eo) => decide (f.loads ≤ ld ∧ f.stores ≤ st ∧ f.copies ≤ cp ∧ f.engine ≤ eo)
  | _ => false

/-- Fibres whose WAIT is met issue again (R272). -/
def State.wakeWaits (s : State) (pid : Nat) : State :=
  s.resumeWhere pid Fibre.waitMet

/-- Fibres parked at a barrier instruction for their own BARINIT issue again once it has completed (R309). -/
def State.wakeBarinit (s : State) (pid : Nat) : State :=
  match s.plot? pid with
  | none => s
  | some p =>
    s.resumeWhere pid fun f =>
      match f.run with
      | .parked (.ownBarinit off) => !s.barinitPending p f.fid off
      | _ => false

/-! ### Completion (R44, R46, R49) -/

/-- A set that is closed, without members and without open instances returns to free (R44). -/
def CSet.settle (x : CSet) : CSet :=
  if x.closed && x.members.isEmpty && x.insts.isEmpty then .free else x

/-- Frees the sets of a plot that R44 frees; c0 stands. -/
def Plot.settleSets (p : Plot) : Plot :=
  { p with c := p.c.mapIdx fun i x => if i = 0 then x else x.settle }

/-- Removes an instance that has completed, and wakes who waited for its results (R49). -/
def State.closeInst (s : State) (pid c num : Nat) : State :=
  let t := s.modPlot pid fun p =>
    let x := p.cset c
    (p.setCset c { x with insts := x.insts.filter fun i => i.num != num }).settleSets
  (t.wakeResults pid).wakeBarinit pid

/-- The lowest instance of a set has executed: the set's lowest moves on and signers parked at the limit sign (R46, R47). -/
def State.passInst (s : State) (pid c : Nat) : State :=
  (s.modPlot pid fun p =>
    let x := p.cset c
    p.setCset c { x with low := (x.low + 1) % 65536 }).wakeLimit pid c

/-- Instances of a set that hold only neutral signatures complete in their turn (R46). At most four are open. -/
def State.passNeutral (s : State) (pid c fuel : Nat) : State :=
  match fuel with
  | 0 => s
  | k + 1 =>
    match s.plot? pid with
    | none => s
    | some p =>
      let x := p.cset c
      match x.insts.find? fun i => i.num == x.low && !i.executed && i.neutral && i.full with
      | none => s
      | some i => ((s.passInst pid c).closeInst pid c i.num).passNeutral pid c k

/-- The complete instances of a plot that the uniform pipe has not taken note of, ascending sets (R46, R366). -/
def Plot.newlyComplete (p : Plot) : List (Nat × Nat) :=
  (List.range 8).flatMap fun c =>
    ((p.cset c).insts.filter fun i => !i.complete && !i.neutral && i.full).map fun i => (c, i.num)

/-- Marks complete instances and queues them at the uniform pipe, in the ccy in which they have become complete (R366). -/
def State.queueInsts (s : State) (pid : Nat) : State :=
  match s.plot? pid with
  | none => s
  | some p =>
    let new := p.newlyComplete
    let t := s.modPlot pid fun p =>
      { p with c := p.c.mapIdx fun c x =>
          { x with insts := x.insts.map fun i => if new.contains (c, i.num) then { i with complete := true } else i } }
    t.modCore p.core fun k => { k with pipeWait := k.pipeWait ++ new.map fun q => ⟨pid, q.1, q.2, s.cycOf p.core⟩ }

/-- At the end of a ccy: neutral instances of a plot complete, complete ones queue at the pipe (R46). -/
def State.completeInsts (s : State) (pid : Nat) : State :=
  let t := (List.range 8).foldl (fun u c => u.passNeutral pid c 4) s
  (t.modPlot pid Plot.settleSets).queueInsts pid

/-- Whether the end of a ccy changes something of a plot's sets: an instance has become complete, or a set is free (R44, R46). -/
def Plot.completes (p : Plot) : Bool :=
  !p.newlyComplete.isEmpty ||
    (List.range 8).any fun c =>
      let x := p.cset c
      (x.insts.any fun i => i.num == x.low && !i.executed && i.neutral && i.full) ||
        (c != 0 && x.closed && x.members.isEmpty && x.insts.isEmpty)

/-! ### The uniform ALU (R367, R368) -/

/-- What the execution of an instance does: the state, and its destination if it has one; or that it has begun, and goes on beside the pipe; or that
the pipe holds it, since what it waits for before it begins is not over (R46, R168). -/
inductive UniEffect where
  | done (s : State) (d : UDest)
  | later (s : State)
  | hold

/-- k[D] from operands at execution. -/
def aluK (d : Nat) (v : Word) (s : State) : UniEffect :=
  .done s (.k d v)

/-- A saturating result: SA goes to the plot's flags (R115, R367). -/
def aluSat (p : Plot) (sat : Bool) (d : Nat) (x : Int) (s : State) : UniEffect :=
  let r := satWord sat x
  .done (s.setFlags p.pid r.2) (.k d r.1)

/-- UADD's execution (R367). -/
def effUadd (x : FmtUR) (p : Plot) (s : State) : UniEffect :=
  aluSat p (pSat x.p) x.d.toNat ((p.kreg x.a.toNat).toInt + (p.kreg x.b.toNat).toInt) s

/-- USUB's execution (R367). -/
def effUsub (x : FmtUR) (p : Plot) (s : State) : UniEffect :=
  aluSat p (pSat x.p) x.d.toNat ((p.kreg x.a.toNat).toInt - (p.kreg x.b.toNat).toInt) s

/-- UMUL's execution (R367). -/
def effUmul (x : FmtUR) (p : Plot) (s : State) : UniEffect :=
  aluSat p (pSat x.p) x.d.toNat ((p.kreg x.a.toNat).toInt * (p.kreg x.b.toNat).toInt) s

/-- The k register that UMAD adds: k[D], or the one that C names (R367). -/
def umadC (x : FmtUR) : Nat :=
  if pC x.p = 0 then x.d.toNat else pC x.p - 96

/-- UMAD's execution (R367). -/
def effUmad (x : FmtUR) (p : Plot) (s : State) : UniEffect :=
  aluSat p (pSat x.p) x.d.toNat ((p.kreg x.a.toNat).toInt * (p.kreg x.b.toNat).toInt + (p.kreg (umadC x)).toInt) s

/-- UAND's execution (R367). -/
def effUand (x : FmtUR) (p : Plot) (s : State) : UniEffect :=
  aluK x.d.toNat (p.kreg x.a.toNat &&& p.kreg x.b.toNat) s

/-- UOR's execution (R367). -/
def effUor (x : FmtUR) (p : Plot) (s : State) : UniEffect :=
  aluK x.d.toNat (p.kreg x.a.toNat ||| p.kreg x.b.toNat) s

/-- UXOR's execution (R367). -/
def effUxor (x : FmtUR) (p : Plot) (s : State) : UniEffect :=
  aluK x.d.toNat (p.kreg x.a.toNat ^^^ p.kreg x.b.toNat) s

/-- USHL's execution (R367). -/
def effUshl (x : FmtUR) (p : Plot) (s : State) : UniEffect :=
  aluK x.d.toNat (shlWord (p.kreg x.a.toNat) (p.kreg x.b.toNat)) s

/-- USHR's execution (R367). -/
def effUshr (x : FmtUR) (p : Plot) (s : State) : UniEffect :=
  aluK x.d.toNat (shrWord (p.kreg x.a.toNat) (p.kreg x.b.toNat)) s

/-- UMIN's execution (R367). -/
def effUmin (x : FmtUM) (p : Plot) (s : State) : UniEffect :=
  let a := p.kreg x.a.toNat
  let b := p.kreg x.b.toNat
  aluK x.d.toNat (if x.u = 1 then (if b.ult a then b else a) else if b.slt a then b else a) s

/-- UMAX's execution (R367). -/
def effUmax (x : FmtUM) (p : Plot) (s : State) : UniEffect :=
  let a := p.kreg x.a.toNat
  let b := p.kreg x.b.toNat
  aluK x.d.toNat (if x.u = 1 then (if a.ult b then b else a) else if a.slt b then b else a) s

/-- UMOV's execution (R367). -/
def effUmov (x : FmtU2) (p : Plot) (s : State) : UniEffect :=
  aluK x.d.toNat (p.kreg x.a.toNat) s

/-- The conditions of UCMP (R367). -/
def ucond (f : Nat) (a b : Word) : Bool :=
  match f with
  | 0 => a == b
  | 1 => a != b
  | 2 => a.slt b
  | 3 => a.sle b
  | 4 => a.ult b
  | _ => a.ule b

/-- UCMP's execution (R367). -/
def effUcmp (x : FmtUF) (p : Plot) (s : State) : UniEffect :=
  aluK x.d.toNat (if ucond x.f.toNat (p.kreg x.a.toNat) (p.kreg x.b.toNat) then 1 else 0) s

/-- USEL's execution (R367). -/
def effUsel (x : FmtUR) (p : Plot) (s : State) : UniEffect :=
  aluK x.d.toNat (if p.kreg x.d.toNat ≠ 0 then p.kreg x.a.toNat else p.kreg x.b.toNat) s

/-- UCNAR's execution: the narrowed capability goes to b[D] (R368). -/
def effUcnar (x : FmtUN) (p : Plot) (s : State) : UniEffect :=
  let k (i : Nat) : Nat := (p.kreg (x.b.toNat + i)).toNat
  let off := k 0 + 2 ^ 32 * (k 1 % 256)
  let len := k 2 + 2 ^ 32 * (k 3 % 256)
  let c := p.breg x.ba.toNat
  let n := Cap.make c.obj (c.base + off) len (c.rights &&& (k 3 / 2 ^ 16)) c.kind (c.tag && decide (off + len ≤ c.len))
  .done s (.b p.pid x.bd.toNat n)

/-- The zero-extended immediate of a UI word, IMMX above it (R64, R367). -/
def uiImm (x : FmtUI) : Word :=
  BitVec.ofNat 32 (uimm x.p 15 x.imm.toNat)

/-- The sign-extended immediate of a UI word (R64, R367). -/
def uiSimm (x : FmtUI) : Word :=
  wordOfInt (simm x.p 15 x.imm.toNat)

/-- UADD with an immediate (R367). -/
def effUaddUi (x : FmtUI) (p : Plot) (s : State) : UniEffect :=
  aluK x.d.toNat (p.kreg x.d.toNat + uiSimm x) s

/-- UAND with an immediate (R367). -/
def effUandUi (x : FmtUI) (p : Plot) (s : State) : UniEffect :=
  aluK x.d.toNat (p.kreg x.d.toNat &&& uiImm x) s

/-- UOR with an immediate (R367). -/
def effUorUi (x : FmtUI) (p : Plot) (s : State) : UniEffect :=
  aluK x.d.toNat (p.kreg x.d.toNat ||| uiImm x) s

/-- USHL with an immediate, n the whole immediate (R367). -/
def effUshlUi (x : FmtUI) (p : Plot) (s : State) : UniEffect :=
  aluK x.d.toNat (p.kreg x.d.toNat <<< (min (uiImm x).toNat 32)) s

/-- USHR with an immediate (R367). -/
def effUshrUi (x : FmtUI) (p : Plot) (s : State) : UniEffect :=
  aluK x.d.toNat (p.kreg x.d.toNat >>> (min (uiImm x).toNat 32)) s

/-- UMOVI (R367). -/
def effUmovi (x : FmtUI) (_p : Plot) (s : State) : UniEffect :=
  aluK x.d.toNat (uiSimm x) s

/-- The capability or word that an instance writes at its completion (R49). -/
def State.writeDest (s : State) (pid : Nat) (d : UDest) : State :=
  match d with
  | .k n v => s.modPlot pid fun p => p.setK n v
  | .b q n c => s.modPlot q fun p => p.setB n c
  | .none => s

end Sys2Proof.Machine
end

