-- ==== Sys2Proof/Machine/ObjMgmt.lean ====
section
/-! DEFINITION. Minting, sealing, revoking, migrating, bias changes, unpublishing: what their instances do (R398, R401 to R403, R406
to R410). -/

namespace Sys2Proof.Machine

/-! ### Command faults (R167, R413) -/

/-- The fibre against which a command's faults are reported (R167); an exited fibre keeps its FID. -/
def Inst.blame (i : Inst) : Nat :=
  i.firstSigner % 1024

/-- The record of a uniform instance's fault: unit 3, at the instance's PC (R413, R419). -/
def Inst.faultRec (i : Inst) (code : FaultCode) (obj off acc : Nat) : FaultRec :=
  .late code i.pc obj off acc 3

/-- Raises a command fault of a plot against a fibre. -/
def State.commandFault (s : State) (pid fid : Nat) (r : FaultRec) : State :=
  s.raise pid (fid % 1024) r

/-- An instance that ends in a command fault: it completes, writing nothing. -/
def uniFault (s : State) (p : Plot) (i : Inst) (r : FaultRec) : UniEffect :=
  .done (s.commandFault p.pid i.blame r) .none

/-- The four registers from k[D] as 128 bits. -/
def Plot.kquad (p : Plot) (n : Nat) : Nat :=
  leNat ((List.range 4).flatMap fun i => leBytes 4 (p.kreg (n + i)).toNat)

/-! ### MINT (R406) -/

/-- MINT's execution: the checks in order, then b[D] of the plot or, with T, of the plot that the handler serves. -/
def effMint (x : FmtMI) (p : Plot) (i : Inst) (s : State) : UniEffect :=
  let c : Cap := ⟨BitVec.ofNat 128 (p.kquad (4 * x.ka.toNat)), true⟩
  let n := c.bits.toNat
  let bad (e : FaultCode) : UniEffect := uniFault s p i (i.faultRec e c.obj (c.base % 2 ^ 40) 0)
  if x.t = 1 ∧ p.handler = none then bad .illop
  else if field n 18 6 ≠ 0 ∨ field n 0 4 ≠ 0 then bad .illop
  else
    match (s.ctx? p.ctx).bind fun k => s.entry? k c.obj with
    | none => bad .objx
    | some e =>
      if c.kind ≠ e.kind ∨ !rightsWithin c.rights e.ceiling then bad .capr
      else if 65536 * e.npages < c.base + c.len then bad .capb
      else
        let q := if x.t = 1 then p.handler.getD p.pid else p.pid
        .done s (.b q x.bd.toNat c)

/-! ### Revocation (R401) -/

/-- Whether a core holds lines of an object, of data or of code. -/
def Core.holdsObj (k : Core) (ctx obj : Nat) : Bool :=
  (k.lines.any fun l => l.ctx == ctx && l.obj == obj) || (k.icache.any fun l => l.ctx == ctx && l.obj == obj) ||
    k.loopBuf.any fun b => b.ctx == ctx && b.obj == obj

/-- The ports send a drop of an object, or of one page of it, to every core of their dies that holds lines of it (R401 point 4, R409). -/
def State.sendDrops (s : State) (ctx obj : Nat) (page : Option Nat) : State :=
  { s with drops := s.drops ++ (s.cores.filter fun k => k.holdsObj ctx obj).map fun k => ⟨k.num, ctx, obj, page⟩ }

/-- What OBJINV does of an object: the issuing core's dirty lines of object 0 go home, the ports drop what they cache, the drops are
on their way (R401). -/
def State.objinv (s : State) (core ctx obj : Nat) : State :=
  (s.writeBackWhere core fun l => l.ctx == ctx && l.obj == 0).sendDrops ctx obj none

/-- OBJINV's execution (R401, R407). -/
def effObjinv (x : FmtOB) (p : Plot) (s : State) : UniEffect :=
  let obj := (p.kreg x.a.toNat).toNat % 2 ^ 24
  if !s.backOpen p.core (fun l => l.ctx == p.ctx && l.obj == 0) then .hold
  else
    let t := s.objinv p.core p.ctx obj
    let ok := ((t.ctx? p.ctx).bind fun c => t.entry? c obj).isSome
    .done t (.k x.d.toNat (if ok then 0 else 1))

/-! ### SEAL (R398, R402) -/

/-- Sets SEALED in an entry and takes W, A and J from its ceiling; object 0 has no entry of its own (R394, R398). -/
def State.sealEntry (s : State) (c : Ctx) (obj : Nat) : State :=
  if obj = 0 then s
  else
    let s := s.homeReady ⟨c.num, 0, obj / 2, 0⟩ none
    let hi := s.read0 c (64 * obj + 4) 4
    let hi := hi ||| 2 ^ 30
    s.write0 c (64 * obj + 4) (leBytes 4 (hi - (hi &&& (2 ^ 17 + 2 ^ 19 + 2 ^ 20))))

/-- A page is X: every line of it, none listed any more (R247). -/
def State.pageToX (s : State) (ctx obj page : Nat) : State :=
  let t := s.setDesc ctx obj page fun d => { d with wx := 1 }
  { t with xlines := t.xlines.filter fun l => !(l.ctx == ctx && l.obj == obj && l.line / 512 == page) }

/-- A page is W (R248). -/
def State.pageToW (s : State) (ctx obj page : Nat) : State :=
  let t := s.setDesc ctx obj page fun d => { d with wx := 0 }
  { t with xlines := t.xlines.filter fun l => !(l.ctx == ctx && l.obj == obj && l.line / 512 == page) }

/-- Whether a page is migrating. -/
def State.migrating (s : State) (ctx obj page : Nat) : Bool :=
  s.migrations.any fun m => m.ctx == ctx && m.obj == obj && m.page == page

/-- Every page of a code object is X; those that are X already are passed over (R247, R402). -/
def State.pagesToX (s : State) (c : Ctx) (obj : Nat) (e : Entry) : State :=
  ((List.range e.npages).filter fun pg => (s.desc c obj e pg).wx != 1).foldl (fun u pg => u.pageToX c.num obj pg) s

/-- Notes that the first part of an instance's execution is done. -/
def State.noteBegun (s : State) (pid cv num : Nat) : State :=
  s.modPlot pid fun p =>
    let x := p.cset cv
    p.setCset cv { x with insts := x.insts.map fun i => if i.num == num then { i with retried := true } else i }

/-- SEAL's execution: SEALED set and the object revoked at once; it waits for pages of code that migrate, as a PUBL does (R249, R402, R407). -/
def effSeal (x : FmtSL) (p : Plot) (i : Inst) (s : State) : UniEffect :=
  let b := p.breg x.bs.toNat
  let status (n : Word) (t : State) : UniEffect := .done t (.k x.d.toNat n)
  match s.ctx? p.ctx with
  | none => status 1 s
  | some c =>
    match s.entry? c b.obj with
    | none => status 1 s
    | some e =>
      let mine (l : L1Line) : Bool := l.ctx == p.ctx && (l.obj == 0 || (l.obj == b.obj && e.kind == 1 && !e.sealed))
      if !b.tag || !rightsWithin rightS b.rights || b.kind != e.kind then status 9 s
      else if !s.backOpen p.core mine then .hold
      else
        let shut := e.kind = 1 ∧ (List.range e.npages).any fun pg => (s.desc c b.obj e pg).wx != 1 && s.migrating p.ctx b.obj pg
        let done (t : State) : UniEffect := status 0 (if e.kind = 1 then t.pagesToX c b.obj e else t)
        if i.retried then if shut then .later s else done s
        else
          let t := s.writeBackWhere p.core mine
          if e.sealed then status 0 (t.objinv p.core p.ctx b.obj)
          else
            let t := (t.sealEntry c b.obj).objinv p.core p.ctx b.obj
            if shut then .later (t.noteBegun p.pid x.cv.toNat i.num) else done t

/-! ### MIGR (R407, R408, R211 to R214, R249, R299) -/

/-- The die whose memory controllers carry out the migration of a page: that of its old home. -/
def PageDesc.die (d : PageDesc) : Nat :=
  if d.home = 3 then d.pdie
  else match d.place with
    | 0 => (37 * d.frame) % 256 / 64
    | 1 => d.pdie
    | 2 => d.pchan / 64
    | _ => 0

/-- The migrations that a die runs. -/
def State.migrationsOf (s : State) (die : Nat) : Nat :=
  (s.migrations.filter fun m =>
    match s.ctx? m.ctx with
    | none => false
    | some c =>
      match s.entry? c m.obj with
      | none => false
      | some e => (s.desc c m.obj e m.page).die == die).length

/-- Whether a slice that a page would be pinned in pins 8 pages already; a lattice page is pinned on every die (R195, R282). -/
def State.sliceFull (s : State) (e : Entry) (chan : Nat) : Bool :=
  if e.lattice then [0, 1, 2, 3].any fun d => decide (8 ≤ s.pinned (64 * d + chan % 64)) else decide (8 ≤ s.pinned chan)

/-- The slices in which a page comes to be pinned give up the ways that it takes (R195, R282). -/
def State.pinTo (s : State) (e : Entry) (d : PageDesc) : State :=
  if d.home ≠ 2 then s
  else (if e.lattice then [0, 1, 2, 3].map fun k => 64 * k + d.pchan % 64 else [d.pchan]).foldl State.trimSlice s

/-- MIGR's execution: a status, or the start of the migration; it waits while the page is publishing, before its
other checks, which the page's WX may enter (R408). Object 0 has no descriptor to change (R394; log entry 48). A page that becomes CORE moves
the plots' allocations out of its place and waits while they have no other room (R17, R196), the wait being the model's choice (log entry 51). -/
def effMigr (x : FmtOQ) (p : Plot) (s : State) : UniEffect :=
  let k (n : Nat) : Nat := (p.kreg (4 * x.ka.toNat + n)).toNat
  let obj := k 0 % 2 ^ 24
  let page := k 1
  let bits := BitVec.ofNat 64 (k 2 + 2 ^ 32 * k 3)
  let new := PageDesc.ofNat bits.toNat
  let status (n : Word) (t : State) : UniEffect := .done t (.k x.d.toNat n)
  match s.ctx? p.ctx with
  | none => status 1 s
  | some c =>
    match s.entry? c obj with
    | none => status 1 s
    | some e =>
      let old := s.desc c obj e page
      if e.npages ≤ page then status 2 s
      else if e.kind = 1 ∧ old.wx = 2 then .later s
      else if obj = 0 ∨ !new.ok ∨ new.bias ≠ old.bias ∨ new.wx ≠ old.wx ∨ new.res ≠ old.res then status 3 s
      else if new.home = 2 ∧ !(old.home == 2 && old.pchan == new.pchan) ∧ s.sliceFull e new.pchan then status 4 s
      else if e.lattice ∧ (new.replica 0).res = 0 ∧ new.res = 1 then status 5 s
      else if old.res = 0 ∨ !old.ok then status 6 s
      else if s.migrating p.ctx obj page ∨ 8 ≤ s.migrationsOf old.die then status 7 s
      else if new.home = 3 ∧ !s.roomForPage new.core (new.frame % 8) then .later s
      else
        let t := if new.home = 3 then s.clearRegion new.core (new.frame % 8) else s
        let t := t.setDesc p.ctx obj page fun d => { d with mig := 1 }
        let m : Migration := { ctx := p.ctx, obj := obj, page := page, newDesc := bits, p := 0 }
        status 0 (State.pinTo { t with migrations := t.migrations ++ [m] } e new)

/-! ### BIAS (R209, R407, R409) -/

/-- The statuses of BIAS, none where it runs; object 0 has no descriptor to change (R394; log entry 48). -/
def State.biasStatus (s : State) (p : Plot) (obj page : Nat) (host : Bool) : Option Word :=
  match s.ctx? p.ctx with
  | none => some 1
  | some c =>
    match s.entry? c obj with
    | none => some 1
    | some e =>
      let d := s.desc c obj e page
      if e.npages ≤ page then some 2
      else if e.lattice ∧ host then some 5
      else if d.res = 0 ∨ !d.ok then some 6
      else if s.migrating p.ctx obj page ∨ 8 ≤ s.migrationsOf d.die then some 7
      else if obj = 0 ∨ d.home = 3 ∨ d.place = 3 then some 10
      else none

/-- Recalls every Owned copy of a page's lines (R409). -/
def State.recallPage (s : State) (ctx obj page : Nat) : State :=
  (s.owners.filter fun q => q.1.ctx == ctx && q.1.obj == obj && q.1.line / 512 == page).foldl
    (fun t q => t.recallFrom q.2 q.1 false) s

/-- Whether the home of each line that some agents hold of a page reaches them and they it (R460). -/
def State.holdersOpen (s : State) (l : List (LineRef × Nat)) (ctx obj page : Nat) : Bool :=
  (l.filter fun q => q.1.ctx == ctx && q.1.obj == obj && q.1.line / 512 == page).all fun q =>
    match s.place? (dieOf q.2) ctx obj (128 * q.1.line) with
    | some h => s.wayOpen (dieOf q.2) h.homeDie
    | none => true

/-- BIAS.H's execution: Owned copies recalled, a drop of the page sent, BIAS set (R409). -/
def effBiasH (x : FmtOE) (p : Plot) (s : State) : UniEffect :=
  let obj := (p.kreg (2 * x.kp.toNat)).toNat % 2 ^ 24
  let page := (p.kreg (2 * x.kp.toNat + 1)).toNat
  match s.biasStatus p obj page true with
  | some n => .done s (.k x.d.toNat n)
  | none =>
    if !s.holdersOpen s.owners p.ctx obj page then .hold
    else
    let t := ((s.recallPage p.ctx obj page).sendDrops p.ctx obj (some page)).setDesc p.ctx obj page fun d => { d with bias := 1 }
    .done t (.k x.d.toNat 0)

/-- BIAS.D's execution: BIAS cleared (R409). -/
def effBiasD (x : FmtOE) (p : Plot) (s : State) : UniEffect :=
  let obj := (p.kreg (2 * x.kp.toNat)).toNat % 2 ^ 24
  let page := (p.kreg (2 * x.kp.toNat + 1)).toNat
  match s.biasStatus p obj page false with
  | some n => .done s (.k x.d.toNat n)
  | none => .done (s.setDesc p.ctx obj page fun d => { d with bias := 0 }) (.k x.d.toNat 0)

/-! ### UNPUBL (R248, R407, R410) -/

/-- Whether a publish and a withdrawal, or two of either, name a page in common (R248). -/
def Publish.meets (q : Publish) (ctx obj : Nat) (pages : List Nat) : Bool :=
  q.ctx == ctx && q.obj == obj && q.pages.any pages.contains

/-- The pages of a withdrawal go to W, once the copies of their code have been recalled (R248, R410). -/
def State.withdraw (s : State) (ctx obj : Nat) (pages : List Nat) : State :=
  let t := s.recallCode (fun _ => true) ctx obj fun l => pages.contains (l / 512)
  pages.foldl (fun u pg => u.pageToW ctx obj pg) t

/-- UNPUBL's execution: the pages of its range go to W; it waits in the order of arrival for every PUBL and UNPUBL before it that names one of
them (R248). -/
def effUnpubl (x : FmtOQ) (p : Plot) (i : Inst) (s : State) : UniEffect :=
  let k (n : Nat) : Nat := (p.kreg (4 * x.ka.toNat + n)).toNat
  let obj := k 0 % 2 ^ 24
  let first := k 1
  let count := k 2 % 2 ^ 24
  let status (n : Word) (t : State) : UniEffect := .done t (.k x.d.toNat n)
  match s.ctx? p.ctx with
  | none => status 1 s
  | some c =>
    match s.entry? c obj with
    | none => status 1 s
    | some e =>
      let pages := (List.range count).map (· + first)
      let id := some (x.cv.toNat, i.num)
      let me (q : Publish) : Bool := q.pid == p.pid && q.unpubl == id
      let mine : Publish :=
        { pid := p.pid, fid := i.blame, pc := i.pc, core := p.core, ctx := p.ctx, obj := obj, todo := [], pages := pages,
          die := dieOf p.core, counted := false, issue := 0, started := true, unpubl := id }
      let listed := s.publishes.any me
      let ahead := (s.publishes.takeWhile fun q => !me q).any (·.meets p.ctx obj pages)
      if e.npages < first + count then status 2 s
      else if e.sealed then status 8 s
      else if e.kind ≠ 1 then status 11 s
      else if ahead || !pages.all (s.holdersOpen s.readers p.ctx obj) then
        .later (if listed then s else { s with publishes := s.publishes ++ [mine] })
      else status 0 ({ s with publishes := s.publishes.filter fun q => !me q }.withdraw p.ctx obj pages)

end Sys2Proof.Machine
end

