-- ==== Sys2Proof/Machine/Engine.lean ====
section
/-! DEFINITION. What every engine command shares: its descriptor, its checks, its reads of global memory and of the scratchpad, its
ranges and the scoreboard, its completion (R165 to R170, R242, R300 to R302, R310). -/

namespace Sys2Proof.Machine

/-! ### The command -/

/-- A 32-bit word of the descriptor. -/
def Cmd.word (d : Cmd) (i : Nat) : Nat :=
  field d.desc.toNat (32 * i) 32

/-- Bits [lo + w - 1 : lo] of word i of the descriptor. -/
def Cmd.bits (d : Cmd) (i lo w : Nat) : Nat :=
  field (d.word i) lo w

/-- Whether a command is one of the matrix engine's (R165). -/
def Cmd.isMatrix (d : Cmd) : Bool :=
  match d.code with
  | .sbld _ => true
  | .mmrun _ => true
  | .mmout _ => true
  | .mtab _ => true
  | .mbias _ => true
  | _ => false

/-- The unit of a command's faults (R419). -/
def Cmd.unitNum (d : Cmd) : Nat :=
  if d.isMatrix then 4 else 5

/-- A fault of a command: against its first non-neutral signer, at its instance's PC (R167, R413). -/
def Cmd.faultRec (d : Cmd) (code : FaultCode) (obj off acc : Nat) : FaultRec :=
  .late code d.pc obj off acc d.unitNum

/-- Raises a command's fault. -/
def State.faultCmd (s : State) (d : Cmd) (r : FaultRec) : State :=
  s.commandFault d.pid d.first r

/-- A completed command frees the count that each signer holds, and wakes who waited for it (R163, R300). -/
def State.freeSigners (s : State) (d : Cmd) : State :=
  let k : OpClass := if d.isMatrix then .engine else .copies
  let t := d.signers.foldl (fun t f => t.modFibre d.pid f fun g =>
    if d.isMatrix then { g with engine := g.engine - 1 } else { g with copies := g.copies - 1 }) s
  (((t.wakeCounter d.pid k).wakeWaits d.pid).wakeBarinit d.pid)

/-! ### Reading -/

/-- A fault that a command meets: the code, object, byte and kind of access. -/
structure CmdFault where
  code : FaultCode
  obj : Nat
  off : Nat
  acc : Nat
  deriving DecidableEq, Repr

/-- The record of a fault that a command meets. -/
def CmdFault.rec_ (d : Cmd) (f : CmdFault) : FaultRec :=
  d.faultRec f.code f.obj f.off f.acc

/-- Cap.check of a command's capability: the object and the byte in it (R79, R167, R302). -/
def capOf (c : Cap) (off size need align : Nat) (kinds : List Nat) (acc : Nat) : Except CmdFault (Nat × Nat) :=
  match c.check off size need align kinds with
  | .ok r => .ok r
  | .error e => .error ⟨e, c.obj, c.faultOff off e, acc⟩

/-- Bytes of one line of a global object as an engine reads them at the home: the core's dirty bytes written back first, an Owned copy
recalled, a range gathered, whose flags go to the plot (R240, R242). -/
def State.readLine (s : State) (p : Plot) (d : Cmd) (kind obj off n : Nat) : State × Except CmdFault (List Byte) :=
  match s.port (dieOf p.core) p.ctx p.system kind obj rightR off with
  | .error e => (s, .error ⟨e, obj, off, 5⟩)
  | .ok h =>
    let r : LineRef := ⟨p.ctx, obj, off / 128, 0⟩
    let t := ((s.ownBack p.core r).homeReady r none).touchL2 r h false
    let t := if h.entry.crty ≠ 0 then t.gather r else t
    if t.poisoned h.addr n then (t, .error ⟨.poison, obj, off + t.poisonAt h.addr n, 5⟩)
    else if h.entry.crty ≠ 0 then
      let (bs, f) := t.rangeLoad h.entry p.ctx obj off n d.pc.toNat d.first
      (t.setFlags p.pid f, .ok bs)
    else (t, .ok (t.load h.addr n))

/-- The parts of bytes off to off + n - 1 by lines of 128 bytes: start and length. -/
def linesOf (off n : Nat) : List (Nat × Nat) :=
  if n = 0 then []
  else (List.range ((off + n - 1) / 128 - off / 128 + 1)).map fun i =>
    let lo := max off (128 * (off / 128 + i))
    let hi := min (off + n) (128 * (off / 128 + i) + 128)
    (lo, hi - lo)

/-- Reads bytes of a global object, line by line; the first fault ends the read. -/
def State.readGlobal (s : State) (p : Plot) (d : Cmd) (kind obj off n : Nat) : State × Except CmdFault (List Byte) :=
  (linesOf off n).foldl (fun acc l =>
    match acc.2 with
    | .error e => (acc.1, .error e)
    | .ok bs =>
      match acc.1.readLine p d kind obj l.1 l.2 with
      | (t, .ok more) => (t, .ok (bs ++ more))
      | (t, .error e) => (t, .error e)) (s, .ok [])

/-- Whether an engine's accesses of some bytes of a global object find their ways open (R460). -/
def State.globalOpen (s : State) (p : Plot) (obj : Nat) (l : List (Nat × Nat)) : Bool :=
  s.allUp || (l.flatMap fun x => linesOf x.1 x.2).all fun x =>
    let r : LineRef := ⟨p.ctx, obj, x.1 / 128, 0⟩
    match s.place? (dieOf p.core) p.ctx obj x.1 with
    | some h => s.lineOpen p.core r h && s.backOpen p.core fun l => l.ref == r
    | none => true

/-- Reads bytes of the plot's scratchpad allocation. -/
def State.readScratch (s : State) (p : Plot) (off n : Nat) : Except CmdFault (List Byte) :=
  let a := scratchAddr p.core + p.sbase + off
  if s.poisoned a n then .error ⟨.poison, 0, off + s.poisonAt a n, 5⟩ else .ok (s.load a n)

/-! ### Ranges and the scoreboard (R310) -/

/-- A scratchpad range: first byte and length. -/
abbrev Span := Nat × Nat

/-- Whether two ranges share a byte. -/
def Span.meets (a b : Span) : Bool :=
  decide (a.1 < b.1 + b.2 ∧ b.1 < a.1 + a.2 ∧ a.2 ≠ 0 ∧ b.2 ≠ 0)

/-- Whether a range of one list meets one of another. -/
def spansMeet (a b : List Span) : Bool :=
  a.any fun x => b.any fun y => x.meets y

/-- The scratchpad ranges that a command reads and writes. -/
structure Ranges where
  reads : List Span
  writes : List Span
  deriving DecidableEq, Repr

/-- Whether a later command conflicts with an earlier one (R310). -/
def Ranges.conflict (earlier later : Ranges) : Bool :=
  spansMeet earlier.writes (later.reads ++ later.writes) || spansMeet earlier.reads later.writes

/-- The bytes of n elements of w bits (R103). -/
def packedBytes (n w : Nat) : Nat :=
  (n * w + 7) / 8

/-- Rows of bytes at a pitch. -/
def rowSpans (org pitch rows len : Nat) : List Span :=
  (List.range rows).map fun r => (org + r * pitch, len)

/-- The end of the furthest of some ranges. -/
def spansEnd (l : List Span) : Nat :=
  l.foldl (fun m x => max m (x.1 + x.2)) 0

/-- The first scratchpad range that runs past the plot's allocation raises CAPB (R167, R302). -/
def spansFault (p : Plot) (l : List Span) (acc : Nat) : Option CmdFault :=
  (l.find? fun x => decide (p.ssize < x.1 + x.2)).map fun x => ⟨.capb, 0, x.1, acc⟩

end Sys2Proof.Machine
end

