-- ==== Sys2Proof/Machine/LaneConv.lean ====
section
/-! DEFINITION. Conversion and packing (R146 to R148). -/

namespace Sys2Proof.Machine

/-- A code of one format converted to another: R119 or R120 for a NaN, else Round (R146). -/
def convCode (c : RndCtx) (src dst code : Nat) : NumRes :=
  roundVal c dst (codeVal src code)

/-- The flags of a NaN source that the destination keeps: a signalling NaN sets NV and writes a record (R118, R146). -/
def fcvtRes (c : RndCtx) (src dst code : Nat) : NumRes :=
  convCode c src dst code

/-- Whether a TY occupies a register pair (R61, R146). -/
def isPairTy (ty : Nat) : Bool :=
  ty == 22 || ty == 23

/-- The codes that FCVT reads of A. -/
def fcvtCodes (x : FmtFE) : List Nat :=
  if isPairTy x.e.toNat then [x.a.toNat, x.a.toNat + 1] else [x.a.toNat]

/-- FCVT (R146). -/
def execFcvt (x : FmtFE) (s : State) : Result :=
  let src := x.e.toNat
  let dst := pTy x.p
  runPure (lrWord x.g x.p (withSeed x.p (fcvtCodes x)) (codesFrom x.d.toNat (if isPairTy dst then 2 else 1)) dst) s fun c f =>
    let a := if isPairTy src then readReg64 c.p f x.a.toNat else (readReg c.p f x.a.toNat).toNat % 2 ^ tyWidth src
    let r := fcvtRes (laneRnd c x.p f 0) src dst a
    (f.setVs x.d.toNat (if isPairTy dst then wordsOf 8 r.code else [BitVec.ofNat 32 r.code]), r.flg, r.causes)

/-- A word with element i of a w-bit format replaced (R103). -/
def setElem (v : Nat) (w i code : Nat) : Nat :=
  v - field v (w * i) w * 2 ^ (w * i) + code * 2 ^ (w * i)

/-- A register of packed elements: of a 6-bit format, bits [31:30] are zero (R103). -/
def packWord (w v : Nat) : Word :=
  BitVec.ofNat 32 (if w = 6 then v % 2 ^ 30 else v)

/-- FPACK: elements 2q and 2q + 1 of D from A and B (R147). -/
def execFpack (x : FmtR) (s : State) : Result :=
  let ty := pTy x.p
  let w := tyWidth ty
  let q := pImmx x.p % 16
  runPure (lrWord x.g x.p (withSeed x.p [x.a.toNat, x.b.toNat]) [x.d.toNat] ty) s fun c f =>
    let ra := roundVal (laneRnd c x.p f (2 * q)) ty (codeVal 0 (readReg c.p f x.a.toNat).toNat)
    let rb := roundVal (laneRnd c x.p f (2 * q + 1)) ty (codeVal 0 (readReg c.p f x.b.toNat).toNat)
    let v := setElem (setElem (f.vreg x.d.toNat).toNat w (2 * q) ra.code) w (2 * q + 1) rb.code
    (f.setV x.d.toNat (packWord w v), ra.flg ||| rb.flg, dedup (ra.causes ++ rb.causes))

/-- FUNPK: element e of A in FP32, exact (R148). -/
def execFunpk (x : FmtFE) (s : State) : Result :=
  let ty := pTy x.p
  let w := tyWidth ty
  runPure (lrWord x.g x.p [x.a.toNat] [x.d.toNat] 0) s fun c f =>
    let code := field (readReg c.p f x.a.toNat).toNat (w * x.e.toNat) w
    let r := convCode { laneRnd c none f 0 with narrow := false } ty 0 code
    (f.setV x.d.toNat (BitVec.ofNat 32 r.code), r.flg, r.causes)

end Sys2Proof.Machine
end

