-- ==== Sys2Proof/Machine/LaneDot.lean ====
section
/-! DEFINITION. Dot products (R149 to R151) and the block contribution (R107). -/

namespace Sys2Proof.Machine

/-- Element e of a word in a w-bit format. -/
def elemOf (w : Word) (bits e : Nat) : Nat :=
  field w.toNat (bits * e) bits

/-- DOT4 (R149). -/
def execDot4 (x : FmtR) (s : State) : Result :=
  triOp x s fun a b c =>
    let t := (List.range 4).foldl (fun t e => t + signedOf 8 (elemOf a 8 e) * signedOf 8 (elemOf b 8 e)) c.toInt
    satWord (pSat x.p) t

/-- The sum of three values that are no NaNs, with IEEE's sign of an exact zero (R150). -/
def add3 (rm : Nat) (a b c : Val) : ValRes :=
  let l := [a, b, c]
  if l.any (fun v => v.isInf && v.isNeg) && l.any (fun v => v.isInf && !v.isNeg) then ⟨.zero false, true⟩
  else
    match l.find? Val.isInf with
    | some v => ⟨v, false⟩
    | none =>
      let d := (a.dy.add b.dy).add c.dy
      let allZero := l.all Val.isZero
      let sign := if allZero && (a.isNeg == b.isNeg) && (b.isNeg == c.isNeg) then a.isNeg else rm == 3
      ⟨d.val sign, false⟩

/-- FDOT2's result: a product of 0 and an infinity first, then NaN operands in the order A.0, A.1, B.0, B.1, C, then
opposite infinities, then the exact sum rounded once (R150). -/
def fdot2Res (c : RndCtx) (a b d : Word) : NumRes :=
  let a0 := codeVal 1 (elemOf a 16 0)
  let a1 := codeVal 1 (elemOf a 16 1)
  let b0 := codeVal 1 (elemOf b 16 0)
  let b1 := codeVal 1 (elemOf b 16 1)
  let dv := codeVal 0 d.toNat
  let mul (u v : Val) : ValRes := if u.isNan || v.isNan then ⟨.zero false, false⟩ else Val.mul u v
  let p0 := mul a0 b0
  let p1 := mul a1 b1
  if p0.invalid || p1.invalid then ⟨nanCode c 0 false (some (originFrac c.pc c.fid)), flgNV, [1]⟩
  else roundRes c 0 [a0, a1, b0, b1, dv] (add3 c.rm p0.v p1.v dv)

/-- FDOT2 (R150). -/
def execFdot2 (x : FmtR) (s : State) : Result :=
  let cc := pSrc x.p x.d.toNat
  runPure (lrWord x.g x.p (withSeed x.p [x.a.toNat, x.b.toNat, cc]) [x.d.toNat]) s fun c f =>
    let r := fdot2Res (laneRnd c x.p f 0) (readReg c.p f x.a.toNat) (readReg c.p f x.b.toNat) (readReg c.p f cc)
    (f.setV x.d.toNat (BitVec.ofNat 32 r.code), r.flg, r.causes)

/-- The contribution of a block: its scale times the exact sum, with the special values in order (R107). A zero scale contributes a zero of its
own sign whatever the sum (R322: scale byte 0x00 contributes +0), which is the model's choice for a scale of -0 (log entry 36). -/
def blockContrib (scale sum : Val) : ValRes :=
  match scale, sum with
  | .nan n _, _ => ⟨.nan n none, false⟩
  | _, .nan n f => ⟨.nan n f, false⟩
  | .zero n, .zero _ => ⟨.zero n, false⟩
  | .zero n, .fin _ _ _ => ⟨.zero n, false⟩
  | a, b => Val.mul a b

/-- The value of element e of a word of QDOT's format (R151). -/
def qdotElem (ty : Nat) (w : Word) (e : Nat) : Dy :=
  (codeVal ty (elemOf w 4 e)).dy

/-- The exact dot product of two words of eight elements (R151). -/
def qdotSum (ty : Nat) (a b : Word) : Dy :=
  (List.range 8).foldl (fun t e => t.add ((qdotElem ty a e).mul (qdotElem ty b e))) ⟨0, 0⟩

/-- f.D plus a contribution: NaN accumulator, NaN contribution, else one rounding (R151). -/
def qdotAdd (c : RndCtx) (d : Word) (contrib : ValRes) : NumRes :=
  let dv := codeVal 0 d.toNat
  match dv with
  | .nan n m =>
    let (sf, sc) := snanFlags [dv]
    let (cf, cc) := if contrib.invalid then (flgNV, [1]) else (0, [])
    ⟨nanCode c 0 n m, sf ||| cf, dedup (sc ++ cc)⟩
  | _ =>
    if contrib.invalid then ⟨nanCode c 0 false (some (originFrac c.pc c.fid)), flgNV, [1]⟩
    else
      match contrib.v with
      | .nan n _ => ⟨nanCode c 0 n none, 0, []⟩
      | v => roundRes c 0 [] (Val.add c.rm dv v)

/-- The scale lane and byte of a member's lane (R151). -/
def qdotScaleLane (lane sel : Nat) (ps : Bool) : Nat :=
  let i := lane / 2
  if ps then 4 * (i / 2) + sel / 4 else 4 * (i / 2) + 2 * (i % 2) + sel / 4 % 2

/-- QDOT in an element format (R151). DESIGN CHOICE (log entry 36): an exact zero sum of a block is +0, so that a zero contribution takes
the sign of its scale, and so does the contribution of a zero scale; the spec gives the sum no sign, and only the +0 of scale byte 0x00 (R322). -/
def qdotOp (ty : Nat) (x : FmtRP) (s : State) : Result :=
  let cc := x.p.c.toNat
  let sel := x.p.immx.toNat % 16
  let ps := bit x.p.immx.toNat 4
  runPure { lrWord x.g (some x.p) (withSeed (some x.p) [x.a.toNat, x.b.toNat, cc]) [x.d.toNat] with cost := 2 } s fun c f =>
    let laneSum (l : Nat) : Dy :=
      match assoc c.parts l with
      | some g => qdotSum ty (readReg c.p g x.a.toNat) (readReg c.p g x.b.toNat)
      | none => ⟨0, 0⟩
    let sum := (laneSum (2 * (c.lane / 2))).add (laneSum (2 * (c.lane / 2) + 1))
    let sc := match assoc c.parts (qdotScaleLane c.lane sel ps) with
      | some g => field (readReg c.p g cc).toNat (8 * (sel % 4)) 8
      | none => 0
    let r := qdotAdd (laneRnd c (some x.p) f 0) (f.vreg x.d.toNat) (blockContrib (codeVal x.p.ty.toNat sc) (sum.val false))
    (f.setV x.d.toNat (BitVec.ofNat 32 r.code), r.flg, r.causes)

/-- QDOT.E2M1 (R151). -/
def execQdotE2m1 (x : FmtRP) (s : State) : Result :=
  qdotOp 7 x s

/-- QDOT.INT4 (R151). -/
def execQdotInt4 (x : FmtRP) (s : State) : Result :=
  qdotOp 15 x s

/-- QDOT.UINT4 (R151). -/
def execQdotUint4 (x : FmtRP) (s : State) : Result :=
  qdotOp 16 x s

end Sys2Proof.Machine
end

