-- ==== Sys2Proof/Machine/Matrix.lean ====
section
/-! DEFINITION. The matrix engine's commands: SBLD, MMRUN, MMOUT, MTAB, MBIAS as they are checked and as they complete (R160 to
R187). -/

namespace Sys2Proof.Machine

/-! ### Formats (R164) -/

/-- Whether a format is in the extended class. -/
def isExt (ty : Nat) : Bool :=
  decide (ty ≤ 2)

/-- Whether a format is logarithmic. -/
def isLog (ty : Nat) : Bool :=
  ty == 9 || ty == 10

/-- The slots that a tile of a format takes. -/
def slotCount (ty : Nat) : Nat :=
  match ty with
  | 0 => 4
  | 1 => 2
  | 2 => 2
  | 11 => 2
  | 12 => 2
  | _ => 1

/-- Whether a first slot is legal for a format. -/
def slotLegal (ty slot : Nat) : Bool :=
  slot % slotCount ty == 0

/-- Whether an operand pair is legal. -/
def pairLegal (a b : Nat) : Bool :=
  if isExt a || isExt b then isExt a && isExt b
  else if isLog a || isLog b then a == b
  else true

/-- The grid exponent of a format. -/
def gridExp (ty : Nat) : Int :=
  match ty with
  | 3 => -16
  | 4 => -9
  | 5 => -4
  | 6 => -3
  | 7 => -1
  | 8 => -6
  | _ => 0

/-- The grid of a fixed-class pair at GOFF 0. -/
def pairGrid (a b : Nat) : Int :=
  if a = 9 then -31 else if a = 10 then -23 else gridExp a + gridExp b

/-- The number format of a block scale: SCF and ASF codes (R106, R179). -/
def scaleTy (code : Nat) : Nat :=
  match code with
  | 0 => 26
  | 1 => 3
  | _ => 4

/-- The elements of n packed codes of w bits (R103). -/
def unpack (bs : List Byte) (n w : Nat) : List Nat :=
  let v := leNat bs
  (List.range n).map fun i => field v (w * i) w

/-! ### Descriptors -/

/-- The origin of SBLD, MTAB and MBIAS. -/
def Cmd.origin (d : Cmd) : Nat :=
  d.word 0 + 2 ^ 32 * d.bits 1 0 8

/-- Whether a load command's source is global. -/
def Cmd.glob (d : Cmd) : Bool :=
  match d.code with
  | .sbld x => x.glob == 1
  | .mtab x => x.glob == 1
  | .mbias x => x.glob == 1
  | _ => false

/-- The ranges of an SBLD: its rows and its scales (R179). -/
def Cmd.sbldSpans (d : Cmd) : List Span :=
  let n := d.bits 1 19 8 + 1
  let k := 16 * (d.bits 1 15 4 + 1)
  rowSpans d.origin (d.bits 2 0 24) k (packedBytes n (tyWidth (d.bits 1 8 5))) ++
    (if d.bits 1 27 1 = 1 then [(d.origin + d.word 3, k / 16 * n)] else [])

/-- The ranges that an MMRUN reads for a tile of K rows: its A rows and its scales (R181). -/
def Cmd.runSpans (d : Cmd) (k : Nat) : List Span :=
  let m := d.bits 2 0 6 + 1
  rowSpans (d.bits 0 0 19) (d.bits 1 0 19) m (packedBytes k (tyWidth (d.bits 1 19 5))) ++
    (if d.bits 2 20 1 = 1 then [(d.bits 3 0 19, m * (k / 16))] else [])

/-- The element format of an MMOUT's output: OTY, or FP32 without Q (R185). -/
def Cmd.outTy (d : Cmd) : Nat :=
  match d.code with
  | .mmout x => if x.q = 1 then d.bits 1 19 5 else 0
  | _ => 0

/-- The ranges that an MMOUT writes (R185). -/
def Cmd.outSpans (d : Cmd) : List Span :=
  rowSpans (d.bits 0 0 19) (d.bits 1 0 19) (d.bits 2 0 6 + 1) (packedBytes (d.bits 2 12 8 + 1) (tyWidth d.outTy))

/-- The K of the tile that a queued MMRUN will read: of the last earlier SBLD of its slot, of the slot, or the largest. -/
def MatEngine.tileK (e : MatEngine) (d : Cmd) : Nat :=
  let slot := d.bits 1 24 2
  let earlier := (e.load.toList ++ e.queue).filter fun c =>
    c.pid == d.pid && decide (c.order < d.order) &&
      match c.code with
      | .sbld _ => c.bits 1 13 2 == slot
      | _ => false
  match earlier.getLast? with
  | some c => 16 * (c.bits 1 15 4 + 1)
  | none =>
    match assoc e.st.slots slot with
    | some t => t.kdim
    | none => 256

/-- The scratchpad ranges of a matrix command (R310). -/
def MatEngine.ranges (e : MatEngine) (d : Cmd) : Ranges :=
  match d.code with
  | .sbld _ => ⟨if d.glob then [] else d.sbldSpans, []⟩
  | .mtab _ => ⟨if d.glob then [] else [(d.origin, 4096)], []⟩
  | .mbias _ => ⟨if d.glob then [] else [(d.origin, 4096)], []⟩
  | .mmrun _ => ⟨d.runSpans (e.tileK d), []⟩
  | .mmout _ => ⟨[], d.outSpans⟩
  | _ => ⟨[], []⟩

/-! ### Matrix state -/

/-- An accumulator row, if it is not empty. -/
def MatState.row? (m : MatState) (bank row : Nat) : Option AccRow :=
  m.rows.find? fun r => r.bank == bank && r.row == row

/-- Replaces or adds a row. -/
def MatState.setRow (m : MatState) (r : AccRow) : MatState :=
  { m with rows := (m.rows.filter fun q => !(q.bank == r.bank && q.row == r.row)) ++ [r] }

/-- Invalidates the tiles that share a slot with a tile of a format at a first slot. -/
def MatState.dropSlots (m : MatState) (slot ty : Nat) : MatState :=
  { m with slots := m.slots.filter fun q => !decide (q.1 < slot + slotCount ty ∧ slot < q.1 + slotCount q.2.ty) }

/-! ### The checks (R167, R179, R181, R183, R185) -/

/-- An ILLOP of a command's descriptor. -/
def illDesc : Option CmdFault :=
  some ⟨.illop, 0, 0, 0⟩

/-- The checks of a load command's source: the capability, or the scratchpad ranges. -/
def Cmd.sourceFault (d : Cmd) (p : Plot) (spans : List Span) : Option CmdFault :=
  if d.glob then
    match capOf d.src d.origin (spansEnd spans - d.origin) rightR 1 [0, 3] 5 with
    | .ok _ => none
    | .error e => some e
  else spansFault p spans 5

/-- The checks of SBLD. -/
def sbldFault (d : Cmd) (p : Plot) : Option CmdFault :=
  let ty := d.bits 1 8 5
  let ssc := d.bits 1 27 1 = 1
  if d.bits 1 30 2 ≠ 0 ∨ d.bits 2 24 8 ≠ 0 ∨ 19 < ty ∨ d.bits 1 28 2 = 3 ∨ !slotLegal ty (d.bits 1 13 2) ∨
      (!d.glob ∧ d.bits 1 0 8 ≠ 0) ∨ (¬ssc ∧ d.word 3 ≠ 0) ∨ (ssc ∧ (isExt ty ∨ isLog ty)) then illDesc
  else d.sourceFault p d.sbldSpans

/-- The checks of MTAB and MBIAS. -/
def tableFault (d : Cmd) (p : Plot) : Option CmdFault :=
  if d.bits 1 8 24 ≠ 0 ∨ d.word 2 ≠ 0 ∨ d.word 3 ≠ 0 ∨ (!d.glob ∧ d.bits 1 0 8 ≠ 0) then illDesc
  else d.sourceFault p [(d.origin, 4096)]

/-- The tag that a run gives its rows (R164, R182). -/
def Cmd.runTag (d : Cmd) (bty : Nat) : RowTag :=
  let aty := d.bits 1 19 5
  if isExt aty then .extended else .fixed (pairGrid aty bty + signedOf 8 (d.bits 2 12 8))

/-- The checks of MMRUN. -/
def mmrunFault (d : Cmd) (p : Plot) (st : MatState) (acc : Bool) : Option CmdFault :=
  let aty := d.bits 1 19 5
  let arow := d.bits 2 6 6
  let m := d.bits 2 0 6 + 1
  let asc := d.bits 2 20 1 = 1
  if d.bits 0 19 13 ≠ 0 ∨ d.bits 1 27 5 ≠ 0 ∨ d.bits 2 23 9 ≠ 0 ∨ d.bits 3 19 13 ≠ 0 ∨ 19 < aty ∨ d.bits 2 21 2 = 3 ∨
      64 < arow + m then illDesc
  else
    match assoc st.slots (d.bits 1 24 2) with
    | none => illDesc
    | some t =>
      let tags := (List.range m).filterMap fun i => (st.row? (d.bits 1 26 1) (arow + i)).map (·.tag)
      if !pairLegal aty t.ty ∨ (isExt aty ∧ d.bits 2 12 8 ≠ 0) ∨ (asc ∧ (isExt aty ∨ isLog aty)) ∨
          (acc ∧ tags.any fun g => g != d.runTag t.ty) then illDesc
      else spansFault p (d.runSpans t.kdim) 5

/-- The checks of MMOUT. -/
def mmoutFault (d : Cmd) (p : Plot) (st : MatState) (b a q : Bool) : Option CmdFault :=
  let m := d.bits 2 0 6 + 1
  let n := d.bits 2 12 8 + 1
  let arow := d.bits 2 6 6
  let tsf := d.bits 2 28 2
  let oty := d.bits 1 19 5
  let empty := (List.range m).any fun i => (st.row? (d.bits 1 28 1) (arow + i)).isNone
  if d.bits 0 19 13 ≠ 0 ∨ d.bits 1 29 3 ≠ 0 ∨ d.bits 2 31 1 ≠ 0 ∨ tsf = 3 ∨ 19 < oty ∨ 5 < d.bits 1 24 3 ∨
      (tsf = 0 ∧ d.word 3 ≠ 0) ∨ (tsf = 1 ∧ d.bits 3 16 16 ≠ 0) ∨ 64 < arow + m ∨ 256 < d.bits 2 20 8 + n ∨ empty ∨
      (a ∧ st.table.isNone) ∨ ((b ∨ q) ∧ st.params.isNone) ∨ (!b ∧ tsf ≠ 0) ∨ (!q ∧ d.bits 1 19 9 ≠ 0) ∨
      (q ∧ tyWidth oty = 6 ∧ 1 < m ∧ d.bits 1 0 19 % 3 ≠ 0) then illDesc
  else spansFault p d.outSpans 6

/-- The checks of a matrix command of the holder, in order (R167). -/
def matrixFault (d : Cmd) (p : Plot) (st : MatState) : Option CmdFault :=
  match d.code with
  | .sbld _ => sbldFault d p
  | .mtab _ => tableFault d p
  | .mbias _ => tableFault d p
  | .mmrun x => mmrunFault d p st (x.acc == 1)
  | .mmout x => mmoutFault d p st (x.bias == 1) (x.act == 1) (x.q == 1)
  | _ => none

/-! ### Sources -/

/-- Reads a range of a load command's source. -/
def State.readSource (s : State) (p : Plot) (d : Cmd) (x : Span) : State × Except CmdFault (List Byte) :=
  if d.glob then s.readGlobal p d d.src.kind d.src.obj (d.src.base + x.1) x.2 else (s, s.readScratch p x.1 x.2)

/-- Reads the ranges of a load command's source; the first fault ends the read. -/
def State.readSources (s : State) (p : Plot) (d : Cmd) (l : List Span) : State × Except CmdFault (List (List Byte)) :=
  l.foldl (fun acc x =>
    match acc.2 with
    | .error e => (acc.1, .error e)
    | .ok rows =>
      match acc.1.readSource p d x with
      | (t, .ok bs) => (t, .ok (rows ++ [bs]))
      | (t, .error e) => (t, .error e)) (s, .ok [])

/-! ### SBLD (R178 to R180) -/

/-- Whether a value is an infinity or a NaN. -/
def Val.special (v : Val) : Bool :=
  v.isNan || v.isInf

/-- The tile of an SBLD from the bytes of its rows and scales. -/
def Cmd.tile (d : Cmd) (rows : List (List Byte)) : SlotState :=
  let ty := d.bits 1 8 5
  let n := d.bits 1 19 8 + 1
  let k := 16 * (d.bits 1 15 4 + 1)
  let scf := d.bits 1 28 2
  let elems := (rows.take k).map fun bs => unpack bs n (tyWidth ty)
  let scales := (List.range (k / 16)).map fun b => (((rows.getD k []).drop (b * n)).take n).map (·.toNat)
  let ssc := d.bits 1 27 1 == 1
  let scaleOf (b c : Nat) : Val := if ssc then codeVal (scaleTy scf) ((scales.getD b []).getD c 0) else .fin false 1 0
  let finite := elems.all (fun r => r.all fun c => !(codeVal ty c).special) &&
    (!ssc || scales.all fun r => r.all fun c => !(codeVal (scaleTy scf) c).special)
  let cs :=
    if isExt ty || isLog ty then []
    else (List.range k).map fun i =>
      let y := (List.range n).foldl (fun (t : Dy) c =>
        t.add ((scaleOf (i / 16) c).dy.mul (codeVal ty ((elems.getD i []).getD c 0)).dy)) ⟨0, 0⟩
      (y.m, y.e)
  { ty := ty, kdim := k, ndim := n, ssc := ssc, scf := scf, elems := elems, scales := if ssc then scales else [], finite := finite,
    cs := cs, poisoned := false }

/-- SBLD completes: the tile is valid, or the slot stays invalid with the fault that the read met (R180). DESIGN CHOICE (log entry 52): it lands in
whatever state the engine then has, so a load that ends after its plot's LAST MMOUT is lost at the next claim, or lands in the next holder's. -/
def State.endSbld (s : State) (p : Plot) (d : Cmd) : State :=
  match s.readSources p d d.sbldSpans with
  | (t, .error e) => t.faultCmd d (e.rec_ d)
  | (t, .ok rows) =>
    t.modCore p.core fun k =>
      { k with mat := { k.mat with st := { k.mat.st with slots := k.mat.st.slots ++ [(d.bits 1 13 2, d.tile rows)] } } }

/-! ### MTAB and MBIAS (R183, R184) -/

/-- The 256 entries of a table: bits [31:0], [63:32], [95:64] of each. -/
def tableOf (bs : List Byte) : List (Word × Word × Word) :=
  (List.range 256).map fun i =>
    let e := leNat ((bs.drop (16 * i)).take 16)
    (BitVec.ofNat 32 e, BitVec.ofNat 32 (e / 2 ^ 32), BitVec.ofNat 32 (e / 2 ^ 64))

/-- MTAB completes. -/
def State.endMtab (s : State) (p : Plot) (d : Cmd) : State :=
  match s.readSource p d (d.origin, 4096) with
  | (t, .error e) =>
    (t.modCore p.core fun k => { k with mat := { k.mat with st := { k.mat.st with table := none } } }).faultCmd d (e.rec_ d)
  | (t, .ok bs) => t.modCore p.core fun k => { k with mat := { k.mat with st := { k.mat.st with table := some (tableOf bs) } } }

/-- MBIAS completes. -/
def State.endMbias (s : State) (p : Plot) (d : Cmd) : State :=
  match s.readSource p d (d.origin, 4096) with
  | (t, .error e) =>
    (t.modCore p.core fun k => { k with mat := { k.mat with st := { k.mat.st with params := none } } }).faultCmd d (e.rec_ d)
  | (t, .ok bs) => t.modCore p.core fun k => { k with mat := { k.mat with st := { k.mat.st with params := some (tableOf bs) } } }

/-! ### MMRUN (R105, R107, R171 to R178, R181, R182) -/

/-- The code product of an L format (R105). DEDUCED (log entry 36): of a zero code and a NaN code, for which R105 names both results, the
product is NaN, as a NaN operand is of every other product (R118). -/
def logProd (ty a b : Nat) : Val :=
  let half := logCodes ty
  let nan (c : Nat) : Bool := c == half
  if nan a || nan b then .nan false none
  else if a = 0 ∨ b = 0 then .zero false
  else
    let y := logDy ty ((a % half : Nat) - logBias ty + ((b % half : Nat) - logBias ty))
    .fin (decide (half ≤ a) != decide (half ≤ b)) y.m.toNat y.e

/-- The product of two codes of a pair, and whether it is invalid. -/
def pairProd (aty bty a b : Nat) : ValRes :=
  if isLog aty then ⟨logProd aty a b, false⟩
  else
    let x := codeVal aty a
    let y := codeVal bty b
    if x.isNan then ⟨x, false⟩ else if y.isNan then ⟨y, false⟩ else Val.mul x y

/-- The exact sum of products: a NaN, infinities of both signs or a product of 0 and an infinity make it a NaN; an exact zero is -0 only
when every product is -0 (R107, R172, R176). -/
def sumProds (ps : List ValRes) : ValRes :=
  if ps.any (·.invalid) then ⟨.nan false none, true⟩
  else
    let vs := ps.map (·.v)
    match firstNan vs with
    | some v => ⟨v, false⟩
    | none =>
      if vs.any (fun v => v.isInf && v.isNeg) && vs.any (fun v => v.isInf && !v.isNeg) then ⟨.nan false none, true⟩
      else
        match vs.find? Val.isInf with
        | some v => ⟨v, false⟩
        | none =>
          let y := vs.foldl (fun (t : Dy) v => t.add v.dy) ⟨0, 0⟩
          ⟨y.val (vs.all fun v => v.isZero && v.isNeg), false⟩

/-- The product of two block scales (R172). -/
def scaleProd (a b : Val) : ValRes :=
  if a.isNan then ⟨a, false⟩ else if b.isNan then ⟨b, false⟩ else Val.mul a b

/-- Sums so far of a run: the entries of a row, flags and causes. -/
structure RowAcc where
  vals : List Int
  flg : Flg
  causes : List Nat
  deriving DecidableEq, Repr

/-- Adds flags and causes. -/
def RowAcc.note (r : RowAcc) (f : Flg) (cs : List Nat) : RowAcc :=
  { r with flg := r.flg ||| f, causes := dedup (r.causes ++ cs) }

/-- An entry of a fixed row after a contribution (R171 to R173). -/
def addContrib (g a : Int) (v : Val) : Int × Flg × List Nat :=
  match v with
  | .nan _ _ => (fixNan, 0, [])
  | .inf n => addFixed a (if n then fixNegInf else fixInf)
  | .zero _ => (a, 0, [])
  | .fin n m e =>
    let (y, inexact) := roundInt ⟨0, 0, 0, 0, 0, false⟩ n m (e - g)
    let nx : Flg := if inexact then flgNX else 0
    if fixFinite a then
      let (z, f) := fixClamp (a + y)
      (z, f ||| nx, [])
    else (a, nx, [])

/-- The contribution of a block to a column, and whether an operation of it is invalid (R107, R172). DEDUCED (log entry 36): an invalid
operation inside the sum sets NV and writes its record under a NaN scale too; that a NaN scale sets no flag says nothing of the sum. -/
def contrib (sa sb : Val) (sum : ValRes) : ValRes :=
  let sc := scaleProd sa sb
  if sum.invalid || sc.invalid then ⟨.nan false none, true⟩ else blockContrib sc.v sum.v

/-- The codes of a block's column in a tile. -/
def SlotState.column (t : SlotState) (b n : Nat) : List Nat :=
  (List.range 16).map fun k => (t.elems.getD (16 * b + k) []).getD n 0

/-- The scale of a block and column in a tile; 1 where it has none. -/
def SlotState.scale (t : SlotState) (b n : Nat) : Val :=
  if t.ssc then codeVal (scaleTy t.scf) ((t.scales.getD b []).getD n 0) else .fin false 1 0

/-- One fixed-class block of a row, its columns in order (R172, R173). -/
def RowAcc.fixedBlock (r : RowAcc) (g : Int) (aty : Nat) (t : SlotState) (b : Nat) (as : List Nat) (sa : Val) : RowAcc :=
  (List.range t.ndim).foldl (fun r n =>
    let c := contrib sa (t.scale b n) (sumProds (List.zipWith (pairProd aty t.ty) as (t.column b n)))
    let (v, f, cs) := addContrib g (r.vals.getD n 0) c.v
    let r : RowAcc := { r with vals := r.vals.set n v }
    (r.note f cs).note (if c.invalid then flgNV else 0) (if c.invalid then [1] else [])) r

/-- The value of an extended entry (R175). -/
def extVal (c : Nat) : Val :=
  let neg := bit c 95
  let e := field c 79 16
  let m := field c 0 79
  if e = 0 then .zero neg
  else if e = 0xFFFF then (if m = 0 then .inf neg else .nan neg (some (m / 2 ^ 56)))
  else .fin neg (2 ^ 79 + m) ((e : Int) - 32767 - 79)

/-- The code of a value rounded to 80 bits with RNE, and whether it is inexact (R175, R176). -/
def extCode (c : RndCtx) (v : Val) : Nat × Bool :=
  let s (n : Bool) : Nat := if n then 2 ^ 95 else 0
  match v with
  | .nan n f =>
    let m := f.getD (originFrac c.pc c.fid)
    (s n + 0xFFFF * 2 ^ 79 + (if bit m 22 then m else m + 0x400000) * 2 ^ 56, false)
  | .inf n => (s n + 0xFFFF * 2 ^ 79, false)
  | .zero n => (s n, false)
  | .fin n m e =>
    let q : Int := (Nat.log2 m : Int) + e - 79
    let (y, r, d) := splitAt m e q
    let y := if r ≠ 0 ∧ roundsUp c n (y % 2 == 0) r d then y + 1 else y
    let (y, q) := if y = 2 ^ 80 then (2 ^ 79, q + 1) else (y, q)
    (s n + (q + 79 + 32767).toNat * 2 ^ 79 + (y - 2 ^ 79), r != 0)

/-- An extended entry after a block's products: a held NaN first, then an invalid operation, then the first NaN operand, else the entry
plus the exact sum rounded once (R176). DESIGN CHOICE (log entry 53): an invalid product comes before a NaN operand of its block, and a NaN
operand before opposite infinities. -/
def extAdd (c : RndCtx) (entry : Nat) (as bs : List Nat) (aty bty : Nat) : Nat × Flg × List Nat :=
  let ps := List.zipWith (pairProd aty bty) as bs
  let ops := (List.zipWith (fun a b => [codeVal aty a, codeVal bty b]) as bs).flatten
  let (sf, sc) := snanFlags ops
  let sum := sumProds ps
  let ent := extVal entry
  let inv := sum.invalid || (!ent.isNan && !sum.v.isNan && (Val.add 0 ent sum.v).invalid)
  let f := sf ||| (if inv then flgNV else 0)
  let cs := dedup (sc ++ if inv then [1] else [])
  if ent.isNan then (entry, f, cs)
  else if inv then ((extCode c (originNan c.pc c.fid)).1, f, cs)
  else
    match firstNan ops with
    | some v => ((extCode c v).1, f, cs)
    | none =>
      let (y, inexact) := extCode c (Val.add 0 ent sum.v).v
      (y, f ||| (if inexact then flgNX else 0), cs)

/-- One extended-class block of a row (R176). -/
def RowAcc.extBlock (r : RowAcc) (c : RndCtx) (aty : Nat) (t : SlotState) (b : Nat) (as : List Nat) : RowAcc :=
  (List.range t.ndim).foldl (fun r n =>
    let (v, f, cs) := extAdd c (r.vals.getD n 0).toNat as (t.column b n) aty t.ty
    ({ r with vals := r.vals.set n v } : RowAcc).note f cs) r

/-- The rounding context of a command. -/
def Cmd.rnd (d : Cmd) (rm idx : Nat) (narrow : Bool) : RndCtx :=
  { rm := rm, seed := d.seed.toNat, fid := d.first, idx := idx, pc := d.pc.toNat, narrow := narrow }

/-- Whether a block of A is skipped: its elements are zeros, the slot is finite, its scale is finite (R177). -/
def skipped (aty : Nat) (t : SlotState) (as : List Nat) (sa : Val) : Bool :=
  as.all (fun a => (codeVal aty a).isZero) && t.finite && !sa.special

/-- A row's sums after a run: its blocks in ascending order. -/
def Cmd.runRow (d : Cmd) (t : SlotState) (r : RowAcc) (codes : List Nat) (scales : List Val) : RowAcc :=
  let aty := d.bits 1 19 5
  let g := match d.runTag t.ty with
    | .fixed g => g
    | .extended => 0
  (List.range (t.kdim / 16)).foldl (fun r b =>
    let as := (codes.drop (16 * b)).take 16
    let sa := scales.getD b (.fin false 1 0)
    if skipped aty t as sa then r
    else if isExt aty then r.extBlock (d.rnd 0 0 false) aty t b as
    else r.fixedBlock g aty t b as sa) r

/-- Whether a row's contributions of a run disagree with the checksum column (R178). -/
def Cmd.rowMismatch (d : Cmd) (t : SlotState) (codes : List Nat) (scales : List Val) : Bool :=
  let aty := d.bits 1 19 5
  let special := codes.any (fun a => (codeVal aty a).special) || scales.any Val.special
  if isExt aty || isLog aty || !t.finite || special then false
  else (List.range (t.kdim / 16)).any fun b =>
    let as := (codes.drop (16 * b)).take 16
    let sa := scales.getD b (.fin false 1 0)
    let got := (List.range t.ndim).foldl (fun (y : Dy) n =>
      y.add (contrib sa (t.scale b n) (sumProds (List.zipWith (pairProd aty t.ty) as (t.column b n)))).v.dy) ⟨0, 0⟩
    let want := (List.range 16).foldl (fun (y : Dy) k =>
      let c := t.cs.getD (16 * b + k) (0, 0)
      y.add ((codeVal aty (as.getD k 0)).dy.mul ⟨c.1, c.2⟩)) ⟨0, 0⟩
    !skipped aty t as sa && !got.eq (sa.dy.mul want)

/-- What a run leaves: the state, flags, causes, the first mismatching row, whether a row met poison. -/
structure RunAcc where
  s : State
  flg : Flg
  causes : List Nat
  mismatch : Option Nat
  poison : Option Nat

/-- One row of a run (R182). -/
def RunAcc.row (a : RunAcc) (p : Plot) (d : Cmd) (t : SlotState) (acc : Bool) (m : Nat) : RunAcc :=
  let bank := d.bits 1 26 1
  let row := d.bits 2 6 6 + m
  let aty := d.bits 1 19 5
  let k := t.kdim
  let nb := k / 16
  let asc := d.bits 2 20 1 == 1
  let off := d.bits 0 0 19 + m * d.bits 1 0 19
  let soff := d.bits 3 0 19 + m * nb
  let old := if acc then (a.s.core p.core).mat.st.row? bank row else none
  let base := match old with
    | some r => r.vals
    | none => List.replicate 256 0
  let wasPoisoned := match old with
    | some r => r.poisoned
    | none => false
  let put (vals : List Int) (poisoned : Bool) : State :=
    a.s.modCore p.core fun c =>
      { c with mat := { c.mat with
          st := c.mat.st.setRow { bank := bank, row := row, tag := d.runTag t.ty, vals := vals, poisoned := poisoned } } }
  let read := a.s.readScratch p off (packedBytes k (tyWidth aty))
  let readScales := if asc then a.s.readScratch p soff nb else .ok []
  match read, readScales with
  | .ok bs, .ok ss =>
    let codes := unpack bs k (tyWidth aty)
    let scales := ss.map fun c => codeVal (scaleTy (d.bits 2 21 2)) c.toNat
    let r := d.runRow t ⟨base, a.flg, a.causes⟩ codes scales
    { a with
      s := put r.vals (wasPoisoned || t.poisoned), flg := r.flg, causes := r.causes
      mismatch := if a.mismatch.isNone && d.rowMismatch t codes scales then some row else a.mismatch }
  | .error e, _ => { a with s := put base true, poison := some (a.poison.getD e.off) }
  | .ok _, .error e => { a with s := put base true, poison := some (a.poison.getD e.off) }

/-- A command's flags and records: its bits to the plot, one record for each cause (R123, R126). -/
def State.noteCmd (s : State) (p : Plot) (d : Cmd) (unit ty : Nat) (f : Flg) (causes : List Nat) : State :=
  (s.setFlags p.pid f).logIssue p d.pc.toNat unit ty [(d.first, causes)]

/-- MMRUN completes (R178, R182). DESIGN CHOICE (log entry 54): several mismatching rows of a run raise one MMCHK, for the first of them. -/
def State.endMmrun (s : State) (p : Plot) (d : Cmd) (acc : Bool) : State :=
  match assoc (s.core p.core).mat.st.slots (d.bits 1 24 2) with
  | none => s
  | some t =>
    let a := (List.range (d.bits 2 0 6 + 1)).foldl (fun a m => a.row p d t acc m) (⟨s, 0, [], none, none⟩ : RunAcc)
    let u := a.s.noteCmd p d 2 (d.bits 1 19 5) a.flg a.causes
    let u := match a.poison with
      | some off => u.faultCmd d (d.faultRec .poison 0 off 5)
      | none => u
    match a.mismatch with
    | some row => u.faultCmd d (d.faultRec .mmchk 0 row 0)
    | none => u

/-! ### MMOUT (R185, R186) -/

/-- A times B plus C rounded once into a format: an invalid operation first, then NaN operands in the order given (R117 to R119,
R186). DESIGN CHOICE (log entry 53): zero times infinity comes before a NaN operand of the step, and a NaN operand before opposite infinities. -/
def chainFma (c : RndCtx) (ty : Nat) (a b d : Val) (order : List Val) : NumRes :=
  let (sf, sc) := snanFlags order
  let p := if a.isNan || b.isNan then ⟨.zero false, false⟩ else Val.mul a b
  let z := if d.isNan || p.invalid then ⟨.zero false, false⟩ else Val.add c.rm p.v d
  let inv := p.invalid || ((firstNan order).isNone && z.invalid)
  if inv then (roundVal c ty (originNan c.pc c.fid)).andFlags (sf ||| flgNV) (sc ++ [1])
  else
    match firstNan order with
    | some v => (roundVal c ty v).andFlags sf sc
    | none => roundVal c ty z.v

/-- The tensor scale of an MMOUT (R185). -/
def Cmd.tensorScale (d : Cmd) : Val :=
  match d.bits 2 28 2 with
  | 0 => .fin false 1 0
  | 1 => codeVal 2 (d.bits 3 0 16)
  | _ => codeVal 0 (d.word 3)

/-- The segment of a value: the highest breakpoint at or below it, else 0 (R186). DESIGN CHOICE (log entry 53): a signalling NaN that
the search only compares sets no flag and writes no record. -/
def segmentOf (tab : List (Word × Word × Word)) (x : Val) : Nat :=
  (List.range 256).foldl (fun i k =>
    let b := codeVal 0 (tab.getD k (0, 0, 0)).1.toNat
    if fcond 3 b x then k else i) 0

/-- Step 3 of the chain: the activation of an FP32 code (R186). Where C1 is zero the result is C0, a signalling one quieted (R116, R118). -/
def activate (c : RndCtx) (tab : List (Word × Word × Word)) (x : Nat) : NumRes :=
  let v := codeVal 0 x
  if v.isNan then ⟨x, 0, []⟩
  else
    let e := tab.getD (segmentOf tab v) (0, 0, 0)
    let xb := codeVal 0 e.1.toNat
    let c0 := codeVal 0 e.2.1.toNat
    let c1 := codeVal 0 e.2.2.toNat
    if c1.isZero then roundVal c 0 c0
    else
      let order := [v, c0, c1, xb]
      let diff := if xb.isNan then ⟨xb, false⟩ else Val.add 0 v (xb.setNeg (!xb.isNeg))
      if diff.invalid then (roundVal c 0 (originNan c.pc c.fid)).andFlags ((snanFlags order).1 ||| flgNV) [1]
      else chainFma c 0 c1 diff.v c0 order

/-- The value of an entry of a row (R171, R175). -/
def AccRow.value (r : AccRow) (n : Nat) : Val :=
  match r.tag with
  | .fixed g => fixedVal g (r.vals.getD n 0)
  | .extended => extVal (r.vals.getD n 0).toNat

/-- One entry through the chain (R186): the output code, flags and causes. -/
def Cmd.chain (d : Cmd) (st : MatState) (b a q : Bool) (row : AccRow) (col : Nat) : NumRes :=
  let par := (st.params.getD []).getD col (0, 0, 0)
  let c := d.rnd 0 0 false
  let v := row.value col
  let x :=
    if b then
      let ts := d.tensorScale
      let bias := codeVal 0 par.1.toNat
      chainFma c 0 v ts bias [v, ts, bias]
    else roundVal c 0 v
  let y := if a then (activate c (st.table.getD []) x.code).andFlags x.flg x.causes else x
  if q then
    let oty := d.bits 1 19 5
    let rc := d.rnd (d.bits 1 24 3) (256 * row.row + col) (d.bits 1 27 1 == 1 && (oty == 1 || oty == 2 || oty == 3))
    let yv := codeVal 0 y.code
    let qs := codeVal 0 par.2.1.toNat
    let zp := codeVal 0 par.2.2.toNat
    (chainFma rc oty yv qs zp [yv, qs, zp]).andFlags y.flg y.causes
  else y

/-- What an MMOUT leaves: the state, flags, causes, whether a drained row is poisoned. -/
structure OutAcc where
  s : State
  flg : Flg
  causes : List Nat
  poison : Option Nat

/-- One row of an MMOUT: its elements written, the other bits of its bytes kept (R185). -/
def OutAcc.row (o : OutAcc) (p : Plot) (d : Cmd) (b a q : Bool) (m : Nat) : OutAcc :=
  let st := (o.s.core p.core).mat.st
  let row := d.bits 2 6 6 + m
  match st.row? (d.bits 1 28 1) row with
  | none => o
  | some r =>
    if r.poisoned then { o with poison := some (o.poison.getD row) }
    else
      let n := d.bits 2 12 8 + 1
      let w := tyWidth d.outTy
      let rs := (List.range n).map fun j => d.chain st b a q r (d.bits 2 20 8 + j)
      let addr := scratchAddr p.core + p.sbase + d.bits 0 0 19 + m * d.bits 1 0 19
      let len := packedBytes n w
      let keep := o.s.loadNat addr len / 2 ^ (n * w)
      let v := (rs.foldr (fun x acc => acc * 2 ^ w + x.code % 2 ^ w) 0) + keep * 2 ^ (n * w)
      { o with
        s := o.s.store addr (leBytes len v)
        flg := rs.foldl (fun f x => f ||| x.flg) o.flg
        causes := rs.foldl (fun l x => dedup (l ++ x.causes)) o.causes }

/-- MMOUT completes; with LAST the engine is released, whatever it met (R161, R186). The record of a poisoned row names no access (R182, R419). -/
def State.endMmout (s : State) (p : Plot) (d : Cmd) (b a q : Bool) : State :=
  let o := (List.range (d.bits 2 0 6 + 1)).foldl (fun o m => o.row p d b a q m) (⟨s, 0, [], none⟩ : OutAcc)
  let t := o.s.noteCmd p d 2 d.outTy o.flg o.causes
  let t := match o.poison with
    | some _ => t.faultCmd d (d.faultRec .poison 0 0 0)
    | none => t
  if d.bits 2 30 1 = 1 then t.modCore p.core fun k => { k with mat := { k.mat with holder := none, st := .claimed } } else t

/-- A matrix command that has run its time takes effect (R180, R182, R183, R186). -/
def State.endMatrix (s : State) (p : Plot) (d : Cmd) : State :=
  match d.code with
  | .sbld _ => s.endSbld p d
  | .mtab _ => s.endMtab p d
  | .mbias _ => s.endMbias p d
  | .mmrun x => s.endMmrun p d (x.acc == 1)
  | .mmout x => s.endMmout p d (x.bias == 1) (x.act == 1) (x.q == 1)
  | _ => s

end Sys2Proof.Machine
end

