-- ==== Sys2Proof/Machine/Wain.lean ====
section
/-! DEFINITION. The wain engine's commands: COPY, COPYP, TCOPY, COLL, BARINIT as they are checked, started and landed (R242 to R245,
R300 to R316). -/

namespace Sys2Proof.Machine

/-! ### Descriptors (R303, R309, R312, R313) -/

/-- Where a wain command moves bytes: which sides are global, whether it names a barrier. -/
structure WainForm where
  srcGlobal : Bool
  dstGlobal : Bool
  bar : Bool
  deriving DecidableEq, Repr

/-- The form of a wain command. -/
def Cmd.form (d : Cmd) : WainForm :=
  match d.code with
  | .copyGs x => ⟨true, false, x.bar == 1⟩
  | .copySg x => ⟨false, true, x.bar == 1⟩
  | .copyGg x => ⟨true, true, x.bar == 1⟩
  | .tcopyGs x => ⟨true, false, x.bar == 1⟩
  | .tcopySg x => ⟨false, true, x.bar == 1⟩
  | .copypIn x => ⟨true, false, x.bar == 1⟩
  | .copypOut x => ⟨false, true, x.bar == 1⟩
  | .coll x => ⟨false, false, x.bar == 1⟩
  | _ => ⟨false, false, false⟩

/-- Whether a command is a TCOPY. -/
def Cmd.isTcopy (d : Cmd) : Bool :=
  match d.code with
  | .tcopyGs _ => true
  | .tcopySg _ => true
  | _ => false

/-- Whether a command is a COPYP. -/
def Cmd.isCopyp (d : Cmd) : Bool :=
  match d.code with
  | .copypIn _ => true
  | .copypOut _ => true
  | _ => false

/-- Whether a command is a COPY. -/
def Cmd.isCopy (d : Cmd) : Bool :=
  match d.code with
  | .copyGs _ => true
  | .copySg _ => true
  | .copyGg _ => true
  | _ => false

/-- Whether a command is a COLL. -/
def Cmd.isColl (d : Cmd) : Bool :=
  match d.code with
  | .coll _ => true
  | _ => false

/-- The source offset of COPY and COPYP. -/
def Cmd.srcOff (d : Cmd) : Nat :=
  d.word 0 + 2 ^ 32 * d.bits 2 0 8

/-- The destination offset of COPY and COPYP. -/
def Cmd.dstOff (d : Cmd) : Nat :=
  d.word 1 + 2 ^ 32 * d.bits 2 8 8

/-- The barrier offset that a command names. -/
def Cmd.barOff (d : Cmd) : Nat :=
  16 * (if d.isTcopy then d.bits 3 0 15 else if d.isColl then d.bits 3 17 15 else d.bits 2 17 15)

/-! ### Shape records (R311) -/

/-- A shape-table record. -/
structure Shape where
  bits : Nat
  deriving DecidableEq, Repr

/-- TYPE. -/
def Shape.ty (r : Shape) : Nat := field r.bits 0 2
/-- The element size in bytes. -/
def Shape.es (r : Shape) : Nat := 2 ^ field r.bits 2 3
/-- The extent of a dimension; 1 above the rank. -/
def Shape.extent (r : Shape) (x : Nat) : Nat :=
  if field r.bits 5 2 < x then 1 else field r.bits (64 + 16 * x) 16 + 1
/-- A global stride, dimensions 1 to 3. -/
def Shape.gs (r : Shape) (x : Nat) : Int := signedOf 32 (field r.bits (96 + 32 * x) 32)
/-- A scratchpad stride, dimensions 1 to 3. -/
def Shape.ss (r : Shape) (x : Nat) : Nat := field r.bits (192 + 32 * x) 32
/-- The bound object. -/
def Shape.obj (r : Shape) : Nat := field r.bits 328 24
/-- The members of a group record. -/
def Shape.nmem (r : Shape) : Nat := field r.bits 42 12 + 1
/-- The fabric group of a group record. -/
def Shape.gid (r : Shape) : Nat := field r.bits 10 32
/-- The root rank of a group record. -/
def Shape.root (r : Shape) : Nat := field r.bits 54 12

/-- The record at an index of the context's shape table, an object of KIND shape table; one of another KIND is refused as R399 step 3 refuses it
(R311). -/
def State.shapeAt (s : State) (ctx i : Nat) : Except CmdFault Shape :=
  match s.ctx? ctx with
  | none => .error ⟨.capb, 0, 0, 5⟩
  | some c =>
    let obj := field c.shape.toNat 0 24
    if !bit c.shape.toNat 24 then .error ⟨.capb, 0, 64 * i, 5⟩
    else
      match s.entry? c obj with
      | none => .error ⟨.objx, obj, 64 * i, 5⟩
      | some e =>
        if e.kind ≠ 5 then .error ⟨.capr, obj, 64 * i, 5⟩
        else if 65536 * e.npages < 64 * i + 64 then .error ⟨.capb, obj, 64 * i, 5⟩
        else if (s.place? 0 ctx obj (64 * i)).isNone then .error ⟨.resn, obj, 64 * i, 5⟩
        else if s.objPoisoned ctx obj (64 * i) 64 then .error ⟨.poison, obj, s.objPoisonOff ctx obj (64 * i) 64, 5⟩
        else .ok ⟨s.objWords ctx obj (64 * i) 64⟩

/-- The shape-table index of a TCOPY or COLL. -/
def Cmd.shapeIdx (d : Cmd) : Nat :=
  if d.isColl then d.bits 2 0 16 else d.bits 0 0 16

/-- A TCOPY's global origin. -/
def Cmd.gor (d : Cmd) : Nat :=
  d.word 1 + 2 ^ 32 * d.bits 2 0 8

/-- A TCOPY's scratchpad origin. -/
def Cmd.sorg (d : Cmd) : Nat :=
  d.bits 2 8 19

/-- The sum of a term over the dimensions 1 to 3. -/
def sumDims (f : Nat → Int) : Int :=
  f 1 + f 2 + f 3

/-- The global bytes of a TCOPY: least offset and end. -/
def Shape.globalSpan (r : Shape) (gor : Nat) : Int × Int :=
  let step (x : Nat) : Int := (r.extent x - 1 : Nat) * r.gs x
  (gor + sumDims fun x => min 0 (step x), gor + (r.extent 0 * r.es : Nat) + sumDims fun x => max 0 (step x))

/-- The scratchpad bytes of a TCOPY, as the smallest interval that holds them (R310). -/
def Shape.scratchSpan (r : Shape) (sorg : Nat) : Span :=
  (sorg, r.extent 0 * r.es + (r.extent 1 - 1) * r.ss 1 + (r.extent 2 - 1) * r.ss 2 + (r.extent 3 - 1) * r.ss 3)

/-- The elements of a TCOPY in index order, i0 fastest: global offset and scratchpad offset (R312). -/
def Shape.elements (r : Shape) (gor sorg : Nat) : List (Nat × Nat) :=
  (List.range (r.extent 3)).flatMap fun (i3 : Nat) =>
    (List.range (r.extent 2)).flatMap fun (i2 : Nat) =>
      (List.range (r.extent 1)).flatMap fun (i1 : Nat) =>
        (List.range (r.extent 0)).map fun (i0 : Nat) =>
          (((gor : Int) + (i0 * r.es : Nat) + (i1 : Int) * r.gs 1 + (i2 : Int) * r.gs 2 + (i3 : Int) * r.gs 3).toNat,
            sorg + i0 * r.es + i1 * r.ss 1 + i2 * r.ss 2 + i3 * r.ss 3)

/-! ### COLL's fields (R313) -/

/-- COLL's operation: 0 REDUCE, 1 ALLREDUCE, 2 ALLGATHER. -/
def Cmd.collOp (d : Cmd) : Nat := d.bits 1 19 2
/-- COLL's element format. -/
def Cmd.collTy (d : Cmd) : Nat := d.bits 0 19 5
/-- COLL's element size in bytes. -/
def Cmd.collEs (d : Cmd) : Nat := tyWidth d.collTy / 8
/-- COLL's grid exponent. -/
def Cmd.collG (d : Cmd) : Int := signedOf 8 (d.bits 0 24 8)
/-- COLL's element count. -/
def Cmd.nel (d : Cmd) : Nat := d.bits 3 0 17
/-- The rank of the member. -/
def Cmd.rank (d : Cmd) : Nat := d.bits 2 16 12

/-- The bytes that a member's destination takes: none for a member of a REDUCE that is not its root. -/
def Cmd.collOut (d : Cmd) (r : Shape) : Nat :=
  match d.collOp with
  | 0 => if d.rank = r.root then d.nel * d.collEs else 0
  | 1 => d.nel * d.collEs
  | _ => r.nmem * d.nel * d.collEs

/-- The least that a member's destination takes whatever its group is, where no group record says more: of a REDUCE nothing, of an ALLGATHER one
member's elements (R302, R313). -/
def Cmd.collLeast (d : Cmd) : Nat :=
  if d.collOp = 0 then 0 else d.nel * d.collEs

/-- The fabric group of a COLL, if its group record can be read (R313). -/
def State.collGroup (s : State) (d : Cmd) : Option Nat :=
  match s.plot? d.pid with
  | none => none
  | some p =>
    match s.shapeAt p.ctx d.shapeIdx with
    | .ok r => if d.isColl && r.ty == 2 then some r.gid else none
    | .error _ => none

/-- Whether an earlier COLL of a command's member for its group has not started: the n-th COLLs of a group's members meet (R313). -/
def State.collBehind (s : State) (core : Nat) (d : Cmd) : Bool :=
  match s.collGroup d with
  | none => false
  | some g => (s.core core).wainQueue.any fun e =>
      e.pid == d.pid && e.rank == d.rank && decide (e.order < d.order) && s.collGroup e == some g

/-! ### Ranges (R310) -/

/-- The scratchpad ranges of a wain command. -/
def State.wainRanges (s : State) (p : Plot) (d : Cmd) : Ranges :=
  let f := d.form
  if d.isTcopy then
    match s.shapeAt p.ctx d.shapeIdx with
    | .error _ => ⟨[], []⟩
    | .ok r => if f.srcGlobal then ⟨[], [r.scratchSpan d.sorg]⟩ else ⟨[r.scratchSpan d.sorg], []⟩
  else if d.isColl then
    match s.shapeAt p.ctx d.shapeIdx with
    | .error _ => ⟨[], []⟩
    | .ok r => ⟨[(d.bits 0 0 19, d.nel * d.collEs)], [(d.bits 1 0 19, d.collOut r)]⟩
  else
    match d.code with
    | .barinit _ => ⟨[], []⟩
    | _ => ⟨if f.srcGlobal then [] else [(d.srcOff, d.word 3)], if f.dstGlobal then [] else [(d.dstOff, d.word 3)]⟩

/-- The ranges of a command of a core; a plot's matrix state may still wait for the engine (R441). -/
def State.cmdRanges (s : State) (core : Nat) (d : Cmd) : Ranges :=
  if d.isMatrix then
    let k := s.core core
    match assoc k.restoring d.pid with
    | some st => { k.mat with st := st }.ranges d
    | none => k.mat.ranges d
  else
    match s.plot? d.pid with
    | some p => s.wainRanges p d
    | none => ⟨[], []⟩

/-- Every command of a core that has entered a queue and has not completed. -/
def Core.commands (k : Core) : List Cmd :=
  k.mat.load.toList ++ k.mat.compute.toList ++ k.mat.queue ++ k.wainRun.map (·.cmd) ++ k.wainQueue

/-- Whether the scoreboard allows a command's start: no earlier command of its plot that has not completed conflicts (R310). -/
def State.mayStart (s : State) (core : Nat) (d : Cmd) : Bool :=
  let mine := s.cmdRanges core d
  (s.core core).commands.all fun e =>
    e.pid != d.pid || decide (d.order ≤ e.order) || !(s.cmdRanges core e).conflict mine

/-! ### The checks (R302) -/

/-- The kinds of a wain command's source. -/
def srcKinds : List Nat := [0, 1, 2, 3, 4]

/-- The kinds of a wain command's destination. -/
def dstKinds : List Nat := [0, 1, 4]

/-- Step 1: reserved descriptor bits and ranges of fields. -/
def Cmd.wainIll (d : Cmd) : Bool :=
  let f := d.form
  match d.code with
  | .barinit _ => d.bits 0 19 13 != 0 || d.bits 1 11 21 != 0 || d.bits 3 4 28 != 0 || d.bits 1 0 11 == 0
  | .coll _ =>
    d.bits 1 24 8 != 0 || d.bits 2 28 4 != 0 || d.collOp == 3 || decide (4 < d.bits 1 21 3) || d.nel == 0 ||
      !([0, 1, 2, 3, 4, 11, 13, 14, 20, 21, 22].contains d.collTy)
  | .tcopyGs _ => d.bits 0 16 16 != 0 || d.bits 2 27 5 != 0 || d.bits 3 15 17 != 0
  | .tcopySg _ => d.bits 0 16 16 != 0 || d.bits 2 27 5 != 0 || d.bits 3 15 17 != 0
  | .copypOut _ => (!f.bar && d.barOff != 0) || d.bits 2 0 8 != 0
  | _ =>
    (!f.bar && d.barOff != 0) || d.bits 2 16 1 != 0 || (!f.srcGlobal && d.bits 2 0 8 != 0) || (!f.dstGlobal && d.bits 2 8 8 != 0)

/-- Step 2 for a destination: LATNM on lattices and layer tables. -/
def dstCap (c : Cap) (off size : Nat) : Except CmdFault (Nat × Nat) :=
  if c.tag && rightsWithin rightW c.rights && (c.kind == 2 || c.kind == 3) then .error ⟨.latnm, c.obj, (c.base + off) % 2 ^ 40, 6⟩
  else capOf c off size rightW 4 dstKinds 6

/-- Step 2: the capability checks of each side. -/
def Cmd.capFault (d : Cmd) : Option CmdFault :=
  let f := d.form
  let so := if d.isTcopy then d.gor else d.srcOff
  let do_ := if d.isTcopy then d.gor else d.dstOff
  let n := if d.isTcopy then 0 else d.word 3
  let src := if f.srcGlobal then
      (match capOf d.src so n rightR 4 srcKinds 5 with
      | .error e => some e
      | .ok _ => none)
    else none
  match src with
  | some e => some e
  | none =>
    if f.dstGlobal then
      match dstCap d.dst do_ n with
      | .error e => some e
      | .ok _ => none
    else none

/-- COPYP's peer range must lie on CORE pages (R305). -/
def State.peerFault (s : State) (p : Plot) (d : Cmd) : Option CmdFault :=
  if !d.isCopyp then none
  else
    let f := d.form
    let c := if f.srcGlobal then d.src else d.dst
    let off := c.base + (if f.srcGlobal then d.srcOff else d.dstOff)
    firstSome ((linesOf off (d.word 3)).map fun l =>
      match s.place? (dieOf p.core) p.ctx c.obj l.1 with
      | some h => if h.isCore then none else some ⟨.capr, c.obj, l.1, if f.srcGlobal then 5 else 6⟩
      | none => none)

/-- Step 3: the scratchpad ranges, the alignment of offsets and of LEN; of a COLL's destination, what is known before step 4 has found its group. -/
def State.spadFault (s : State) (p : Plot) (d : Cmd) : Option CmdFault :=
  let f := d.form
  let align (b : Bool) (off acc : Nat) : Option CmdFault := if b && off % 4 != 0 then some ⟨.align, 0, off, acc⟩ else none
  match d.code with
  | .barinit _ => none
  | .coll _ =>
    let out := match s.shapeAt p.ctx d.shapeIdx with
      | .ok r => if r.ty = 2 then d.collOut r else d.collLeast
      | .error _ => d.collLeast
    firstSome [spansFault p [(d.bits 0 0 19, d.nel * d.collEs)] 5, if out = 0 then none else spansFault p [(d.bits 1 0 19, out)] 6,
      align true (d.bits 0 0 19) 5, align (out != 0) (d.bits 1 0 19) 6]
  | _ =>
    if d.isTcopy then align true d.sorg (if f.srcGlobal then 6 else 5)
    else
      firstSome [if f.srcGlobal then none else spansFault p [(d.srcOff, d.word 3)] 5,
        if f.dstGlobal then none else spansFault p [(d.dstOff, d.word 3)] 6,
        align (!f.srcGlobal) d.srcOff 5, align (!f.dstGlobal) d.dstOff 6,
        if d.word 3 % 4 ≠ 0 then some ⟨.align, 0, 0, 0⟩ else none]

/-- Step 4: the shape-table checks of TCOPY and COLL (R311). -/
def State.shapeFault (s : State) (p : Plot) (d : Cmd) : Option CmdFault :=
  let f := d.form
  if d.isTcopy then
    let c := if f.srcGlobal then d.src else d.dst
    let acc := if f.srcGlobal then 5 else 6
    let bad (e : FaultCode) : Option CmdFault := some ⟨e, c.obj, (c.base + d.gor) % 2 ^ 40, acc⟩
    match s.shapeAt p.ctx d.shapeIdx with
    | .error e => some e
    | .ok r =>
      let (lo, hi) := r.globalSpan d.gor
      let es := r.es
      if r.ty ≠ 1 ∨ 4 < field r.bits 2 3 ∨ !bit r.bits (if f.srcGlobal then 7 else 8) ∨ (bit r.bits 9 ∧ c.obj ≠ r.obj) then bad .capr
      else if lo < 0 ∨ c.len < hi then bad .capb
      else if p.ssize < (r.scratchSpan d.sorg).1 + (r.scratchSpan d.sorg).2 then some ⟨.capb, 0, d.sorg, if f.srcGlobal then 6 else 5⟩
      else if d.gor % es ≠ 0 ∨ d.sorg % es ≠ 0 ∨ [1, 2, 3].any fun x => r.gs x % es != 0 || r.ss x % es != 0 then bad .align
      else none
  else if d.isColl then
    match s.shapeAt p.ctx d.shapeIdx with
    | .error e => some e
    | .ok r =>
      if r.ty ≠ 2 then some ⟨.capr, 0, 0, 0⟩ else none
  else none

/-- The barrier that a command names: in the allocation, or for PBAR in the peer object (R303, R305). -/
def Cmd.barLoc (d : Cmd) (p : Plot) : Option BarLoc :=
  if !d.form.bar then none
  else if d.isCopyp && d.bits 2 16 1 == 1 then some (.core p.ctx d.dst.obj (d.dst.base + d.barOff))
  else some (.own d.barOff)

/-- Whether a barrier's place exists: in the plot's allocation, or on a CORE page of the object. -/
def State.barExists (s : State) (p : Plot) (l : BarLoc) : Bool :=
  match l with
  | .own off => off % 16 == 0 && decide (off + 16 ≤ p.ssize)
  | .core ctx obj off =>
    off % 16 == 0 &&
      match s.place? (dieOf p.core) ctx obj off with
      | some h => h.isCore
      | none => false

/-- Step 5: the barrier. -/
def State.barFaultOf (s : State) (p : Plot) (d : Cmd) : Option CmdFault :=
  let barx (obj off : Nat) : Option CmdFault := some ⟨.barx, obj, off, 6⟩
  match d.code with
  | .barinit _ =>
    let off := d.bits 0 0 19
    let a := scratchAddr p.core + p.sbase + off
    if off % 16 ≠ 0 ∨ p.ssize < off + 16 then barx 0 off
    else if (s.barrier a).tag = 0xB ∧ s.plots.any fun q => q.fibres.any fun f => (s.waitsBarrier q f a none).isSome then barx 0 off
    else none
  | _ =>
    match d.barLoc p with
    | none => none
    | some l =>
      let fail : Option CmdFault :=
        match l with
        | .own off => barx 0 off
        | .core _ obj off => barx obj off
      if !s.barExists p l then fail
      else
        match s.barAddr p l with
        | none => fail
        | some a => if (s.barrier a).tag ≠ 0xB then fail else none

/-- Whether a COLL's RANK is outside its group, a field outside its range (R302, R313). -/
def State.rankIll (s : State) (p : Plot) (d : Cmd) : Bool :=
  d.isColl &&
    match s.shapeAt p.ctx d.shapeIdx with
    | .ok r => r.ty == 2 && decide (r.nmem ≤ d.rank)
    | .error _ => false

/-- The first fault of a wain command at its checks (R302). -/
def State.wainFault (s : State) (p : Plot) (d : Cmd) : Option CmdFault :=
  if d.wainIll || s.rankIll p d then some ⟨.illop, 0, 0, 0⟩
  else firstSome [d.capFault, s.peerFault p d, s.spadFault p d, s.shapeFault p d, s.barFaultOf p d]

/-! ### The transfer (R242, R243, R304, R306) -/

/-- A run of bytes to move: source offset, destination offset, length. -/
structure Move where
  src : Nat
  dst : Nat
  len : Nat
  deriving DecidableEq, Repr

/-- What a command moves, in order; offsets of a global side are in its object. -/
def State.movesOf (s : State) (p : Plot) (d : Cmd) : List Move :=
  let f := d.form
  let sb := if f.srcGlobal then d.src.base else 0
  let db := if f.dstGlobal then d.dst.base else 0
  if d.isTcopy then
    match s.shapeAt p.ctx d.shapeIdx with
    | .error _ => []
    | .ok r => (r.elements d.gor d.sorg).map fun e => if f.srcGlobal then ⟨sb + e.1, e.2, r.es⟩ else ⟨e.2, db + e.1, r.es⟩
  else if d.word 3 = 0 then []
  else [⟨sb + d.srcOff, db + d.dstOff, d.word 3⟩]

/-- A move cut at the 128-byte lines of its destination. -/
def Move.cut (m : Move) : List Move :=
  (linesOf m.dst m.len).map fun l => ⟨m.src + (l.1 - m.dst), l.1, l.2⟩

/-- Reads the source bytes of a piece's moves: destination offsets with their bytes. -/
def State.readMoves (s : State) (p : Plot) (d : Cmd) (ms : List Move) : State × Except CmdFault (List (Nat × List Byte)) :=
  ms.foldl (fun acc m =>
    match acc.2 with
    | .error e => (acc.1, .error e)
    | .ok l =>
      let r := if d.form.srcGlobal then acc.1.readGlobal p d d.src.kind d.src.obj m.src m.len else (acc.1, acc.1.readScratch p m.src m.len)
      match r with
      | (t, .ok bs) => (t, .ok (l ++ [(m.dst, bs)]))
      | (t, .error e) => (t, .error e)) (s, .ok [])

/-- The pieces of a command with their bytes, in order; a fault ends the list (R302, R304: every byte is read before one is
written). -/
def State.readPieces (s : State) (p : Plot) (d : Cmd) : State × List (List (Nat × List Byte)) × Option CmdFault :=
  let parts := (s.movesOf p d).flatMap Move.cut
  (dedup (parts.map (·.dst / 128))).foldl (fun (acc : State × List (List (Nat × List Byte)) × Option CmdFault) line =>
    match acc.2.2 with
    | some _ => acc
    | none =>
      match acc.1.readMoves p d (parts.filter fun m => m.dst / 128 == line) with
      | (t, .ok cells) => (t, acc.2.1 ++ [cells], none)
      | (t, .error e) => (t, acc.2.1, some e)) (s, [], none)

/-- The bytes that a piece writes. -/
def pieceSize (cells : List (Nat × List Byte)) : Nat :=
  (dedup (cells.flatMap fun c => (List.range c.2.length).map (· + c.1))).length

/-- The lines that a command's pieces write, in ascending address order, with the first byte of each (R243). -/
def pieceLines (ps : List Piece) : List (Nat × Nat) :=
  let offs := ps.flatMap fun x => x.cells.map (·.1)
  (sortBy id (dedup (offs.map (· / 128)))).map fun l => (l, ((sortBy id (offs.filter fun o => o / 128 == l)).head?).getD (128 * l))

/-- The engine asks for the ownership of each global line that a command writes, in ascending address order (R243). The requests are no
fibre's accesses. -/
def State.askOwnership (s : State) (p : Plot) (d : Cmd) (ps : List Piece) : State :=
  (pieceLines ps).foldl (fun t l =>
    t.send { pid := p.pid, fid := ghost d.first, pc := d.pc, core := p.core, ctx := p.ctx, system := p.system, cap := d.dst, obj := d.dst.obj,
             off := l.2, op := .own d.order }) s

/-- The lines that a command must own. -/
def wanted (ctx obj : Nat) (ps : List Piece) : List LineRef :=
  (pieceLines ps).map fun l => ⟨ctx, obj, l.1, 0⟩

/-! ### Completion -/

/-- A wain command completes: its counts are freed, its fault is raised (R302, R306). -/
def State.endWain (s : State) (core : Nat) (r : WainRun) : State :=
  let t := s.modCore core fun k => { k with wainRun := k.wainRun.filter fun q => q.cmd.order != r.cmd.order }
  let t := { t with engineOwned := t.engineOwned.filter fun q => !(q.2 == (core, r.cmd.order)) }
  let t := t.freeSigners r.cmd
  match r.failed with
  | some f => t.faultCmd r.cmd f
  | none => t

/-- A started command stays on the engine while it has pieces to land. -/
def State.runWain (s : State) (core : Nat) (r : WainRun) : State :=
  if r.pieces.isEmpty && !r.waiting then s.endWain core r
  else s.modCore core fun k => { k with wainRun := k.wainRun ++ [r] }

/-! ### Contributions of a collective (R314) -/

/-- A contribution's element: the integer, the flags POS 1, NEG 2, NAN 4 that travel with it, and the FLG bits of its conversion,
NV for a signalling NaN (R118). -/
def collElem (ty : Nat) (g : Int) (code : Nat) : Int × Nat × Flg :=
  match codeVal ty code with
  | .nan n z => (0, 4, if (Val.nan n z).isSnan then flgNV else 0)
  | .inf n => (0, if n then 2 else 1, 0)
  | .zero _ => (0, 0, 0)
  | .fin n m e =>
    if 5 ≤ ty then (if n then -((Dy.mk m e).align ⟨0, 0⟩).1 else ((Dy.mk m e).align ⟨0, 0⟩).1, 0, 0)
    else
      let (y, inexact) := roundInt ⟨0, 0, 0, 0, 0, false⟩ n m (e - g)
      let top : Int := 2 ^ 83 - 1
      let nx : Flg := if inexact then flgNX else 0
      if top < y then (top, 0, flgSA ||| nx) else if y < -top then (-top, 0, flgSA ||| nx) else (y, 0, nx)

/-- The codes of a byte string of n elements. -/
def codesOf (bs : List Byte) (n es : Nat) : List Nat :=
  (List.range n).map fun i => leNat ((bs.drop (es * i)).take es)

/-- A collective's group with another member's contribution (R313). -/
def State.addPart (s : State) (ctx : Nat) (r : Shape) (x : CollPart) : State :=
  if s.colls.any fun c => c.ctx == ctx && c.gid == r.gid then
    { s with colls := s.colls.map fun c => if c.ctx == ctx && c.gid == r.gid then { c with parts := c.parts ++ [x] } else c }
  else { s with colls := s.colls ++ [{ ctx := ctx, gid := r.gid, nmem := r.nmem, root := r.root, parts := [x] }] }

/-- COLL starts: the member's contribution leaves the core (R313, R314). -/
def State.startColl (s : State) (p : Plot) (d : Cmd) : State :=
  match s.shapeAt p.ctx d.shapeIdx, s.readScratch p (d.bits 0 0 19) (d.nel * d.collEs) with
  | .ok r, .ok bs =>
    let codes := codesOf bs d.nel d.collEs
    let gather := d.collOp = 2
    let es := codes.map fun (c : Nat) => if gather then ((c : Int), 0, (0 : Flg)) else collElem d.collTy d.collG c
    let flg := es.foldl (fun f e => f ||| e.2.2) 0
    let x : CollPart :=
      { pid := p.pid, core := p.core, order := d.order, first := d.first, pc := d.pc, rank := d.rank,
        key := (d.collOp, d.collTy, d.bits 0 24 8, d.nel), elems := es.map fun e => (e.1, e.2.1) }
    let t := (s.noteCmd p d 3 d.collTy flg (if flg &&& flgNV = 0 then [] else [1])).addPart p.ctx r x
    t.runWain p.core ⟨d, [], d.barLoc p, none, !(d.collOp == 0 && d.rank != r.root), [], if flg &&& flgNV = 0 then [] else [1]⟩
  | .ok _, .error e => s.runWain p.core ⟨d, [], none, some (e.rec_ d), false, [], []⟩
  | .error e, _ => s.runWain p.core ⟨d, [], none, some (e.rec_ d), false, [], []⟩

/-- The result of an element at the root: its code, flags and causes (R314). -/
def collResult (c : RndCtx) (ty : Nat) (g : Int) (sum : Int) (flags : Nat) : NumRes :=
  let nan := bit flags 2
  let pos := bit flags 0
  let neg := bit flags 1
  if nan || (pos && neg) then
    let inv := pos && neg
    (roundVal c ty (originNan c.pc c.fid)).andFlags (if inv then flgNV else 0) (if inv then [1] else [])
  else if pos || neg then roundVal { c with narrow := false } ty (.inf neg)
  else roundVal c ty ((Dy.mk sum g).val false)

/-! ### Starting (R302, R309, R315) -/

/-- The object that a BARINIT writes (R307, R309). -/
def Cmd.barrier (d : Cmd) : Barrier :=
  { tag := 0xB, pend := signedOf 36 (d.word 2 + 2 ^ 32 * d.bits 3 0 4), arr := 0, exp := d.bits 1 0 11, ph := 0, rest := 0 }

/-- Whether a COPY or COLL goes over a Yotis port that is down (R24, R463). Which commands a port carries is set outside the part, through the
reeve's interface and the fabric (log entry 9). -/
def State.yotisShut (s : State) (p : Plot) (d : Cmd) : Bool :=
  (d.isCopy || d.isColl) && s.yotisDown.any fun port =>
    Config.yotisCarries port p.ctx (if d.isColl then (s.collGroup d).getD 0 else if d.form.srcGlobal then d.src.obj else d.dst.obj)

/-- A wain command starts: checked, then its bytes are read, and its engine asks for the global lines that it writes; the pieces land one by one
(R242, R243, R304). -/
def State.startWain (s : State) (p : Plot) (d : Cmd) : State :=
  match s.wainFault p d with
  | some e => s.runWain p.core ⟨d, [], none, some (e.rec_ d), false, [], []⟩
  | none =>
    if s.yotisShut p d then s.runWain p.core ⟨d, [], none, some (d.faultRec .poison 0 0 5), false, [], []⟩
    else
    match d.code with
    | .barinit _ =>
      let a := scratchAddr p.core + p.sbase + d.bits 0 0 19
      (s.testBarrier a d.barrier).runWain p.core ⟨d, [], none, none, false, [], []⟩
    | .coll _ => s.startColl p d
    | _ =>
      let (t, cells, e) := s.readPieces p d
      let ps := cells.map fun c => (⟨pieceSize c, c⟩ : Piece)
      let want := if d.form.dstGlobal then wanted p.ctx d.dst.obj ps else []
      let u := t.runWain p.core ⟨d, ps, d.barLoc p, e.map fun f => f.rec_ d, false, want, []⟩
      if want.isEmpty then u else u.askOwnership p d ps

/-! ### Landing (R306, R308) -/

/-- The bytes of a piece are written: in the scratchpad, or at the home of its line, which the engine then gives up (R244, R306). The first
refusal of the home is the command's fault. -/
def State.writePiece (s : State) (p : Plot) (d : Cmd) (q : Piece) : State × Option FaultRec :=
  if d.form.dstGlobal then
    let (t, bad) := s.engineCells p d q.cells
    let lines := q.cells.map (·.1 / 128)
    ({ t with engineOwned := t.engineOwned.filter fun z => !(z.2 == (p.core, d.order) && lines.contains z.1.line) }, bad)
  else ((pieceRuns q.cells).foldl (fun t c => t.store (scratchAddr p.core + p.sbase + c.1) c.2) s, none)

/-- The barrier of a command counts a piece of some bytes; one that it cannot count raises BARX (R306, R308). -/
def State.countPiece (s : State) (p : Plot) (r : WainRun) (n : Nat) : State :=
  match r.bar.bind (s.barAddr p) with
  | none => s
  | some a =>
    match s.barPiece a n with
    | some u => u
    | none =>
      let (obj, off) := match r.bar with
        | some (.core _ o y) => (o, y)
        | some (.own y) => (0, y)
        | none => (0, 0)
      s.faultCmd r.cmd (r.cmd.faultRec .barx obj off 6)

/-- A running command of a core, as it stands. -/
def Core.runOf (k : Core) (r : WainRun) : WainRun :=
  (k.wainRun.find? fun q => q.cmd.order == r.cmd.order).getD r

/-- A piece lands: its bytes are written, its barrier counts it; the last one, or one that meets a fault, ends the command (R302, R306). -/
def State.landPiece (s : State) (core : Nat) (r : WainRun) : State :=
  match s.plot? r.cmd.pid, r.pieces with
  | some p, q :: rest =>
    match s.writePiece p r.cmd q with
    | (t, some e) => t.endWain core { r with pieces := [], failed := some (r.failed.getD e) }
    | (t, none) =>
      let t := t.countPiece p r q.size
      if rest.isEmpty then t.endWain core { (t.core core).runOf r with pieces := [] }
      else t.modCore core fun k => { k with wainRun := k.wainRun.map fun q => if q.cmd.order == r.cmd.order then { q with pieces := rest } else q }
  | _, _ => s.endWain core r

/-- Whether the ways of a wain command that starts are open: to every byte that it reads (R460). -/
def State.wainOpen (s : State) (d : Cmd) : Bool :=
  s.allUp ||
    match s.plot? d.pid with
    | none => true
    | some p => !d.form.srcGlobal || s.globalOpen p d.src.obj ((s.movesOf p d).map fun m => (m.src, m.len))

/-- Whether the way from a plot's core to a barrier is open (R14, R460). -/
def State.barOpen (s : State) (p : Plot) (l : Option BarLoc) : Bool :=
  match l.bind (s.barAddr p) with
  | some a => s.wayOpen (dieOf p.core) (dieOf (sramCore a))
  | none => true

/-- Whether the ways of a running command's next piece are open, to its line and to its barrier (R14, R460). -/
def State.pieceOpen (s : State) (r : WainRun) : Bool :=
  s.allUp ||
    match s.plot? r.cmd.pid, r.pieces with
    | some p, q :: _ =>
      s.barOpen p r.bar && (!r.cmd.form.dstGlobal || s.globalOpen p r.cmd.dst.obj (q.cells.map fun c => (c.1, c.2.length)))
    | _, _ => true

end Sys2Proof.Machine
end

