-- ==== Sys2Proof/Machine/EngineStep.lean ====
section
/-! DEFINITION. The engines at work: entry into the queues, the start of commands, the scratchpad port, completion, pieces, the result of a
collective (R161, R162, R168, R169, R187, R300, R306, R313, R314). -/

namespace Sys2Proof.Machine

/-! ### Entry (R162, R187, R300) -/

/-- Whether a plot is there and not halted, nor its die by a debugger: its queued commands may start (R417, R465). -/
def State.runs (s : State) (pid : Nat) : Bool :=
  match s.plot? pid with
  | some p => p.halt.isNone && !(s.die (dieOf p.core)).halted
  | none => false

/-- Whether the queue of a command has room (R162, R300). -/
def Core.roomFor (k : Core) (d : Cmd) : Bool :=
  if d.isMatrix then decide (k.mat.queue.length < 8) else decide (k.wainQueue.length < 16)

/-- The first of some waiting commands whose queue has room and that no earlier one of its plot waits before: the commands of a plot enter in order,
those that a restore has brought too (R162, R300, R441). -/
def Core.firstEntry (k : Core) (held : List Nat) (l : List Cmd) : Option Cmd :=
  match l with
  | [] => none
  | d :: rest => if !held.contains d.pid && k.roomFor d then some d else k.firstEntry (d.pid :: held) rest

/-- The waiting command that enters its queue next. -/
def Core.entry? (k : Core) : Option Cmd :=
  k.firstEntry [] k.cmdWait

/-- ENGINE_QUEUE_ENTRY: a command enters its queue (R162, R187, R300). -/
def execEngineQueueEntry (core : Nat) (s : State) : Result :=
  let k := s.core core
  match k.entry? with
  | none => .fault .noSubject
  | some d =>
    let d' := { d with order := s.nextOrder }
    let k := { k with cmdWait := k.cmdWait.filter fun e => e.order != d.order }
    let k := if d.isMatrix then { k with mat := { k.mat with queue := k.mat.queue ++ [d'] } } else { k with wainQueue := k.wainQueue ++ [d'] }
    .next { s.setCore k with nextOrder := s.nextOrder + 1 }

/-! ### Matrix commands (R161, R169, R187) -/

/-- Whether a matrix command runs on the load path. -/
def Cmd.onLoad (d : Cmd) : Bool :=
  match d.code with
  | .sbld _ => true
  | .mtab _ => true
  | .mbias _ => true
  | _ => false

/-- The slots of an SBLD, or of the tile that an MMRUN reads: first and count. -/
def MatEngine.slotsOf (e : MatEngine) (d : Cmd) : Nat × Nat :=
  match d.code with
  | .sbld _ => (d.bits 1 13 2, slotCount (d.bits 1 8 5))
  | .mmrun _ =>
    let slot := d.bits 1 24 2
    let earlier := (e.load.toList ++ e.queue).filter fun c =>
      c.pid == d.pid && decide (c.order < d.order) &&
        match c.code with
        | .sbld _ => c.bits 1 13 2 == slot
        | _ => false
    match earlier.getLast? with
    | some c => (slot, slotCount (c.bits 1 8 5))
    | none =>
      match assoc e.st.slots slot with
      | some t => (slot, slotCount t.ty)
      | none => (slot, 1)
  | _ => (0, 0)

/-- Whether two slot ranges meet. -/
def slotsMeet (a b : Nat × Nat) : Bool :=
  decide (a.1 < b.1 + b.2 ∧ b.1 < a.1 + a.2)

/-- Whether an earlier command of the holder holds a later one back, the paths apart (R169). -/
def MatEngine.holdsBack (e : MatEngine) (earlier later : Cmd) : Bool :=
  match earlier.code, later.code with
  | .sbld _, .mmrun _ => slotsMeet (e.slotsOf earlier) (e.slotsOf later)
  | .mmrun _, .sbld _ => slotsMeet (e.slotsOf earlier) (e.slotsOf later)
  | .mtab _, .mmout _ => true
  | .mbias _, .mmout _ => true
  | .mmout _, .mtab _ => true
  | .mmout _, .mbias _ => true
  | _, _ => false

/-- The plot whose commands may start: the holder, a restored plot whose matrix state waits for the engine, or the plot that would claim a
free engine (R161, R162, R441). -/
def State.matrixPlot (s : State) (core : Nat) : Option Nat :=
  let k := s.core core
  match k.mat.holder, k.restoring with
  | some h, _ => if s.runs h then some h else none
  | none, r :: _ => if s.runs r.1 then some r.1 else none
  | none, [] => (k.mat.queue.find? fun d => s.runs d.pid).map (·.pid)

/-- A free engine takes the state of the first restored plot that waits for it (R441). -/
def Core.reclaim (k : Core) : Core :=
  match k.mat.holder, k.restoring with
  | none, r :: rest => { k with mat := { k.mat with holder := some r.1, st := r.2 }, restoring := rest }
  | _, _ => k

/-- Whether a queued command of that plot may start on its path. -/
def State.matrixMay (s : State) (core : Nat) (d : Cmd) : Bool :=
  let e := (s.core core).reclaim.mat
  let before := (e.load.toList ++ e.compute.toList ++ e.queue).filter fun c => c.pid == d.pid && decide (c.order < d.order)
  !(before.any fun c => e.holdsBack c d) && s.mayStart core d

/-- The next matrix command that starts: the first of the plot on a free path (R169, R187). -/
def State.matrixStart? (s : State) (core : Nat) : Option Cmd :=
  let e := (s.core core).reclaim.mat
  match s.matrixPlot core with
  | none => none
  | some pid =>
    let next (onLoad : Bool) : Option Cmd := (e.queue.find? fun d => d.pid == pid && d.onLoad == onLoad).bind fun d =>
      if s.matrixMay core d then some d else none
    firstSome [if e.load.isNone then next true else none, if e.compute.isNone then next false else none]

/-- Whether a command needs the load path's scratchpad port (R187). -/
def Cmd.needsPort (d : Cmd) : Bool :=
  match d.code with
  | .mmrun _ => false
  | .mmout _ => true
  | _ => !d.glob

/-- MATRIX_COMMAND_START: a plot's first command claims a free engine; the command is checked, and starts or ends with its fault (R161,
R167, R168). DESIGN CHOICE (log entry 52): a plot claims the engine as its first command starts on its path, not as it enters the queue. -/
def execMatrixCommandStart (core : Nat) (s : State) : Result :=
  match s.matrixStart? core with
  | none => .fault .noSubject
  | some d =>
    match s.plot? d.pid with
    | none => .fault .noSubject
    | some p =>
      let k := (s.core core).reclaim
      let claimed := k.mat.holder.isNone
      let st := if claimed then .claimed else k.mat.st
      let e := { k.mat with holder := some d.pid, st := st, queue := k.mat.queue.filter fun c => c.order != d.order }
      let st' := match d.code with
        | .sbld _ => st.dropSlots (d.bits 1 13 2) (d.bits 1 8 5)
        | _ => st
      match matrixFault d p st with
      | some f => .next (((s.setCore { k with mat := { e with st := st' } }).freeSigners d).faultCmd d (f.rec_ d))
      | none =>
        let e := { e with st := st', port := if d.needsPort && e.port.isNone then some d.order else e.port }
        let e := if d.onLoad then { e with load := some d } else { e with compute := some d }
        .next (s.setCore { k with mat := e })

/-- The command that waits for the scratchpad port while it is free, the earlier started first (R187). -/
def MatEngine.waitsPort (e : MatEngine) : Option Cmd :=
  if e.port.isSome then none else (e.load.toList ++ e.compute.toList).find? Cmd.needsPort

/-- SCRATCHPAD_PORT_GRANT (R187). -/
def execScratchpadPortGrant (core : Nat) (s : State) : Result :=
  match (s.core core).mat.waitsPort with
  | none => .fault .noSubject
  | some d => .next (s.modCore core fun k => { k with mat := { k.mat with port := some d.order } })

/-- Whether the ways of a matrix command's reads are open (R460). -/
def State.matrixOpen (s : State) (d : Cmd) : Bool :=
  s.allUp || !d.glob ||
    match s.plot? d.pid with
    | some p =>
      let spans := match d.code with
        | .sbld _ => d.sbldSpans
        | _ => [(d.origin, 4096)]
      s.globalOpen p d.src.obj (spans.map fun x => (d.src.base + x.1, x.2))
    | none => true

/-- The next matrix command that completes: one on a path that has the port if it needs it. -/
def State.matrixDone? (s : State) (core : Nat) : Option Cmd :=
  let e := (s.core core).mat
  minBy? ((e.load.toList ++ e.compute.toList).filter fun d => (!d.needsPort || e.port == some d.order) && s.matrixOpen d) (·.order)

/-- MATRIX_COMMAND_COMPLETE: the command takes effect, its path and port are free, its signers' counts are freed (R163, R187). -/
def execMatrixCommandComplete (core : Nat) (s : State) : Result :=
  match s.matrixDone? core with
  | none => .fault .noSubject
  | some d =>
    match s.plot? d.pid with
    | none => .fault .noSubject
    | some p =>
      let t := s.endMatrix p d
      let t := t.modCore core fun k =>
        let e := k.mat
        { k with mat :=
          { e with
            load := if d.onLoad then none else e.load
            compute := if d.onLoad then e.compute else none
            port := if e.port = some d.order then none else e.port } }
      .next (t.freeSigners d)

/-! ### Wain commands (R300, R306) -/

/-- The next wain command that starts: the oldest queued one that the scoreboard allows, four at once; the COLLs of a member for one group in their
order (R300, R310, R313, R316). -/
def State.wainStart? (s : State) (core : Nat) : Option Cmd :=
  let k := s.core core
  if 4 ≤ k.wainRun.length then none
  else k.wainQueue.find? fun d => s.runs d.pid && s.mayStart core d && !s.collBehind core d && s.wainOpen d

/-- WAIN_COMMAND_START (R242, R243, R300, R302, R309). -/
def execWainCommandStart (core : Nat) (s : State) : Result :=
  match s.wainStart? core with
  | none => .fault .noSubject
  | some d =>
    match s.plot? d.pid with
    | none => .fault .noSubject
    | some p => .next ((s.modCore core fun k => { k with wainQueue := k.wainQueue.filter fun c => c.order != d.order }).startWain p d)

/-- The command whose next piece lands: it waits for no member and for no line's ownership (R243, R313). -/
def State.lands? (s : State) (core : Nat) : Option WainRun :=
  (s.core core).wainRun.find? fun r => !r.waiting && r.want.isEmpty && s.pieceOpen r

/-- PIECE_LANDED (R306, R308). -/
def execPieceLanded (core : Nat) (s : State) : Result :=
  match s.lands? core with
  | none => .fault .noSubject
  | some r => .next (s.landPiece core r)

/-! ### Collectives (R313, R314) -/

/-- The contributions of one round of a group, one for each rank, if all are in. -/
def CollWait.round (c : CollWait) : Option (List CollPart) :=
  (List.range c.nmem).foldr (fun r acc =>
    match c.parts.find? (fun x => x.rank == r), acc with
    | some x, some l => some (x :: l)
    | _, _ => none) (some [])

/-- The running command of a contribution that waits for the result. -/
def State.collRun (s : State) (x : CollPart) : Option WainRun :=
  (s.core x.core).wainRun.find? fun r => r.cmd.order == x.order && r.waiting

/-- A member's result: bytes to land at its DOFF. -/
def State.collDeliver (s : State) (x : CollPart) (bs : List Byte) : State :=
  match s.collRun x with
  | none => s
  | some r =>
    let off := r.cmd.bits 1 0 19
    let ps := (linesOf off bs.length).map fun l => (⟨l.2, [(l.1, (bs.drop (l.1 - off)).take l.2)]⟩ : Piece)
    let r' := { r with pieces := ps, waiting := false }
    if ps.isEmpty then s.endWain x.core r'
    else s.modCore x.core fun k => { k with wainRun := k.wainRun.map fun q => if q.cmd.order == x.order then r' else q }

/-- A member's BARX after a mismatch of the group's commands (R313). -/
def State.collMismatch (s : State) (x : CollPart) : State :=
  let f : FaultRec := .late .barx x.pc 0 0 0 5
  match s.collRun x with
  | some r => s.endWain x.core { r with failed := some f }
  | none => s.commandFault x.pid x.first f

/-- The result of a round at its members. -/
def State.collFinish (s : State) (c : CollWait) (l : List CollPart) : State :=
  match l with
  | [] => s
  | x :: _ =>
    let (op, ty, g, nel) := x.key
    let es := tyWidth ty / 8
    if l.any fun y => y.key != x.key then l.foldl State.collMismatch s
    else if op = 2 then
      let bs := (l.flatMap (·.elems)).flatMap fun e => leBytes es e.1.toNat
      l.foldl (fun t y => t.collDeliver y bs) s
    else
      match l.find? fun y => y.rank == c.root with
      | none => s
      | some root =>
        let rm := match s.collRun root with
          | some r => r.cmd.bits 1 21 3
          | none => 0
        let seen := ((s.collRun root).map (·.logged)).getD []
        let rc : RndCtx := { rm := rm, seed := 0, fid := root.first, idx := 0, pc := root.pc.toNat, narrow := true }
        let rs := (List.range nel).map fun i =>
          let col := l.map fun y => y.elems.getD i (0, 0)
          collResult rc ty (signedOf 8 g) ((col.map (·.1)).sum) (col.foldl (fun f e => f ||| e.2) 0)
        let bs := rs.flatMap fun r => leBytes es r.code
        let t := match s.plot? root.pid with
          | some p =>
            (s.setFlags p.pid (rs.foldl (fun f r => f ||| r.flg) 0)).logIssue p root.pc.toNat 3 ty
              [(root.first, (dedup (rs.flatMap (·.causes))).filter fun c => !seen.contains c)]
          | none => s
        l.foldl (fun u y => if op = 1 ∨ y.rank = c.root then u.collDeliver y bs else u) t

/-- COLL_ROOT_RESULT: the contributions of a round are in, and the root forms the result (R313, R314). -/
def execCollRootResult (ctx gid : Nat) (s : State) : Result :=
  match s.colls.find? fun c => c.ctx == ctx && c.gid == gid with
  | none => .fault .noSubject
  | some c =>
    match c.round.filter fun l => l.all fun x => l.all fun y => s.wayOpen (dieOf x.core) (dieOf y.core) with
    | none => .fault .noSubject
    | some l =>
      let rest := c.parts.filter fun x => !l.contains x
      let colls := if rest.isEmpty then s.colls.filter fun d => !(d.ctx == ctx && d.gid == gid)
        else s.colls.map fun d => if d.ctx == ctx && d.gid == gid then { c with parts := rest } else d
      .next (({ s with colls := colls } : State).collFinish c l)

end Sys2Proof.Machine
end

