-- ==== Sys2Proof/Machine/Layers.lean ====
section
/-! DEFINITION. Crop layers: residency and count words, LDLAYER and RELLAYER, a plot's references; and SOW (R54, R369, R370, R446 to
R454). -/

namespace Sys2Proof.Machine

/-! ### Waiting for the signers (R168) -/

/-- Whether every access of an instance's non-neutral signers before their signatures has been performed (R168). -/
def State.signersQuiet (s : State) (p : Plot) (i : Inst) : Bool :=
  i.sigs.all fun g => g.neutral || s.quiet p.pid g.fid

/-! ### SOW (R54, R369, R370) -/

/-- The field of a plot; a handler acts for the plot that it serves. -/
def State.fieldOf (s : State) (p : Plot) : Option Field :=
  s.fields.find? fun f => f.ctx == p.ctx && f.fld == p.fld

/-- SOW's execution: the signers' accesses happen before the child, so the core's dirty bytes are written back first, as a release from
DIE scope does (R370). -/
def effSow (x : FmtXW) (p : Plot) (i : Inst) (s : State) : UniEffect :=
  let d := 4 * x.kd.toNat
  let k (n : Nat) : Nat := (p.kreg (d + n)).toNat
  let off := k 0 + 2 ^ 32 * (k 1 % 256)
  let b := p.breg x.bs.toNat
  let bad (e : FaultCode) (o y acc : Nat) : UniEffect := uniFault s p i (i.faultRec e o y acc)
  let status (n : Nat) (t : State) : UniEffect := .done t (.k (d + 3) (BitVec.ofNat 32 n))
  if !s.signersQuiet p i then .hold
  else
    match capOf b off 256 (rightR + rightC) 256 [0] 5 with
    | .error e => bad e.code e.obj e.off e.acc
    | .ok (o, y) =>
      let depth := match s.fieldOf p with
        | some f => f.depth
        | none => 0
      if k 1 / 256 ≠ 0 ∨ k 2 ≠ 0 then bad .illop 0 0 0
      else if 10 ≤ depth then bad .nest 0 0 0
      else if !s.globalOpen p o [(y, 256)] then .hold
      else
        match s.port (dieOf p.core) p.ctx p.system b.kind o (rightR + rightC) y with
        | .error e => bad e o y 5
        | .ok _ =>
          let t := (linesOf y 256).foldl (fun t l => t.ownBack p.core ⟨p.ctx, o, l.1 / 128, 0⟩) s
          let t := t.readyLines p.ctx o y 256
          if t.objPoisoned p.ctx o y 256 then uniFault t p i (i.faultRec .poison o (t.objPoisonOff p.ctx o y 256) 5)
          else
            let r := t.readRecord p.ctx o y
            match t.refusal p.ctx r with
            | some n => status n t
            | none =>
              if 1024 ≤ (t.fields.filter fun f => f.parent.isSome && f.eligible.isNone).length then status 16 t
              else
                let u := ((t.commit p.pid).flushCore p.core).bumpEpoch p.core
                status 0 (u.addField p.ctx r p.system (depth + 1) ((u.fieldOf p).map fun f => (f.ctx, f.fld)))

/-! ### Residency and count words (R446, R447) -/

/-- A crop of a context by its layer table. -/
def Ctx.cropOf (c : Ctx) (table : Nat) : Option Crop :=
  c.crops.find? fun k => k.table == table

/-- Changes a crop of a context. -/
def State.modCrop (s : State) (ctx crop : Nat) (f : Crop → Crop) : State :=
  { s with ctxs := s.ctxs.map fun c =>
      if c.num == ctx then { c with crops := c.crops.map fun k => if k.num == crop then f k else k } else c }

/-- A layer's residency word on a die; 0 where the replica has no page. -/
def State.resWord (s : State) (die ctx table i : Nat) : Nat :=
  match s.place? die ctx table (8 * i) with
  | some h => s.loadNat h.addr 8
  | none => 0

/-- The fields of a count word: GEN, EVICT, COUNT. -/
def State.countWord (s : State) (ctx obj i : Nat) : Nat × Bool × Nat :=
  let w := s.getObj ctx obj (8 * i) 8
  (field w 32 32, bit w 31, field w 0 23)

/-- Writes a count word at its home. -/
def State.setCount (s : State) (ctx obj i gen : Nat) (evict : Bool) (n : Nat) : State :=
  s.putObj ctx obj (8 * i) (leBytes 8 (gen % 2 ^ 32 * 2 ^ 32 + (if evict then 2 ^ 31 else 0) + n % 2 ^ 23))

/-- Lowers a layer's COUNT by n, and notes the release (R449, R452). -/
def State.lowerCount (s : State) (ctx : Nat) (k : Crop) (i n : Nat) : State :=
  let (gen, ev, c) := s.countWord ctx k.count i
  let t := s.setCount ctx k.count i gen ev (c - n)
  { t.modCrop ctx k.num fun q => { q with layers := q.layers.modify i fun l => { l with released := s.nextOrder } } with
    nextOrder := s.nextOrder + 1 }

/-- Whether a layer waits in its crop's queue or is being swapped in. -/
def Crop.asked (k : Crop) (i : Nat) : Bool :=
  k.queue.any (fun q => q.1 == i) || (k.swap.any fun w => w.layer == i)

/-- Asks the reeve for a swap-in: the layer, then the next three absent layers above it, those already queued keeping their place (R448). -/
def State.askSwap (s : State) (ctx : Nat) (k : Crop) (i gen : Nat) : State :=
  let absent := (((List.range k.layers.length).filter fun j => decide (i < j) && s.resWord 0 ctx k.table j % 4 == 0).take 3).map
    fun j => (j, s.resWord 0 ctx k.table j / 4)
  s.modCrop ctx k.num fun q =>
    ((i, gen) :: absent).foldl (fun q e => if q.asked e.1 then q else { q with queue := q.queue ++ [e] }) q

/-! ### References (R452) -/

/-- Adds a reference: none where it would be the 17th entry or the 256th of one. -/
def addRef (l : List LayerRef) (crop layer : Nat) : Option (List LayerRef) :=
  match l.find? fun r => r.crop == crop && r.layer == layer with
  | some r => if r.mult = 255 then none
      else some (l.map fun q => if q.crop == crop && q.layer == layer then { q with mult := q.mult + 1 } else q)
  | none => if 16 ≤ l.length then none else some (l ++ [⟨crop, layer, 1⟩])

/-- Takes a reference away; none where there is none. -/
def dropRef (l : List LayerRef) (crop layer : Nat) : Option (List LayerRef) :=
  match l.find? fun r => r.crop == crop && r.layer == layer with
  | none => none
  | some r => some (if r.mult ≤ 1 then l.filter fun q => !(q.crop == crop && q.layer == layer)
      else l.map fun q => if q.crop == crop && q.layer == layer then { q with mult := q.mult - 1 } else q)

/-- Drops every reference of a plot (R452). -/
def State.dropLayers (s : State) (p : Plot) : State :=
  let t := p.layers.foldl (fun t r =>
    match (t.ctx? p.ctx).bind fun c => c.crops.find? fun k => k.num == r.crop with
    | some k => t.lowerCount p.ctx k r.layer r.mult
    | none => t) s
  t.modPlot p.pid fun q => { q with layers := [] }

/-- The plot whose references a plot uses: a handler uses those of the plot that it serves (R452). -/
def State.refPlot (s : State) (p : Plot) : Plot :=
  (p.handler.bind s.plot?).getD p

/-! ### LDLAYER and RELLAYER (R451, R453, R454) -/

/-- The checks of R451 in order, with the crop and the layer that they find. LAYX names byte 8i of the table (R474). -/
def State.layerCheck (s : State) (p : Plot) (ka : Nat) (b : Cap) : Except CmdFault (Crop × Nat) :=
  let k := (p.kreg ka).toNat
  let i := k % 4096
  if k / 4096 ≠ 0 then .error ⟨.illop, 0, 0, 0⟩
  else
    match capOf b (8 * i) 8 (rightR + rightL) 8 [3] 1 with
    | .error e => .error e
    | .ok (o, _) =>
      match (s.ctx? p.ctx).bind fun c => c.cropOf o with
      | none => .error ⟨.layx, o, 8 * i, 1⟩
      | some c => if c.layers.length ≤ i then .error ⟨.layx, o, 8 * i, 1⟩ else .ok (c, i)

/-- The residency word of a layer as LDLAT tests it at the replica of a core's die, through the port (R286, R453). -/
def State.testWord (s : State) (p : Plot) (k : Crop) (l : Nat) : Except FaultCode Nat :=
  match s.port (dieOf p.core) p.ctx p.system 3 k.table rightR (8 * l) with
  | .error e => .error e
  | .ok h => if s.poisoned h.addr 8 then .error .poison else .ok (s.loadNat h.addr 8)

/-- An acquire of a line by a core: the recorded cores drain, the core invalidates (R229, R294). -/
def State.acquireLine (s : State) (core : Nat) (r : LineRef) : State :=
  let recs := s.relRecs.filter fun q => q.1 == r
  let t := recs.foldl (fun t q => t.drainCore q.2.1 q.2.2) s
  ({ t with relRecs := t.relRecs.filter fun q => !recs.contains q } : State).invalidate core

/-- An LDLAYER parks until its layer's residency word reaches a value (R453). -/
def State.parkLayer (s : State) (pid cv num : Nat) (retried : Bool) (k : LayerPark) : State :=
  s.modPlot pid fun p =>
    let x := p.cset cv
    p.setCset cv { x with insts := x.insts.map fun i => if i.num == num then { i with retried := retried, park := some k } else i }

/-- The weight capability of a layer (R453). -/
def State.weightCap (s : State) (ctx : Nat) (k : Crop) (i : Nat) : Cap :=
  let obj := ((k.layers[i]?).map (·.obj)).getD 0
  let n := match (s.ctx? ctx).bind fun c => s.entry? c obj with
    | some e => e.npages
    | none => 0
  Cap.make obj 0 (65536 * n) rightR 0 true

/-- Whether a core reaches the count words of its context's crops, whose home is die 0 (R14, R445, R460). -/
def State.countOpen (s : State) (core : Nat) : Bool :=
  s.wayOpen (dieOf core) 0

/-- One pass of LDLAYER's loop, from a residency word that its test or its Park has found (R453). -/
def layerPass (x : FmtLY) (p : Plot) (i : Inst) (k : Crop) (l w : Nat) (s : State) : UniEffect :=
  let bd := x.bd.toNat
  let gen := w / 4
  let t := s.acquireLine p.core ⟨p.ctx, k.table, l / 16, dieOf p.core + 1⟩
  let park (u : State) (retried : Bool) (thr : Nat) : UniEffect := .later (u.parkLayer p.pid x.cv.toNat i.num retried ⟨k.num, l, thr⟩)
  match w % 4 with
  | 3 =>
    if x.rt = 1 ∧ i.retried = false then park (t.askSwap p.ctx k l (gen + 1)) true (4 * (gen + 1) + 2)
    else .later (t.commandFault p.pid i.blame (i.faultRec .swapf k.table (8 * l) 1))
  | 2 =>
    let (g, ev, n) := t.countWord p.ctx k.count l
    if g = gen % 2 ^ 32 ∧ !ev then
      let q := t.refPlot p
      match addRef q.layers k.num l with
      | none =>
        .done (t.commandFault p.pid i.blame (i.faultRec .layx k.table (8 * l) 1)) (.b p.pid bd { p.breg bd with tag := false })
      | some refs =>
        let u := (t.setCount p.ctx k.count l g false (n + 1)).modPlot q.pid fun q => { q with layers := refs }
        .done u (.b p.pid bd (u.weightCap p.ctx k l))
    else park t i.retried (4 * (gen + 1))
  | 0 => park (t.askSwap p.ctx k l gen) i.retried (4 * gen + 2)
  | _ => park t i.retried (4 * gen + 2)

/-- The crop and layer of an LDLAYER: those of its Park, or those that its checks find (R451, R453). -/
def State.layerOf (s : State) (x : FmtLY) (p : Plot) (i : Inst) : Except CmdFault (Crop × Nat) :=
  match i.park.bind fun z => ((s.ctx? p.ctx).bind fun c => c.crops.find? fun k => k.num == z.crop).map fun k => (k, z.layer) with
  | some q => .ok q
  | none => s.layerCheck p x.a.toNat (p.breg x.bs.toNat)

/-- LDLAYER's execution: the checks, the test, and the passes of the loop of R453; a parked one waits for its word to rise. -/
def effLdlayer (x : FmtLY) (p : Plot) (i : Inst) (s : State) : UniEffect :=
  match s.layerOf x p i with
  | .error e =>
    let t := s.commandFault p.pid i.blame (i.faultRec e.code e.obj e.off e.acc)
    .done t (if e.code = .layx then .b p.pid x.bd.toNat { p.breg x.bd.toNat with tag := false } else .none)
  | .ok (k, l) =>
    match s.testWord p k l with
    | .error e => uniFault s p i (i.faultRec e k.table (8 * l) 1)
    | .ok w => if (i.park.any fun z => decide (w < z.thr)) || !s.countOpen p.core then .later s else layerPass x p i k l w s

/-- RELLAYER's execution (R454): a release at PKG scope, then the count and the reference go down. -/
def effRellayer (x : FmtLZ) (p : Plot) (i : Inst) (s : State) : UniEffect :=
  let bd := x.bd.toNat
  if !s.signersQuiet p i || !s.countOpen p.core then .hold
  else
    match s.layerCheck p x.a.toNat (p.breg x.bs.toNat) with
    | .error e => uniFault s p i (i.faultRec e.code e.obj e.off e.acc)
    | .ok (k, l) =>
      let q := s.refPlot p
      let b := p.breg bd
      let obj := ((k.layers[l]?).map (·.obj)).getD 0
      match dropRef q.layers k.num l with
      | none => uniFault s p i (i.faultRec .layx k.table (8 * l) 1)
      | some refs =>
        if !b.tag || b.obj != obj then uniFault s p i (i.faultRec .layx k.table (8 * l) 1)
        else
          let t := ((s.flushCore p.core).bumpEpoch p.core).lowerCount p.ctx k l 1
          .done (t.modPlot q.pid fun q => { q with layers := refs }) (.b p.pid bd { b with tag := false })

end Sys2Proof.Machine
end

