-- ==== Sys2Proof/Machine/UniformPipe.lean ====
section
/-! DEFINITION. The uniform pipe: the execution of complete instances, their results, and the uniform words of the opcode table, each of
which its members sign (R45 to R49, R366 to R370). -/

namespace Sys2Proof.Machine

/-! ### Engine commands at execution (R162, R167, R168, R300) -/

/-- An engine command's execution: its descriptor and b registers are read and it goes to its queue; the pipe holds the instance until its
signers' accesses have been performed (R49, R168). -/
def effEngine (w : Instr) (kd : Nat) (src dst : Option Nat) (p : Plot) (i : Inst) (s : State) : UniEffect :=
  if !s.signersQuiet p i then .hold
  else
    let cap (b : Option Nat) : Cap :=
      match b with
      | some n => p.breg n
      | none => .null
    let d : Cmd :=
      { pid := p.pid, order := s.nextOrder, code := w, pc := i.pc, desc := BitVec.ofNat 128 (p.kquad (4 * kd)), src := cap src,
        dst := cap dst, seed := p.kreg 31, first := i.blame, signers := (i.sigs.filter fun g => !g.neutral).map (·.fid) }
    .done { s.modCore p.core (fun k => { k with cmdWait := k.cmdWait ++ [d] }) with nextOrder := s.nextOrder + 1 } .none

/-- What an instance does when it executes, by its instruction. Words of other formats sign nothing. -/
def uniEffect (w : Instr) (i : Inst) (p : Plot) (s : State) : UniEffect :=
  match w with
  | .uadd x => effUadd x p s
  | .usub x => effUsub x p s
  | .umul x => effUmul x p s
  | .umad x => effUmad x p s
  | .uand x => effUand x p s
  | .uor x => effUor x p s
  | .uxor x => effUxor x p s
  | .ushl x => effUshl x p s
  | .ushr x => effUshr x p s
  | .umin x => effUmin x p s
  | .umax x => effUmax x p s
  | .umov x => effUmov x p s
  | .ucmp x => effUcmp x p s
  | .usel x => effUsel x p s
  | .ucnar x => effUcnar x p s
  | .uaddUi x => effUaddUi x p s
  | .uandUi x => effUandUi x p s
  | .uorUi x => effUorUi x p s
  | .ushlUi x => effUshlUi x p s
  | .ushrUi x => effUshrUi x p s
  | .umovi x => effUmovi x p s
  | .sbld x => effEngine w x.kd.toNat (some x.bs.toNat) none p i s
  | .mmrun x => effEngine w x.kd.toNat none none p i s
  | .mmout x => effEngine w x.kd.toNat none none p i s
  | .mtab x => effEngine w x.kd.toNat (some x.bs.toNat) none p i s
  | .mbias x => effEngine w x.kd.toNat (some x.bs.toNat) none p i s
  | .copyGs x => effEngine w x.kd.toNat (some x.bs.toNat) none p i s
  | .copySg x => effEngine w x.kd.toNat none (some x.bd.toNat) p i s
  | .copyGg x => effEngine w x.kd.toNat (some x.bs.toNat) (some x.bd.toNat) p i s
  | .tcopyGs x => effEngine w x.kd.toNat (some x.bs.toNat) none p i s
  | .tcopySg x => effEngine w x.kd.toNat none (some x.bd.toNat) p i s
  | .copypIn x => effEngine w x.kd.toNat (some x.bs.toNat) none p i s
  | .copypOut x => effEngine w x.kd.toNat none (some x.bd.toNat) p i s
  | .coll x => effEngine w x.kd.toNat none none p i s
  | .barinit x => effEngine w x.kd.toNat none none p i s
  | .sow x => effSow x p i s
  | .ldlayer x => effLdlayer x p i s
  | .rellayer x => effRellayer x p i s
  | .mint x => effMint x p i s
  | .seal x => effSeal x p i s
  | .objinv x => effObjinv x p s
  | .migr x => effMigr x p s
  | .biasD x => effBiasD x p s
  | .biasH x => effBiasH x p s
  | .unpubl x => effUnpubl x p i s
  | _ => .done s .none

/-! ### Execution (R46, R366) -/

/-- An open instance of a plot. -/
def Plot.inst? (p : Plot) (c num : Nat) : Option Inst :=
  (p.cset c).insts.find? fun i => i.num == num

/-- From an execution at the end of a ccy to the end of the ccy in which the result is written; the spec gives k[D] as written 2 ccy later (R366)
and as readable 2 ccy after execution (R371) (DEDUCED, log entry 42). -/
def uniLatency : Nat := 2

/-- Executes the complete instance of a set: its effect, its result on the way; the instance stays where its effect is not yet done. None where the
pipe holds it. -/
def State.runInst (s : State) (pid c num : Nat) : Option State :=
  match s.plot? pid with
  | none => some s
  | some p =>
    match p.inst? c num with
    | none => some s
    | some i =>
      match i.code with
      | none => some s
      | some w =>
        match uniEffect w i p s with
        | .hold => none
        | .later t => some t
        | .done t d =>
          let t := t.modPlot pid fun p =>
            let x := p.cset c
            p.setCset c { x with insts := x.insts.map fun j => if j.num == num then { j with executed := true } else j }
          let t := (t.passInst pid c).passNeutral pid c 4
          some (t.modCore p.core fun k => { k with results := k.results ++ [⟨pid, c, num, d, s.cycOf p.core + uniLatency⟩] })

/-- Whether an instance is its set's lowest that has not executed. -/
def State.lowest (s : State) (q : PipeInst) : Bool :=
  match s.plot? q.pid with
  | some p => (p.cset q.cset).low == q.num
  | none => false

/-- The place of a waiting instance in the pipe's order: when it became complete, its set, its plot's priority and placement (R366). -/
def State.pipeKey (s : State) (q : PipeInst) : Nat :=
  match s.plot? q.pid with
  | some p => ((q.since * 8 + q.cset) * 16 + (8 - p.prio)) * 2 ^ 64 + p.order
  | none => 0

/-- The waiting instance that the pipe executes next (R366). -/
def State.pipeNext (s : State) (core : Nat) : Option PipeInst :=
  minBy? ((s.core core).pipeWait.filter s.lowest) s.pipeKey

/-- Executes a waiting instance; one that the pipe holds keeps its place, and those behind it wait (R168, R366; log entry 49). -/
def State.runPipe (s : State) (core : Nat) (q : PipeInst) : State :=
  ((s.runInst q.pid q.cset q.num).map fun t => t.modCore core fun k => { k with pipeWait := k.pipeWait.filter fun r => r != q }).getD s

/-- The instances of a plot whose execution has begun and is not done: they wait for a layer, a publish or migrating pages (R248, R402, R408,
R453). A halted plot's LDLAYER waits for the resumption. -/
def State.stalledOf (s : State) (p : Plot) : List (Nat × Nat × Nat) :=
  let go (w : Instr) : Bool :=
    match p.halt with
    | none => true
    | some h =>
      h.phase == .stopping &&
        match w with
        | .ldlayer _ => false
        | _ => true
  (List.range 8).flatMap fun c =>
    ((p.cset c).insts.filter fun i =>
      i.complete && !i.executed && i.num == (p.cset c).low && !((s.core p.core).pipeWait.any fun q => q.pid == p.pid && q.cset == c && q.num == i.num) &&
        match i.code with
        | some w => go w
        | none => false).map fun i => (p.pid, c, i.num)

/-- The instances of a core whose execution has begun and is not done. -/
def State.stalled (s : State) (core : Nat) : List (Nat × Nat × Nat) :=
  (s.plots.filter fun p => p.core == core).flatMap s.stalledOf

/-- Whether the end of a ccy has work for the uniform pipe of a core. -/
def State.pipeDue (s : State) (core : Nat) : Bool :=
  (s.plots.any fun p => p.core == core && p.completes) || !(s.core core).pipeWait.isEmpty || !(s.stalled core).isEmpty

/-- UNIFORM_PIPE_EXECUTE: at the end of a ccy, what has become complete queues, the executions that have begun go on, and the pipe executes the
first instance of its order, if it does not hold it (R46, R366). -/
def execUniformPipeExecute (core : Nat) (s : State) : Result :=
  if !s.pipeDue core then .fault .noSubject
  else
    let t := ((s.plots.filter fun p => p.core == core).map (·.pid)).foldl State.completeInsts s
    let t := (s.stalled core).foldl (fun t q => (t.runInst q.1 q.2.1 q.2.2).getD t) t
    .next (match t.pipeNext core with
      | some q => t.runPipe core q
      | none => t)

/-- Readies the signers that wait in an LDLAYER for their instance (R453). -/
def State.wakeLayer (s : State) (pid c num : Nat) : State :=
  match s.plot? pid with
  | none => s
  | some p =>
    (p.fibres.filter fun f => f.run == .parked (.ldlayer c num)).foldl (fun t f => t.wakePast pid f.fid 4 (s.cycOf p.core + 1)) s

/-- UNIFORM_RESULT_WRITE: at the end of a ccy the oldest executed instance whose latency is over writes its destination and completes (R49). -/
def execUniformResultWrite (core : Nat) (s : State) : Result :=
  match (s.core core).results.find? fun r => decide (r.due ≤ s.cycOf core) with
  | none => .fault .noSubject
  | some r =>
    let t := (s.modCore core fun k => { k with results := k.results.erase r }).writeDest r.pid r.dest
    .next ((t.closeInst r.pid r.cset r.num).wakeLayer r.pid r.cset r.num)

/-- Issues a uniform word: its members sign (R45, R81). -/
def execUniform (w : UniWord) (i : Instr) (s : State) : Result :=
  issueUniform w i s

/-! ### SIGN (R359, R360) -/

/-- SIGN: a neutral signature of each member whose guard is true (R47, R360). -/
def execSign (x : FmtSG0) (s : State) : Result :=
  runLane { guard := x.g.toNat } s fun c s f => signMember { cv := x.cset.toNat } none c s f

/-! ### The uniform ALU (R366 to R368) -/

/-- A UR word that reads k[A] and k[B]. -/
def urWord (x : FmtUR) (more : List Nat) : UniWord :=
  { cv := x.cv.toNat, size := sizeOf x.p, ks := [x.a.toNat, x.b.toNat] ++ more }

/-- A UI word that reads k[D]. -/
def uiWord (x : FmtUI) : UniWord :=
  { cv := x.cv.toNat, size := sizeOf x.p, ks := [x.d.toNat] }

/-- UADD (R367). -/
def execUadd (x : FmtUR) (s : State) : Result := execUniform (urWord x []) (.uadd x) s
/-- USUB (R367). -/
def execUsub (x : FmtUR) (s : State) : Result := execUniform (urWord x []) (.usub x) s
/-- UMUL (R367). -/
def execUmul (x : FmtUR) (s : State) : Result := execUniform (urWord x []) (.umul x) s
/-- UMAD (R367). -/
def execUmad (x : FmtUR) (s : State) : Result := execUniform (urWord x [umadC x]) (.umad x) s
/-- UAND (R367). -/
def execUand (x : FmtUR) (s : State) : Result := execUniform (urWord x []) (.uand x) s
/-- UOR (R367). -/
def execUor (x : FmtUR) (s : State) : Result := execUniform (urWord x []) (.uor x) s
/-- UXOR (R367). -/
def execUxor (x : FmtUR) (s : State) : Result := execUniform (urWord x []) (.uxor x) s
/-- USHL (R367). -/
def execUshl (x : FmtUR) (s : State) : Result := execUniform (urWord x []) (.ushl x) s
/-- USHR (R367). -/
def execUshr (x : FmtUR) (s : State) : Result := execUniform (urWord x []) (.ushr x) s
/-- UMIN (R367). -/
def execUmin (x : FmtUM) (s : State) : Result :=
  execUniform { cv := x.cv.toNat, size := sizeOf x.p, ks := [x.a.toNat, x.b.toNat] } (.umin x) s
/-- UMAX (R367). -/
def execUmax (x : FmtUM) (s : State) : Result :=
  execUniform { cv := x.cv.toNat, size := sizeOf x.p, ks := [x.a.toNat, x.b.toNat] } (.umax x) s
/-- UMOV (R367). -/
def execUmov (x : FmtU2) (s : State) : Result :=
  execUniform { cv := x.cv.toNat, size := sizeOf x.p, ks := [x.a.toNat] } (.umov x) s
/-- UCMP (R367). -/
def execUcmp (x : FmtUF) (s : State) : Result :=
  execUniform { cv := x.cv.toNat, size := sizeOf x.p, ks := [x.a.toNat, x.b.toNat] } (.ucmp x) s
/-- USEL (R367). -/
def execUsel (x : FmtUR) (s : State) : Result := execUniform (urWord x [x.d.toNat]) (.usel x) s
/-- UCNAR (R368). -/
def execUcnar (x : FmtUN) (s : State) : Result :=
  execUniform { cv := x.cv.toNat, size := sizeOf x.p, ks := codesFrom x.b.toNat 4, bs := [x.ba.toNat] } (.ucnar x) s
/-- UADD with an immediate (R367). -/
def execUaddUi (x : FmtUI) (s : State) : Result := execUniform (uiWord x) (.uaddUi x) s
/-- UAND with an immediate (R367). -/
def execUandUi (x : FmtUI) (s : State) : Result := execUniform (uiWord x) (.uandUi x) s
/-- UOR with an immediate (R367). -/
def execUorUi (x : FmtUI) (s : State) : Result := execUniform (uiWord x) (.uorUi x) s
/-- USHL with an immediate (R367). -/
def execUshlUi (x : FmtUI) (s : State) : Result := execUniform (uiWord x) (.ushlUi x) s
/-- USHR with an immediate (R367). -/
def execUshrUi (x : FmtUI) (s : State) : Result := execUniform (uiWord x) (.ushrUi x) s
/-- UMOVI (R367). -/
def execUmovi (x : FmtUI) (s : State) : Result :=
  execUniform { cv := x.cv.toNat, size := sizeOf x.p } (.umovi x) s

/-! ### Engine commands (R165, R301) -/

/-- An engine command's word: it reads its descriptor's four k registers and its b registers, and each signer takes a count (R163,
R300). -/
def engineWord (cv : BitVec 3) (kd : BitVec 4) (bs : List Nat) (cls : OpClass) (commits : Bool) : UniWord :=
  { cv := cv.toNat, ks := codesFrom (4 * kd.toNat) 4, bs := bs, cls := some cls, commits := commits }

/-- SBLD (R179). -/
def execSbld (x : FmtEL) (s : State) : Result :=
  execUniform (engineWord x.cv x.kd (if x.glob = 1 then [x.bs.toNat] else []) .engine (x.glob == 1)) (.sbld x) s
/-- MMRUN (R181). -/
def execMmrun (x : FmtER) (s : State) : Result := execUniform (engineWord x.cv x.kd [] .engine false) (.mmrun x) s
/-- MMOUT (R185). -/
def execMmout (x : FmtEO) (s : State) : Result := execUniform (engineWord x.cv x.kd [] .engine false) (.mmout x) s
/-- MTAB (R183). -/
def execMtab (x : FmtEL) (s : State) : Result :=
  execUniform (engineWord x.cv x.kd (if x.glob = 1 then [x.bs.toNat] else []) .engine (x.glob == 1)) (.mtab x) s
/-- MBIAS (R183). -/
def execMbias (x : FmtEL) (s : State) : Result :=
  execUniform (engineWord x.cv x.kd (if x.glob = 1 then [x.bs.toNat] else []) .engine (x.glob == 1)) (.mbias x) s
/-- COPY.GS (R303). -/
def execCopyGs (x : FmtXS) (s : State) : Result := execUniform (engineWord x.cv x.kd [x.bs.toNat] .copies true) (.copyGs x) s
/-- COPY.SG (R303). -/
def execCopySg (x : FmtXD) (s : State) : Result := execUniform (engineWord x.cv x.kd [x.bd.toNat] .copies true) (.copySg x) s
/-- COPY.GG (R303). -/
def execCopyGg (x : FmtXB) (s : State) : Result :=
  execUniform (engineWord x.cv x.kd [x.bs.toNat, x.bd.toNat] .copies true) (.copyGg x) s
/-- TCOPY.GS (R312). -/
def execTcopyGs (x : FmtXS) (s : State) : Result := execUniform (engineWord x.cv x.kd [x.bs.toNat] .copies true) (.tcopyGs x) s
/-- TCOPY.SG (R312). -/
def execTcopySg (x : FmtXD) (s : State) : Result := execUniform (engineWord x.cv x.kd [x.bd.toNat] .copies true) (.tcopySg x) s
/-- COPYP.IN (R305). -/
def execCopypIn (x : FmtXS) (s : State) : Result := execUniform (engineWord x.cv x.kd [x.bs.toNat] .copies true) (.copypIn x) s
/-- COPYP.OUT (R305). -/
def execCopypOut (x : FmtXD) (s : State) : Result := execUniform (engineWord x.cv x.kd [x.bd.toNat] .copies true) (.copypOut x) s
/-- COLL (R313). -/
def execColl (x : FmtXN) (s : State) : Result := execUniform (engineWord x.cv x.kd [] .copies true) (.coll x) s
/-- BARINIT (R309). -/
def execBarinit (x : FmtXI) (s : State) : Result := execUniform (engineWord x.cv x.kd [] .copies true) (.barinit x) s

/-! ### SOW, layers, objects -/

/-- SOW (R369). -/
def execSow (x : FmtXW) (s : State) : Result :=
  execUniform { cv := x.cv.toNat, ks := codesFrom (4 * x.kd.toNat) 3, bs := [x.bs.toNat], commits := true } (.sow x) s
/-- LDLAYER (R453). -/
def execLdlayer (x : FmtLY) (s : State) : Result :=
  execUniform { cv := x.cv.toNat, ks := [x.a.toNat], bs := [x.bs.toNat], parks := true } (.ldlayer x) s
/-- RELLAYER (R454). -/
def execRellayer (x : FmtLZ) (s : State) : Result :=
  execUniform { cv := x.cv.toNat, ks := [x.a.toNat], bs := [x.bs.toNat, x.bd.toNat] } (.rellayer x) s
/-- MINT (R406). -/
def execMint (x : FmtMI) (s : State) : Result :=
  execUniform { cv := x.cv.toNat, ks := codesFrom (4 * x.ka.toNat) 4, privileged := true } (.mint x) s
/-- SEAL (R407). -/
def execSeal (x : FmtSL) (s : State) : Result :=
  execUniform { cv := x.cv.toNat, bs := [x.bs.toNat], privileged := true } (.seal x) s
/-- OBJINV (R407). -/
def execObjinv (x : FmtOB) (s : State) : Result :=
  execUniform { cv := x.cv.toNat, ks := [x.a.toNat], privileged := true } (.objinv x) s
/-- MIGR (R408). -/
def execMigr (x : FmtOQ) (s : State) : Result :=
  execUniform { cv := x.cv.toNat, ks := codesFrom (4 * x.ka.toNat) 4, privileged := true } (.migr x) s
/-- BIAS.D (R409). -/
def execBiasD (x : FmtOE) (s : State) : Result :=
  execUniform { cv := x.cv.toNat, ks := codesFrom (2 * x.kp.toNat) 2, privileged := true } (.biasD x) s
/-- BIAS.H (R409). -/
def execBiasH (x : FmtOE) (s : State) : Result :=
  execUniform { cv := x.cv.toNat, ks := codesFrom (2 * x.kp.toNat) 2, privileged := true } (.biasH x) s
/-- UNPUBL (R410). -/
def execUnpubl (x : FmtOQ) (s : State) : Result :=
  execUniform { cv := x.cv.toNat, ks := codesFrom (4 * x.ka.toNat) 4, privileged := true } (.unpubl x) s

end Sys2Proof.Machine
end

