-- ==== Sys2Proof/Machine/Retire.lean ====
section
/-! DEFINITION. What a plot leaves behind: its operations on the way, the freeing of its resources, retirement of plots and fields, aborts,
discards (R55, R329, R424, R429, R434). -/

namespace Sys2Proof.Machine

/-! ### What a plot still has on the way (R55, R417) -/

/-- Whether an access of a plot has not been answered or acknowledged. -/
def State.accessesOpen (s : State) (p : Plot) : Bool :=
  !p.pendLoads.isEmpty || !p.pendStores.isEmpty || (s.homeQ ++ s.retries.map (·.1)).any (fun g => g.parts.any fun q => q.pid == p.pid) ||
    s.hostAtomics.any (fun a => a.reqs.any fun q => q.pid == p.pid) || s.logWrites.any (fun w => w.pid == p.pid) || s.publishes.any fun q => q.pid == p.pid

/-- Whether a command of a plot has started and not completed. -/
def Core.runsCmd (k : Core) (pid : Nat) : Bool :=
  (k.mat.load.toList ++ k.mat.compute.toList ++ k.wainRun.map (·.cmd)).any fun d => d.pid == pid

/-- Whether a command of a plot waits to start. -/
def Core.queuesCmd (k : Core) (pid : Nat) : Bool :=
  (k.cmdWait ++ k.mat.queue ++ k.wainQueue).any fun d => d.pid == pid

/-- Whether a plot can retire, its core's lines finding their ways home (R55, R460). -/
def State.retireDue (s : State) (p : Plot) : Bool :=
  let k := s.core p.core
  p.fibres.isEmpty && p.exited.isEmpty && p.halt.isNone && !s.accessesOpen p && s.backOpen p.core (fun _ => true) &&
    (p.layers.isEmpty || s.wayOpen (dieOf p.core) 0) && !k.runsCmd p.pid && !k.queuesCmd p.pid &&
    !(p.c.any fun c => !c.insts.isEmpty) && !(k.results.any fun r => r.pid == p.pid)

/-! ### Freeing a plot -/

/-- A core without a plot: its slots, bins, marks, instances, commands and tentative lines go, and its hold on the matrix engine. -/
def Core.forget (k : Core) (pid : Nat) : Core :=
  let other (d : Cmd) : Bool := d.pid != pid
  let q := k.mat.queue.filter other
  { k with
    furrows := k.furrows.filter fun f => f.pid != pid
    bins := k.bins.filter fun b => b.pid != pid
    spawning := k.spawning.filter fun e => e.pid != pid
    marks := k.marks.filter fun m => m.pid != pid
    pipeWait := k.pipeWait.filter fun r => r.pid != pid
    results := k.results.filter fun r => r.pid != pid
    cmdWait := k.cmdWait.filter other
    wainQueue := k.wainQueue.filter other
    restoring := k.restoring.filter fun r => r.1 != pid
    handlerQueue := k.handlerQueue.filter (· != pid)
    lines := k.lines.filter fun l => l.tent != some pid
    mat := if k.mat.holder = some pid then { k.mat with holder := none, st := .claimed, queue := q } else { k.mat with queue := q } }

/-- Removes a plot from its core and from the machine, with the saved image of one that was placed and not yet loaded. -/
def State.forgetPlot (s : State) (p : Plot) : State :=
  let t := s.modCore p.core fun k => k.forget p.pid
  { t with
    plots := t.plots.filter fun q => q.pid != p.pid
    resumes := t.resumes.filter fun r => r.pid != p.pid
    publishes := t.publishes.filter fun q => !(q.pid == p.pid && q.unpubl.isSome)
    ctxs := t.ctxs.map fun c => { c with saved := c.saved.filter fun v => v.plot.pid != p.pid } }

/-! ### Fields (R55, R329) -/

/-- A field of a context. -/
def State.field? (s : State) (ctx fld : Nat) : Option Field :=
  s.fields.find? fun f => f.ctx == ctx && f.fld == fld

/-- Changes a field. -/
def State.modField (s : State) (ctx fld : Nat) (f : Field → Field) : State :=
  { s with fields := s.fields.map fun g => if g.ctx == ctx && g.fld == fld then f g else g }

/-- The reeve's LJOIN.REL of a value into a cell, on die 0 (R328, R329). A join that the port refuses or that meets poison is not
performed. -/
def State.reeveJoin (s : State) (ctx : Nat) (c : Cap) (off ty val : Nat) : State :=
  match c.check off (latSize ty) rightJ (latSize ty) [2, 3] with
  | .error _ => s
  | .ok (o, y) =>
    match s.port 0 ctx true c.kind o rightJ y with
    | .error _ => s
    | .ok h =>
      if h.entry.latType ≠ ty ∨ s.poisoned h.addr (latSize ty) then s
      else
        let t := s.storeNat h.addr (latSize ty) (latApply ty 0 (s.loadNat h.addr (latSize ty)) val)
        t.markChanged 0 h.entry ⟨ctx, o, y / 128, 1⟩ true

/-- Whether a field has no plot and no child left (R55). -/
def State.fieldDone (s : State) (f : Field) : Bool :=
  decide (f.record.plots ≤ f.nextPlot) && f.unplaced.isEmpty && f.live == 0 && !(s.fields.any fun g => g.parent == some (f.ctx, f.fld))

/-- Retires a field that is done: its completion join, unless it is aborted; then its parent, if that is done (R55, R329). Fields nest
at most 11 deep. -/
def State.retireField (s : State) (ctx fld fuel : Nat) : State :=
  match fuel with
  | 0 => s
  | n + 1 =>
    match s.field? ctx fld with
    | none => s
    | some f =>
      if !s.fieldDone f then s
      else
        let r := f.record
        let t := if f.aborted || r.cty == 0 then s else s.reeveJoin ctx r.cmpc r.coff r.cty r.cval
        let t := { t with fields := t.fields.filter fun g => !(g.ctx == ctx && g.fld == fld) }
        let t := t.report (.completed ctx fld)
        match f.parent with
        | some q => t.retireField q.1 q.2 n
        | none => t

/-- Counts a plot of a field as retired; one that is aborted counts so, and marks its field (R424, R432). -/
def State.plotGone (s : State) (p : Plot) (aborted : Bool) : State :=
  (s.modField p.ctx p.fld fun f =>
    { f with
      live := f.live - 1
      retired := f.retired + 1
      stepSum := f.stepSum + p.step.toNat
      aborted := f.aborted || aborted }).retireField p.ctx p.fld 12

/-! ### Retirement (R55, R329, R420, R433, R452) -/

/-- A plot retires: its region commits, its core's dirty lines are written back as FENCE.SYS writes them, its references are dropped, its
resources freed. A handler's plot belongs to no field. -/
def State.retirePlot (s : State) (p : Plot) : State :=
  if p.handler.isSome then s.forgetPlot p
  else
    let t := ((s.commit p.pid).flushCore p.core).bumpEpoch p.core
    let t := (t.dropLayers p).forgetPlot p
    let t := match p.drainBy with
      | some _ => t.report (.preempted p.ctx p.fld p.plot 2)
      | none => t
    t.plotGone p false

/-- PLOT_RETIREMENT (R55). -/
def execPlotRetirement (pid : Nat) (s : State) : Result :=
  match s.plot? pid with
  | none => .fault .noSubject
  | some p => if s.retireDue p then .next (s.retirePlot p) else .fault .noSubject

/-! ### Discards and aborts (R424, R429, R434) -/

/-- Discards a plot whose stop is complete, with all it holds; its accesses have finished. -/
def State.discardPlot (s : State) (p : Plot) : State :=
  (s.dropLayers p).forgetPlot p

/-- Discards a plot and makes it a candidate again with the same number (R429, R434). -/
def State.requeuePlot (s : State) (p : Plot) : State :=
  (s.discardPlot p).modField p.ctx p.fld fun f =>
    { f with live := f.live - 1, unplaced := f.unplaced ++ [(p.plot, p.disc + 1)] }

/-- The outcome that the reeve reports of a request where the plot ends before the request acts on it: the report counts the plot's way (R437; log
entry 50). -/
def State.forestall (s : State) (p : Plot) (code : Nat) : State :=
  match p.intent with
  | some .abort => s
  | some _ => s.report (.preempted p.ctx p.fld p.plot code)
  | none => if p.drainBy.isSome then s.report (.preempted p.ctx p.fld p.plot (if code = 0 then 2 else code)) else s

/-- Aborts a plot: it counts as retired, and its field makes no completion join (R424). -/
def State.abortPlot (s : State) (p : Plot) : State :=
  ((s.forestall p 0).discardPlot p).plotGone p true

/-- Whether a field is another or lies below it. -/
def State.below (s : State) (root : Nat × Nat) (f : Field) (fuel : Nat) : Bool :=
  match fuel with
  | 0 => false
  | n + 1 =>
    if (f.ctx, f.fld) = root then true
    else
      match f.parent with
      | none => false
      | some q =>
        match s.field? q.1 q.2 with
        | some g => s.below root g n
        | none => false

/-- A saved plot is dropped for good, with its references. -/
def State.dropSaved (s : State) (v : SavedPlot) : State :=
  let q := v.plot
  let t : State := { s with ctxs := s.ctxs.map fun c =>
    if c.num == q.ctx then { c with saved := c.saved.filter fun w => w.plot.pid != q.pid } else c }
  let t := q.layers.foldl (fun t r =>
    match (t.ctx? q.ctx).bind fun c => c.crops.find? fun k => k.num == r.crop with
    | some k => t.lowerCount q.ctx k r.layer r.mult
    | none => t) t
  t.plotGone q true

/-- A field that is aborted: no plot of it is placed any more. -/
def Field.end_ (f : Field) : Field :=
  { f with aborted := true, unplaced := [], nextPlot := f.record.plots, eligible := some (f.eligible.getD 0) }

/-- Aborts a field with its children: no plot of them is placed any more, saved plots are dropped, stopped plots are discarded, the others
stop with cause 0 and are discarded when their stop is complete (R424). -/
def State.abortField (s : State) (ctx fld : Nat) : State :=
  let all : List (Nat × Nat) := (s.fields.filter fun f => s.below (ctx, fld) f 12).map fun f => (f.ctx, f.fld)
  let mine (p : Plot) : Bool := all.contains (p.ctx, p.fld) && p.handler.isNone
  let t : State := { s with fields := s.fields.map fun f => if all.contains (f.ctx, f.fld) then f.end_ else f }
  let t := ((t.ctxs.flatMap (·.saved)).filter fun v => mine v.plot && v.placed.isNone).foldl (fun t v => t.dropSaved v) t
  let t := (t.plots.filter mine).foldl (fun t p =>
    match p.halt with
    | some h =>
      if h.phase = .stopping ∨ h.phase = .withHandler then (t.forestall p 0).modPlot p.pid fun q => { q with intent := some .abort, drainBy := none }
      else t.abortPlot p
    | none => ((t.forestall p 0).modPlot p.pid fun q => { q with intent := some .abort, drainBy := none }).stopPlot p.pid false) t
  all.foldl (fun t q => t.retireField q.1 q.2 12) t

end Sys2Proof.Machine
end

