-- ==== Sys2Proof/Machine/Ways.lean ====
section
/-! DEFINITION. How a plot gives way to a pre-emption: progress, its estimate, the choice of R431 (R430 to R436). -/

namespace Sys2Proof.Machine

/-- The progress estimate of a plot and its progress; no estimate where EST is 0 and no plot of the field has retired (R432). -/
def State.progressOf (s : State) (p : Plot) : Option Nat × Nat :=
  if p.est ≠ 0 then (some p.est, p.rcnt)
  else
    match s.field? p.ctx p.fld with
    | some f => (if f.retired = 0 then none else some (f.stepSum / f.retired), p.step.toNat)
    | none => (none, p.step.toNat)

/-- The progress units made in the 4,096 ccy before this one (R432). -/
def State.unitsOf (s : State) (p : Plot) : Nat :=
  ((p.progress.filter fun q => decide (q.1 < s.cycOf p.core ∧ s.cycOf p.core ≤ q.1 + 4096)).map (·.2)).sum

/-- Whether a plot has barely started: p < E/4 (R431 row 3, R432). -/
def State.barelyStarted (s : State) (p : Plot) : Bool :=
  match s.progressOf p with
  | (some e, n) => decide (4 * n < e)
  | (none, n) => n == 0

/-- Whether the remainder of a plot fits in a budget of reference ccy: T ≤ LB, T counted at the core's clock (R431 row 4, R432). -/
def State.finishesWithin (s : State) (p : Plot) (budget : Nat) : Bool :=
  match s.progressOf p with
  | (some e, n) =>
    let u := s.unitsOf p
    decide (n < e ∧ u ≠ 0 ∧ (e - n) * 4096 * 1600 ≤ budget * u * (s.core p.core).clock)
  | (none, _) => false

/-- Sets what a pre-emption has chosen for a plot. -/
def State.intend (s : State) (pid : Nat) (i : Intent) : State :=
  s.modPlot pid fun p => { p with intent := some i }

/-- Stops a plot with cause 0 for a choice (R434, R435). -/
def State.stopFor (s : State) (pid : Nat) (i : Intent) : State :=
  (s.intend pid i).stopPlot pid false

/-- Whether a plot is placed and its image not yet loaded (R441). -/
def State.unloaded (s : State) (p : Plot) : Bool :=
  match s.ctx? p.ctx with
  | some c => c.saved.any fun v => v.plot.pid == p.pid
  | none => false

/-- The code of a save: 4 for a plot whose drain has run out of its budget (R433, R437). -/
def State.saveCode (s : State) (p : Plot) : Nat :=
  if p.drainBy.any fun t => decide (t ≤ s.cycOf p.core) then 4 else 3

/-- A request takes effect on a plot, its budget ending at a cycle of the die's counter; it waits for the end of a handler, and of a restore
(R430, R431, R436). -/
def State.preemptPlot (s : State) (pid until_ : Nat) : State :=
  match s.plot? pid with
  | none => s
  | some p =>
    if p.handler.isSome then s
    else if p.fibres.isEmpty && p.halt.isNone then s.report (.preempted p.ctx p.fld p.plot 0)
    else
      match p.halt, p.intent with
      | some h, none => s.intend pid (if h.phase = .withHandler ∨ s.unloaded p then .waiting until_ else .save (s.saveCode p))
      | some _, some (.waiting t) => s.intend pid (.waiting (min t until_))
      | some _, some _ => s
      | none, _ =>
        if p.replant && p.uncommitted && s.barelyStarted p then
          s.stopFor pid (if 16 ≤ p.disc then .save 3 else .flush)
        else
          let due := match p.drainBy with
            | some t => min t until_
            | none => until_
          if s.finishesWithin p (due - s.cycOf p.core) then s.modPlot pid fun q => { q with drainBy := some due }
          else s.stopFor pid (.save (s.saveCode p))

/-- The plots that a request names (R430). -/
def State.plotsOf (s : State) (r : PreemptSet) : List Plot :=
  s.plots.filter fun p => p.handler.isNone &&
    match r with
    | .plot pid => p.pid == pid
    | .field ctx fld =>
      match s.field? p.ctx p.fld with
      | some f => p.ctx == ctx && s.below (ctx, fld) f 12
      | none => false
    | .context ctx => p.ctx == ctx
    | .core core => p.core == core

/-- A request with a budget in microseconds takes effect on every plot it names (R430). -/
def State.preempt (s : State) (r : PreemptSet) (lb : Nat) : State :=
  (s.plotsOf r).foldl (fun t p => t.preemptPlot p.pid (t.cycOf p.core + 1600 * lb)) s

/-- The largest latency budget, in microseconds (R430). -/
def maxBudget : Nat := 1000000

/-- PREEMPTION_REQUEST (R430, R431). -/
def execPreemptionRequest (req : PreemptSet) (lb : Nat) (s : State) : Result :=
  if maxBudget < lb then .fault .noSubject else .next (s.preempt req lb)

/-- Whether a drained plot's budget has run out: it has not retired, be it for its commands alone; nothing times out on a die that a debugger
halts (R433, R465). -/
def State.drainDue (s : State) (p : Plot) : Bool :=
  match p.drainBy with
  | some t => decide (t ≤ s.cycOf p.core) && p.intent.isNone && !(s.die (dieOf p.core)).halted
  | none => false

/-- DRAIN_BUDGET_EXPIRY: the plot is saved (R433); one that has halted is saved with its halt (R436). -/
def execDrainBudgetExpiry (pid : Nat) (s : State) : Result :=
  match s.plot? pid with
  | none => .fault .noSubject
  | some p =>
    if s.drainDue p then
      .next (if p.halt.isSome then (match p.halt with
        | some h => s.intend pid (if h.phase = .withHandler then .waiting (s.cycOf p.core) else .save 4)
        | none => s) else s.stopFor pid (.save 4))
    else .fault .noSubject

end Sys2Proof.Machine
end

