-- ==== Sys2Proof/Machine/Faults.lean ====
section
/-! DEFINITION. Halts: their completion, the halt frame, the handler fibre, escalation, the return from a halt by ERET, EXIT (R356, R414 to
R429, R435, R456, R473). -/

namespace Sys2Proof.Machine

/-! ### The halt frame (R418, R419) -/

/-- Bytes of a halt frame (R418). -/
def frameSize : Nat := 33024

/-- Where the reeve keeps its copy of the frame of an escalated plot (R426). -/
def copyAddr (pid : Nat) : Nat :=
  2 ^ 60 + pid * 2 ^ 16

/-- The STATE code of a fibre (R419). -/
def Fibre.stateCode (f : Fibre) : Nat :=
  match f.run with
  | .parked _ => 1
  | .held _ => 2
  | .binned => 3
  | _ => 0

/-- A fibre's next PC. One that waits in an LDLAYER has signed it, so the next PC is that of the instruction after (R419, R476). -/
def Fibre.nextPc (f : Fibre) : Pc :=
  match f.run with
  | .parked (.ldlayer _ _) => (f.advance f.pc (f.pc + 4)).pc
  | _ => f.pc

/-- The skid of a fibre: the instructions that it has issued after the fault cycle, none where its own fault is precise (R415; log entry 12). -/
def Halt.skidOf (h : Halt) (fid : Nat) : Nat :=
  if (assoc h.recs fid).any (·.rpc.isSome) then 0 else min 4 (h.skids.filter (· == fid)).length

/-- The 256 bits of a live fibre's record (R419). -/
def recordBits (f : Fibre) (skid : Nat) (r : Option FaultRec) : Nat :=
  let base := f.stateCode * 2 ^ 42 + 2 ^ 41 + skid * 2 ^ 66
  match r with
  | none => base + f.nextPc.toNat * 2 ^ 216 + f.nextPc.toNat * 2 ^ 176
  | some r =>
    base + (r.rpc.getD f.nextPc).toNat * 2 ^ 216 + r.pc.toNat * 2 ^ 176 + r.obj % 2 ^ 24 * 2 ^ 152 + r.off % 2 ^ 40 * 2 ^ 112 +
      r.code.num * 2 ^ 61 + r.num * 2 ^ 54 + r.sc.toNat * 2 ^ 53 + r.unit * 2 ^ 50 + r.more * 2 ^ 44 + r.acc * 2 ^ 38

/-- The 256 bytes of the header (R418). -/
def headerBits (p : Plot) (h : Halt) : Nat :=
  let live := h.recs.filter fun q => (p.fibre? q.1).isSome
  h.fcyc + p.plot * 2 ^ 64 + p.fld * 2 ^ 88 + p.ctx * 2 ^ 104 + h.first % 1024 * 2 ^ 110 + h.cause * 2 ^ 120 + p.fibres.length * 2 ^ 125 +
    p.flg.toNat * 2 ^ 136 + p.step.toNat * 2 ^ 168 + (if 1 < live.length then 2 ^ 200 else 0) +
    (if p.uncommitted then 2 ^ 201 else 0)

/-- Makes bytes zero, with no tag and no poison. -/
def State.clearBytes (s : State) (a n : Nat) : State :=
  { s with
    mem := s.mem.filter fun c => decide (c.1 < a ∨ a + n ≤ c.1)
    tags := s.tags.filter fun g => decide (16 * g < a ∨ a + n ≤ 16 * g)
    poison := s.poison.filter fun g => decide (16 * g < a ∨ a + n ≤ 16 * g) }

/-- Writes a plot's frame at an address: the header, and a record for each live fibre (R418). -/
def State.writeFrame (s : State) (base : Nat) (p : Plot) (h : Halt) : State :=
  let t := (s.clearBytes base frameSize).store base (leBytes 32 (headerBits p h))
  p.fibres.foldl (fun t f => t.store (base + 256 + 32 * f.fid) (leBytes 32 (recordBits f (h.skidOf f.fid) (assoc h.recs f.fid)))) t

/-- Copies a frame (R426, R435). -/
def State.copyFrame (s : State) (src dst : Nat) : State :=
  let cells := s.mem.filter fun c => decide (src ≤ c.1 ∧ c.1 < src + frameSize)
  let t := s.clearBytes dst frameSize
  { t with mem := cells.foldl (fun m c => Memory.write m (dst + (c.1 - src)) c.2) t.mem }

/-! ### The handler's end and escalation (R422, R426) -/

/-- The handler slot of a core is free (R421, R422). -/
def State.freeHandler (s : State) (core : Nat) : State :=
  s.modCore core fun k => { k with frameOf := none, handlerAt := none, handlerStarted := false }

/-- Sets the phase of a plot's halt. -/
def State.setPhase (s : State) (pid : Nat) (ph : HaltPhase) : State :=
  s.modPlot pid fun p => { p with halt := p.halt.map fun h => { h with phase := ph } }

/-- Escalates a plot whose halt is complete: the reeve's copy of its frame, the report to the host; a handler slot that served it is free
(R426). -/
def State.escalate (s : State) (pid : Nat) : State :=
  match s.plot? pid with
  | none => s
  | some p =>
    match p.halt with
    | none => s
    | some h =>
      let t := if h.phase = .withHandler then (s.copyFrame (frameAddr p.core) (copyAddr pid)).freeHandler p.core
        else s.writeFrame (copyAddr pid) p h
      let t := t.modCore p.core fun k => { k with handlerQueue := k.handlerQueue.filter (· != pid) }
      (t.setPhase pid .escalated).report (.escalated p.ctx p.fld p.plot (h.first % 1024) h.cause)

/-- After a handler's end a request or an abort that waited for it acts on the plot (R424, R436). -/
def State.afterHandler (s : State) (pid : Nat) : State :=
  match s.plot? pid with
  | none => s
  | some p =>
    match p.intent with
    | some (.waiting t) =>
      (s.modPlot pid fun q => { q with intent := none }).preemptPlot pid t
    | some .abort => s.abortPlot p
    | some i => if p.halt.isNone then s.stopFor pid i else s
    | none => s

/-! ### Resumption (R424) -/

/-- A fibre of STATE 0 at its resumption: PC := RPC, and RV where WRV asks for it (R424); bits [1:0] of a PC are zero (R28). -/
def State.fixFibre (s : State) (base window : Nat) (f : Fibre) : Fibre :=
  let r := s.loadNat (base + 256 + 32 * f.fid) 32
  let f := { f with pc := BitVec.ofNat 40 (field r 218 38 * 4) }
  if bit r 72 && decide (field r 73 7 < window) then f.setV (field r 73 7) (BitVec.ofNat 32 (field r 80 32)) else f

/-- A parked fibre whose WAITA is tested afresh (R82). -/
def Fibre.freshWatch (f : Fibre) : Fibre :=
  match f.run with
  | .parked (.waita w) => { f with run := .parked (.waita { w with seen := none }) }
  | _ => f

/-- Every parked fibre's wait is tested again (R82, R424, R441); WAITA and LDLAT have their own retests. -/
def State.retestParks (s : State) (pid : Nat) : State :=
  let t := s.modPlot pid fun p => { p with fibres := p.fibres.map Fibre.freshWatch }
  let t := (t.wakeResults pid).wakeWaits pid
  let t := (List.range 8).foldl (fun t c => t.wakeLimit pid c) t
  let t := [OpClass.loads, .stores, .copies, .engine].foldl (fun t k => t.wakeCounter pid k) t
  let t := t.wakeBarinit pid
  let t := (List.range 8).foldl (fun t c => if ((t.plot? pid).any fun p => (p.cset c).closed) then t.wakeClosed pid c else t) t
  match t.plot? pid with
  | none => t
  | some p => p.fibres.foldl (fun t f =>
      match f.run with
      | .parked (.barw l ph size) =>
        match t.barAddr p l with
        | some a => if (t.barrier a).ph ≠ ph then t.wakePast pid f.fid size (t.cycOf p.core + 1) else t
        | none => t
      | _ => t) t

/-- Instances that wait in a Park execute again from their start (R453). -/
def CSet.restart (x : CSet) : CSet :=
  { x with insts := x.insts.map fun i => { i with retried := false, park := none } }

/-- A join slot whose timer, and the JOINs that were still issuing, stood still for some ccy. -/
def JSlot.later (x : JSlot) (n : Nat) : JSlot :=
  { x with start := x.start.map (· + n), arrived := x.arrived.map fun q => (q.1, q.2 + n) }

/-- A plot resumes, by its frame at an address where it has one (R424): the fibres of STATE 0 are ready 8 ccy later, a bound region is
restored only if no member's PC was changed, frozen timers run on, waits are tested again. -/
def State.resumePlot (s : State) (pid : Nat) (frame : Option Nat) : State :=
  match s.plot? pid with
  | none => s
  | some p =>
    match p.halt with
    | none => s
    | some h =>
      let now := s.cycOf p.core
      let fix (f : Fibre) : Fibre :=
        match frame with
        | some base => if f.stateCode = 0 then s.fixFibre base p.window f else f
        | none => f
      let fibres := p.fibres.map fix
      let same (fid : Nat) : Bool := (fibres.find? fun f => f.fid == fid).all fun f => f.stateCode != 0 || assoc h.pcs fid == some f.pc
      let keeps (fu : Furrow) : Bool := fu.pid == pid && fu.bound && fu.lanes.all fun l => same l.2
      let kept := (s.core p.core).furrows.filter keeps
      let inKept (fid : Nat) : Bool := kept.any fun fu => fu.lanes.any fun l => l.2 == fid
      let go (f : Fibre) : Fibre :=
        if f.stateCode ≠ 0 then f
        else if inKept f.fid then { f with run := .inFurrow, readyAt := now + 8, flight := false }
        else { f with run := .ready (now + 8), readyAt := now + 8, flight := false }
      let flg := match frame with
        | some base => BitVec.ofNat 32 (field (s.loadNat base 32) 136 6)
        | none => p.flg
      let frozen := now - h.since
      let t := s.modPlot pid fun q =>
        { q with
          fibres := fibres.map go
          flg := flg
          halt := none
          c := q.c.map CSet.restart
          j := q.j.map (·.later frozen) }
      let t := t.modCore p.core fun k =>
        { k with
          furrows := (k.furrows.filter fun fu => fu.pid != pid || keeps fu).map fun fu =>
            if fu.pid == pid then { fu with since := now + 8, promoted := false, waiting := none } else fu
          bins := k.bins.map fun b => if b.pid == pid then { b with start := b.start + frozen } else b
          handlerQueue := k.handlerQueue.filter (· != pid) }
      t.retestParks pid

/-- Applies an action of R424 to a plot that is served, by its frame at an address. -/
def State.applyAction (s : State) (pid action frame : Nat) : State :=
  match s.plot? pid with
  | none => s
  | some p =>
    match action with
    | 0 => (s.resumePlot pid (some frame)).afterHandler pid
    | 1 => s.abortPlot p
    | 2 => (s.setPhase pid .escalated).abortField p.ctx p.fld
    | _ => (s.escalate pid).afterHandler pid

/-! ### Completion of a halt (R417, R429) -/

/-- Whether an issue that waits has begun in the eyes of its fibre, so that a halt lets it complete: a wait for earlier accesses or for the way
to a home, not an interlock (R225, R298, R417). -/
def IssueWait.begun : IssueWait → Bool
  | .ready => true
  | .quiet => true
  | .way => true
  | .sent => true
  | _ => false

/-- Whether an issue of a plot waits that a halt lets complete (R298, R417). -/
def State.waitsIssue (s : State) (p : Plot) : Bool :=
  ((s.core p.core).furrows.any fun fu => fu.pid == p.pid && fu.waiting.any (·.begun)) ||
    s.resumes.any fun r => r.pid == p.pid && r.waiting.any (·.begun)

/-- Whether what R417 names has finished. -/
def State.haltDone (s : State) (p : Plot) : Bool :=
  let k := s.core p.core
  !s.accessesOpen p && p.flgPend == 0 && !k.runsCmd p.pid && !(k.results.any fun r => r.pid == p.pid) &&
    !(k.pipeWait.any fun q => q.pid == p.pid && s.lowest q) && (s.stalledOf p).isEmpty && !s.waitsIssue p &&
    !k.spawning.any fun e => e.pid == p.pid

/-- Whether a plot's halt completes now: no fibre issues any more (R414, R415), and what R417 names has finished. -/
def State.haltDue (s : State) (p : Plot) : Bool :=
  (p.halt.any fun h => h.phase == .stopping && decide (h.fcyc + 4 < s.cycOf p.core)) && s.haltDone p

/-- Every fibre has stopped: furrows that are not bound are dissolved, lone completions are dropped, the next PCs are noted. -/
def State.freeze (s : State) (p : Plot) : State :=
  let loose := (s.core p.core).furrows.filter fun fu => fu.pid == p.pid && !fu.bound
  let freed (fid : Nat) : Bool := loose.any fun fu => fu.lanes.any fun l => l.2 == fid
  let now := s.cycOf p.core
  let t := s.modCore p.core fun k => { k with furrows := k.furrows.filter fun fu => fu.pid != p.pid || fu.bound }
  let t := t.modPlot p.pid fun q =>
    { q with
      fibres := q.fibres.map fun f => if f.run = .inFurrow ∧ freed f.fid then { f with run := .ready now } else f
      halt := q.halt.map fun h => { h with pcs := q.fibres.map fun f => (f.fid, f.pc) } }
  { t with resumes := t.resumes.filter fun r => r.pid != p.pid }

/-- Whether a halt discards its plot for replanting: RESN alone, the region uncommitted, at most 16 discards (R429). -/
def replants (p : Plot) (h : Halt) : Bool :=
  p.uncommitted && !h.recs.isEmpty && (h.recs.all fun q => q.2.code == .resn) && decide (p.disc < 16) && !h.toReeve

/-- The reeve's discard of a replant region that met RESN (R429). -/
def State.replantDiscard (s : State) (p : Plot) (h : Halt) : State :=
  let (o, y) := match h.recs with
    | q :: _ => (q.2.obj, q.2.off)
    | [] => (0, 0)
  ((s.forestall p 1).requeuePlot p).report (.replant p.ctx p.fld p.plot o (y / 65536))

/-- The place of a plot in the handler queue: the completion of its halt, then its priority, then its placement (R421). -/
def State.handlerRank (s : State) (pid : Nat) : Nat :=
  match s.plot? pid with
  | none => 0
  | some p =>
    match p.halt with
    | none => 0
    | some h => (8 * h.done + (7 - p.prio)) * 2 ^ 64 + p.order

/-- A plot whose halt is complete joins its core's handler queue (R421). -/
def State.queueHandler (s : State) (p : Plot) : State :=
  let t := s.modPlot p.pid fun q => { q with halt := q.halt.map fun h => { h with phase := .queued, done := s.cycOf p.core } }
  let before (q : Nat) : Bool := decide (t.handlerRank q ≤ t.handlerRank p.pid)
  t.modCore p.core fun k => { k with handlerQueue := k.handlerQueue.takeWhile before ++ p.pid :: k.handlerQueue.dropWhile before }

/-- What follows the completion of an ordinary plot's halt: abort, discard, flush, save, debugger, escalation or the handler queue (R421,
R424 to R426, R429, R434, R435). A plot whose last fibre and command have ended in its stop is not saved: it retires (R55; log entry 50). -/
def State.routeHalt (s : State) (p : Plot) (h : Halt) : State :=
  let t := s.freeze p
  if p.intent = some .abort then t.abortPlot p
  else if p.intent = some .flush ∧ h.cause = 0 then (t.requeuePlot p).report (.preempted p.ctx p.fld p.plot 1)
  else if replants p h then t.replantDiscard p h
  else if h.cause == 0 && h.recs.isEmpty && !h.toReeve then
    match p.intent with
    | some (.save _) =>
      if p.fibres.isEmpty && !(t.core p.core).queuesCmd p.pid then
        ((t.forestall p 0).modPlot p.pid fun q => { q with intent := none, drainBy := none }).resumePlot p.pid none
      else t.setPhase p.pid .saving
    | _ => t.resumePlot p.pid none
  else
    let t := if p.intent = some .flush then t.intend p.pid (.save 3) else t
    let c := s.ctx? p.ctx
    if h.toReeve then t.escalate p.pid
    else if h.cause = FaultCode.dbg.num ∧ c.any (·.debugger) then
      match t.plot? p.pid with
      | some q => (t.writeFrame (copyAddr p.pid) q h).setPhase p.pid .debugger
      | none => t
    else if (c.bind (·.handlerCode)).isNone then t.escalate p.pid
    else t.queueHandler p

/-- A handler fibre's own halt escalates the plot that it serves, with the handler's cause and PC; the handler's plot goes (R422). A fault
of a command that outlives its handler is only reported. -/
def State.handlerFell (s : State) (p : Plot) (served : Nat) (h : Halt) : State :=
  let pc := match h.recs with
    | q :: _ => q.2.pc
    | [] => 0
  let t := if p.fibres.isEmpty then s else s.escalate served
  let t := (t.report (.handlerFault p.ctx p.fld p.plot h.cause pc)).forgetPlot p
  if p.fibres.isEmpty then t else t.afterHandler served

/-- HALT_COMPLETE (R417). -/
def execHaltComplete (pid : Nat) (s : State) : Result :=
  match s.plot? pid with
  | none => .fault .noSubject
  | some p =>
    match p.halt with
    | none => .fault .noSubject
    | some h =>
      if !s.haltDue p then .fault .noSubject
      else
        match p.handler with
        | some served => .next (s.handlerFell p served h)
        | none => .next (s.routeHalt p h)

/-! ### The handler (R420 to R422) -/

/-- The plot whose frame is written next: the slot is free and the die runs (R421, R465). -/
def State.frameNext (s : State) (core : Nat) : Option Plot :=
  let k := s.core core
  if k.frameOf.isSome ∨ (s.die (dieOf core)).halted then none
  else
    firstSome (k.handlerQueue.map fun pid => (s.plot? pid).filter fun p => p.intent.isNone)

/-- HALT_FRAME_WRITE: the frame of the first plot in the queue, or the one that its restore has loaded (R418, R421, R441). -/
def execHaltFrameWrite (core : Nat) (s : State) : Result :=
  match s.frameNext core with
  | none => .fault .noSubject
  | some p =>
    match p.halt with
    | none => .fault .noSubject
    | some h =>
      let t := if h.framed then s.copyFrame (copyAddr p.pid) (frameAddr core) else s.writeFrame (frameAddr core) p h
      let t := t.setPhase p.pid .withHandler
      .next (t.modCore core fun k =>
        { k with handlerQueue := k.handlerQueue.filter (· != p.pid), frameOf := some p.pid, handlerAt := some (s.cycOf core), handlerStarted := false })

/-- The plot whose handler starts now: its frame was written 16 ccy ago (R421). -/
def State.handlerNext (s : State) (core : Nat) : Option Plot :=
  let k := s.core core
  match k.frameOf, k.handlerAt with
  | some pid, some at_ =>
    if k.handlerStarted || (s.die (dieOf core)).halted || decide (s.cycOf core < at_ + 16) then none else s.plot? pid
  | _, _ => none

/-- The handler's plot for a plot that it serves (R420, R421); its entry is a multiple of 4, as every PC (R28, R57). -/
def handlerPlot (s : State) (p : Plot) (first : Nat) (c : Ctx) : Plot :=
  let entry := c.handlerEntry &&& ~~~3
  let f := Fibre.launched 0 32 0 entry c.handlerA (s.cycOf p.core)
  let f := (f.setV 0 (BitVec.ofNat 32 first)).setV 1 (BitVec.ofNat 32 p.plot)
  { Plot.blank s.nextPid p.ctx p.fld p.plot p.core s.nextOrder true (some p.pid) 32 (c.handlerCode.getD .null) entry with
    prio := 8, windows := [(0, 0)], fibres := [f] }

/-- HANDLER_START (R420, R421). -/
def execHandlerStart (core : Nat) (s : State) : Result :=
  match s.handlerNext core with
  | none => .fault .noSubject
  | some p =>
    match p.halt, s.ctx? p.ctx with
    | some h, some c =>
      let q := handlerPlot s p (h.first % 1024) c
      let t := { s with plots := s.plots ++ [q], nextPid := s.nextPid + 1, nextOrder := s.nextOrder + 1 }
      .next (t.modCore core fun k => { k with handlerStarted := true, handlerAt := some (s.cycOf core) })
    | _, _ => .fault .noSubject

/-- The handler's plot on a core that has run for 10 ms without ERET (R422). -/
def State.handlerLate (s : State) (core : Nat) : Option (Plot × Nat) :=
  let k := s.core core
  match k.frameOf, k.handlerAt with
  | some pid, some at_ =>
    if !k.handlerStarted || (s.die (dieOf core)).halted || decide (s.cycOf core < at_ + 16000000) then none
    else (s.plots.find? fun q => q.handler == some pid && q.core == core && !q.fibres.isEmpty).map fun q => (q, pid)
  | _, _ => none

/-- Ends a handler's fibres as if they had exited; its commands complete (R356, R422). -/
def State.endHandler (s : State) (p : Plot) : State :=
  let t := p.fibres.foldl (fun t f => t.exitFibre p.pid f.fid) s
  t.modCore p.core fun k => { k with furrows := k.furrows.filter fun f => f.pid != p.pid }

/-- HANDLER_TIMEOUT (R422). -/
def execHandlerTimeout (core : Nat) (s : State) : Result :=
  match s.handlerLate core with
  | none => .fault .noSubject
  | some (q, pid) => .next (((s.endHandler q).escalate pid).afterHandler pid)

/-! ### EXIT and ERET (R356, R422, R424, R473) -/

/-- EXIT: the members end; a handler fibre that exits escalates the plot that it serves (R356, R422). -/
def execExit (x : FmtG) (s : State) : Result :=
  match runLane { guard := x.g.toNat, size := sizeOf x.p } s fun _ s _ => .of s .exit, s.issuing with
  | .next t, some iss =>
    match s.plot? iss.pid, t.plot? iss.pid with
    | some p, some q =>
      match p.handler with
      | some served => .next (if q.fibres.isEmpty then (t.escalate served).afterHandler served else t)
      | none => .next t
    | _, _ => .next t
  | r, _ => r

/-- ERET: the handler's fibre ends and its action applies to the plot of the frame, once every instance that it has signed has completed
(R424, R473). -/
def execEret (x : FmtE1) (s : State) : Result :=
  let r := runLane { codes := [x.a.toNat], privileged := true } s fun c s f =>
    if c.p.handler.isNone then .of s (.fault (.precise .illop c.iss.pc))
    else if c.p.signedOpen f.fid then .of s (.park f (.uniformResult []))
    else .of s .exit
  match r, s.issuing with
  | .next t, some iss =>
    match s.plot? iss.pid with
    | none => .next t
    | some p =>
      match p.handler, iss.members with
      | some served, m :: _ =>
        if (t.fibre? p.pid m.2).isSome then .next t
        else
          let action := match p.fibre? m.2 with
            | some f => (readReg p f x.a.toNat).toNat % 4
            | none => 0
          let u := if action = 3 then t else t.freeHandler p.core
          .next (u.applyAction served action (frameAddr p.core))
      | _, _ => .next t
  | r, _ => r

/-! ### Answers of the host and the debugger (R425, R426) -/

/-- HOST_ESCALATION_ANSWER: the host's edits of the copy, then action 0, 1 or 2 (R426). -/
def execHostEscalationAnswer (pid action : Nat) (edits : List (Nat × Byte)) (s : State) : Result :=
  match s.plot? pid with
  | none => .fault .noSubject
  | some p =>
    if 2 < action ∨ !(p.halt.any fun h => h.phase == .escalated) then .fault .noSubject
    else
      let mine := edits.filter fun e => decide (e.1 < frameSize)
      let t : State := { s with mem := mine.foldl (fun (m : List Host.Cell) (e : Nat × Byte) => Memory.write m (copyAddr pid + e.1) e.2) s.mem }
      .next (t.applyAction pid action (copyAddr pid))

/-- DEBUGGER_ACTION: the debugger resumes or aborts a plot that DBGB has halted (R425). -/
def execDebuggerAction (pid action : Nat) (s : State) : Result :=
  match s.plot? pid with
  | none => .fault .noSubject
  | some p =>
    if 2 < action ∨ !(p.halt.any fun h => h.phase == .debugger) then .fault .noSubject
    else .next (s.applyAction pid action (copyAddr pid))

/-- DEBUGGER_ATTACH (R425). -/
def execDebuggerAttach (ctx : Nat) (on : Bool) (s : State) : Result :=
  match s.ctx? ctx with
  | none => .fault .noSubject
  | some c => .next (s.setCtx { c with debugger := on })

/-! ### Debugger halt of a die; fatal errors (R456, R465) -/

/-- DEBUGGER_HALT (R465). -/
def execDebuggerHalt (die : Nat) (s : State) : Result :=
  if (s.dies.any fun d => d.num == die) then .next (s.modDie die fun d => { d with halted := true }) else .fault .noSubject

/-- DEBUGGER_RESUME (R465). -/
def execDebuggerResume (die : Nat) (s : State) : Result :=
  if (s.dies.any fun d => d.num == die) then .next (s.modDie die fun d => { d with halted := false }) else .fault .noSubject

/-- A fatal error: every plot is halted with stop cause 0 and escalated, a handler's work is lost; only a reset follows (R456). -/
def State.fatal (s : State) : State :=
  let t := { s with status := { s.status with fatal := true } }
  t.plots.foldl (fun t p =>
    if p.handler.isSome then t.forgetPlot p
    else
      match p.halt with
      | none => t.stopPlot p.pid true
      | some h => if h.phase = .stopping then t.stopPlot p.pid true else if h.phase = .escalated then t else t.escalate p.pid) t

/-! ### Fault reports (R413, R414) -/

/-- The first pending answer of a plot that is a fault. -/
def Plot.pendFault (p : Plot) : Option (Nat × FaultRec) :=
  firstSome (p.pendLoads.map fun l =>
    match l with
    | .fault f r => some (f, r)
    | _ => none)

/-- The first pending acknowledgement that is a fault. -/
def Plot.pendStoreFault (p : Plot) : Option (Nat × Bool × FaultRec) :=
  firstSome (p.pendStores.map fun x =>
    match x with
    | .fault f c r => some (f, c, r)
    | .done _ => none)

/-- Starts a halt by a report against a fibre; one that has exited has no record (R416). -/
def State.reportFault (s : State) (pid fid : Nat) (r : FaultRec) : State :=
  if fid < 1024 then s.raise pid fid r
  else
    s.modPlot pid fun p =>
      match p.halt with
      | some _ => p
      | none => { p with halt := some (.start (s.cycOf p.core) (fid % 1024) r.code.num [] false) }

/-- PORT_FAULT_REPORT: a report reaches the core; the count that its access held is freed (R254, R414). -/
def execPortFaultReport (pid : Nat) (s : State) : Result :=
  match s.plot? pid with
  | none => .fault .noSubject
  | some p =>
    match p.pendFault with
    | some (f, r) =>
      let t := s.modPlot pid fun q => { q with pendLoads := q.pendLoads.erase (.fault f r) }
      let t := t.modFibre pid f fun g => { g with loads := g.loads - 1 }
      .next (((t.reportFault pid f r).wakeCounter pid .loads).wakeWaits pid)
    | none =>
      match p.pendStoreFault with
      | some (f, c, r) =>
        let t := s.modPlot pid fun q => { q with pendStores := q.pendStores.erase (.fault f c r) }
        let t := if c then t.modFibre pid f fun g => { g with stores := g.stores - 1 } else t
        .next (((t.reportFault pid f r).wakeCounter pid .stores).wakeWaits pid)
      | none => .fault .noSubject

end Sys2Proof.Machine
end

