-- ==== Sys2Proof/Machine/Deliver.lean ====
section
/-! DEFINITION. Answers that reach a fibre: lane flags, loads, acknowledgements (R123, R228, R254). -/

namespace Sys2Proof.Machine

/-- LANE_RESULT_WRITE: the flags of finished lane results join FLG (R74, R123, R130). -/
def execLaneResultWrite (pid : Nat) (s : State) : Result :=
  match s.plot? pid with
  | none => .fault .noSubject
  | some p =>
    if p.flgPend = 0 then .fault .noSubject
    else .next (s.modPlot pid fun q => { q with flg := q.flg ||| q.flgPend.setWidth 32, flgPend := 0 })

/-- A load's answer at its fibre: the register written, the count freed (R254). -/
def PendLoad.deliver (l : PendLoad) (f : Fibre) : Fibre :=
  match l with
  | .regs _ d vs => { f.setVs d vs with loads := f.loads - 1 }
  | .cap _ d c => { f.setA d c with loads := f.loads - 1 }
  | .free _ => { f with loads := f.loads - 1 }
  | .fault _ _ => f

/-- The first answer of a plot that is no fault. -/
def Plot.answer? (p : Plot) : Option PendLoad :=
  p.pendLoads.find? fun l =>
    match l with
    | .fault _ _ => false
    | _ => true

/-- LOAD_RETURN (R254, R272). -/
def execLoadReturn (pid : Nat) (s : State) : Result :=
  match (s.plot? pid).bind Plot.answer? with
  | none => .fault .noSubject
  | some l =>
    let t := s.modPlot pid fun q => { q with pendLoads := q.pendLoads.erase l }
    .next (((t.modFibre pid l.owner l.deliver).wakeCounter pid .loads).wakeWaits pid)

/-- The first acknowledgement of a plot that is no fault. -/
def Plot.ack? (p : Plot) : Option Nat :=
  firstSome (p.pendStores.map fun x =>
    match x with
    | .done f => some f
    | .fault _ _ _ => none)

/-- STORE_ACKNOWLEDGE: the count is freed (R228, R254). -/
def execStoreAcknowledge (pid : Nat) (s : State) : Result :=
  match (s.plot? pid).bind Plot.ack? with
  | none => .fault .noSubject
  | some f =>
    let t := s.modPlot pid fun q => { q with pendStores := q.pendStores.erase (.done f) }
    .next (((t.modFibre pid f fun g => { g with stores := g.stores - 1 }).wakeCounter pid .stores).wakeWaits pid)

end Sys2Proof.Machine
end

