-- ==== Sys2Proof/Machine/Sched.lean ====
section
/-! DEFINITION. The furrow former, the issue choice of a quadrant, bins and join-hold timers (R32 to R42, R52, R334, R335). -/

namespace Sys2Proof.Machine

/-! ### The ready pool (R37, R38) -/

/-- Whether a core's fibres may run: its die is not halted by a debugger, the core is not gated, no fatal error stands (R456, R465). -/
def State.coreRuns (s : State) (core : Nat) : Bool :=
  !(s.die (dieOf core)).halted && !(s.core core).gated && !s.status.fatal

/-- A group: the ready fibres of one plot at one PC. -/
structure Group where
  plot : Plot
  pc : Pc
  members : List Fibre

/-- Whether a fibre is ready at a cycle. -/
def Fibre.readyBy (f : Fibre) (now : Nat) : Bool :=
  match f.run with
  | .ready t => decide (t ≤ now)
  | _ => false

/-- Whether a fibre is in flight towards its PC: it comes from a furrow that has dissolved, and is not ready yet (R38). -/
def Fibre.inFlight (f : Fibre) (now : Nat) : Bool :=
  f.flight &&
    match f.run with
    | .ready t => decide (now < t)
    | _ => false

/-- The groups of a plot. -/
def Plot.groups (p : Plot) (now : Nat) : List Group :=
  let ready := p.fibres.filter fun f => f.readyBy now
  (dedup (ready.map (·.pc))).map fun pc => ⟨p, pc, ready.filter fun f => f.pc == pc⟩

/-- The groups of a core. -/
def State.groups (s : State) (core : Nat) : List Group :=
  (s.plots.filter fun p => p.core == core && p.halt.isNone).flatMap fun p => p.groups (s.cycOf core)

/-- The cycle from which a group's oldest fibre counts its age. -/
def Group.oldest (g : Group) : Nat :=
  match minBy? g.members (·.readyAt) with
  | some f => f.readyAt
  | none => 0

/-- The first cycle in which a group could have been formed. -/
def Group.formable (g : Group) : Nat :=
  g.members.foldl (fun m f =>
    match f.run with
    | .ready t => min m t
    | _ => m) (2 ^ 64)

/-- The mark of a group. -/
def Core.mark? (k : Core) (g : Group) : Option GroupMark :=
  k.marks.find? fun m => m.pid == g.plot.pid && m.pc == g.pc

/-- Whether fibres of the group's plot are in flight towards its PC (R38). -/
def Group.awaits (g : Group) (now : Nat) : Bool :=
  g.plot.fibres.any fun f => f.pc == g.pc && f.inFlight now

/-- Whether a group is passed over: small, not from a released bin, with fibres in flight, its fill wait not over (R34, R38). -/
def State.passedOver (s : State) (core : Nat) (g : Group) : Bool :=
  decide (g.members.length < 32) && g.awaits (s.cycOf core) && !((s.core core).mark? g).any (·.filled)

/-- Whether a group is promoted: its oldest fibre has been ready for 256 ccy (R38). -/
def State.groupPromoted (s : State) (core : Nat) (g : Group) : Bool :=
  decide (g.oldest + 256 ≤ s.cycOf core)

/-- The rank of a group, least first (R38). -/
def State.groupKey (s : State) (core : Nat) (g : Group) : Nat :=
  let tail := g.pc.toNat * 2 ^ 64 + g.plot.order
  if s.groupPromoted core g then (g.oldest * 16 + (8 - g.plot.prio)) * 2 ^ 104 + tail
  else 2 ^ 200 + ((8 - g.plot.prio) * 2 ^ 64 + g.oldest) * 2 ^ 104 + tail

/-- The group that is formed next on a core. -/
def State.nextGroup (s : State) (core : Nat) : Option Group :=
  minBy? ((s.groups core).filter fun g => !s.passedOver core g) (s.groupKey core)

/-! ### Forming (R37, R39) -/

/-- The lanes of a furrow's members: home lanes first, then the lowest empty lanes, both in ascending FID order (R39). -/
def assignLanes (fids : List Nat) : List (Nat × Nat) :=
  let first := fids.foldl (fun (acc : List (Nat × Nat) × List Nat) f =>
    if acc.1.any fun q => q.1 == f % 32 then (acc.1, acc.2 ++ [f]) else (acc.1 ++ [(f % 32, f)], acc.2)) ([], [])
  let all := first.2.foldl (fun acc f =>
    match (List.range 32).find? fun l => !(acc.any fun q => q.1 == l) with
    | some l => acc ++ [(l, f)]
    | none => acc) first.1
  sortBy (·.1) all

/-- Whether a furrow slot is free in a ccy: no furrow is in it, or one whose last issue is over (R35, R37). -/
def Core.slotFree (k : Core) (now quad slot : Nat) : Bool :=
  (k.furrow? quad slot).all fun fu => fu.lanes.isEmpty && decide (fu.since ≤ now)

/-- A free furrow slot of a quadrant (R37). -/
def Core.freeSlot (k : Core) (now quad : Nat) : Option Nat :=
  (List.range 16).find? (k.slotFree now quad)

/-- Forms a furrow of a group in a slot (R39, R40); the fibres that a group above 32 leaves behind are past its fill wait, and are promoted by their
own age (R34, R38). -/
def State.form (s : State) (core quad slot : Nat) (g : Group) : State :=
  let taken := (sortBy (fun f => f.readyAt * 1024 + f.fid) g.members).take 32
  let lanes := assignLanes (sortBy id (taken.map (·.fid)))
  let fu : Furrow :=
    { core := core, quad := quad, slot := slot, pid := g.plot.pid, lanes := lanes, m := (lanes.filter fun l => l.2 % 32 != l.1).length,
      bound := false, since := s.cycOf core + 1, promoted := false, waiting := none }
  let whole := decide (g.members.length ≤ 32)
  let t := s.modCore core fun k =>
    { k.dropFurrow quad slot with
      furrows := (k.dropFurrow quad slot).furrows ++ [fu]
      marks := (k.marks.filter fun m => !(whole && m.pid == g.plot.pid && m.pc == g.pc)).map fun m =>
        if m.pid == g.plot.pid && m.pc == g.pc then { m with promoted := false } else m }
  lanes.foldl (fun t l => t.modFibre g.plot.pid l.2 fun f => { f with run := .inFurrow, lane := l.1, flight := false }) t

/-- Whether the former can form a furrow in a quadrant. -/
def State.formDue (s : State) (core quad : Nat) : Option (Nat × Group) :=
  if !s.coreRuns core then none
  else
    match (s.core core).freeSlot (s.cycOf core) quad, s.nextGroup core with
    | some n, some g => if 4 ≤ quad then none else some (n, g)
    | _, _ => none

/-- FORM_FURROW (R37 to R39). -/
def execFormFurrow (core quad : Nat) (s : State) : Result :=
  match s.formDue core quad with
  | some (n, g) => .next (s.form core quad n g)
  | none => .fault .noSubject

/-- A group of a plot at a PC. -/
def State.group? (s : State) (pid pc : Nat) : Option Group :=
  match s.plot? pid with
  | none => none
  | some p => if p.halt.isSome then none else (p.groups (s.cycOf p.core)).find? fun g => g.pc.toNat == pc

/-- Sets the mark of a group. -/
def State.markGroup (s : State) (g : Group) (filled promoted : Bool) : State :=
  s.modCore g.plot.core fun k =>
    let old := k.mark? g
    let m : GroupMark :=
      { pid := g.plot.pid, pc := g.pc, since := s.cycOf g.plot.core, filled := filled || old.any (·.filled),
        promoted := promoted || old.any (·.promoted) }
    { k with marks := (k.marks.filter fun m => !(m.pid == g.plot.pid && m.pc == g.pc)) ++ [m] }

/-- Whether a group's fill wait is over (R38). -/
def State.fillDue (s : State) (g : Group) : Bool :=
  s.passedOver g.plot.core g && decide (g.formable + 4 ≤ s.cycOf g.plot.core)

/-- FILL_WAIT_EXPIRY: a group that was passed over for 4 ccy is formed (R38). -/
def execFillWaitExpiry (pid pc : Nat) (s : State) : Result :=
  match s.group? pid pc with
  | some g => if s.fillDue g then .next (s.markGroup g true false) else .fault .noSubject
  | none => .fault .noSubject

/-- Whether a group reaches the age of promotion unmarked (R38). -/
def State.promoteDue (s : State) (g : Group) : Bool :=
  decide (g.oldest + 256 ≤ s.cycOf g.plot.core) && !((s.core g.plot.core).mark? g).any (·.promoted)

/-- GROUP_PROMOTION (R38). -/
def execGroupPromotion (pid pc : Nat) (s : State) : Result :=
  match s.group? pid pc with
  | some g => if s.promoteDue g then .next (s.markGroup g false true) else .fault .noSubject
  | none => .fault .noSubject

/-! ### Issue (R42, R334) -/

/-- The members of a furrow that can issue: neither parked nor exited, nor woken for a later ccy. -/
def State.unparked (s : State) (fu : Furrow) : List (Nat × Fibre) :=
  fu.lanes.filterMap fun l =>
    match s.fibre? fu.pid l.2 with
    | some f => if f.run = .inFurrow ∧ f.readyAt ≤ s.cycOf fu.core then some (l.1, f) else none
    | none => none

/-- The issue of a furrow: the lowest next PC among its unparked members, and the members at it (R42). -/
def State.issueOf (s : State) (fu : Furrow) : Issue :=
  let l := s.unparked fu
  let pc := match minBy? l (·.2.pc.toNat) with
    | some f => f.2.pc
    | none => 0
  { pid := fu.pid, core := fu.core, furrow := some (fu.quad, fu.slot), pc := pc,
    members := (l.filter fun q => q.2.pc == pc).map fun q => (q.1, q.2.fid) }

/-- Whether what an issue of some fibres waits for is over (R72, R225, R231, R256, R460). -/
def State.waitOver (s : State) (core pid : Nat) (fids : List Nat) (w : IssueWait) : Bool :=
  match w with
  | .ready => true
  | .frozen => (s.plot? pid).all (·.halt.isNone)
  | .quiet => fids.all (s.quiet pid)
  | .way => !(s.links.any (·.retraining))
  | .sent => !s.hostBusy core
  | .operands regs => fids.all fun f => !((s.loading pid f).any regs.contains)
  | .bytes => fids.all fun f => (s.accessesOf pid f).isEmpty

/-- Whether an issue in a quadrant, or of a lone member, lies in the skid of a halt: in the fault cycle, or in the 4 ccy after it in a quadrant
in which no fibre has faulted; a fibre that has faulted issues no more, its register never being written (R72, R413 to R415). -/
def Halt.lets (h : Halt) (now : Nat) (quad : Option Nat) (fids : List Nat) : Bool :=
  (now == h.fcyc || quad.any fun q => decide (now ≤ h.fcyc + 4) && !h.quads.contains q) &&
    !fids.any fun f => h.recs.any fun r => r.1 == f

/-- Whether a plot's halt lets an issue of some fibres happen: one in its skid, and one that has begun, which completes before the halt does
(R298, R414, R417). -/
def Plot.mayIssue (p : Plot) (now : Nat) (w : Option IssueWait) (quad : Option Nat) (fids : List Nat) : Bool :=
  match p.halt with
  | none => true
  | some h => h.phase == .stopping && (h.lets now quad fids || w.any (·.begun))

/-- Whether the issue port of a quadrant is free (R40, R334). -/
def State.portFree (s : State) (core quad : Nat) : Bool :=
  match assoc (s.core core).ports quad with
  | some t => decide (t ≤ s.cycOf core)
  | none => true

/-- Whether a furrow is issuable (R334): its plot runs, a member can issue, its last issue is over, it waits for nothing, its code is at
hand. -/
def State.issuable (s : State) (fu : Furrow) : Bool :=
  s.coreRuns fu.core && decide (fu.since ≤ s.cycOf fu.core) && !(s.unparked fu).isEmpty &&
    fu.waiting.all (s.waitOver fu.core fu.pid ((s.issueOf fu).members.map (·.2))) &&
    match s.plot? fu.pid with
    | some p => p.mayIssue (s.cycOf fu.core) fu.waiting (some fu.quad) ((s.issueOf fu).members.map (·.2)) && s.codeOpen p (s.issueOf fu).pc
    | none => false

/-- The rank of an issuable furrow, least first (R334). -/
def State.furrowKey (s : State) (fu : Furrow) : Nat :=
  let prio := match s.plot? fu.pid with
    | some p => 8 - p.prio
    | none => 8
  let old := match minBy? (s.unparked fu) (·.2.readyAt) with
    | some f => f.2.readyAt
    | none => 0
  let tail := (prio * 2 ^ 64 + old) * 16 + fu.slot
  if fu.promoted then fu.since * 2 ^ 80 + tail else 2 ^ 160 + tail

/-- The furrow that a quadrant issues next. -/
def State.nextFurrow (s : State) (core quad : Nat) : Option Furrow :=
  if s.portFree core quad then minBy? ((s.core core).furrows.filter fun fu => fu.quad == quad && s.issuable fu) s.furrowKey else none

/-- Whether a woken fibre may complete its instruction now; one that is no longer there may be dropped. -/
def State.resumeDue (s : State) (r : Resume) : Bool :=
  match s.plot? r.pid with
  | none => true
  | some p =>
    s.coreRuns p.core && decide (r.due ≤ s.cycOf p.core) && r.waiting.all (s.waitOver p.core r.pid [r.fid]) &&
      p.mayIssue (s.cycOf p.core) r.waiting none [r.fid] && (p.fibre? r.fid).all fun f => s.codeOpen p f.pc

/-- The first woken fibre of a core that completes its instruction alone now (R49). -/
def State.nextResume (s : State) (core : Nat) : Option Resume :=
  s.resumes.find? fun r =>
    s.resumeDue r &&
      match s.plot? r.pid with
      | some p => p.core == core
      | none => true

/-- The lone issue of a woken fibre; none where it no longer waits. -/
def State.loneIssue (s : State) (r : Resume) : Option Issue :=
  match s.plot? r.pid with
  | none => none
  | some p =>
    match p.fibre? r.fid with
    | none => none
    | some f =>
      match f.run with
      | .parked _ => some { pid := p.pid, core := p.core, furrow := none, pc := f.pc, members := [(f.lane, f.fid)] }
      | _ => none

/-- An issue begins: its instruction is fetched (R246). -/
def State.beginIssue (s : State) (iss : Issue) : State :=
  { s.prefetch iss with issuing := some iss }

/-- ISSUE_SELECT: a quadrant's choice of furrow (R334); beside the quadrants 0 to 3, number 4 stands for the completion of a woken fibre's
instruction, which takes no issue port (R49). -/
def execIssueSelect (core quad : Nat) (s : State) : Result :=
  if quad = 4 then
    match s.nextResume core with
    | some r =>
      let t := { s with resumes := s.resumes.erase r }
      .next (match s.loneIssue r with
        | some iss => t.beginIssue iss
        | none => t)
    | none => .fault .noSubject
  else
    match s.nextFurrow core quad with
    | some fu => .next (s.beginIssue (s.issueOf fu))
    | none => .fault .noSubject

/-- A furrow in a ccy in which it waits for nothing: one that is not issuable in it, its port taken among others, does not count the ccy;
64 ccy of being issuable promote it (R334). -/
def State.counted (s : State) (fu : Furrow) : Furrow :=
  if s.issuable fu && s.portFree fu.core fu.quad then { fu with promoted := fu.promoted || decide (fu.since + 64 ≤ s.cycOf fu.core) }
  else if fu.since ≤ s.cycOf fu.core ∧ !fu.lanes.isEmpty then { fu with since := fu.since + 1 }
  else fu

/-- What time does to a furrow that does not issue: a wait that is over makes it issuable from this ccy; the issue that waited for its accesses
or its way has begun, and a halt still lets it happen (R298, R334). -/
def State.aged (s : State) (fu : Furrow) : Furrow :=
  match fu.waiting with
  | some .ready => s.counted fu
  | some w =>
    if s.waitOver fu.core fu.pid ((s.issueOf fu).members.map (·.2)) w && (w.begun || (s.plot? fu.pid).all (·.halt.isNone)) then
      { fu with since := s.cycOf fu.core, waiting := if w.begun then some .ready else none }
    else fu
  | none => s.counted fu

/-- FURROW_PROMOTION: a ccy passes over the furrows of a quadrant; those that have been issuable for 64 ccy are promoted (R334). -/
def execFurrowPromotion (core quad : Nat) (s : State) : Result :=
  let old := (s.core core).furrows
  let new := old.map fun fu => if fu.quad = quad then s.aged fu else fu
  if new = old then .fault .noSubject else .next (s.modCore core fun k => { k with furrows := new })

/-! ### Timers of bins and join slots (R34, R52) -/

/-- Whether the timers of a plot run at the end of this ccy: up to the fault cycle of a halt, and while no debugger halts its die (R414,
R465). -/
def State.timersRun (s : State) (p : Plot) : Bool :=
  !(s.die (dieOf p.core)).halted && p.halt.all fun h => h.fcyc == s.cycOf p.core

/-- The oldest bin of a core that is released at the end of this ccy: it holds 32 fibres, or its timer has run out; a halted plot's bins stand
(R34, R414). -/
def State.binDue (s : State) (core : Nat) : Option Bin :=
  (s.core core).bins.find? fun b =>
    match s.plot? b.pid with
    | some p => s.timersRun p && (decide (32 ≤ b.fids.length) || decide (b.start + p.bint ≤ s.cycOf core))
    | none => false

/-- The first spawned fibre of a core whose SPAWN has ended by the end of this ccy (R34, R371). -/
def State.entering (s : State) (core : Nat) : Option Entering :=
  (s.core core).spawning.find? fun e => decide (e.at_ ≤ s.cycOf core)

/-- BIN_TIMER_EXPIRY: at the end of a ccy the fibres enter their bins whose SPAWN ends; then a bin that is full, or whose timer has run out, is
released (R34). -/
def execBinTimerExpiry (core : Nat) (s : State) : Result :=
  match s.entering core with
  | some e => .next ((s.modCore core fun k => { k with spawning := k.spawning.erase e }).enterBin core e.pid e.pc e.fid e.at_)
  | none =>
    match s.binDue core with
    | some b => .next (s.releaseBin core b)
    | none => .fault .noSubject

/-- Whether a join slot releases at the end of this ccy: it is complete, or its hold timer has run out (R52). -/
def State.joinDue (s : State) (p : Plot) (j : Nat) : Bool :=
  let x := p.jslot j
  let now := s.cycOf p.core
  s.timersRun p && (x.full now || x.expired p.jhold now)

/-- JOIN_HOLD_EXPIRY: at the end of a ccy a slot that is complete, or whose hold timer has run out, is released (R52). -/
def execJoinHoldExpiry (pid slot : Nat) (s : State) : Result :=
  match s.plot? pid with
  | some p => if s.joinDue p slot then .next (s.releaseJoin pid slot) else .fault .noSubject
  | none => .fault .noSubject

end Sys2Proof.Machine
end

