-- ==== Sys2Proof/Machine/Coherence.lean ====
section
/-! DEFINITION. The part's steps between L1s, homes and the host: requests, drains, recalls, gathers, write-backs, evictions, retries, retests of
watches, drops, migrations, publishes, host atomics, snoops and host accesses (R188, R202 to R214, R228 to R249, R269, R274, R283, R287,
R401, R408, R459). -/

namespace Sys2Proof.Machine

/-! ### Requests at the homes (R232) -/

/-- Where a line lies, whoever asks; a replica on its own die. -/
def State.refHome (s : State) (r : LineRef) : Option PortHit :=
  s.place? (r.rep - 1) r.ctx r.obj (128 * r.line)

/-- The slice and set of a request for ownership: that of a near atomic whose core does not own the line, or of an engine (R195, R232, R236,
R243); none for any other request. -/
def State.ownershipSet (s : State) (g : Request) : Option (Nat × Nat) :=
  match g.parts with
  | [] => none
  | q :: _ =>
    match s.portOf q with
    | .error _ => none
    | .ok h =>
      match q.op with
      | .own _ => some (l2Set (h.addr / 128))
      | .atom op ty _ _ _ =>
        if (atomFault h op ty).isNone && s.nearLine q h && !s.owns q.core (q.ref h) then some (l2Set (h.addr / 128)) else none
      | _ => none

/-- The requests for ownership of a set that lose to one that is served, each having an earlier rival for its line, in the order of the
queue (R232). -/
def State.losers (s : State) (g : Request) (k : Nat × Nat) : List Request :=
  let waiting := s.homeQ.filter fun r => r != g && decide (r.at_ < s.now) && s.ownershipSet r == some k
  (waiting.foldl (fun (acc : List (Option LineRef) × List Request) r =>
    let z := r.ref s
    if acc.1.contains z then (acc.1, acc.2 ++ [r]) else (acc.1 ++ [z], acc.2)) ([g.ref s], [])).2

/-- When a request that is answered with retry asks again: after 64 ccy, twice as long at each retry up to 1,024 ccy (R232). -/
def Request.retry (g : Request) (now : Nat) : Request × Nat :=
  let wait := if g.backoff = 0 then 64 else min 1024 (2 * g.backoff)
  ({ g with backoff := wait }, now + wait)

/-- The losers beyond the 16 that the queue of the set holds are answered with retry (R232). -/
def State.answerRetry (s : State) (g : Request) : State :=
  match s.ownershipSet g with
  | none => s
  | some k =>
    let extra := (s.losers g k).drop 16
    { s with homeQ := s.homeQ.filter fun r => !extra.contains r, retries := s.retries ++ extra.map fun r => r.retry s.now }

/-- Whether a release waits at its home: an acquire of its line waits for a drain, and it is first in coherence order; the release is performed and
recorded after it (R229, R232, R294). -/
def State.releaseHeld (s : State) (g : Request) : Bool :=
  (g.parts.any fun q => q.op.releases) && s.homeQ.any fun a => a.draining && (a.ref s).isSome && a.ref s == g.ref s

/-- Whether a request can be served now: it has arrived, it does not wait for a drain or for an acquire before it, its ways are open (R232, R460). -/
def State.requestReady (s : State) (g : Request) : Bool :=
  !g.draining && decide (g.at_ < s.now) && !s.releaseHeld g &&
    match g.hit? s, g.ref s with
    | some h, some r => s.lineOpen g.core r h
    | _, _ => true

/-- The number of a request's home (R193). -/
def State.homeOf (s : State) (g : Request) : Nat :=
  match g.hit? s with
  | some h => h.homeNum
  | none => 0

/-- The rank of a request, least first: the ccy of its arrival, then its core's distance from the one that its home has served last (R232). -/
def State.requestKey (s : State) (g : Request) : Nat :=
  let last := (assoc s.portTurn (s.homeOf g)).getD 127
  g.at_ * 128 + (g.core + 127 - last) % 128

/-- The request that is served next. -/
def State.nextRequest (s : State) : Option Request :=
  minBy? (s.homeQ.filter s.requestReady) s.requestKey

/-- HOME_REQUEST: a home serves a request: the oldest that waits for nothing, of those that arrived in one ccy the one of the next request port
in turn (R232). -/
def execHomeRequest (s : State) : Result :=
  match s.nextRequest with
  | none => .fault .noSubject
  | some g =>
    let t : State := { s with homeQ := s.homeQ.erase g, portTurn := assocSet s.portTurn (s.homeOf g) g.core }
    .next ((t.answerRetry g).serve g)

/-- OWNERSHIP_RETRY: a requester answered with retry asks again after its backoff (R232). -/
def execOwnershipRetry (s : State) : Result :=
  match s.retries.find? fun q => decide (q.2 ≤ s.now) with
  | none => .fault .noSubject
  | some q => .next { s with retries := s.retries.erase q, homeQ := s.homeQ ++ [{ q.1 with at_ := s.now }] }

/-! ### Drains (R229, R233) -/

/-- Whether the home of a line and a core reach each other (R460). -/
def State.homeWay (s : State) (core : Nat) (r : LineRef) : Bool :=
  match s.refHome r with
  | some h => s.wayOpen (dieOf core) h.homeDie
  | none => true

/-- The drain that a core answers next: the way from its home and those of what it writes back are open (R229, R460). -/
def State.nextDrain (s : State) (core : Nat) : Option DrainMsg :=
  s.drains.find? fun d =>
    d.core == core && !d.acked && s.homeWay core d.line && s.backOpen core fun l => decide (l.epoch ≤ d.epoch)

/-- DRAIN: a core writes back what its record covers and acknowledges; a gated core holds nothing (R229, R233). -/
def execDrain (core : Nat) (s : State) : Result :=
  match s.nextDrain core with
  | none => .fault .noSubject
  | some d =>
    let t := s.drainCore core d.epoch
    .next { t with drains := t.drains.map fun e => if e == d then { e with acked := true } else e }

/-- Whether a control flit of a line's transaction has been lost, so that the home waits for its timeout (R462). -/
def State.lostOn (s : State) (r : LineRef) : Bool :=
  s.lostControl.any fun q => q.lines.contains r

/-- The acknowledgement that arrives next at its home: its way and those of the requests that wait for it are open; none of a transaction whose
control is lost (R460, R462). -/
def State.nextAck (s : State) (core : Nat) : Option DrainMsg :=
  s.drains.find? fun d =>
    d.core == core && d.acked && !s.lostOn d.line && s.homeWay core d.line &&
      (s.homeQ.filter fun g => g.draining && g.ref s == some d.line).all fun g => s.homeWay g.core d.line

/-- DRAIN_ACKNOWLEDGE: the record is cleared, unless a later release replaced it; the last acknowledgement performs the acquires that wait
(R229, R232). -/
def execDrainAcknowledge (core : Nat) (s : State) : Result :=
  match s.nextAck core with
  | none => .fault .noSubject
  | some d =>
    let t := { s with drains := s.drains.erase d, relRecs := s.relRecs.filter fun q => q != (d.line, d.core, d.epoch) }
    .next (if t.drains.any fun e => e.line == d.line then t else t.finishDrain d.line)

/-! ### Recalls, gathers, evictions, write-backs (R202, R203, R240, R244) -/

/-- RECALL: the core returns an Owned line to its home (R202, R236, R244). -/
def execRecall (core ctx obj line : Nat) (s : State) : Result :=
  let r : LineRef := ⟨ctx, obj, line, 0⟩
  if s.owners.contains (r, core) then .next (s.recallFrom core r true) else .fault .noSubject

/-- GATHER: a contributor returns and drops its partials of a range line (R240). -/
def execGather (core ctx obj line : Nat) (s : State) : Result :=
  match (s.core core).line? ctx obj line 2 none with
  | some l => .next (s.applyPartials core l)
  | none => .fault .noSubject

/-- The entries of an L1 for a line that can be evicted: not tentative (R234). -/
def Core.evictable (k : Core) (ctx obj line : Nat) : List L1Line :=
  k.lines.filter fun l => l.ctx == ctx && l.obj == obj && l.line == line && l.tent.isNone

/-- Evicts one entry: clean bytes are dropped; dirty bytes, an Owned line, partials go home in a write-back (R202, R240). -/
def State.evict (s : State) (core : Nat) (l : L1Line) : State :=
  match l.kind with
  | .clean => s.modCore core fun k => k.dropLine l
  | .const => s.modCore core fun k => k.dropLine l
  | _ => { s.modCore core (fun k => k.dropLine l) with writeBacks := s.writeBacks ++ [⟨core, l⟩] }

/-- L1_EVICTION (R202). -/
def execL1Eviction (core ctx obj line : Nat) (s : State) : Result :=
  match (s.core core).evictable ctx obj line with
  | [] => .fault .noSubject
  | l => .next (l.foldl (fun t e => t.evict core e) s)

/-- The ways that an entry takes in its set (R188, R239). -/
def State.waysOf (s : State) (l : L1Line) : Nat :=
  match l.kind with
  | .psum =>
    match (s.ctx? l.ctx).bind fun c => s.entry? c l.obj with
    | some e => match rangeWidth e.crty with
      | 2 => 6
      | 4 => 3
      | _ => 2
    | none => 2
  | _ => 1

/-- The oldest entry of an L1 whose set holds more than its 8 ways (R188). -/
def State.overfull (s : State) (core : Nat) : Option L1Line :=
  let ls := (s.core core).lines
  if ls.length ≤ 1 then none
  else ls.find? fun l => l.tent.isNone &&
    decide (8 < ((ls.filter fun m => l1Set m.ctx m.obj m.line == l1Set l.ctx l.obj l.line).map s.waysOf).sum)

/-- Whether a write-back can reach its home, and the home those whom it recalls (R460). -/
def State.backReady (s : State) (w : WriteBackMsg) : Bool :=
  match s.refHome w.line.ref with
  | some h => s.lineOpen w.core w.line.ref h
  | none => true

/-- WRITE_BACK: the oldest write-back whose way is open is applied at its home (R203). -/
def execWriteBack (s : State) : Result :=
  match s.writeBacks.find? s.backReady with
  | none => .fault .noSubject
  | some w => .next (({ s with writeBacks := s.writeBacks.erase w } : State).applyLine w.core w.line)

/-! ### Retests (R274, R275, R286, R287) -/

/-- What one test of WAITA finds. -/
inductive WatchTest where
  | passed
  | failed
  | fault (r : FaultRec)
  deriving DecidableEq, Repr

/-- The comparison of a WAITA (R273). -/
def watchCond (cond : Nat) (v d : Word) : Bool :=
  match cond with
  | 0 => v == d
  | 1 => v != d
  | _ => d.ule v

/-- A line as it stands at its home: the writes performed there, its bytes, the exact sums of a range, its poisoned granules. Beside the writes of
R274 it shows what the host and the reeves have changed. -/
def State.lineView (s : State) (ctx obj line : Nat) (h : PortHit) : LineView :=
  let base := h.addr - h.addr % 128
  let w := rangeWidth h.entry.crty
  { writes := (assoc s.homeWrites ⟨ctx, obj, line, if h.entry.lattice then h.homeDie + 1 else 0⟩).getD 0
    bytes := leNat (s.load base 128)
    sums := if h.entry.crty = 0 then [] else
      (List.range (128 / w)).map fun i => (128 / w * line + i, s.rangeSum h.entry ctx obj (128 * line + i * w))
    poison := (List.range 8).filter fun g => s.poison.contains (base / 16 + g) }

/-- What a test of a WAITA finds at the port. -/
def State.watchPort (s : State) (p : Plot) (w : WatchWait) : Except FaultCode PortHit :=
  s.port (dieOf p.core) p.ctx p.system w.kind w.obj rightR w.off

/-- One test of a WAITA at the line's home: the core's own dirty bytes go home first, an Owned copy is recalled, a range gathered; the fibre's own
tentative bytes are its latest writes (R223, R274, R275). -/
def State.watchTest (s : State) (p : Plot) (f : Fibre) (w : WatchWait) : State × WatchTest :=
  let fault (e : FaultCode) : WatchTest := .fault (.late e f.pc w.obj w.off 1 2)
  match s.watchPort p w with
  | .error e => (s, fault e)
  | .ok h =>
    let r : LineRef := ⟨p.ctx, w.obj, w.off / 128, if h.entry.lattice then dieOf p.core + 1 else 0⟩
    let t := ((s.ownBack p.core r).homeReady r (some p.core)).touchL2 r h false
    let t := if h.entry.crty ≠ 0 then t.gather r else t
    if t.poisoned h.addr 4 then (t, fault .poison)
    else
      let (t, bs) :=
        if h.entry.crty ≠ 0 then
          let (bs, g) := t.rangeLoad h.entry p.ctx w.obj w.off 4 f.pc.toNat f.fid
          (t.setFlags p.pid g, bs)
        else (t, t.load h.addr 4)
      let bs := t.overTentative p.core p.pid p.ctx w.obj w.off bs
      (t, if watchCond w.cond (BitVec.ofNat 32 (leNat bs)) w.cmp then .passed else .failed)

/-- The watch of a parked fibre whose plot runs. -/
def State.watchOf (s : State) (pid fid : Nat) : Option (Plot × Fibre × WatchWait) :=
  match s.plot? pid with
  | none => none
  | some p =>
    if p.halt.isSome then none
    else
      match p.fibre? fid with
      | none => none
      | some f =>
        match f.run with
        | .parked (.waita w) => some (p, f, w)
        | _ => none

/-- Whether a watch is tested now: it has not been tested yet, the line at its home has changed since its last test, 1,024 ccy have passed, or the
port refuses it; UNCACHED host lines take no watch. A test waits while a way that it takes is closed (R274, R460). -/
def State.watchDue (s : State) (pid fid : Nat) : Bool :=
  match s.watchOf pid fid with
  | none => false
  | some (p, _, w) =>
    match s.watchPort p w with
    | .error _ => true
    | .ok h =>
      let r : LineRef := ⟨p.ctx, w.obj, w.off / 128, 0⟩
      let woken := !(h.isHost && h.desc.home == 1) && w.seen != some (s.lineView p.ctx w.obj (w.off / 128) h)
      (w.seen.isNone || woken || decide (w.retest ≤ s.cycOf p.core)) && s.lineOpen p.core r h && s.backOpen p.core fun l => l.ref == r

/-- A failed test leaves a watch: what the line is now, and when the periodic test comes (R274). -/
def State.leaveWatch (s : State) (p : Plot) (fid : Nat) (w : WatchWait) : State :=
  match s.watchPort p w with
  | .error _ => s
  | .ok h => s.modFibre p.pid fid fun f =>
      { f with run := .parked (.waita { w with
          seen := some (s.lineView p.ctx w.obj (w.off / 128) h), retest := s.cycOf p.core + 1024 }) }

/-- WATCH_RETEST: a test of a parked WAITA; the fibre wakes, waits on under a watch, or its fault is reported (R274). -/
def execWatchRetest (pid fid : Nat) (s : State) : Result :=
  if !s.watchDue pid fid then .fault .noSubject
  else
    match s.watchOf pid fid with
    | none => .fault .noSubject
    | some (p, f, w) =>
      match s.watchTest p f w with
      | (t, .passed) => .next (t.wakePast pid fid w.size (t.cycOf p.core + 1))
      | (t, .failed) => .next (t.leaveWatch p fid w)
      | (t, .fault r) => .next (t.raise pid fid r)

/-- The lattice wait of a parked fibre whose plot runs. -/
def State.latWaitOf (s : State) (pid fid : Nat) : Option (Plot × Fibre × LatWait) :=
  match s.plot? pid with
  | none => none
  | some p =>
    if p.halt.isSome then none
    else
      match p.fibre? fid with
      | none => none
      | some f =>
        match f.run with
        | .parked (.ldlat w) => some (p, f, w)
        | _ => none

/-- Whether a test of a parked LDLAT would end its wait. -/
def State.latDue (s : State) (pid fid : Nat) : Bool :=
  match s.latWaitOf pid fid with
  | none => false
  | some (p, _, w) => s.latReady p w.cap w.obj w.off w.ty w.thr

/-- LDLAT_RETEST: a test of a parked LDLAT; the fibre whose test passes wakes, the cell that the test has found on its way (R286, R287,
R294). -/
def execLdlatRetest (pid fid : Nat) (s : State) : Result :=
  match s.latWaitOf pid fid with
  | none => .fault .noSubject
  | some (p, f, w) =>
    if s.latReady p w.cap w.obj w.off w.ty w.thr then
      let q : HomeReq :=
        { pid := pid, fid := fid, pc := f.pc, core := p.core, ctx := p.ctx, system := p.system, cap := w.cap, obj := w.obj, off := w.off,
          op := .latLoad w.ty w.acq w.dst (s.latCell p w.cap w.obj w.off w.ty w.thr) }
      .next ((s.sendAlone q).wakePast pid fid w.size (s.cycOf p.core + 1))
    else .next s

/-! ### Drops (R401) -/

/-- Whether a drop takes a line. -/
def Drop.takes (d : Drop) (line : Nat) : Bool :=
  d.page.all fun p => line / 512 == p

/-- The first drop of an object on its way to a core, whose write-backs find their ways (R401, R460). -/
def State.nextDrop (s : State) (core ctx obj : Nat) : Option Drop :=
  s.drops.find? fun d => d.core == core && d.ctx == ctx && d.obj == obj &&
    s.backOpen core fun l => l.ctx == ctx && l.obj == obj && d.takes l.line

/-- OBJECT_DROP: a core drops clean and constant lines of an object, or of a page of it, and the copies of its code, and writes the other lines
back (R401, R409). -/
def execObjectDrop (core ctx obj : Nat) (s : State) : Result :=
  match s.nextDrop core ctx obj with
  | none => .fault .noSubject
  | some d =>
    let t : State := { s with drops := s.drops.erase d }
    let mine := (t.core core).lines.filter fun l => l.ctx == ctx && l.obj == obj && l.tent.isNone && d.takes l.line
    .next ((mine.foldl (fun t l => t.evict core l) t).recallCode (· == core) ctx obj d.takes)

/-! ### Migration (R211 to R213, R299, R408) -/

/-- Copies 128 bytes of a line from one place to another, with tags and poison (R213, R262, R459). -/
def State.copyLine (s : State) (src dst : Nat) : State :=
  if src = dst then s
  else
    let tags := (List.range 8).filter fun g => s.tagAt (src + 16 * g)
    let bad := (List.range 8).filter fun g => s.poison.contains (src / 16 + g)
    let t := s.store dst (s.load src 128)
    let t := tags.foldl (fun t g => t.setTag (dst + 16 * g) true) t
    t.poisonGranules (bad.map (· + dst / 16))

/-- The migration of a page. -/
def State.migration? (s : State) (ctx obj page : Nat) : Option Migration :=
  s.migrations.find? fun m => m.ctx == ctx && m.obj == obj && m.page == page

/-- Where a migrating page's next line lies on a die, and where it goes (R211, R299). -/
def State.moveOf (s : State) (m : Migration) (e : Entry) (c : Ctx) (die : Nat) : PortHit × PortHit :=
  let hit (d : PageDesc) : PortHit := ⟨e, e.localDesc die d, (e.localDesc die d).lineAddr m.p⟩
  (hit (s.desc c m.obj e m.page), hit (PageDesc.ofNat m.newDesc.toNat))

/-- The dies on which an object's pages lie for a migration: a lattice page in each of its replicas (R299). -/
def Entry.moveDies (e : Entry) : List Nat :=
  if e.lattice then [0, 1, 2, 3] else [0]

/-- The context and entry of a migration's object. -/
def State.moving (s : State) (m : Migration) : Option (Ctx × Entry) :=
  (s.ctx? m.ctx).bind fun c => (s.entry? c m.obj).map fun e => (c, e)

/-- Whether the next line of a migration can be copied: the old home reaches the new one, and the owner of an Owned copy (R211, R460). -/
def State.moveOpen (s : State) (m : Migration) : Bool :=
  match s.moving m with
  | none => true
  | some (c, e) => e.moveDies.all fun d =>
      let z := s.moveOf m e c d
      s.wayOpen z.1.homeDie z.2.homeDie &&
        (s.owners.filter fun q => q.1 == ⟨m.ctx, m.obj, 512 * m.page + m.p, 0⟩).all fun q => s.wayOpen z.1.homeDie (dieOf q.2)

/-- A line moves from one home to another, out of the one's slice and into the other's (R20, R211). -/
def State.moveLine (s : State) (r : LineRef) (old new : PortHit) : State :=
  let t := s.copyLine old.addr new.addr
  if old.addr = new.addr then t
  else State.touchL2 { t with l2 := t.l2.filter fun l => l.slot != old.addr / 128 } r new true

/-- The line that a migration copies next goes to its new home, after any Owned copy of a core is recalled; the pointer advances (R211). The
registrations of the line, which name the line itself, go with it (R249). -/
def State.copyNext (s : State) (m : Migration) : State :=
  let step (t : State) : State :=
    { t with migrations := t.migrations.map fun n => if n == m then { n with p := n.p + 1 } else n }
  match s.moving m with
  | none => step s
  | some (c, e) =>
    let r : LineRef := ⟨m.ctx, m.obj, 512 * m.page + m.p, 0⟩
    let t := (s.owners.filter fun q => q.1 == r).foldl (fun t q => t.recallFrom q.2 r false) s
    step (e.moveDies.foldl (fun t d => t.moveLine { r with rep := if e.lattice then d + 1 else 0 } (s.moveOf m e c d).1 (s.moveOf m e c d).2) t)

/-- MIGRATION_LINE_COPY (R211). -/
def execMigrationLineCopy (ctx obj page : Nat) (s : State) : Result :=
  match s.migration? ctx obj page with
  | some m => if m.p < 512 ∧ s.moveOpen m then .next (s.copyNext m) else .fault .noSubject
  | none => .fault .noSubject

/-- MIGRATION_COMPLETE: the new descriptor, MIG clear, stands in object 0, with the page's WX as it is by now (R408). -/
def execMigrationComplete (ctx obj page : Nat) (s : State) : Result :=
  match s.migration? ctx obj page with
  | some m =>
    if m.p < 512 then .fault .noSubject
    else
      let t := s.setDesc ctx obj page fun d => { PageDesc.ofNat m.newDesc.toNat with wx := d.wx, mig := 0 }
      .next { t with migrations := t.migrations.erase m }
  | none => .fault .noSubject

/-! ### Publishing (R247, R278) -/

/-- Whether a publish must wait for its turn: for an earlier publish or withdrawal of one of its pages, or of its fibre, or for a page that
migrates (R248, R249, R271, R278). -/
def State.publishBlocked (s : State) (earlier : List Publish) (q : Publish) : Bool :=
  (q.pages.any fun p => s.migrating q.ctx q.obj p) ||
    earlier.any fun e => e.meets q.ctx q.obj q.pages || e.unpubl.isNone && e.pid == q.pid && e.fid == q.fid

/-- Whether the fibre's accesses before its PUBL are performed: the wait of FENCE.FRW (R225, R247). -/
def State.publishQuiet (s : State) (q : Publish) : Bool :=
  let mine (issue : Nat) (l : List HomeReq) : Bool := decide (issue < q.issue) && l.any fun z => z.of q.pid q.fid
  !(s.homeQ.any fun g => mine g.issue g.parts) && !(s.retries.any fun g => mine g.1.issue g.1.parts) &&
    !s.hostAtomics.any fun a => mine a.issue a.reqs

/-- The lines of a core that a publish writes back first. -/
def Publish.covers (q : Publish) (l : L1Line) : Bool :=
  l.ctx == q.ctx && l.obj == q.obj && q.todo.contains l.line

/-- Whether a publish can make its next step, its first one or the move of a line; the ways that it takes are open (R247, R460). -/
def State.publishReady (s : State) (q : Publish) : Bool :=
  if !q.started then s.publishQuiet q && s.backOpen q.core q.covers
  else
    match q.todo with
    | [] => false
    | l :: _ =>
      match s.refHome ⟨q.ctx, q.obj, l, 0⟩ with
      | some h => s.wayOpen q.die h.homeDie
      | none => true

/-- The first publish of a list, in the order of arrival, that can make its next step; earlier holds those before it. -/
def State.nextPublish (s : State) (earlier l : List Publish) : Option Publish :=
  match l with
  | [] => none
  | q :: rest =>
    if q.unpubl.isNone && !s.publishBlocked earlier q && s.publishReady q then some q else s.nextPublish (earlier ++ [q]) rest

/-- Step 1 and the first part of step 2 of a publish: the core's dirty bytes of the range go home, each W page of the range is publishing
(R247). -/
def State.startPublish (s : State) (q : Publish) : State :=
  let t := s.writeBackWhere q.core q.covers
  let due (pg : Nat) : Bool :=
    match (t.ctx? q.ctx).bind fun c => (t.entry? c q.obj).map fun e => t.desc c q.obj e pg with
    | some d => d.wx == 0
    | none => false
  (q.pages.filter due).foldl (fun u pg => u.setDesc q.ctx q.obj pg fun d => { d with wx := 2 }) t

/-- Moves one line of a publishing page to X; a page whose lines are all X is X (R247). -/
def State.lineToX (s : State) (ctx obj line : Nat) : State :=
  let page := line / 512
  match (s.ctx? ctx).bind fun c => (s.entry? c obj).map fun e => s.desc c obj e page with
  | none => s
  | some d =>
    if d.wx = 1 then s
    else
      let r : LineRef := ⟨ctx, obj, line, 0⟩
      let t : State := if s.xlines.contains r then s else { s with xlines := s.xlines ++ [r] }
      if 512 ≤ (t.xlines.filter fun l => l.ctx == ctx && l.obj == obj && l.line / 512 == page).length then t.pageToX ctx obj page else t

/-- Replaces a publish. -/
def State.setPublish (s : State) (q z : Publish) : State :=
  { s with publishes := s.publishes.map fun x => if x == q then z else x }

/-- PUBL_LINE_MOVE: a publish begins once its fibre's earlier accesses are performed, then moves one line after another, in ascending order
(R247, R278). -/
def execPublLineMove (s : State) : Result :=
  match s.nextPublish [] s.publishes with
  | none => .fault .noSubject
  | some q =>
    if !q.started then .next ((s.startPublish q).setPublish q { q with started := true })
    else
      match q.todo with
      | [] => .fault .noSubject
      | l :: rest => .next ((s.lineToX q.ctx q.obj l).setPublish q { q with todo := rest })

/-- PUBL_COMPLETE: the member's count is freed (R247, R278). -/
def execPublComplete (s : State) : Result :=
  match s.publishes.find? fun q => q.unpubl.isNone && q.started && q.todo.isEmpty with
  | none => .fault .noSubject
  | some q =>
    let t : State := { s with publishes := s.publishes.erase q }
    .next (if q.counted then t.giveStore q.pid (.done q.fid) else t)

/-! ### The host (R208, R209, R269, R283, R403, R459, R468) -/

/-- The host atomic that is performed next: the first whose core reaches the host port (R269, R460). -/
def State.nextHostAtomic (s : State) : Option HostAtomic :=
  s.hostAtomics.find? fun a => a.reqs.all fun q => s.wayOpen (dieOf q.core) 0

/-- HOST_ATOMIC_COMPLETION: one AtomicOp is performed at the host, then the next member's is sent (R269). -/
def execHostAtomicCompletion (s : State) : Result :=
  match s.nextHostAtomic with
  | none => .fault .noSubject
  | some a =>
    match a.reqs with
    | [] => .next { s with hostAtomics := s.hostAtomics.erase a }
    | q :: more =>
      let left := if more.isEmpty then s.hostAtomics.erase a else s.hostAtomics.map fun z => if z == a then { a with reqs := more } else z
      let t : State := { s with hostAtomics := left }
      match t.portOf q with
      | .error e => .next ((t.closeLog a.issue q.fid []).refuse q e)
      | .ok h =>
        match q.op with
        | .atom op ty d c dst => .next (t.farAtom q h a.issue op ty d c dst)
        | _ => .next t

/-- Whether a line of some context lies at an address, as a die's ports place it. -/
def State.liesAt (s : State) (die : Nat) (l : L1Line) (at_ : Nat) : Bool :=
  match s.place? die l.ctx l.obj (128 * l.line) with
  | some h => h.addr == at_
  | none => false

/-- The lines of host memory that a snoop concerns, by their addresses. -/
def snoopLines : HostSnoop → List Nat
  | .recall addr => [hostAddr (addr / 128 * 128)]
  | .write (.host a) bs _ => (linesOf a bs.length).map fun l => hostAddr (l.1 / 128 * 128)
  | .write _ _ _ => []

/-- Every L1 copy of a host line is recalled: its dirty bytes go home, the copy ends (R208). -/
def State.recallHost (s : State) (at_ : Nat) : State :=
  s.cores.foldl (fun t k =>
    let die := dieOf k.num
    let t := t.deliver k.num fun l => t.liesAt die l at_
    (k.lines.filter fun l => l.tent.isNone && s.liesAt die l at_).foldl (fun t l =>
      match l.kind with
      | .owned => t.recallFrom k.num l.ref false
      | .partialDirty => t.writeBackLine k.num l
      | .psum => t.applyPartials k.num l
      | _ => t.modCore k.num fun c => c.dropLine l) t) s

/-- Bytes that an agent outside the package writes to its memory, and how it answers reads of them (R445, R459, R475). -/
def State.writeSource (s : State) (a : Nat) (bs : List Byte) (poison : SourcePoison) : State :=
  let gs := granules a bs.length
  let t := s.store a bs
  let t : State := { t with poisonOnce := without t.poisonOnce gs }
  match poison with
  | .clean => t
  | .poisoned => t.poisonGranules gs
  | .once => { t.poisonGranules gs with poisonOnce := withAll t.poisonOnce gs }

/-- HOST_SNOOP: the host agent recalls every L1 copy of a host line; the host, or the holder of a source, writes bytes of its own memory (R208, R445,
R459). -/
def execHostSnoop (addr : HostSnoop) (s : State) : Result :=
  let t := (snoopLines addr).foldl State.recallHost s
  match addr with
  | .recall _ => .next t
  | .write at_ bs poison => .next (t.writeSource (sourceAt at_) bs poison)

/-- A page of device memory that the host may reach over CXL.mem (R209). -/
def PortHit.exposed (h : PortHit) : Bool :=
  h.desc.home != 3 && h.desc.place != 3

/-- HOST_MEM_READ: the home serves it after recalls and gathers; a lattice object reads replica 0; before READY the answer is poison (R209,
R240, R283, R459, R468). -/
def execHostMemRead (ctx obj off size : Nat) (s : State) : Result :=
  if !s.status.ready then .next (s.report (.hostRead [] true))
  else if (linesOf off size).any fun l => !(s.place? 0 ctx obj l.1).any (·.exposed) then .fault .noSubject
  else
    let t := s.readyLines ctx obj off size
    let bs := (linesOf off size).flatMap fun l =>
      match t.place? 0 ctx obj l.1 with
      | some h => if h.entry.crty ≠ 0 then (t.rangeLoad h.entry ctx obj l.1 l.2 0 0).1 else t.load h.addr l.2
      | none => []
    let bad := (linesOf off size).any fun l =>
      match t.place? 0 ctx obj l.1 with
      | some h => t.poisoned h.addr l.2
      | none => false
    .next (t.report (.hostRead bs bad))

/-- One line's part of a host write; a sealed object takes none (R209,
R240, R283, R399, R402, R403, R459). -/
def State.hostPut (s : State) (ctx obj off : Nat) (bs : List Byte) (poison : Bool) : State :=
  match s.place? 0 ctx obj off with
  | none => s
  | some h =>
    if h.entry.lattice then s.logError 0 13 1 0 (some ctx) obj (off - off % 128)
    else if s.lineIsX ctx obj off h then s.logError 0 14 1 0 (some ctx) obj (off - off % 128)
    else if h.entry.sealed then s.logError 0 12 1 0 (some ctx) obj (off - off % 128)
    else
      let t := s.readyLines ctx obj off bs.length
      let t := if h.entry.crty ≠ 0 then (t.rangeStore h.entry ctx obj off h.addr bs).1 else t.homeStore ctx obj off h.addr bs
      if poison then t.poisonGranules (granules h.addr bs.length) else t

/-- HOST_MEM_WRITE: the home serves it line by line; before READY it has no effect (R209, R459, R468). -/
def execHostMemWrite (ctx obj off : Nat) (bytes : List Byte) (poison : Bool) (s : State) : Result :=
  if !s.status.ready then .next s
  else if (linesOf off bytes.length).any fun l => !(s.place? 0 ctx obj l.1).any (·.exposed) then .fault .noSubject
  else .next ((linesOf off bytes.length).foldl (fun t l => t.hostPut ctx obj l.1 ((bytes.drop (l.1 - off)).take l.2) poison) s)

/-! ### Power gating of a core (R233) -/

/-- CORE_POWER_GATE: a core without plots writes everything back and is gated; one that is gated wakes when a plot needs it (R233). -/
def execCorePowerGate (core : Nat) (s : State) : Result :=
  if s.plots.any fun p => p.core == core then .fault .noSubject
  else
    let t := s.flushCore core
    let t := (t.owners.filter fun q => q.2 == core).foldl (fun t q => t.recallFrom core q.1 false) t
    let t := t.modCore core fun k => { k with lines := [], icache := [], loopBuf := [], gated := true }
    .next { t with readers := t.readers.filter fun q => q.2 != core }

/-! ### Host accesses and routes (R14, R23, R460) -/

/-- Whether a host access must wait: it is routed over a boundary that retrains. It enters at die 0 (R23, R460). -/
def State.hostShut (s : State) (i : Instr) : Bool :=
  let shut (ctx obj off n : Nat) : Bool :=
    (linesOf off n).any fun l =>
      match s.place? 0 ctx obj l.1 with
      | some h => !s.lineOpenFrom 0 ⟨ctx, obj, l.1 / 128, if h.entry.lattice then 1 else 0⟩ h
      | none => false
  match i with
  | .hostMemRead ctx obj off size => shut ctx obj off size
  | .hostMemWrite ctx obj off bytes _ => shut ctx obj off bytes.length
  | .hostSnoop addr => s.cores.any fun k => !s.wayOpen 0 (dieOf k.num) && k.lines.any fun l => (snoopLines addr).any fun a => s.liesAt (dieOf k.num) l a
  | .corePowerGate core => !s.backOpen core fun _ => true
  | _ => false

end Sys2Proof.Machine
end

