-- ==== Sys2Proof/Machine/Exchange.lean ====
section
/-! DEFINITION. The exchange agents of the dies: ticks, shipments, merges (R282, R290 to R293, R299). -/

namespace Sys2Proof.Machine

/-- How an object stands in an agent's tables. -/
def objRef (ctx obj : Nat) : LineRef :=
  ⟨ctx, obj, 0, 0⟩

/-- A lattice object's entry (R281, R282). -/
def State.latticeEntry (s : State) (ctx obj : Nat) : Option Entry :=
  ((s.ctx? ctx).bind fun c => s.entry? c obj).filter fun e => e.lattice

/-- The period of an object's schedule in ccy (R291). -/
def Entry.period (e : Entry) : Nat :=
  256 * (e.per + 1)

/-- The successor of a die on the ring 0, 1, 3, 2 (R291). -/
def ringNext (die : Nat) : Nat :=
  match die with
  | 0 => 1
  | 1 => 3
  | 3 => 2
  | _ => 0

/-- The partner of a die in a round (R291). -/
def pairOf (die round : Nat) : Nat :=
  match round % 3 with
  | 0 => die ^^^ 1
  | 1 => die ^^^ 2
  | _ => die ^^^ 3

/-- The dies that a tick ships to (R291). -/
def shipsTo (e : Entry) (die round : Nat) : List Nat :=
  match e.sched with
  | 0 => [ringNext die]
  | 1 => [pairOf die round]
  | 2 => [0, 1, 2, 3].filter (· != die)
  | _ => []

/-- The release that a line carries is drained before its shipment: every recorded core, then the records are cleared (R293). -/
def State.drainRecords (s : State) (r : LineRef) : State :=
  let recs := s.relRecs.filter fun q => q.1 == r
  let t := recs.foldl (fun t q => t.drainCore q.2.1 q.2.2) s
  { t with relRecs := t.relRecs.filter fun q => !recs.contains q }

/-- Ships one line of a die's replica to a die, and clears its changed bit for it (R290). -/
def State.shipLine (s : State) (die dest : Nat) (r : LineRef) : State :=
  let t := s.drainRecords r
  let t := t.modDie die fun d => { d with changed := d.changed.filter fun q => q != (r, dest) }
  match t.place? die r.ctx r.obj (128 * r.line) with
  | none => t
  | some h =>
    let bad := (List.range 8).filter fun g => t.poison.contains (h.addr / 16 + g)
    { t with ships := t.ships ++ [⟨dest, ⟨r.ctx, r.obj, r.line, dest + 1⟩, t.load h.addr 128, bad, die⟩] }

/-- Ships every changed line of an object to a die, in ascending line order (R290). -/
def State.shipChanged (s : State) (die ctx obj dest : Nat) : State :=
  let mine := (s.die die).changed.filter fun q => q.1.ctx == ctx && q.1.obj == obj && q.2 == dest
  (sortBy (·.line) (mine.map (·.1))).foldl (fun t r => t.shipLine die dest r) s

/-- The lines of an object in a die's push queue (R291). -/
def State.pushed (s : State) (die ctx obj : Nat) : List LineRef :=
  (s.die die).pushq.filter fun r => r.ctx == ctx && r.obj == obj

/-- Whether an agent has something to do for an object now: its first sight of it, its tick, a line of its push queue. -/
def State.tickDue (s : State) (die ctx obj : Nat) : Bool :=
  match s.latticeEntry ctx obj with
  | none => false
  | some e =>
    (match assoc (s.die die).lastTick (objRef ctx obj) with
      | none => true
      | some t => decide (t + e.period ≤ (s.die die).cyc)) || !(s.pushed die ctx obj).isEmpty

/-- An agent's tick for an object: the round advances, the changed lines leave for the schedule's dies (R290, R291). -/
def State.tickObject (s : State) (die ctx obj : Nat) (e : Entry) : State :=
  let k := objRef ctx obj
  let round := (assoc (s.die die).rounds k).getD 0
  let t := s.modDie die fun d => { d with lastTick := assocSet d.lastTick k d.cyc, rounds := assocSet d.rounds k (round + 1) }
  (shipsTo e die round).foldl (fun t dest => t.shipChanged die ctx obj dest) t

/-- The push of an agent's queued lines of an object to all three other dies (R291). -/
def State.pushObject (s : State) (die ctx obj : Nat) : State :=
  let mine := s.pushed die ctx obj
  let t := s.modDie die fun d => { d with pushq := d.pushq.filter fun r => !mine.contains r }
  mine.foldl (fun t r => ([0, 1, 2, 3].filter (· != die)).foldl (fun t dest =>
    if (t.die die).changed.contains (r, dest) then t.shipLine die dest r else t) t) t

/-- EXCHANGE_TICK (R290, R291). -/
def execExchangeTick (die ctx obj : Nat) (s : State) : Result :=
  match s.latticeEntry ctx obj with
  | none => .fault .noSubject
  | some e =>
    if !(s.dies.any fun d => d.num == die) || !s.tickDue die ctx obj then .fault .noSubject
    else
      match assoc (s.die die).lastTick (objRef ctx obj) with
      | none => .next (s.modDie die fun d =>
          { d with lastTick := assocSet d.lastTick (objRef ctx obj) d.cyc, rounds := assocSet d.rounds (objRef ctx obj) 0 })
      | some t =>
        if t + e.period ≤ (s.die die).cyc then .next (s.tickObject die ctx obj e) else .next (s.pushObject die ctx obj)

/-- Merges the cells of one granule; the state, and whether a cell rose (R290). GCNT joins slot by slot. -/
def State.mergeGranule (s : State) (ty a : Nat) (bs : List Byte) : State × Bool :=
  let n := if ty = 6 then 8 else latSize ty
  let jt := if ty = 6 then 2 else ty
  (List.range (16 / n)).foldl (fun (acc : State × Bool) i =>
    let old := acc.1.loadNat (a + n * i) n
    let new := latJoin jt old (leNat ((bs.drop (n * i)).take n))
    if new = old then acc else (acc.1.storeNat (a + n * i) n new, true)) (s, false)

/-- Merges a shipped line into its replica (R290). -/
def State.mergeLine (s : State) (x : Shipment) : State :=
  match s.place? x.dest x.line.ctx x.line.obj (128 * x.line.line) with
  | none => s
  | some h =>
    let (t, rose, bad) := (List.range 8).foldl (fun (acc : State × Bool × Bool) g =>
      let a := h.addr + 16 * g
      if x.poison.contains g || acc.1.poison.contains (a / 16) then (acc.1.poisonGranules [a / 16], acc.2.1, true)
      else
        let r := acc.1.mergeGranule h.entry.latType a ((x.bytes.drop (16 * g)).take 16)
        (r.1, acc.2.1 || r.2, acc.2.2)) (s, false, false)
    let t := t.touchL2 x.line h true
    let t := if rose then t.markChanged x.dest h.entry x.line false else t
    if bad then t.logError x.dest 18 1 0 (some x.line.ctx) x.line.obj (128 * x.line.line) else t

/-- The home at which a shipment is merged. -/
def State.mergeHome (s : State) (x : Shipment) : Nat :=
  match s.place? x.dest x.line.ctx x.line.obj (128 * x.line.line) with
  | some h => h.homeNum
  | none => 0

/-- The shipment that is merged next: the oldest that reaches its die, at a home that has merged none in the last 64 ccy (R290, R338, R460). -/
def State.nextMerge (s : State) : Option Shipment :=
  s.ships.find? fun x =>
    s.reaches x.src x.dest &&
      match assoc s.merges (s.mergeHome x) with
      | some t => decide (t + 64 ≤ s.now)
      | none => true

/-- LATTICE_MERGE: a shipment is merged at its home (R290). -/
def execLatticeMerge (s : State) : Result :=
  match s.nextMerge with
  | none => .fault .noSubject
  | some x =>
    .next (({ s with ships := s.ships.erase x, merges := assocSet s.merges (s.mergeHome x) s.now } : State).mergeLine x)

/-- The lattice objects that an agent looks after, of every context. -/
def State.latticeObjects (s : State) : List (Nat × Nat) :=
  s.ctxs.flatMap fun c => ((List.range c.otne.toNat).filter fun o => (s.latticeEntry c.num o).isSome).map fun o => (c.num, o)

end Sys2Proof.Machine
end

