-- ==== Sys2Proof/Machine/Save.lean ====
section
/-! DEFINITION. Saving and restoring plots: the save image, SAVE, RESTORE, drains that become saves, context switches, the save pool (R435 to
R444). -/

namespace Sys2Proof.Machine

/-! ### The save image (R438 to R440) -/

/-- Where the images of a context's save pool lie (log entry 4). -/
def poolAddr (ctx : Nat) : Nat :=
  2 ^ 61 + ctx * 2 ^ 50

/-- The next multiple of 256. -/
def up256 (n : Nat) : Nat :=
  (n + 255) / 256 * 256

/-- The stride of fibre records: 256 + 32·WIN (R438). -/
def fibreStride (window : Nat) : Nat :=
  256 + 4 * window

/-- The offset of the scratchpad region of an image. -/
def scratchRegion (p : Plot) : Nat :=
  up256 (0x4800 + fibreStride p.window * p.fibres.length)

/-- The offset of the halt frame of an image. -/
def frameRegion (p : Plot) (hold : Bool) : Nat :=
  up256 (scratchRegion p + p.ssize) + if hold then 720896 else 0

/-- The size of an image (R438). -/
def imageSize (p : Plot) (hold halted : Bool) : Nat :=
  frameRegion p hold + if halted then frameSize else 0

/-- The PARK code of a wait (R440). -/
def Park.code : Park → Nat
  | .waita _ => 1
  | .barw _ _ _ => 2
  | .ldlat _ => 3
  | .ldlayer _ _ => 4
  | .uniformResult _ => 5
  | .openLimit _ => 6
  | .counter _ => 7
  | .setClose _ => 8
  | .wait _ _ _ _ => 9
  | .ownBarinit _ => 10

/-- The header of an image (R439). -/
def imageHeader (p : Plot) (scyc : Nat) (hold halted esc : Bool) : Nat :=
  scyc + p.plot * 2 ^ 64 + p.fld * 2 ^ 88 + p.ctx * 2 ^ 104 + p.prio * 2 ^ 110 + p.window / 8 * 2 ^ 113 + p.fibres.length * 2 ^ 117 +
    p.ssize / 256 * 2 ^ 128 + hold.toNat * 2 ^ 140 + halted.toNat * 2 ^ 141 + esc.toNat * 2 ^ 142 + p.disc * 2 ^ 144 +
    p.flg.toNat * 2 ^ 160 + p.step.toNat * 2 ^ 192 + p.rcnt * 2 ^ 224

/-- Bits 1024 and above of a fibre record, from bit 0 (R440). -/
def fibreBits (f : Fibre) (bound : Bool) : Nat :=
  let lc (i : Nat) : Nat :=
    let c := f.lc.getD i ⟨0, 0, 0, 0⟩
    c.count.toNat + c.addr.toNat * 2 ^ 32
  let (park, slot) := match f.run with
    | .parked w => (w.code, 0)
    | .held j => (0, j)
    | _ => (0, 0)
  f.pc.toNat + f.preds.toNat * 2 ^ 40 + f.fid * 2 ^ 47 + f.stateCode * 2 ^ 57 + park * 2 ^ 59 + slot * 2 ^ 63 + bound.toNat * 2 ^ 67 +
    f.copies * 2 ^ 80 + f.engine * 2 ^ 84 + f.pathd.toNat * 2 ^ 88 + (lc 0 + lc 1 * 2 ^ 72 + lc 2 * 2 ^ 144) * 2 ^ 152 +
    ((List.range 8).foldl (fun n c => n + f.seq.getD c 0 * 2 ^ (16 * c)) 0) * 2 ^ 368

/-- Stores a capability as a tagged granule. -/
def State.storeCap (s : State) (a : Nat) (c : Cap) : State :=
  (s.store a (leBytes 16 c.bits.toNat)).setTag a c.tag

/-- The capability of a granule. -/
def State.loadCap (s : State) (a : Nat) : Cap :=
  ⟨BitVec.ofNat 128 (s.loadNat a 16), s.tagAt a⟩

/-- Writes a run of capabilities. -/
def State.storeCaps (s : State) (a : Nat) (cs : List Cap) : State :=
  (cs.foldl (fun (acc : State × Nat) c => (acc.1.storeCap acc.2 c, acc.2 + 16)) (s, a)).1

/-- The layer reference list as 16 entries of 16 bytes: crop, layer, multiplicity in 32-bit words. -/
def layerBytes (l : List LayerRef) : List Byte :=
  l.flatMap fun r => leBytes 4 r.crop ++ leBytes 4 r.layer ++ leBytes 8 r.mult

/-- Writes a fibre's record. -/
def State.writeFibre (s : State) (a : Nat) (f : Fibre) (bound : Bool) : State :=
  let t := (s.storeCaps a f.a).store (a + 128) (leBytes 128 (fibreBits f bound))
  t.store (a + 256) (f.v.flatMap fun w => leBytes 4 w.toNat)

/-- Writes cells into a memory, those from one address on at another. -/
def moveCells (m : List Host.Cell) (cells : List Host.Cell) (src dst : Nat) : List Host.Cell :=
  cells.foldl (fun m c => Memory.write m (dst + (c.1 - src)) c.2) m

/-- Writes the regions of an image that R438 gives a layout; the opaque regions are the part's own and stay zero here. -/
def State.writeImage (s : State) (v : SavedPlot) (core : Nat) (hold esc : Bool) : State :=
  let p := v.plot
  let t := s.clearBytes v.at_ v.size
  let t := t.store v.at_ (leBytes 32 (imageHeader p (s.cycOf core) hold v.frame.isSome esc))
  let t := t.store (v.at_ + 0x100) (p.k.flatMap fun w => leBytes 4 w.toNat)
  let t := t.storeCaps (v.at_ + 0x200) p.b
  let t := t.store (v.at_ + 0x300) (layerBytes p.layers)
  let bound (fid : Nat) : Bool := v.bound.any fun fu => fu.lanes.any fun l => l.2 == fid
  let (t, _) := (sortBy (·.fid) p.fibres).foldl (fun (acc : State × Nat) f =>
    (acc.1.writeFibre acc.2 f (bound f.fid), acc.2 + fibreStride p.window)) (t, v.at_ + 0x4800)
  let lo := scratchAddr core + p.sbase
  let cells := s.mem.filter fun c => decide (lo ≤ c.1 ∧ c.1 < lo + p.ssize)
  let m := moveCells t.mem cells lo (v.at_ + scratchRegion p)
  { t with mem := moveCells m (v.frame.getD []) 0 (v.at_ + frameRegion p hold) }

/-- The lowest free address of a context's pool for an image, if its pool has room. -/
def Ctx.poolHole (c : Ctx) (size : Nat) : Option Nat :=
  let taken := c.saved.map fun v => (v.at_ - poolAddr c.num, v.size)
  (scratchHole taken c.savePool size).map fun b => poolAddr c.num + b

/-! ### SAVE (R435 to R437) -/

/-- Whether a plot's save is due: its stop is complete, or its halt waits for the handler, the debugger or the host (R435, R436). Its image
goes to the pool in die 0's memory (R460; log entry 4). -/
def State.saveDue (s : State) (p : Plot) : Bool :=
  (match p.halt, p.intent with
    | some h, some (.save _) => h.phase == .saving || h.phase == .queued || h.phase == .escalated || h.phase == .debugger
    | _, _ => false) && !s.unloaded p && s.wayOpen (dieOf p.core) 0 && s.backOpen p.core fun _ => true

/-- The cells of a halt frame at an address, by offset. -/
def State.frameCells (s : State) (a : Nat) : List Host.Cell :=
  (s.mem.filter fun c => decide (a ≤ c.1 ∧ c.1 < a + frameSize)).map fun c => (c.1 - a, c.2)

/-- Cycles of a join slot as what has passed up to a cycle, or the other way about (R9, R414). -/
def JSlot.turn (x : JSlot) (from_ : Nat) : JSlot :=
  { x with start := x.start.map (from_ - ·), arrived := x.arrived.map fun q => (q.1, from_ - q.2) }

/-- Timers and progress of a saved plot hold what has passed, since the counter of the die that restores it is another (R9, R414, R432). -/
def Plot.elapsed (p : Plot) (from_ : Nat) : Plot :=
  { p with j := p.j.map (·.turn from_), progress := p.progress.map fun q => (from_ - q.1, q.2) }

/-- What a save keeps of a plot, with the frame of a halted one. -/
def State.savedOf (s : State) (p : Plot) (h : Halt) (frame : Option (List Host.Cell)) (at_ : Nat) (hold : Bool) : SavedPlot :=
  let k := s.core p.core
  let mine (d : Cmd) : Bool := d.pid == p.pid
  let lo := scratchAddr p.core + p.sbase
  { plot := { p.elapsed h.since with intent := none, drainBy := none }
    mat := if k.mat.holder = some p.pid then some k.mat.st else assoc k.restoring p.pid
    queued := (sortBy (·.order) (k.mat.queue ++ k.wainQueue) ++ k.cmdWait).filter mine
    bins := (k.bins.filter fun b => b.pid == p.pid).map fun b => { b with start := h.since - b.start }
    bound := k.furrows.filter fun fu => fu.pid == p.pid && fu.bound
    poison := (s.poison.filter fun g => decide (lo ≤ 16 * g ∧ 16 * g < lo + p.ssize)).map fun g => g - lo / 16
    frame := frame, at_ := at_, size := imageSize p hold frame.isSome, order := s.nextOrder, placed := none, refused := false }

/-- The save of a plot whose stop is complete: its region commits, dirty lines go home, the image is written, its resources are freed; it is
not saved where the pool lacks room, and then resumes in place or stays halted (R435, R437). -/
def State.savePlot (s : State) (p : Plot) (h : Halt) (code : Nat) : State :=
  let t := ((s.commit p.pid).flushCore p.core).bumpEpoch p.core
  match t.plot? p.pid, t.ctx? p.ctx with
  | some p, some c =>
    let k := t.core p.core
    let hold := k.mat.holder == some p.pid || (assoc k.restoring p.pid).isSome
    let halted := h.phase != .saving
    match c.poolHole (imageSize p hold halted) with
    | none =>
      let u := (t.modPlot p.pid fun q => { q with intent := none, drainBy := none }).report (.preempted p.ctx p.fld p.plot 5)
      if halted then u else u.resumePlot p.pid none
    | some a =>
      let frame := if !halted then none
        else if h.phase = .queued ∧ !h.framed then some ((t.writeFrame (copyAddr p.pid) p h).frameCells (copyAddr p.pid))
        else some (t.frameCells (copyAddr p.pid))
      let v := t.savedOf p h frame a hold
      let u := (t.writeImage v p.core hold (h.phase == .escalated)).forgetPlot p
      let u : State := { u with
        ctxs := u.ctxs.map fun d => if d.num == p.ctx then { d with saved := d.saved ++ [v] } else d
        nextOrder := u.nextOrder + 1 }
      u.report (.preempted p.ctx p.fld p.plot code)
  | _, _ => t

/-- SAVE (R435). -/
def execSave (pid : Nat) (s : State) : Result :=
  match s.plot? pid with
  | none => .fault .noSubject
  | some p =>
    if !s.saveDue p then .fault .noSubject
    else
      match p.halt, p.intent with
      | some h, some (.save code) => .next (s.savePlot p h code)
      | _, _ => .fault .noSubject

/-! ### RESTORE (R441) -/

/-- The saved plot of a handle. -/
def State.saved? (s : State) (pid : Nat) : Option SavedPlot :=
  (s.ctxs.flatMap (·.saved)).find? fun v => v.plot.pid == pid

/-- The furrow slots of a core that are free in a ccy (R35, R37). -/
def Core.freeSlots (k : Core) (now : Nat) : List (Nat × Nat) :=
  (List.range 64).filterMap fun n => if k.slotFree now (n / 16) (n % 16) then some (n / 16, n % 16) else none

/-- Whether a header keeps the limits of R17 on fibres, window, register file and scratchpad (R438, R439). A plot whose last fibre has exited while
its commands run on is saved without fibres (R433; log entry 50). -/
def headerLawful (w : Nat) : Bool :=
  let nfib := field w 117 11
  let win := field w 113 4
  decide (nfib ≤ 1024 ∧ 1 ≤ win ∧ win ≤ 12 ∧ 8 * win * nfib ≤ 131072 ∧ field w 128 12 ≤ 2048)

/-- The bytes of a halt frame that software may write: FLG in the header, RPC, RV, RVR and WRV in a record (R418, R419). -/
def frameRw (o : Nat) : Bool :=
  if o < 256 then decide (17 ≤ o ∧ o < 21)
  else
    let r := (o - 256) % 32
    decide (9 ≤ r ∧ r < 14) || decide (27 ≤ r)

/-- The opaque regions of an image, each as an offset and a size (R438). -/
def opaqueRegions (v : SavedPlot) : List (Nat × Nat) :=
  let at_ := up256 (scratchRegion v.plot + v.plot.ssize)
  [(0x400, 0x4400), (at_, frameRegion v.plot v.mat.isSome - at_)]

/-- Whether the opaque regions of an image are as the save has left them (R438; log entry 15). -/
def State.opaqueIntact (s : State) (v : SavedPlot) : Bool :=
  (opaqueRegions v).all fun r => s.mem.all fun c => !decide (v.at_ + r.1 ≤ c.1 ∧ c.1 < v.at_ + r.1 + r.2)

/-- A fibre as its image record holds it: the v registers from the image; the rest of the record is read only and stays as it was saved
(R10, R440, R441). -/
def State.readFibre (s : State) (a : Nat) (f : Fibre) : Fibre :=
  { f with v := (List.range f.v.length).map fun i => BitVec.ofNat 32 (s.loadNat (a + 256 + 4 * i) 4) }

/-- The fibres of an image, in the order of the plot. -/
def State.readFibres (s : State) (v : SavedPlot) : List Fibre :=
  let order := (sortBy (·.fid) v.plot.fibres).map (·.fid)
  v.plot.fibres.map fun f =>
    s.readFibre (v.at_ + 0x4800 + fibreStride v.plot.window * ((order.findIdx? (· == f.fid)).getD 0)) f

/-- The bounds of a loop's body, read again from the LOOP word; a word that is no LOOP any more leaves them (R350). -/
def State.reloop (s : State) (p : Plot) (c : LoopCtr) : LoopCtr :=
  if c.count = 0 then c
  else
    match s.fetch p c.addr with
    | .error _ => c
    | .ok (w0, w1) =>
      match decodeWords w0 w1 with
      | .ok (.loop x, _) => { c with first := c.addr + BitVec.ofNat 40 (sizeOf x.p), last := c.addr + BitVec.ofNat 40 (4 * uimm x.p 15 x.fin.toNat) }
      | _ => c

/-- The run states of a restored plot's fibres: ready, or in its bound furrow; waits, held and binned fibres as they were, their ages counted
from the restore (R441; DESIGN CHOICE, log entry 43). -/
def Fibre.restored (f : Fibre) (bound : Bool) (now wbase : Nat) : Fibre :=
  let f := { f with wbase := wbase, flight := false }
  match f.run with
  | .ready _ => { f with run := .ready now, readyAt := now }
  | .inFurrow => if bound then { f with readyAt := now } else { f with run := .ready now, readyAt := now }
  | .held j => { f with run := .held j, readyAt := now }
  | r => { f with run := r, readyAt := now }

/-- Loads a saved plot on the core where it has been placed (R441). The age of a held fibre counts from the restore (DESIGN CHOICE, log entry
43); FLG comes without its reserved bits (R4, R74). Of a halt frame the image gives the fields that software may write (R10, R418, R419). -/
def State.loadImage (s : State) (v : SavedPlot) (q : Plot) : State :=
  let p := v.plot
  let core := q.core
  let now := s.cycOf core + 1
  let k := s.core core
  let slots := (k.freeSlots (s.cycOf core)).take v.bound.length
  let bound := (v.bound.zip slots).map fun z => { z.1 with core := core, quad := z.2.1, slot := z.2.2, since := now, promoted := false, waiting := none }
  let inBound (fid : Nat) : Bool := v.bound.any fun fu => fu.lanes.any fun l => l.2 == fid
  let fibres := (s.readFibres v).map fun f =>
    { f.restored (inBound f.fid) now ((assoc q.windows f.fid).getD 0) with lc := f.lc.map (s.reloop { p with core := core }) }
  let halt := p.halt.map fun h => { h with since := now, framed := true }
  let plot : Plot :=
    { p with
      core := core, sbase := q.sbase, windows := q.windows, order := q.order, fibres := fibres
      flg := BitVec.ofNat 32 (field (s.loadNat v.at_ 32) 160 6)
      k := (List.range 64).map fun i => BitVec.ofNat 32 (s.loadNat (v.at_ + 0x100 + 4 * i) 4)
      b := (List.range 16).map fun i => s.loadCap (v.at_ + 0x200 + 16 * i)
      c := p.c.map CSet.restart
      j := p.j.map fun x => { x.turn now with held := x.held.map fun z => (z.1, now) }
      progress := p.progress.map fun z => (now - z.1, z.2)
      halt := if v.frame.isSome then halt else none }
  let lo := scratchAddr core + q.sbase
  let t := s.clearBytes lo p.ssize
  let src := v.at_ + scratchRegion p
  let cells := s.mem.filter fun c => decide (src ≤ c.1 ∧ c.1 < src + p.ssize)
  let t : State := { t with mem := moveCells t.mem cells src lo }
  let t := t.poisonGranules (v.poison.map (· + lo / 16))
  let t := (t.setPlot plot).modCore core fun k =>
    let k := slots.foldl (fun k z => k.dropFurrow z.1 z.2) k
    let k := { k with furrows := k.furrows ++ bound, cmdWait := k.cmdWait ++ v.queued }
    match v.mat with
    | none => k
    | some m =>
      if k.mat.holder.isNone && k.restoring.isEmpty then { k with mat := { k.mat with holder := some p.pid, st := m } }
      else { k with restoring := k.restoring ++ [(p.pid, m)] }
  let t := v.bins.foldl (fun t b =>
    let t := if 32 ≤ (t.core core).bins.length then
        (match minBy? (t.core core).bins (·.order) with
        | some o => t.releaseBin core o
        | none => t)
      else t
    t.modCore core fun k => { k with bins := k.bins ++ [{ b with start := now - b.start }] }) t
  let t : State := { t with ctxs := t.ctxs.map fun c => { c with saved := c.saved.filter fun w => w.plot.pid != p.pid } }
  let t := (t.clearBytes v.at_ v.size).invalidate core
  match v.frame with
  | none => t.retestParks p.pid
  | some cells =>
    let t := t.clearBytes (copyAddr p.pid) frameSize
    let image := s.frameCells (v.at_ + frameRegion p v.mat.isSome)
    let cells := (cells.filter fun c => !frameRw c.1) ++ image.filter fun c => frameRw c.1
    let t : State := { t with mem := moveCells t.mem cells 0 (copyAddr p.pid) }
    if p.halt.any fun h => h.phase == .queued then t.queueHandler plot else t

/-- Whether a placed plot's image can be loaded: its bound furrows find slots, and the image in die 0's memory reaches its core (R42, R441, R460). -/
def State.restoreDue (s : State) (pid : Nat) : Option (SavedPlot × Plot) :=
  match s.saved? pid, s.plot? pid with
  | some v, some q =>
    if v.placed.isSome && s.wayOpen (dieOf q.core) 0 && decide (v.bound.length ≤ ((s.core q.core).freeSlots (s.cycOf q.core)).length) then some (v, q) else none
  | _, _ => none

/-- Refuses an image: the plot stays saved (R438). -/
def State.refuseImage (s : State) (v : SavedPlot) : State :=
  let t := s.modCore (v.placed.getD 0) fun k => k.forget v.plot.pid
  let t : State := { t with
    plots := t.plots.filter fun p => p.pid != v.plot.pid
    ctxs := t.ctxs.map fun c => { c with saved := c.saved.map fun w =>
      if w.plot.pid == v.plot.pid then { w with placed := none, refused := true } else w } }
  t.report (.restoreRefused v.plot.ctx v.plot.fld v.plot.plot)

/-- RESTORE (R438, R441); a request that met the plot while it was being restored takes effect then. -/
def execRestore (pid : Nat) (s : State) : Result :=
  match s.restoreDue pid with
  | none => .fault .noSubject
  | some (v, q) =>
    if headerLawful (s.loadNat v.at_ 32) && s.opaqueIntact v then
      let t := s.loadImage v q
      .next (match q.intent with
        | some (.waiting until_) => t.preemptPlot pid until_
        | _ => t)
    else .next (s.refuseImage v)

/-! ### Context switches and the pool (R435, R444) -/

/-- CONTEXT_SWITCH: every plot of the context is pre-empted, and no record of its lists is taken (R444). -/
def execContextSwitch (ctx lb : Nat) (s : State) : Result :=
  match s.ctx? ctx with
  | none => .fault .noSubject
  | some c => if maxBudget < lb then .fault .noSubject else .next ((s.setCtx { c with away := true }).preempt (.context ctx) lb)

/-- CONTEXT_SWITCH_BACK (R444). -/
def execContextSwitchBack (ctx : Nat) (s : State) : Result :=
  match s.ctx? ctx with
  | none => .fault .noSubject
  | some c => .next (s.setCtx { c with away := false })

/-- The plots of a context that a switch has not met or that its pool had no room for are met again; those that drain keep their budget (R444). -/
def State.switchAgain (s : State) (ctx : Nat) : State :=
  ((s.plotsOf (.context ctx)).filter fun p => p.intent.isNone && p.drainBy.isNone).foldl (fun t p => t.preemptPlot p.pid (t.cycOf p.core)) s

/-- SAVE_POOL: the pool has a new size, and a switch that lacked room goes on (R435, R444); or system software writes bytes of the pool, which
a restore reads (R438, R439; log entry 15). -/
def execSavePool (ctx : Nat) (bytes : PoolOp) (s : State) : Result :=
  match s.ctx? ctx with
  | none => .fault .noSubject
  | some c =>
    match bytes with
    | .size n =>
      let t := s.setCtx { c with savePool := n }
      .next (if c.away then t.switchAgain ctx else t)
    | .write off bs => if c.savePool < off + bs.length then .fault .noSubject else .next (s.store (poolAddr ctx + off) bs)

end Sys2Proof.Machine
end

