-- ==== Sys2Proof/Machine/Reeve.lean ====
section
/-! DEFINITION. The reeves: launch lists, eligibility, candidates and their placing, gangs and fallow cores, room for saved plots (R323 to
R337). -/

namespace Sys2Proof.Machine

/-- Whether the reeves act: the package is READY and not stopped (R456, R468). -/
def State.reeves (s : State) : Bool :=
  s.status.ready && !s.status.fatal

/-! ### Launch lists (R323, R324) -/

/-- The header of a launch list, with its object (R323). -/
structure ListHead where
  obj : Nat
  tail : Nat
  head : Nat
  capn : Nat

/-- The object of a list of a context, if it is valid (R392). -/
def Ctx.listObj (c : Ctx) (list : Nat) : Option Nat :=
  let w := (c.ll.getD list 0).toNat
  if bit w 24 then some (field w 0 24) else none

/-- Whether a list's fields run at system level: its SYS bit (R391, R392). -/
def Ctx.listSys (c : Ctx) (list : Nat) : Bool :=
  bit (c.ll.getD list 0).toNat 25

/-- The object of a list of a context, of KIND data, whose header the reeve of die 0 reaches (R323, R460). -/
def State.listAt (s : State) (ctx list : Nat) : Option Nat :=
  match (s.ctx? ctx).bind fun c => (c.listObj list).bind fun o => (s.entry? c o).map fun e => (o, e) with
  | none => none
  | some (o, e) =>
    if e.kind ≠ 0 then none
    else
      match s.place? 0 ctx o 0 with
      | some h => if s.lineOpenFrom 0 ⟨ctx, o, 0, 0⟩ h then some o else none
      | none => some o

/-- Reads a list's header with an acquire at SYS scope (R324). -/
def State.listHead (s : State) (ctx list : Nat) : Option (State × ListHead) :=
  match s.listAt ctx list with
  | none => none
  | some o =>
    let t := (s.drainRecords ⟨ctx, o, 0, 0⟩).readyLines ctx o 0 64
    some (t, ⟨o, t.getObj ctx o 0 8, t.getObj ctx o 8 8, t.getObj ctx o 16 4⟩)

/-- Whether TAIL lies from HEAD to HEAD + CAPN. -/
def ListHead.inRange (h : ListHead) : Bool :=
  decide (h.head ≤ h.tail ∧ h.tail ≤ h.head + h.capn)

/-- Whether a list of a context is stopped for a bad TAIL. -/
def Ctx.listStopped (c : Ctx) (list : Nat) : Bool :=
  c.stopped.any fun q => q.1 == list

/-- Whether the reeve reads a list: its context is not switched away and it is not stopped (R324, R444). -/
def State.listOpen (s : State) (ctx list : Nat) : Bool :=
  s.reeves && (s.ctx? ctx).any fun c => !c.away && !c.listStopped list

/-- The reeve's own writes to a list's header, whose fields are read only to the producer alone (R323). -/
def State.putHead (s : State) (ctx obj off : Nat) (bs : List Byte) : State :=
  match s.place? 0 ctx obj off with
  | some h => (s.store h.addr bs).touchL2 ⟨ctx, obj, off / 128, 0⟩ h true
  | none => s

/-- The ccy between two reads of a stopped list's TAIL: 100 µs (R324). -/
def retestCcy : Nat := 160000

/-- The stopped lists of a context change. -/
def State.modStopped (s : State) (ctx : Nat) (f : List (Nat × Nat) → List (Nat × Nat)) : State :=
  { s with ctxs := s.ctxs.map fun c => if c.num == ctx then { c with stopped := f c.stopped } else c }

/-- Stops a list for a bad TAIL (R324). -/
def State.stopList (s : State) (ctx list : Nat) (h : ListHead) : State :=
  let t := (s.putHead ctx h.obj 40 (leBytes 2 15)).putHead ctx h.obj 32 (leBytes 8 h.head)
  let t := t.modStopped ctx fun l => l ++ [(list, (s.die 0).cyc + retestCcy)]
  t.report (.listStop ctx list h.head)

/-- Refuses the record at HEAD: REFUSED, LASTREF, LASTERR (R326). -/
def State.refuseRecord (s : State) (ctx list code : Nat) (h : ListHead) : State :=
  let t := s.putHead ctx h.obj 24 (leBytes 8 (s.getObj ctx h.obj 24 8 + 1))
  let t := (t.putHead ctx h.obj 32 (leBytes 8 h.head)).putHead ctx h.obj 40 (leBytes 2 code)
  t.report (.refused ctx list h.head code)

/-- Takes the record at HEAD: the field, or the refusal; then HEAD advances (R324 to R326). -/
def State.takeRecord (s : State) (ctx list : Nat) (h : ListHead) : State :=
  let off := 64 + 256 * (h.head % h.capn)
  let t := s.readyLines ctx h.obj off 256
  let r := t.readRecord ctx h.obj off
  let u := match t.refusal ctx r with
    | some n => t.refuseRecord ctx list n h
    | none => t.addField ctx r ((t.ctx? ctx).any fun (c : Ctx) => c.listSys list) 0 none
  u.putHead ctx h.obj 8 (leBytes 8 (h.head + 1))

/-- Whether the record at HEAD reaches the reeve of die 0 (R14, R460). -/
def State.recordOpen (s : State) (ctx : Nat) (h : ListHead) : Bool :=
  let off := 64 + 256 * (h.head % h.capn)
  (List.range ((off + 255) / 128 - off / 128 + 1)).all fun i =>
    match s.place? 0 ctx h.obj (128 * (off / 128 + i)) with
    | some q => s.lineOpenFrom 0 ⟨ctx, h.obj, off / 128 + i, 0⟩ q
    | none => true

/-- TAKE_RECORD (R324). -/
def execTakeRecord (ctx list : Nat) (s : State) : Result :=
  match s.listHead ctx list with
  | none => .fault .noSubject
  | some (t, h) =>
    if !s.listOpen ctx list || h.tail == h.head then .fault .noSubject
    else if h.inRange then if t.recordOpen ctx h then .next (t.takeRecord ctx list h) else .fault .noSubject
    else .next (t.stopList ctx list h)

/-- Whether a list has something to take. -/
def State.takeDue (s : State) (ctx list : Nat) : Bool :=
  s.listOpen ctx list && match s.listHead ctx list with
    | some (t, h) => h.tail != h.head && (!h.inRange || t.recordOpen ctx h)
    | none => false

/-- Whether a list is stopped and its reeve reads TAIL again now (R324). -/
def State.retestOpen (s : State) (ctx list : Nat) : Bool :=
  s.reeves && (s.ctx? ctx).any fun c => c.stopped.any fun q => q.1 == list && decide (q.2 ≤ (s.die 0).cyc)

/-- TAIL_RETEST: every 100 µs the reeve reads the TAIL of a stopped list; one in range starts the list again (R324). -/
def execTailRetest (ctx list : Nat) (s : State) : Result :=
  match s.listHead ctx list with
  | none => .fault .noSubject
  | some (t, h) =>
    if !s.retestOpen ctx list then .fault .noSubject
    else
      let others (l : List (Nat × Nat)) : List (Nat × Nat) := l.filter fun q => q.1 != list
      .next (t.modStopped ctx fun l => if h.inRange then others l else others l ++ [(list, (s.die 0).cyc + retestCcy)])

/-! ### Eligibility (R328) -/

/-- The line of a field's dependency cell on die 0, if the cell has reached its threshold. A cell that the port refuses or that is
poisoned reaches none. -/
def State.dependency (s : State) (f : Field) : Option LineRef :=
  let r := f.record
  let n := latSize r.dty
  match r.depc.check r.doff n rightR n [2, 3] with
  | .error _ => none
  | .ok (o, y) =>
    match s.port 0 f.ctx true r.depc.kind o rightR y with
    | .error _ => none
    | .ok h =>
      if h.entry.latType ≠ r.dty ∨ s.poisoned h.addr n then none
      else if latPassed r.dty r.dval (s.loadNat h.addr n) then some ⟨f.ctx, o, y / 128, 1⟩
      else none

/-- The dependency that has been reached of a field that is not eligible. -/
def State.eligibleDue (s : State) (ctx fld : Nat) : Option LineRef :=
  match s.field? ctx fld with
  | some f => if s.reeves && f.eligible.isNone && f.record.dty != 0 then s.dependency f else none
  | none => none

/-- FIELD_ELIGIBLE: the test passes, with the acquire that LDLAT.ACQ makes (R328). -/
def execFieldEligible (ctx fld : Nat) (s : State) : Result :=
  match s.eligibleDue ctx fld with
  | none => .fault .noSubject
  | some r => .next ((s.drainRecords r).modField ctx fld fun f => { f with eligible := some (s.die 0).cyc })

/-! ### Candidates (R330) -/

/-- A candidate: its rank, what it needs of a core, how many plots are placed with it in one decision. -/
structure Cand where
  ctx : Nat
  fld : Nat
  plot : Nat
  prio : Nat
  rank : List Nat
  fibres : Nat
  windows : Nat
  window : Nat
  scr : Nat
  place : Nat
  hdie : Nat
  count : Nat
  gang : Bool
  disc : Nat
  saved : Option SavedPlot

/-- The order of ranks, first number first. -/
def rankLe : List Nat → List Nat → Bool
  | [], _ => true
  | _ :: _, [] => false
  | a :: as, b :: bs => decide (a < b) || (a == b && rankLe as bs)

/-- Puts a candidate in its place. -/
def insertCand (c : Cand) : List Cand → List Cand
  | [] => [c]
  | d :: rest => if rankLe c.rank d.rank then c :: d :: rest else d :: insertCand c rest

/-- The next unplaced plot of a field: its number, how often it was discarded. -/
def Field.nextUnplaced (f : Field) : Option (Nat × Nat) :=
  match minBy? f.unplaced (·.1) with
  | some q => some q
  | none => if f.nextPlot < f.record.plots then some (f.nextPlot, 0) else none

/-- The candidate of an eligible field: its lowest unplaced plot, or all of a gang that has not been placed. -/
def Field.candidate (f : Field) : Option Cand :=
  match f.eligible, f.nextUnplaced with
  | some e, some (n, disc) =>
    if f.aborted then none
    else
      let r := f.record
      let whole := r.gang && f.nextPlot == 0
      some
        { ctx := f.ctx, fld := f.fld, plot := n, prio := r.prio, rank := [(7 - r.prio) * 2 + 1, e, f.order, f.ctx, f.fld, n]
          fibres := r.fibm1 + 1, windows := r.fibm1 + 1, window := 8 * r.win, scr := r.scr, place := r.place, hdie := r.hdie
          count := if whole then r.plots else 1, gang := whole, disc := disc, saved := none }
  | _, _ => none

/-- The candidate of a saved plot: it takes the core that its field's PLACE selects, on any die (R330, R331, R441). -/
def State.savedCandidate (s : State) (v : SavedPlot) : Option Cand :=
  if v.placed.isSome || v.refused then none
  else
    let p := v.plot
    let place := match s.field? p.ctx p.fld with
      | some f => if f.record.place = 3 then 0 else f.record.place
      | none => 0
    some
      { ctx := p.ctx, fld := p.fld, plot := p.plot, prio := p.prio, rank := [(7 - p.prio) * 2, v.order]
        fibres := p.fibres.length, windows := p.windows.length, window := p.window, scr := p.ssize / 256, place := place, hdie := 0
        count := 1, gang := false, disc := p.disc, saved := some v }

/-- The ranked candidates of the package; a context that is switched away has none (R330, R444). -/
def State.candidates (s : State) : List Cand :=
  let here (n : Nat) : Bool := (s.ctx? n).any fun c => !c.away
  let saved := (s.ctxs.flatMap (·.saved)).filterMap s.savedCandidate
  let fresh := s.fields.filterMap Field.candidate
  ((saved ++ fresh).filter fun c => here c.ctx).foldr insertCand []

/-- The name of a candidate. -/
def Cand.name (c : Cand) : Nat × Nat × Nat :=
  (c.ctx, c.fld, c.plot)

/-! ### Fitting and choosing (R331) -/

/-- Whether a candidate may use a core beside a declared fallow set: the set is its gang's, or does not hold the core (R332). -/
def State.notFallow (s : State) (c : Cand) (core : Nat) : Bool :=
  match s.fallow with
  | none => true
  | some f => !f.cores.contains core || (f.ctx == c.ctx && f.fld == c.fld && (c.gang || s.gangOne.contains c.name))

/-- Whether a candidate's plot fits a core (R331). -/
def State.fits (s : State) (c : Cand) (core : Nat) : Bool :=
  !(s.die (dieOf core)).halted && s.notFallow c core && s.hasRoom core c.fibres c.windows c.window c.scr

/-- The cores of a die. -/
def dieCores (die : Nat) : List Nat :=
  (List.range 32).map (· + 32 * die)

/-- The core with the fewest resident fibres, then the lowest number, among those that a candidate fits. -/
def State.emptiest (s : State) (c : Cand) (cores : List Nat) : Option Nat :=
  minBy? (cores.filter (s.fits c)) fun k => 128 * s.residentFibres k + k

/-- The core that PLACE selects for a plot of a candidate (R331). -/
def State.chooseCore (s : State) (c : Cand) (plot : Nat) : Option Nat :=
  match c.place with
  | 1 =>
    match s.emptiest c (dieCores (plot % 4)) with
    | some k => some k
    | none => s.emptiest c (List.range 128)
  | 2 => (List.range 128).find? (s.fits c)
  | 3 => s.emptiest c (dieCores c.hdie)
  | _ => s.emptiest c (List.range 128)

/-- Gives a saved plot a core, where its image is loaded next (R441). -/
def State.placeSaved (s : State) (v : SavedPlot) (core : Nat) : State :=
  let p := v.plot
  let (s, base) := s.allocScratch core p.ssize
  let ws := assignWindows (s.windowsOf core) (p.window / 8) (p.windows.map (·.1))
  let now := s.cycOf core
  let q : Plot :=
    { p with core := core, sbase := base, windows := ws, order := s.nextOrder,
             halt := some { Halt.start now 0 0 [] false with phase := .saving } }
  let t : State := { s with
    plots := s.plots ++ [q]
    nextOrder := s.nextOrder + 1
    ctxs := s.ctxs.map fun c => { c with saved := c.saved.map fun w =>
      if w.plot.pid == p.pid then { w with placed := some core } else w } }
  t.modCore core fun k => { k with gated := false }

/-- Places one plot of a candidate on a core. -/
def State.placeCand (s : State) (c : Cand) (plot core : Nat) : State :=
  match c.saved with
  | some v => s.placeSaved v core
  | none =>
    match s.field? c.ctx c.fld with
    | none => s
    | some f =>
      (s.placeNew f plot c.disc core).modField c.ctx c.fld fun g =>
        { g with
          live := g.live + 1
          unplaced := g.unplaced.filter fun q => q.1 != plot
          nextPlot := if plot = g.nextPlot then plot + 1 else g.nextPlot }

/-- Places the plots of a candidate, all of them or none. -/
def State.placeAll (s : State) (c : Cand) (plots : List Nat) : Option State :=
  match plots with
  | [] => some s
  | n :: rest =>
    match s.chooseCore c n with
    | none => none
    | some k => (s.placeCand c n k).placeAll c rest

/-- Whether a declared fallow set, or a mark as a gang of one, is a candidate's. -/
def State.ownsFallow (s : State) (c : Cand) : Bool :=
  s.fallow.any fun f => f.ctx == c.ctx && f.fld == c.fld && (c.gang || s.gangOne.contains c.name)

/-- Places a candidate in one decision; a fallow set of its own is released (R331 to R333). -/
def State.placeOne (s : State) (c : Cand) : Option State :=
  (s.placeAll c ((List.range c.count).map (c.plot + ·))).map fun t =>
    { t with
      fallow := if s.ownsFallow c then none else t.fallow
      gangOne := t.gangOne.filter (· != c.name) }

/-- Whether a candidate fits as it stands. -/
def State.placeable (s : State) (c : Cand) : Bool :=
  (s.placeOne c).isSome

/-! ### Gangs and fallow cores (R332) -/

/-- How many plots of a candidate a core would hold if it were empty (R17, R196). -/
def State.emptyHolds (s : State) (c : Cand) (core : Nat) : Nat :=
  let n := min 32 (min (2048 / c.fibres) (131072 / (c.windows * c.window)))
  if c.scr = 0 then n else min n (s.scratchRoom core / (256 * c.scr))

/-- The first cores of a list that together hold n plots of a candidate. -/
def State.enough (s : State) (c : Cand) (cores : List Nat) (n : Nat) : Option (List Nat) :=
  match cores with
  | [] => if n = 0 then some [] else none
  | k :: rest => if n = 0 then some [] else (s.enough c rest (n - s.emptyHolds c k)).map (k :: ·)

/-- The fallow set of a gang: the fewest cores, by fewest resident fibres and then lower number, without those that hold a plot of higher
priority (R332). -/
def State.fallowSet (s : State) (c : Cand) : Option (List Nat) :=
  let allowed := if c.place = 3 then dieCores c.hdie else List.range 128
  let open_ := allowed.filter fun k => !(s.die (dieOf k)).halted && (s.residents k).all fun p => decide (p.prio ≤ c.prio)
  s.enough c (sortBy (fun k => 128 * s.residentFibres k + k) open_) c.count

/-- Whether a candidate is a gang, or is treated as one. -/
def State.isGang (s : State) (c : Cand) : Bool :=
  c.gang || s.gangOne.contains c.name

/-- A fallow set whose gang is no candidate any more is dropped. -/
def State.dropFallow (s : State) : State :=
  if s.candidates.any s.ownsFallow then s else { s with fallow := none }

/-- Declares a fallow set where none stands and the highest-ranked candidate that does not fit is a gang (R332). -/
def State.declareFallow (s : State) : State :=
  if s.fallow.isSome || !s.candidates.any s.isGang then s
  else
    match s.candidates.find? fun c => !s.placeable c with
    | none => s
    | some c =>
      if s.isGang c then
        match s.fallowSet c with
        | some l => { s with fallow := some ⟨c.ctx, c.fld, l, (s.die 0).cyc⟩ }
        | none => s
      else s

/-- Notes the highest-ranked candidate of each priority and since when it is that (R332, R337). -/
def State.noteTops (s : State) : State :=
  let l := s.candidates
  { s with tops := (List.range 8).filterMap fun n =>
      (l.find? fun c => c.prio == n).map fun c =>
        match s.tops.find? fun t => t.1 == n && t.2.1 == c.name with
        | some t => t
        | none => (n, c.name, (s.die 0).cyc) }

/-- The tops and the fallow set brought up to date. -/
def State.rankAgain (s : State) : State :=
  s.noteTops.dropFallow.declareFallow

/-- The placement decisions of the last µs (R331). -/
def State.recent (s : State) : List Nat :=
  s.decisions.filter fun c => decide ((s.die 0).cyc < c + 1600)

/-- The state after a placement decision, of the first candidate that fits: at most 4 in a µs (R331). -/
def State.placement (s : State) : Option State :=
  if 4 ≤ s.recent.length then none
  else (firstSome (s.candidates.map s.placeOne)).map fun t => { t with decisions := s.recent ++ [(s.die 0).cyc] }

/-- PLACE_PLOT: one placement decision, of the first candidate that fits; with none, a change of the tops or of the fallow set (R330 to R332). -/
def execPlacePlot (s : State) : Result :=
  if !s.reeves then .fault .noSubject
  else
    let t := s.rankAgain
    match t.placement with
    | some u => .next u
    | none => if t.tops = s.tops ∧ t.fallow = s.fallow then .fault .noSubject else .next t

/-! ### Long waits (R332, R333, R337) -/

/-- The top candidates that have waited a number of ccy without fitting. -/
def State.waited (s : State) (n : Nat) : List Cand :=
  s.candidates.filter fun c =>
    (s.tops.any fun t => t.2.1 == c.name && t.1 == c.prio && decide (t.2.2 + n ≤ (s.die 0).cyc)) && !s.placeable c

/-- GANG_OF_ONE: a plot that has waited 200 µs at the top is treated as a gang (R332). -/
def execGangOfOne (s : State) : Result :=
  match (s.waited 320000).find? fun c => !s.isGang c with
  | none => .fault .noSubject
  | some c => if s.reeves then .next { s with gangOne := s.gangOne ++ [c.name] } else .fault .noSubject

/-- Whether a plot waits for the host after an escalation: it is the first to be saved when room is needed (R426). -/
def Plot.isEscalated (p : Plot) : Bool :=
  p.intent.isNone && p.halt.any fun h => h.phase == .escalated

/-- The plot that is saved for a gang whose set has stood 200 µs and that does not fit yet: the oldest placement on its cores, one at a time
(R333). -/
def State.gangVictim (s : State) : Option Plot :=
  match s.fallow with
  | none => none
  | some f =>
    let rs := s.plots.filter fun p => f.cores.contains p.core && p.handler.isNone
    let fits := s.candidates.any fun c => s.ownsFallow c && s.placeable c
    if s.reeves && !fits && decide (f.since + 320000 ≤ (s.die 0).cyc) && rs.all fun p => p.intent.isNone then
      match minBy? (rs.filter Plot.isEscalated) (·.order) with
      | some p => some p
      | none => minBy? rs (·.order)
    else none

/-- GANG_WAIT_LIMIT (R333). -/
def execGangWaitLimit (s : State) : Result :=
  match s.gangVictim with
  | none => .fault .noSubject
  | some p => .next (s.preemptPlot p.pid (s.cycOf p.core))

/-- Whether every live fibre of a running plot is parked or held. -/
def Plot.allWait (p : Plot) : Bool :=
  p.halt.isNone && p.intent.isNone && p.handler.isNone && !p.fibres.isEmpty && p.fibres.all fun f =>
    match f.run with
    | .parked _ => true
    | .held _ => true
    | _ => false

/-- Where a plot's most recent park stands in the order of how long ago parks were, the longest first; ages, not counts, of different dies are
compared (R9, R337). -/
def State.parkKey (s : State) (p : Plot) : Nat :=
  (p.fibres.map (·.readyAt)).foldl max 0 + 2 ^ 64 - s.cycOf p.core

/-- The plot that is saved to give a saved plot room: of its priority or lower, all its fibres waiting, its most recent park the longest ago;
one at a time (R337). -/
def State.roomVictim (s : State) : Option Plot :=
  match (s.waited 80000).find? fun c => c.saved.isSome with
  | none => none
  | some c =>
    if !s.reeves || s.plots.any (fun p => p.intent.isSome) then none
    else
      match minBy? (s.plots.filter fun p => p.isEscalated && decide (p.prio ≤ c.prio)) (·.order) with
      | some p => some p
      | none => minBy? (s.plots.filter fun p => p.allWait && decide (p.prio ≤ c.prio)) s.parkKey

/-- RESTORE_ROOM (R337). -/
def execRestoreRoom (s : State) : Result :=
  match s.roomVictim with
  | none => .fault .noSubject
  | some p => .next (s.preemptPlot p.pid (s.cycOf p.core))

end Sys2Proof.Machine
end

