-- ==== Sys2Proof/Machine/Contexts.lean ====
section
/-! DEFINITION. Contexts and crops: creation, destruction, registration, swap-ins and evictions (R390, R392, R445 to R449). -/

namespace Sys2Proof.Machine

/-! ### Contexts (R390, R392, R420, R435) -/

/-- The launch-list registers that the host binds at creation (R390, R392). -/
def listRegs (g : CtxCfg) : List (BitVec 26) :=
  (List.range 8).map fun i =>
    match g.lists.find? fun l => l.1 == i with
    | some l => BitVec.ofNat 26 (l.2.1 % 2 ^ 24 + 2 ^ 24 + if l.2.2 then 2 ^ 25 else 0)
    | none => 0

/-- A context at its creation (R392, R420). -/
def createCtx (g : CtxCfg) : Ctx :=
  { num := g.ctx, otfr := 0, otnp := 0, otne := 0, shape := 0, exlog := 0, ll := listRegs g,
    handlerCode := g.handlerCode.map fun b => ⟨b, true⟩, handlerEntry := g.handlerEntry,
    handlerA := (List.range 8).map fun i => ((g.handlerA[i]?).map fun c => ⟨c.1, c.2⟩).getD .null
    sysLists := g.sysLists, debugger := false, savePool := g.savePool, framePool := g.framePool, saved := [], crops := [], stopped := [],
    away := false, nextFld := 0 }

/-- CONTEXT_CREATE (R390). -/
def execContextCreate (cfg : CtxCfg) (s : State) : Result :=
  if decide (cfg.ctx < 64) && (s.ctx? cfg.ctx).isNone then .next { s with ctxs := s.ctxs ++ [createCtx cfg] } else .fault .noSubject

/-- Whether a line is another context's. -/
def otherCtx (ctx : Nat) (r : LineRef) : Bool :=
  r.ctx != ctx

/-- A context's plots go, with the hold of one of them on the handler slot of its core. -/
def State.dropPlots (s : State) (ctx : Nat) : State :=
  (s.plots.filter fun p => p.ctx == ctx).foldl (fun t p =>
    let t := if (t.core p.core).frameOf = some p.pid then t.freeHandler p.core else t
    t.forgetPlot p) s

/-- A context's lines leave the L1s, the dirty ones written back first, and its code leaves the instruction caches and loop buffers. -/
def State.dropCtxLines (s : State) (ctx : Nat) : State :=
  s.cores.foldl (fun t k =>
    (t.writeBackWhere k.num fun l => l.ctx == ctx).modCore k.num fun k =>
      { k with
        lines := k.lines.filter fun l => l.ctx != ctx
        icache := k.icache.filter fun l => l.ctx != ctx
        loopBuf := k.loopBuf.filter fun b => b.ctx != ctx }) s

/-- What the homes, dies and reeves hold of a context goes. -/
def State.dropCtx (s : State) (ctx : Nat) : State :=
  let other (r : LineRef) : Bool := otherCtx ctx r
  { s with
    ctxs := s.ctxs.filter fun c => c.num != ctx
    fields := s.fields.filter fun f => f.ctx != ctx
    relRecs := s.relRecs.filter fun q => other q.1
    atomLast := s.atomLast.filter fun q => other q.1
    owners := s.owners.filter fun q => other q.1
    sums := s.sums.filter fun q => other q.1
    contribs := s.contribs.filter fun q => other q.1
    xlines := s.xlines.filter other
    homeQ := s.homeQ.filter fun g => g.parts.all fun q => q.ctx != ctx
    engineOwned := s.engineOwned.filter fun q => other q.1
    readers := s.readers.filter fun q => other q.1
    l2 := s.l2.filter fun l => other l.ref
    writeBacks := s.writeBacks.filter fun w => w.line.ctx != ctx
    drains := s.drains.filter fun d => other d.line
    retries := s.retries.filter fun g => g.1.parts.all fun q => q.ctx != ctx
    drops := s.drops.filter fun d => d.ctx != ctx
    logWrites := s.logWrites.filter fun q => q.ctx != ctx
    lostControl := s.lostControl.filter fun q => q.lines.all other
    ships := s.ships.filter fun x => other x.line
    publishes := s.publishes.filter fun q => q.ctx != ctx
    migrations := s.migrations.filter fun m => m.ctx != ctx
    hostAtomics := s.hostAtomics.filter fun a => a.reqs.all fun q => q.ctx != ctx
    colls := s.colls.filter fun c => c.ctx != ctx
    fallow := s.fallow.filter fun f => f.ctx != ctx
    gangOne := s.gangOne.filter fun g => g.1 != ctx
    tops := s.tops.filter fun t => t.2.1.1 != ctx
    dies := s.dies.map fun d =>
      { d with changed := d.changed.filter (fun q => other q.1), rounds := d.rounds.filter (fun q => other q.1),
               lastTick := d.lastTick.filter (fun q => other q.1), pushq := d.pushq.filter other } }

/-- CONTEXT_DESTROY: the context goes with all that it holds (R390; log entry 10). -/
def execContextDestroy (ctx : Nat) (s : State) : Result :=
  if (s.ctx? ctx).isNone then .fault .noSubject else .next (((s.dropCtxLines ctx).dropPlots ctx).dropCtx ctx)

/-! ### Crops (R445) -/

/-- Whether an object of a context is sealed (R402). -/
def State.isSealed (s : State) (ctx obj : Nat) : Bool :=
  match (s.ctx? ctx).bind fun c => s.entry? c obj with
  | some e => e.sealed
  | none => false

/-- The crop of a registration. -/
def createCrop (g : CropCfg) : Crop :=
  { num := g.crop, table := g.table, count := g.count, prio := g.prio
    layers := g.layers.map fun l => { obj := l.obj, src := l.src, len := l.len, released := 0 }
    queue := [], swap := none }

/-- Whether an object is what a crop's count object must be: a data page with HOME UNCACHED, PLACE DIE and PDIE 0 (R445). -/
def State.countObject (s : State) (c : Ctx) (obj : Nat) : Bool :=
  (s.entry? c obj).any fun e =>
    let d := s.desc c obj e 0
    e.kind == 0 && decide (0 < e.npages) && d.home == 1 && d.place == 1 && d.pdie == 0

/-- Whether a registration names objects of the kinds that R445 gives, its weight objects sealed. The spec has the reeve refuse one whose weight
object is not sealed; one whose table or count object is another is refused too (DESIGN CHOICE, log entry 50). -/
def State.cropLawful (s : State) (c : Ctx) (g : CropCfg) : Bool :=
  (s.entry? c g.table).any (·.kind == 3) && s.countObject c g.count && g.layers.all fun l => s.isSealed g.ctx l.obj

/-- CROP_REGISTRATION: refused where a weight object is not sealed (R445). -/
def execCropRegistration (cfg : CropCfg) (s : State) : Result :=
  match s.ctx? cfg.ctx with
  | none => .fault .noSubject
  | some c =>
    if decide (16 ≤ cfg.crop) || cfg.layers.isEmpty || decide (4096 < cfg.layers.length) || decide (7 < cfg.prio) ||
        c.crops.any (fun k => k.num == cfg.crop) then .fault .noSubject
    else if !s.cropLawful c cfg then .next (s.report (.cropRefused cfg.ctx cfg.crop))
    else .next (s.setCtx { c with crops := c.crops ++ [createCrop cfg] })

/-! ### Residency words and frames (R446, R448, R449) -/

/-- The reeve's LJOIN.REL of a layer's residency word on die 0 (R446, R448). -/
def State.joinWord (s : State) (ctx table i v : Nat) : State :=
  match s.place? 0 ctx table (8 * i) with
  | none => s
  | some h =>
    if s.poisoned h.addr 8 then s
    else (s.storeNat h.addr 8 (max (s.loadNat h.addr 8) v)).markChanged 0 h.entry ⟨ctx, table, i / 16, 1⟩ true

/-- A crop of a context. -/
def State.crop? (s : State) (ctx crop : Nat) : Option Crop :=
  (s.ctx? ctx).bind fun c => c.crops.find? fun k => k.num == crop

/-- A layer of a crop. -/
def Crop.layer (k : Crop) (i : Nat) : Layer :=
  (k.layers[i]?).getD ⟨0, .host 0, 0, 0⟩

/-- The pages of an object of a context. -/
def State.pagesOf (s : State) (ctx obj : Nat) : Nat :=
  match (s.ctx? ctx).bind fun c => s.entry? c obj with
  | some e => e.npages
  | none => 0

/-- The pages that a swap-in makes resident. -/
def State.swapPages (s : State) (ctx : Nat) (k : Crop) (w : Swap) : Nat :=
  s.pagesOf ctx (k.layer w.layer).obj

/-- The free frames of a context's pool. -/
def State.poolFrames (s : State) (ctx : Nat) : List Nat :=
  match s.ctx? ctx with
  | some c => c.framePool
  | none => []

/-- Whether the pool has the frames of a swap-in. -/
def State.swapFits (s : State) (ctx : Nat) (k : Crop) (w : Swap) : Bool :=
  decide (s.swapPages ctx k w ≤ (s.poolFrames ctx).length)

/-! ### Eviction (R449) -/

/-- Whether a layer can be evicted: resident, COUNT 0 and EVICT 0 of its generation. -/
def State.evictableLayer (s : State) (ctx : Nat) (k : Crop) (i : Nat) : Bool :=
  let w := s.resWord 0 ctx k.table i
  let (gen, ev, n) := s.countWord ctx k.count i
  w % 4 == 2 && n == 0 && !ev && gen == w / 4 % 2 ^ 32

/-- The victim of an eviction: the crop of lowest rotation priority, then lower number; in it the layer released longest ago. -/
def State.layerVictim (s : State) (ctx : Nat) : Option (Crop × Nat) :=
  let crops := sortBy (fun (k : Crop) => 16 * k.prio + k.num) (((s.ctx? ctx).map (·.crops)).getD [])
  firstSome (crops.map fun k =>
    (minBy? ((List.range k.layers.length).filter (s.evictableLayer ctx k)) fun i => (k.layer i).released).map fun i => (k, i))

/-- Pages of an object become non-resident, their frames free again. -/
def State.freePages (s : State) (ctx obj : Nat) : State :=
  (List.range (s.pagesOf ctx obj)).foldl (fun t p =>
    match t.ctx? ctx with
    | none => t
    | some c =>
      match t.entry? c obj with
      | none => t
      | some e =>
        let d := t.desc c obj e p
        (t.setCtx { c with framePool := c.framePool ++ [d.frame] }).setDesc ctx obj p fun d => { d with res := 0 }) s

/-- Evicts a layer: EVICT, the word of the next generation, the pages, OBJINV, EVICT cleared (R449). -/
def State.evictLayer (s : State) (ctx : Nat) (k : Crop) (i : Nat) : State :=
  let g := s.resWord 0 ctx k.table i / 4
  let obj := (k.layer i).obj
  let t := (s.setCount ctx k.count i g true 0).joinWord ctx k.table i (4 * (g + 1))
  ((t.freePages ctx obj).sendDrops ctx obj none).setCount ctx k.count i g false 0

/-- Evicts victims until the pool has the frames of a swap-in, or there is no victim. -/
def State.makeFrames (s : State) (ctx : Nat) (k : Crop) (w : Swap) (fuel : Nat) : State :=
  match fuel with
  | 0 => s
  | n + 1 =>
    if s.swapFits ctx k w then s
    else
      match s.layerVictim ctx with
      | some (v, i) => (s.evictLayer ctx v i).makeFrames ctx k w n
      | none => s

/-! ### Swap-ins (R448) -/

/-- Whether a queued layer still waits for its generation: it has not arrived meanwhile. -/
def State.swapStale (s : State) (ctx : Nat) (k : Crop) (q : Nat × Nat) : Bool :=
  decide (4 * q.2 + 1 ≤ s.resWord 0 ctx k.table q.1)

/-- Whether SWAP_IN has something to do: a queued layer and no swap-in of the crop, or one without frames that finds them, or a victim. -/
def State.swapDue (s : State) (ctx crop : Nat) : Bool :=
  s.reeves && match s.crop? ctx crop with
    | none => false
    | some k =>
      match k.swap with
      | none => !k.queue.isEmpty
      | some w => !w.placed && (s.swapFits ctx k w || (s.layerVictim ctx).isSome)

/-- Pages of an object from one on become resident in frames (R448 step 2). -/
def State.placePages (s : State) (ctx obj p : Nat) (frames : List Nat) : State :=
  match frames with
  | [] => s
  | f :: rest => (s.setDesc ctx obj p fun d => { d with frame := f, res := 1 }).placePages ctx obj (p + 1) rest

/-- Step 2 of a swap-in: where the pool has its frames, the weight pages are resident in them, and its copies start (R448). -/
def State.placeSwap (s : State) (ctx : Nat) (k : Crop) (w : Swap) : State :=
  if !s.swapFits ctx k w then s
  else
    let n := s.swapPages ctx k w
    let t := s.placePages ctx (k.layer w.layer).obj 0 ((s.poolFrames ctx).take n)
    let t : State := { t with ctxs := t.ctxs.map fun c => if c.num == ctx then { c with framePool := c.framePool.drop n } else c }
    t.modCrop ctx k.num fun k => { k with swap := some { w with placed := true, started := (s.die 0).cyc } }

/-- Starts the first queued swap-in of a crop, or makes room for the one that waits for frames (R448, R449). -/
def State.startSwap (s : State) (ctx : Nat) (k : Crop) : State :=
  match k.swap, k.queue with
  | some w, _ => (s.makeFrames ctx k w 65536).placeSwap ctx k w
  | none, [] => s
  | none, q :: rest =>
    let t := s.modCrop ctx k.num fun k => { k with queue := rest }
    if s.swapStale ctx k q then t
    else
      let w : Swap := ⟨q.1, q.2, false, (s.die 0).cyc⟩
      let t := (t.joinWord ctx k.table q.1 (4 * q.2 + 1)).modCrop ctx k.num fun k => { k with swap := some w }
      (t.makeFrames ctx k w 65536).placeSwap ctx k w

/-- SWAP_IN (R448, R449). -/
def execSwapIn (ctx crop : Nat) (s : State) : Result :=
  match s.crop? ctx crop with
  | none => .fault .noSubject
  | some k => if s.swapDue ctx crop then .next (s.startSwap ctx k) else .fault .noSubject

/-- The descriptors of a swap-in's pages. -/
def State.swapDescs (s : State) (ctx : Nat) (k : Crop) (w : Swap) : List PageDesc :=
  match (s.ctx? ctx).bind fun c => (s.entry? c (k.layer w.layer).obj).map fun e => (c, e) with
  | some (c, e) => (List.range e.npages).map (s.desc c (k.layer w.layer).obj e)
  | none => []

/-- The lines of a page that lie in a package channel (R193). -/
def PageDesc.linesOn (d : PageDesc) (chan : Nat) : Nat :=
  if d.home = 3 then 0
  else match d.place with
    | 0 => 2
    | 1 => if chan / 64 = d.pdie then 8 else 0
    | 2 => if chan = d.pchan then 512 else 0
    | _ => 0

/-- Bytes of some pages that cross to a die. -/
def bytesTo (ds : List PageDesc) (die : Nat) : Nat :=
  128 * ((List.range 64).map fun i => (ds.map fun d => d.linesOn (64 * die + i)).sum).sum

/-- The least ccy that a swap-in takes at 25% of a channel's 50 bytes per ccy, and of 10,000 bytes per ccy of each link direction from die 0 on
(R14, R19, R20, R22, R338). -/
def State.swapCcy (s : State) (ctx : Nat) (k : Crop) (w : Swap) : Nat :=
  let ds := s.swapDescs ctx k w
  let chan := (List.range 256).foldl (fun m c => max m (128 * (ds.map fun d => d.linesOn c).sum)) 0
  let link := max (bytesTo ds 1 + bytesTo ds 3) (bytesTo ds 2)
  max ((4 * chan + 49) / 50) ((4 * link + 9999) / 10000)

/-- Fills a line of a page from the source's bytes at an address, n of which lie within its length; the rest is zero (R448). -/
def State.fillLine (s : State) (dst src n : Nat) : State :=
  s.store dst (s.load src (min 128 n) ++ List.replicate (128 - n) 0)

/-- Fills page p of a layer's object; a page that the port would refuse takes none (R448). -/
def State.fillPage (s : State) (ctx obj p : Nat) (l : Layer) : Option State :=
  match s.place? 0 ctx obj (65536 * p) with
  | none => none
  | some h => some ((List.range 512).foldl (fun u i =>
      let at_ := 65536 * p + 128 * i
      u.fillLine (h.desc.lineAddr i) ((sourceAt l.src) + at_) (l.len - at_)) s)

/-- Fills some pages of a layer. -/
def State.fillPages (s : State) (ctx obj : Nat) (pages : List Nat) (l : Layer) : Option State :=
  match pages with
  | [] => some s
  | p :: rest => (s.fillPage ctx obj p l).bind fun t => t.fillPages ctx obj rest l

/-- A swap-in ends in failure: the word of its generation is failed; the pages are not resident, their frames free again (R448). -/
def State.failSwap (s : State) (ctx : Nat) (k : Crop) (w : Swap) : State :=
  let t := if w.placed then s.freePages ctx (k.layer w.layer).obj else s
  (t.joinWord ctx k.table w.layer (4 * w.gen + 3)).modCrop ctx k.num fun k => { k with swap := none }

/-- A swap-in lands: its pages filled, its count word, the word of its generation resident. A piece whose source is poisoned meets POISON, and the
swap-in fails (R448, R459). -/
def State.landSwap (s : State) (ctx : Nat) (k : Crop) (w : Swap) : State :=
  let l := k.layer w.layer
  let n := s.swapPages ctx k w
  let size := min l.len (65536 * n)
  let t := s.sourceRead (sourceAt l.src) size
  match if s.poisoned (sourceAt l.src) size then none else t.fillPages ctx l.obj (List.range n) l with
  | none => t.failSwap ctx k w
  | some u =>
    ((u.setCount ctx k.count w.layer w.gen false 0).joinWord ctx k.table w.layer (4 * w.gen + 2)).modCrop ctx k.num fun k =>
      { k with swap := none }

/-- The swap-in of a crop that has its frames. -/
def State.swapReady (s : State) (ctx crop : Nat) : Option (Crop × Swap) :=
  match s.crop? ctx crop with
  | none => none
  | some k =>
    match k.swap with
    | some w => if s.reeves && w.placed then some (k, w) else none
    | none => none

/-- The ccy since a swap-in's copies started. -/
def State.swapAge (s : State) (w : Swap) : Nat :=
  ((s.die 0).cyc + 2 ^ 64 - w.started) % 2 ^ 64

/-- Whether the copies of a swap-in reach its pages from the host port of die 0 (R14, R23, R460). -/
def State.swapOpen (s : State) (ctx : Nat) (k : Crop) (w : Swap) : Bool :=
  let ds := s.swapDescs ctx k w
  [1, 2, 3].all fun d => bytesTo ds d == 0 || s.wayOpen 0 d

/-- SWAP_IN_COMPLETE (R338, R448). -/
def execSwapInComplete (ctx crop : Nat) (s : State) : Result :=
  match s.swapReady ctx crop with
  | none => .fault .noSubject
  | some (k, w) =>
    if s.swapAge w < s.swapCcy ctx k w ∨ !s.swapOpen ctx k w then .fault .noSubject else .next (s.landSwap ctx k w)

/-- The ccy of 100 ms (R448). -/
def swapLimit : Nat := 160000000

/-- SWAP_IN_TIMEOUT: the source has not answered within 100 ms (R448). -/
def execSwapInTimeout (ctx crop : Nat) (s : State) : Result :=
  match s.swapReady ctx crop with
  | none => .fault .noSubject
  | some (k, w) => if s.swapAge w < swapLimit then .fault .noSubject else .next (s.failSwap ctx k w)

end Sys2Proof.Machine
end

