-- ==== Sys2Proof/Machine/CrossLane.lean ====
section
/-! DEFINITION. Cross-lane instructions (R155 to R159). -/

namespace Sys2Proof.Machine

/-- SHFL: the source lane from the member's lane and its B; the member's own A where none (R156). -/
def shflOp (x : FmtR0) (s : State) (src : Nat → Nat → Option Nat) : Result :=
  runPure (lrWord x.g none [x.a.toNat, x.b.toNat] [x.d.toNat]) s fun c f =>
    let own := readReg c.p f x.a.toNat
    let v := match src c.lane (readReg c.p f x.b.toNat).toNat with
      | none => own
      | some l =>
        match assoc c.parts l with
        | some g => readReg c.p g x.a.toNat
        | none => own
    (f.setV x.d.toNat v, 0, [])

/-- SHFL.IDX (R156). -/
def execShflIdx (x : FmtR0) (s : State) : Result :=
  shflOp x s fun _ b => some (b % 32)

/-- SHFL.UP (R156). -/
def execShflUp (x : FmtR0) (s : State) : Result :=
  shflOp x s fun l b => if l < b then none else some (l - b)

/-- SHFL.DN (R156). -/
def execShflDn (x : FmtR0) (s : State) : Result :=
  shflOp x s fun l b => if 31 < l + b then none else some (l + b)

/-- SHFL.XOR (R156). -/
def execShflXor (x : FmtR0) (s : State) : Result :=
  shflOp x s fun l b => some (l ^^^ (b % 32))

/-- VOTE: one result for every participant (R157). -/
def voteOp (x : FmtV0) (s : State) (op : List (Nat × Bool) → Nat) : Result :=
  runPure { guard := x.g.toNat, dst := [x.d.toNat] } s fun c f =>
    (f.setV x.d.toNat (BitVec.ofNat 32 (op (c.parts.map fun q => (q.1, q.2.pred x.pa.toNat)))), 0, [])

/-- VOTE.ANY (R157). -/
def execVoteAny (x : FmtV0) (s : State) : Result :=
  voteOp x s fun l => if l.any (·.2) then 1 else 0

/-- VOTE.ALL (R157). -/
def execVoteAll (x : FmtV0) (s : State) : Result :=
  voteOp x s fun l => if l.all (·.2) then 1 else 0

/-- VOTE.BAL (R157). -/
def execVoteBal (x : FmtV0) (s : State) : Result :=
  voteOp x s fun l => l.foldl (fun n q => if q.2 then n + 2 ^ q.1 else n) 0

/-- LRED: the reduction of A over the participants (R158). -/
def lredOp (x : FmtU0) (s : State) (op : Word → Word → Word) : Result :=
  runPure { lrWord x.g none [x.a.toNat] [x.d.toNat] with cost := 2 } s fun c f =>
    let vs := c.parts.map fun q => readReg c.p q.2 x.a.toNat
    let r := match vs with
      | [] => 0
      | v :: rest => rest.foldl op v
    (f.setV x.d.toNat r, 0, [])

/-- LRED.ADD (R158). -/
def execLredAdd (x : FmtU0) (s : State) : Result :=
  lredOp x s fun a b => a + b

/-- LRED.MIN (R158). -/
def execLredMin (x : FmtU0) (s : State) : Result :=
  lredOp x s fun a b => if b.slt a then b else a

/-- LRED.MAX (R158). -/
def execLredMax (x : FmtU0) (s : State) : Result :=
  lredOp x s fun a b => if a.slt b then b else a

/-- LRED.AND (R158). -/
def execLredAnd (x : FmtU0) (s : State) : Result :=
  lredOp x s fun a b => a &&& b

/-- LRED.OR (R158). -/
def execLredOr (x : FmtU0) (s : State) : Result :=
  lredOp x s fun a b => a ||| b

/-- LRED.XOR (R158). -/
def execLredXor (x : FmtU0) (s : State) : Result :=
  lredOp x s fun a b => a ^^^ b

/-- LRED.MIN.U (R158). -/
def execLredMinU (x : FmtU0) (s : State) : Result :=
  lredOp x s fun a b => if b.ult a then b else a

/-- LRED.MAX.U (R158). -/
def execLredMaxU (x : FmtU0) (s : State) : Result :=
  lredOp x s fun a b => if a.ult b then b else a

/-- MATCH: the lanes whose A equals the member's own (R159). -/
def execMatchLanes (x : FmtU0) (s : State) : Result :=
  runPure (lrWord x.g none [x.a.toNat] [x.d.toNat]) s fun c f =>
    let own := readReg c.p f x.a.toNat
    let n := c.parts.foldl (fun n q => if readReg c.p q.2 x.a.toNat = own then n + 2 ^ q.1 else n) 0
    (f.setV x.d.toNat (BitVec.ofNat 32 n), 0, [])

end Sys2Proof.Machine
end

