-- ==== Sys2Proof/Machine/Recovery.lean ====
section
/-! DEFINITION. Errors of storage and links, coming up, clocks and power, monitors, the reset of the package (R27, R339, R456 to R471). -/

namespace Sys2Proof.Machine

/-! ### Errors of storage (R457, R458) -/

/-- Whether an address lies in the scratchpads or the halt frames. -/
def inSram (a : Nat) : Bool :=
  decide (2 ^ 40 ≤ a ∧ a < 2 ^ 40 + 128 * 2 ^ 20) || decide (2 ^ 41 ≤ a ∧ a < 2 ^ 41 + 128 * 2 ^ 20)

/-- Whether an address lies in HBM. -/
def inHbm (a : Nat) : Bool :=
  decide (a < 256 * chanSlots * 128)

/-- The package channel of an HBM address (R397). -/
def chanOf (a : Nat) : Nat :=
  a / 128 / chanSlots

/-- Poisons every granule of a line in memory. -/
def State.poisonLine (s : State) (a : Nat) : State :=
  s.poisonGranules (granules (a / 128 * 128) 128)

/-- A plot stops for good: with stop cause 0 and escalated, or escalated from the halt that it is in (R426, R456, R457). -/
def State.stopForGood (s : State) (p : Plot) : State :=
  match p.halt with
  | none => s.stopPlot p.pid true
  | some h =>
    if h.phase = .stopping then s.stopPlot p.pid true
    else if h.phase = .escalated ∨ h.phase = .saving then s
    else s.escalate p.pid

/-- An error in a line of an L1, in the 8 bytes at an offset: written or partial-sum bytes are poisoned, a clean line is fetched again (R457). -/
def State.l1Error (s : State) (core : Nat) (l : L1Line) (off : Nat) : State :=
  let w := off / 8 * 8
  let record (t : State) (sev : Nat) : State := t.logError (dieOf core) 3 sev (core % 32) (some l.ctx) l.obj (128 * l.line)
  let lost := l.kind == .psum || l.kind == .owned || l.written.any fun o => decide (w ≤ o ∧ o < w + 8)
  if lost then record (s.modCore core fun k => k.setLine { l with errs := addNat l.errs (off / 16), tags := without l.tags [off / 16] }) 1
  else
    let dirty := l.kind == .partialDirty
    record (s.modCore core fun k =>
      if dirty then k.setLine { l with bytes := l.bytes.filter fun q => !decide (w ≤ q.1 ∧ q.1 < w + 8) } else k.dropLine l) 0

/-- A seedbed slot of a core is poisoned, with the tile of which it holds a part. -/
def Core.poisonSlot (k : Core) (slot : Nat) : Core :=
  let hit (q : Nat × SlotState) : Bool := slotsMeet (q.1, slotCount q.2.ty) (slot, 1)
  let slots := k.mat.st.slots.map fun q => if hit q then (q.1, { q.2 with poisoned := true }) else q
  { k with mat := { k.mat with st := { k.mat.st with slots := slots } } }

/-- An accumulator row of a core is poisoned. -/
def Core.poisonRow (k : Core) (bank row : Nat) : Core :=
  { k with mat := { k.mat with st := { k.mat.st with rows := k.mat.st.rows.map fun r =>
      if r.bank = bank ∧ r.row = row then { r with poisoned := true } else r } } }

/-! ### Lost control (R462) -/

/-- The address of a line of an object for the die that holds it. -/
def State.lineAt (s : State) (r : LineRef) : Option Nat :=
  (s.place? (r.rep - 1) r.ctx r.obj (128 * r.line)).map (·.addr)

/-- Whether a request waits on a line. -/
def State.waitsOn (s : State) (g : Request) (r : LineRef) : Bool :=
  g.ref s == some r

/-- The home gives a line up: poisoned in the directory and in memory, its registrations, records, contributors and owner cleared, the copies
that the transaction took back gone; every request that waits on it is answered from the poisoned line (R462). -/
def State.loseLine (s : State) (r : LineRef) : State :=
  let t := match s.lineAt r with
    | some a => s.poisonLine a
    | none => s
  let held := t.owners.filter fun q => q.1 == r
  let t := held.foldl (fun t q => t.modCore q.2 fun k => { k with lines := k.lines.filter fun l => !(l.ref == r && l.kind == .owned) }) t
  let t := (t.contribs.filter fun q => q.1 == r).foldl (fun t q =>
    t.modCore q.2 fun k => { k with lines := k.lines.filter fun l => !(l.ref == r && l.kind == .psum) }) t
  let waiting := t.homeQ.filter fun q => t.waitsOn q r
  let t : State := { t with
    relRecs := t.relRecs.filter fun q => q.1 != r
    owners := t.owners.filter fun q => q.1 != r
    contribs := t.contribs.filter fun q => q.1 != r
    atomLast := t.atomLast.filter fun q => q.1 != r
    engineOwned := t.engineOwned.filter fun q => q.1 != r
    readers := t.readers.filter fun q => q.1 != r
    writeBacks := t.writeBacks.filter fun w => !(w.line.ref == r && (w.line.kind == .owned || w.line.kind == .psum))
    drains := t.drains.filter fun d => d.line != r
    homeQ := t.homeQ.filter fun q => !t.waitsOn q r }
  waiting.foldl (fun t q => t.serve { q with draining := false }) t

/-- A clean copy in a slice, with its die's record of SRC 7; the line is fetched again at its next use (R457). -/
def State.dropL2 (s : State) (a : Nat) : State :=
  let gone := s.l2.filter fun l => l.slot == a / 128
  let t : State := { s with l2 := s.l2.filter fun l => l.slot != a / 128 }
  (gone.foldl (fun t l => t.sumsToShadow l.ref) t).logError (chanOf a / 64) 7 0 (chanOf a) none 0 0

/-- Whether a slice holds a line, as the newest copy or not. -/
def State.inL2 (s : State) (a : Nat) (dirty : Bool) : Bool :=
  s.l2.any fun l => l.slot == a / 128 && l.dirty == dirty

/-- Whether an address lies in a page that a slice pins (R195, R282). -/
def State.isPinned (s : State) (a : Nat) : Bool :=
  s.ctxs.any fun c => (List.range c.otne.toNat).any fun obj =>
    match s.entry? c obj with
    | none => false
    | some e => obj != 0 && (List.range e.npages).any fun p => [0, 1, 2, 3].any fun die =>
        let d := e.localDesc die (s.desc c obj e p)
        d.home == 2 && d.place == 2 && d.res == 1 && decide (d.lineAddr 0 ≤ a ∧ a < d.lineAddr 0 + 65536)

/-- The object and offset of the first of the lines that an error concerns. -/
def firstLine (l : List LineRef) : Option Nat × Nat × Nat :=
  match l with
  | r :: _ => (some r.ctx, r.obj, 128 * r.line)
  | [] => (none, 0, 0)

/-- Whether the instruction cache or the loop buffer of a core holds a line of code. -/
def Core.holdsCode (k : Core) (r : LineRef) : Bool :=
  (k.iline? r.ctx r.obj r.line).isSome || k.buffersLine r.ctx r.obj r.line

/-! ### UNCORRECTABLE_ERROR and SCRUB (R457, R458) -/

/-- The fate of an uncorrectable error by the structure that holds it; none where the structure holds no such thing (R457). HBM under a line that
its slice holds newer keeps no byte that is read. -/
def State.errorAt (s : State) (e : ErrSite) : Option State :=
  match e with
  | .registerFile pid fid =>
    match s.plot? pid with
    | none => none
    | some p =>
      if (p.fibre? fid).isNone then none
      else some ((s.logError (dieOf p.core) 1 1 (p.core % 32) (some p.ctx) 0 0).stopForGood p)
  | .memory a =>
    if inSram a then some ((s.poisonGranules [a / 16]).logError (dieOf (sramCore a)) 2 1 (sramCore a % 32) none 0 0)
    else if inHbm a then some ((if s.inL2 a true then s else s.poisonLine a).logError (chanOf a / 64) 8 1 (chanOf a) none 0 0)
    else none
  | .l1 core r off =>
    if core < 128 ∧ off < 128 then
      ((s.core core).lines.find? fun l => l.ref == r).map fun l => s.l1Error core l off
    else none
  | .icache core r =>
    if core < 128 ∧ (s.core core).holdsCode r then
      some ((s.recallCode (· == core) r.ctx r.obj (· == r.line)).logError (dieOf core) 4 0 (core % 32) (some r.ctx) r.obj (128 * r.line))
    else none
  | .l2Clean a => if inHbm a && s.inL2 a false then some (s.dropL2 a) else none
  | .l2Line a => if inHbm a && (s.inL2 a true || s.isPinned a) then some ((s.poisonLine a).logError (chanOf a / 64) 7 1 (chanOf a) none 0 0) else none
  | .directory r =>
    (s.lineAt r).map fun a => (s.loseLine r).logError (chanOf a / 64) 7 1 (chanOf a) (some r.ctx) r.obj (128 * r.line)
  | .seedbed core slot =>
    if core < 128 then some ((s.modCore core fun k => k.poisonSlot slot).logError (dieOf core) 5 1 (core % 32) none 0 0) else none
  | .accumulator core bank row =>
    if core < 128 then some ((s.modCore core fun k => k.poisonRow bank row).logError (dieOf core) 6 1 (core % 32) none 0 0) else none

/-- UNCORRECTABLE_ERROR (R457). -/
def execUncorrectableError (at_ : ErrSite) (s : State) : Result :=
  match s.errorAt at_ with
  | some t => .next t
  | none => .fault .noSubject

/-- An error that its code has corrected in place, by the structure that holds it: one corrected record (R456, R458, R466); none where the structure
holds no such thing. -/
def State.correctedAt (s : State) (e : ErrSite) : Option State :=
  match e with
  | .registerFile pid fid =>
    match s.plot? pid with
    | none => none
    | some p => if (p.fibre? fid).isNone then none else some (s.logError (dieOf p.core) 1 0 (p.core % 32) (some p.ctx) 0 0)
  | .memory a =>
    if inSram a then some (s.logError (dieOf (sramCore a)) 2 0 (sramCore a % 32) none 0 0)
    else if inHbm a then some (s.logError (chanOf a / 64) 8 0 (chanOf a) none 0 0)
    else none
  | .l1 core r off =>
    if core < 128 ∧ off < 128 ∧ (s.core core).lines.any (fun l => l.ref == r) then
      some (s.logError (dieOf core) 3 0 (core % 32) (some r.ctx) r.obj (128 * r.line))
    else none
  | .icache core r =>
    if core < 128 ∧ (s.core core).holdsCode r then some (s.logError (dieOf core) 4 0 (core % 32) (some r.ctx) r.obj (128 * r.line)) else none
  | .l2Clean a => if inHbm a && s.inL2 a false then some (s.logError (chanOf a / 64) 7 0 (chanOf a) none 0 0) else none
  | .l2Line a => if inHbm a && (s.inL2 a true || s.isPinned a) then some (s.logError (chanOf a / 64) 7 0 (chanOf a) none 0 0) else none
  | .directory r => (s.lineAt r).map fun a => s.logError (chanOf a / 64) 7 0 (chanOf a) (some r.ctx) r.obj (128 * r.line)
  | .seedbed core _ => if core < 128 then some (s.logError (dieOf core) 5 0 (core % 32) none 0 0) else none
  | .accumulator core _ _ => if core < 128 then some (s.logError (dieOf core) 6 0 (core % 32) none 0 0) else none

/-- SCRUB: a good word stays as it is; one that its code corrects is written again, with a corrected record; one that it cannot correct has the fate
that its structure gives (R456 to R458). -/
def execScrub (at_ : ErrSite) (bad : ScrubFind) (s : State) : Result :=
  match bad with
  | .clean => .next s
  | .corrected =>
    match s.correctedAt at_ with
    | some t => .next t
    | none => .fault .noSubject
  | .uncorrectable => execUncorrectableError at_ s

/-! ### Links (R460 to R463) -/

/-- The link of a boundary. -/
def State.link? (s : State) (n : Nat) : Option Link :=
  s.links.find? fun l => l.num == n

/-- Replaces a boundary's link. -/
def State.setLink (s : State) (l : Link) : State :=
  { s with links := s.links.map fun k => if k.num == l.num then l else k }

/-- A boundary that retrains from this ccy on, unless it retrains already (R460). -/
def Link.retrain (l : Link) (now : Nat) : Link :=
  if l.retraining then l else { l with retraining := true, since := now }

/-- A flit is lost after 8 failed replays: the boundary retrains (R460). -/
def State.loseFlit (s : State) (l : Link) : State :=
  (s.setLink ({ l with replays := 0 }.retrain s.now)).logError (boundaryDie l.num) 9 1 l.num none 0 0

/-- A core's read answer for a line is lost: granules of its L1 copy are poisoned, and the loads of the line that still wait are answered with
POISON (R459, R461). -/
def State.loseAnswer (s : State) (core : Nat) (r : LineRef) (gs : List Nat) : State :=
  let t := s.modCore core fun k => { k with lines := k.lines.map fun l =>
    if l.ref == { r with rep := 0 } then { l with poison := withAll l.poison gs, tags := without l.tags gs } else l }
  let mine (q : HomeReq) : Bool := q.core == core && q.ctx == r.ctx && q.obj == r.obj && q.off / 128 == r.line && q.op.plainLoad
  let waiting := (t.homeQ.flatMap (·.parts)).filter mine
  let queue := (t.homeQ.map fun g => { g with parts := g.parts.filter fun q => !mine q }).filter fun g => !g.parts.isEmpty
  waiting.foldl (fun t q => t.refuse q .poison) { t with homeQ := queue }

/-- FLIT_REPLAY: a failed replay is counted; a good one ends the count, the error corrected; the flit that is lost poisons the data that it carried
at its destination: the home of writes, the requester of reads (R456, R460, R461), and control that it carried is missed by its home, whose
transaction on those lines waits (R462). -/
def execFlitReplay (boundary : Nat) (load : FlitLoad) (s : State) : Result :=
  match s.link? boundary with
  | none => .fault .noSubject
  | some l =>
    if l.down then .fault .noSubject
    else
      match load with
      | .failed => if l.replays < 8 then .next (s.setLink { l with replays := l.replays + 1 }) else .fault .noSubject
      | .replayed => .next ((s.setLink { l with replays := 0 }).logError (boundaryDie l.num) 9 0 l.num none 0 0)
      | .data gs => if l.replays < 8 then .fault .noSubject else .next ((s.loseFlit l).poisonGranules gs)
      | .answer core r gs => if l.replays < 8 ∨ 128 ≤ core then .fault .noSubject else .next ((s.loseFlit l).loseAnswer core r gs)
      | .control ls ago =>
        if l.replays < 8 then .fault .noSubject
        else .next { s.loseFlit l with lostControl := s.lostControl ++ [⟨boundary, ls, s.now - ago⟩] }

/-- LINK_RETRAIN_COMPLETE (R460). -/
def execLinkRetrainComplete (boundary : Nat) (s : State) : Result :=
  match s.link? boundary with
  | some l => if l.retraining && !l.down then .next (s.setLink { l with retraining := false }) else .fault .noSubject
  | none => .fault .noSubject

/-- The ccy of 10 ms, after which a boundary that still retrains is down (R460). -/
def downCcy : Nat := 16000000

/-- LINK_DOWN: a boundary that has not retrained within 10 ms is down, which is fatal (R456, R460). -/
def execLinkDown (boundary : Nat) (s : State) : Result :=
  match s.link? boundary with
  | some l =>
    if l.retraining && !l.down && decide (l.since + downCcy ≤ s.now) then
      .next ((s.setLink { l with down := true }).logError (boundaryDie boundary) 9 2 boundary none 0 0).fatal
    else .fault .noSubject
  | none => .fault .noSubject

/-- The ccy after which a home gives up a transaction whose control flit is lost (R462). -/
def timeoutCcy : Nat := 16384

/-- The lost control flit of a boundary and some lines whose time is over. -/
def State.lostDue (s : State) (boundary : Nat) (lines : List LineRef) : Option LostControl :=
  s.lostControl.find? fun q => q.boundary == boundary && q.lines == lines && decide (q.at_ + timeoutCcy ≤ s.now)

/-- CONTROL_TIMEOUT: 16,384 ccy after it has sent the flit that awaits the lost answer, the home gives up the lines of the transaction (R462). -/
def execControlTimeout (boundary : Nat) (lines : List LineRef) (s : State) : Result :=
  match s.link? boundary, s.lostDue boundary lines with
  | some l, some q =>
    if l.down then .fault .noSubject
    else
      let s : State := { s with lostControl := s.lostControl.erase q }
      let f := firstLine lines
      let die := match lines.head?.bind s.lineAt with
        | some a => if inHbm a then chanOf a / 64 else 0
        | none => 0
      .next (((lines.foldl (fun t r => t.loseLine r) s).setLink (l.retrain s.now)).logError die 15 1 boundary f.1 f.2.1 f.2.2)
  | _, _ => .fault .noSubject

/-- LATE_ANSWER: an answer after the timeout is discarded (R462). -/
def execLateAnswer (s : State) : Result :=
  .next s

/-- The running COPY or COLL of a core with the lowest place in the order of entry: no other command reaches the Yotis links (R24). -/
def Core.oldestYotis (k : Core) : Option WainRun :=
  minBy? (k.wainRun.filter fun r => r.cmd.isCopy || r.cmd.isColl) (·.cmd.order)

/-- YOTIS_FLIT_LOST: the command that sent the flit ends with a POISON fault, and the port retrains; the record is that of the port's die (R24,
R302, R463). -/
def execYotisFlitLost (port core : Nat) (s : State) : Result :=
  match (s.core core).oldestYotis with
  | none => .fault .noSubject
  | some r =>
    if 12 ≤ port then .fault .noSubject
    else
      let rec_ : FaultRec := r.cmd.faultRec .poison 0 0 5
      let t := s.endWain core { r with failed := some rec_ }
      .next (({ t with yotisDown := addNat t.yotisDown port } : State).logError (port / 3) 11 1 port none 0 0)

/-- YOTIS_RETRAIN: a port comes back or stays down (R463). -/
def execYotisRetrain (port : Nat) (up : Bool) (s : State) : Result :=
  if 12 ≤ port then .fault .noSubject
  else .next { s with yotisDown := if up then s.yotisDown.filter (· != port) else addNat s.yotisDown port }

/-- HOST_LINK_DOWN: fatal (R456, R463). -/
def execHostLinkDown (s : State) : Result :=
  .next ({ s with status := { s.status with hostUp := false } }.logError 0 10 2 0 none 0 0).fatal

/-! ### Coming up (R468, R469) -/

/-- POWER_GOOD: the dies have power, the stages begin (R468, R470). -/
def execPowerGood (s : State) : Result :=
  if s.status.good then .fault .noSubject
  else
    .next { s with
      status := { s.status with good := true, stage := 0, ready := false, fail := 0, fdet := 0 }
      dies := s.dies.map fun d => { d with powered := true } }

/-- Memory initialisation: every HBM line and SRAM word zero, poison and tags clear (R468). -/
def State.clearMemory (s : State) : State :=
  { s with
    mem := s.mem.filter fun c => decide (2 ^ 50 ≤ c.1)
    tags := s.tags.filter fun g => decide (2 ^ 46 ≤ g)
    poison := s.poison.filter fun g => decide (2 ^ 46 ≤ g) }

/-- STAGE_COMPLETE: the next stage is done, or has failed and leaves READY clear (R468, R469). -/
def execStageComplete (fail fdet : Nat) (s : State) : Result :=
  let st := s.status
  if !st.good || decide (6 ≤ st.stage) || st.fail != 0 then .fault .noSubject
  else if fail ≠ 0 then .next { s with status := { st with fail := fail % 256, fdet := fdet % 65536 } }
  else
    let t : State := { s with status := { st with stage := st.stage + 1, ready := st.stage + 1 == 6 } }
    .next (if st.stage + 1 = 4 then t.clearMemory else t)

/-- PERST_DEASSERT: the host port trains by itself (R468). -/
def execPerstDeassert (s : State) : Result :=
  .next { s with status := { s.status with hostUp := true, perst := some s.now } }

/-- How the host port answers a PCIe request (R468). -/
inductive PcieAnswer where
  | silent
  | retryStatus
  | unsupported
  | completes
  deriving DecidableEq, Repr

/-- The ccy of 100 ms. -/
def perstCcy : Nat := 160000000

/-- The host port's answer to a configuration request: from 100 ms after PERST# is deasserted, Configuration Request Retry Status until stage 2 is
complete (R468). -/
def State.configAnswer (s : State) : PcieAnswer :=
  if !s.status.perst.any fun t => decide (t + perstCcy ≤ s.now) then .silent else if s.status.stage < 2 then .retryStatus else .completes

/-- The host port's answer to a PCIe memory request: Unsupported Request before READY (R468). -/
def State.pcieAnswer (s : State) : PcieAnswer :=
  if s.status.ready then .completes else .unsupported

/-- A die after a reset of the package: its error queue keeps its records (R10, R456, R466). -/
def Die.restart (d : Die) : Die :=
  { Die.reset d.num with errq := d.errq, overflow := d.overflow, errSeq := d.errSeq, errBase := d.errSeq }

/-- PACKAGE_RESET: the package is as after reset; the error queues, the host's memory, what has been reported and what is still to come from
outside stay (R10, R456, R466). -/
def execPackageReset (s : State) : Result :=
  .next { State.reset with
    dies := s.dies.map Die.restart,
    mem := s.mem.filter (fun c => decide (2 ^ 50 ≤ c.1 ∧ c.1 < 2 ^ 60)), reports := s.reports, inputs := s.inputs, now := s.now,
    freeCtr := s.freeCtr }

/-! ### What the host reads (R467, R469) -/

/-- The status register: READY, STAGE, FAIL and FDET (R469). -/
def Status.word (s : Status) : BitVec 32 :=
  BitVec.ofNat 16 s.fdet ++ BitVec.ofNat 8 s.fail ++ (0 : BitVec 4) ++ BitVec.ofNat 3 s.stage ++ BitVec.ofBool s.ready

/-- The capability list's constant bits, FEAT at the top (R467). -/
def capabilityList : BitVec 256 :=
  (0 : BitVec 160) ++ (0x1F : BitVec 32) ++ (12 : BitVec 8) ++ (48 : BitVec 8) ++ (8 : BitVec 8) ++ (32 : BitVec 8) ++ (4 : BitVec 8) ++
    (0xB0 : BitVec 8) ++ (0x4128 : BitVec 16)

/-- What a read of the status register through the host port's first memory BAR gives: before READY that request is unsupported, and I3C alone reads it
(R468, R469). -/
def State.readStatusBar (s : State) : Option (BitVec 32) :=
  if s.pcieAnswer = .completes then some s.status.word else none

/-- What a read of the capability list gives: the list from the end of stage 2 on (R467). -/
def State.readCapabilityList (s : State) : Option (BitVec 256) :=
  if 2 ≤ s.status.stage then some capabilityList else none

/-! ### Clocks and power (R27, R339, R470) -/

/-- Sets a core's clock in MHz. -/
def State.setClock (s : State) (core mhz : Nat) : State :=
  s.modCore core fun k => { k with clock := mhz }

/-- Twice the median of a list (the mean of the two in the middle where their number is even). -/
def median2 (l : List Nat) : Nat :=
  let m := sortBy id l
  m.getD ((m.length - 1) / 2) 0 + m.getD (m.length / 2) 0

/-- A core's clock is lowered, by how much the spec does not say (R27, R470; log entry 9). -/
def State.lowerClock (s : State) (core : Nat) : State :=
  let c := (s.core core).clock
  let (n, t) := s.draw
  t.setClock core (if 1400 < c then 1400 + n % (c - 1400) else c)

/-- A die's budget in watts: one quarter of the module's power limit (R339). -/
def State.dieBudget (s : State) : Nat :=
  s.powerLimit / 4

/-- Whether a die draws more than its budget. What it draws is not stated, a free value (R27, R339, R470; log entry 9). -/
def State.overBudget (s : State) : Bool × State :=
  let (watts, t) := s.draw
  (decide (s.dieBudget < watts), t)

/-- One core's move at the end of a window: below the median it rises, unless the rise would exceed the die's budget; above it falls (R339). -/
def State.moveClock (s : State) (med : Nat) (rises : Bool) (q : Nat × Nat) : State :=
  let c := (s.core q.1).clock
  if 2 * q.2 < med then
    if rises && decide (c + 25 ≤ 1800) then (if s.overBudget.1 then s.overBudget.2 else s.overBudget.2.setClock q.1 (c + 25)) else s
  else if med < 2 * q.2 ∧ 1425 ≤ c then s.setClock q.1 (c - 25)
  else s

/-- The cores of a die that take part, each with its fraction of fibre-ccy parked in BARW, over one common denominator (R339). -/
def State.fractions (s : State) (die : Nat) : List (Nat × Nat) :=
  let mine := s.cores.filter fun k => dieOf k.num == die && k.phases != 0
  let all := mine.foldl (fun n k => n * max 1 k.alive) 1
  mine.map fun k => (k.num, k.parked * (all / max 1 k.alive))

/-- The ccy of a window of the power controller: 20 µs (R339). -/
def powerWindow : Nat := 32000

/-- Whether a die's window ends now. -/
def State.powerDue (s : State) (die : Nat) : Bool :=
  (s.dies.any fun d => d.num == die) && decide ((s.die die).window + powerWindow ≤ (s.die die).cyc)

/-- A new window of a die's power controller. -/
def State.newWindow (s : State) (die : Nat) : State :=
  let t : State := { s with cores := s.cores.map fun k => if dieOf k.num == die then { k with parked := 0, alive := 0, phases := 0 } else k }
  t.modDie die fun d => { d with throttled := false, window := d.cyc }

/-- CLOCK_REBALANCE: at the end of a window, with the die's budget and the fractions that its controller has measured in it, a die over its budget
lowers its clocks; then the cores that take part move by their parked fractions, unless the die's clocks are fixed (R27, R339). A step that
names another budget, or fractions that are not the window's, does not happen. The clocks fall to the budget before any rises. -/
def execClockRebalance (die budget : Nat) (frac : List (Nat × Nat)) (s : State) : Result :=
  if !(s.powerDue die && budget == s.dieBudget && frac == s.fractions die) then .fault .noSubject
  else
    let d := s.die die
    let l := s.fractions die
    let t := s.overBudget.2
    let t := if s.overBudget.1 then (dieCores die).foldl (fun t k => t.lowerClock k) t else t
    let moved :=
      if d.fixedClock then t
      else l.foldl (fun t q => t.moveClock (median2 (l.map (·.2))) (!d.throttled) q) t
    .next (moved.newWindow die)

/-- THERMAL_THROTTLE: at 95 °C the die's clocks are lowered (R470). -/
def execThermalThrottle (die : Nat) (s : State) : Result :=
  if (s.dies.any fun d => d.num == die) then
    .next (((dieCores die).foldl (fun t k => t.lowerClock k) s).modDie die fun d => { d with throttled := true })
  else .fault .noSubject

/-- The dies lose their power: what they held is gone, but for the error queues; what has been reported and what is still to come from outside
stays (R470; log entry 11). -/
def State.powerOff (s : State) : State :=
  { State.reset with
    dies := s.dies.map fun d => { d.restart with powered := false }
    mem := s.mem.filter (fun c => decide (2 ^ 50 ≤ c.1 ∧ c.1 < 2 ^ 60)), reports := s.reports, inputs := s.inputs, now := s.now,
    freeCtr := s.freeCtr }

/-- THERMAL_SHUTDOWN: at 105 °C a fatal record with SRC 17, and the dies lose their power (R470). -/
def execThermalShutdown (die : Nat) (s : State) : Result :=
  if (s.dies.any fun d => d.num == die) then
    let t := ((s.logError die 17 2 die none 0 0).fatal).powerOff
    .next { t with status := { t.status with fail := 6, fdet := die, fatal := true } }
  else .fault .noSubject

/-- MANAGEMENT_REGISTER_WRITE: a value outside its range changes nothing (R339, R458, R470). -/
def execManagementRegisterWrite (reg : MgmtReg) (v : Nat) (s : State) : Result :=
  match reg with
  | .powerLimit => .next (if 800 ≤ v ∧ v ≤ 2400 then { s with powerLimit := v } else s)
  | .scrubPeriod => .next (if 1 ≤ v ∧ v ≤ 24 then { s with scrubHours := v } else s)
  | .fixedClocks die =>
    let t := s.modDie die fun d => { d with fixedClock := v != 0 }
    .next (if v = 0 ∨ 4 ≤ die then t else (dieCores die).foldl (fun t k => t.setClock k 1600) t)

/-! ### Monitors (R471) -/

/-- Results of a window with no sample yet. -/
def MonRes.empty : MonRes :=
  ⟨0xFFFFFFFF, 0, 0, List.replicate 16 0⟩

/-- One sample: MIN, MAX, COUNT and the bin of its value, each saturating (R471). -/
def addSample (r : MonRes) (base shift v : Nat) : MonRes :=
  let bin := if v < base then 0 else min 15 ((v - base) / 2 ^ shift)
  { min := min r.min v, max := max r.max v, count := min (2 ^ 64 - 1) (r.count + 1)
    bins := r.bins.modify bin fun n => min (2 ^ 32 - 1) (n + 1) }

/-- A monitor of a die. -/
def Die.monitor? (d : Die) (mon : Nat) : Option Monitor :=
  d.monitors.find? fun m => m.num == mon

/-- Replaces a monitor of a die. -/
def State.setMonitor (s : State) (die : Nat) (m : Monitor) : State :=
  s.modDie die fun d => { d with monitors := d.monitors.map fun x => if x.num == m.num then m else x }

/-- Whether a monitor samples: RUN, a source of R471, a window length of R471. -/
def Monitor.runs (m : Monitor) : Bool :=
  let w := m.ctl.toNat
  bit w 40 && decide (1 ≤ field w 56 8 ∧ field w 56 8 ≤ 8) && decide (10 ≤ field w 0 8 ∧ field w 0 8 ≤ 40)

/-- Whether the State holds a monitor's source: the queue of a home, a core's clock, the parked fraction of a core (R471). -/
def Monitor.held (m : Monitor) : Bool :=
  [3, 7, 8].contains (field m.ctl.toNat 56 8)

/-- The value of a source that the State holds: the depth of the queue of a channel's home, the clock of a core of the die in MHz, the fraction of its
fibre-ccy parked in BARW in this window of the power controller, per mille (R339, R471). -/
def State.sourceOf (s : State) (die : Nat) (m : Monitor) : Nat :=
  let sel := field m.ctl.toNat 48 8
  let k := s.core (32 * die + sel % 32)
  match field m.ctl.toNat 56 8 with
  | 3 => (s.homeQ.filter fun g => s.homeOf g == sel).length
  | 7 => k.clock
  | _ => 1000 * k.parked / k.alive

/-- The monitors of a die take a sample of the sources that the State holds, in each ccy; how often a monitor samples is not stated (log entry 9). -/
def State.sampleDie (s : State) (d : Die) : Die :=
  { d with monitors := d.monitors.map fun m =>
      if m.runs && m.held then
        { m with run := addSample m.run (field m.ctl.toNat 8 32) (field m.ctl.toNat 43 5) (min (s.sourceOf d.num m) (2 ^ 32 - 1)) }
      else m }

/-- The samples of a window: their number and values are the sources' own, which the spec does not give as state (log entry 9). -/
def State.samples (s : State) (r : MonRes) (base shift n : Nat) : State × MonRes :=
  match n with
  | 0 => (s, r)
  | k + 1 =>
    let (v, t) := s.draw
    t.samples (addSample r base shift (v % 2 ^ 32)) base shift k

/-- The results that a window freezes: those of its samples where the State holds the source, which are taken in each ccy, else of free ones; MIN and
MAX of no sample are not stated (log entry 9). -/
def State.windowOf (s : State) (m : Monitor) : State × MonRes :=
  let w := m.ctl.toNat
  let (t, r) :=
    if m.held then (s, m.run)
    else
      let (n, t) := s.draw
      t.samples m.run (field w 8 32) (field w 43 5) n
  if r.count = 0 then
    let (a, t) := t.draw
    let (b, t) := t.draw
    (t, { r with min := a % 2 ^ 32, max := b % 2 ^ 32 })
  else (t, r)

/-- The monitor of a die whose window ends. -/
def State.windowDue (s : State) (die mon : Nat) : Option Monitor :=
  let d := s.die die
  match d.monitor? mon with
  | some m => if m.runs && decide (m.start + 2 ^ field m.ctl.toNat 0 8 ≤ d.cyc) then some m else none
  | none => none

/-- MONITOR_WINDOW: the results are frozen, a new window begins (R471). -/
def execMonitorWindow (die mon : Nat) (s : State) : Result :=
  match s.windowDue die mon with
  | none => .fault .noSubject
  | some m =>
    let (t, r) := s.windowOf m
    .next (t.setMonitor die { m with run := .empty, frozen := r, start := (s.die die).cyc })

/-- A monitor's control word as it is kept: the reserved bits and a reserved SRC are 0 (R4, R471). -/
def monitorWord (w : BitVec 64) : BitVec 64 :=
  let v := w &&& ~~~((3 : BitVec 64) <<< (41 : Nat))
  if 8 < field w.toNat 56 8 then v &&& ~~~((255 : BitVec 64) <<< (56 : Nat)) else v

/-- MONITOR_CONTROL_WRITE: a new control word begins a new window; a cleared RUN freezes nothing (R471). -/
def execMonitorControlWrite (die mon : Nat) (w : BitVec 64) (s : State) : Result :=
  match (s.die die).monitor? mon with
  | none => .fault .noSubject
  | some m => .next (s.setMonitor die { m with ctl := monitorWord w, run := .empty, start := (s.die die).cyc })

end Sys2Proof.Machine
end

