-- ==== Sys2Proof/Machine/Sfu.lean ====
section
/-! DEFINITION. SFU instructions (R152 to R154). RCP, RSQ and SQRT are correctly rounded. For the others the exact result is
computed to 400 fraction bits, and the result is one of the values within the bound of R153: which one is the free choice
Config.sfuChoice, or Config.sfuStep for the functions that are monotone. -/

namespace Sys2Proof.Machine

/-- Fraction bits of the fixed-point arithmetic. -/
def sfuP : Nat := 400

/-- One in fixed point. -/
def sfuOne : Nat := 2 ^ sfuP

/-- ln 2 in fixed point. -/
def sfuLn2 : Nat := 0xb17217f7d1cf79abc9e3b39803f2f6af40f343267298b62d8a0d175b8baafa2be7b876206debac98559552fb4afa1b10ed2e

/-- pi / 2 in fixed point. -/
def sfuHalfPi : Nat := 0x1921fb54442d18469898cc51701b839a252049c1114cf98e804177d4c76273644a29410f31c6809bbdf2a33679a7486366056

/-- The sum of t x^k / (k+1)(k+2)... : the terms of the exponential series from term number k on. -/
def expSeries (x : Int) (n k : Nat) (t : Int) : Int :=
  match n with
  | 0 => 0
  | j + 1 => t + expSeries x j (k + 1) (t * x / (sfuOne * (k + 1) : Nat))

/-- e^x in fixed point for |x| at most 1. -/
def expFix (x : Int) : Int :=
  expSeries x 95 0 sfuOne

/-- The alternating series of sine (k = 1, t = x) or cosine (k = 0, t = 1) in fixed point. -/
def trigSeries (xx : Int) (n k : Nat) (t : Int) : Int :=
  match n with
  | 0 => 0
  | j + 1 => t + trigSeries xx j (k + 2) (-(t * xx / sfuOne) / ((k + 1) * (k + 2) : Nat))

/-- sin x in fixed point for 0 ≤ x < pi / 2. -/
def sinFix (x : Int) : Int :=
  trigSeries (x * x / sfuOne) 52 1 x

/-- cos x in fixed point for 0 ≤ x < pi / 2. -/
def cosFix (x : Int) : Int :=
  trigSeries (x * x / sfuOne) 52 0 sfuOne

/-- The sum of r^(2k+1) / (2k+1): the area tangent series. -/
def atanhSeries (rr : Int) (n k : Nat) (t : Int) : Int :=
  match n with
  | 0 => 0
  | j + 1 => t / (k : Nat) + atanhSeries rr j (k + 2) (t * rr / sfuOne)

/-- ln z in fixed point for z in [1, 2]. -/
def lnFix (z : Int) : Int :=
  let r := (z - sfuOne) * sfuOne / (z + sfuOne)
  2 * atanhSeries (r * r / sfuOne) 130 1 r

/-- A number in fixed point, rounded down. -/
def Dy.fix (d : Dy) : Int :=
  if 0 ≤ d.e + sfuP then d.m * pow2 (d.e + sfuP) else d.m / pow2 (-(d.e + sfuP))

/-- A fixed-point number. -/
def ofFix (x : Int) : Dy :=
  ⟨x, -(sfuP : Int)⟩

/-- e^x for a fixed-point x of magnitude up to about 2^12: the exponential of the rest times a power of two. -/
def expDy (x : Int) : Dy :=
  let k := x / sfuLn2
  ⟨expFix (x - k * sfuLn2), k - sfuP⟩

/-- The exact results of the functions of R153 that are not correctly rounded, to sfuP bits, by function code. x is finite
and not zero. -/
def sfuExact (fn : Nat) (x : Dy) : Dy :=
  let big (b : Int) : Bool := Dy.lt ⟨b, 0⟩ ⟨x.m.natAbs, x.e⟩
  let neg := decide (x.m < 0)
  match fn with
  | 0 =>
    let f := x.fix
    let n := f / sfuOne
    ⟨expFix ((f - n * sfuOne) * sfuLn2 / sfuOne), n - sfuP⟩
  | 1 =>
    let k := Nat.log2 x.m.toNat
    let z : Int := x.m * pow2 ((sfuP : Int) - k)
    ofFix ((k + x.e) * sfuOne + lnFix z * sfuOne / sfuLn2)
  | 5 =>
    let a := (Dy.mk x.m.natAbs x.e).fix
    let k := a / sfuHalfPi
    let r := a - k * sfuHalfPi
    let v := match (k % 4).toNat with
      | 0 => sinFix r
      | 1 => cosFix r
      | 2 => -sinFix r
      | _ => -cosFix r
    ofFix (if neg then -v else v)
  | 6 =>
    let a := (Dy.mk x.m.natAbs x.e).fix
    let k := a / sfuHalfPi
    let r := a - k * sfuHalfPi
    ofFix (match (k % 4).toNat with
      | 0 => cosFix r
      | 1 => -sinFix r
      | 2 => -cosFix r
      | _ => sinFix r)
  | 7 =>
    let v := if big 100 then (sfuOne : Int) - 2 ^ 100
      else
        let t := (expDy (2 * (Dy.mk x.m.natAbs x.e).fix)).fix
        (t - sfuOne) * sfuOne / (t + sfuOne)
    ofFix (if neg then -v else v)
  | _ =>
    if big 200 then (if neg then ofFix (2 ^ 100) else ofFix ((sfuOne : Int) - 2 ^ 100))
    else ofFix ((sfuOne : Int) * sfuOne / (sfuOne + (expDy (-x.fix)).fix))

/-- The FP32 code of signed index j: finite codes in the order of their values, 0 for zero. -/
def fp32Index (j : Int) : Nat :=
  if j < 0 then 2 ^ 31 + j.natAbs else j.toNat

/-- ulp(y) of R153 as an exponent. -/
def ulpExp (y : Dy) : Int :=
  max ((Nat.log2 y.m.natAbs : Int) + y.e) (-126) - 23

/-- The FP32 codes whose values lie within b ulp of y (R153), both zeros where zero does. -/
def sfuCands (b : Nat) (y : Dy) : List Nat :=
  let c := (roundFp ⟨1, 0, 0, 0, 0, true⟩ ⟨8, 23, 127, true, false⟩ false y.m.natAbs y.e).code
  let j : Int := if y.m < 0 then -(c : Int) else c
  let bound : Dy := ⟨b, ulpExp y⟩
  let close (d : Dy) : Bool :=
    let diff := d.add y.neg
    !bound.lt ⟨diff.m.natAbs, diff.e⟩
  let near := ((List.range (4 * b + 3)).map fun (i : Nat) => j + (i : Int) - (2 * b + 1 : Nat)).filter fun k =>
    decide (k.natAbs < 0x7F800000) && close (codeVal 0 (fp32Index k)).dy
  near.flatMap fun k => if k = 0 then [0, 2 ^ 31] else [fp32Index k]

/-- Keeps the codes whose values lie between two FP32 values, as monotonicity and the exact results of R153 and R154 force. -/
def sfuWithin (lo hi : Dy) (l : List Nat) : List Nat :=
  l.filter fun c =>
    let d := (codeVal 0 c).dy
    !d.lt lo && !hi.lt d && !(bit c 31 && decide (c = 2 ^ 31))

/-- The values that R153 allows as the result of a function at a finite nonzero input that is not exact: input bits in, codes out. -/
def sfuAllowed (fn : Nat) (x : Dy) : List Nat :=
  let y := sfuExact fn x
  let n := x.fix / sfuOne
  match fn with
  | 0 => sfuWithin (if n < -149 then ⟨0, 0⟩ else ⟨1, n⟩) (if 126 < n then ⟨2 ^ 24 - 1, 104⟩ else ⟨1, n + 1⟩) (sfuCands 1 y)
  | 1 =>
    let k : Int := (Nat.log2 x.m.toNat : Int) + x.e
    sfuWithin ⟨k, 0⟩ ⟨k + 1, 0⟩ (sfuCands 1 y)
  | 7 => if x.m < 0 then (sfuCands 2 y).filter (fun c => bit c 31 && !Dy.lt (codeVal 0 c).dy ⟨-1, 0⟩)
         else (sfuCands 2 y).filter (fun c => !bit c 31 && !Dy.lt ⟨1, 0⟩ (codeVal 0 c).dy)
  | 8 => if x.m < 0 then sfuWithin ⟨0, 0⟩ ⟨1, -1⟩ (sfuCands 2 y) else sfuWithin ⟨1, -1⟩ ⟨1, 0⟩ (sfuCands 2 y)
  | _ => sfuCands 2 y

/-- The free choice among the allowed values (log entry 6). -/
def sfuPick (fn code : Nat) (l : List Nat) : Nat :=
  l.getD (Config.sfuChoice fn code % l.length) (l.headD 0)

/-- The place of an FP32 code in the order of the values. -/
def fp32Place (code : Nat) : Int :=
  if bit code 31 then -((code % 2 ^ 31 : Nat) : Int) else code

/-- The places of the least and the greatest value that R153's bound allows at the input of a place; none where the input is
zero, not finite, or of the other sign. -/
def sfuEnds (fn : Nat) (neg : Bool) (place : Int) : Option (Int × Int) :=
  match codeVal 0 (fp32Index place) with
  | .fin n m e =>
    if n != neg then none
    else
      match sfuAllowed fn (Val.fin n m e).dy with
      | [] => none
      | c :: rest => some (fp32Place c, rest.foldl (fun a d => max a (fp32Place d)) (fp32Place c))
  | _ => none

/-- The values that R153 allows a monotone function at an input: within the bound, not below the least value of the inputs before
it, not above the greatest value of the inputs after it. Three inputs on each side are enough, since the bound falls back only at
a power of two of the result, by less than what three inputs gain. -/
def sfuMonotone (fn : Nat) (neg : Bool) (code : Nat) (l : List Nat) : List Nat :=
  let j := fp32Place code
  let before := [j - 3, j - 2, j - 1].filterMap fun i => (sfuEnds fn neg i).map (·.1)
  let after := [j + 1, j + 2, j + 3].filterMap fun i => (sfuEnds fn neg i).map (·.2)
  l.filter fun c => before.all (fun (a : Int) => decide (a ≤ fp32Place c)) && after.all fun (a : Int) => decide (fp32Place c ≤ a)

/-- The free choice of a monotone function: the greatest allowed value whose step the input has reached, the least allowed value
where it has reached none (R153, log entry 6). -/
def sfuClimb (fn code : Nat) (l : List Nat) : Nat :=
  l.foldl (fun b c => if Config.sfuStep fn (fp32Place c) ≤ fp32Place code then c else b) (l.headD 0)

/-- An inexact result: NX, and UF where it is not zero and below the smallest normal (R154). -/
def sfuInexact (code : Nat) : NumRes :=
  let m := code % 2 ^ 31
  ⟨code, flgNX ||| (if m ≠ 0 ∧ m < 0x800000 then flgUF else 0), []⟩

/-- An exact result. -/
def sfuIs (code : Nat) : NumRes :=
  ⟨code, 0, []⟩

/-- A positive number with a sticky bit below it, rounded to FP32 by RNE. -/
def sfuRound (neg : Bool) (q : Nat) (sticky : Bool) (e : Int) : NumRes :=
  roundFp ⟨0, 0, 0, 0, 0, false⟩ ⟨8, 23, 127, true, false⟩ neg (2 * q + sticky.toNat) (e - 1)

/-- 1 / (m 2^e), correctly rounded. -/
def rcpRes (neg : Bool) (m : Nat) (e : Int) : NumRes :=
  let k := Nat.log2 m + 64
  sfuRound neg (2 ^ k / m) (2 ^ k % m != 0) (-e - k)

/-- The square root of m 2^e, correctly rounded. -/
def sqrtRes (m : Nat) (e : Int) : NumRes :=
  let odd := e % 2
  let n := m * pow2 (60 + odd)
  let r := isqrt n
  sfuRound false r (r * r != n) ((e - odd - 60) / 2)

/-- 1 over the square root of m 2^e, correctly rounded. -/
def rsqRes (m : Nat) (e : Int) : NumRes :=
  let odd := e % 2
  let mm := m * pow2 odd
  let n := 2 ^ 128 / mm
  let r := isqrt n
  sfuRound false r (r * r * mm != 2 ^ 128) (-(e - odd) / 2 - 64)

/-- The SFU functions by code, on a finite nonzero input. -/
def sfuFin (c : RndCtx) (fn code : Nat) (neg : Bool) (m : Nat) (e : Int) : NumRes :=
  let x : Dy := (Val.fin neg m e).dy
  let whole := decide (x.e ≥ 0) || x.m % pow2 (-x.e) == 0
  let invalid : NumRes := ⟨nanCode c 0 false (some (originFrac c.pc c.fid)), flgNV, [1]⟩
  match fn with
  | 0 =>
    if !x.lt ⟨128, 0⟩ then ⟨0x7F800000, flgOF ||| flgNX, []⟩
    else if !(Dy.lt ⟨-150, 0⟩ x) then ⟨0, flgUF ||| flgNX, []⟩
    else if whole then sfuIs (roundFp c ⟨8, 23, 127, true, false⟩ false 1 (x.fix / sfuOne)).code
    else sfuInexact (sfuClimb 0 code (sfuMonotone 0 neg code (sfuAllowed 0 x)))
  | 1 =>
    if neg then invalid
    else if 2 ^ Nat.log2 m = m then sfuIs (roundVal c 0 (.ofInt ((Nat.log2 m : Int) + e))).code
    else sfuInexact (sfuClimb 1 code (sfuMonotone 1 neg code (sfuAllowed 1 x)))
  | 2 => rcpRes neg m e
  | 3 => if neg then invalid else rsqRes m e
  | 4 => if neg then invalid else sqrtRes m e
  | 5 =>
    if Dy.lt ⟨2 ^ 20, 0⟩ ⟨m, e⟩ then
      let v := Config.sfuFar 5 code % (2 * 0x3F800001)
      sfuInexact (if v < 0x3F800001 then v else 2 ^ 31 + (v - 0x3F800001))
    else sfuInexact (sfuPick 5 code (sfuAllowed 5 x))
  | 6 =>
    if Dy.lt ⟨2 ^ 20, 0⟩ ⟨m, e⟩ then
      let v := Config.sfuFar 6 code % (2 * 0x3F800001)
      sfuInexact (if v < 0x3F800001 then v else 2 ^ 31 + (v - 0x3F800001))
    else sfuInexact (sfuPick 6 code (sfuAllowed 6 x))
  | 7 => sfuInexact (sfuClimb 7 code (sfuMonotone 7 neg code (sfuAllowed 7 x)))
  | _ => sfuInexact (sfuClimb 8 code (sfuMonotone 8 neg code (sfuAllowed 8 x)))

/-- The SFU functions by code (R153, R154). -/
def sfuRes (c : RndCtx) (fn code : Nat) : NumRes :=
  let one := 0x3F800000
  let inf := 0x7F800000
  let sgn (n : Bool) : Nat := if n then 2 ^ 31 else 0
  let invalid : NumRes := ⟨nanCode c 0 false (some (originFrac c.pc c.fid)), flgNV, [1]⟩
  match codeVal 0 code with
  | .nan n f => roundVal c 0 (.nan n f)
  | .fin n m e => sfuFin c fn code n m e
  | .zero n =>
    match fn with
    | 0 => sfuIs one
    | 1 => ⟨2 ^ 31 + inf, flgDZ, [2]⟩
    | 2 => ⟨sgn n + inf, flgDZ, [2]⟩
    | 3 => ⟨sgn n + inf, flgDZ, [2]⟩
    | 4 => sfuIs (sgn n)
    | 5 => sfuIs (sgn n)
    | 6 => sfuIs one
    | 7 => sfuIs (sgn n)
    | _ => sfuIs 0x3F000000
  | .inf n =>
    match fn with
    | 0 => sfuIs (if n then 0 else inf)
    | 1 => if n then invalid else sfuIs inf
    | 2 => sfuIs (sgn n)
    | 3 => if n then invalid else sfuIs 0
    | 4 => if n then invalid else sfuIs inf
    | 5 => invalid
    | 6 => invalid
    | 7 => sfuIs (sgn n + one)
    | _ => sfuIs (if n then 0 else one)

/-- f.D := the function of A (R152). -/
def sfuOp (fn : Nat) (x : FmtU0) (s : State) : Result :=
  runPure { lrWord x.g none [x.a.toNat] [x.d.toNat] with eighths := true } s fun c f =>
    let r := sfuRes (laneRnd c none f 0) fn (readReg c.p f x.a.toNat).toNat
    (f.setV x.d.toNat (BitVec.ofNat 32 r.code), r.flg, r.causes)

/-- EXP2 (R152). -/
def execExp2 (x : FmtU0) (s : State) : Result :=
  sfuOp 0 x s

/-- LOG2 (R152). -/
def execLog2 (x : FmtU0) (s : State) : Result :=
  sfuOp 1 x s

/-- RCP (R152). -/
def execRcp (x : FmtU0) (s : State) : Result :=
  sfuOp 2 x s

/-- RSQ (R152). -/
def execRsq (x : FmtU0) (s : State) : Result :=
  sfuOp 3 x s

/-- SQRT (R152). -/
def execSqrt (x : FmtU0) (s : State) : Result :=
  sfuOp 4 x s

/-- SIN (R152). -/
def execSin (x : FmtU0) (s : State) : Result :=
  sfuOp 5 x s

/-- COS (R152). -/
def execCos (x : FmtU0) (s : State) : Result :=
  sfuOp 6 x s

/-- TANH (R152). -/
def execTanh (x : FmtU0) (s : State) : Result :=
  sfuOp 7 x s

/-- SIGM (R152). -/
def execSigm (x : FmtU0) (s : State) : Result :=
  sfuOp 8 x s

end Sys2Proof.Machine
end

