-- ==== Sys2Proof/Machine/Dispatch.lean ====
section
/-! DEFINITION. One arm for each constructor of Instr: a call of its meaning. -/

namespace Sys2Proof.Machine

def exec (i : Instr) (s : State) : Host.Outcome State Fault Refusal :=
  match i with
  | .iadd x => Sys2Proof.Machine.execIadd x s
  | .isub x => Sys2Proof.Machine.execIsub x s
  | .imul x => Sys2Proof.Machine.execImul x s
  | .imulh x => Sys2Proof.Machine.execImulh x s
  | .imulhU x => Sys2Proof.Machine.execImulhU x s
  | .imad x => Sys2Proof.Machine.execImad x s
  | .idiv x => Sys2Proof.Machine.execIdiv x s
  | .idivU x => Sys2Proof.Machine.execIdivU x s
  | .imin x => Sys2Proof.Machine.execImin x s
  | .iminU x => Sys2Proof.Machine.execIminU x s
  | .imax x => Sys2Proof.Machine.execImax x s
  | .imaxU x => Sys2Proof.Machine.execImaxU x s
  | .iaddc x => Sys2Proof.Machine.execIaddc x s
  | .isubb x => Sys2Proof.Machine.execIsubb x s
  | .and x => Sys2Proof.Machine.execAnd x s
  | .or x => Sys2Proof.Machine.execOr x s
  | .xor x => Sys2Proof.Machine.execXor x s
  | .shl x => Sys2Proof.Machine.execShl x s
  | .shr x => Sys2Proof.Machine.execShr x s
  | .sar x => Sys2Proof.Machine.execSar x s
  | .rol x => Sys2Proof.Machine.execRol x s
  | .bfx x => Sys2Proof.Machine.execBfx x s
  | .bfi x => Sys2Proof.Machine.execBfi x s
  | .isel x => Sys2Proof.Machine.execIsel x s
  | .icmp x => Sys2Proof.Machine.execIcmp x s
  | .iaddLi x => Sys2Proof.Machine.execIaddLi x s
  | .andLi x => Sys2Proof.Machine.execAndLi x s
  | .orLi x => Sys2Proof.Machine.execOrLi x s
  | .xorLi x => Sys2Proof.Machine.execXorLi x s
  | .shlLi x => Sys2Proof.Machine.execShlLi x s
  | .shrLi x => Sys2Proof.Machine.execShrLi x s
  | .sarLi x => Sys2Proof.Machine.execSarLi x s
  | .icmpLi x => Sys2Proof.Machine.execIcmpLi x s
  | .iabs x => Sys2Proof.Machine.execIabs x s
  | .ineg x => Sys2Proof.Machine.execIneg x s
  | .not x => Sys2Proof.Machine.execNot x s
  | .popc x => Sys2Proof.Machine.execPopc x s
  | .clz x => Sys2Proof.Machine.execClz x s
  | .brev x => Sys2Proof.Machine.execBrev x s
  | .mov x => Sys2Proof.Machine.execMov x s
  | .movi x => Sys2Proof.Machine.execMovi x s
  | .pand x => Sys2Proof.Machine.execPand x s
  | .por x => Sys2Proof.Machine.execPor x s
  | .pxor x => Sys2Proof.Machine.execPxor x s
  | .pnot x => Sys2Proof.Machine.execPnot x s
  | .p2v x => Sys2Proof.Machine.execP2v x s
  | .v2p x => Sys2Proof.Machine.execV2p x s
  | .bara x => Sys2Proof.Machine.execBara x s
  | .barw x => Sys2Proof.Machine.execBarw x s
  | .bart x => Sys2Proof.Machine.execBart x s
  | .cnarrow x => Sys2Proof.Machine.execCnarrow x s
  | .cright x => Sys2Proof.Machine.execCright x s
  | .cmov x => Sys2Proof.Machine.execCmov x s
  | .cbase x => Sys2Proof.Machine.execCbase x s
  | .clen x => Sys2Proof.Machine.execClen x s
  | .cvalid x => Sys2Proof.Machine.execCvalid x s
  | .mfsr x => Sys2Proof.Machine.execMfsr x s
  | .mtsr x => Sys2Proof.Machine.execMtsr x s
  | .eret x => Sys2Proof.Machine.execEret x s
  | .halt x => Sys2Proof.Machine.execHalt x s
  | .dbgb x => Sys2Proof.Machine.execDbgb x s
  | .fadd x => Sys2Proof.Machine.execFadd x s
  | .fsub x => Sys2Proof.Machine.execFsub x s
  | .fmul x => Sys2Proof.Machine.execFmul x s
  | .ffma x => Sys2Proof.Machine.execFfma x s
  | .fmin x => Sys2Proof.Machine.execFmin x s
  | .fmax x => Sys2Proof.Machine.execFmax x s
  | .fcmp x => Sys2Proof.Machine.execFcmp x s
  | .dot4 x => Sys2Proof.Machine.execDot4 x s
  | .fdot2 x => Sys2Proof.Machine.execFdot2 x s
  | .qdotE2m1 x => Sys2Proof.Machine.execQdotE2m1 x s
  | .qdotInt4 x => Sys2Proof.Machine.execQdotInt4 x s
  | .qdotUint4 x => Sys2Proof.Machine.execQdotUint4 x s
  | .fpack x => Sys2Proof.Machine.execFpack x s
  | .funpk x => Sys2Proof.Machine.execFunpk x s
  | .fcvt x => Sys2Proof.Machine.execFcvt x s
  | .fclass x => Sys2Proof.Machine.execFclass x s
  | .frnd x => Sys2Proof.Machine.execFrnd x s
  | .exp2 x => Sys2Proof.Machine.execExp2 x s
  | .log2 x => Sys2Proof.Machine.execLog2 x s
  | .rcp x => Sys2Proof.Machine.execRcp x s
  | .rsq x => Sys2Proof.Machine.execRsq x s
  | .sqrt x => Sys2Proof.Machine.execSqrt x s
  | .sin x => Sys2Proof.Machine.execSin x s
  | .cos x => Sys2Proof.Machine.execCos x s
  | .tanh x => Sys2Proof.Machine.execTanh x s
  | .sigm x => Sys2Proof.Machine.execSigm x s
  | .shflIdx x => Sys2Proof.Machine.execShflIdx x s
  | .shflUp x => Sys2Proof.Machine.execShflUp x s
  | .shflDn x => Sys2Proof.Machine.execShflDn x s
  | .shflXor x => Sys2Proof.Machine.execShflXor x s
  | .voteAny x => Sys2Proof.Machine.execVoteAny x s
  | .voteAll x => Sys2Proof.Machine.execVoteAll x s
  | .voteBal x => Sys2Proof.Machine.execVoteBal x s
  | .lredAdd x => Sys2Proof.Machine.execLredAdd x s
  | .lredMin x => Sys2Proof.Machine.execLredMin x s
  | .lredMax x => Sys2Proof.Machine.execLredMax x s
  | .lredAnd x => Sys2Proof.Machine.execLredAnd x s
  | .lredOr x => Sys2Proof.Machine.execLredOr x s
  | .lredXor x => Sys2Proof.Machine.execLredXor x s
  | .lredMinU x => Sys2Proof.Machine.execLredMinU x s
  | .lredMaxU x => Sys2Proof.Machine.execLredMaxU x s
  | .matchLanes x => Sys2Proof.Machine.execMatchLanes x s
  | .ld8 x => Sys2Proof.Machine.execLd8 x s
  | .ld16 x => Sys2Proof.Machine.execLd16 x s
  | .ld32 x => Sys2Proof.Machine.execLd32 x s
  | .ld64 x => Sys2Proof.Machine.execLd64 x s
  | .ld128 x => Sys2Proof.Machine.execLd128 x s
  | .ld8S x => Sys2Proof.Machine.execLd8S x s
  | .ld16S x => Sys2Proof.Machine.execLd16S x s
  | .st8 x => Sys2Proof.Machine.execSt8 x s
  | .st16 x => Sys2Proof.Machine.execSt16 x s
  | .st32 x => Sys2Proof.Machine.execSt32 x s
  | .st64 x => Sys2Proof.Machine.execSt64 x s
  | .st128 x => Sys2Proof.Machine.execSt128 x s
  | .lds8 x => Sys2Proof.Machine.execLds8 x s
  | .lds16 x => Sys2Proof.Machine.execLds16 x s
  | .lds32 x => Sys2Proof.Machine.execLds32 x s
  | .lds64 x => Sys2Proof.Machine.execLds64 x s
  | .lds128 x => Sys2Proof.Machine.execLds128 x s
  | .lds8S x => Sys2Proof.Machine.execLds8S x s
  | .lds16S x => Sys2Proof.Machine.execLds16S x s
  | .sts8 x => Sys2Proof.Machine.execSts8 x s
  | .sts16 x => Sys2Proof.Machine.execSts16 x s
  | .sts32 x => Sys2Proof.Machine.execSts32 x s
  | .sts64 x => Sys2Proof.Machine.execSts64 x s
  | .sts128 x => Sys2Proof.Machine.execSts128 x s
  | .lda x => Sys2Proof.Machine.execLda x s
  | .str x => Sys2Proof.Machine.execStr x s
  | .ldk x => Sys2Proof.Machine.execLdk x s
  | .atomAdd x => Sys2Proof.Machine.execAtomAdd x s
  | .atomMin x => Sys2Proof.Machine.execAtomMin x s
  | .atomMax x => Sys2Proof.Machine.execAtomMax x s
  | .atomAnd x => Sys2Proof.Machine.execAtomAnd x s
  | .atomOr x => Sys2Proof.Machine.execAtomOr x s
  | .atomXor x => Sys2Proof.Machine.execAtomXor x s
  | .atomExch x => Sys2Proof.Machine.execAtomExch x s
  | .atomCas x => Sys2Proof.Machine.execAtomCas x s
  | .atomInc x => Sys2Proof.Machine.execAtomInc x s
  | .redAdd x => Sys2Proof.Machine.execRedAdd x s
  | .redMin x => Sys2Proof.Machine.execRedMin x s
  | .redMax x => Sys2Proof.Machine.execRedMax x s
  | .redAnd x => Sys2Proof.Machine.execRedAnd x s
  | .redOr x => Sys2Proof.Machine.execRedOr x s
  | .redXor x => Sys2Proof.Machine.execRedXor x s
  | .pref x => Sys2Proof.Machine.execPref x s
  | .waitaEq x => Sys2Proof.Machine.execWaitaEq x s
  | .waitaNe x => Sys2Proof.Machine.execWaitaNe x s
  | .waitaGe x => Sys2Proof.Machine.execWaitaGe x s
  | .ldlat x => Sys2Proof.Machine.execLdlat x s
  | .ljoin x => Sys2Proof.Machine.execLjoin x s
  | .publ x => Sys2Proof.Machine.execPubl x s
  | .cld x => Sys2Proof.Machine.execCld x s
  | .cst x => Sys2Proof.Machine.execCst x s
  | .fence x => Sys2Proof.Machine.execFence x s
  | .wait x => Sys2Proof.Machine.execWait x s
  | .bra x => Sys2Proof.Machine.execBra x s
  | .braJ x => Sys2Proof.Machine.execBraJ x s
  | .brx x => Sys2Proof.Machine.execBrx x s
  | .call x => Sys2Proof.Machine.execCall x s
  | .loop x => Sys2Proof.Machine.execLoop x s
  | .spawn x => Sys2Proof.Machine.execSpawn x s
  | .join x => Sys2Proof.Machine.execJoin x s
  | .nop x => Sys2Proof.Machine.execNop x s
  | .ret x => Sys2Proof.Machine.execRet x s
  | .exit x => Sys2Proof.Machine.execExit x s
  | .yield x => Sys2Proof.Machine.execYield x s
  | .bind x => Sys2Proof.Machine.execBind x s
  | .unbind x => Sys2Proof.Machine.execUnbind x s
  | .pmark x => Sys2Proof.Machine.execPmark x s
  | .sign x => Sys2Proof.Machine.execSign x s
  | .cvset x => Sys2Proof.Machine.execCvset x s
  | .s2v x => Sys2Proof.Machine.execS2v x s
  | .pdlog x => Sys2Proof.Machine.execPdlog x s
  | .trap x => Sys2Proof.Machine.execTrap x s
  | .sysc x => Sys2Proof.Machine.execSysc x s
  | .uadd x => Sys2Proof.Machine.execUadd x s
  | .usub x => Sys2Proof.Machine.execUsub x s
  | .umul x => Sys2Proof.Machine.execUmul x s
  | .umad x => Sys2Proof.Machine.execUmad x s
  | .uand x => Sys2Proof.Machine.execUand x s
  | .uor x => Sys2Proof.Machine.execUor x s
  | .uxor x => Sys2Proof.Machine.execUxor x s
  | .ushl x => Sys2Proof.Machine.execUshl x s
  | .ushr x => Sys2Proof.Machine.execUshr x s
  | .umin x => Sys2Proof.Machine.execUmin x s
  | .umax x => Sys2Proof.Machine.execUmax x s
  | .umov x => Sys2Proof.Machine.execUmov x s
  | .ucmp x => Sys2Proof.Machine.execUcmp x s
  | .usel x => Sys2Proof.Machine.execUsel x s
  | .ucnar x => Sys2Proof.Machine.execUcnar x s
  | .uaddUi x => Sys2Proof.Machine.execUaddUi x s
  | .uandUi x => Sys2Proof.Machine.execUandUi x s
  | .uorUi x => Sys2Proof.Machine.execUorUi x s
  | .ushlUi x => Sys2Proof.Machine.execUshlUi x s
  | .ushrUi x => Sys2Proof.Machine.execUshrUi x s
  | .umovi x => Sys2Proof.Machine.execUmovi x s
  | .sbld x => Sys2Proof.Machine.execSbld x s
  | .mmrun x => Sys2Proof.Machine.execMmrun x s
  | .mmout x => Sys2Proof.Machine.execMmout x s
  | .mtab x => Sys2Proof.Machine.execMtab x s
  | .mbias x => Sys2Proof.Machine.execMbias x s
  | .copyGs x => Sys2Proof.Machine.execCopyGs x s
  | .copySg x => Sys2Proof.Machine.execCopySg x s
  | .copyGg x => Sys2Proof.Machine.execCopyGg x s
  | .tcopyGs x => Sys2Proof.Machine.execTcopyGs x s
  | .tcopySg x => Sys2Proof.Machine.execTcopySg x s
  | .copypIn x => Sys2Proof.Machine.execCopypIn x s
  | .copypOut x => Sys2Proof.Machine.execCopypOut x s
  | .coll x => Sys2Proof.Machine.execColl x s
  | .barinit x => Sys2Proof.Machine.execBarinit x s
  | .sow x => Sys2Proof.Machine.execSow x s
  | .ldlayer x => Sys2Proof.Machine.execLdlayer x s
  | .rellayer x => Sys2Proof.Machine.execRellayer x s
  | .mint x => Sys2Proof.Machine.execMint x s
  | .seal x => Sys2Proof.Machine.execSeal x s
  | .objinv x => Sys2Proof.Machine.execObjinv x s
  | .migr x => Sys2Proof.Machine.execMigr x s
  | .biasD x => Sys2Proof.Machine.execBiasD x s
  | .biasH x => Sys2Proof.Machine.execBiasH x s
  | .unpubl x => Sys2Proof.Machine.execUnpubl x s
  | .uniformPipeExecute core => Sys2Proof.Machine.execUniformPipeExecute core s
  | .uniformResultWrite core => Sys2Proof.Machine.execUniformResultWrite core s
  | .laneResultWrite pid => Sys2Proof.Machine.execLaneResultWrite pid s
  | .loadReturn pid => Sys2Proof.Machine.execLoadReturn pid s
  | .storeAcknowledge pid => Sys2Proof.Machine.execStoreAcknowledge pid s
  | .formFurrow core quad => Sys2Proof.Machine.execFormFurrow core quad s
  | .fillWaitExpiry pid pc => Sys2Proof.Machine.execFillWaitExpiry pid pc s
  | .groupPromotion pid pc => Sys2Proof.Machine.execGroupPromotion pid pc s
  | .issueSelect core quad => Sys2Proof.Machine.execIssueSelect core quad s
  | .furrowPromotion core quad => Sys2Proof.Machine.execFurrowPromotion core quad s
  | .binTimerExpiry core => Sys2Proof.Machine.execBinTimerExpiry core s
  | .joinHoldExpiry pid slot => Sys2Proof.Machine.execJoinHoldExpiry pid slot s
  | .engineQueueEntry core => Sys2Proof.Machine.execEngineQueueEntry core s
  | .matrixCommandStart core => Sys2Proof.Machine.execMatrixCommandStart core s
  | .scratchpadPortGrant core => Sys2Proof.Machine.execScratchpadPortGrant core s
  | .matrixCommandComplete core => Sys2Proof.Machine.execMatrixCommandComplete core s
  | .wainCommandStart core => Sys2Proof.Machine.execWainCommandStart core s
  | .pieceLanded core => Sys2Proof.Machine.execPieceLanded core s
  | .collRootResult ctx gid => Sys2Proof.Machine.execCollRootResult ctx gid s
  | .homeRequest => Sys2Proof.Machine.execHomeRequest s
  | .drain core => Sys2Proof.Machine.execDrain core s
  | .drainAcknowledge core => Sys2Proof.Machine.execDrainAcknowledge core s
  | .recall core ctx obj line => Sys2Proof.Machine.execRecall core ctx obj line s
  | .gather core ctx obj line => Sys2Proof.Machine.execGather core ctx obj line s
  | .writeBack => Sys2Proof.Machine.execWriteBack s
  | .l1Eviction core ctx obj line => Sys2Proof.Machine.execL1Eviction core ctx obj line s
  | .ownershipRetry => Sys2Proof.Machine.execOwnershipRetry s
  | .watchRetest pid fid => Sys2Proof.Machine.execWatchRetest pid fid s
  | .ldlatRetest pid fid => Sys2Proof.Machine.execLdlatRetest pid fid s
  | .objectDrop core ctx obj => Sys2Proof.Machine.execObjectDrop core ctx obj s
  | .migrationLineCopy ctx obj page => Sys2Proof.Machine.execMigrationLineCopy ctx obj page s
  | .migrationComplete ctx obj page => Sys2Proof.Machine.execMigrationComplete ctx obj page s
  | .publLineMove => Sys2Proof.Machine.execPublLineMove s
  | .publComplete => Sys2Proof.Machine.execPublComplete s
  | .hostAtomicCompletion => Sys2Proof.Machine.execHostAtomicCompletion s
  | .hostSnoop addr => Sys2Proof.Machine.execHostSnoop addr s
  | .hostMemRead ctx obj off size => Sys2Proof.Machine.execHostMemRead ctx obj off size s
  | .hostMemWrite ctx obj off bytes poison => Sys2Proof.Machine.execHostMemWrite ctx obj off bytes poison s
  | .exchangeTick die ctx obj => Sys2Proof.Machine.execExchangeTick die ctx obj s
  | .latticeMerge => Sys2Proof.Machine.execLatticeMerge s
  | .takeRecord ctx list => Sys2Proof.Machine.execTakeRecord ctx list s
  | .tailRetest ctx list => Sys2Proof.Machine.execTailRetest ctx list s
  | .fieldEligible ctx fld => Sys2Proof.Machine.execFieldEligible ctx fld s
  | .placePlot => Sys2Proof.Machine.execPlacePlot s
  | .gangWaitLimit => Sys2Proof.Machine.execGangWaitLimit s
  | .gangOfOne => Sys2Proof.Machine.execGangOfOne s
  | .restoreRoom => Sys2Proof.Machine.execRestoreRoom s
  | .plotRetirement pid => Sys2Proof.Machine.execPlotRetirement pid s
  | .portFaultReport pid => Sys2Proof.Machine.execPortFaultReport pid s
  | .haltComplete pid => Sys2Proof.Machine.execHaltComplete pid s
  | .haltFrameWrite core => Sys2Proof.Machine.execHaltFrameWrite core s
  | .handlerStart core => Sys2Proof.Machine.execHandlerStart core s
  | .handlerTimeout core => Sys2Proof.Machine.execHandlerTimeout core s
  | .hostEscalationAnswer pid action edits => Sys2Proof.Machine.execHostEscalationAnswer pid action edits s
  | .preemptionRequest req lb => Sys2Proof.Machine.execPreemptionRequest req lb s
  | .drainBudgetExpiry pid => Sys2Proof.Machine.execDrainBudgetExpiry pid s
  | .save pid => Sys2Proof.Machine.execSave pid s
  | .restore pid => Sys2Proof.Machine.execRestore pid s
  | .contextSwitch ctx lb => Sys2Proof.Machine.execContextSwitch ctx lb s
  | .contextCreate cfg => Sys2Proof.Machine.execContextCreate cfg s
  | .cropRegistration cfg => Sys2Proof.Machine.execCropRegistration cfg s
  | .swapIn ctx crop => Sys2Proof.Machine.execSwapIn ctx crop s
  | .swapInComplete ctx crop => Sys2Proof.Machine.execSwapInComplete ctx crop s
  | .swapInTimeout ctx crop => Sys2Proof.Machine.execSwapInTimeout ctx crop s
  | .uncorrectableError at_ => Sys2Proof.Machine.execUncorrectableError at_ s
  | .scrub at_ bad => Sys2Proof.Machine.execScrub at_ bad s
  | .flitReplay boundary load => Sys2Proof.Machine.execFlitReplay boundary load s
  | .linkRetrainComplete boundary => Sys2Proof.Machine.execLinkRetrainComplete boundary s
  | .linkDown boundary => Sys2Proof.Machine.execLinkDown boundary s
  | .controlTimeout boundary lines => Sys2Proof.Machine.execControlTimeout boundary lines s
  | .lateAnswer => Sys2Proof.Machine.execLateAnswer s
  | .yotisFlitLost port core => Sys2Proof.Machine.execYotisFlitLost port core s
  | .hostLinkDown => Sys2Proof.Machine.execHostLinkDown s
  | .debuggerHalt die => Sys2Proof.Machine.execDebuggerHalt die s
  | .debuggerResume die => Sys2Proof.Machine.execDebuggerResume die s
  | .powerGood => Sys2Proof.Machine.execPowerGood s
  | .stageComplete fail fdet => Sys2Proof.Machine.execStageComplete fail fdet s
  | .perstDeassert => Sys2Proof.Machine.execPerstDeassert s
  | .clockRebalance die budget frac => Sys2Proof.Machine.execClockRebalance die budget frac s
  | .thermalThrottle die => Sys2Proof.Machine.execThermalThrottle die s
  | .thermalShutdown die => Sys2Proof.Machine.execThermalShutdown die s
  | .monitorWindow die mon => Sys2Proof.Machine.execMonitorWindow die mon s
  | .monitorControlWrite die mon w => Sys2Proof.Machine.execMonitorControlWrite die mon w s
  | .managementRegisterWrite reg v => Sys2Proof.Machine.execManagementRegisterWrite reg v s
  | .contextDestroy ctx => Sys2Proof.Machine.execContextDestroy ctx s
  | .contextSwitchBack ctx => Sys2Proof.Machine.execContextSwitchBack ctx s
  | .savePool ctx bytes => Sys2Proof.Machine.execSavePool ctx bytes s
  | .debuggerAttach ctx on => Sys2Proof.Machine.execDebuggerAttach ctx on s
  | .debuggerAction pid action => Sys2Proof.Machine.execDebuggerAction pid action s
  | .corePowerGate core => Sys2Proof.Machine.execCorePowerGate core s
  | .yotisRetrain port up => Sys2Proof.Machine.execYotisRetrain port up s
  | .packageReset => Sys2Proof.Machine.execPackageReset s

end Sys2Proof.Machine
end

