-- ==== Sys2Proof/Machine/Schedule.lean ====
section
/-! DEFINITION. Which of the part's own steps comes next (log entry 1), and which steps come from outside the package. -/

namespace Sys2Proof.Machine

/-- The live fibres of the plots on a core. -/
def State.coreFibres (s : State) (core : Nat) : List Fibre :=
  (s.plots.filter fun p => p.core == core).flatMap (·.fibres)

/-- Whether a fibre is parked in BARW. -/
def Fibre.inBarw (f : Fibre) : Bool :=
  match f.run with
  | .parked (.barw _ _ _) => true
  | _ => false

/-- One ccy in the power controller's counts of a core (R339). -/
def State.countCcy (s : State) (k : Core) : Core :=
  let fs := s.coreFibres k.num
  { k with parked := k.parked + (fs.filter Fibre.inBarw).length, alive := k.alive + fs.length }

/-- The timers of a core of a die that a debugger halts stand still: nothing times out (R465). -/
def State.holdCore (s : State) (k : Core) : Core :=
  if (s.die (dieOf k.num)).halted then
    { k with
      bins := k.bins.map fun b => if (s.plot? b.pid).all (·.halt.isNone) then { b with start := b.start + 1 } else b
      handlerAt := k.handlerAt.map (· + 1) }
  else k

/-- The timers of a plot on a die that a debugger halts stand still (R465). -/
def State.holdPlot (s : State) (p : Plot) : Plot :=
  if (s.die (dieOf p.core)).halted && p.halt.isNone then { p with j := p.j.map (·.later 1), drainBy := p.drainBy.map (· + 1) } else p

/-- One ccy of the counter of every die that has power passes (R18, R470); the FIDs of fibres that exited in it are free from then on (R29). -/
def State.tick (s : State) : State :=
  { s with
    now := s.now + 1
    dies := s.dies.map fun d => if d.powered then { s.sampleDie d with cyc := (d.cyc + 1) % 2 ^ 64 } else d
    cores := s.cores.map fun k => s.holdCore (s.countCcy k)
    plots := s.plots.map fun p => { s.holdPlot p with exited := [] }
    rotor := 0 }

/-- The steps that finish what is under way, in any part of a ccy: results, requests at homes, engines, halts, saves, retirements, the marks of groups,
the completions of woken fibres. -/
def finishing (s : State) : List (State → Result) :=
  let pids := s.plots.map (·.pid)
  let cores := s.cores.map (·.num)
  let fibres := s.plots.flatMap fun p => p.fibres.map fun f => (p.pid, f.fid)
  let groups := (cores.flatMap s.groups).map fun g => (g.plot.pid, g.pc.toNat)
  s.links.map (fun l => execLinkDown l.num) ++ s.lostControl.map (fun q => execControlTimeout q.boundary q.lines) ++ [execWriteBack] ++ pids.map execLaneResultWrite ++ pids.map execLoadReturn ++ pids.map execStoreAcknowledge ++ [execHomeRequest] ++
    cores.map execDrain ++ cores.map execDrainAcknowledge ++ [execOwnershipRetry] ++ pids.map execPortFaultReport ++
    [execPublComplete, execHostAtomicCompletion, landLog] ++ s.drops.map (fun d => execObjectDrop d.core d.ctx d.obj) ++
    cores.filterMap (fun k => (s.overfull k).map fun l => execL1Eviction k l.ctx l.obj l.line) ++ [execLatticeMerge] ++
    cores.map execEngineQueueEntry ++ cores.map execScratchpadPortGrant ++ cores.map execMatrixCommandComplete ++
    cores.map execMatrixCommandStart ++ cores.map execPieceLanded ++ cores.map execWainCommandStart ++
    s.colls.map (fun c => execCollRootResult c.ctx c.gid) ++
    (fibres.filter fun f => s.watchDue f.1 f.2).map (fun f => execWatchRetest f.1 f.2) ++
    (fibres.filter fun f => s.latDue f.1 f.2).map (fun f => execLdlatRetest f.1 f.2) ++ pids.map execHaltComplete ++ pids.map execSave ++
    pids.map execRestore ++ pids.map execPlotRetirement ++ cores.map execHaltFrameWrite ++ cores.map execHandlerStart ++
    groups.map (fun g => execFillWaitExpiry g.1 g.2) ++ groups.map (fun g => execGroupPromotion g.1 g.2) ++
    cores.map fun k => execIssueSelect k 4

/-- Whether the next instruction of an issuable furrow is held by an interlock, as its issue would find it (R72, R256, R334). -/
def State.held? (s : State) (fu : Furrow) : Option IssueWait :=
  let t := s.beginIssue (s.issueOf fu)
  match t.instrOf (s.issueOf fu) with
  | .error _ => none
  | .ok i =>
    match exec i t with
    | .next u =>
      match ((u.core fu.core).furrow? fu.quad fu.slot).bind (·.waiting) with
      | some (.operands l) => some (.operands l)
      | _ => none
    | _ => none

/-- The furrows of a quadrant whose next instruction an interlock holds wait for it: they are not issuable (R334). -/
def interlockFurrows (core quad : Nat) (s : State) : Result :=
  let wait (fu : Furrow) : Furrow :=
    if fu.quad = quad ∧ s.issuable fu then
      match s.held? fu with
      | some w => { fu with since := s.cycOf core + 1, promoted := false, waiting := some w }
      | none => fu
    else fu
  let new := (s.core core).furrows.map wait
  if !s.portFree core quad ∨ new = (s.core core).furrows then .fault .noSubject else .next (s.modCore core fun k => { k with furrows := new })

/-- What each quadrant of a core does in a ccy: the former's visit in the order of the quadrants, the promotion of furrows, the interlocks, the
issue (R37, R334). -/
def quadSteps (k : Nat) : List (State → Result) :=
  let quads := [0, 1, 2, 3]
  quads.map (execFormFurrow k) ++ quads.map (execFurrowPromotion k) ++ quads.map (interlockFurrows k) ++ quads.map (execIssueSelect k)

/-- The other steps that are made once in a ccy: handlers' timers, the reeves, publishes, migrations, the exchange, monitors, power controllers. -/
def turns (s : State) : List (State → Result) :=
  let lists := s.ctxs.flatMap fun c => (List.range 8).map fun i => (c.num, i)
  let crops := s.ctxs.flatMap fun c => c.crops.map fun k => (c.num, k.num)
  let lattices := s.latticeObjects
  s.cores.map (fun c => execHandlerTimeout c.num) ++ s.plots.map (fun p => execDrainBudgetExpiry p.pid) ++
    (lists.filter fun l => s.takeDue l.1 l.2).map (fun l => execTakeRecord l.1 l.2) ++
    (lists.filter fun l => s.retestOpen l.1 l.2).map (fun l => execTailRetest l.1 l.2) ++
    s.fields.map (fun f => execFieldEligible f.ctx f.fld) ++ [execPlacePlot, execGangOfOne, execGangWaitLimit, execRestoreRoom] ++
    crops.map (fun c => execSwapIn c.1 c.2) ++ crops.map (fun c => execSwapInComplete c.1 c.2) ++ [execPublLineMove] ++
    s.migrations.map (fun m => execMigrationLineCopy m.ctx m.obj m.page) ++
    s.migrations.map (fun m => execMigrationComplete m.ctx m.obj m.page) ++
    s.dies.flatMap (fun d => lattices.map fun o => execExchangeTick d.num o.1 o.2) ++
    s.dies.flatMap (fun d => d.monitors.map fun m => execMonitorWindow d.num m.num) ++
    s.dies.map fun d => execClockRebalance d.num s.dieBudget (s.fractions d.num)

/-- What the end of a ccy brings: full bins and bins whose timers have run out, join slots that are complete or whose timers have run out, results
of the uniform pipe (R34, R49, R52). -/
def closing (s : State) : List (State → Result) :=
  s.cores.map (fun c => execBinTimerExpiry c.num) ++ s.plots.flatMap (fun p => (List.range 16).map (execJoinHoldExpiry p.pid)) ++
    s.cores.map fun c => execUniformResultWrite c.num

/-- The steps of a stage of a ccy of which each agent makes at most one: 0 the quadrants of the cores, 1 the other agents, 2 the uniform pipes at the end
of the ccy (R366). -/
def stageSteps (s : State) (stage : Nat) : List (State → Result) :=
  match stage with
  | 0 => s.cores.flatMap fun c => quadSteps c.num
  | 1 => turns s
  | _ => s.cores.map fun c => execUniformPipeExecute c.num

/-- The first of some steps that can be made: how many come before it, and the state after it. -/
def firstStep (s : State) (l : List (State → Result)) : Option (Nat × State) :=
  match l with
  | [] => none
  | f :: rest =>
    match f s with
    | .next t => some (0, t)
    | _ => (firstStep s rest).map fun q => (q.1 + 1, q.2)

/-- How State.rotor counts: the stage that a ccy has reached, and in it the turns that it has seen. -/
def rotorBase : Nat := 2 ^ 24

/-- The next step of a stage that the ccy has not passed. -/
def State.stageStep (s : State) (stage : Nat) : Option State :=
  if stage < s.rotor / rotorBase then none
  else
    let seen := if s.rotor / rotorBase = stage then s.rotor % rotorBase else 0
    (firstStep s ((stageSteps s stage).drop seen)).map fun q => { q.2 with rotor := stage * rotorBase + seen + q.1 + 1 }

/-- The next step of the part's own agents in this ccy: what is under way finishes first; then each quadrant in turn, each of the other agents in turn, what
the end of the ccy brings; none where the ccy is over (log entry 1). -/
def ccyStep (s : State) : Option State :=
  firstSome [(firstStep s (finishing s)).map (·.2), s.stageStep 0, s.stageStep 1,
    (firstStep s (closing s)).map fun q => { q.2 with rotor := max s.rotor (2 * rotorBase) }, s.stageStep 2]

/-- Whether a step comes from outside the package's agents: the host, its reeve interface, the debugger, the board, the timers of the board,
errors (log entry 3). -/
def isInput (i : Instr) : Bool :=
  match i with
  | .hostSnoop _ => true
  | .hostMemRead _ _ _ _ => true
  | .hostMemWrite _ _ _ _ _ => true
  | .hostEscalationAnswer _ _ _ => true
  | .preemptionRequest _ _ => true
  | .contextSwitch _ _ => true
  | .contextSwitchBack _ => true
  | .contextCreate _ => true
  | .contextDestroy _ => true
  | .cropRegistration _ => true
  | .savePool _ _ => true
  | .swapInTimeout _ _ => true
  | .uncorrectableError _ => true
  | .scrub _ _ => true
  | .flitReplay _ _ => true
  | .linkRetrainComplete _ => true
  | .linkDown _ => false
  | .controlTimeout _ _ => false
  | .lateAnswer => true
  | .yotisFlitLost _ _ => true
  | .yotisRetrain _ _ => true
  | .hostLinkDown => true
  | .debuggerHalt _ => true
  | .debuggerResume _ => true
  | .debuggerAttach _ _ => true
  | .debuggerAction _ _ => true
  | .powerGood => true
  | .stageComplete _ _ => true
  | .perstDeassert => true
  | .packageReset => true
  | .thermalThrottle _ => true
  | .thermalShutdown _ => true
  | .monitorControlWrite _ _ _ => true
  | .managementRegisterWrite _ _ => true
  | .corePowerGate _ => true
  | _ => false

/-- The step from outside that is taken next: the oldest that does not wait for its way (R460; log entry 3). -/
def State.nextInput (s : State) : Option Instr :=
  s.inputs.find? fun i => !s.hostShut i

end Sys2Proof.Machine
end

