-- ==== Sys2Proof/Machine/Step.lean ====
section
/-! DEFINITION. One step of the machine, and the placing of one instruction where the next step fetches it. -/

namespace Sys2Proof.Machine

/-- A step from outside the package: one that names nothing that exists changes nothing (log entry 3). -/
def takeInput (i : Instr) (s : State) : Host.Outcome State Fault Refusal :=
  if isInput i then
    match exec i s with
    | .fault _ => .next s
    | r => r
  else .next s

/-- The next step where no issue is in progress: the part's own agents in this ccy; at its end the steps from outside the package; then the
ccy passes (log entries 1 and 3). -/
def agents (s : State) : Host.Outcome State Fault Refusal :=
  match ccyStep s with
  | some t => .next t
  | none =>
    match s.nextInput with
    | some i => takeInput i { s with inputs := s.inputs.erase i, rotor := 3 * rotorBase }
    | none => .next s.tick

/-- One step: the issue in progress runs its instruction; else the next step of the agents (log entry 1). -/
def step (s : State) : Host.Outcome State Fault Refusal :=
  match s.issuing with
  | some iss =>
    match s.instrOf iss with
    | .ok i => exec i s
    | .error t => .next t
  | none => agents s

/-- The context of withFetchWord: object 0 in frame 0 with two entries (log entry 2). -/
def fetchCtx : Ctx :=
  { num := 0, otfr := 0, otnp := 1, otne := 2, shape := 0, exlog := 0, ll := [0, 0, 0, 0, 0, 0, 0, 0], handlerCode := none,
    handlerEntry := 0, handlerA := [], sysLists := false, debugger := false, savePool := 0, framePool := [], saved := [], crops := [],
    stopped := [], away := false, nextFld := 0 }

/-- The plot of withFetchWord: at system level, its window of 96 registers zero, its code object 1 from byte 0. -/
def fetchPlot (pid : Nat) : Plot :=
  let a : List Cap := List.replicate 8 .null
  { Plot.blank pid 0 0 0 0 0 true none 96 (Cap.make 1 0 65536 rightX 1 true) 0 with
    windows := [(0, 0)], fibres := [{ Fibre.launched 0 96 0 0 a 0 with run := .inFurrow }] }

/-- The bytes that withFetchWord stores: the entry of object 1, its page descriptor (frame 1, resident, X), the words at its first
bytes. -/
def fetchBytes (nbits w : Nat) : List (Nat × List Byte) :=
  let entry := 128 * 2 ^ 88 + 2 ^ 64 + 2 ^ 63 + 2 ^ 58 + rightX * 2 ^ 48
  let desc : PageDesc := { frame := 1, home := 0, place := 0, pdie := 0, pchan := 0, bias := 0, wx := 1, res := 1, mig := 0 }
  [(64, leBytes 16 entry), (128, leBytes 8 desc.toNat), (65536, leBytes 8 (w % 2 ^ nbits))]

/-- The machine with one instruction where its next step fetches it: a context, a code object and a plot with one fibre, whose
furrow's issue is in progress (log entry 2). -/
def State.withFetchWord (s : State) (nbits w : Nat) : State :=
  let pid := s.nextPid
  let fu : Furrow :=
    { core := 0, quad := 0, slot := 0, pid := pid, lanes := [(0, 0)], m := 0, bound := false, since := 0, promoted := false, waiting := none }
  let t : State := { s with ctxs := fetchCtx :: s.ctxs.filter fun c => c.num != 0 }
  let t := (fetchBytes nbits w).foldl (fun u q =>
    match fetchCtx.addr0 q.1 with
    | some a => u.store a q.2
    | none => u.store ((fetchCtx.desc0 1).lineAddr 0 + (q.1 - 65536)) q.2) t
  let t := t.recallCode (· == 0) 0 1 fun _ => true
  let t := t.modCore 0 fun c => { c with furrows := fu :: c.furrows.filter fun f => !(f.quad == 0 && f.slot == 0) }
  { t with
    plots := t.plots ++ [fetchPlot pid]
    nextPid := pid + 1
    issuing := some { pid := pid, core := 0, furrow := some (0, 0), pc := 0, members := [(0, 0)] } }

end Sys2Proof.Machine
end

