-- ==== Sys2Proof/Safety.lean ====
section
/-! DEFINITION. What the claims are stated in: a state from which the machine goes on, the canonical form of memory, the issue of a lane
word, what its members become, and what the issue leaves as it was. -/

namespace Sys2Proof.Machine

/-! ### Runs -/

/-- The machine goes on from a state: its step answers a next state. -/
def State.goesOn (s : State) : Prop :=
  ∃ t, step s = .next t

/-- Memory is in its canonical form, and the lists of tagged and of poisoned granules are strictly rising. -/
structure State.MemOk (s : State) : Prop where
  mem : Memory.wf s.mem = true
  tags : s.tags.Pairwise (· < ·)
  poison : s.poison.Pairwise (· < ·)

/-! ### The issue of a lane word -/

/-- Two fibres that differ at most in when and how they run next: the same registers, PC, counts and place. -/
def Fibre.same (f g : Fibre) : Prop :=
  { f with run := .binned, readyAt := 0, flight := false } = { g with run := .binned, readyAt := 0, flight := false }

/-- An issue of a plot is in progress, no fibre twice in it. -/
structure Issuing (s : State) (iss : Issue) (p : Plot) : Prop where
  issuing : s.issuing = some iss
  plot : s.plot? iss.pid = some p
  fids : (iss.members.map (·.2)).Nodup

/-- An issue of one fibre is in progress. -/
structure Alone (s : State) (iss : Issue) (p : Plot) (f : Fibre) : Prop where
  issuing : s.issuing = some iss
  plot : s.plot? iss.pid = some p
  members : iss.members.map (·.2) = [f.fid]
  fibre : p.fibre? f.fid = some f

/-- The halt of a plot after an issue with some faults: the one it was in, with the issue's skid where it began earlier, or one that starts now (R414
to R416). -/
def State.raised (s : State) (p : Plot) (iss : Issue) (l : List (Nat × FaultRec)) : Option Halt :=
  (sortBy (·.1) l).foldl (fun h q => some (haltWith h (s.cycOf p.core) (iss.furrow.map (·.1)) q.1 q.2))
    (p.halt.map fun h => h.skid (s.cycOf p.core) iss)

/-- What the end of an issue leaves as it was. S is the state with the members' effects on shared state and the log; t differs from it in
the members' fibres, their plot's pending flags, halt and counts of retired instructions, the furrows and the ports of cores, and the issue,
which is over. -/
structure LaneEnd (S t : State) (iss : Issue) (flags : Flg) (faults : List (Nat × FaultRec)) : Prop where
  rest : { t with plots := [], cores := [], issuing := none, nextIssue := 0 } =
    { S with plots := [], cores := [], issuing := none, nextIssue := 0 }
  ended : t.issuing = none
  next : t.nextIssue = S.nextIssue + 1
  cores : ∀ n, { t.core n with furrows := [], ports := [] } = { S.core n with furrows := [], ports := [] }
  others : ∀ pid, pid ≠ iss.pid → t.plot? pid = S.plot? pid
  plot : ∀ P, S.plot? iss.pid = some P → ∃ q, t.plot? iss.pid = some q ∧
    { q with fibres := [], rcnt := 0, progress := [], flgPend := 0, halt := none } =
      { P with fibres := [], rcnt := 0, progress := [], flgPend := 0, halt := none } ∧
    q.flgPend = P.flgPend ||| flags ∧ q.halt = S.raised P iss faults ∧
    ∀ fid, fid ∉ iss.members.map (·.2) → q.fibre? fid = P.fibre? fid

/-- A member of an issue that is, after it, a given fibre but for when it runs next. -/
def Becomes (t : State) (iss : Issue) (fid : Nat) (f : Fibre) : Prop :=
  ∃ g, t.fibre? iss.pid fid = some g ∧ g.same f

/-- A member of an issue that parks at the instruction. -/
def Parks (s t : State) (iss : Issue) (f : Fibre) (k : Park) : Prop :=
  t.fibre? iss.pid f.fid = some { f with run := .parked k, readyAt := s.cycOf iss.core }

/-- The flags of an issue: those of every member that takes part. -/
def Issue.flags (iss : Issue) (p : Plot) (w : LaneWord) (r : IssueCtx → Fibre → Fibre × Flg × List Nat) : Flg :=
  ((iss.live p).filter fun m => p.takes w m.2).foldl (fun a m => a ||| (r (iss.context p w m.1) m.2).2.1) 0

/-- The causes that members add to the exception log. -/
def Issue.causes (iss : Issue) (p : Plot) (w : LaneWord) (r : IssueCtx → Fibre → Fibre × Flg × List Nat) : List (Nat × List Nat) :=
  (iss.live p).map fun m => (m.2.fid, if p.takes w m.2 then (r (iss.context p w m.1) m.2).2.2 else [])

/-- No member that takes part has a load on its way to a v or a register that the word reads or writes (R72, R256). -/
def State.unlocked (s : State) (iss : Issue) (p : Plot) (w : LaneWord) : Prop :=
  ∀ m ∈ iss.live p, p.takes w m.2 = true → ∀ n ∈ s.loading p.pid m.2.fid, n ∉ w.uses

/-- An instruction that changes only its members' registers, flags and the exception log COMPLETES: whatever the members, none of them held by
an interlock, its issue ends in a next state. A member that takes part is as r says and goes on to the next instruction (or round its loop);
one whose guard is false only goes on; one that waits for a uniform result parks. All else stands as it was. Where an interlock holds a member
the issue has not begun: its furrow waits (R62, R72, R76, R123, R126, R334). -/
def Completes (i : Instr) (w : LaneWord) (r : IssueCtx → Fibre → Fibre × Flg × List Nat) : Prop :=
  ∀ s iss p, Issuing s iss p →
    (s.unlocked iss p w → ∃ t, exec i s = .next t ∧
      (∀ m ∈ iss.live p, p.takes w m.2 = true →
        Becomes t iss m.2.fid ((r (iss.context p w m.1) m.2).1.advance iss.pc (iss.pc + BitVec.ofNat 40 w.size))) ∧
      (∀ m ∈ iss.live p, m.2.pred w.guard = false → Becomes t iss m.2.fid (m.2.advance iss.pc (iss.pc + BitVec.ofNat 40 w.size))) ∧
      (∀ m ∈ iss.live p, p.waits w m.2 = true → Parks s t iss m.2 (.uniformResult (w.ks ++ w.bs.map (· + 64)))) ∧
      LaneEnd (s.logIssue p iss.pc.toNat 0 w.ty (iss.causes p w r)) t iss (iss.flags p w r) []) ∧
    (¬s.unlocked iss p w → exec i s = .next (s.waitIssue iss (.operands w.uses)))

/-! ### Shapes of lane words -/

/-- A two-operand word: D := op A B, the flags as the operation gives them. -/
def Binary (i : Instr) (x : FmtR) (op : Word → Word → Word × Flg) : Prop :=
  Completes i { guard := x.g.toNat, size := sizeOf x.p, codes := [x.a.toNat, x.b.toNat], dst := [x.d.toNat] } fun c f =>
    (f.setV x.d.toNat (op (readReg c.p f x.a.toNat) (readReg c.p f x.b.toNat)).1,
      (op (readReg c.p f x.a.toNat) (readReg c.p f x.b.toNat)).2, [])

/-- A two-operand word with an immediate, sign-extended from imm7 or from IMMX:B (R131). -/
def Immediate (i : Instr) (x : FmtR) (op : Word → Word → Word × Flg) : Prop :=
  Completes i { guard := x.g.toNat, size := sizeOf x.p, codes := [x.a.toNat], dst := [x.d.toNat] } fun c f =>
    (f.setV x.d.toNat (op (readReg c.p f x.a.toNat) (BitVec.ofInt 32 (simm x.p 7 x.b.toNat))).1,
      (op (readReg c.p f x.a.toNat) (BitVec.ofInt 32 (simm x.p 7 x.b.toNat))).2, [])

/-- A three-operand word: D := op A B C, C defaulting to D (R128). -/
def Ternary (i : Instr) (x : FmtR) (op : Word → Word → Word → Word × Flg) : Prop :=
  Completes i { guard := x.g.toNat, size := sizeOf x.p, codes := [x.a.toNat, x.b.toNat, pSrc x.p x.d.toNat], dst := [x.d.toNat] } fun c f =>
    (f.setV x.d.toNat (op (readReg c.p f x.a.toNat) (readReg c.p f x.b.toNat) (readReg c.p f (pSrc x.p x.d.toNat))).1,
      (op (readReg c.p f x.a.toNat) (readReg c.p f x.b.toNat) (readReg c.p f (pSrc x.p x.d.toNat))).2, [])

/-- A one-operand word: D := op A. -/
def Unary (i : Instr) (x : FmtU) (op : Word → Word × Flg) : Prop :=
  Completes i { guard := x.g.toNat, size := sizeOf x.p, codes := [x.a.toNat], dst := [x.d.toNat] } fun c f =>
    (f.setV x.d.toNat (op (readReg c.p f x.a.toNat)).1, (op (readReg c.p f x.a.toNat)).2, [])

/-- A word that sets a predicate from the predicates of its fibre. -/
def Predicate (i : Instr) (g pd : BitVec 3) (op : Fibre → Bool) : Prop :=
  Completes i { guard := g.toNat } fun _ f => (f.setPred pd.toNat (op f), 0, [])

/-- An exact integer result: mod 2^32, or with SAT clamped to the range of S32, SA set when it clamps (R115, R131). -/
def exactInt (sat : Bool) (x : Int) : Word × Flg :=
  if sat ∧ x < -2 ^ 31 then (0x80000000, flgSA)
  else if sat ∧ 2 ^ 31 ≤ x then (0x7FFFFFFF, flgSA)
  else (BitVec.ofInt 32 x, 0)

/-- The conditions of the integer compare by code: EQ to GE under S, LTU to GEU under U (R135). -/
def condition (code : Nat) (a b : Word) : Bool :=
  match code with
  | 0 => decide (a = b)
  | 1 => decide (a ≠ b)
  | 2 => decide (a.toInt < b.toInt)
  | 3 => decide (a.toInt ≤ b.toInt)
  | 4 => decide (b.toInt < a.toInt)
  | 5 => decide (b.toInt ≤ a.toInt)
  | 6 => decide (a.toNat < b.toNat)
  | 7 => decide (a.toNat ≤ b.toNat)
  | 8 => decide (b.toNat < a.toNat)
  | _ => decide (b.toNat ≤ a.toNat)

/-- The number of a code of a format, a rational: its significand times its power of two; 0 for a NaN or an infinity. -/
def numberOf (ty code : Nat) : ℚ :=
  ((codeVal ty code).dy.m : ℚ) * 2 ^ (codeVal ty code).dy.e

/-- The number or infinity of a code of a format that is no NaN, in the order of the numbers with the infinities at its ends (R143). -/
def extendedOf (ty code : Nat) : WithBot (WithTop ℚ) :=
  match codeVal ty code with
  | .inf true => ⊥
  | .inf false => ((⊤ : WithTop ℚ) : WithBot (WithTop ℚ))
  | _ => ((numberOf ty code : WithTop ℚ) : WithBot (WithTop ℚ))

/-- A code of a format that is neither a NaN nor an infinity. -/
abbrev isFinite (ty code : Nat) : Prop :=
  (codeVal ty code).isNan = false ∧ (codeVal ty code).isInf = false

/-- The number of a significand and exponent. -/
def Dy.number (d : Dy) : ℚ :=
  (d.m : ℚ) * 2 ^ d.e

/-- A result that is the exact number x rounded once into a format; a zero has the sign given (R77, R141). -/
def RoundsOnce (c : RndCtx) (ty : Nat) (x : ℚ) (zero : Bool) (r : NumRes) : Prop :=
  ∃ v : Val, v.isNan = false ∧ v.isInf = false ∧ v.dy.number = x ∧ (v.isZero = true ↔ x = 0) ∧ (x = 0 → v.isNeg = zero) ∧ r = roundVal c ty v

/-- The result of an invalid operation in FP32, FP16 or BF16: the NaN with the origin hash, NV, a record of cause 1 (R117, R141). -/
def invalidRes (c : RndCtx) (ty : Nat) : NumRes :=
  let oh := mix64 (c.pc * 1024 + c.fid) / 2 ^ 43
  ⟨if ty = 0 then 0x7FE00000 + oh else if ty = 1 then 0x7F00 + oh / 2 ^ 13 else 0x7FE0 + oh / 2 ^ 16, flgNV, [1]⟩

/-- The code of a NaN of FP32, FP16 or BF16 with its quiet bit set (R118). -/
def quietCode (ty k : Nat) : Nat :=
  let q := if ty = 0 then 22 else if ty = 1 then 9 else 6
  if k.testBit q then k else k + 2 ^ q

/-- The result of an operation with NaN operands: the first one's code, quietened; NV and a record where one of them signals (R118). -/
def nanRes (code : Nat) (l : List Val) : NumRes :=
  ⟨code, if ∃ v ∈ l, v.isSnan = true then flgNV else 0, if ∃ v ∈ l, v.isSnan = true then [1] else []⟩

/-- An integer that a mode may select for a number: one of its two neighbours, on the mode's side or the nearest, ties to even or away from zero (R110). -/
def SelectsInt (rm : Nat) (x : ℚ) (n : Int) : Prop :=
  |(n : ℚ) - x| < 1 ∧ (rm = 1 → |(n : ℚ)| ≤ |x|) ∧ (rm = 2 → x ≤ n) ∧ (rm = 3 → (n : ℚ) ≤ x) ∧ (rm = 0 ∨ rm = 4 → 2 * |(n : ℚ) - x| ≤ 1) ∧
    (2 * |(n : ℚ) - x| = 1 → (rm = 0 → Even n) ∧ (rm = 4 → |x| ≤ |(n : ℚ)|))

/-- A cross-lane or SFU word of one operand: D := the result in its context. -/
def Gathers (i : Instr) (g : BitVec 3) (codes : List Nat) (d : BitVec 7) (r : IssueCtx → Fibre → Word) : Prop :=
  Completes i { guard := g.toNat, codes := codes, dst := [d.toNat] } fun c f => (f.setV d.toNat (r c f), 0, [])

/-! ### Words that act on shared state -/

/-- An issue of a plot on its core by a furrow that stands in its slot, has members and is the only one that holds those of the issue. -/
structure InFurrow (s : State) (iss : Issue) (p : Plot) (fu : Furrow) : Prop extends Issuing s iss p where
  core : p.core = iss.core
  furrow : iss.furrow = some (fu.quad, fu.slot)
  holds : (s.core iss.core).furrow? fu.quad fu.slot = some fu
  lanes : fu.lanes ≠ []
  only : ∀ g ∈ (s.core iss.core).furrows, g.pid = iss.pid → (∃ l ∈ g.lanes, l.2 ∈ iss.members.map (·.2)) → g.quad = fu.quad ∧ g.slot = fu.slot

/-- A furrow has ended: its slot is free, or stands without members until the issue is over (R35). -/
def Furrow.ended (fu : Furrow) (core : Nat) (t : State) : Prop :=
  ∀ g, (t.core core).furrow? fu.quad fu.slot = some g → g.lanes = []

/-- A furrow has been kept for its next issue with some of its members, bound as it was (R35, R42). -/
def Furrow.kept (fu : Furrow) (core : Nat) (lanes : List (Nat × Nat)) (t : State) : Prop :=
  ∃ since, (t.core core).furrow? fu.quad fu.slot = some { fu with lanes := lanes, since := since, promoted := false, waiting := none }

/-- A member of an issue is, after it, a given fibre, ready from a ccy on with its age counted from it (R36). -/
def Loose (t : State) (iss : Issue) (f : Fibre) (since : Nat) : Prop :=
  ∃ g, t.fibre? iss.pid f.fid = some g ∧ g.same f ∧ g.run = .ready since ∧ g.readyAt = since

/-- What one member's instruction does: the shared state after it; the member after it, with its next PC; how it waits, where it does not go
on at once; its flags and the causes it adds to the exception log; with a fault, nothing of the member; with a stall, nothing at all, since
the issue does not begin (R71, R76, R225). -/
structure Turn where
  s : State
  f : Fibre
  wait : Option RunState := none
  fault : Option FaultRec := none
  flags : Flg := 0
  causes : List Nat := []
  stall : Option IssueWait := none

/-- A member that goes on to the next instruction (R76, R351). -/
def Turn.next (c : IssueCtx) (s : State) (f : Fibre) : Turn :=
  { s := s, f := f.advance c.iss.pc (c.iss.pc + BitVec.ofNat 40 c.size) }

/-- A member whose instruction raises a fault: it stays at the instruction (R71, R413). -/
def Turn.raise (s : State) (f : Fibre) (r : FaultRec) : Turn :=
  { s := s, f := f, fault := some r }

/-- A member that parks at the instruction. -/
def Turn.park (s : State) (f : Fibre) (k : Park) : Turn :=
  { s := s, f := f, wait := some (.parked k) }

/-- A member that cannot begin: the issue waits for what it needs (R225, R256, R334, R460). -/
def Turn.again (s : State) (f : Fibre) (k : IssueWait) : Turn :=
  { s := s, f := f, stall := some k }

/-- A member that goes on at a target; a target after the instruction is no transfer (R340, R351). -/
def Turn.goto (c : IssueCtx) (s : State) (f : Fibre) (pc : Pc) : Turn :=
  if pc = c.iss.pc + BitVec.ofNat 40 c.size then .next c s f else { s := s, f := { f with pc := pc } }

/-- The shared state after some members have taken their turns, in ascending lane order (R76, R201). -/
def Issue.after (iss : Issue) (p : Plot) (w : LaneWord) (e : IssueCtx → State → Fibre → Turn) (s : State) (l : List (Nat × Fibre)) : State :=
  l.foldl (fun t m => if p.takes w m.2 then (e (iss.context p w m.1) t m.2).s else t) s

/-- The turns of the members that take part, each in the state that the members before it leave. -/
def Issue.turns (iss : Issue) (p : Plot) (w : LaneWord) (e : IssueCtx → State → Fibre → Turn) (s : State) : List (Nat × Fibre) → List (Nat × Turn)
  | [] => []
  | m :: rest =>
    if p.takes w m.2 then
      let u := e (iss.context p w m.1) s m.2
      (m.2.fid, u) :: iss.turns p w e u.s rest
    else iss.turns p w e s rest

/-- The end of an issue in a next state, all its members having begun. Of the members that the turns leave in the plot: each that takes part is
as its turn says, one whose guard is false only goes on, one that waits for a uniform result parks. All else is as the turns leave it, with the
log's records (R62, R76, R123, R126). -/
def Ends (r : Result) (s : State) (iss : Issue) (p : Plot) (w : LaneWord) (e : IssueCtx → State → Fibre → Turn) : Prop :=
  let S := iss.after p w e s (iss.live p)
  let l := iss.turns p w e s (iss.live p)
  ∃ t, r = .next t ∧
    LaneEnd (S.logIssue p iss.pc.toNat 0 w.ty (l.map fun q => (q.1, q.2.causes))) t iss (l.foldl (fun a q => a ||| q.2.flags) 0)
      (l.filterMap fun q => q.2.fault.map fun r => (q.1, r)) ∧
    (∀ q ∈ l, q.2.fault = none → (S.fibre? iss.pid q.1).isSome →
      match q.2.wait with
      | none => Becomes t iss q.1 q.2.f
      | some r => t.fibre? iss.pid q.1 = some { q.2.f with run := r, readyAt := S.cycOf iss.core }) ∧
    (∀ q ∈ l, q.2.fault.isSome → ∀ f, S.fibre? iss.pid q.1 = some f → Becomes t iss q.1 f) ∧
    (∀ m ∈ iss.live p, m.2.pred w.guard = false → (S.fibre? iss.pid m.2.fid).isSome →
      Becomes t iss m.2.fid (m.2.advance iss.pc (iss.pc + BitVec.ofNat 40 w.size))) ∧
    (∀ m ∈ iss.live p, p.waits w m.2 = true → (S.fibre? iss.pid m.2.fid).isSome →
      t.fibre? iss.pid m.2.fid =
        some { m.2 with run := .parked (.uniformResult (w.ks ++ w.bs.map (· + 64))), readyAt := S.cycOf iss.core })

/-- What an issue of a word from a state gives: it ends in a next state where every member that takes part can begin; where an interlock or a
turn holds one, it has not begun and its furrow waits. -/
def Served (r : Result) (s : State) (iss : Issue) (p : Plot) (w : LaneWord) (e : IssueCtx → State → Fibre → Turn) : Prop :=
  let l := iss.turns p w e s (iss.live p)
  (s.unlocked iss p w → (∀ q ∈ l, q.2.stall = none) → Ends r s iss p w e) ∧
  (¬s.unlocked iss p w → r = .next (s.waitIssue iss (.operands w.uses))) ∧
  (s.unlocked iss p w → ∀ k, firstSome (l.map fun q => q.2.stall) = some k → r = .next (s.waitIssue iss k))

/-- An instruction whose members act on shared state COMPLETES: from every state in which its members can begin its issue ends in a next state,
the members taking their turns in ascending lane order (R76). A privileged instruction does so at system level (R391). -/
def Serves (i : Instr) (w : LaneWord) (e : IssueCtx → State → Fibre → Turn) : Prop :=
  ∀ s iss p, Issuing s iss p → (w.privileged = true → p.system = true) → Served (exec i s) s iss p w e

/-- The check of an access through the capability that a selector names: its object and byte, or the fault that names them (R79, R419). -/
def memCheck (c : IssueCtx) (f : Fibre) (sel : BitVec 4) (off n need align : Nat) (kinds : List Nat) (acc : Nat) :
    Except FaultRec (Nat × Nat) :=
  match (selCap c.p f sel.toNat).check off n need align kinds with
  | .error e => .error (.access e c.iss.pc (selCap c.p f sel.toNat).obj ((selCap c.p f sel.toNat).faultOff off e) acc)
  | .ok q => .ok q

/-- A word of a counted access COMPLETES. A member whose counter is full parks; one whose check fails raises its fault; the others take the turn
of the access (R79, R254, R255). -/
def Counted (i : Instr) (w : LaneWord) (k : OpClass) (check : IssueCtx → Fibre → Except FaultRec (Nat × Nat))
    (go : IssueCtx → State → Fibre → Nat → Nat → Turn) : Prop :=
  Serves i w fun c s f =>
    if counterFull f k then .park s f (.counter k)
    else
      match check c f with
      | .error r => .raise s f r
      | .ok (o, y) => go c s f o y

/-- A counted access that begins only once the member's earlier accesses of its n bytes are done (R256). -/
def Accesses (i : Instr) (w : LaneWord) (k : OpClass) (n : Nat) (check : IssueCtx → Fibre → Except FaultRec (Nat × Nat))
    (go : IssueCtx → State → Fibre → Nat → Nat → Turn) : Prop :=
  Counted i w k check fun c s f o y => if s.bytesBusy c.p.pid f.fid o y n then .again s f .bytes else go c s f o y

/-- The turn of a shared operation's effect. -/
def Eff.turn (e : Eff) (c : IssueCtx) (f : Fibre) : Turn :=
  match e.act with
  | .seq g => { Turn.next c e.s g with flags := e.flg, causes := e.causes }
  | .goto g pc => { Turn.goto c e.s g pc with flags := e.flg, causes := e.causes }
  | .again k => { Turn.again e.s f k with flags := e.flg, causes := e.causes }
  | .hold g j => { Turn.next c e.s g with wait := some (.held j), flags := e.flg, causes := e.causes }
  | .park g k => { Turn.park e.s g k with flags := e.flg, causes := e.causes }
  | .fault r => { Turn.raise e.s f r with flags := e.flg, causes := e.causes }
  | .exit => { s := e.s, f := f, flags := e.flg, causes := e.causes }

/-! ### Uniform words -/

/-- What a member of an issue of a uniform word, or of SIGN, does: it signs the next instance of the set, and goes on (or parks, where the
word's signers do); it parks, or raises BARX or UMIS, where R44 to R47 say so; from the ccy after its plot's fault cycle it is frozen (R45, R49,
R255, R359, R414). -/
def signTurn (w : UniWord) (code : Option Instr) (c : IssueCtx) (s : State) (f : Fibre) : Turn :=
  match s.plot? c.p.pid with
  | none => .next c s f
  | some p =>
    if p.halt.any fun h => h.fcyc != s.cycOf p.core then .again s f .frozen
    else
    match p.sign f w.cv code c.iss.pc c.size with
    | .barx => .raise s f (.precise .barx c.iss.pc)
    | .umis => .raise s f (.precise .umis c.iss.pc)
    | .park k => .park s f k
    | .signed x n =>
      if w.cls.any (counterFull f) then .park s f (.counter (w.cls.getD .engine))
      else
        let t := (if w.commits && code.isSome then s.commit p.pid else s).modPlot p.pid fun q => q.setCset w.cv x
        let g := { f.more w.cls with seq := f.seq.set w.cv ((n + 1) % 65536) }
        if w.parks then .park t g (.ldlayer w.cv n) else .next c t g

/-- An issue of one fibre that is the only member of a set, which is closed or c0; its core's uniform pipe has nothing to do; the fibre's next
instance is the set's lowest; the plot is not halted, no region of it uncommitted. -/
structure Solo (s : State) (iss : Issue) (p : Plot) (f : Fibre) (cv : Nat) : Prop extends Alone s iss p f where
  core : p.core = iss.core
  set : cv < 8
  sets : cv < p.c.length
  member : p.membersOf cv = [f.fid]
  closed : cv = 0 ∨ (p.cset cv).closed = true
  quiet : ∀ q ∈ s.plots, q.core = iss.core ∨ q.pid = iss.pid → q.settleSets = q ∧ ∀ x ∈ q.c, x.insts = []
  turn : f.seqOf cv = (p.cset cv).low
  seqs : cv < f.seq.length
  low : (p.cset cv).low < 65536
  committed : p.uncommitted = false
  running : p.halt = none
  free : (s.core iss.core).pipeWait = []

/-- The instance that one fibre's signature opens and completes (R46). -/
def soleInst (w : UniWord) (i : Instr) (iss : Issue) (f : Fibre) (complete : Bool) : Inst :=
  { num := f.seqOf w.cv, code := some i, pc := iss.pc, size := w.size, sigs := [⟨f.fid, false⟩], req := [f.fid], complete := complete,
    executed := false, retried := false, park := none }

/-- The machine after the signature of the only member: the instance stands in its set, the fibre has gone on with its sequence number raised
and its count taken (or parks, where the word's signers do), the rest is as it was. -/
structure Signed (s S : State) (iss : Issue) (p P : Plot) (f : Fibre) (w : UniWord) (i : Instr) : Prop where
  plot : S.plot? iss.pid = some P
  same : { P with fibres := [], c := [], rcnt := 0, progress := [] } = { p with fibres := [], c := [], rcnt := 0, progress := [] }
  inst : (P.cset w.cv).insts = [soleInst w i iss f false]
  low : (P.cset w.cv).low = f.seqOf w.cv
  fibre : let g := { f.more w.cls with seq := f.seq.set w.cv ((f.seqOf w.cv + 1) % 65536) }
    if w.parks then S.fibre? iss.pid f.fid = some { g with run := .parked (.ldlayer w.cv (f.seqOf w.cv)), readyAt := s.cycOf iss.core }
    else Becomes S iss f.fid (g.advance iss.pc (iss.pc + BitVec.ofNat 40 w.size))
  fibres : ∀ fid, fid ≠ f.fid → P.fibre? fid = p.fibre? fid
  others : ∀ pid, pid ≠ iss.pid → S.plot? pid = s.plot? pid
  cores : ∀ n, { S.core n with furrows := [], ports := [] } = { s.core n with furrows := [], ports := [] }
  rest : { S with plots := [], cores := [], issuing := none, nextIssue := 0 } = { s with plots := [], cores := [], issuing := none, nextIssue := 0 }
  ended : S.issuing = none

/-- A plot's instance of a set is marked: complete, or executed. -/
def State.marked (S : State) (pid cv num : Nat) (m : Inst → Inst) : State :=
  S.modPlot pid fun p =>
    let x := p.cset cv
    p.setCset cv { x with insts := x.insts.map fun j => if j.num == num then m j else j }

/-- An instance has executed: it is its set's no more lowest one, those parked for its place sign, neutral ones that follow it complete, its result is
on the way, written two ccy later (R46, R47, R49, R366). -/
def State.executed (u : State) (core pid cv num : Nat) (d : UDest) : State :=
  (((u.marked pid cv num fun j => { j with executed := true }).passInst pid cv).passNeutral pid cv 4).modCore core fun k =>
    { k with results := k.results ++ [⟨pid, cv, num, d, u.cycOf core + 2⟩] }

/-- The uniform pipe of a core has taken an instance that waited (R366). -/
def State.taken (u : State) (core : Nat) (q : PipeInst) : State :=
  u.modCore core fun k => { k with pipeWait := k.pipeWait.filter fun r => r != q }

/-- A uniform word COMPLETES: whoever its members are, its issue ends in a next state with their signatures (R45, R49). Where its set's only member
issues it and the pipe has nothing else to do, the end of the ccy executes it: what its effect does to the plot and the state is done and its result
on the way; or its effect has begun and the instance stays; or the pipe holds it as it is (R46, R168, R366). -/
def Executes (i : Instr) (w : UniWord) (effect : Inst → Plot → State → UniEffect) : Prop :=
  Serves i { size := w.size, uks := w.ks, bs := w.bs, privileged := w.privileged } (signTurn w (some i)) ∧
  ∀ s iss p f, Solo s iss p f w.cv → (w.privileged = true → p.system = true) → (∀ k, w.cls = some k → counterFull f k = false) →
    ∃ S P T Q, exec i s = .next S ∧ Signed s S iss p P f w i ∧
      let q : PipeInst := ⟨iss.pid, w.cv, f.seqOf w.cv, s.cycOf iss.core⟩
      T = (S.marked iss.pid w.cv (f.seqOf w.cv) fun j => { j with complete := true }).modCore iss.core (fun k => { k with pipeWait := [q] }) ∧
      T.plot? iss.pid = some Q ∧
      match effect (soleInst w i iss f true) Q T with
      | .done u d => exec (.uniformPipeExecute iss.core) S = .next ((u.executed iss.core iss.pid w.cv (f.seqOf w.cv) d).taken iss.core q)
      | .later u => exec (.uniformPipeExecute iss.core) S = .next (u.taken iss.core q)
      | .hold => exec (.uniformPipeExecute iss.core) S = .next T

/-- A uniform ALU word completes: its effect is a result for a k register and flags of the plot, nothing else. -/
def UniformAlu (w : UniWord) (i : Instr) (d : BitVec 6) (value : Plot → Word × Flg) : Prop :=
  Executes i w fun _ P S => .done (S.setFlags P.pid (value P).2) (.k d.toNat (value P).1)

/-- An engine command completes. Once its signers' accesses have been performed its execution puts a command in its core's queue: the descriptor
from the four k registers, the b registers as they stand, the seed from k31, the signers; until then the pipe holds it (R162, R167, R168). -/
def EngineCommand (w : UniWord) (i : Instr) (kd : BitVec 4) (src dst : Option (BitVec 4)) : Prop :=
  Executes i w fun I P S =>
    if S.signersQuiet P I = false then .hold
    else .done
      { S.modCore P.core (fun k => { k with cmdWait := k.cmdWait ++ [{
          pid := P.pid, order := S.nextOrder, code := i, pc := I.pc,
          desc := P.kreg (4 * kd.toNat + 3) ++ (P.kreg (4 * kd.toNat + 2) ++ (P.kreg (4 * kd.toNat + 1) ++ P.kreg (4 * kd.toNat))),
          src := (src.map fun b => P.breg b.toNat).getD .null, dst := (dst.map fun b => P.breg b.toNat).getD .null, seed := P.kreg 31,
          first := I.firstSigner % 1024, signers := (I.sigs.filter fun g => !g.neutral).map (·.fid) }] }) with nextOrder := S.nextOrder + 1 }
      .none

end Sys2Proof.Machine
end

