-- ==== Sys2Proof/Certificates/Slice0/Obligations.lean ====
section
/-! DEFINITION. The statements about the machine, from the numbered rules of the spec. -/

open Sys2Proof Sys2Proof.Machine

/-! ### Encoding (R57 to R71) -/

/-- Every instruction word reads back: its bytes, before any other bytes, decode to it, to its size and to the bytes after it (R57, R60). -/
def Obligations.EveryWordReadsBack : Prop :=
  ∀ i : Instr, i.isWord = true → ∀ rest : List Byte, decode (encodeBytes i ++ rest) = .ok (i, (encodeBytes i).length, rest)

/-- Bytes have one meaning at most: whatever decodes is the encoding of what it decodes to, so that no bit is dropped and no reserved
bit is let through (R58, R60, R71). -/
def Obligations.BytesHaveOneMeaning : Prop :=
  ∀ bs i n rest, decode bs = .ok (i, n, rest) → i.isWord = true ∧ bs = encodeBytes i ++ rest ∧ n = (encodeBytes i).length

/-- Words of the spec's examples and encoding tables decode to what they stand for (R60 to R66). OP 0x00 and 0x7F, prefixes on the wrong word, and a prefix before a prefix are no instructions (R58, R66). -/
def Obligations.SpecWordsDecode : Prop :=
  (decodeWords 0x01610286 0 = .ok (.iadd ⟨3, 4, 5, 6, none⟩, 4) ∧
  decodeWords 0x7E010B00 0x33E2048A = .ok (.ffma ⟨7, 8, 9, 10, some ⟨0, 1, 0, 11, 0⟩⟩, 8) ∧
  decodeWords 0x24E00010 0 = .ok (.pxor ⟨7, 0, 0, 0⟩, 4) ∧
  decodeWords 0x70208005 0 = .ok (.braJ ⟨1, 2, 5, none⟩, 4) ∧
  decodeWords 0x7E000400 0x60E20118 = .ok (.lda ⟨7, 8, 2, 3, 0, some ⟨0, 0, 0, 4, 0⟩⟩, 8) ∧
  decodeWords 0x7E380000 0x69E30209 = .ok (.ljoin ⟨7, 12, 4, 1, 1, ⟨7, 0, 0, 0, 0⟩⟩, 8) ∧
  decodeWords 0x29E08084 0 = .ok (.cnarrow ⟨7, 2, 1, 4, none⟩, 4) ∧
  decodeWords 0x81220A30 0 = .ok (.uadd ⟨1, 4, 5, 6, none⟩, 4) ∧
  decodeWords 0xA8040604 0 = .ok (.copyGs ⟨0, 2, 3, 1⟩, 4) ∧
  decodeWords 0xB8019000 0 = .ok (.mint ⟨0, 3, 2, 0⟩, 4)) ∧
  ((∀ w : BitVec 32, w.extractLsb' 24 7 = 0 → ∀ v, decodeWords w v = .error .unassignedOp) ∧
  (∀ w : BitVec 32, w.extractLsb' 24 7 = 0x7F → ∀ v, decodeWords w v = .error .unassignedOp) ∧
  (∀ w v : BitVec 32, w.extractLsb' 24 7 = 0x7E → v.extractLsb' 24 7 = 0x7E → decodeWords w v = .error .prefixTwice) ∧
  (∀ w v : BitVec 32, w.extractLsb' 24 7 = 0x7E → v.extractLsb' 24 7 ≠ 0x7E → w.extractLsb' 31 1 ≠ v.extractLsb' 31 1 →
    decodeWords w v = .error .prefixOtherSet))

/-! ### The step (R57, R71, R76) -/

/-- When the words at an issue's address decode to an instruction that passes the checks of R71, the step runs that instruction: nothing is
added round it. A word comes from the core's loop buffer, else from its instruction cache, else, where the page or the line is X, from memory at
the place that the code object's page gives, low byte first (R57, R71, R246, R371, R399). -/
def Obligations.StepRunsDecodedInstruction : Prop :=
  (∀ s iss p w0 w1 i n, s.issuing = some iss → s.plot? iss.pid = some p → s.fetch p iss.pc = .ok (w0, w1) →
    decodeWords w0 w1 = .ok (i, n) → checkWord p.window i = true → step s = exec i s) ∧
  (∀ (s : State) (p : Plot) pc at_ o y, p.code.check at_ 4 rightX 4 [1] = .ok (o, y) →
    let k := s.core p.core
    (∀ w, k.loopWord? p.ctx o y = some w → s.fetchWord p pc at_ = .ok w) ∧
    (∀ l, k.loopWord? p.ctx o y = none → k.iline? p.ctx o (y / 128) = some l → y % 128 / 16 ∉ l.poison →
      s.fetchWord p pc at_ = .ok (BitVec.ofNat 32 (leNat ((l.bytes.drop (y % 128)).take 4)))) ∧
    (∀ h, k.loopWord? p.ctx o y = none → k.iline? p.ctx o (y / 128) = none →
      s.port (dieOf p.core) p.ctx p.system p.code.kind o rightX y = .ok h → (h.desc.wx = 1 ∨ s.lineIsX p.ctx o y h = true) →
      s.poisoned h.addr 4 = false → s.fetchWord p pc at_ = .ok
        (Memory.read s.mem (h.addr + 3) ++ (Memory.read s.mem (h.addr + 2) ++ (Memory.read s.mem (h.addr + 1) ++ Memory.read s.mem h.addr)))))

/-- A word that cannot be fetched, does not decode, or fails the checks of R71 raises its fault, or ILLOP, in every member of the issue and does nothing else: the members stay at the word with their registers as they were (R71, R413). A privileged word other than ERET issued at user level raises PRIV in every member and does nothing else (R71, R391). -/
def Obligations.FaultsBeforeExecution : Prop :=
  (∀ s iss p r, Issuing s iss p →
    (s.fetch p iss.pc = .error r ∨
      (r = .precise .illop iss.pc ∧ ∃ w0 w1, s.fetch p iss.pc = .ok (w0, w1) ∧
        ((∃ e, decodeWords w0 w1 = .error e) ∨ ∃ i n, decodeWords w0 w1 = .ok (i, n) ∧ checkWord p.window i = false))) →
    ∃ t, step s = .next t ∧ LaneEnd s t iss 0 ((iss.live p).map fun m => (m.2.fid, r)) ∧ ∀ m ∈ iss.live p, Becomes t iss m.2.fid m.2) ∧
  (∀ i : Instr, ((∃ x, i = .mfsr x) ∨ (∃ x, i = .mtsr x) ∨ (∃ x, i = .halt x) ∨ (∃ x, i = .dbgb x) ∨ (∃ x, i = .mint x) ∨ (∃ x, i = .seal x) ∨
      (∃ x, i = .objinv x) ∨ (∃ x, i = .migr x) ∨ (∃ x, i = .biasD x) ∨ (∃ x, i = .biasH x) ∨ ∃ x, i = .unpubl x) →
    ∀ s iss p, Issuing s iss p → p.system = false →
      ∃ t, exec i s = .next t ∧ LaneEnd s t iss 0 ((iss.live p).map fun m => (m.2.fid, .precise .priv iss.pc)) ∧
        ∀ m ∈ iss.live p, Becomes t iss m.2.fid m.2)

/-- The machine never stops: from a state whose issue in progress, if there is one, is of a plot that exists, a step goes on to another such
state, whatever instruction it runs. Faults of the part are next states (R71, R121, R414). -/
def Obligations.MachineNeverStops : Prop :=
  ∀ s : State, (∀ iss, s.issuing = some iss → (s.plot? iss.pid).isSome = true) →
    ∃ t, step s = .next t ∧ ∀ iss, t.issuing = some iss → (t.plot? iss.pid).isSome = true

/-! ### Reset and memory (R216, R262, R263, R459, R468) -/

/-- Reset leaves every byte of memory zero and every granule without tag and poison, no plot, field or context, four dies with their cycle
counters at zero, the status register clear. The values the spec does not state are the model's: host memory reads zero (log entry 5), the
free-value counter starts at zero (log entry 7). -/
def Obligations.ResetState : Prop :=
  (∀ a, Memory.read State.reset.mem a = 0 ∧ State.reset.tagAt a = false ∧ ∀ n, State.reset.poisoned a n = false) ∧
  State.reset.plots = [] ∧ State.reset.fields = [] ∧ State.reset.ctxs = [] ∧ State.reset.issuing = none ∧
  State.reset.dies.map (fun d => (d.num, d.cyc, d.halted, d.errq)) = [(0, 0, false, []), (1, 0, false, []), (2, 0, false, []), (3, 0, false, [])] ∧
  State.reset.status = ⟨false, 0, false, 0, 0, false, none, false⟩ ∧ State.reset.freeCtr = 0 ∧ State.reset.MemOk

/-- Every step keeps memory canonical: its list strictly rising without a zero byte, so that equal memories are equal data, and the lists of
tagged and of poisoned granules strictly rising. -/
def Obligations.StepKeepsMemory : Prop :=
  ∀ s t : State, s.MemOk → step s = .next t → t.MemOk

/-- A store writes its bytes at its addresses and no others, clears the tags of the granules it touches and no others, and the poison of the
granules it covers whole and no others (R263, R459). -/
def Obligations.StoreWritesItsBytes : Prop :=
  ∀ (s : State) a (bs : List Byte), s.MemOk →
    (∀ n (h : n < bs.length), Memory.read (s.store a bs).mem (a + n) = bs[n]) ∧
    (∀ b, b < a ∨ a + bs.length ≤ b → Memory.read (s.store a bs).mem b = Memory.read s.mem b) ∧
    (∀ g, g ∈ (s.store a bs).tags ↔ g ∈ s.tags ∧ ¬∃ n < bs.length, (a + n) / 16 = g) ∧
    (∀ g, g ∈ (s.store a bs).poison ↔ g ∈ s.poison ∧ ¬(a ≤ 16 * g ∧ 16 * g + 16 ≤ a + bs.length)) ∧
    { s.store a bs with mem := [], tags := [], poison := [] } = { s with mem := [], tags := [], poison := [] }

/-! ### Integer and predicate lane words (R127 to R140) -/

/-- The integer arithmetic words complete with their exact result mod 2^32, or clamped under SAT (R115, R131, R137): sums, differences,
products, high words of products, minima, maxima, magnitudes. -/
def Obligations.IntegerArithmetic : Prop :=
  (∀ x, Binary (.iadd x) x fun a b => exactInt (pSat x.p) (a.toInt + b.toInt)) ∧
  (∀ x, Binary (.isub x) x fun a b => exactInt (pSat x.p) (a.toInt - b.toInt)) ∧
  (∀ x, Binary (.imul x) x fun a b => exactInt (pSat x.p) (a.toInt * b.toInt)) ∧
  (∀ x, Binary (.imulh x) x fun a b => ((a.signExtend 64 * b.signExtend 64).extractLsb' 32 32, 0)) ∧
  (∀ x, Binary (.imulhU x) x fun a b => ((a.setWidth 64 * b.setWidth 64).extractLsb' 32 32, 0)) ∧
  (∀ x, Ternary (.imad x) x fun a b c => exactInt (pSat x.p) (a.toInt * b.toInt + c.toInt)) ∧
  (∀ x, Binary (.imin x) x fun a b => (if a.toInt ≤ b.toInt then a else b, 0)) ∧
  (∀ x, Binary (.iminU x) x fun a b => (if a.toNat ≤ b.toNat then a else b, 0)) ∧
  (∀ x, Binary (.imax x) x fun a b => (if a.toInt ≤ b.toInt then b else a, 0)) ∧
  (∀ x, Binary (.imaxU x) x fun a b => (if a.toNat ≤ b.toNat then b else a, 0)) ∧
  (∀ x, Immediate (.iaddLi x) x fun a b => exactInt (pSat x.p) (a.toInt + b.toInt)) ∧
  (∀ x, Unary (.iabs x) x fun a => exactInt (pSat x.p) |a.toInt|) ∧
  (∀ x, Unary (.ineg x) x fun a => exactInt (pSat x.p) (-a.toInt))

/-- The logic words, the shifts by B[7:0], the rotate by B[4:0] and the moves complete with their results, no flag set (R131, R137, R138). -/
def Obligations.LogicShiftMove : Prop :=
  (∀ x, Binary (.and x) x fun a b => (a &&& b, 0)) ∧
  (∀ x, Binary (.or x) x fun a b => (a ||| b, 0)) ∧
  (∀ x, Binary (.xor x) x fun a b => (a ^^^ b, 0)) ∧
  (∀ x, Binary (.shl x) x fun a b => (BitVec.ofNat 32 (a.toNat * 2 ^ (b.toNat % 256)), 0)) ∧
  (∀ x, Binary (.shr x) x fun a b => (BitVec.ofNat 32 (a.toNat / 2 ^ (b.toNat % 256)), 0)) ∧
  (∀ x, Binary (.sar x) x fun a b => (BitVec.ofInt 32 (a.toInt / 2 ^ min (b.toNat % 256) 31), 0)) ∧
  (∀ x, Binary (.rol x) x fun a b => (((a ++ a) <<< (b.toNat % 32)).extractLsb' 32 32, 0)) ∧
  (∀ x, Immediate (.andLi x) x fun a b => (a &&& b, 0)) ∧
  (∀ x, Immediate (.orLi x) x fun a b => (a ||| b, 0)) ∧
  (∀ x, Immediate (.xorLi x) x fun a b => (a ^^^ b, 0)) ∧
  (∀ x, Immediate (.shlLi x) x fun a b => (BitVec.ofNat 32 (a.toNat * 2 ^ (b.toNat % 256)), 0)) ∧
  (∀ x, Immediate (.shrLi x) x fun a b => (BitVec.ofNat 32 (a.toNat / 2 ^ (b.toNat % 256)), 0)) ∧
  (∀ x, Immediate (.sarLi x) x fun a b => (BitVec.ofInt 32 (a.toInt / 2 ^ min (b.toNat % 256) 31), 0)) ∧
  (∀ x, Unary (.not x) x fun a => (~~~a, 0)) ∧
  (∀ x, Unary (.mov x) x fun a => (a, 0)) ∧
  (∀ x : FmtW17, Completes (.movi x) { size := Machine.sizeOf x.p, dst := [x.d.toNat] } fun _ f =>
    (f.setV x.d.toNat (BitVec.ofInt 32 (simm x.p 17 (x.ih ++ x.il).toNat)), 0, [])) ∧
  (∀ ih d il v, decodeWords (0#1 ++ (0x23#7 ++ (ih ++ (d ++ il)))) v = .ok (.movi ⟨ih, d, il, none⟩, 4))

/-- Bit i of BFX's result is bit pos + i of A below len, else 0; BFI puts A's low bits at pos of C and keeps C's others; POPC counts ones, CLZ the zeros above the highest one, BREV turns the word round (R132, R137). IADDC and ISUBB chain words through a predicate, p0 or the one of the prefix's C: the 33-bit sum with carry, the difference with borrow; a carry written to p7 is lost (R63, R133). Division goes towards zero; by zero it gives all ones, sets DZ and logs cause 2; the one quotient out of range, -2^31 by -1, wraps, or clamps under SAT (R134). -/
def Obligations.BitFieldsCarriesDivision : Prop :=
  ((∀ x, Binary (.bfx x) x fun a b => (BitVec.ofFnLE fun i : Fin 32 =>
    decide ((i : Nat) < min (b.toNat / 256 % 64) 32) && a.getLsbD (b.toNat % 32 + i), 0)) ∧
  (∀ x, Ternary (.bfi x) x fun a b c => (BitVec.ofFnLE fun i : Fin 32 =>
    if b.toNat % 32 ≤ i ∧ (i : Nat) < b.toNat % 32 + min (b.toNat / 256 % 64) 32 then a.getLsbD (i - b.toNat % 32) else c.getLsbD i, 0)) ∧
  (∀ x, Unary (.popc x) x fun a => (BitVec.ofNat 32 ((List.range 32).countP a.getLsbD), 0)) ∧
  (∀ x, Unary (.clz x) x fun a => (BitVec.ofNat 32 ((List.range 32).findIdx fun i => a.getLsbD (31 - i)), 0)) ∧
  (∀ x, Unary (.brev x) x fun a => (a.reverse, 0))) ∧
  ((∀ x : FmtR, Completes (.iaddc x) (lrWord x.g x.p [x.a.toNat, x.b.toNat] [x.d.toNat]) fun c f =>
    let a := readReg c.p f x.a.toNat
    let b := readReg c.p f x.b.toNat
    let n := a.toNat + b.toNat + (f.pred (pC x.p % 8)).toNat
    ((f.setV x.d.toNat (BitVec.ofNat 32 n)).setPred (pC x.p % 8) (decide (2 ^ 32 ≤ n)), 0, [])) ∧
  (∀ x : FmtR, Completes (.isubb x) (lrWord x.g x.p [x.a.toNat, x.b.toNat] [x.d.toNat]) fun c f =>
    let a := readReg c.p f x.a.toNat
    let b := readReg c.p f x.b.toNat
    let n : Int := a.toNat - b.toNat - (f.pred (pC x.p % 8)).toNat
    ((f.setV x.d.toNat (BitVec.ofInt 32 n)).setPred (pC x.p % 8) (decide (n < 0)), 0, []))) ∧
  ((∀ x : FmtR, Completes (.idiv x) { lrWord x.g x.p [x.a.toNat, x.b.toNat] [x.d.toNat] 21 with cost := 8 } fun c f =>
    let a := readReg c.p f x.a.toNat
    let b := readReg c.p f x.b.toNat
    if b = 0 then (f.setV x.d.toNat 0xFFFFFFFF, flgDZ, [2])
    else
      let q := exactInt (pSat x.p) (a.toInt.tdiv b.toInt)
      (f.setV x.d.toNat q.1, q.2, [])) ∧
  (∀ x : FmtR, Completes (.idivU x) { lrWord x.g x.p [x.a.toNat, x.b.toNat] [x.d.toNat] 20 with cost := 8 } fun c f =>
    let a := readReg c.p f x.a.toNat
    let b := readReg c.p f x.b.toNat
    if b = 0 then (f.setV x.d.toNat 0xFFFFFFFF, flgDZ, [2]) else (f.setV x.d.toNat (a / b), 0, [])))

/-- Compares set a predicate by their condition; ISEL selects by one, taking no guard; the predicate words combine predicates; P2V and V2P
move all seven; p7 reads true and drops writes (R63, R135, R136, R139, R140). -/
def Obligations.CompareSelectPredicates : Prop :=
  (∀ x : FmtC, Completes (.icmp x) (lrWord x.g x.p [x.a.toNat, x.b.toNat] []) fun c f =>
    (f.setPred x.pd.toNat (condition x.cond.toNat (readReg c.p f x.a.toNat) (readReg c.p f x.b.toNat)), 0, [])) ∧
  (∀ x : FmtC, Completes (.icmpLi x) (lrWord x.g x.p [x.a.toNat] []) fun c f =>
    (f.setPred x.pd.toNat (condition x.cond.toNat (readReg c.p f x.a.toNat) (BitVec.ofInt 32 (simm x.p 7 x.b.toNat))), 0, [])) ∧
  (∀ x : FmtR, Completes (.isel x) { size := Machine.sizeOf x.p, codes := [x.a.toNat, x.b.toNat], dst := [x.d.toNat] } fun c f =>
    (f.setV x.d.toNat (if f.pred x.g.toNat then readReg c.p f x.a.toNat else readReg c.p f x.b.toNat), 0, [])) ∧
  (∀ g d a b v, decodeWords (0#1 ++ (0x18#7 ++ (g ++ (d ++ (a ++ b))))) v = .ok (.isel ⟨g, d, a, b, none⟩, 4)) ∧
  (∀ x : FmtP30, Predicate (.pand x) x.g x.pd fun f => f.pred x.pa.toNat && f.pred x.pb.toNat) ∧
  (∀ x : FmtP30, Predicate (.por x) x.g x.pd fun f => f.pred x.pa.toNat || f.pred x.pb.toNat) ∧
  (∀ x : FmtP30, Predicate (.pxor x) x.g x.pd fun f => Bool.xor (f.pred x.pa.toNat) (f.pred x.pb.toNat)) ∧
  (∀ x : FmtP20, Predicate (.pnot x) x.g x.pd fun f => !f.pred x.pa.toNat) ∧
  (∀ x : FmtD1, Completes (.p2v x) (lrWord x.g x.p [] [x.d.toNat]) fun _ f =>
    (f.setV x.d.toNat (BitVec.ofFnLE fun i : Fin 32 => decide ((i : Nat) < 7) && f.pred i), 0, [])) ∧
  (∀ x : FmtA1, Completes (.v2p x) (lrWord x.g x.p [x.a.toNat] []) fun c f =>
    ({ f with preds := BitVec.ofFnLE fun i : Fin 7 => (readReg c.p f x.a.toNat).getLsbD i }, 0, [])) ∧
  (∀ f : Fibre, f.pred 7 = true) ∧
  (∀ (f : Fibre) (v : Bool), f.setPred 7 v = f)

/-! ### Floating point (R77, R109 to R120, R141 to R154) -/

/-- FADD, FSUB, FMUL and FFMA complete, each element of FP32, H2 or B2 on its own; FFMA's C defaults to D. Of finite operands the result is the
exact rational sum, difference, product or fused sum, rounded once by RM into the element's format, an exact zero with IEEE's sign. An infinity
gives an infinity of IEEE's sign; opposite infinities, and zero times infinity (in FFMA whatever C is), are invalid: the NaN with the origin hash,
NV, a record of cause 1. Otherwise the first NaN operand returns, quietened; a signalling one sets NV and writes the record (R117, R118, R141). -/
def Obligations.FloatArithmetic : Prop :=
  (∀ x : FmtR, Completes (.fadd x) (lrWord x.g x.p (withSeed x.p [x.a.toNat, x.b.toNat]) [x.d.toNat] (pTy x.p)) fun c f =>
    let r := byElem (pTy x.p) [readReg c.p f x.a.toNat, readReg c.p f x.b.toNat] fun i l =>
      let a := codeVal (elemTy (pTy x.p)) (l.getD 0 0)
      let b := codeVal (elemTy (pTy x.p)) (l.getD 1 0)
      roundRes (laneRnd c x.p f i) (elemTy (pTy x.p)) [a, b] (Val.add (pRm x.p) a b)
    (f.setV x.d.toNat r.1, r.2.1, r.2.2)) ∧
  (∀ x : FmtR, Completes (.fsub x) (lrWord x.g x.p (withSeed x.p [x.a.toNat, x.b.toNat]) [x.d.toNat] (pTy x.p)) fun c f =>
    let r := byElem (pTy x.p) [readReg c.p f x.a.toNat, readReg c.p f x.b.toNat] fun i l =>
      let a := codeVal (elemTy (pTy x.p)) (l.getD 0 0)
      let b := codeVal (elemTy (pTy x.p)) (l.getD 1 0)
      roundRes (laneRnd c x.p f i) (elemTy (pTy x.p)) [a, b] (Val.add (pRm x.p) a (if b.isNan then b else b.setNeg !b.isNeg))
    (f.setV x.d.toNat r.1, r.2.1, r.2.2)) ∧
  (∀ x : FmtR, Completes (.fmul x) (lrWord x.g x.p (withSeed x.p [x.a.toNat, x.b.toNat]) [x.d.toNat] (pTy x.p)) fun c f =>
    let r := byElem (pTy x.p) [readReg c.p f x.a.toNat, readReg c.p f x.b.toNat] fun i l =>
      let a := codeVal (elemTy (pTy x.p)) (l.getD 0 0)
      let b := codeVal (elemTy (pTy x.p)) (l.getD 1 0)
      roundRes (laneRnd c x.p f i) (elemTy (pTy x.p)) [a, b] (Val.mul a b)
    (f.setV x.d.toNat r.1, r.2.1, r.2.2)) ∧
  (∀ x : FmtR, Completes (.ffma x)
    (lrWord x.g x.p (withSeed x.p [x.a.toNat, x.b.toNat, pSrc x.p x.d.toNat]) [x.d.toNat] (pTy x.p)) fun c f =>
    let r := byElem (pTy x.p) [readReg c.p f x.a.toNat, readReg c.p f x.b.toNat, readReg c.p f (pSrc x.p x.d.toNat)] fun i l =>
      fmaRes (laneRnd c x.p f i) (elemTy (pTy x.p)) (codeVal (elemTy (pTy x.p)) (l.getD 0 0))
        (codeVal (elemTy (pTy x.p)) (l.getD 1 0)) (codeVal (elemTy (pTy x.p)) (l.getD 2 0))
    (f.setV x.d.toNat r.1, r.2.1, r.2.2)) ∧
  (∀ (c : RndCtx) ty k l m, ty ≤ 2 → k < 2 ^ tyWidth ty → l < 2 ^ tyWidth ty → m < 2 ^ tyWidth ty →
    let a := codeVal ty k
    let b := codeVal ty l
    let d := codeVal ty m
    let sum := roundRes c ty [a, b] (Val.add c.rm a b)
    let dif := roundRes c ty [a, b] (Val.add c.rm a (if b.isNan then b else b.setNeg !b.isNeg))
    let mul := roundRes c ty [a, b] (Val.mul a b)
    let fma := fmaRes c ty a b d
    let zeroTimesInf := (a.isInf = true ∧ b.isZero = true) ∨ (a.isZero = true ∧ b.isInf = true)
    (isFinite ty k → isFinite ty l →
      RoundsOnce c ty (numberOf ty k + numberOf ty l) (if numberOf ty k = 0 ∧ a.isNeg = b.isNeg then a.isNeg else decide (c.rm = 3)) sum ∧
      RoundsOnce c ty (numberOf ty k - numberOf ty l) (if numberOf ty k = 0 ∧ a.isNeg ≠ b.isNeg then a.isNeg else decide (c.rm = 3)) dif ∧
      RoundsOnce c ty (numberOf ty k * numberOf ty l) (a.isNeg != b.isNeg) mul ∧
      (isFinite ty m → RoundsOnce c ty (numberOf ty k * numberOf ty l + numberOf ty m)
        (if numberOf ty k * numberOf ty l = 0 ∧ (a.isNeg != b.isNeg) = d.isNeg then d.isNeg else decide (c.rm = 3)) fma)) ∧
    (a.isNan = false → b.isNan = false → a.isInf = true ∨ b.isInf = true →
      sum = (if a.isInf = true ∧ b.isInf = true ∧ a.isNeg ≠ b.isNeg then invalidRes c ty
        else roundVal c ty (.inf (if a.isInf = true then a.isNeg else b.isNeg))) ∧
      dif = (if a.isInf = true ∧ b.isInf = true ∧ a.isNeg = b.isNeg then invalidRes c ty
        else roundVal c ty (.inf (if a.isInf = true then a.isNeg else !b.isNeg))) ∧
      mul = (if zeroTimesInf then invalidRes c ty else roundVal c ty (.inf (a.isNeg != b.isNeg)))) ∧
    (zeroTimesInf → fma = invalidRes c ty) ∧
    (¬zeroTimesInf → a.isNan = false → b.isNan = false → d.isNan = false → a.isInf = true ∨ b.isInf = true ∨ d.isInf = true →
      fma = if (a.isInf = true ∨ b.isInf = true) ∧ d.isInf = true ∧ (a.isNeg != b.isNeg) ≠ d.isNeg then invalidRes c ty
        else roundVal c ty (.inf (if d.isInf = true then d.isNeg else a.isNeg != b.isNeg))) ∧
    (a.isNan = true ∨ b.isNan = true →
      let r := nanRes (quietCode ty (if a.isNan = true then k else l)) [a, b]
      sum = r ∧ dif = r ∧ mul = r) ∧
    (¬zeroTimesInf → a.isNan = true ∨ b.isNan = true ∨ d.isNan = true →
      fma = nanRes (quietCode ty (if a.isNan = true then k else if b.isNan = true then l else m)) [a, b, d]))

/-- A value of a format rounds to its own code in every mode, setting no flag (R110): the formats of R99 and R104, and the integer formats
up to INT2. -/
def Obligations.ValuesRoundToThemselves : Prop :=
  ∀ c : RndCtx, ∀ ty ∈ [0, 1, 2, 3, 4, 5, 6, 7, 8, 9, 10, 11, 12, 13, 14, 15, 16, 17], ∀ code < 2 ^ tyWidth ty,
    (codeVal ty code).isNan = false → ((codeVal ty code).isInf = true → c.narrow = false) →
    roundVal c ty (codeVal ty code) = ⟨code, 0, []⟩

/-- Rounding a number within a floating-point or L format's range takes one of its two neighbours: no value of the format lies strictly between the
number and the result. RU never goes below it, RD never above, RZ never away from zero, RNE and RNA take a nearest value, at a tie the one of even
code or of larger magnitude. NX is set if the result differs from the number, and UF beside it if the result is nonzero below the smallest normal,
never in an L format; no cause. A result of zero takes the number's sign, but for L formats, which have no -0 (R77, R109, R110). Beyond the largest
finite magnitude a format without infinities, or a narrowing, gives that magnitude with SA and NX; FP32, FP16, BF16 and E5M2 give IEEE's overflow
result by mode with OF and NX where the rounding leaves the range, else the largest with NX. An infinity stays, or saturates with SA (R77, R113).
Into an integer format the result is a neighbouring integer by the mode, NX if it differs, the bound with SA and NX beyond it; unsigned, a negative
number gives 0, with NX where it rounds to 0 and SA where it does not (R113, R114). -/
def Obligations.RoundingTakesANeighbour : Prop :=
  ∀ (c : RndCtx) (ty : Nat) (neg : Bool) (m : Nat) (e : Int), 0 < m →
    let x : ℚ := (if neg then -1 else 1) * m * 2 ^ e
    let r := roundVal c ty (.fin neg m e)
    let y := numberOf ty r.code
    let normal : ℚ := 2 ^ (if ty = 0 ∨ ty = 2 then -126 else if ty = 1 ∨ ty = 3 then -14 else if ty = 4 then -6 else if ty = 5 ∨ ty = 8 then -2
      else 0 : Int)
    (ty ≤ 10 → (∃ k, isFinite ty k ∧ |x| ≤ |numberOf ty k|) →
      ((∀ k, isFinite ty k → ¬(x < numberOf ty k ∧ numberOf ty k < y) ∧ ¬(y < numberOf ty k ∧ numberOf ty k < x)) ∧
      (c.rm = 2 → x ≤ y) ∧ (c.rm = 3 → y ≤ x) ∧ (c.rm = 1 → |y| ≤ |x|) ∧
      (c.rm = 0 ∨ c.rm = 4 → ∀ k, isFinite ty k → |y - x| ≤ |numberOf ty k - x|)) ∧
      (∀ k, isFinite ty k → numberOf ty k ≠ y → |numberOf ty k - x| = |y - x| →
        (c.rm = 0 → Even r.code) ∧ (c.rm = 4 → |numberOf ty k| ≤ |y|)) ∧
      isFinite ty r.code ∧ r.causes = [] ∧
      r.flg = (if y = x then 0 else flgNX ||| if ty ≤ 8 ∧ y ≠ 0 ∧ |y| < normal then flgUF else 0) ∧
      (y = 0 → (codeVal ty r.code).isNeg = (decide (ty ≤ 8) && neg))) ∧
    (∀ q ∈ [(0, 0x7F7FFFFF, 31), (1, 0x7BFF, 15), (2, 0x7F7F, 15), (3, 0x7B, 7), (4, 0x7E, 7), (5, 0x1F, 5), (6, 0x1F, 5), (7, 7, 3), (8, 0x7E, 7),
        (9, 0x7F, 7), (10, 0x1F, 5)], ty = q.1 →
      let sign := if neg then 2 ^ q.2.2 else 0
      let top := numberOf ty q.2.1
      (roundVal c ty (.inf neg) = if ty ≤ 3 ∧ c.narrow = false then ⟨sign + q.2.1 + 1, 0, []⟩ else ⟨sign + q.2.1, flgSA, []⟩) ∧
      (top < |x| → 4 ≤ ty ∨ c.narrow = true → r = ⟨sign + q.2.1, flgSA ||| flgNX, []⟩) ∧
      (top < |x| → ty ≤ 3 → c.narrow = false →
        let step := top - numberOf ty (q.2.1 - 1)
        let upward := (c.rm = 2 ∧ neg = false) ∨ (c.rm = 3 ∧ neg = true)
        (top + step ≤ |x| → r = ⟨sign + q.2.1 + (if upward ∨ c.rm = 0 ∨ 4 ≤ c.rm then 1 else 0), flgOF ||| flgNX, []⟩) ∧
        (|x| < top + step → c.rm ≤ 4 →
          r = if upward ∨ ((c.rm = 0 ∨ c.rm = 4) ∧ top + step / 2 ≤ |x|) then ⟨sign + q.2.1 + 1, flgOF ||| flgNX, []⟩
            else ⟨sign + q.2.1, flgNX, []⟩))) ∧
    (∀ q ∈ [(11, 16, true), (12, 16, false), (13, 8, true), (14, 8, false), (15, 4, true), (16, 4, false), (17, 2, true), (20, 32, false),
        (21, 32, true), (22, 64, false), (23, 64, true)], ty = q.1 →
      let lo : Int := if q.2.2 then -2 ^ (q.2.1 - 1) else 0
      let hi : Int := if q.2.2 then 2 ^ (q.2.1 - 1) - 1 else 2 ^ q.2.1 - 1
      r.causes = [] ∧
      ((lo : ℚ) ≤ x → x ≤ hi → ∃ n : Int, SelectsInt c.rm x n ∧ r.code = (n % 2 ^ q.2.1).toNat ∧ r.flg = if (n : ℚ) = x then 0 else flgNX) ∧
      ((hi : ℚ) < x ∨ (x < lo ∧ q.2.2 = true) → r.code = ((if neg then lo else hi) % 2 ^ q.2.1).toNat ∧ r.flg = flgSA ||| flgNX) ∧
      (neg = true → q.2.2 = false → r.code = 0 ∧
        ∃ n : Int, SelectsInt c.rm x n ∧ (n = 0 → r.flg = flgNX) ∧ (n ≠ 0 → r.flg &&& flgSA = flgSA)))

/-- FMIN and FMAX complete, each element on its own: of two operands that are no NaNs the result is one of them taken whole, the smaller or the
larger, -0 below +0, no flag set; a NaN beside a number is ignored; of two NaNs the first returns, quietened; a signalling one sets NV and writes a
record. FCMP completes with its condition on the operands as numbers and infinities, a NaN unordered, only a signalling one setting NV; TY of its
record is 0, the model's choice (log entry 36; R118, R142, R143). FCLASS completes with the one bit of its operand's class, bit 10 beside bit 9 for a quiet NaN with a marker, no flag set. FRND completes: a
number becomes an integer of its own format with its sign, less than one away and rounded as the mode says, no flag set; an infinity, a zero and a
quiet NaN stay, a signalling NaN is quietened, sets NV and writes a record (R144, R145). -/
def Obligations.MinMaxCompareClassRound : Prop :=
  ((∀ q ∈ [(Instr.fmin, false), (Instr.fmax, true)], ∀ x : FmtR,
    Completes (q.1 x) (lrWord x.g x.p [x.a.toNat, x.b.toNat] [x.d.toNat] (pTy x.p)) fun c f =>
      let r := byElem (pTy x.p) [readReg c.p f x.a.toNat, readReg c.p f x.b.toNat] fun _ l =>
        minMaxCode c.iss.pc.toNat f.fid (elemTy (pTy x.p)) q.2 (l.getD 0 0) (l.getD 1 0)
      (f.setV x.d.toNat r.1, r.2.1, r.2.2)) ∧
  (∀ pc fid ty m k l, ty ≤ 2 → k < 2 ^ tyWidth ty → l < 2 ^ tyWidth ty →
    let r := minMaxCode pc fid ty m k l
    let a := codeVal ty k
    let b := codeVal ty l
    (a.isNan = false → b.isNan = false → (r.code = k ∨ r.code = l) ∧ r.flg = 0 ∧ r.causes = [] ∧
      extendedOf ty r.code = (if m then max (extendedOf ty k) (extendedOf ty l) else min (extendedOf ty k) (extendedOf ty l)) ∧
      (a.isZero = true → b.isZero = true → a.isNeg ≠ b.isNeg → (codeVal ty r.code).isNeg = !m)) ∧
    (a.isNan = true → b.isNan = false → r.code = l) ∧ (a.isNan = false → b.isNan = true → r.code = k) ∧
    (a.isNan = true → b.isNan = true → r.code = (roundVal ⟨0, 0, fid, 0, pc, false⟩ ty a).code) ∧
    (r.flg, r.causes) = if a.isSnan ∨ b.isSnan then (flgNV, [1]) else (0, [])) ∧
  (∀ x : FmtC0, Completes (.fcmp x) (lrWord x.g none [x.a.toNat, x.b.toNat] []) fun c f =>
    let k := (readReg c.p f x.a.toNat).toNat
    let l := (readReg c.p f x.b.toNat).toNat
    let unordered := (codeVal 0 k).isNan ∨ (codeVal 0 l).isNan
    (f.setPred x.pd.toNat (match x.cond.toNat with
      | 0 => decide (¬unordered ∧ extendedOf 0 k = extendedOf 0 l)
      | 1 => decide (unordered ∨ extendedOf 0 k ≠ extendedOf 0 l)
      | 2 => decide (¬unordered ∧ extendedOf 0 k < extendedOf 0 l)
      | 3 => decide (¬unordered ∧ extendedOf 0 k ≤ extendedOf 0 l)
      | 4 => decide (¬unordered ∧ extendedOf 0 l < extendedOf 0 k)
      | 5 => decide (¬unordered ∧ extendedOf 0 l ≤ extendedOf 0 k)
      | 6 => decide unordered
      | _ => decide ¬unordered),
      if (codeVal 0 k).isSnan ∨ (codeVal 0 l).isSnan then (flgNV, [1]) else (0, [])))) ∧
  ((∀ x : FmtU, Completes (.fclass x) (lrWord x.g x.p [x.a.toNat] [x.d.toNat]) fun c f =>
    (f.setV x.d.toNat (BitVec.ofNat 32 (classWord (pTy x.p) ((readReg c.p f x.a.toNat).toNat % 2 ^ tyWidth (pTy x.p)))), 0, [])) ∧
  (∀ ty k, ty ≤ 2 → k < 2 ^ tyWidth ty →
    let least : ℚ := if ty = 1 then 2 ^ (-14 : Int) else 2 ^ (-126 : Int)
    let quiet := if ty = 0 then 22 else if ty = 1 then 9 else 6
    classWord ty k = match codeVal ty k with
      | .inf n => if n then 1 else 128
      | .zero n => if n then 8 else 16
      | .fin n _ _ => if least ≤ |numberOf ty k| then (if n then 2 else 64) else if n then 4 else 32
      | .nan _ _ => if k.testBit quiet = false then 256 else if k.testBit (quiet - 1) = false then 512 else 512 + 1024) ∧
  (∀ x : FmtU, Completes (.frnd x) (lrWord x.g x.p (withSeed x.p [x.a.toNat]) [x.d.toNat] (pTy x.p)) fun c f =>
    let r := frndCode (laneRnd c x.p f 0) (pTy x.p) ((readReg c.p f x.a.toNat).toNat % 2 ^ tyWidth (pTy x.p))
    (f.setV x.d.toNat (BitVec.ofNat 32 r.code), r.flg, r.causes)) ∧
  (∀ c ty k, ty ≤ 2 → k < 2 ^ tyWidth ty → c.narrow = false →
    let r := frndCode c ty k
    let x := numberOf ty k
    (isFinite ty k → r.flg = 0 ∧ r.causes = [] ∧ isFinite ty r.code ∧ (codeVal ty r.code).isNeg = (codeVal ty k).isNeg ∧
      ∃ n : Int, numberOf ty r.code = n ∧ |(n : ℚ) - x| < 1 ∧ (c.rm = 1 → |(n : ℚ)| ≤ |x|) ∧ (c.rm = 2 → x ≤ n) ∧ (c.rm = 3 → (n : ℚ) ≤ x) ∧
        (c.rm = 0 ∨ c.rm = 4 → 2 * |(n : ℚ) - x| ≤ 1) ∧ (2 * |(n : ℚ) - x| = 1 → (c.rm = 0 → Even n) ∧ (c.rm = 4 → |x| ≤ |(n : ℚ)|))) ∧
    ((codeVal ty k).isZero = true ∨ (codeVal ty k).isInf = true → r = ⟨k, 0, []⟩) ∧
    ((codeVal ty k).isNan = true → r = if (codeVal ty k).isSnan then ⟨k + 2 ^ (if ty = 0 then 22 else if ty = 1 then 9 else 6), flgNV, [1]⟩ else ⟨k, 0, []⟩)))

/-- FCVT, FPACK and FUNPK complete: the value of the source code rounded into the destination's format, narrower results in the low bits of
D with zeros above, 64-bit ones in a register pair; packed elements 2q and 2q + 1 replaced and the others kept, bits [31:30] zero in a 6-bit
format; unpacking a number is exact (R61, R103, R113, R146 to R148). -/
def Obligations.Conversion : Prop :=
  (∀ x : FmtFE, Completes (.fcvt x)
    (lrWord x.g x.p (withSeed x.p (if x.e = 22 ∨ x.e = 23 then [x.a.toNat, x.a.toNat + 1] else [x.a.toNat]))
      (codesFrom x.d.toNat (if pTy x.p = 22 ∨ pTy x.p = 23 then 2 else 1)) (pTy x.p)) fun c f =>
    let code := if x.e = 22 ∨ x.e = 23 then readReg64 c.p f x.a.toNat else (readReg c.p f x.a.toNat).toNat % 2 ^ tyWidth x.e.toNat
    let r := roundVal (laneRnd c x.p f 0) (pTy x.p) (codeVal x.e.toNat code)
    (f.setVs x.d.toNat (if pTy x.p = 22 ∨ pTy x.p = 23 then [BitVec.ofNat 32 r.code, BitVec.ofNat 32 (r.code / 2 ^ 32)]
      else [BitVec.ofNat 32 r.code]), r.flg, r.causes)) ∧
  (∀ x : FmtR, Completes (.fpack x) (lrWord x.g x.p (withSeed x.p [x.a.toNat, x.b.toNat]) [x.d.toNat] (pTy x.p)) fun c f =>
    let w := tyWidth (pTy x.p)
    let q := pImmx x.p % 16
    let ra := roundVal (laneRnd c x.p f (2 * q)) (pTy x.p) (codeVal 0 (readReg c.p f x.a.toNat).toNat)
    let rb := roundVal (laneRnd c x.p f (2 * q + 1)) (pTy x.p) (codeVal 0 (readReg c.p f x.b.toNat).toNat)
    let v := setElem (setElem (f.vreg x.d.toNat).toNat w (2 * q) ra.code) w (2 * q + 1) rb.code
    (f.setV x.d.toNat (BitVec.ofNat 32 (if w = 6 then v % 2 ^ 30 else v)), ra.flg ||| rb.flg, dedup (ra.causes ++ rb.causes))) ∧
  (∀ x : FmtFE, Completes (.funpk x) (lrWord x.g x.p [x.a.toNat] [x.d.toNat]) fun c f =>
    let code := (readReg c.p f x.a.toNat).toNat / 2 ^ (tyWidth (pTy x.p) * x.e.toNat) % 2 ^ tyWidth (pTy x.p)
    let r := roundVal { laneRnd c none f 0 with narrow := false } 0 (codeVal (pTy x.p) code)
    (f.setV x.d.toNat (BitVec.ofNat 32 r.code), r.flg, r.causes)) ∧
  (∀ v w i code j, code < 2 ^ w → field (setElem v w i code) (w * j) w = if j = i then code else field v (w * j) w) ∧
  (∀ c : RndCtx, ∀ ty ∈ [1, 2, 3, 4, 5, 6, 7, 8, 9, 10, 11, 12, 13, 14, 15, 16, 17, 18, 19, 26], ∀ k, isFinite ty k →
    numberOf 0 (roundVal c 0 (codeVal ty k)).code = numberOf ty k ∧ (roundVal c 0 (codeVal ty k)).flg = 0)

/-- The dot products complete: DOT4 adds four exact signed byte products to C, FDOT2 rounds the exact rational sum of two FP16 products and C once,
QDOT adds to each of a lane pair's accumulators the pair's exact block sum of sixteen products times its scale byte, rounded once; a lane without a
participant gives no products and a zero scale. FDOT2 takes zero times infinity first, then the first NaN of A.0, A.1, B.0, B.1, C, then opposite
infinities (R150). QDOT takes a NaN accumulator first, then an infinite scale of a zero sum (invalid), a NaN scale (stamped, no flag), opposite
infinities (R107, R151). That an exact zero block sum is +0, and that a zero contribution has the sign of its scale, is the model's choice (log
entry 36). -/
def Obligations.DotProducts : Prop :=
  (∀ x, Ternary (.dot4 x) x fun a b c => exactInt (pSat x.p)
    ((a.extractLsb' 0 8).toInt * (b.extractLsb' 0 8).toInt + (a.extractLsb' 8 8).toInt * (b.extractLsb' 8 8).toInt +
      (a.extractLsb' 16 8).toInt * (b.extractLsb' 16 8).toInt + (a.extractLsb' 24 8).toInt * (b.extractLsb' 24 8).toInt + c.toInt)) ∧
  (∀ g d a b v, decodeWords (0#1 ++ (0x37#7 ++ (g ++ (d ++ (a ++ b))))) v = .ok (.dot4 ⟨g, d, a, b, none⟩, 4)) ∧
  (∀ x q window, x.p = some q → (q.ty ≠ 0 ∨ q.rm ≠ 0 ∨ q.immx ≠ 0) → checkWord window (.dot4 x) = false) ∧
  (∀ x : FmtR, Completes (.fdot2 x) (lrWord x.g x.p (withSeed x.p [x.a.toNat, x.b.toNat, pSrc x.p x.d.toNat]) [x.d.toNat]) fun c f =>
    let r := fdot2Res (laneRnd c x.p f 0) (readReg c.p f x.a.toNat) (readReg c.p f x.b.toNat) (readReg c.p f (pSrc x.p x.d.toNat))
    (f.setV x.d.toNat (BitVec.ofNat 32 r.code), r.flg, r.causes)) ∧
  (∀ q ∈ [(Instr.qdotE2m1, 7), (Instr.qdotInt4, 15), (Instr.qdotUint4, 16)], ∀ x : FmtRP,
    Completes (q.1 x)
        { lrWord x.g (some x.p) (withSeed (some x.p) [x.a.toNat, x.b.toNat, x.p.c.toNat]) [x.d.toNat] with cost := 2 } fun c f =>
      let sel := x.p.immx.toNat % 16
      let i := c.lane / 2
      let lane := if x.p.immx.getLsbD 4 then 4 * (i / 2) + sel / 4 else 4 * (i / 2) + 2 * (i % 2) + sel / 4 % 2
      let products (l : Nat) : Dy :=
        ((assoc c.parts l).map fun g => qdotSum q.2 (readReg c.p g x.a.toNat) (readReg c.p g x.b.toNat)).getD ⟨0, 0⟩
      let scale := ((assoc c.parts lane).map fun g => (readReg c.p g x.p.c.toNat).toNat / 2 ^ (8 * (sel % 4)) % 256).getD 0
      let block := blockContrib (codeVal x.p.ty.toNat scale) (((products (2 * i)).add (products (2 * i + 1))).val false)
      let r := qdotAdd (laneRnd c (some x.p) f 0) (f.vreg x.d.toNat) block
      (f.setV x.d.toNat (BitVec.ofNat 32 r.code), r.flg, r.causes)) ∧
  (∀ (c : RndCtx) (a b d : Word),
    let a0 := a.toNat % 2 ^ 16
    let a1 := a.toNat / 2 ^ 16
    let b0 := b.toNat % 2 ^ 16
    let b1 := b.toNat / 2 ^ 16
    let r := fdot2Res c a b d
    let v := codeVal 1
    let w := codeVal 0 d.toNat
    let zeroTimesInf (k l : Nat) := ((v k).isInf = true ∧ (v l).isZero = true) ∨ ((v k).isZero = true ∧ (v l).isInf = true)
    let invalid := zeroTimesInf a0 b0 ∨ zeroTimesInf a1 b1
    let widened (k : Nat) := k / 2 ^ 15 * 2 ^ 31 + 0x7F800000 + k % 2 ^ 10 * 2 ^ 13
    let anyNan := (v a0).isNan = true ∨ (v a1).isNan = true ∨ (v b0).isNan = true ∨ (v b1).isNan = true ∨ w.isNan = true
    let infs := [((v a0).isInf || (v b0).isInf, (v a0).isNeg != (v b0).isNeg), ((v a1).isInf || (v b1).isInf, (v a1).isNeg != (v b1).isNeg),
      (w.isInf, w.isNeg)]
    (invalid → r = invalidRes c 0) ∧
    (¬invalid → anyNan → r = nanRes (quietCode 0 (if (v a0).isNan then widened a0 else if (v a1).isNan then widened a1
      else if (v b0).isNan then widened b0 else if (v b1).isNan then widened b1 else d.toNat)) [v a0, v a1, v b0, v b1, w]) ∧
    (¬invalid → ¬anyNan → (true, true) ∈ infs → (true, false) ∈ infs → r = invalidRes c 0) ∧
    (¬invalid → ¬anyNan → ∀ n, (true, n) ∈ infs → (true, !n) ∉ infs → r = roundVal c 0 (.inf n)) ∧
    (¬invalid → ¬anyNan → (∀ n, (true, n) ∉ infs) →
      let p0 := numberOf 1 a0 * numberOf 1 b0
      let p1 := numberOf 1 a1 * numberOf 1 b1
      let n0 := (v a0).isNeg != (v b0).isNeg
      let n1 := (v a1).isNeg != (v b1).isNeg
      RoundsOnce c 0 (p0 + p1 + numberOf 0 d.toNat)
        (if p0 = 0 ∧ p1 = 0 ∧ numberOf 0 d.toNat = 0 ∧ n0 = n1 ∧ n1 = w.isNeg then w.isNeg else decide (c.rm = 3)) r)) ∧
  (∀ ty ∈ [7, 15, 16], ∀ a b : Word, (qdotSum ty a b).number =
    ((List.range 8).map fun e => numberOf ty (a.toNat / 2 ^ (4 * e) % 16) * numberOf ty (b.toNat / 2 ^ (4 * e) % 16)).sum) ∧
  (∀ d d' : Dy, (d.add d').number = d.number + d'.number) ∧
  (∀ (c : RndCtx) (d : Word) sty sc (S : Dy), sty = 3 ∨ sty = 4 ∨ sty = 26 → sc < 256 →
    let r := qdotAdd c d (blockContrib (codeVal sty sc) (S.val false))
    let scale := codeVal sty sc
    let w := codeVal 0 d.toNat
    let stamped : Nat := (if scale.isNeg then 2 ^ 31 else 0) + 0x7FE00000 + mix64 (c.pc * 1024 + c.fid) / 2 ^ 43
    let product := numberOf sty sc * S.number
    let neg := scale.isNeg != decide (S.number < 0)
    (w.isNan = true → r.code = quietCode 0 d.toNat ∧
      (r.flg, r.causes) = if w.isSnan = true ∨ (scale.isInf = true ∧ S.number = 0) then (flgNV, [1]) else (0, [])) ∧
    (w.isNan = false → scale.isNan = true → r = ⟨stamped, 0, []⟩) ∧
    (w.isNan = false → scale.isInf = true → S.number = 0 → r = invalidRes c 0) ∧
    (w.isNan = false → scale.isInf = true → S.number ≠ 0 →
      r = if w.isInf = true ∧ w.isNeg ≠ neg then invalidRes c 0 else roundVal c 0 (.inf neg)) ∧
    (w.isInf = true → isFinite sty sc → r = roundVal c 0 w) ∧
    (isFinite 0 d.toNat → isFinite sty sc → RoundsOnce c 0 (numberOf 0 d.toNat + product)
      (if numberOf 0 d.toNat = 0 ∧ w.isNeg = scale.isNeg then w.isNeg else decide (c.rm = 3)) r))

/-- The SFU words complete with one result word. At the special inputs of R154, the infinities among them, the results, flags and causes are those of
its table; a NaN returns quietened; EXP2 and LOG2 are exact at the powers of two; RCP, RSQ and SQRT take a value nearest to the exact one; every other result of a
finite nonzero input sets NX, and UF beside it below 2^-126. Which value within the bound of R153 the inexact functions take is a free choice
(log entry 6), of which nothing is stated (R118, R152 to R154). -/
def Obligations.SpecialFunctions : Prop :=
  (∀ q ∈ [(Instr.exp2, 0), (Instr.log2, 1), (Instr.rcp, 2), (Instr.rsq, 3), (Instr.sqrt, 4), (Instr.sin, 5), (Instr.cos, 6),
      (Instr.tanh, 7), (Instr.sigm, 8)], ∀ x : FmtU0,
    Completes (q.1 x) { lrWord x.g none [x.a.toNat] [x.d.toNat] with eighths := true } fun c f =>
      let r := sfuRes (laneRnd c none f 0) q.2 (readReg c.p f x.a.toNat).toNat
      (f.setV x.d.toNat (BitVec.ofNat 32 r.code), r.flg, r.causes)) ∧
  (∀ c, sfuRes c 0 0xFF800000 = ⟨0, 0, []⟩ ∧ sfuRes c 0 0x7F800000 = ⟨0x7F800000, 0, []⟩ ∧
    sfuRes c 1 0 = ⟨0xFF800000, flgDZ, [2]⟩ ∧ sfuRes c 1 0x80000000 = ⟨0xFF800000, flgDZ, [2]⟩ ∧ sfuRes c 1 0x7F800000 = ⟨0x7F800000, 0, []⟩ ∧
    sfuRes c 2 0 = ⟨0x7F800000, flgDZ, [2]⟩ ∧ sfuRes c 2 0x80000000 = ⟨0xFF800000, flgDZ, [2]⟩ ∧
    sfuRes c 2 0x7F800000 = ⟨0, 0, []⟩ ∧ sfuRes c 2 0xFF800000 = ⟨0x80000000, 0, []⟩ ∧
    sfuRes c 3 0 = ⟨0x7F800000, flgDZ, [2]⟩ ∧ sfuRes c 3 0x80000000 = ⟨0xFF800000, flgDZ, [2]⟩ ∧ sfuRes c 3 0x7F800000 = ⟨0, 0, []⟩ ∧
    sfuRes c 4 0 = ⟨0, 0, []⟩ ∧ sfuRes c 4 0x80000000 = ⟨0x80000000, 0, []⟩ ∧ sfuRes c 4 0x7F800000 = ⟨0x7F800000, 0, []⟩ ∧
    sfuRes c 5 0 = ⟨0, 0, []⟩ ∧ sfuRes c 5 0x80000000 = ⟨0x80000000, 0, []⟩ ∧
    sfuRes c 6 0 = ⟨0x3F800000, 0, []⟩ ∧ sfuRes c 6 0x80000000 = ⟨0x3F800000, 0, []⟩ ∧
    sfuRes c 7 0 = ⟨0, 0, []⟩ ∧ sfuRes c 7 0x80000000 = ⟨0x80000000, 0, []⟩ ∧
    sfuRes c 7 0x7F800000 = ⟨0x3F800000, 0, []⟩ ∧ sfuRes c 7 0xFF800000 = ⟨0xBF800000, 0, []⟩ ∧
    sfuRes c 8 0 = ⟨0x3F000000, 0, []⟩ ∧ sfuRes c 8 0x80000000 = ⟨0x3F000000, 0, []⟩ ∧
    sfuRes c 8 0xFF800000 = ⟨0, 0, []⟩ ∧ sfuRes c 8 0x7F800000 = ⟨0x3F800000, 0, []⟩ ∧
    sfuRes c 0 0 = ⟨0x3F800000, 0, []⟩ ∧ sfuRes c 0 0x80000000 = ⟨0x3F800000, 0, []⟩) ∧
  (∀ c, ∀ q ∈ [(1, 0xFF800000), (3, 0xFF800000), (4, 0xFF800000), (5, 0x7F800000), (5, 0xFF800000), (6, 0x7F800000), (6, 0xFF800000)],
    sfuRes c q.1 q.2 = ⟨0x7FE00000 + mix64 (c.pc * 1024 + c.fid) / 2 ^ 43, flgNV, [1]⟩) ∧
  (∀ c fn k, fn ≤ 8 → k < 2 ^ 32 → (codeVal 0 k).isNan = true → c.narrow = false →
    sfuRes c fn k = if (codeVal 0 k).isSnan then ⟨k + 2 ^ 22, flgNV, [1]⟩ else ⟨k, 0, []⟩) ∧
  (∀ c k, k < 2 ^ 32 → isFinite 0 k → numberOf 0 k ≠ 0 →
    let x := numberOf 0 k
    let invalid : NumRes := ⟨0x7FE00000 + mix64 (c.pc * 1024 + c.fid) / 2 ^ 43, flgNV, [1]⟩
    let inexact (r : NumRes) : Prop :=
      r.causes = [] ∧ r.flg = flgNX ||| if r.code % 2 ^ 31 ≠ 0 ∧ r.code % 2 ^ 31 < 0x800000 then flgUF else 0
    (128 ≤ x → sfuRes c 0 k = ⟨0x7F800000, flgOF ||| flgNX, []⟩) ∧
    (x ≤ -150 → sfuRes c 0 k = ⟨0, flgUF ||| flgNX, []⟩) ∧
    (∀ n : Int, x = n → -149 ≤ n → n ≤ 127 → numberOf 0 (sfuRes c 0 k).code = 2 ^ n ∧ (sfuRes c 0 k).flg = 0) ∧
    (-150 < x → x < 128 → (∀ n : Int, x ≠ n) → inexact (sfuRes c 0 k)) ∧
    (∀ n : Int, x = 2 ^ n → numberOf 0 (sfuRes c 1 k).code = n ∧ (sfuRes c 1 k).flg = 0) ∧
    (0 < x → (∀ n : Int, x ≠ 2 ^ n) → inexact (sfuRes c 1 k)) ∧
    (x < 0 → sfuRes c 1 k = invalid ∧ sfuRes c 3 k = invalid ∧ sfuRes c 4 k = invalid) ∧
    (2 ^ 128 - 2 ^ 103 ≤ 1 / |x| → sfuRes c 2 k = ⟨if 0 < x then 0x7F800000 else 0xFF800000, flgOF ||| flgNX, []⟩) ∧
    (1 / |x| < 2 ^ 128 - 2 ^ 103 → let y := numberOf 0 (sfuRes c 2 k).code
      isFinite 0 (sfuRes c 2 k).code ∧ (∀ j, isFinite 0 j → |y - 1 / x| ≤ |numberOf 0 j - 1 / x|) ∧
      if x * y = 1 then (sfuRes c 2 k).flg = 0 ∧ (sfuRes c 2 k).causes = [] else inexact (sfuRes c 2 k)) ∧
    (0 < x → let y := numberOf 0 (sfuRes c 3 k).code
      isFinite 0 (sfuRes c 3 k).code ∧ (∀ j, isFinite 0 j → |(y : ℝ) - 1 / √(x : ℝ)| ≤ |(numberOf 0 j : ℝ) - 1 / √(x : ℝ)|) ∧
      if x * y ^ 2 = 1 then (sfuRes c 3 k).flg = 0 ∧ (sfuRes c 3 k).causes = [] else inexact (sfuRes c 3 k)) ∧
    (0 < x → let y := numberOf 0 (sfuRes c 4 k).code
      isFinite 0 (sfuRes c 4 k).code ∧ (∀ j, isFinite 0 j → |(y : ℝ) - √(x : ℝ)| ≤ |(numberOf 0 j : ℝ) - √(x : ℝ)|) ∧
      if y ^ 2 = x then (sfuRes c 4 k).flg = 0 ∧ (sfuRes c 4 k).causes = [] else inexact (sfuRes c 4 k)) ∧
    inexact (sfuRes c 5 k) ∧ inexact (sfuRes c 6 k) ∧ inexact (sfuRes c 7 k) ∧ inexact (sfuRes c 8 k) ∧
    (2 ^ 20 < |x| → |numberOf 0 (sfuRes c 5 k).code| ≤ 1 ∧ |numberOf 0 (sfuRes c 6 k).code| ≤ 1))

/-! ### Cross-lane words (R155 to R159) -/

/-- The shuffles and votes complete: the participants are the active members whose guard is true; SHFL reads A of the participant in the lane that B selects, its own A where there is none; VOTE counts one predicate over the participants (R155 to R157). LRED completes with the reduction of the participants' A, the same for each; MATCH with the set of lanes whose A equals the member's (R158, R159). -/
def Obligations.CrossLaneWords : Prop :=
  ((∀ q ∈ [(Instr.shflIdx, fun _ b => some (b % 32)), (Instr.shflUp, fun l b => if b ≤ l then some (l - b) else none),
      (Instr.shflDn, fun l b => if l + b < 32 then some (l + b) else none),
      (Instr.shflXor, fun (l : Nat) (b : Nat) => some (l ^^^ (b % 32)))], ∀ x : FmtR0,
    Gathers (q.1 x) x.g [x.a.toNat, x.b.toNat] x.d fun c f =>
      (((q.2 c.lane (readReg c.p f x.b.toNat).toNat).bind (assoc c.parts)).map fun g => readReg c.p g x.a.toNat).getD
        (readReg c.p f x.a.toNat)) ∧
  (∀ q ∈ [(0x41#7, Instr.shflIdx), (0x42#7, Instr.shflUp), (0x43#7, Instr.shflDn), (0x44#7, Instr.shflXor)],
    (∀ g d a b v, decodeWords (0#1 ++ (q.1 ++ (g ++ (d ++ (a ++ b))))) v = .ok (q.2 ⟨g, d, a, b⟩, 4)) ∧
    ∀ (p r : BitVec 24), decodeWords (0#1 ++ (0x7E#7 ++ p)) (0#1 ++ (q.1 ++ r)) = .error .prefixRefused) ∧
  (∀ x : FmtV0, Gathers (.voteAny x) x.g [] x.d fun c _ => if ∃ q ∈ c.parts, q.2.pred x.pa.toNat = true then 1 else 0) ∧
  (∀ x : FmtV0, Gathers (.voteAll x) x.g [] x.d fun c _ => if ∀ q ∈ c.parts, q.2.pred x.pa.toNat = true then 1 else 0) ∧
  (∀ x : FmtV0, Gathers (.voteBal x) x.g [] x.d fun c _ =>
    BitVec.ofNat 32 ((c.parts.filter fun q => q.2.pred x.pa.toNat).map fun q => 2 ^ q.1).sum)) ∧
  ((∀ q ∈ [(Instr.lredAdd, fun a b : Word => a + b), (Instr.lredMin, fun a b => if a.toInt ≤ b.toInt then a else b),
      (Instr.lredMax, fun a b => if a.toInt ≤ b.toInt then b else a), (Instr.lredAnd, fun a b => a &&& b), (Instr.lredOr, fun a b => a ||| b),
      (Instr.lredXor, fun a b => a ^^^ b), (Instr.lredMinU, fun a b => if a.toNat ≤ b.toNat then a else b),
      (Instr.lredMaxU, fun a b => if a.toNat ≤ b.toNat then b else a)], ∀ x : FmtU0,
    Completes (q.1 x) { lrWord x.g none [x.a.toNat] [x.d.toNat] with cost := 2 } fun c f =>
      (f.setV x.d.toNat (match c.parts.map fun m => readReg c.p m.2 x.a.toNat with
        | [] => 0
        | v :: rest => rest.foldl q.2 v), 0, [])) ∧
  (∀ x : FmtU0, Gathers (.matchLanes x) x.g [x.a.toNat] x.d fun c f =>
    BitVec.ofNat 32 ((c.parts.filter fun m => decide (readReg c.p m.2 x.a.toNat = readReg c.p f x.a.toNat)).map fun m => 2 ^ m.1).sum))

/-! ### Capabilities (R79, R385, R386, R404, R405) -/

/-- Cap.check passes exactly a tagged capability that has every right of the need, a kind that the instruction accepts, the bytes inside its
length and their address aligned; else the first that fails of CAPT, CAPR, CAPB and ALIGN (R79). -/
def Obligations.CapabilityCheck : Prop :=
  ∀ (c : Cap) (off size need align : Nat) (kinds : List Nat),
    let may := (∀ i, need.testBit i = true → c.rights.testBit i = true) ∧ c.kind ∈ kinds
    (c.tag = true ∧ may ∧ off + size ≤ c.len ∧ (c.base + off) % align = 0 → c.check off size need align kinds = .ok (c.obj, c.base + off)) ∧
    (c.tag = false → c.check off size need align kinds = .error .capt) ∧
    (c.tag = true ∧ ¬may → c.check off size need align kinds = .error .capr) ∧
    (c.tag = true ∧ may ∧ c.len < off + size → c.check off size need align kinds = .error .capb) ∧
    (c.tag = true ∧ may ∧ off + size ≤ c.len ∧ (c.base + off) % align ≠ 0 → c.check off size need align kinds = .error .align)

/-- Sealing is irrevocable: whatever write or write-back reaches the home of an entry of object 0 whose VALID and SEALED are 1, an entry
that is still VALID keeps SEALED at 1 and the W, A and J bits of RCEIL at 0 (R398). -/
def Obligations.SealingIsIrrevocable : Prop :=
  ∀ (s : State) (c : Ctx) (n : Nat), s.MemOk → s.ctx? c.num = some c → 0 < n → n < c.otne.toNat →
    let entry (t : State) : BitVec 512 := BitVec.ofNat 512 (t.read0 c (64 * n) 64)
    let kept (t : State) : Prop :=
      (entry t).getLsbD 63 = true → (entry t).getLsbD 62 = true ∧ ∀ i ∈ [1, 3, 4], (entry t).getLsbD (48 + i) = false
    (entry s).getLsbD 63 = true → (entry s).getLsbD 62 = true →
    (∀ off a (bs : List Byte), off % 128 + bs.length ≤ 128 → off / 64 ≤ n → 64 * n < off + bs.length → kept (s.homeStore c.num 0 off a bs)) ∧
    ∀ line a g cells tag poison, g < 8 → 2 * line + g / 4 = n → cells.any (fun q => q.1 / 16 == g) = true →
      kept (s.writeGranule c.num 0 line a g cells tag poison)

/-- The lane capability words complete: CNARROW derives a part, its tag gone where the part leaves the source's length; CRIGHT derives fewer
rights; CMOV copies; CBASE, CLEN and CVALID read fields (R404, R405). -/
def Obligations.CapabilityWords : Prop :=
  (∀ x : FmtCN, Completes (.cnarrow x) { guard := x.g.toNat, size := Machine.sizeOf x.p, codes := [x.b.toNat, x.b.toNat + 1, 128 + x.src.toNat], dst := [128 + x.ad.toNat] } fun c f =>
    let a := f.areg x.src.toNat
    let off := readReg c.p f x.b.toNat
    let len := readReg c.p f (x.b.toNat + 1)
    (f.setA x.ad.toNat ⟨a.bits.extractLsb' 104 24 ++ ((a.bits.extractLsb' 64 40 + off.setWidth 40) ++ (len.setWidth 40 ++ a.bits.extractLsb' 0 24)),
      a.tag && decide (off.toNat + len.toNat ≤ a.len)⟩, 0, [])) ∧
  (∀ x : FmtCN, Completes (.cright x) { guard := x.g.toNat, size := Machine.sizeOf x.p, codes := [128 + x.src.toNat], dst := [128 + x.ad.toNat] } fun _ f =>
    let a := f.areg x.src.toNat
    (f.setA x.ad.toNat ⟨a.bits.extractLsb' 18 110 ++ ((a.bits.extractLsb' 8 10 &&& ~~~BitVec.ofInt 10 (simm x.p 7 x.b.toNat)) ++
      a.bits.extractLsb' 0 8), a.tag⟩, 0, [])) ∧
  (∀ x : FmtCM, Completes (.cmov x) { guard := x.g.toNat, size := Machine.sizeOf x.p, codes := [128 + x.src.toNat], dst := [128 + x.ad.toNat] } fun _ f =>
    (f.setA x.ad.toNat (f.areg x.src.toNat), 0, [])) ∧
  (∀ x : FmtCQ, Completes (.cbase x) { guard := x.g.toNat, size := Machine.sizeOf x.p, codes := [128 + x.src.toNat], dst := codesFrom x.d.toNat 2 } fun _ f =>
    let n := (f.areg x.src.toNat).bits.extractLsb' 64 40
    (f.setVs x.d.toNat [n.setWidth 32, (n.extractLsb' 32 8).setWidth 32], 0, [])) ∧
  (∀ x : FmtCQ, Completes (.clen x) { guard := x.g.toNat, size := Machine.sizeOf x.p, codes := [128 + x.src.toNat], dst := codesFrom x.d.toNat 2 } fun _ f =>
    let n := (f.areg x.src.toNat).bits.extractLsb' 24 40
    (f.setVs x.d.toNat [n.setWidth 32, (n.extractLsb' 32 8).setWidth 32], 0, [])) ∧
  (∀ x : FmtCQ, Completes (.cvalid x) { guard := x.g.toNat, size := Machine.sizeOf x.p, codes := [128 + x.src.toNat], dst := [x.d.toNat] } fun _ f =>
    let a := f.areg x.src.toNat
    (f.setV x.d.toNat ((0 : BitVec 12) ++ (a.bits.extractLsb' 4 4 ++ ((0 : BitVec 2) ++ (a.bits.extractLsb' 8 10 ++ ((0 : BitVec 3) ++
      BitVec.ofBool a.tag))))), 0, []))

/-- No derived capability gains authority: whatever bytes and rights a tagged result of CNARROW or CRIGHT grants, its source grants; object
and kind are the source's (R404). -/
def Obligations.DerivedCapabilitiesGainNothing : Prop :=
  ∀ (c : Cap) (off len mask size need align o y : Nat) (kinds : List Nat) (z : Nat), 0 < size → len < 2 ^ 32 → c.base + c.len ≤ 2 ^ 40 →
    ((c.narrow off len).check z size need align kinds = .ok (o, y) → c.check (off + z) size need align kinds = .ok (o, y)) ∧
    ((c.maskRights mask).check z size need align kinds = .ok (o, y) → c.check z size need align kinds = .ok (o, y))

/-! ### Memory words (R251 to R278) -/

/-- LD and LDK complete: the access at A + size × imm of the selected capability, checked, waits for the member's own earlier accesses of its
bytes, then takes one load and has its answer on the way; LDK goes through constant lines. ST completes likewise: the register's bytes stored, low
byte first, one store outstanding (R251, R255 to R258, R260). -/
def Obligations.GlobalLoadsAndStores : Prop :=
  ((∀ q ∈ [(Instr.ld8, 1, false), (Instr.ld16, 2, false), (Instr.ld32, 4, false), (Instr.ld64, 8, false), (Instr.ld128, 16, false),
      (Instr.ld8S, 1, true), (Instr.ld16S, 2, true)], ∀ x : FmtM,
    Accesses (q.1 x) (lmWord x.g x.p x.sel [x.a.toNat] (codesFrom x.d.toNat (max 1 (q.2.1 / 4)))) .loads q.2.1
      (fun c f => memCheck c f x.sel ((readReg c.p f x.a.toNat).toNat + q.2.1 * uimm x.p 3 x.imm.toNat) q.2.1 rightR q.2.1 allKinds 1)
      fun c s f o y => (loadGlobal c s f (selCap c.p f x.sel.toNat) o y q.2.1 q.2.2 x.d.toNat 0).turn c f) ∧
  (∀ x : FmtM0, Accesses (.ldk x) (lmWord x.g none x.sel [x.a.toNat] (codesFrom x.d.toNat (sizeCode x.imm / 4))) .loads (sizeCode x.imm)
    (fun c f => memCheck c f x.sel (readReg c.p f x.a.toNat).toNat (sizeCode x.imm) rightR (sizeCode x.imm) [0, 1] 1)
    fun c s f o y => (loadGlobal c s f (selCap c.p f x.sel.toNat) o y (sizeCode x.imm) false x.d.toNat 1).turn c f)) ∧
  (∀ q ∈ [(Instr.st8, 1), (Instr.st16, 2), (Instr.st32, 4), (Instr.st64, 8), (Instr.st128, 16)], ∀ x : FmtM,
    Accesses (q.1 x) (lmWord x.g x.p x.sel (x.a.toNat :: codesFrom x.d.toNat (max 1 (q.2 / 4)))) .stores q.2
      (fun c f => memCheck c f x.sel ((readReg c.p f x.a.toNat).toNat + q.2 * uimm x.p 3 x.imm.toNat) q.2 rightW q.2 allKinds 2)
      fun c s f o y => (storeGlobal c s f (selCap c.p f x.sel.toNat) o y
        (((List.range (max 1 (q.2 / 4))).flatMap fun i => leBytes 4 (readReg c.p f (x.d.toNat + i)).toNat).take q.2)).turn c f)

/-- A plain load that its core's L1 holds whole, whose bytes no earlier access of the fibre has outstanding, takes a load, answers with those bytes
and changes nothing else; one of a line that no L1 holds, of a page that no L1 may hold, goes to its home (R202, R221, R256). After a plain store
in the L1 the plot's core finds the bytes stored, and where no replant region is open every other byte as it was (R202, R203, R427). -/
def Obligations.PlainAccessesInTheL1 : Prop :=
  (∀ (c : IssueCtx) (s : State) (f : Fibre) (cap : Cap) obj off n sx dst (bs : List Byte), bs.length = n →
    s.bytesBusy c.p.pid f.fid obj off n = false →
    let out (t : State) : Eff := ⟨t, .seq { f with loads := f.loads + 1 }, 0, []⟩
    (s.l1Bytes (c.who f) obj off n 0 = bs.map (fun b => some (b, false)) →
      loadGlobal c s f cap obj off n sx dst 0 = out (s.giveLoad c.p.pid (.regs f.fid dst (loadWords n sx (leNat bs))))) ∧
    (∀ h, (s.core c.p.core).lines = [] → 0 < n → s.port (dieOf c.p.core) c.p.ctx c.p.system cap.kind obj rightR off = .ok h → h.cacheable = false →
      loadGlobal c s f cap obj off n sx dst 0 = out (s.send (c.request f cap obj off (.load n sx dst))))) ∧
  (∀ (s : State) (w : Who) p kind need obj off (bs : List Byte) tag, s.plot? w.pid = some p → p.core = w.core → off % 128 + bs.length ≤ 128 →
    (p.uncommitted = false → (s.core w.core).tentative w.pid = []) →
    ((s.l1Store w kind need obj off bs tag).l1Bytes w obj off bs.length 0).map (·.map (·.1)) = bs.map some ∧
    (p.uncommitted = false → ∀ obj' off', (obj' ≠ obj ∨ off' < off ∨ off + bs.length ≤ off') →
      ((s.l1Store w kind need obj off bs tag).l1Bytes w obj' off' 1 0).map (·.map (·.1)) = (s.l1Bytes w obj' off' 1 0).map (·.map (·.1))))

/-- LDS and STS complete: the plot's allocation from its base (a handler's halt frame), bounds before alignment; the loaded number, low byte
first, on its way to the register, or POISON where the granule is poisoned; the stored bytes in memory (R198, R201, R261, R418, R459). -/
def Obligations.ScratchpadAccesses : Prop :=
  let base (p : Plot) : Nat := if p.handler = none then scratchAddr p.core + p.sbase else frameAddr p.core
  let size (p : Plot) : Nat := if p.handler = none then p.ssize else 33024
  let check (p : Plot) (pc : Pc) (off n acc : Nat) : Except FaultRec (Nat × Nat) :=
    if size p < off + n then .error (.access .capb pc 0 off acc) else if off % n ≠ 0 then .error (.access .align pc 0 off acc) else .ok (0, off)
  (∀ q ∈ [(Instr.lds8, 1, false), (Instr.lds16, 2, false), (Instr.lds32, 4, false), (Instr.lds64, 8, false), (Instr.lds128, 16, false),
      (Instr.lds8S, 1, true), (Instr.lds16S, 2, true)], ∀ x : FmtMS,
    Counted (q.1 x) { guard := x.g.toNat, size := Machine.sizeOf x.p, codes := [x.a.toNat], dst := codesFrom x.d.toNat (max 1 (q.2.1 / 4)) } .loads
      (fun c f => check c.p c.iss.pc ((readReg c.p f x.a.toNat).toNat + q.2.1 * uimm x.p 3 x.imm.toNat) q.2.1 1)
      fun c s f _ off =>
        let answer : PendLoad := if s.poisoned (base c.p + off) q.2.1 then .fault f.fid (.late .poison c.iss.pc 0 off 1 2)
          else .regs f.fid x.d.toNat (loadWords q.2.1 q.2.2 (leNat (Memory.readN s.mem (base c.p + off) q.2.1)))
        .next c (s.giveLoad c.p.pid answer) { f with loads := f.loads + 1 }) ∧
  (∀ q ∈ [(Instr.sts8, 1), (Instr.sts16, 2), (Instr.sts32, 4), (Instr.sts64, 8), (Instr.sts128, 16)], ∀ x : FmtMS,
    Counted (q.1 x) { guard := x.g.toNat, size := Machine.sizeOf x.p, codes := x.a.toNat :: codesFrom x.d.toNat (max 1 (q.2 / 4)) } .stores
      (fun c f => check c.p c.iss.pc ((readReg c.p f x.a.toNat).toNat + q.2 * uimm x.p 3 x.imm.toNat) q.2 2)
      fun c s f _ off => .next c ((s.store (base c.p + off)
        (((List.range (max 1 (q.2 / 4))).flatMap fun i => leBytes 4 (readReg c.p f (x.d.toNat + i)).toNat).take q.2)).giveStore c.p.pid (.done f.fid))
        { f with stores := f.stores + 1 })

/-- LDA, STR and FENCE complete. At the narrow scopes each waits for the fibre's earlier accesses and acts as a plain access, FENCE as nothing. At
the wide ones LDA is an acquire at the home; STR is a release, lazy with the core's epoch, which rises, or eager after a write-back of the core's
dirty bytes; FENCE writes them back, raises the epoch and invalidates, and at SYS waits for the core's host writes. WAIT parks until every count is
at or below its limit; WAITA parks after its check, to be tested at the home (R225 to R231, R259, R271 to R274). -/
def Obligations.AcquireReleaseFenceWait : Prop :=
  ((∀ x : FmtM, Counted (.lda x) (lmWord x.g x.p x.sel [x.a.toNat] (codesFrom x.d.toNat (sizeCode x.imm / 4))) .loads
    (fun c f => memCheck c f x.sel (readReg c.p f x.a.toNat).toNat (sizeCode x.imm) rightR (sizeCode x.imm) allKinds 1)
    fun c s f o y =>
      if 2 < pC x.p % 8 then
        if s.bytesBusy c.p.pid f.fid o y (sizeCode x.imm) then .again s f .bytes
        else .next c (s.send (c.request f (selCap c.p f x.sel.toNat) o y (.acquireLoad (sizeCode x.imm) x.d.toNat))) { f with loads := f.loads + 1 }
      else if s.quiet c.p.pid f.fid then (loadGlobal c s f (selCap c.p f x.sel.toNat) o y (sizeCode x.imm) false x.d.toNat 0).turn c f
      else .again s f .quiet) ∧
  (∀ x : FmtM, Counted (.str x) (lmWord x.g x.p x.sel (x.a.toNat :: codesFrom x.d.toNat (sizeCode x.imm / 4))) .stores
    (fun c f => memCheck c f x.sel (readReg c.p f x.a.toNat).toNat (sizeCode x.imm) rightW (sizeCode x.imm) allKinds 2)
    fun c s f o y =>
      let cap := selCap c.p f x.sel.toNat
      let bs := (List.range (sizeCode x.imm / 4)).flatMap fun i => leBytes 4 (readReg c.p f (x.d.toNat + i)).toNat
      let T := s.commit c.p.pid
      let e := (T.core c.p.core).epoch
      let release (U : State) (epoch : Option Nat) : Turn :=
        .next c (U.send (c.request f cap o y (.releaseStore bs epoch))) { f with stores := f.stores + 1 }
      if !s.quiet c.p.pid f.fid then .again s f .quiet
      else if pC x.p % 8 ≤ 2 then (storeGlobal c s f cap o y bs).turn c f
      else
        let lazy := T.lazyRelease c.p.core c.p.ctx o y (pC x.p % 8 == 5)
        if ¬(lazy = true ∧ e < 0xFFFF) ∧ T.backOpen c.p.core (fun _ => true) = false then .again s f .way
        else if lazy = true then release (T.bumpEpoch c.p.core) (some e)
        else release (T.flushCore c.p.core) none) ∧
  (∀ x : FmtSC0, Serves (.fence x) { guard := x.g.toNat } fun c s f =>
    if !s.quiet c.p.pid f.fid then .again s f .quiet
    else if x.scope.toNat ≤ 2 then .next c s f
    else if x.scope = 5 ∧ s.hostBusy c.p.core = true then .again s f .sent
    else
      let T := s.commit c.p.pid
      if T.backOpen c.p.core (fun _ => true) = false then .again s f .way
      else .next c (((T.flushCore c.p.core).bumpEpoch c.p.core).invalidate c.p.core) f)) ∧
  ((∀ x : FmtWT0, Serves (.wait x) {} fun c s f =>
    if f.loads ≤ x.ld.toNat ∧ f.stores ≤ x.st.toNat ∧ f.copies ≤ x.cp.toNat ∧ f.engine ≤ x.eo.toNat then .next c s f
    else .park s f (.wait x.ld.toNat x.st.toNat x.cp.toNat x.eo.toNat)) ∧
  (∀ q ∈ [(Instr.waitaEq, 0), (Instr.waitaNe, 1), (Instr.waitaGe, 2)], ∀ x : FmtMN0,
    Serves (q.1 x) (lmWord x.g none x.sel [x.a.toNat, x.d.toNat]) fun c s f =>
      match memCheck c f x.sel (readReg c.p f x.a.toNat).toNat 4 rightR 4 allKinds 1 with
      | .error r => .raise s f r
      | .ok (o, y) =>
        if s.bytesBusy c.p.pid f.fid o y 4 then .again s f .bytes
        else .park s f (.waita ⟨(selCap c.p f x.sel.toNat).kind, o, y, q.2, readReg c.p f x.d.toNat, 4, none, 0⟩)))

/-- PREF completes without a fault and fills at most its line, in the L1 or in the home's slice; that one which meets an engine's line, or whose way
is closed, is dropped is the model's choice (log entries 16 and 45). PUBL starts the publish of its range behind the
fibre, or gives the first fault of its pages; PDLOG sends the fibre's path digest to its log's home (R276 to R278, R364, R365). -/
def Obligations.PrefetchPublishLog : Prop :=
  (∀ x : FmtM, Serves (.pref x) (lmWord x.g x.p x.sel [x.a.toNat]) fun c s f =>
    let kind := (selCap c.p f x.sel.toNat).kind
    let t :=
      match memCheck c f x.sel ((readReg c.p f x.a.toNat).toNat + 128 * uimm x.p 3 x.imm.toNat) 128 rightR 128 allKinds 1 with
      | .error _ => s
      | .ok (o, y) =>
        match s.port (dieOf c.p.core) c.p.ctx c.p.system kind o rightR y with
        | .error _ => s
        | .ok h =>
          let r : LineRef := ⟨c.p.ctx, o, y / 128, 0⟩
          if (∃ q ∈ s.engineOwned, q.1 = r) ∨ s.lineOpen c.p.core r h = false then s
          else if x.d ≠ 0 then s.touchL2 r h false
          else if h.cacheable = true ∧ (s.core c.p.core).line? c.p.ctx o (y / 128) 0 none = none then s.fill (c.who f) kind o (y / 128) h 0
          else s
    .next c t f) ∧
  (∀ x : FmtM0, Counted (.publ x) (lmWord x.g none x.sel [x.a.toNat, x.d.toNat]) .stores
    (fun c f => memCheck c f x.sel (readReg c.p f x.a.toNat).toNat (readReg c.p f x.d.toNat).toNat rightP 1 [1] 2)
    fun c s f o y =>
      let len := (readReg c.p f x.d.toNat).toNat
      let lines := if len = 0 then [] else (List.range ((y + len - 1) / 128 - y / 128 + 1)).map (· + y / 128)
      let pages := dedup (lines.map (· / 512))
      let T := s.commit c.p.pid
      let go (U : State) : Turn := .next c U { f with stores := f.stores + 1 }
      let q : Publish := { pid := c.p.pid, fid := f.fid, pc := c.iss.pc, core := c.p.core, ctx := c.p.ctx, obj := o, todo := lines, pages := pages,
                           die := dieOf c.p.core, counted := true, issue := T.nextIssue, started := false, unpubl := none }
      match pagesFault T (c.who f) (selCap c.p f x.sel.toNat).kind o rightP pages with
      | some e => go (T.giveStore c.p.pid (.fault f.fid true (.late e.1 c.iss.pc o e.2 2 2)))
      | none => go { T with publishes := T.publishes ++ [q] }) ∧
  (∀ x : FmtTB0, Accesses (.pdlog x) (lmWord x.g none x.sel [x.a.toNat]) .stores 32
    (fun c f => memCheck c f x.sel (readReg c.p f x.a.toNat).toNat 64 rightA 64 [0] 3)
    fun c s f o y => .next c ((s.commit c.p.pid).send (c.request f (selCap c.p f x.sel.toNat) o y
      (.pdlog ((selCap c.p f x.sel.toNat).len - (readReg c.p f x.a.toNat).toNat) (pathRecord c.p f)))) { f with stores := f.stores + 1 })

/-- CLD and CST complete: a capability's 128 bits and tag go between an a register and a granule of its object, with R or W and C, the
granule whole; a capability without G is stored only in a CORE page (R262, R263). -/
def Obligations.CapabilityMemory : Prop :=
  (∀ x : FmtMC, Accesses (.cld x) (lmWord x.g x.p x.sel [x.a.toNat] [128 + x.ad.toNat]) .loads 16
    (fun c f => memCheck c f x.sel ((readReg c.p f x.a.toNat).toNat + 16 * uimm x.p 3 x.imm.toNat) 16 (rightR + rightC) 16 allKinds 1)
    fun c s f o y =>
      let kind := (selCap c.p f x.sel.toNat).kind
      let go (T : State) : Turn := .next c T { f with loads := f.loads + 1 }
      let late (e : FaultCode) : PendLoad := .fault f.fid (.late e c.iss.pc o y 1 2)
      let answer (r : State × Except FaultCode (List Byte × Bool)) : Turn :=
        match r.2 with
        | .ok v => go (r.1.giveLoad c.p.pid (.cap f.fid x.ad.toNat ⟨BitVec.ofNat 128 (leNat v.1), v.2⟩))
        | .error e => go (r.1.giveLoad c.p.pid (late e))
      if (s.l1Bytes (c.who f) o y 16 0).all Option.isSome then answer (s.l1Load (c.who f) kind o y 16 (rightR + rightC) 0)
      else
        match s.port (dieOf c.p.core) c.p.ctx c.p.system kind o (rightR + rightC) y with
        | .error e => go (s.giveLoad c.p.pid (late e))
        | .ok h =>
          if h.cacheable = false then go (s.send (c.request f (selCap c.p f x.sel.toNat) o y (.capLoad x.ad.toNat)))
          else if s.lineOpen c.p.core ⟨c.p.ctx, o, y / 128, 0⟩ h = false then .again s f .way
          else answer (s.l1Load (c.who f) kind o y 16 (rightR + rightC) 0)) ∧
  (∀ x : FmtMC, Accesses (.cst x) (lmWord x.g x.p x.sel [x.a.toNat, 128 + x.ad.toNat]) .stores 16
    (fun c f => memCheck c f x.sel ((readReg c.p f x.a.toNat).toNat + 16 * uimm x.p 3 x.imm.toNat) 16 (rightW + rightC) 16 allKinds 2)
    fun c s f o y =>
      let v := f.areg x.ad.toNat
      let kind := (selCap c.p f x.sel.toNat).kind
      let go (T : State) : Turn := .next c T { f with stores := f.stores + 1 }
      let fail (e : FaultCode) : Turn := go (s.giveStore c.p.pid (.fault f.fid true (.late e c.iss.pc o y 2 2)))
      match s.port (dieOf c.p.core) c.p.ctx c.p.system kind o (rightW + rightC) y with
      | .error e => fail e
      | .ok h =>
        match s.writeFault c.p.ctx o y h with
        | some e => fail e
        | none =>
          if v.tag = true ∧ v.rights.testBit 8 = false ∧ h.isCore = false then fail .capr
          else if h.cacheable then
            go (((if h.isHost then s.commit c.p.pid else s).l1Store (c.who f) kind (rightW + rightC) o y (leBytes 16 v.bits.toNat) v.tag).giveStore c.p.pid (.done f.fid))
          else go ((s.commit c.p.pid).send (c.request f (selCap c.p f x.sel.toNat) o y (.capStore v))))

/-- ATOM completes: checked for R, W and A, it sends its operation to the home, which answers the old value; RED, checked for W and A, answers no register, and a RED.ADD of a commutative range's own type accumulates in the issuing core, unless its page refuses it (R239, R264 to R266, R269). The integer atomics by operation and type, on the old value and the operand (R266, R267). -/
def Obligations.AtomicWords : Prop :=
  ((∀ q ∈ [(Instr.atomAdd, 0), (Instr.atomMin, 1), (Instr.atomMax, 2), (Instr.atomAnd, 3), (Instr.atomOr, 4), (Instr.atomXor, 5),
      (Instr.atomExch, 6), (Instr.atomCas, 7), (Instr.atomInc, 8)], ∀ x : FmtMN,
    let n := if pTy x.p = 22 then 8 else 4
    let cmp := if q.2 = 7 then codesFrom (pC x.p) (n / 4) else []
    Accesses (q.1 x) (lmWord x.g x.p x.sel (x.a.toNat :: (codesFrom x.d.toNat (n / 4) ++ cmp)) (codesFrom x.d.toNat (n / 4))) .loads n
      (fun c f => memCheck c f x.sel (readReg c.p f x.a.toNat).toNat n (rightR + rightW + rightA) n [0, 2, 3, 4] 3)
      fun c s f o y => .next c ((s.commit c.p.pid).send (c.request f (selCap c.p f x.sel.toNat) o y
        (.atom q.2 (pTy x.p) (regsNat c.p f x.d.toNat (n / 4)) (if q.2 = 7 then regsNat c.p f (pC x.p) (n / 4) else 0) (some x.d.toNat))))
        { f with loads := f.loads + 1 }) ∧
  (∀ q ∈ [(Instr.redAdd, 0), (Instr.redMin, 1), (Instr.redMax, 2), (Instr.redAnd, 3), (Instr.redOr, 4), (Instr.redXor, 5)], ∀ x : FmtMN,
    let n := if pTy x.p = 22 then 8 else 4
    Accesses (q.1 x) { lmWord x.g x.p x.sel (x.a.toNat :: codesFrom x.d.toNat (n / 4)) with ty := if pTy x.p = 25 then 2 else pTy x.p } .stores n
      (fun c f => memCheck c f x.sel (readReg c.p f x.a.toNat).toNat n (rightW + rightA) n [0, 2, 3, 4] 3)
      fun c s f o y =>
        let kind := (selCap c.p f x.sel.toNat).kind
        let d := regsNat c.p f x.d.toNat (n / 4)
        let go (T : State) : Turn := .next c T { f with stores := f.stores + 1 }
        let fail (e : FaultCode) : Turn := go ((s.commit c.p.pid).giveStore c.p.pid (.fault f.fid true (.late e c.iss.pc o y 3 2)))
        match s.port (dieOf c.p.core) c.p.ctx c.p.system kind o (rightW + rightA) y with
        | .error e => fail e
        | .ok h =>
          if q.2 = 0 ∧ h.entry.crty ≠ 0 ∧ rangeMatches h.entry.crty (pTy x.p) = true then
            match rangeFault h 0 (pTy x.p) with
            | some e => fail e
            | none => (redRange c s f h.entry kind o y n d).turn c f
          else go ((s.commit c.p.pid).send (c.request f (selCap c.p f x.sel.toNat) o y (.atom q.2 (pTy x.p) d 0 none))))) ∧
  (∀ pc fid ty, ty = 20 ∨ ty = 21 ∨ ty = 22 → ∀ old d c : BitVec (if ty = 22 then 64 else 32),
    let new (op : Nat) : Nat := (atomNew pc fid op ty old.toNat d.toNat c.toNat).code
    new 0 = (old + d).toNat ∧
    new 1 = (if ty = 21 then (if old.toInt ≤ d.toInt then old else d) else if old.toNat ≤ d.toNat then old else d).toNat ∧
    new 2 = (if ty = 21 then (if old.toInt ≤ d.toInt then d else old) else if old.toNat ≤ d.toNat then d else old).toNat ∧
    new 3 = (old &&& d).toNat ∧ new 4 = (old ||| d).toNat ∧ new 5 = (old ^^^ d).toNat ∧ new 6 = d.toNat ∧
    new 7 = (if old = c then d else old).toNat ∧
    new 8 = (if d.toNat ≤ old.toNat then 0 else old + 1).toNat ∧
    ∀ op ≤ 8, (atomNew pc fid op ty old.toNat d.toNat c.toNat).flg = 0)

/-- An integer atomic performed at a home puts the new value where the old one was, changes no other byte of memory, and answers the old value to
the fibre's register. It is stated of an object none of whose bytes the home keeps: not object 0, a launch list, a crop's count object or EXLOG's
object (R10, R265, R266). -/
def Obligations.AtomicAtHome : Prop :=
  ∀ (s : State) (q : HomeReq) (h : PortHit) issue op ty d c dst p, ty = 20 ∨ ty = 21 ∨ ty = 22 → op ≤ 8 → q.obj ≠ 0 → s.plot? q.pid = some p →
    (∀ k, s.ctx? q.ctx = some k → k.isList q.obj = false ∧ k.exlog.toNat % 2 ^ 24 ≠ q.obj ∧ ∀ z ∈ k.crops, z.count ≠ q.obj) → (∀ l ∈ s.issueLogs, l.issue ≠ issue) → s.poisoned h.addr (atomSize ty) = false →
    let t := s.farAtom q h issue op ty d c (some dst)
    let old := leNat (Memory.readN s.mem h.addr (atomSize ty))
    t.mem = Memory.writeN s.mem h.addr (leBytes (atomSize ty) (atomNew q.pc.toNat (q.fid % 1024) op ty old d c).code) ∧
    ∃ r, t.plot? q.pid = some r ∧
      r.pendLoads = p.pendLoads ++ [.regs q.fid dst ((List.range (atomSize ty / 4)).map fun i => BitVec.ofNat 32 (old / 2 ^ (32 * i)))]

/-! ### Lattices (R279 to R294) -/

/-- LDLAT and LJOIN complete, after the member's own earlier accesses of the cell. LDLAT's load goes to its replica's home once the cell has passed
its threshold, with the cell that passed; until then its member parks, its count taken. LJOIN's join goes to the home with the operand; a .REL one
is released: it begins after the fibre's earlier accesses, lazy with the core's epoch, which rises, or eager after a write-back (R284 to R287,
R293). -/
def Obligations.LatticeWords : Prop :=
  (∀ x : FmtMQ,
    let ty := x.p.ty.toNat
    Accesses (.ldlat x) (lmWord x.g (some x.p) x.sel (x.a.toNat :: if x.p.c.toNat = 0 then [] else codesFrom x.p.c.toNat (latRegs ty))
        (codesFrom x.d.toNat (latRegs ty))) .loads (latSize ty)
      (fun c f => memCheck c f x.sel (readReg c.p f x.a.toNat).toNat (latSize ty) rightR (latSize ty) [2, 3] 1)
      fun c s f o y =>
        let cap := selCap c.p f x.sel.toNat
        let thr := if x.p.c.toNat = 0 then none else some (regsNat c.p f x.p.c.toNat (latRegs ty))
        let g := { f with loads := f.loads + 1 }
        if s.latReady c.p cap o y ty thr then
          .next c (s.send (c.request f cap o y (.latLoad ty (x.acq == 1) x.d.toNat (s.latCell c.p cap o y ty thr)))) g
        else .park s g (.ldlat ⟨cap, o, y, ty, thr, x.acq == 1, x.d.toNat, c.size⟩)) ∧
  (∀ x : FmtMQ,
    let ty := x.p.ty.toNat
    Counted (.ljoin x) (lmWord x.g (some x.p) x.sel (x.a.toNat :: codesFrom x.d.toNat (latRegs ty))) .stores
      (fun c f => memCheck c f x.sel (readReg c.p f x.a.toNat).toNat (latSize ty) rightJ (latSize ty) [2, 3] 3)
      fun c s f o y =>
        let req (epoch : Option Nat) := c.request f (selCap c.p f x.sel.toNat) o y (.join ty (regsNat c.p f x.d.toNat (latRegs ty)) epoch)
        let go (t : State) (epoch : Option Nat) : Turn := .next c (t.send (req epoch)) { f with stores := f.stores + 1 }
        let T := s.commit c.p.pid
        let e := (T.core c.p.core).epoch
        let eager := T.eagerByRecords ⟨c.p.ctx, o, y / 128, dieOf c.p.core + 1⟩ c.p.core
        if x.acq = 0 ∨ (s.portOf (req none)).isOk = false then
          if s.bytesBusy c.p.pid f.fid o y (latSize ty) then .again s f .bytes else go T none
        else if s.quiet c.p.pid f.fid = false then .again s f .quiet
        else if (eager = true ∨ 0xFFFF ≤ e) ∧ T.backOpen c.p.core (fun _ => true) = false then .again s f .way
        else if eager = true then go (T.flushCore c.p.core) none
        else go (T.bumpEpoch c.p.core) (some e))

/-- Each lattice type's join is the least upper bound of its order on the cells of its size, so that replicas that have seen the same joins
agree, in whatever order they came; and a cell only rises (R280, R285, R288). -/
def Obligations.LatticeJoinIsLeastUpperBound : Prop :=
  ∀ ty ∈ [1, 2, 3, 4, 5, 6, 7, 8], ∀ a < 2 ^ (8 * latSize ty), ∀ b < 2 ^ (8 * latSize ty), ∀ c < 2 ^ (8 * latSize ty),
    latLe ty a (latJoin ty a b) = true ∧ latLe ty b (latJoin ty a b) = true ∧
    (latLe ty a c = true → latLe ty b c = true → latLe ty (latJoin ty a b) c = true) ∧
    latJoin ty a b = latJoin ty b a ∧ latJoin ty (latJoin ty a b) c = latJoin ty a (latJoin ty b c) ∧ latJoin ty a a = a ∧
    ∀ die < 4, latLe ty a (latApply ty die a b) = true

/-! ### Control flow (R340 to R358) -/

/-- BRA, CALL, RET and BRX complete: a branch goes to its own address plus four times its signed offset, folding the target into the path digest
where it is guarded; CALL leaves the return offset in the window's last register; RET takes an aligned offset; BRX a displacement from its table,
an entry that the L1 holds read as it stands there (R340 to R347). LOOP starts its counter and goes on, or skips its body where the count is zero; a
member that completes the last instruction of a running loop's body counts it down, of several loops that end there lc2, then lc1, then lc0, and takes
the back edge of the first whose count remains (R349 to R351). -/
def Obligations.TransfersAndLoops : Prop :=
  let folded (f : Fibre) (t : Pc) : Fibre := { f with pathd := BitVec.ofNat 64 (mix64 (f.pathd.toNat ^^^ t.toNat)) }
  ((∀ x : FmtB, Serves (.bra x) { guard := x.g.toNat, size := Machine.sizeOf x.p } fun c s f =>
    let t := c.iss.pc + BitVec.ofInt 40 (4 * simm x.p 21 x.off.toNat)
    .goto c s (if x.g = 7 then f else folded f t) t) ∧
  (∀ (x : FmtB) s iss p, Issuing s iss p → Served (exec (.call x) s) s iss p
    { guard := x.g.toNat, size := Machine.sizeOf x.p, dst := [p.window - 1] } fun c s f =>
    let ret := c.iss.pc.toNat + c.size
    if 2 ^ 32 ≤ ret then .raise s f (.precise .capb c.iss.pc)
    else
      let t := c.iss.pc + BitVec.ofInt 40 (4 * simm x.p 21 x.off.toNat)
      let g := f.setV (c.p.window - 1) (BitVec.ofNat 32 ret)
      .goto c s (if x.g = 7 then g else folded g t) t) ∧
  (∀ x : FmtA1, Serves (.ret x) { guard := x.g.toNat, size := Machine.sizeOf x.p, codes := [x.a.toNat] } fun c s f =>
    let t := readReg c.p f x.a.toNat
    if t.toNat % 4 ≠ 0 then .raise s f (.precise .align c.iss.pc) else .goto c s f (t.setWidth 40)) ∧
  (∀ g a v, decodeWords (0#1 ++ (0x76#7 ++ (g ++ (0#7 ++ (a ++ 1#7))))) v = .ok (.ret ⟨g, a, none⟩, 4)) ∧
  (∀ (g : BitVec 3) (d a : BitVec 7) v, d ≠ 0 → ∃ e, decodeWords (0#1 ++ (0x76#7 ++ (g ++ (d ++ (a ++ 1#7))))) v = .error e) ∧
  (∀ x window, pImmx x.p ≠ 0 → checkWord window (.ret x) = false) ∧ decodeWords 0x76E00381 0 = .ok (.ret ⟨7, 7, none⟩, 4) ∧
  (∀ x : FmtTB0, Accesses (.brx x) (lmWord x.g none x.sel [x.a.toNat]) .loads 4
    (fun c f => memCheck c f x.sel (4 * (readReg c.p f x.a.toNat).toNat) 4 rightR 4 [0, 1] 1)
    fun c s f o y => (brxEntry c s f (selCap c.p f x.sel.toNat) o y fun t r =>
      match r with
      | .error e => ⟨t, .fault { FaultRec.access e c.iss.pc o y 1 with unit := 2 }, 0, []⟩
      | .ok e =>
        let tgt := c.iss.pc + BitVec.ofInt 40 (signedOf 32 e)
        if tgt.toNat % 4 ≠ 0 then ⟨t, .fault (.precise .align c.iss.pc), 0, []⟩ else ⟨t, .goto (folded f tgt) tgt, 0, []⟩).turn c f) ∧
  (∀ (c : IssueCtx) (s : State) (f : Fibre) (cap : Cap) (obj off : Nat) (go : State → Except FaultCode Nat → Eff) (bs : List Byte), bs.length = 4 →
    s.l1Bytes (c.who f) obj off 4 0 = bs.map (fun b => some (b, false)) → brxEntry c s f cap obj off go = go s (.ok (leNat bs)))) ∧
  ((∀ x : FmtLP, Serves (.loop x) { size := Machine.sizeOf x.p, codes := [x.cnt.toNat] } fun c s f =>
    let n := readReg c.p f x.cnt.toNat
    let last := c.iss.pc + BitVec.ofNat 40 (4 * (pImmx x.p * 2 ^ 15 + x.fin.toNat))
    let g := { f with lc := f.lc.set x.lc.toNat ⟨n, c.iss.pc, c.iss.pc + BitVec.ofNat 40 c.size, last⟩ }
    if n = 0 then .goto c s g (last + BitVec.ofNat 40 (s.sizeAt c.p last)) else .next c s g) ∧
  (∀ (f : Fibre) (pc next : Pc) (l0 l1 l2 : LoopCtr), f.lc = [l0, l1, l2] → l1.count = 0 → l2.count = 0 → l0.last = pc → l0.count ≠ 0 →
    f.advance pc next = { f with lc := [{ l0 with count := l0.count - 1 }, l1, l2], pc := if l0.count = 1 then next else l0.first }) ∧
  (∀ (f : Fibre) (pc next : Pc) (l0 l1 l2 : LoopCtr), f.lc = [l0, l1, l2] →
    let runs (l : LoopCtr) : Prop := l.count ≠ 0 ∧ l.last = pc
    let down (l : LoopCtr) : LoopCtr := { l with count := l.count - 1 }
    let after (l : LoopCtr) : LoopCtr := if l.count ≠ 0 ∧ l.last = pc then down l else l
    (runs l2 → l2.count ≠ 1 → f.advance pc next = { f with lc := [l0, l1, down l2], pc := l2.first }) ∧
    (¬runs l2 ∨ l2.count = 1 →
      (runs l1 → l1.count ≠ 1 → f.advance pc next = { f with lc := [l0, down l1, after l2], pc := l1.first }) ∧
      (¬runs l1 ∨ l1.count = 1 →
        f.advance pc next = { f with lc := [after l0, after l1, after l2], pc := if l0.count ≠ 0 ∧ l0.last = pc ∧ l0.count ≠ 1 then l0.first else next }))) ∧
  (∀ (f : Fibre) (pc next : Pc) (l0 l1 l2 : LoopCtr), f.lc = [l0, l1, l2] → (∀ l ∈ f.lc, l.count = 0 ∨ l.last ≠ pc) →
    f.advance pc next = { f with pc := next }))

/-- BRA.J first opens its slot to every member of the issue, in the first ccy of the issue (the model's choice, log entry 55), then branches; BIND pins
its furrow; UNBIND ends a bound furrow, whose masked members become ready at their own PCs two ccy after its issue (R36, R41, R51, R345, R353). NOP
only goes on. YIELD dissolves its unbound furrow: its members are ready at the next PC two ccy after its issue, with age 0; in a bound region it only
goes on (R348). The furrow after any issue: an unbound one dissolves where the instruction is JOIN, YIELD or the UNBIND that ends its region, where
members have two distinct next PCs, where one parks, is held or exits, its other members ready two ccy after the issue; otherwise it stays as it is. A
bound one stays, less the members that exited, and ends with the last (R35, R36, R42). -/
def Obligations.BranchJoinBind : Prop :=
  let on (c : IssueCtx) (s : State) (f : Fibre) : Turn := .next c s f
  (∀ (x : FmtBJ) s iss p, Issuing s iss p →
    let opened (p : Plot) : Plot := p.setJslot x.slot.toNat
      { p.jslot x.slot.toNat with opened := dedup ((p.jslot x.slot.toNat).opened ++ iss.members.map (·.2)) }
    Served (exec (.braJ x) s) (s.modPlot iss.pid opened) iss (opened p) { guard := x.g.toNat, size := Machine.sizeOf x.p } fun c s f =>
      let t := c.iss.pc + BitVec.ofInt 40 (4 * simm x.p 14 x.off.toNat)
      .goto c s (if x.g = 7 then f else { f with pathd := BitVec.ofNat 64 (mix64 (f.pathd.toNat ^^^ t.toNat)) }) t) ∧
  (∀ x : FmtG, Serves (.nop x) { guard := x.g.toNat, size := Machine.sizeOf x.p } on) ∧
  (∀ x : FmtN, Serves (.yield x) { size := Machine.sizeOf x.p } on) ∧
  (∀ (x : FmtN) s iss p, Issuing s iss p →
    let w : LaneWord := { size := Machine.sizeOf x.p }
    (∀ fu, s.furrowOf iss = some fu → fu.bound = false →
      Served (exec (.bind x) s) (s.modCore iss.core fun c => c.setFurrow { fu with bound := true }) iss p w on) ∧
    ((∀ fu, s.furrowOf iss = some fu → fu.bound = true) → Served (exec (.bind x) s) s iss p w on)) ∧
  (∀ (x : FmtN) s iss p, Issuing s iss p →
    let w : LaneWord := { size := Machine.sizeOf x.p, dissolves := true }
    (∀ fu, s.furrowOf iss = some fu → fu.bound = true →
      ∃ t, Ends (.next t) (s.modCore iss.core fun c => c.setFurrow { fu with bound := false }) iss p w on ∧
        let at_ := s.cycOf iss.core + s.occupancy iss w p + 1
        let masked := fu.lanes.filter fun l => !(iss.members.any fun m => m.2 == l.2) && (t.fibre? iss.pid l.2).any fun f => f.run == .inFurrow
        exec (.unbind x) s = .next (masked.foldl (fun u l => u.readyAs iss.pid l.2 at_ at_ true) t)) ∧
    ((∀ fu, s.furrowOf iss = some fu → fu.bound = false) → Served (exec (.unbind x) s) s iss p w on)) ∧
  (∀ (x : FmtN) s iss p fu, InFurrow s iss p fu →
    let w : LaneWord := { size := Machine.sizeOf x.p, dissolves := true }
    let gone (m : Nat × Fibre) : Fibre := m.2.advance iss.pc (iss.pc + BitVec.ofNat 40 w.size)
    ∃ t, exec (.yield x) s = .next t ∧
      (fu.bound = false → fu.ended iss.core t ∧ ∀ m ∈ iss.live p, Loose t iss (gone m) (s.cycOf iss.core + s.occupancy iss w p + 1)) ∧
      (fu.bound = true → fu.kept iss.core fu.lanes t ∧ ∀ m ∈ iss.live p, t.fibre? iss.pid m.2.fid = some (gone m))) ∧
  (∀ (x : FmtG) s iss p fu, InFurrow s iss p fu →
    let w : LaneWord := { guard := x.g.toNat, size := Machine.sizeOf x.p }
    let gone (m : Nat × Fibre) : Fibre := m.2.advance iss.pc (iss.pc + BitVec.ofNat 40 w.size)
    let apart : Prop := ∃ m ∈ iss.live p, ∃ m' ∈ iss.live p, (gone m).pc ≠ (gone m').pc
    ∃ t, exec (.nop x) s = .next t ∧
      (fu.bound = false → apart → fu.ended iss.core t ∧ ∀ m ∈ iss.live p, Loose t iss (gone m) (s.cycOf iss.core + s.occupancy iss w p + 1)) ∧
      (fu.bound = true ∨ ¬apart → fu.kept iss.core fu.lanes t ∧ ∀ m ∈ iss.live p, t.fibre? iss.pid m.2.fid = some (gone m))) ∧
  (∀ s iss p fu (w : LaneWord) (acts : List (Nat × Act)) occ, InFurrow s iss p fu → (acts.map (·.1)).Nodup →
    (∀ q ∈ acts, q.1 ∈ iss.members.map (·.2) ∧ ∀ k, q.2 ≠ .again k) →
    let t := s.regroup iss w acts occ
    let goesOn (a : Act) : Prop := (∃ f, a = .seq f) ∨ (∃ f pc, a = .goto f pc) ∨ ∃ r, a = .fault r
    let event : Prop := w.dissolves = true ∨ (∃ q ∈ acts, ¬goesOn q.2) ∨
      ∃ q ∈ acts, ∃ q' ∈ acts, ∃ f f', s.fibre? iss.pid q.1 = some f ∧ s.fibre? iss.pid q'.1 = some f' ∧ f.pc ≠ f'.pc
    let left := fu.lanes.filter fun l => !(acts.any fun q => q.1 == l.2 && q.2 == .exit)
    (fu.bound = false → event → fu.ended iss.core t ∧
      ∀ q ∈ acts, goesOn q.2 → ∀ f, s.fibre? iss.pid q.1 = some f → Loose t iss f (s.cycOf iss.core + occ + 1)) ∧
    (fu.bound = false → ¬event → fu.kept iss.core fu.lanes t ∧ t.plots = s.plots) ∧
    (fu.bound = true → left = [] → fu.ended iss.core t ∧ t.plots = s.plots) ∧
    (fu.bound = true → left ≠ [] → fu.kept iss.core left t ∧ t.plots = s.plots))

/-- JOIN passes on a slot that nobody opened; elsewhere its members arrive, at the end of its issue, and are held unless their furrow is bound. At
the end of a ccy of a plot that is not halted, or halts in this ccy, a slot at which a fibre has arrived since the last release releases where every
fibre that opened it and has not exited has arrived by then, or the hold timer has run out, and not otherwise, nor while a debugger halts its die: both
its sets are empty, and its held fibres are runnable with the age of the oldest (R51, R52, R352, R414, R465). -/
def Obligations.Joins : Prop :=
  (∀ x : FmtJ0, Serves (.join x) { dissolves := true } fun c s f =>
    match s.plot? c.p.pid with
    | none => .next c s f
    | some p =>
      let y := p.jslot x.slot.toNat
      if y.opened = [] then .next c s f
      else
        let bound := ((s.core p.core).furrowOf? p.pid f.fid).any (·.bound)
        let now := s.cycOf p.core + s.occupancy c.iss { dissolves := true } c.p - 1
        let z : JSlot := ⟨y.opened, assocSet y.arrived f.fid now, if bound then y.held else y.held ++ [(f.fid, f.readyAt)],
          some (match y.start with
            | some n => min n now
            | none => now)⟩
        let t := s.modPlot p.pid fun q => q.setJslot x.slot.toNat z
        if bound then .next c t f else { Turn.next c t f with wait := some (.held x.slot.toNat) }) ∧
  (∀ (s : State) pid j p, s.plot? pid = some p → j < p.j.length →
    let x := p.jslot j
    let now := s.cycOf p.core
    let arrived (f : Nat) : Prop := ∃ q ∈ x.arrived, q.1 = f ∧ q.2 ≤ now
    let due : Prop := (s.die (dieOf p.core)).halted = false ∧ (∀ h, p.halt = some h → h.fcyc = now) ∧
      ∃ first, x.start = some first ∧ ((first ≤ now ∧ ∀ f ∈ x.opened, arrived f) ∨ first + p.jhold ≤ now)
    (due → ∃ t q, exec (.joinHoldExpiry pid j) s = .next t ∧ t.plot? pid = some q ∧ q.jslot j = .empty ∧
      ∀ h ∈ x.held, ∀ f, p.fibre? h.1 = some f → ∃ g, q.fibre? h.1 = some g ∧ g.same f ∧
        (x.held.map (·.2)).min? = some g.readyAt ∧ ((∃ since, now < since ∧ g.run = .ready since) ∨ g.run = .inFurrow)) ∧
    (¬due → exec (.joinHoldExpiry pid j) s = .fault .noSubject))

/-- SPAWN, after its fibre's earlier accesses, makes a fibre at its target with the first n v registers, the predicates, the a registers and the path
digest of its maker, and the rest of its window zero, or raises SPWN; PMARK counts a step of its plot, saturating (R354, R355, R357). CVSET joins a
set with sequence number 0, or raises BARX: for c0, a set of another count, a closed set, or one that the fibre is in; the first join of a free set
fixes its count, and the set closes with the last (R44, R358). S2V reads a special register: FID, plot, field, die, core, lane, home lane, members of
the furrow, the cycle counter's and the path digest's halves, the flags, the step count (R73, R75). -/
def Obligations.SpawnMarkSetRead : Prop :=
  (∀ x : FmtSP,
    let w : LaneWord := { guard := x.g.toNat, size := Machine.sizeOf x.p, codes := List.range x.n.toNat ++ codesFrom 128 8, cost := 2 }
    Serves (.spawn x) w fun c s f =>
      let entered := s.cycOf c.p.core + s.occupancy c.iss w c.p - 1
      if s.quiet c.p.pid f.fid = false then .again s f .quiet
      else
        match (s.plot? c.p.pid).bind fun p => s.spawn p f x.n.toNat (c.iss.pc + BitVec.ofInt 40 (4 * simm x.p 14 x.off.toNat)) entered with
        | none => .raise s f (.precise .spwn c.iss.pc)
        | some t => .next c t f) ∧
  (∀ (s t : State) p f n entry entered, s.plot? p.pid = some p → s.spawn p f n entry entered = some t →
    ∃ fid g, (∀ h ∈ p.fibres, h.fid ≠ fid) ∧ fid ∉ p.exited ∧ fid < 1024 ∧ t.fibre? p.pid fid = some g ∧ g.pc = entry ∧
      g.v = f.v.take n ++ List.replicate (p.window - n) 0 ∧ g.preds = f.preds ∧ g.a = f.a ∧ g.pathd = f.pathd ∧
      (∀ m, g.lc.getD m ⟨0, 0, 0, 0⟩ = ⟨0, 0, 0, 0⟩) ∧ t.mem = s.mem) ∧
  (∀ x : FmtG, Serves (.pmark x) { guard := x.g.toNat, size := Machine.sizeOf x.p } fun c s f =>
    .next c (s.modPlot c.p.pid fun p => { p with step := BitVec.ofNat 32 (min 0xFFFFFFFF (p.step.toNat + 1)) }) f) ∧
  (∀ x : FmtCV0, Serves (.cvset x) {} fun c s f =>
    match (s.plot? c.p.pid).bind fun p => if x.cset = 0 then none else (p.cset x.cset.toNat).join f.fid x.count.toNat with
    | none => .raise s f (.precise .barx c.iss.pc)
    | some y =>
      let t := s.modPlot c.p.pid fun p => p.setCset x.cset.toNat y
      .next c (if y.closed then t.wakeClosed c.p.pid x.cset.toNat else t) { f with seq := f.seq.set x.cset.toNat 0 }) ∧
  (∀ x : FmtSR0, Serves (.s2v x) { guard := x.g.toNat, dst := [x.d.toNat] } fun c s f =>
    .next c s (f.setV x.d.toNat (specialReg c s f x.n.toNat))) ∧
  (∀ (y : CSet) fid n, 0 < n →
    (y.count = 0 → y.join fid n = some { CSet.free with count := n, joined := 1, members := [fid], closed := decide (n = 1) }) ∧
    (y.count ≠ 0 → y.count ≠ n ∨ y.closed = true ∨ fid ∈ y.members → y.join fid n = none) ∧
    (y.count = n → y.closed = false → fid ∉ y.members →
      y.join fid n = some { y with joined := y.joined + 1, members := y.members ++ [fid], closed := decide (y.joined + 1 = n) })) ∧
  (∀ (c : IssueCtx) (s : State) (f : Fibre),
    let cyc := s.cycOf c.p.core
    [0, 1, 2, 3, 4, 5, 6].map (fun n => specialReg c s f n) =
      [f.fid, c.p.plot, c.p.fld, dieOf c.p.core, c.p.core % 32, c.lane, f.fid % 32].map (BitVec.ofNat 32) ∧
    (∀ fu, s.furrowOf c.iss = some fu → specialReg c s f 7 = BitVec.ofNat 32 fu.lanes.length) ∧
    [8, 9, 10, 11, 12, 13].map (fun n => specialReg c s f n) = [BitVec.ofNat 32 cyc, BitVec.ofNat 32 (cyc / 2 ^ 32), f.pathd.extractLsb' 0 32,
      f.pathd.extractLsb' 32 32, c.p.flg, c.p.step])

/-! ### System registers and exceptions (R392, R393, R413 to R424) -/

/-- At system level MFSR reads a system register of the plot's context and MTSR writes its fields: CTX and LEVEL keep their values, and a launch
list keeps its own where SYS is not enabled. A register read after it is written shows the fields written (R392, R393). -/
def Obligations.SystemRegisters : Prop :=
  (∀ x : FmtMF, Serves (.mfsr x) { guard := x.g.toNat, size := Machine.sizeOf x.p, dst := [x.d.toNat], privileged := true } fun c s f =>
    .next c s (f.setV x.d.toNat (((s.ctx? c.p.ctx).map fun k => k.sysReg (uimm x.p 7 x.n.toNat)).getD 0))) ∧
  (∀ x : FmtMT, Serves (.mtsr x) { guard := x.g.toNat, size := Machine.sizeOf x.p, codes := [x.a.toNat], privileged := true } fun c s f =>
    .next c (((s.ctx? c.p.ctx).map fun k => s.setCtx (k.setSysReg (uimm x.p 7 x.n.toNat) (readReg c.p f x.a.toNat))).getD s) f) ∧
  (∀ (c : Ctx) (v : Word), (c.setSysReg 0 v) = c ∧ (c.setSysReg 14 v) = c ∧ (c.setSysReg 1 v).sysReg 1 = v ∧
    (c.setSysReg 2 v).sysReg 2 = v &&& 0x00FFFFFF ∧ (c.setSysReg 3 v).sysReg 3 = v &&& 0x00FFFFFF ∧
    (c.setSysReg 4 v).sysReg 4 = v &&& 0x01FFFFFF ∧ (c.setSysReg 5 v).sysReg 5 = v &&& 0x01FFFFFF ∧ c.sysReg 14 = 1 ∧
    ∀ n, n < 8 → c.ll.length = 8 → (c.setSysReg (6 + n) v).sysReg (6 + n) =
      if v.getLsbD 25 = true ∧ c.sysLists = false then c.sysReg (6 + n) else v &&& 0x03FFFFFF)

/-- TRAP, SYSC, HALT and DBGB take their exception: every member that takes part stays at the word, its record naming the instruction and,
as the address to return to, the one after it; TRAP and SYSC with their number (R413, R419, R423, R425). -/
def Obligations.TrapsTakeTheException : Prop :=
  (∀ x : FmtTR0, Serves (.trap x) { guard := x.g.toNat } fun c s f =>
    .raise s f { FaultRec.precise .trapi c.iss.pc with rpc := some (c.iss.pc + 4), num := x.n.toNat }) ∧
  (∀ x : FmtTR0, Serves (.sysc x) { guard := x.g.toNat } fun c s f =>
    .raise s f { FaultRec.precise .trapi c.iss.pc with rpc := some (c.iss.pc + 4), num := x.n.toNat, sc := true }) ∧
  (∀ x : FmtN, Serves (.halt x) { size := Machine.sizeOf x.p, privileged := true } fun c s f =>
    .raise s f { FaultRec.precise .halt c.iss.pc with rpc := some (c.iss.pc + BitVec.ofNat 40 c.size) }) ∧
  (∀ x : FmtN, Serves (.dbgb x) { size := Machine.sizeOf x.p, privileged := true } fun c s f =>
    .raise s f { FaultRec.precise .dbg c.iss.pc with rpc := some (c.iss.pc + BitVec.ofNat 40 c.size) })

/-- The first fault of a plot starts its halt: the cycle, the fibre that is first and its cause. A later fault of another fibre adds a record; of
one that has a record it only counts in it; and FIRST and its cause are those of the lower FID where both fault in the halt's cycle, or of a fault in
the cycle in which a pre-emption has stopped the plot. A HALT among them sends the plot to the reeve. The quadrant of the fibre is noted, in which no
skid issues. No other plot and no register changes (R414 to R416, R425). An issue of a halted plot in a later ccy than the fault's counts in the skid
of its members (R415). -/
def Obligations.FaultsStartOneHalt : Prop :=
  ∀ (s : State) pid fid r p, s.plot? pid = some p →
    let t := s.raise pid fid r
    let now := s.cycOf p.core
    (p.halt = none → ∃ q h, t.plot? pid = some q ∧ q.halt = some h ∧ { q with halt := none } = p ∧ h.fcyc = now ∧ h.first = fid ∧
      h.cause = r.code.num ∧ h.recs = [(fid, r)] ∧ h.phase = .stopping ∧ h.toReeve = decide (r.code = .halt) ∧
      h.quads = (s.quadOf pid fid p.core).toList ∧ h.skids = []) ∧
    (∀ h, p.halt = some h → ∃ k, t.plot? pid = some { p with halt := some k } ∧
      k.recs = (if fid ∈ h.recs.map (·.1) then h.recs.map fun q => if q.1 = fid then (q.1, { q.2 with more := min 63 (q.2.more + 1) }) else q
        else h.recs ++ [(fid, r)]) ∧
      (k.first, k.cause) = (if h.fcyc = now ∧ (h.cause = 0 ∨ fid < h.first) then (fid, r.code.num) else (h.first, h.cause)) ∧
      k.toReeve = (h.toReeve || decide (r.code = .halt)) ∧ k.quads = h.quads ++ (s.quadOf pid fid p.core).toList ∧
      { k with recs := h.recs, first := h.first, cause := h.cause, toReeve := h.toReeve, quads := h.quads } = h) ∧
    (∀ other, other ≠ pid → t.plot? other = s.plot? other) ∧ { t with plots := [] } = { s with plots := [] } ∧
    ∀ iss h, iss.pid = pid → p.halt = some h →
      (s.countSkid iss).plot? pid = some { p with halt := some { h with
        skids := if h.fcyc < now then h.skids ++ iss.members.map (·.2) else h.skids } }

/-- EXIT ends its fibre: it leaves its plot and every convergence set; the plot's other fibres and memory stay as they were. Of the members of an issue
those whose guard is true exit: each leaves every convergence set and the opened and arrived sets of every join slot, is no more required by an
instance that it has not signed, while its signatures stand, and its loads on their way are discarded; the others go on (R44, R46, R50, R52, R356). ERET ends the handler's fibre, no load on its way to A, and
applies the action in A[1:0] to the plot whose halt frame it stands on, freeing the handler's place unless the action is 3; outside a handler it
raises ILLOP; at user level PRIV (R391, R424, R473). -/
def Obligations.ExitAndReturn : Prop :=
  (∀ (x : FmtG) s iss p f, Alone s iss p f → f.pred x.g.toNat = true → p.handler = none → (∀ y ∈ p.c, y.insts = []) → (∀ y ∈ p.j, y = .empty) →
    ∃ t q, exec (.exit x) s = .next t ∧ t.plot? iss.pid = some q ∧ q.fibre? f.fid = none ∧
      (∀ g ∈ p.fibres, g.fid ≠ f.fid → q.fibre? g.fid = p.fibre? g.fid) ∧ (∀ n, f.fid ∉ (q.cset n).members) ∧
      (∀ pid, pid ≠ iss.pid → t.plot? pid = s.plot? pid) ∧ t.mem = s.mem ∧ t.tags = s.tags ∧ t.issuing = none) ∧
  (∀ (x : FmtG) s iss p, Issuing s iss p → p.handler = none → (∀ m ∈ iss.members, m.2 < 1024) →
    let out := ((iss.live p).filter fun m => m.2.pred x.g.toNat).map (·.2.fid)
    let signed (i : Inst) (f : Nat) : Bool := i.sigs.any fun g => g.fid == f
    let name (i : Inst) (f : Nat) : Nat := if f ∈ out ∧ signed i f = true then f + 1024 else f
    ∃ t q, exec (.exit x) s = .next t ∧ t.plot? iss.pid = some q ∧ (∀ f ∈ out, q.fibre? f = none) ∧ q.exited = p.exited ++ out ∧
      (∀ m ∈ iss.live p, m.2.pred x.g.toNat = false → Becomes t iss m.2.fid (m.2.advance iss.pc (iss.pc + BitVec.ofNat 40 (Machine.sizeOf x.p)))) ∧
      (∀ g, g ∉ iss.members.map (·.2) → q.fibre? g = p.fibre? g) ∧
      q.c = p.c.map (fun y => { y with
        members := y.members.filter fun f => decide (f ∉ out)
        insts := y.insts.map fun i => { i with
          req := (i.req.filter fun f => decide (f ∉ out ∨ signed i f = true)).map (name i)
          sigs := i.sigs.map fun g => { g with fid := name i g.fid } } }) ∧
      q.j = p.j.map (fun y => { y with opened := y.opened.filter fun f => decide (f ∉ out), arrived := y.arrived.filter fun a => decide (a.1 ∉ out) }) ∧
      q.pendLoads = p.pendLoads.filter (fun l => decide (l.owner ∉ out)) ∧
      (∀ pid, pid ≠ iss.pid → t.plot? pid = s.plot? pid) ∧ t.mem = s.mem ∧ t.tags = s.tags ∧ t.issuing = none) ∧
  ((∀ (x : FmtE1) s iss p f served, Alone s iss p f → s.unlocked iss p { codes := [x.a.toNat] } → p.system = true → p.handler = some served →
    (∀ y ∈ p.c, y.insts = []) → (∀ y ∈ p.j, y = .empty) →
    ∃ t : State, t.fibre? iss.pid f.fid = none ∧ t.mem = s.mem ∧ (∀ pid, pid ≠ iss.pid → t.plot? pid = s.plot? pid) ∧
      exec (.eret x) s = .next ((if (readReg p f x.a.toNat).toNat % 4 = 3 then t else t.freeHandler p.core).applyAction served
        ((readReg p f x.a.toNat).toNat % 4) (frameAddr p.core))) ∧
  (∀ (x : FmtE1) s iss p f, Alone s iss p f → s.unlocked iss p { codes := [x.a.toNat] } → p.system = true → p.handler = none →
    (∀ y ∈ p.c, y.insts = []) →
    ∃ t, exec (.eret x) s = .next t ∧ LaneEnd s t iss 0 [(f.fid, .precise .illop iss.pc)] ∧ Becomes t iss f.fid f) ∧
  (∀ (x : FmtE1) s iss p f, Alone s iss p f → p.system = false → p.handler = none →
    ∃ t, exec (.eret x) s = .next t ∧ LaneEnd s t iss 0 [(f.fid, .precise .priv iss.pc)] ∧ Becomes t iss f.fid f))

/-! ### Barriers (R307, R308, R361 to R363) -/

/-- BARA, BARW and BART complete on the barrier that they name. BARA, after its fibre's earlier accesses and where the way to the barrier's core is
open, arrives, adding the bytes it expects, and answers the phase (R215, R226, R460); BARW goes
on past a completed phase and parks in the current one; BART answers whether the phase is complete. A fibre waits for its own BARINIT
first (R309, R361, R362). -/
def Obligations.BarrierWords : Prop :=
  let word (g : BitVec 3) (p : Option Pfx) (codes dst : List Nat) : LaneWord :=
    { guard := g.toNat, size := Machine.sizeOf p, codes := codes ++ barA p, dst := dst }
  let target (c : IssueCtx) (s : State) (f : Fibre) (p : Option Pfx) (a : BitVec 7) (waits : Bool) (go : BarLoc → Nat → Turn) : Turn :=
    match barTarget c s f p (readReg c.p f a.toNat).toNat waits with
    | .error r => .raise s f r
    | .ok (.own o, at_) => if s.barinitPending c.p f.fid o then .park s f (.ownBarinit o) else go (.own o) at_
    | .ok (.core ctx obj o, at_) => go (.core ctx obj o) at_
  let barx (c : IssueCtx) (s : State) (f : Fibre) : BarLoc → Turn
    | .own o => .raise s f (.access .barx c.iss.pc 0 o 3)
    | .core _ obj o => .raise s f (.access .barx c.iss.pc obj o 3)
  (∀ x : FmtR, Serves (.bara x) (word x.g x.p [x.a.toNat, x.b.toNat] [x.d.toNat]) fun c s f =>
    target c s f x.p x.a false fun l a =>
      if s.quiet c.p.pid f.fid = false then .again s f .quiet
      else if s.wayOpen (dieOf c.p.core) (dieOf (sramCore a)) = false then .again s f .way
      else
        match s.barArrive a (readReg c.p f x.b.toNat).toNat with
        | none => barx c s f l
        | some r => .next c r.1 (f.setV x.d.toNat (BitVec.ofNat 32 r.2))) ∧
  (∀ x : FmtRW, Serves (.barw x) (word x.g x.p [x.a.toNat, x.b.toNat] []) fun c s f =>
    target c s f x.p x.a true fun l a =>
      let phase := (readReg c.p f x.b.toNat).toNat % 2
      if (s.barrier a).tag ≠ 0xB then barx c s f l
      else if (s.barrier a).ph ≠ phase then .next c s f else .park s f (.barw l phase c.size)) ∧
  (∀ x : FmtR, Serves (.bart x) (word x.g x.p [x.a.toNat, x.b.toNat] [x.d.toNat]) fun c s f =>
    target c s f x.p x.a true fun l a =>
      if (s.barrier a).tag ≠ 0xB then barx c s f l
      else .next c s (f.setV x.d.toNat (if (s.barrier a).ph ≠ (readReg c.p f x.b.toNat).toNat % 2 then 1 else 0)))

/-- An arrival at a barrier counts one, adds its expected bytes, and belongs to the current phase; the phase completes, its count back at zero,
when every arrival is in and no byte is pending; a full phase, a bad tag or too many bytes is BARX (R308, R362). -/
def Obligations.BarrierArrival : Prop :=
  ∀ (s : State) (a n : Nat), s.MemOk →
    let b := s.barrier a
    ((b.tag ≠ 0xB ∨ b.arr = b.exp ∨ 2 ^ 35 ≤ b.pend + n) → s.barArrive a n = none) ∧
    (b.tag = 0xB → b.arr ≠ b.exp → b.pend + n < 2 ^ 35 → ∃ t, s.barArrive a n = some (t, b.ph) ∧
      t.barrier a = (if (b.arr + 1) % 2048 = b.exp ∧ b.pend + n = 0 then { b with ph := 1 - b.ph, arr := 0, pend := 0 }
        else { b with arr := (b.arr + 1) % 2048, pend := b.pend + n }) ∧
      ∀ z, z < a ∨ a + 16 ≤ z → Memory.read t.mem z = Memory.read s.mem z)

/-! ### Uniform words (R44 to R49, R366 to R370) -/

/-- The uniform ALU words complete: each member that issues one signs it, and the pipe executes it on the plot's k registers and puts the result
for k[D] on its way, SA the only flag; UCNAR derives a capability for b[D]. The execution is stated for a set of one member (R45, R115, R366 to
R368). -/
def Obligations.UniformAluWords : Prop :=
  (∀ x : FmtUR, UniformAlu (urWord x []) (.uadd x) x.d fun p => exactInt (pSat x.p) ((p.kreg x.a.toNat).toInt + (p.kreg x.b.toNat).toInt)) ∧
  (∀ x : FmtUR, UniformAlu (urWord x []) (.usub x) x.d fun p => exactInt (pSat x.p) ((p.kreg x.a.toNat).toInt - (p.kreg x.b.toNat).toInt)) ∧
  (∀ x : FmtUR, UniformAlu (urWord x []) (.umul x) x.d fun p => exactInt (pSat x.p) ((p.kreg x.a.toNat).toInt * (p.kreg x.b.toNat).toInt)) ∧
  (∀ x : FmtUR, let c := if pC x.p = 0 then x.d.toNat else pC x.p - 96
    UniformAlu (urWord x [c]) (.umad x) x.d fun p =>
      exactInt (pSat x.p) ((p.kreg x.a.toNat).toInt * (p.kreg x.b.toNat).toInt + (p.kreg c).toInt)) ∧
  (∀ x : FmtUR, UniformAlu (urWord x []) (.uand x) x.d fun p => (p.kreg x.a.toNat &&& p.kreg x.b.toNat, 0)) ∧
  (∀ x : FmtUR, UniformAlu (urWord x []) (.uor x) x.d fun p => (p.kreg x.a.toNat ||| p.kreg x.b.toNat, 0)) ∧
  (∀ x : FmtUR, UniformAlu (urWord x []) (.uxor x) x.d fun p => (p.kreg x.a.toNat ^^^ p.kreg x.b.toNat, 0)) ∧
  (∀ x : FmtUR, UniformAlu (urWord x []) (.ushl x) x.d fun p =>
    (BitVec.ofNat 32 ((p.kreg x.a.toNat).toNat * 2 ^ ((p.kreg x.b.toNat).toNat % 256)), 0)) ∧
  (∀ x : FmtUR, UniformAlu (urWord x []) (.ushr x) x.d fun p =>
    (BitVec.ofNat 32 ((p.kreg x.a.toNat).toNat / 2 ^ ((p.kreg x.b.toNat).toNat % 256)), 0)) ∧
  (∀ x : FmtUM, UniformAlu { cv := x.cv.toNat, size := Machine.sizeOf x.p, ks := [x.a.toNat, x.b.toNat] } (.umin x) x.d fun p =>
    let a := p.kreg x.a.toNat
    let b := p.kreg x.b.toNat
    (if x.u = 1 then (if a.toNat ≤ b.toNat then a else b) else if a.toInt ≤ b.toInt then a else b, 0)) ∧
  (∀ x : FmtUM, UniformAlu { cv := x.cv.toNat, size := Machine.sizeOf x.p, ks := [x.a.toNat, x.b.toNat] } (.umax x) x.d fun p =>
    let a := p.kreg x.a.toNat
    let b := p.kreg x.b.toNat
    (if x.u = 1 then (if a.toNat ≤ b.toNat then b else a) else if a.toInt ≤ b.toInt then b else a, 0)) ∧
  (∀ x : FmtU2, UniformAlu { cv := x.cv.toNat, size := Machine.sizeOf x.p, ks := [x.a.toNat] } (.umov x) x.d fun p => (p.kreg x.a.toNat, 0)) ∧
  (∀ x : FmtUF, UniformAlu { cv := x.cv.toNat, size := Machine.sizeOf x.p, ks := [x.a.toNat, x.b.toNat] } (.ucmp x) x.d fun p =>
    let a := p.kreg x.a.toNat
    let b := p.kreg x.b.toNat
    let holds := match x.f.toNat with
      | 0 => decide (a = b)
      | 1 => decide (a ≠ b)
      | 2 => decide (a.toInt < b.toInt)
      | 3 => decide (a.toInt ≤ b.toInt)
      | 4 => decide (a.toNat < b.toNat)
      | _ => decide (a.toNat ≤ b.toNat)
    (if holds then 1 else 0, 0)) ∧
  (∀ x : FmtUR, UniformAlu (urWord x [x.d.toNat]) (.usel x) x.d fun p =>
    (if p.kreg x.d.toNat = 0 then p.kreg x.b.toNat else p.kreg x.a.toNat, 0)) ∧
  (∀ x : FmtUI, UniformAlu (uiWord x) (.uaddUi x) x.d fun p => (p.kreg x.d.toNat + BitVec.ofInt 32 (simm x.p 15 x.imm.toNat), 0)) ∧
  (∀ x : FmtUI, UniformAlu (uiWord x) (.uandUi x) x.d fun p => (p.kreg x.d.toNat &&& BitVec.ofNat 32 (pImmx x.p * 2 ^ 15 + x.imm.toNat), 0)) ∧
  (∀ x : FmtUI, UniformAlu (uiWord x) (.uorUi x) x.d fun p => (p.kreg x.d.toNat ||| BitVec.ofNat 32 (pImmx x.p * 2 ^ 15 + x.imm.toNat), 0)) ∧
  (∀ x : FmtUI, UniformAlu (uiWord x) (.ushlUi x) x.d fun p =>
    (if pImmx x.p * 2 ^ 15 + x.imm.toNat < 32 then p.kreg x.d.toNat <<< (pImmx x.p * 2 ^ 15 + x.imm.toNat) else 0, 0)) ∧
  (∀ x : FmtUI, UniformAlu (uiWord x) (.ushrUi x) x.d fun p =>
    (if pImmx x.p * 2 ^ 15 + x.imm.toNat < 32 then p.kreg x.d.toNat >>> (pImmx x.p * 2 ^ 15 + x.imm.toNat) else 0, 0)) ∧
  (∀ x : FmtUI, UniformAlu { cv := x.cv.toNat, size := Machine.sizeOf x.p } (.umovi x) x.d fun _ =>
    (BitVec.ofInt 32 (simm x.p 15 x.imm.toNat), 0)) ∧
  (∀ x : FmtUN, Executes (.ucnar x) { cv := x.cv.toNat, size := Machine.sizeOf x.p, ks := codesFrom x.b.toNat 4, bs := [x.ba.toNat] } fun _ P S =>
    let c := P.breg x.ba.toNat
    let off := (P.kreg x.b.toNat).toNat + 2 ^ 32 * ((P.kreg (x.b.toNat + 1)).toNat % 256)
    let len := (P.kreg (x.b.toNat + 2)).toNat + 2 ^ 32 * ((P.kreg (x.b.toNat + 3)).toNat % 256)
    .done S (.b P.pid x.bd.toNat (Cap.make c.obj (c.base + off) len (c.rights &&& (P.kreg (x.b.toNat + 3)).toNat / 2 ^ 16) c.kind
      (c.tag && decide (off + len ≤ c.len)))))

/-- The engine commands complete: each member signs and takes a count of its class, and the execution queues a command for the matrix engine or
the wain engine with the descriptor of its k registers. The execution is stated for a set of one member (R162 to R168, R300, R301). -/
def Obligations.EngineCommands : Prop :=
  (∀ x : FmtEL,
    let w := engineWord x.cv x.kd (if x.glob = 1 then [x.bs.toNat] else []) .engine (x.glob == 1)
    EngineCommand w (.sbld x) x.kd (some x.bs) none ∧ EngineCommand w (.mtab x) x.kd (some x.bs) none ∧
      EngineCommand w (.mbias x) x.kd (some x.bs) none) ∧
  (∀ x : FmtER, EngineCommand (engineWord x.cv x.kd [] .engine false) (.mmrun x) x.kd none none) ∧
  (∀ x : FmtEO, EngineCommand (engineWord x.cv x.kd [] .engine false) (.mmout x) x.kd none none) ∧
  (∀ x : FmtXS,
    let w := engineWord x.cv x.kd [x.bs.toNat] .copies true
    EngineCommand w (.copyGs x) x.kd (some x.bs) none ∧ EngineCommand w (.tcopyGs x) x.kd (some x.bs) none ∧
      EngineCommand w (.copypIn x) x.kd (some x.bs) none) ∧
  (∀ x : FmtXD,
    let w := engineWord x.cv x.kd [x.bd.toNat] .copies true
    EngineCommand w (.copySg x) x.kd none (some x.bd) ∧ EngineCommand w (.tcopySg x) x.kd none (some x.bd) ∧
      EngineCommand w (.copypOut x) x.kd none (some x.bd)) ∧
  (∀ x : FmtXB, EngineCommand (engineWord x.cv x.kd [x.bs.toNat, x.bd.toNat] .copies true) (.copyGg x) x.kd (some x.bs) (some x.bd)) ∧
  (∀ x : FmtXN, EngineCommand (engineWord x.cv x.kd [] .copies true) (.coll x) x.kd none none) ∧
  (∀ x : FmtXI, EngineCommand (engineWord x.cv x.kd [] .copies true) (.barinit x) x.kd none none)

/-- The words that launch and that take and return layers complete, each member signing. SOW waits for its signers' accesses, checks its record and
answers a status, launching the child under 0; LDLAYER tests its layer's residency word after an acquire: it answers the layer's weight capability
once the layer is resident, counting the reference, else parks until the word reaches a value, asking once for the swap-in; RELLAYER gives the
reference back, releasing the core's writes first. The execution is stated for a set of one member (R369, R370, R451 to R454). The words of system
software that mint and manage objects complete at system level. MINT makes the capability of its four k registers where the object's entry allows
it, else raises the first fault of its checks; SEAL, OBJINV, MIGR, BIAS and UNPUBL answer the lowest status that applies, and have their effect under
status 0 (R398, R401, R402, R406 to R410). MIGR of object 0 answers 3 and BIAS of object 0 answers 10 by the model's choice (log entry 48), and a
MIGR to a CORE page that waits for room in the scratchpad is its choice too (log entry 51). -/
def Obligations.ObjectWords : Prop :=
  ((∀ x : FmtXW, Executes (.sow x) { cv := x.cv.toNat, ks := codesFrom (4 * x.kd.toNat) 3, bs := [x.bs.toNat], commits := true } fun I P S =>
    let k (n : Nat) : Nat := (P.kreg (4 * x.kd.toNat + n)).toNat
    let b := P.breg x.bs.toNat
    let fault (T : State) (e : FaultCode) (o y acc : Nat) : UniEffect := .done (T.raise P.pid (I.firstSigner % 1024) (.late e I.pc o y acc 3)) .none
    let status (n : Nat) (T : State) : UniEffect := .done T (.k (4 * x.kd.toNat + 3) (BitVec.ofNat 32 n))
    let depth := ((S.fieldOf P).map (·.depth)).getD 0
    if S.signersQuiet P I = false then .hold
    else
      match b.check (k 0 + 2 ^ 32 * (k 1 % 256)) 256 (rightR + rightC) 256 [0] with
      | .error e => fault S e b.obj (b.faultOff (k 0 + 2 ^ 32 * (k 1 % 256)) e) 5
      | .ok (o, y) =>
        if k 1 / 256 ≠ 0 ∨ k 2 ≠ 0 then fault S .illop 0 0 0
        else if 10 ≤ depth then fault S .nest 0 0 0
        else if S.globalOpen P o [(y, 256)] = false then .hold
        else
          match S.port (dieOf P.core) P.ctx P.system b.kind o (rightR + rightC) y with
          | .error e => fault S e o y 5
          | .ok _ =>
            let T := ((linesOf y 256).foldl (fun T l => T.ownBack P.core ⟨P.ctx, o, l.1 / 128, 0⟩) S).readyLines P.ctx o y 256
            if T.objPoisoned P.ctx o y 256 = true then fault T .poison o (T.objPoisonOff P.ctx o y 256) 5
            else
              match T.refusal P.ctx (T.readRecord P.ctx o y) with
              | some n => status n T
              | none =>
                if 1024 ≤ T.fields.countP (fun f => f.parent.isSome && f.eligible.isNone) then status 16 T
                else
                  let U := ((T.commit P.pid).flushCore P.core).bumpEpoch P.core
                  status 0 (U.addField P.ctx (T.readRecord P.ctx o y) P.system (depth + 1) ((U.fieldOf P).map fun f => (f.ctx, f.fld)))) ∧
  (∀ x : FmtLY, Executes (.ldlayer x) { cv := x.cv.toNat, ks := [x.a.toNat], bs := [x.bs.toNat], parks := true } (uniEffect (.ldlayer x)) ∧
    (∀ I P S e, S.layerOf x P I = .error e → uniEffect (.ldlayer x) I P S =
      .done (S.raise P.pid (I.firstSigner % 1024) (.late e.code I.pc e.obj e.off e.acc 3))
        (if e.code = .layx then .b P.pid x.bd.toNat { P.breg x.bd.toNat with tag := false } else .none)) ∧
    (∀ (P : Plot) (S : State) e, S.layerCheck P x.a.toNat (P.breg x.bs.toNat) = .error e → e.code = .layx →
      (e.obj, e.off, e.acc) = ((P.breg x.bs.toNat).obj, 8 * ((P.kreg x.a.toNat).toNat % 4096), 1)) ∧
    (∀ I P S k l e, S.layerOf x P I = .ok (k, l) → S.testWord P k l = .error e →
      uniEffect (.ldlayer x) I P S = .done (S.raise P.pid (I.firstSigner % 1024) (.late e I.pc k.table (8 * l) 1 3)) .none) ∧
    ∀ I P S k l w, S.layerOf x P I = .ok (k, l) → S.testWord P k l = .ok w →
      let go := uniEffect (.ldlayer x) I P S
      let T := S.acquireLine P.core ⟨P.ctx, k.table, l / 16, dieOf P.core + 1⟩
      let parks (U : State) (retried : Bool) (thr : Nat) : UniEffect := .later (U.parkLayer P.pid x.cv.toNat I.num retried ⟨k.num, l, thr⟩)
      ((S.countOpen P.core = false ∨ ∃ z, I.park = some z ∧ w < z.thr) → go = .later S) ∧
      (S.countOpen P.core = true → (∀ z, I.park = some z → z.thr ≤ w) →
        (w % 4 = 0 → go = parks (T.askSwap P.ctx k l (w / 4)) I.retried (4 * (w / 4) + 2)) ∧
        (w % 4 = 1 → go = parks T I.retried (4 * (w / 4) + 2)) ∧
        (w % 4 = 3 → x.rt = 1 → I.retried = false → go = parks (T.askSwap P.ctx k l (w / 4 + 1)) true (4 * (w / 4 + 1) + 2)) ∧
        (w % 4 = 3 → ¬(x.rt = 1 ∧ I.retried = false) →
          go = .later (T.raise P.pid (I.firstSigner % 1024) (.late .swapf I.pc k.table (8 * l) 1 3))) ∧
        (w % 4 = 2 → ∀ gen out n, T.countWord P.ctx k.count l = (gen, out, n) →
          (¬(gen = w / 4 % 2 ^ 32 ∧ out = false) → go = parks T I.retried (4 * (w / 4 + 1))) ∧
          (gen = w / 4 % 2 ^ 32 → out = false →
            (addRef (T.refPlot P).layers k.num l = none →
              go = .done (T.raise P.pid (I.firstSigner % 1024) (.late .layx I.pc k.table (8 * l) 1 3))
                (.b P.pid x.bd.toNat { P.breg x.bd.toNat with tag := false })) ∧
            ∀ refs, addRef (T.refPlot P).layers k.num l = some refs →
              let U := (T.setCount P.ctx k.count l gen false (n + 1)).modPlot (T.refPlot P).pid fun q => { q with layers := refs }
              go = .done U (.b P.pid x.bd.toNat (U.weightCap P.ctx k l)))))) ∧
  (∀ x : FmtLZ, Executes (.rellayer x) { cv := x.cv.toNat, ks := [x.a.toNat], bs := [x.bs.toNat, x.bd.toNat] } (uniEffect (.rellayer x)) ∧
    ∀ I P S, let go := uniEffect (.rellayer x) I P S
      ((S.signersQuiet P I = false ∨ S.countOpen P.core = false) → go = .hold) ∧
      (S.signersQuiet P I = true → S.countOpen P.core = true →
        (∀ e, S.layerCheck P x.a.toNat (P.breg x.bs.toNat) = .error e →
          go = .done (S.raise P.pid (I.firstSigner % 1024) (.late e.code I.pc e.obj e.off e.acc 3)) .none) ∧
        ∀ k l, S.layerCheck P x.a.toNat (P.breg x.bs.toNat) = .ok (k, l) →
          let b := P.breg x.bd.toNat
          let layx : UniEffect := .done (S.raise P.pid (I.firstSigner % 1024) (.late .layx I.pc k.table (8 * l) 1 3)) .none
          (dropRef (S.refPlot P).layers k.num l = none → go = layx) ∧
          ∀ refs h, dropRef (S.refPlot P).layers k.num l = some refs → k.layers[l]? = some h →
            ((b.tag = false ∨ b.obj ≠ h.obj) → go = layx) ∧
            (b.tag = true → b.obj = h.obj → go =
              .done ((((S.flushCore P.core).bumpEpoch P.core).lowerCount P.ctx k l 1).modPlot (S.refPlot P).pid fun q => { q with layers := refs })
                (.b P.pid x.bd.toNat { b with tag := false }))))) ∧
  ((∀ x : FmtMI, Executes (.mint x) { cv := x.cv.toNat, ks := codesFrom (4 * x.ka.toNat) 4, privileged := true } fun I P S =>
    let c : Cap := ⟨P.kreg (4 * x.ka.toNat + 3) ++ (P.kreg (4 * x.ka.toNat + 2) ++ (P.kreg (4 * x.ka.toNat + 1) ++ P.kreg (4 * x.ka.toNat))), true⟩
    let fault (e : FaultCode) : UniEffect := .done (S.raise P.pid (I.firstSigner % 1024) (.late e I.pc c.obj c.base 0 3)) .none
    if (x.t = 1 ∧ P.handler = none) ∨ c.bits.extractLsb' 18 6 ≠ 0 ∨ c.bits.extractLsb' 0 4 ≠ 0 then fault .illop
    else
      match (S.ctx? P.ctx).bind fun k => S.entry? k c.obj with
      | none => fault .objx
      | some e =>
        if c.kind ≠ e.kind ∨ rightsWithin c.rights e.ceiling = false then fault .capr
        else if 65536 * e.npages < c.base + c.len then fault .capb
        else .done S (.b (if x.t = 1 then P.handler.getD P.pid else P.pid) x.bd.toNat c)) ∧
  (∀ x : FmtSL, Executes (.seal x) { cv := x.cv.toNat, bs := [x.bs.toNat], privileged := true } fun I P S =>
    let b := P.breg x.bs.toNat
    match (S.ctx? P.ctx).bind fun k => (S.entry? k b.obj).map fun e => (k, e) with
    | none => .done S (.k x.d.toNat 1)
    | some (k, e) =>
      let mine (l : L1Line) : Bool := l.ctx == P.ctx && (l.obj == 0 || (l.obj == b.obj && e.kind == 1 && !e.sealed))
      let pages (T : State) : UniEffect := .done (if e.kind = 1 then T.pagesToX k b.obj e else T) (.k x.d.toNat 0)
      let shut := e.kind = 1 ∧ ∃ pg < e.npages, (S.desc k b.obj e pg).wx ≠ 1 ∧ S.migrating P.ctx b.obj pg = true
      if b.tag = false ∨ b.rights.testBit 6 = false ∨ b.kind ≠ e.kind then .done S (.k x.d.toNat 9)
      else if S.backOpen P.core mine = false then .hold
      else if I.retried = true then if shut then .later S else pages S
      else if e.sealed = true then .done ((S.writeBackWhere P.core mine).objinv P.core P.ctx b.obj) (.k x.d.toNat 0)
      else
        let T := ((S.writeBackWhere P.core mine).sealEntry k b.obj).objinv P.core P.ctx b.obj
        if shut then .later (T.noteBegun P.pid x.cv.toNat I.num) else pages T) ∧
  (∀ x : FmtOB, Executes (.objinv x) { cv := x.cv.toNat, ks := [x.a.toNat], privileged := true } fun _ P S =>
    let obj := (P.kreg x.a.toNat).toNat % 2 ^ 24
    let T := S.objinv P.core P.ctx obj
    if S.backOpen P.core (fun l => l.ctx == P.ctx && l.obj == 0) = false then .hold
    else .done T (.k x.d.toNat (if ∃ k, T.ctx? P.ctx = some k ∧ (T.entry? k obj).isSome = true then 0 else 1))) ∧
  (∀ x : FmtOQ, Executes (.migr x) { cv := x.cv.toNat, ks := codesFrom (4 * x.ka.toNat) 4, privileged := true } fun _ P S =>
    let obj := (P.kreg (4 * x.ka.toNat)).toNat % 2 ^ 24
    let page := (P.kreg (4 * x.ka.toNat + 1)).toNat
    let bits := P.kreg (4 * x.ka.toNat + 3) ++ P.kreg (4 * x.ka.toNat + 2)
    let new := PageDesc.ofNat bits.toNat
    match (S.ctx? P.ctx).bind fun k => (S.entry? k obj).map fun e => (e, S.desc k obj e page) with
    | none => .done S (.k x.d.toNat 1)
    | some (e, old) =>
      if e.npages ≤ page then .done S (.k x.d.toNat 2)
      else if e.kind = 1 ∧ old.wx = 2 then .later S
      else if obj = 0 ∨ new.ok = false ∨ new.bias ≠ old.bias ∨ new.wx ≠ old.wx ∨ new.res ≠ old.res then .done S (.k x.d.toNat 3)
      else if new.home = 2 ∧ ¬(old.home = 2 ∧ old.pchan = new.pchan) ∧ S.sliceFull e new.pchan = true then .done S (.k x.d.toNat 4)
      else if e.lattice = true ∧ (new.replica 0).res = 0 ∧ new.res = 1 then .done S (.k x.d.toNat 5)
      else if old.res = 0 ∨ old.ok = false then .done S (.k x.d.toNat 6)
      else if S.migrating P.ctx obj page = true ∨ 8 ≤ S.migrationsOf old.die then .done S (.k x.d.toNat 7)
      else if new.home = 3 ∧ S.roomForPage new.core (new.frame % 8) = false then .later S
      else
        let R := if new.home = 3 then S.clearRegion new.core (new.frame % 8) else S
        let T := R.setDesc P.ctx obj page fun d => { d with mig := 1 }
        .done (State.pinTo { T with migrations := T.migrations ++ [{ ctx := P.ctx, obj := obj, page := page, newDesc := bits, p := 0 }] } e new)
          (.k x.d.toNat 0)) ∧
  (∀ x : FmtOE,
    let w : UniWord := { cv := x.cv.toNat, ks := codesFrom (2 * x.kp.toNat) 2, privileged := true }
    let obj (P : Plot) : Nat := (P.kreg (2 * x.kp.toNat)).toNat % 2 ^ 24
    let page (P : Plot) : Nat := (P.kreg (2 * x.kp.toNat + 1)).toNat
    (Executes (.biasD x) w fun _ P S =>
      match S.biasStatus P (obj P) (page P) false with
      | some n => .done S (.k x.d.toNat n)
      | none => .done (S.setDesc P.ctx (obj P) (page P) fun d => { d with bias := 0 }) (.k x.d.toNat 0)) ∧
    (Executes (.biasH x) w fun _ P S =>
      match S.biasStatus P (obj P) (page P) true with
      | some n => .done S (.k x.d.toNat n)
      | none =>
        if S.holdersOpen S.owners P.ctx (obj P) (page P) = false then .hold
        else
          .done (((S.recallPage P.ctx (obj P) (page P)).sendDrops P.ctx (obj P) (some (page P))).setDesc P.ctx (obj P) (page P) fun d => { d with bias := 1 })
            (.k x.d.toNat 0)) ∧
    ∀ (S : State) P o n host, S.biasStatus P o n host = match (S.ctx? P.ctx).bind fun k => (S.entry? k o).map fun e => (e, S.desc k o e n) with
      | none => some 1
      | some (e, d) =>
        if e.npages ≤ n then some 2
        else if e.lattice = true ∧ host = true then some 5
        else if d.res = 0 ∨ d.ok = false then some 6
        else if S.migrating P.ctx o n = true ∨ 8 ≤ S.migrationsOf d.die then some 7
        else if o = 0 ∨ d.home = 3 ∨ d.place = 3 then some 10
        else none) ∧
  (∀ x : FmtOQ, Executes (.unpubl x) { cv := x.cv.toNat, ks := codesFrom (4 * x.ka.toNat) 4, privileged := true } (uniEffect (.unpubl x)) ∧
    ∀ I (P : Plot) (S : State), let obj := (P.kreg (4 * x.ka.toNat)).toNat % 2 ^ 24
      let first := (P.kreg (4 * x.ka.toNat + 1)).toNat
      let count := (P.kreg (4 * x.ka.toNat + 2)).toNat % 2 ^ 24
      match (S.ctx? P.ctx).bind fun k => S.entry? k obj with
      | none => uniEffect (.unpubl x) I P S = .done S (.k x.d.toNat 1)
      | some e =>
        if e.npages < first + count then uniEffect (.unpubl x) I P S = .done S (.k x.d.toNat 2)
        else if e.sealed = true then uniEffect (.unpubl x) I P S = .done S (.k x.d.toNat 8)
        else if e.kind ≠ 1 then uniEffect (.unpubl x) I P S = .done S (.k x.d.toNat 11)
        else S.publishes = [] → S.readers = [] →
          uniEffect (.unpubl x) I P S = .done (S.withdraw P.ctx obj ((List.range count).map (· + first))) (.k x.d.toNat 0)))

/-- Signing: a fibre that is no member raises BARX; one signs a set that is not closed, or a fifth open instance, only after parking; a second
address in one instance is UMIS; else its signature joins the instance of its number, or opens it for the set's members. SIGN completes, each
member signing neutrally. The pipe executes, of the complete instances that are their set's lowest, the one longest complete, then of the lowest
set; one that it holds keeps its place and nothing behind it executes, while executions that have begun go on (log entry 49). An executed instance
whose time has come writes its register and completes (R44 to R49, R359, R360, R366). -/
def Obligations.SigningAndCompletion : Prop :=
  (∀ (p : Plot) (f : Fibre) cv code pc size, f.fid ∉ p.membersOf cv → p.sign f cv code pc size = .barx) ∧
  (∀ (p : Plot) (f : Fibre) cv code pc size, f.fid ∈ p.membersOf cv →
    (cv ≠ 0 ∧ (p.cset cv).closed = false → p.sign f cv code pc size = .park (.setClose cv)) ∧
    ((cv = 0 ∨ (p.cset cv).closed = true) → 4 ≤ seqAhead (f.seqOf cv) (p.cset cv).low → p.sign f cv code pc size = .park (.openLimit cv)) ∧
    ((cv = 0 ∨ (p.cset cv).closed = true) → seqAhead (f.seqOf cv) (p.cset cv).low < 4 → (∀ i ∈ (p.cset cv).insts, i.num ≠ f.seqOf cv) →
      ∃ x, p.sign f cv code pc size = .signed x (f.seqOf cv) ∧ x.insts = (p.cset cv).insts ++
        [⟨f.seqOf cv, code, pc, size, [⟨f.fid, code.isNone⟩], p.membersOf cv, false, false, false, none⟩]) ∧
    ((cv = 0 ∨ (p.cset cv).closed = true) → seqAhead (f.seqOf cv) (p.cset cv).low < 4 →
      ∀ i, (p.cset cv).insts.find? (fun j => j.num == f.seqOf cv) = some i → code.isSome = true → i.code.isSome = true → i.pc ≠ pc →
        p.sign f cv code pc size = .umis)) ∧
  (∀ x : FmtSG0, Serves (.sign x) { guard := x.g.toNat } (signTurn { cv := x.cset.toNat } none)) ∧
  (∀ (s : State) core, s.pipeDue core = true →
    let t := ((s.plots.filter fun p => p.core == core).map (·.pid)).foldl State.completeInsts s
    let u := (s.stalled core).foldl (fun t q => (t.runInst q.1 q.2.1 q.2.2).getD t) t
    (u.pipeNext core = none → exec (.uniformPipeExecute core) s = .next u) ∧
    ∀ q, u.pipeNext core = some q →
      (u.runInst q.pid q.cset q.num = none → exec (.uniformPipeExecute core) s = .next u) ∧
      ∀ v, u.runInst q.pid q.cset q.num = some v →
        exec (.uniformPipeExecute core) s = .next (v.modCore core fun k => { k with pipeWait := k.pipeWait.filter fun r => r != q })) ∧
  (∀ (t : State) core q, t.pipeNext core = some q → q ∈ (t.core core).pipeWait ∧ t.lowest q = true ∧
    ∀ r ∈ (t.core core).pipeWait, t.lowest r = true → q.cset < 8 → r.cset < 8 → (t.plot? q.pid).isSome = true → (t.plot? r.pid).isSome = true →
      (∀ p ∈ t.plots, p.prio ≤ 8 ∧ p.order < 2 ^ 64) → q.since < r.since ∨ q.since = r.since ∧ q.cset ≤ r.cset) ∧
  (∀ (s : State) core r p, (s.core core).results.find? (fun r => decide (r.due ≤ s.cycOf core)) = some r → s.plot? r.pid = some p →
    ∃ t q, exec (.uniformResultWrite core) s = .next t ∧ t.plot? r.pid = some q ∧ (t.core core).results = (s.core core).results.erase r ∧
      t.mem = s.mem ∧ (∀ i ∈ (q.cset r.cset).insts, i.num ≠ r.num) ∧
      match r.dest with
      | .k n v => q.k = p.k.set n v ∧ q.b = p.b
      | .b o n c => q.k = p.k ∧ ∀ P, s.plot? o = some P → ∃ Q, t.plot? o = some Q ∧ Q.b = P.b.set n c
      | .none => q.k = p.k ∧ q.b = p.b)

/-! ### The part's own steps (R34 to R55, R123, R228, R254, R334) -/

/-- What has been obtained reaches its fibre. Finished lane flags join FLG; a load's answer writes its registers, frees a count of loads and
wakes who waits for one; an acknowledgement frees a count of stores; a fault that the port reports halts the plot (R123, R228, R254, R255, R414). -/
def Obligations.ResultsReachTheirFibres : Prop :=
  (∀ (s : State) pid p, s.plot? pid = some p → p.flgPend ≠ 0 → ∃ t, exec (.laneResultWrite pid) s = .next t ∧
    t.plot? pid = some { p with flg := p.flg ||| p.flgPend.setWidth 32, flgPend := 0 } ∧
    (∀ other, other ≠ pid → t.plot? other = s.plot? other) ∧ { t with plots := [] } = { s with plots := [] }) ∧
  (∀ (s : State) pid p l, s.plot? pid = some p → p.answer? = some l → ∃ t q, exec (.loadReturn pid) s = .next t ∧ t.plot? pid = some q ∧
    q.pendLoads = p.pendLoads.erase l ∧ (∀ fid, fid ≠ l.owner → q.fibre? fid = p.fibre? fid) ∧
    (∀ f, p.fibre? l.owner = some f →
      (∀ fid d vs, l = .regs fid d vs → q.fibre? fid = some { f.setVs d vs with loads := f.loads - 1 }) ∧
      (∀ fid d c, l = .cap fid d c → q.fibre? fid = some { f.setA d c with loads := f.loads - 1 }) ∧
      (∀ fid, l = .free fid → q.fibre? fid = some { f with loads := f.loads - 1 })) ∧
    (p.halt = none → ∀ g ∈ q.fibres, g.run = .parked (.counter .loads) → counterFull g .loads = false → ∃ r ∈ t.resumes, r.pid = pid ∧ r.fid = g.fid) ∧
    (∀ other, other ≠ pid → t.plot? other = s.plot? other) ∧ { t with plots := [], resumes := [] } = { s with plots := [], resumes := [] }) ∧
  (∀ (s : State) pid p fid, s.plot? pid = some p → p.ack? = some fid → ∃ t q, exec (.storeAcknowledge pid) s = .next t ∧ t.plot? pid = some q ∧
    q.pendStores = p.pendStores.erase (.done fid) ∧ (∀ o, o ≠ fid → q.fibre? o = p.fibre? o) ∧
    (∀ f, p.fibre? fid = some f → q.fibre? fid = some { f with stores := f.stores - 1 }) ∧
    (p.halt = none → ∀ g ∈ q.fibres, g.run = .parked (.counter .stores) → counterFull g .stores = false → ∃ r ∈ t.resumes, r.pid = pid ∧ r.fid = g.fid) ∧
    (∀ other, other ≠ pid → t.plot? other = s.plot? other) ∧ { t with plots := [], resumes := [] } = { s with plots := [], resumes := [] }) ∧
  (∀ (s : State) pid p fid r, s.plot? pid = some p → p.pendFault = some (fid, r) → ∃ t q, exec (.portFaultReport pid) s = .next t ∧
    t.plot? pid = some q ∧ q.halt.isSome = true ∧ q.pendLoads = p.pendLoads.erase (.fault fid r) ∧
    (∀ f, p.fibre? fid = some f → q.fibre? fid = some { f with loads := f.loads - 1 })) ∧
  (∀ (s : State) pid p fid counted r, s.plot? pid = some p → p.pendFault = none → p.pendStoreFault = some (fid, counted, r) →
    ∃ t q, exec (.portFaultReport pid) s = .next t ∧ t.plot? pid = some q ∧ q.halt.isSome = true ∧
      q.pendStores = p.pendStores.erase (.fault fid counted r) ∧
      (∀ f, p.fibre? fid = some f → q.fibre? fid = some { f with stores := if counted then f.stores - 1 else f.stores }))

/-- A furrow forms of the ready group that ranks first: at most 32 of its fibres, one a lane, in a free slot of the quadrant. A quadrant issues the
furrow that it chooses, the members at the lowest next PC; a woken fibre completes its own instruction alone. The fetch of an issue changes only
the instruction cache and the loop buffer of its core, the readers' registrations and a home's slice, where no home holds sums of a range that
the slice could write to their shadow. A fill wait, an age of 256 ccy, 64 ccy of being issuable, the end of what a furrow waits for and a bin's
timer have their effects; a ccy in which a furrow is not issuable, its quadrant's port taken among others, does not count. While its halt stops a
plot, what issues is what has begun, and the skid: in the fault cycle, or in the 4 ccy after it in a quadrant in which no fibre of the plot has
faulted, members without a precise fault (R34, R37 to R42, R49, R246, R298, R334, R414, R415). -/
def Obligations.FurrowsFormAndIssue : Prop :=
  (∀ (s : State) core quad n g, s.coreRuns core = true → quad < 4 → (s.core core).freeSlot (s.cycOf core) quad = some n →
    s.nextGroup core = some g → s.plot? g.plot.pid = some g.plot → ∃ t fu, exec (.formFurrow core quad) s = .next t ∧
      (t.core core).furrows = ((s.core core).dropFurrow quad n).furrows ++ [fu] ∧ (fu.core, fu.quad, fu.slot, fu.pid) = (core, quad, n, g.plot.pid) ∧
      fu.lanes.length = min 32 g.members.length ∧ fu.lanes.Pairwise (fun a b => a.1 < b.1) ∧ (∀ l ∈ fu.lanes, l.1 < 32) ∧
      (∀ l ∈ fu.lanes, ∃ f ∈ g.members, f.fid = l.2) ∧
      (∀ l ∈ fu.lanes, ∃ f, t.fibre? fu.pid l.2 = some f ∧ f.run = .inFurrow) ∧ t.mem = s.mem) ∧
  (∀ (s : State) pid pc g, s.group? pid pc = some g → s.fillDue g = true → ∃ t m, exec (.fillWaitExpiry pid pc) s = .next t ∧
    (t.core g.plot.core).mark? g = some m ∧ m.filled = true ∧ { t with cores := [] } = { s with cores := [] }) ∧
  (∀ (s : State) pid pc g, s.group? pid pc = some g → s.promoteDue g = true → ∃ t m, exec (.groupPromotion pid pc) s = .next t ∧
    (t.core g.plot.core).mark? g = some m ∧ m.promoted = true ∧ { t with cores := [] } = { s with cores := [] }) ∧
  (∀ (s : State) core r, s.nextResume core = some r → exec (.issueSelect core 4) s = .next (
    let t := { s with resumes := s.resumes.erase r }
    match s.loneIssue r with
    | some iss => { t.prefetch iss with issuing := some iss }
    | none => t)) ∧
  (∀ (s : State) core quad fu, quad < 4 → s.nextFurrow core quad = some fu → ∃ iss,
    exec (.issueSelect core quad) s = .next { s.prefetch iss with issuing := some iss } ∧
    (iss.pid, iss.core, iss.furrow) = (fu.pid, fu.core, some (fu.quad, fu.slot)) ∧
    iss.members ≠ [] ∧ (∀ q ∈ s.unparked fu, iss.pc.toNat ≤ q.2.pc.toNat) ∧
    ∀ m, m ∈ iss.members ↔ ∃ f, (m.1, f) ∈ s.unparked fu ∧ f.fid = m.2 ∧ f.pc = iss.pc) ∧
  (∀ (s : State) iss, s.sums = [] → { s.prefetch iss with cores := [], readers := [], l2 := [] } = { s with cores := [], readers := [], l2 := [] } ∧
    ∀ n, { (s.prefetch iss).core n with icache := [], loopBuf := [] } = { s.core n with icache := [], loopBuf := [] }) ∧
  (∀ (s : State) core quad fu new, fu ∈ (s.core core).furrows → fu.quad = quad →
    (((fu.waiting = none ∨ fu.waiting = some .ready) ∧
        ((s.issuable fu = true ∧ s.portFree fu.core fu.quad = true ∧ fu.promoted = false ∧ fu.since + 64 ≤ s.cycOf fu.core ∧
            new = { fu with promoted := true }) ∨
          ((s.issuable fu = false ∨ s.portFree fu.core fu.quad = false) ∧ fu.since ≤ s.cycOf fu.core ∧ fu.lanes ≠ [] ∧
            new = { fu with since := fu.since + 1 }))) ∨
      ∃ w, fu.waiting = some w ∧ w ≠ .ready ∧ s.waitOver fu.core fu.pid ((s.issueOf fu).members.map (·.2)) w = true ∧
        (w.begun = true ∨ ∀ p, s.plot? fu.pid = some p → p.halt = none) ∧
        new = { fu with since := s.cycOf fu.core, waiting := if w.begun = true then some .ready else none }) →
    ∃ t, exec (.furrowPromotion core quad) s = .next t ∧ new ∈ (t.core core).furrows ∧ { t with cores := [] } = { s with cores := [] } ∧
      ∀ n, { t.core n with furrows := [] } = { s.core n with furrows := [] }) ∧
  (∀ (s : State) core e, s.entering core = some e →
    exec (.binTimerExpiry core) s = .next ((s.modCore core fun k => { k with spawning := k.spawning.erase e }).enterBin core e.pid e.pc e.fid e.at_)) ∧
  (∀ (s : State) core b, s.entering core = none → s.binDue core = some b → ∃ t, exec (.binTimerExpiry core) s = .next t ∧
    (t.core core).bins = (s.core core).bins.filter (fun q => q.order != b.order) ∧
    ∀ fid ∈ b.fids, ∀ f, s.fibre? b.pid fid = some f → ∃ g, t.fibre? b.pid fid = some g ∧ g.pc = f.pc ∧ g.readyAt = s.cycOf core + 1 ∧
      (g.run = .ready (s.cycOf core + 1) ∨ g.run = .inFurrow)) ∧
  (∀ (p : Plot) h now (w : Option IssueWait) quad fids, p.halt = some h → h.phase = .stopping →
    (p.mayIssue now w (some quad) fids = true ↔ (∃ v, w = some v ∧ v.begun = true) ∨
      (now = h.fcyc ∨ now ≤ h.fcyc + 4 ∧ quad ∉ h.quads) ∧ ∀ f ∈ fids, ∀ r ∈ h.recs, r.1 = f → r.2.rpc = none)) ∧
  (∀ (s : State) fu p h, s.plot? fu.pid = some p → p.halt = some h → h.phase ≠ .stopping → s.issuable fu = false)

/-! ### The engines (R161 to R187, R300 to R314) -/

/-- The engines' steps. A waiting command enters its queue where it has room, those of a plot in their order; a matrix command claims a free engine and runs on its path, or
ends with its fault; the scratchpad port is granted, and freed with the path when the command completes; a wain command leaves its queue,
is checked, reads its bytes and runs, a COPY or COLL over a Yotis port that is down ending with POISON (which commands a port carries is free, log
entry 9); a piece lands its bytes; a collective's round goes to its result once the ways between its members are open
(R161, R162, R169, R187, R300, R306, R313, R463). -/
def Obligations.EnginesWork : Prop :=
  (∀ (s : State) core d, (s.core core).entry? = some d → (s.core core).roomFor d = true ∧
    (∃ l r, (s.core core).cmdWait = l ++ d :: r ∧ ∀ e ∈ l, e.pid ≠ d.pid) ∧ ∃ t, exec (.engineQueueEntry core) s = .next t ∧
    (t.core core).cmdWait = (s.core core).cmdWait.filter (fun e => e.order != d.order) ∧
    (t.core core).mat.queue = (s.core core).mat.queue ++ (if d.isMatrix then [{ d with order := s.nextOrder }] else []) ∧
    (t.core core).wainQueue = (s.core core).wainQueue ++ (if d.isMatrix then [] else [{ d with order := s.nextOrder }]) ∧
    t.nextOrder = s.nextOrder + 1 ∧ { t with cores := [], nextOrder := 0 } = { s with cores := [], nextOrder := 0 }) ∧
  (∀ (s : State) core d p, s.matrixStart? core = some d → s.plot? d.pid = some p →
    let e := (s.core core).reclaim.mat
    let st := if e.holder.isNone then .claimed else e.st
    let st' := match d.code with
      | .sbld _ => st.dropSlots (d.bits 1 13 2) (d.bits 1 8 5)
      | _ => st
    (matrixFault d p st = none → ∃ t, exec (.matrixCommandStart core) s = .next t ∧ (t.core core).mat.holder = some d.pid ∧
      (t.core core).mat.st = st' ∧ (t.core core).mat.queue = e.queue.filter (fun c => c.order != d.order) ∧
      (t.core core).mat.load = (if d.onLoad then some d else e.load) ∧ (t.core core).mat.compute = (if d.onLoad then e.compute else some d) ∧
      { t with cores := [] } = { s with cores := [] }) ∧
    (∀ f, matrixFault d p st = some f → ∃ t q, exec (.matrixCommandStart core) s = .next t ∧ t.plot? d.pid = some q ∧ q.halt.isSome = true ∧
      t.mem = s.mem)) ∧
  (∀ (s : State) core d, (s.core core).mat.waitsPort = some d → ∃ t, exec (.scratchpadPortGrant core) s = .next t ∧
    t.core core = { s.core core with mat := { (s.core core).mat with port := some d.order } } ∧ { t with cores := [] } = { s with cores := [] }) ∧
  (∀ (s : State) core d p, s.matrixDone? core = some d → s.plot? d.pid = some p → ∃ t, exec (.matrixCommandComplete core) s = .next t ∧
    (d.onLoad = true → (t.core core).mat.load = none) ∧ (d.onLoad = false → (t.core core).mat.compute = none) ∧
    (t.core core).mat.port ≠ some d.order) ∧
  (∀ (s : State) core d p, s.wainStart? core = some d → s.plot? d.pid = some p →
    let r := s.modCore core fun k => { k with wainQueue := k.wainQueue.filter fun c => c.order != d.order }
    exec (.wainCommandStart core) s = .next (r.startWain p d) ∧
    (∀ e, r.wainFault p d = some e → r.startWain p d = r.endWain p.core ⟨d, [], none, some (e.rec_ d), false, [], []⟩) ∧
    (r.wainFault p d = none →
      (r.yotisShut p d = true → r.startWain p d = r.endWain p.core ⟨d, [], none, some (.late .poison d.pc 0 0 5 d.unitNum), false, [], []⟩) ∧
      (∀ x, d.code = .barinit x → r.startWain p d =
        (r.testBarrier (scratchAddr p.core + p.sbase + d.bits 0 0 19) d.barrier).endWain p.core ⟨d, [], none, none, false, [], []⟩) ∧
      (r.yotisShut p d = false → d.form.dstGlobal = false → (∀ x, d.code ≠ .barinit x) → (∀ x, d.code ≠ .coll x) →
        ∀ t cells, r.readPieces p d = (t, cells, none) → cells ≠ [] → r.startWain p d =
          t.modCore p.core fun k => { k with wainRun := k.wainRun ++ [⟨d, cells.map fun c => ⟨pieceSize c, c⟩, d.barLoc p, none, false, [], []⟩] }))) ∧
  (∀ (s : State) core r, s.lands? core = some r → ∃ t, exec (.pieceLanded core) s = .next t ∧
    ∀ p n off bs rest, s.MemOk → s.plot? r.cmd.pid = some p → r.pieces = ⟨n, [(off, bs)]⟩ :: rest → r.bar = none → r.cmd.form.dstGlobal = false →
      (∀ i (h : i < bs.length), Memory.read t.mem (scratchAddr p.core + p.sbase + off + i) = bs[i]) ∧
      ∀ a, a < scratchAddr p.core + p.sbase + off ∨ scratchAddr p.core + p.sbase + off + bs.length ≤ a → Memory.read t.mem a = Memory.read s.mem a) ∧
  (∀ (s : State) ctx gid c l, s.colls.find? (fun c => c.ctx == ctx && c.gid == gid) = some c → c.round = some l →
      (∀ x ∈ l, ∀ y ∈ l, s.wayOpen (dieOf x.core) (dieOf y.core) = true) →
    l.length = c.nmem ∧ (∀ x ∈ l, x ∈ c.parts) ∧ ∃ u : State, exec (.collRootResult ctx gid) s = .next (u.collFinish c l) ∧
      { u with colls := [] } = { s with colls := [] } ∧
      (c.parts.all l.contains = true → u.colls = s.colls.filter fun d => !(d.ctx == ctx && d.gid == gid)))

/-! ### Homes, pages, the host, the exchange (R202 to R249, R269 to R299) -/

/-- What waits at the homes is served. Of the requests that have arrived and wait for nothing the oldest is served; a retried one asks again after its
backoff; a release to a line waits for the acquires that wait there; a core drains what a record covers, which then is in no dirty or partial-sum line, and acknowledges; the last acknowledgement performs what
waited; parked WAITA and LDLAT are tested again, WAITA going on, waiting on, or raising its fault (R229, R232, R274, R286, R287). Lines travel between
the L1s and their homes. A recalled line is owned no more, and its owner's predictor counter falls; a gathered contributor holds no partials; an
evicted line leaves its L1, a clean one for nothing, another in a write-back; a write-back of an Owned line puts its bytes at the home that its port
accepts; a drop takes the lines and the code of its object, or of its page, out of an L1, and no others (R202, R203, R236, R240, R401, R409). -/
def Obligations.HomesServe : Prop :=
  ((∀ (s : State) g, s.nextRequest = some g →
    g ∈ s.homeQ ∧ s.requestReady g = true ∧ (∀ r ∈ s.homeQ, s.requestReady r = true → g.at_ ≤ r.at_) ∧
    exec .homeRequest s = .next ((({ s with homeQ := s.homeQ.erase g, portTurn := assocSet s.portTurn (s.homeOf g) g.core } : State).answerRetry g).serve g)) ∧
  (∀ (s : State) q, s.retries.find? (fun q => decide (q.2 ≤ s.now)) = some q →
    exec .ownershipRetry s = .next { s with retries := s.retries.erase q, homeQ := s.homeQ ++ [{ q.1 with at_ := s.now }] }) ∧
  (∀ (s : State) core d, s.nextDrain core = some d → ∃ t, exec (.drain core) s = .next t ∧
    t = { s.drainCore core d.epoch with drains := (s.drainCore core d.epoch).drains.map fun e => if e = d then { e with acked := true } else e } ∧
    ∀ l ∈ (t.core core).lines, l.dirty = true ∨ l.kind = .psum → d.epoch < l.epoch) ∧
  (∀ (s : State) core d, s.nextAck core = some d →
    let u := { s with drains := s.drains.erase d, relRecs := s.relRecs.filter fun q => q ≠ (d.line, d.core, d.epoch) }
    exec (.drainAcknowledge core) s = .next (if ∃ e ∈ u.drains, e.line = d.line then u else u.finishDrain d.line)) ∧
  (∀ (s : State) pid fid p f w, s.watchDue pid fid = true → s.watchOf pid fid = some (p, f, w) →
    let r := s.watchTest p f w
    (r.2 = .passed → exec (.watchRetest pid fid) s = .next (r.1.wakePast pid fid w.size (r.1.cycOf p.core + 1))) ∧
    (r.2 = .failed → exec (.watchRetest pid fid) s = .next (r.1.leaveWatch p fid w)) ∧
    (∀ e, r.2 = .fault e → exec (.watchRetest pid fid) s = .next (r.1.raise pid fid e))) ∧
  (∀ (s : State) pid fid p f w, s.latWaitOf pid fid = some (p, f, w) →
    (s.latReady p w.cap w.obj w.off w.ty w.thr = false → exec (.ldlatRetest pid fid) s = .next s) ∧
    (s.latReady p w.cap w.obj w.off w.ty w.thr = true → exec (.ldlatRetest pid fid) s = .next ((s.sendAlone
      { pid := pid, fid := fid, pc := f.pc, core := p.core, ctx := p.ctx, system := p.system, cap := w.cap, obj := w.obj, off := w.off,
        op := .latLoad w.ty w.acq w.dst (s.latCell p w.cap w.obj w.off w.ty w.thr) }).wakePast pid fid w.size (s.cycOf p.core + 1)))) ∧
  (∀ (s : State) g a r, g.parts.any (fun q => q.op.releases) = true → a ∈ s.homeQ → a.draining = true → a.ref s = some r → g.ref s = some r →
    s.requestReady g = false)) ∧
  ((∀ (s : State) core ctx obj line, ((⟨ctx, obj, line, 0⟩ : LineRef), core) ∈ s.owners → ∃ t, exec (.recall core ctx obj line) s = .next t ∧
    ((⟨ctx, obj, line, 0⟩ : LineRef), core) ∉ t.owners ∧ (t.core core).pred (predIndex obj line) = (s.core core).pred (predIndex obj line) - 1 ∧
    t.plots = s.plots) ∧
  (∀ (s : State) core ctx obj line l, (s.core core).line? ctx obj line 2 none = some l → ∃ t, exec (.gather core ctx obj line) s = .next t ∧
    l ∉ (t.core core).lines ∧ (t.hasPartials core l.ref = false → (l.ref, core) ∉ t.contribs) ∧ t.plots = s.plots) ∧
  (∀ (s : State) core ctx obj line l, (s.core core).evictable ctx obj line = [l] → ∃ t, exec (.l1Eviction core ctx obj line) s = .next t ∧
    l ∉ (t.core core).lines ∧ t.writeBacks = s.writeBacks ++ (if l.kind = .clean ∨ l.kind = .const then [] else [⟨core, l⟩]) ∧
    { t with cores := [], writeBacks := [] } = { s with cores := [], writeBacks := [] }) ∧
  (∀ (s : State) core ctx obj line, (s.core core).evictable ctx obj line ≠ [] → ∃ t, exec (.l1Eviction core ctx obj line) s = .next t ∧
    (t.core core).evictable ctx obj line = [] ∧ t.mem = s.mem ∧ t.plots = s.plots) ∧
  (∀ (s : State) w, s.writeBacks.find? s.backReady = some w → ∃ t, exec .writeBack s = .next t ∧
    (w.line.kind = .owned → t.writeBacks = s.writeBacks.erase w ∧ (w.line.ref, w.core) ∉ t.owners ∧ t.plots = s.plots) ∧
    (∀ h, w.line.kind = .owned → s.MemOk → s.sums = [] → s.acceptsWriteBack w.core w.line w.line.need = some h → w.line.obj ≠ 0 →
      (∀ c, s.ctx? w.line.ctx = some c → ∀ y, s.readOnly c w.line.obj y = false) → w.line.bytes.Pairwise (fun a b => a.1 < b.1) →
      (∀ b ∈ w.line.bytes, b.1 < 128) →
      (∀ b ∈ w.line.bytes, Memory.read t.mem (h.addr + b.1) = b.2) ∧
      ∀ a, (∀ b ∈ w.line.bytes, a ≠ h.addr + b.1) → Memory.read t.mem a = Memory.read s.mem a)) ∧
  (∀ (s : State) core ctx obj d, s.nextDrop core ctx obj = some d → ∃ t, exec (.objectDrop core ctx obj) s = .next t ∧
    t.drops = s.drops.erase d ∧
    (∀ l ∈ (t.core core).lines, l.ctx = ctx → l.obj = obj → (d.page = none ∨ d.page = some (l.line / 512)) → l.tent ≠ none) ∧
    (∀ l ∈ (s.core core).lines, (l.ctx ≠ ctx ∨ l.obj ≠ obj ∨ ∃ p, d.page = some p ∧ p ≠ l.line / 512) → l ∈ (t.core core).lines) ∧
    (∀ l ∈ (t.core core).icache, l.ctx = ctx → l.obj = obj → ∃ p, d.page = some p ∧ p ≠ l.line / 512) ∧ t.mem = s.mem ∧ t.plots = s.plots))

/-- Pages move and publish line by line; the host's atomics, snoops, reads and writes are served, bytes that the host or another
agent writes outside the package standing there, poisoned where it writes poison; a read before READY answering poison and a
write having no effect; the lattice exchange ticks, pushes and merges (R208, R209, R211, R247, R269, R278, R283, R290, R291, R408, R445, R459, R468). What a source outside the package
answers is an input (log entry 3). -/
def Obligations.PagesHostAndExchange : Prop :=
  (∀ (s : State) ctx obj page m, s.migration? ctx obj page = some m → m.p < 512 → s.moveOpen m = true →
    ∃ t, exec (.migrationLineCopy ctx obj page) s = .next t ∧
      t.migrations = s.migrations.map (fun n => if n = m then { n with p := n.p + 1 } else n) ∧ t.plots = s.plots ∧
      ∀ c e, s.moving m = some (c, e) → e.lattice = false → (∀ q ∈ s.owners, q.1 ≠ ⟨m.ctx, m.obj, 512 * m.page + m.p, 0⟩) → s.sums = [] → s.MemOk →
        ∀ i < 128, Memory.read t.mem ((s.moveOf m e c 0).2.addr + i) = Memory.read s.mem ((s.moveOf m e c 0).1.addr + i)) ∧
  (∀ (s : State) ctx obj page m, s.migration? ctx obj page = some m → 512 ≤ m.p → ∃ t, exec (.migrationComplete ctx obj page) s = .next t ∧
    t.migrations = s.migrations.erase m ∧
    { t with migrations := [] } =
      { s.setDesc ctx obj page (fun d => { PageDesc.ofNat m.newDesc.toNat with wx := d.wx, mig := 0 }) with migrations := [] }) ∧
  (∀ (s : State) q, s.nextPublish [] s.publishes = some q →
    (q.started = false → exec .publLineMove s = .next ((s.startPublish q).setPublish q { q with started := true })) ∧
    (∀ l rest, q.started = true → q.todo = l :: rest → ∃ t, exec .publLineMove s = .next t ∧
      t.publishes = s.publishes.map (fun z => if z = q then { z with todo := rest } else z) ∧ (s.engineOwned = [] → t.plots = s.plots))) ∧
  (∀ (s : State) q, s.publishes.find? (fun q => q.unpubl.isNone && q.started && q.todo.isEmpty) = some q → ∃ t, exec .publComplete s = .next t ∧
    t.publishes = s.publishes.erase q ∧ t.mem = s.mem ∧
    ∀ p, s.plot? q.pid = some p → t.plot? q.pid = some (if q.counted then { p with pendStores := p.pendStores ++ [.done q.fid] } else p)) ∧
  (∀ (s : State) a q more, s.nextHostAtomic = some a → a.reqs = q :: more → ∃ t, exec .hostAtomicCompletion s = .next t ∧
    ∀ h op ty d c dst, q.op = .atom op ty d c dst → s.portOf q = .ok h →
      t = ({ s with hostAtomics := if more = [] then s.hostAtomics.erase a else s.hostAtomics.map fun z => if z = a then { a with reqs := more } else z } :
        State).farAtom q h a.issue op ty d c dst) ∧
  (∀ (s : State) addr, ∃ t, exec (.hostSnoop addr) s = .next t ∧ (s.engineOwned = [] → t.plots = s.plots) ∧
    ∀ at_ bs poison, addr = .write at_ bs poison → s.MemOk → (∀ i (h : i < bs.length), Memory.read t.mem (sourceAt at_ + i) = bs[i]) ∧
      (poison ≠ .clean → ∀ i < bs.length, (sourceAt at_ + i) / 16 ∈ t.poison) ∧
      (poison = .once → ∀ i < bs.length, (sourceAt at_ + i) / 16 ∈ t.poisonOnce)) ∧
  (∀ (s : State) ctx obj off size, s.status.ready = false →
    exec (.hostMemRead ctx obj off size) s = .next { s with reports := s.reports ++ [.hostRead [] true] }) ∧
  (∀ (s : State) ctx obj off size, s.status.ready = true → (∀ l ∈ linesOf off size, ∃ h, s.place? 0 ctx obj l.1 = some h ∧ h.exposed = true) →
    ∃ t bs bad, exec (.hostMemRead ctx obj off size) s = .next t ∧ t.reports = s.reports ++ [.hostRead bs bad] ∧
      (s.engineOwned = [] → t.plots = s.plots)) ∧
  (∀ (s : State) ctx obj off bytes poison, s.status.ready = false → exec (.hostMemWrite ctx obj off bytes poison) s = .next s) ∧
  (∀ (s : State) ctx obj off bytes poison, s.status.ready = true →
    (∀ l ∈ linesOf off bytes.length, ∃ h, s.place? 0 ctx obj l.1 = some h ∧ h.exposed = true) →
    ∃ t, exec (.hostMemWrite ctx obj off bytes poison) s = .next t ∧ (s.engineOwned = [] → t.plots = s.plots)) ∧
  (∀ (s : State) die ctx obj e, s.latticeEntry ctx obj = some e → (∃ d ∈ s.dies, d.num = die) →
    (assoc (s.die die).lastTick (objRef ctx obj) = none → ∃ t, exec (.exchangeTick die ctx obj) s = .next t ∧
      assoc (t.die die).lastTick (objRef ctx obj) = some (s.die die).cyc ∧ assoc (t.die die).rounds (objRef ctx obj) = some 0 ∧
      { t with dies := [] } = { s with dies := [] }) ∧
    (∀ n, assoc (s.die die).lastTick (objRef ctx obj) = some n → n + e.period ≤ (s.die die).cyc → ∃ t, exec (.exchangeTick die ctx obj) s = .next t ∧
      assoc (t.die die).lastTick (objRef ctx obj) = some (s.die die).cyc ∧
      assoc (t.die die).rounds (objRef ctx obj) = some ((assoc (s.die die).rounds (objRef ctx obj)).getD 0 + 1)) ∧
    (∀ n, assoc (s.die die).lastTick (objRef ctx obj) = some n → (s.die die).cyc < n + e.period → s.pushed die ctx obj ≠ [] →
      ∃ t, exec (.exchangeTick die ctx obj) s = .next t ∧ t.pushed die ctx obj = [])) ∧
  (∀ (s : State) x, s.nextMerge = some x → ∃ t, exec .latticeMerge s = .next t ∧ t.ships = s.ships.erase x ∧ t.plots = s.plots)

/-! ### The reeves (R324 to R337, R55) -/

/-- The reeves' steps. A record whose TAIL is in range is taken, a list with a bad TAIL stops and is reported; a stopped list in range starts
again, another is read again 100 µs later; a dependency that is reached makes its field eligible; a candidate that fits is placed, four at most in
a µs; long waits make a gang of one or pre-empt a victim; a plot with nothing open retires (R55, R324, R328, R330 to R333, R337). -/
def Obligations.ReevesLaunchAndRetire : Prop :=
  (∀ (s : State) ctx list t h, s.listHead ctx list = some (t, h) → s.listOpen ctx list = true → h.tail ≠ h.head →
    (h.inRange = true → t.recordOpen ctx h = true → exec (.takeRecord ctx list) s = .next (t.takeRecord ctx list h)) ∧
    (h.inRange = false → ∃ u, exec (.takeRecord ctx list) s = .next u ∧ u.reports = t.reports ++ [.listStop ctx list h.head] ∧
      ∀ c, u.ctx? ctx = some c → c.listStopped list = true)) ∧
  (∀ (s : State) ctx list t h, s.listHead ctx list = some (t, h) → s.retestOpen ctx list = true →
    (h.inRange = true → ∃ u, exec (.tailRetest ctx list) s = .next u ∧ (∀ c, u.ctx? ctx = some c → c.listStopped list = false) ∧
      { u with ctxs := [] } = { t with ctxs := [] }) ∧
    (h.inRange = false → ∃ u, exec (.tailRetest ctx list) s = .next u ∧
      (∀ c, u.ctx? ctx = some c → (list, (s.die 0).cyc + 160000) ∈ c.stopped) ∧ { u with ctxs := [] } = { t with ctxs := [] })) ∧
  (∀ (s : State) ctx fld r f, s.eligibleDue ctx fld = some r → s.field? ctx fld = some f → ∃ t, exec (.fieldEligible ctx fld) s = .next t ∧
    t.field? ctx fld = some { f with eligible := some (s.die 0).cyc }) ∧
  (∀ s : State, s.reeves = true →
    let t := s.rankAgain
    let recent := t.decisions.filter fun c => (t.die 0).cyc < c + 1600
    let first := firstSome (t.candidates.map t.placeOne)
    (∀ u, recent.length < 4 → first = some u → exec .placePlot s = .next { u with decisions := recent ++ [(t.die 0).cyc] }) ∧
    ((4 ≤ recent.length ∨ first = none) → (t.tops ≠ s.tops ∨ t.fallow ≠ s.fallow) → exec .placePlot s = .next t) ∧
    ((4 ≤ recent.length ∨ first = none) → t.tops = s.tops → t.fallow = s.fallow → exec .placePlot s = .fault .noSubject)) ∧
  (∀ (s : State) c, s.reeves = true → (s.waited 320000).find? (fun c => !s.isGang c) = some c →
    exec .gangOfOne s = .next { s with gangOne := s.gangOne ++ [c.name] }) ∧
  (∀ (s : State) p, s.gangVictim = some p → exec .gangWaitLimit s = .next (s.preemptPlot p.pid (s.cycOf p.core))) ∧
  (∀ (s : State) p, s.roomVictim = some p → exec .restoreRoom s = .next (s.preemptPlot p.pid (s.cycOf p.core))) ∧
  (∀ (s : State) pid p, s.plot? pid = some p → s.retireDue p = true → ∃ t, exec (.plotRetirement pid) s = .next t ∧ t.plot? pid = none ∧
    ∀ other, other ≠ pid → (t.plot? other).isSome = (s.plot? other).isSome)

/-! ### Halts, pre-emption, contexts (R390, R414 to R449) -/

/-- A halt that completes goes where its cause sends it; a plot's frame is written and its handler starts as a plot at system level on the same
core; a late handler, the host's answer and the debugger's action end the service (R417, R420 to R426). -/
def Obligations.HaltsAreServed : Prop :=
  (∀ (s : State) pid p h, s.plot? pid = some p → p.halt = some h → s.haltDue p = true →
    (∀ served, p.handler = some served → exec (.haltComplete pid) s = .next (s.handlerFell p served h)) ∧
    (p.handler = none → exec (.haltComplete pid) s = .next (s.routeHalt p h)) ∧
    (p.handler = none → p.intent = none → replants p h = false → h.cause ≠ 0 → h.cause ≠ FaultCode.dbg.num → h.toReeve = false →
      ∀ c, s.ctx? p.ctx = some c →
        (c.handlerCode.isSome = true → ∃ t q g, exec (.haltComplete pid) s = .next t ∧ t.plot? pid = some q ∧ q.halt = some g ∧ g.phase = .queued ∧
          g.recs = h.recs ∧ g.cause = h.cause ∧ g.done = s.cycOf p.core ∧ (t.core p.core).handlerQueue =
            (s.core p.core).handlerQueue.takeWhile (fun q => t.handlerRank q ≤ t.handlerRank pid) ++
              pid :: (s.core p.core).handlerQueue.dropWhile (fun q => t.handlerRank q ≤ t.handlerRank pid) ∧ t.mem = s.mem) ∧
        (c.handlerCode = none → ∃ t q g, exec (.haltComplete pid) s = .next t ∧ t.plot? pid = some q ∧ q.halt = some g ∧ g.phase = .escalated ∧
          t.reports = s.reports ++ [.escalated p.ctx p.fld p.plot (h.first % 1024) h.cause]))) ∧
  (∀ (s : State) core p h, s.frameNext core = some p → p.halt = some h → ∃ t q g, exec (.haltFrameWrite core) s = .next t ∧
    t.plot? p.pid = some q ∧ q.halt = some g ∧ g.phase = .withHandler ∧ (t.core core).frameOf = some p.pid ∧
    (t.core core).handlerAt = some (s.cycOf core) ∧ (t.core core).handlerStarted = false ∧ p.pid ∉ (t.core core).handlerQueue) ∧
  (∀ (s : State) core p h c, s.handlerNext core = some p → p.halt = some h → s.ctx? p.ctx = some c → ∃ t q f, exec (.handlerStart core) s = .next t ∧
    t.plots = s.plots ++ [q] ∧ q.pid = s.nextPid ∧ q.handler = some p.pid ∧ q.system = true ∧ q.core = p.core ∧ q.ctx = p.ctx ∧ q.fibres = [f] ∧
    f.fid = 0 ∧ f.pc = c.handlerEntry &&& ~~~3 ∧ f.vreg 0 = BitVec.ofNat 32 (h.first % 1024) ∧ f.vreg 1 = BitVec.ofNat 32 p.plot ∧
    (t.core core).handlerStarted = true ∧ t.mem = s.mem) ∧
  (∀ (s : State) core q pid, s.handlerLate core = some (q, pid) →
    exec (.handlerTimeout core) s = .next (((s.endHandler q).escalate pid).afterHandler pid)) ∧
  (∀ (s : State) pid p h action edits, s.plot? pid = some p → p.halt = some h → h.phase = .escalated → action ≤ 2 →
    ∃ u : State, exec (.hostEscalationAnswer pid action edits) s = .next (u.applyAction pid action (copyAddr pid)) ∧
      { u with mem := [] } = { s with mem := [] } ∧
      (s.MemOk → ∀ a, (a < copyAddr pid ∨ copyAddr pid + frameSize ≤ a) → Memory.read u.mem a = Memory.read s.mem a)) ∧
  (∀ (s : State) pid p h action, s.plot? pid = some p → p.halt = some h → h.phase = .debugger → action ≤ 2 →
    exec (.debuggerAction pid action) s = .next (s.applyAction pid action (copyAddr pid)))

/-- Pre-emption drains a plot, or stops it to be saved; a budget that runs out saves it; a saved plot is gone and reported, or stays where the
pool lacks room; an image loads, or is refused where its header disagrees or its opaque regions have changed (R430 to R441). -/
def Obligations.PreemptionSavesAndRestores : Prop :=
  (∀ (s : State) req lb, lb ≤ 1000000 → exec (.preemptionRequest req lb) s = .next (s.preempt req lb) ∧
    ∀ p, s.plotsOf req = [p] → s.plot? p.pid = some p → p.handler = none → p.halt = none → p.fibres ≠ [] →
      ∃ q, (s.preempt req lb).plot? p.pid = some q ∧ (q.drainBy.isSome = true ∨ q.halt.isSome = true ∧ q.intent.isSome = true)) ∧
  (∀ (s : State) pid p, s.plot? pid = some p → s.drainDue p = true →
    (p.halt = none → ∃ t q, exec (.drainBudgetExpiry pid) s = .next t ∧ t.plot? pid = some q ∧ q.intent = some (.save 4) ∧ q.halt.isSome = true) ∧
    (∀ h, p.halt = some h → ∃ t, exec (.drainBudgetExpiry pid) s = .next t ∧
      t.plot? pid = some { p with intent := some (if h.phase = .withHandler then .waiting (s.cycOf p.core) else .save 4) })) ∧
  (∀ (s : State) pid p h code c, s.plot? pid = some p → s.saveDue p = true → p.halt = some h → p.intent = some (.save code) →
    s.ctx? p.ctx = some c → ∃ t, exec (.save pid) s = .next t ∧
      ((t.plot? pid = none ∧ .preempted p.ctx p.fld p.plot code ∈ t.reports) ∨ .preempted p.ctx p.fld p.plot 5 ∈ t.reports)) ∧
  (∀ (s : State) pid v q, s.restoreDue pid = some (v, q) →
    let intact := headerLawful (s.loadNat v.at_ 32) = true ∧ s.opaqueIntact v = true
    (intact → q.intent = none → exec (.restore pid) s = .next (s.loadImage v q)) ∧
    (∀ u, intact → q.intent = some (.waiting u) → exec (.restore pid) s = .next ((s.loadImage v q).preemptPlot pid u)) ∧
    (¬intact → ∃ t, exec (.restore pid) s = .next t ∧ t.plot? v.plot.pid = none ∧
      t.reports = s.reports ++ [.restoreRefused v.plot.ctx v.plot.fld v.plot.plot]))

/-- Contexts are created, switched away and back, given a pool and destroyed, the host writing the bytes of a pool; a crop is registered when its
weight objects are sealed; its swap-ins start, land once their copies can have been made, or fail after 100 ms, leaving none in progress (R390,
R435, R439, R444, R445, R448). That a destroyed context's plots end is the model's choice (log entry 10), and so are the place of the pool (log
entry 4) and the time of a swap-in (log entry 47). -/
def Obligations.ContextsAndCrops : Prop :=
  (∀ (s : State) cfg, cfg.ctx < 64 → s.ctx? cfg.ctx = none → ∃ t c, exec (.contextCreate cfg) s = .next t ∧ t.ctxs = s.ctxs ++ [c] ∧
    t.ctx? cfg.ctx = some c ∧ c.otfr = 0 ∧ c.otnp = 0 ∧ c.otne = 0 ∧ c.exlog = 0 ∧ c.handlerEntry = cfg.handlerEntry ∧ c.savePool = cfg.savePool ∧
    c.framePool = cfg.framePool ∧ { t with ctxs := [] } = { s with ctxs := [] }) ∧
  (∀ (s : State) ctx c, s.ctx? ctx = some c → ∃ t, exec (.contextDestroy ctx) s = .next t ∧ t.ctx? ctx = none ∧ ∀ p ∈ t.plots, p.ctx ≠ ctx) ∧
  (∀ (s : State) ctx lb c, lb ≤ 1000000 → s.ctx? ctx = some c → ∃ t d, exec (.contextSwitch ctx lb) s = .next t ∧ t.ctx? ctx = some d ∧ d = { c with away := true }) ∧
  (∀ (s : State) ctx c, s.ctx? ctx = some c → ∃ t, exec (.contextSwitchBack ctx) s = .next t ∧ t.ctx? ctx = some { c with away := false } ∧
    { t with ctxs := [] } = { s with ctxs := [] }) ∧
  (∀ (s : State) ctx bytes c, s.ctx? ctx = some c →
    ∃ t, exec (.savePool ctx (.size bytes)) s = .next t ∧ t.ctx? ctx = some { c with savePool := bytes } ∧ (c.away = false → t.plots = s.plots)) ∧
  (∀ (s : State) ctx off bs c, s.ctx? ctx = some c → off + bs.length ≤ c.savePool → s.MemOk → ∃ t, exec (.savePool ctx (.write off bs)) s = .next t ∧
    (∀ i (h : i < bs.length), Memory.read t.mem (poolAddr ctx + off + i) = bs[i]) ∧
    (∀ a, (a < poolAddr ctx + off ∨ poolAddr ctx + off + bs.length ≤ a) → Memory.read t.mem a = Memory.read s.mem a) ∧
    t.plots = s.plots ∧ t.ctxs = s.ctxs) ∧
  (∀ (s : State) cfg c, s.ctx? cfg.ctx = some c → cfg.crop < 16 → cfg.layers ≠ [] → cfg.layers.length ≤ 4096 → cfg.prio ≤ 7 →
    (∀ k ∈ c.crops, k.num ≠ cfg.crop) →
    ((∃ l ∈ cfg.layers, s.isSealed cfg.ctx l.obj = false) →
      exec (.cropRegistration cfg) s = .next { s with reports := s.reports ++ [.cropRefused cfg.ctx cfg.crop] }) ∧
    ((∀ l ∈ cfg.layers, s.isSealed cfg.ctx l.obj = true) → (∃ e, s.entry? c cfg.table = some e ∧ e.kind = 3) → s.countObject c cfg.count = true → ∃ t k, exec (.cropRegistration cfg) s = .next t ∧
      t.ctx? cfg.ctx = some { c with crops := c.crops ++ [k] } ∧ k.num = cfg.crop ∧ k.prio = cfg.prio ∧ k.queue = [] ∧ k.swap = none ∧
      k.layers.map (fun l => (l.obj, l.src, l.len)) = cfg.layers.map (fun l => (l.obj, l.src, l.len)))) ∧
  (∀ (s : State) ctx crop k, s.crop? ctx crop = some k → s.swapDue ctx crop = true → exec (.swapIn ctx crop) s = .next (s.startSwap ctx k)) ∧
  (∀ (s : State) ctx crop k w, s.swapReady ctx crop = some (k, w) → s.swapCcy ctx k w ≤ ((s.die 0).cyc + 2 ^ 64 - w.started) % 2 ^ 64 →
    s.swapOpen ctx k w = true → ∃ t, exec (.swapInComplete ctx crop) s = .next t ∧ ∀ k', t.crop? ctx crop = some k' → k'.swap = none) ∧
  (∀ (s : State) ctx crop k w, s.swapReady ctx crop = some (k, w) → 160000000 ≤ ((s.die 0).cyc + 2 ^ 64 - w.started) % 2 ^ 64 →
    ∃ t, exec (.swapInTimeout ctx crop) s = .next t ∧ ∀ k', t.crop? ctx crop = some k' → k'.swap = none)

/-! ### Errors, links, coming up, management (R456 to R471) -/

/-- Uncorrectable errors have the fate of their structure; a scrub that finds nothing changes nothing, one that corrects a word writes a corrected
record. Failed replays are counted; a lost flit retrains its boundary and poisons the data that it carried, at the home of writes or in the L1 of
the requester; lost control is missed by a home, which gives up 16,384 ccy after it has sent the flit that awaits the answer: the line is
poisoned, its records are cleared, a load that waits on it is answered with POISON. A boundary or a host link that stays down is fatal (R456 to
R463). That the ccy of that sending comes with the loss, from outside, is the model's choice (log entry 30). -/
def Obligations.ErrorsAndLinks : Prop :=
  (∀ (s : State) at_ t, s.errorAt at_ = some t → exec (.uncorrectableError at_) s = .next t ∧ exec (.scrub at_ .uncorrectable) s = .next t) ∧
  (∀ (s : State) a, inSram a = true → ∃ t, exec (.uncorrectableError (.memory a)) s = .next t ∧ a / 16 ∈ t.poison ∧ a / 16 ∉ t.tags ∧ t.mem = s.mem) ∧
  (∀ (s : State) a, inSram a = false → inHbm a = true → ∃ t, exec (.uncorrectableError (.memory a)) s = .next t ∧
    (if s.inL2 a true = true then t.poison = s.poison else ∀ g < 8, 8 * (a / 128) + g ∈ t.poison) ∧ t.mem = s.mem) ∧
  (∀ (s : State) pid fid p f, s.plot? pid = some p → p.fibre? fid = some f → p.halt = none → ∃ t q h,
    exec (.uncorrectableError (.registerFile pid fid)) s = .next t ∧ t.plot? pid = some q ∧ q.halt = some h ∧ h.toReeve = true ∧
      h.cause = 0 ∧ h.recs = [] ∧ { q with halt := none } = p) ∧
  (∀ (s : State) at_, exec (.scrub at_ .clean) s = .next s) ∧
  (∀ (s : State) at_ t, s.correctedAt at_ = some t → exec (.scrub at_ .corrected) s = .next t ∧ { t with dies := [] } = { s with dies := [] }) ∧
  (∀ (s : State) a, inSram a = true → (∃ d ∈ s.dies, d.num = dieOf (sramCore a)) → (s.die (dieOf (sramCore a))).errq = [] → ∃ t r, exec (.scrub (.memory a) .corrected) s = .next t ∧
    (t.die (dieOf (sramCore a))).errq = [r] ∧ (r.src, r.sev, r.count) = (2, 0, 1)) ∧
  (∀ (s : State) b l, s.link? b = some l → l.down = false →
    (l.replays < 8 → ∃ t, exec (.flitReplay b .failed) s = .next t ∧ t.link? b = some { l with replays := l.replays + 1 } ∧ t.mem = s.mem) ∧
    (∃ t, exec (.flitReplay b .replayed) s = .next t ∧ t.link? b = some { l with replays := 0 } ∧ t.mem = s.mem ∧
      ((∃ d ∈ s.dies, d.num = boundaryDie b) → (s.die (boundaryDie b)).errq = [] → ∃ r, (t.die (boundaryDie b)).errq = [r] ∧ (r.src, r.sev) = (9, 0))) ∧
    (8 ≤ l.replays → ∀ gs, ∃ t, exec (.flitReplay b (.data gs)) s = .next t ∧ t.link? b = some ({ l with replays := 0 }.retrain s.now) ∧
      ∀ g ∈ gs, g ∈ t.poison ∧ g ∉ t.tags) ∧
    (8 ≤ l.replays → ∀ core r gs, core < 128 → ∃ t, exec (.flitReplay b (.answer core r gs)) s = .next t ∧
      t.link? b = some ({ l with replays := 0 }.retrain s.now) ∧
      ∀ y ∈ (t.core core).lines, y.ref = { r with rep := 0 } → ∀ g ∈ gs, g ∈ y.poison ∧ g ∉ y.tags) ∧
    (8 ≤ l.replays → ∀ m ago, ∃ t, exec (.flitReplay b (.control m ago)) s = .next t ∧ t.link? b = some ({ l with replays := 0 }.retrain s.now) ∧
      t.lostControl = s.lostControl ++ [⟨b, m, s.now - ago⟩] ∧ t.poison = s.poison) ∧
    (l.retraining = true → ∃ t, exec (.linkRetrainComplete b) s = .next t ∧ t.link? b = some { l with retraining := false } ∧ t.mem = s.mem) ∧
    (l.retraining = true → l.since + 16000000 ≤ s.now → ∃ t, exec (.linkDown b) s = .next t ∧ t.link? b = some { l with down := true } ∧ t.status.fatal = true) ∧
    (∀ q ∈ s.lostControl, q.boundary = b → q.at_ + 16384 ≤ s.now → ∃ t, exec (.controlTimeout b q.lines) s = .next t ∧
      t.link? b = some (l.retrain s.now) ∧
      ∀ r a, q.lines = [r] → s.lineAt r = some a →
        (s.homeQ = [] → (∀ g < 8, 8 * (a / 128) + g ∈ t.poison ∧ 8 * (a / 128) + g ∉ t.tags) ∧ (∀ x ∈ t.relRecs, x.1 ≠ r) ∧ (∀ x ∈ t.owners, x.1 ≠ r) ∧
          (∀ x ∈ t.contribs, x.1 ≠ r) ∧ ∀ d ∈ t.drains, d.line ≠ r) ∧
        ∀ g z size sx dst h p, s.homeQ = [g] → g.parts = [z] → z.op = .load size sx dst → 0 < size → g.ref s = some r → s.portOf z = .ok h →
          h.entry.crty = 0 → h.addr / 128 = a / 128 → (s.core z.core).lines = [] → s.writeBacks = [] → s.sums = [] → s.plot? z.pid = some p →
          t.homeQ = [] ∧ ∃ P, t.plot? z.pid = some P ∧ P.pendLoads = p.pendLoads ++ [.fault z.fid (.late .poison z.pc z.obj z.off 1 2)])) ∧
  (∀ s : State, exec .lateAnswer s = .next s) ∧
  (∀ (s : State) port core r, (s.core core).oldestYotis = some r → port < 12 → ∃ t, exec (.yotisFlitLost port core) s = .next t ∧
    port ∈ t.yotisDown ∧ ∀ q ∈ (t.core core).wainRun, q.cmd.order ≠ r.cmd.order) ∧
  (∀ (s : State) port, port < 12 → (∃ t, exec (.yotisRetrain port true) s = .next t ∧ port ∉ t.yotisDown) ∧
    ∃ t, exec (.yotisRetrain port false) s = .next t ∧ port ∈ t.yotisDown) ∧
  (∀ s : State, ∃ t, exec .hostLinkDown s = .next t ∧ t.status.hostUp = false ∧ t.status.fatal = true)

/-- The package comes up in six stages, the fourth clearing memory; before READY the host port refuses memory requests. A debugger halts and
resumes a die and attaches to a context; clocks stay within their range, fall on a die over its budget, and at the end of a window move by the
cores' parked fractions; a die that grows too hot loses its power with all that it held. A monitor's window freezes its results, its control word
keeps no reserved bit; a management register outside its range keeps its value; a core without plots is gated with no line (R27, R233, R339, R425,
R456, R465, R467 to R471). What a die draws, by how much a clock falls, and samples of sources that are no state are free (log entry 9). What a
reset keeps, the host's memory and the error records, is the model's choice (log entry 11). -/
def Obligations.ComingUpAndManagement : Prop :=
  (∀ s : State, s.status.good = false → ∃ t, exec .powerGood s = .next t ∧
    t.status = { s.status with good := true, stage := 0, ready := false, fail := 0, fdet := 0 } ∧ t.mem = s.mem ∧ ∀ d ∈ t.dies, d.powered = true) ∧
  (∀ (s : State) fail fdet, s.status.good = true → s.status.stage < 6 → s.status.fail = 0 →
    (fail ≠ 0 → exec (.stageComplete fail fdet) s = .next { s with status := { s.status with fail := fail % 256, fdet := fdet % 65536 } }) ∧
    (fail = 0 → ∃ t, exec (.stageComplete fail fdet) s = .next t ∧
      t.status = { s.status with stage := s.status.stage + 1, ready := decide (s.status.stage = 5) } ∧
      (s.status.stage = 3 → s.MemOk → ∀ a, a < 2 ^ 50 → Memory.read t.mem a = 0) ∧ (s.status.stage ≠ 3 → t.mem = s.mem))) ∧
  (∀ s : State, exec .perstDeassert s = .next { s with status := { s.status with hostUp := true, perst := some s.now } }) ∧
  (∀ s : State, (s.pcieAnswer = .completes ↔ s.status.ready = true) ∧ (s.status.ready = false → s.pcieAnswer = .unsupported ∧ s.readStatusBar = none) ∧
    ∀ t, s.status.perst = some t → t + 160000000 ≤ s.now → s.configAnswer = if s.status.stage < 2 then .retryStatus else .completes) ∧
  (∀ s : State, s.MemOk → ∃ t, exec .packageReset s = .next t ∧
    (∀ a, Memory.read t.mem a = if 2 ^ 50 ≤ a ∧ a < 2 ^ 60 then Memory.read s.mem a else 0) ∧
    t.dies = s.dies.map (fun d => { Die.reset d.num with errq := d.errq, overflow := d.overflow, errSeq := d.errSeq, errBase := d.errSeq }) ∧
    { t with mem := [], reports := [], inputs := [], now := 0, freeCtr := 0, dies := [] } = { State.reset with mem := [], dies := [] }) ∧
  (∀ (s : State) die, (∃ d ∈ s.dies, d.num = die) →
    (∃ t, exec (.debuggerHalt die) s = .next t ∧ t.die die = { s.die die with halted := true } ∧ { t with dies := [] } = { s with dies := [] }) ∧
    (∃ t, exec (.debuggerResume die) s = .next t ∧ t.die die = { s.die die with halted := false } ∧ { t with dies := [] } = { s with dies := [] }) ∧
    (∃ t, exec (.thermalThrottle die) s = .next t ∧ (t.die die).throttled = true ∧
      ∀ k ∈ dieCores die, 1400 < (s.core k).clock → 1400 ≤ (t.core k).clock ∧ (t.core k).clock < (s.core k).clock) ∧
    (s.MemOk → ∃ t, exec (.thermalShutdown die) s = .next t ∧ (t.status.fatal, t.status.good, t.status.fail, t.status.fdet) = (true, false, 6, die) ∧
      (∀ d ∈ t.dies, d.powered = false) ∧ t.plots = [] ∧ ∀ a, a < 2 ^ 50 → Memory.read t.mem a = 0) ∧
    ((s.die die).window + 32000 ≤ (s.die die).cyc → ∃ t, exec (.clockRebalance die (s.powerLimit / 4) (s.fractions die)) s = .next t ∧ (t.die die).throttled = false ∧
      (t.die die).window = (s.die die).cyc ∧
      (∀ k, 1400 ≤ (s.core k).clock → (s.core k).clock ≤ 1800 → 1400 ≤ (t.core k).clock ∧ (t.core k).clock ≤ 1800) ∧
      (∀ k, dieOf k ≠ die → t.core k = s.core k) ∧
      (∀ k ∈ dieCores die, ((t.core k).parked, (t.core k).alive, (t.core k).phases) = (0, 0, 0) ∧
        (s.overBudget.1 = true → 1400 < (s.core k).clock → ((s.die die).fixedClock = true ∨ ∀ q ∈ s.fractions die, q.1 ≠ k) →
          (t.core k).clock < (s.core k).clock) ∧
        (s.overBudget.1 = false → ((s.die die).fixedClock = true ∨ ∀ q ∈ s.fractions die, q.1 ≠ k) → (t.core k).clock = (s.core k).clock)) ∧
      ((s.cores.map (·.num)).Nodup → s.overBudget.1 = false → (s.die die).fixedClock = false → ∀ q ∈ s.fractions die,
        let med := median2 ((s.fractions die).map (·.2))
        (med < 2 * q.2 → 1425 ≤ (s.core q.1).clock → (t.core q.1).clock = (s.core q.1).clock - 25) ∧
        (2 * q.2 < med → (t.core q.1).clock = (s.core q.1).clock ∨
          (s.die die).throttled = false ∧ (t.core q.1).clock = (s.core q.1).clock + 25) ∧
        (2 * q.2 = med → (t.core q.1).clock = (s.core q.1).clock))) ∧
    (∀ mon w m, (s.die die).monitor? mon = some m → ∃ t, exec (.monitorControlWrite die mon w) s = .next t ∧
      (t.die die).monitor? mon = some { m with
        ctl := (if 8 < (w.extractLsb' 56 8).toNat then w &&& ~~~((255 : BitVec 64) <<< (56 : Nat)) else w) &&& ~~~((3 : BitVec 64) <<< (41 : Nat))
        run := .empty
        start := (s.die die).cyc })) ∧
  (∀ (s : State) die mon m, s.windowDue die mon = some m → ∃ t r, exec (.monitorWindow die mon) s = .next t ∧
    (t.die die).monitor? mon = some { m with run := .empty, frozen := r, start := (s.die die).cyc } ∧
    { t with dies := [], freeCtr := 0 } = { s with dies := [], freeCtr := 0 }) ∧
  (∀ (s : State) ctx on c, s.ctx? ctx = some c → ∃ t, exec (.debuggerAttach ctx on) s = .next t ∧ t.ctx? ctx = some { c with debugger := on } ∧
    { t with ctxs := [] } = { s with ctxs := [] }) ∧
  (∀ (s : State) v, exec (.managementRegisterWrite .powerLimit v) s = .next (if 800 ≤ v ∧ v ≤ 2400 then { s with powerLimit := v } else s) ∧
    exec (.managementRegisterWrite .scrubPeriod v) s = .next (if 1 ≤ v ∧ v ≤ 24 then { s with scrubHours := v } else s) ∧
    ∀ die, die < 4 → (∃ d ∈ s.dies, d.num = die) → ∃ t, exec (.managementRegisterWrite (.fixedClocks die) v) s = .next t ∧
      (t.die die).fixedClock = decide (v ≠ 0) ∧ (v ≠ 0 → ∀ k ∈ dieCores die, (t.core k).clock = 1600)) ∧
  (∀ (s : State) core, (∀ p ∈ s.plots, p.core ≠ core) → ∃ t, exec (.corePowerGate core) s = .next t ∧ (t.core core).lines = [] ∧
    (t.core core).icache = [] ∧ (t.core core).gated = true ∧ (s.engineOwned = [] → t.plots = s.plots))
end

