-- ==== Sys2Proof/Laws/Encoding.lean ====
section
/-! SUPPORT. The decoder reads back what the encoder writes: per format, and per word or pair of words (R57 to R66). -/

namespace Sys2Proof

/-! ### Formats -/

theorem FmtR.unpack_pack (x : FmtR) : FmtR.unpack x.p x.pack = .ok x := by
  unfold FmtR.unpack FmtR.pack
  repeat first
    | rw [BitVec.extractLsb'_append_eq_of_le (by decide)]
    | rw [BitVec.extractLsb'_append_eq_of_add_le (by decide)]
  simp

theorem FmtR0.unpack_pack (x : FmtR0) : FmtR0.unpack x.pack = .ok x := by
  unfold FmtR0.unpack FmtR0.pack
  repeat first
    | rw [BitVec.extractLsb'_append_eq_of_le (by decide)]
    | rw [BitVec.extractLsb'_append_eq_of_add_le (by decide)]
  simp

theorem FmtRP.unpack_pack (x : FmtRP) : FmtRP.unpack x.p x.pack = .ok x := by
  unfold FmtRP.unpack FmtRP.pack
  repeat first
    | rw [BitVec.extractLsb'_append_eq_of_le (by decide)]
    | rw [BitVec.extractLsb'_append_eq_of_add_le (by decide)]
  simp

theorem FmtRW.unpack_pack (x : FmtRW) : FmtRW.unpack x.p x.pack = .ok x := by
  unfold FmtRW.unpack FmtRW.pack
  repeat first
    | rw [BitVec.extractLsb'_append_eq_of_le (by decide)]
    | rw [BitVec.extractLsb'_append_eq_of_add_le (by decide)]
  simp

theorem FmtC.unpack_pack (x : FmtC) : FmtC.unpack x.p x.pack = .ok x := by
  unfold FmtC.unpack FmtC.pack
  repeat first
    | rw [BitVec.extractLsb'_append_eq_of_le (by decide)]
    | rw [BitVec.extractLsb'_append_eq_of_add_le (by decide)]
  simp

theorem FmtC0.unpack_pack (x : FmtC0) : FmtC0.unpack x.pack = .ok x := by
  unfold FmtC0.unpack FmtC0.pack
  repeat first
    | rw [BitVec.extractLsb'_append_eq_of_le (by decide)]
    | rw [BitVec.extractLsb'_append_eq_of_add_le (by decide)]
  simp

theorem FmtU.unpack_pack (x : FmtU) (fn : BitVec 7) : FmtU.unpack x.p (x.pack fn) = .ok x := by
  unfold FmtU.unpack FmtU.pack
  repeat first
    | rw [BitVec.extractLsb'_append_eq_of_le (by decide)]
    | rw [BitVec.extractLsb'_append_eq_of_add_le (by decide)]
  simp

theorem FmtU.fn_pack (x : FmtU) (fn : BitVec 7) : (x.pack fn).extractLsb' 0 7 = fn := by
  unfold FmtU.pack
  repeat first
    | rw [BitVec.extractLsb'_append_eq_of_le (by decide)]
    | rw [BitVec.extractLsb'_append_eq_of_add_le (by decide)]
  simp

theorem FmtU0.unpack_pack (x : FmtU0) (fn : BitVec 7) : FmtU0.unpack (x.pack fn) = .ok x := by
  unfold FmtU0.unpack FmtU0.pack
  repeat first
    | rw [BitVec.extractLsb'_append_eq_of_le (by decide)]
    | rw [BitVec.extractLsb'_append_eq_of_add_le (by decide)]
  simp

theorem FmtU0.fn_pack (x : FmtU0) (fn : BitVec 7) : (x.pack fn).extractLsb' 0 7 = fn := by
  unfold FmtU0.pack
  repeat first
    | rw [BitVec.extractLsb'_append_eq_of_le (by decide)]
    | rw [BitVec.extractLsb'_append_eq_of_add_le (by decide)]
  simp

theorem FmtW17.unpack_pack (x : FmtW17) : FmtW17.unpack x.p x.pack = .ok x := by
  unfold FmtW17.unpack FmtW17.pack
  repeat first
    | rw [BitVec.extractLsb'_append_eq_of_le (by decide)]
    | rw [BitVec.extractLsb'_append_eq_of_add_le (by decide)]
  simp

theorem FmtP30.unpack_pack (x : FmtP30) (fn : BitVec 4) : FmtP30.unpack (x.pack fn) = .ok x := by
  unfold FmtP30.unpack FmtP30.pack
  repeat first
    | rw [BitVec.extractLsb'_append_eq_of_le (by decide)]
    | rw [BitVec.extractLsb'_append_eq_of_add_le (by decide)]
  simp

theorem FmtP30.fn_pack (x : FmtP30) (fn : BitVec 4) : (x.pack fn).extractLsb' 3 4 = fn := by
  unfold FmtP30.pack
  repeat first
    | rw [BitVec.extractLsb'_append_eq_of_le (by decide)]
    | rw [BitVec.extractLsb'_append_eq_of_add_le (by decide)]
  simp

theorem FmtP20.unpack_pack (x : FmtP20) (fn : BitVec 4) : FmtP20.unpack (x.pack fn) = .ok x := by
  unfold FmtP20.unpack FmtP20.pack
  repeat first
    | rw [BitVec.extractLsb'_append_eq_of_le (by decide)]
    | rw [BitVec.extractLsb'_append_eq_of_add_le (by decide)]
  simp

theorem FmtP20.fn_pack (x : FmtP20) (fn : BitVec 4) : (x.pack fn).extractLsb' 3 4 = fn := by
  unfold FmtP20.pack
  repeat first
    | rw [BitVec.extractLsb'_append_eq_of_le (by decide)]
    | rw [BitVec.extractLsb'_append_eq_of_add_le (by decide)]
  simp

theorem FmtD1.unpack_pack (x : FmtD1) (fn : BitVec 7) : FmtD1.unpack x.p (x.pack fn) = .ok x := by
  unfold FmtD1.unpack FmtD1.pack
  repeat first
    | rw [BitVec.extractLsb'_append_eq_of_le (by decide)]
    | rw [BitVec.extractLsb'_append_eq_of_add_le (by decide)]
  simp

theorem FmtD1.fn_pack (x : FmtD1) (fn : BitVec 7) : (x.pack fn).extractLsb' 0 7 = fn := by
  unfold FmtD1.pack
  repeat first
    | rw [BitVec.extractLsb'_append_eq_of_le (by decide)]
    | rw [BitVec.extractLsb'_append_eq_of_add_le (by decide)]
  simp

theorem FmtA1.unpack_pack (x : FmtA1) (fn : BitVec 7) : FmtA1.unpack x.p (x.pack fn) = .ok x := by
  unfold FmtA1.unpack FmtA1.pack
  repeat first
    | rw [BitVec.extractLsb'_append_eq_of_le (by decide)]
    | rw [BitVec.extractLsb'_append_eq_of_add_le (by decide)]
  simp

theorem FmtA1.fn_pack (x : FmtA1) (fn : BitVec 7) : (x.pack fn).extractLsb' 0 7 = fn := by
  unfold FmtA1.pack
  repeat first
    | rw [BitVec.extractLsb'_append_eq_of_le (by decide)]
    | rw [BitVec.extractLsb'_append_eq_of_add_le (by decide)]
  simp

theorem FmtCN.unpack_pack (x : FmtCN) : FmtCN.unpack x.p x.pack = .ok x := by
  unfold FmtCN.unpack FmtCN.pack
  repeat first
    | rw [BitVec.extractLsb'_append_eq_of_le (by decide)]
    | rw [BitVec.extractLsb'_append_eq_of_add_le (by decide)]
  simp

theorem FmtCM.unpack_pack (x : FmtCM) : FmtCM.unpack x.p x.pack = .ok x := by
  unfold FmtCM.unpack FmtCM.pack
  repeat first
    | rw [BitVec.extractLsb'_append_eq_of_le (by decide)]
    | rw [BitVec.extractLsb'_append_eq_of_add_le (by decide)]
  simp

theorem FmtCQ.unpack_pack (x : FmtCQ) (fn : BitVec 7) : FmtCQ.unpack x.p (x.pack fn) = .ok x := by
  unfold FmtCQ.unpack FmtCQ.pack
  repeat first
    | rw [BitVec.extractLsb'_append_eq_of_le (by decide)]
    | rw [BitVec.extractLsb'_append_eq_of_add_le (by decide)]
  simp

theorem FmtCQ.fn_pack (x : FmtCQ) (fn : BitVec 7) : (x.pack fn).extractLsb' 0 7 = fn := by
  unfold FmtCQ.pack
  repeat first
    | rw [BitVec.extractLsb'_append_eq_of_le (by decide)]
    | rw [BitVec.extractLsb'_append_eq_of_add_le (by decide)]
  simp

theorem FmtMF.unpack_pack (x : FmtMF) : FmtMF.unpack x.p x.pack = .ok x := by
  unfold FmtMF.unpack FmtMF.pack
  repeat first
    | rw [BitVec.extractLsb'_append_eq_of_le (by decide)]
    | rw [BitVec.extractLsb'_append_eq_of_add_le (by decide)]
  simp

theorem FmtMT.unpack_pack (x : FmtMT) : FmtMT.unpack x.p x.pack = .ok x := by
  unfold FmtMT.unpack FmtMT.pack
  repeat first
    | rw [BitVec.extractLsb'_append_eq_of_le (by decide)]
    | rw [BitVec.extractLsb'_append_eq_of_add_le (by decide)]
  simp

theorem FmtE1.unpack_pack (x : FmtE1) (fn : BitVec 7) : FmtE1.unpack x.p (x.pack fn) = .ok x := by
  unfold FmtE1.unpack FmtE1.pack
  repeat first
    | rw [BitVec.extractLsb'_append_eq_of_le (by decide)]
    | rw [BitVec.extractLsb'_append_eq_of_add_le (by decide)]
  simp

theorem FmtE1.fn_pack (x : FmtE1) (fn : BitVec 7) : (x.pack fn).extractLsb' 0 7 = fn := by
  unfold FmtE1.pack
  repeat first
    | rw [BitVec.extractLsb'_append_eq_of_le (by decide)]
    | rw [BitVec.extractLsb'_append_eq_of_add_le (by decide)]
  simp

theorem FmtN.unpack_pack (x : FmtN) (fn : BitVec 7) : FmtN.unpack x.p (x.pack fn) = .ok x := by
  unfold FmtN.unpack FmtN.pack
  repeat first
    | rw [BitVec.extractLsb'_append_eq_of_le (by decide)]
    | rw [BitVec.extractLsb'_append_eq_of_add_le (by decide)]
  simp

theorem FmtN.fn_pack (x : FmtN) (fn : BitVec 7) : (x.pack fn).extractLsb' 0 7 = fn := by
  unfold FmtN.pack
  repeat first
    | rw [BitVec.extractLsb'_append_eq_of_le (by decide)]
    | rw [BitVec.extractLsb'_append_eq_of_add_le (by decide)]
  simp

theorem FmtFE.unpack_pack (x : FmtFE) : FmtFE.unpack x.p x.pack = .ok x := by
  unfold FmtFE.unpack FmtFE.pack
  repeat first
    | rw [BitVec.extractLsb'_append_eq_of_le (by decide)]
    | rw [BitVec.extractLsb'_append_eq_of_add_le (by decide)]
  simp

theorem FmtV0.unpack_pack (x : FmtV0) (fn : BitVec 7) : FmtV0.unpack (x.pack fn) = .ok x := by
  unfold FmtV0.unpack FmtV0.pack
  repeat first
    | rw [BitVec.extractLsb'_append_eq_of_le (by decide)]
    | rw [BitVec.extractLsb'_append_eq_of_add_le (by decide)]
  simp

theorem FmtV0.fn_pack (x : FmtV0) (fn : BitVec 7) : (x.pack fn).extractLsb' 0 7 = fn := by
  unfold FmtV0.pack
  repeat first
    | rw [BitVec.extractLsb'_append_eq_of_le (by decide)]
    | rw [BitVec.extractLsb'_append_eq_of_add_le (by decide)]
  simp

theorem FmtM.unpack_pack (x : FmtM) : FmtM.unpack x.p x.pack = .ok x := by
  unfold FmtM.unpack FmtM.pack
  repeat first
    | rw [BitVec.extractLsb'_append_eq_of_le (by decide)]
    | rw [BitVec.extractLsb'_append_eq_of_add_le (by decide)]
  simp

theorem FmtM0.unpack_pack (x : FmtM0) : FmtM0.unpack x.pack = .ok x := by
  unfold FmtM0.unpack FmtM0.pack
  repeat first
    | rw [BitVec.extractLsb'_append_eq_of_le (by decide)]
    | rw [BitVec.extractLsb'_append_eq_of_add_le (by decide)]
  simp

theorem FmtMS.unpack_pack (x : FmtMS) : FmtMS.unpack x.p x.pack = .ok x := by
  unfold FmtMS.unpack FmtMS.pack
  repeat first
    | rw [BitVec.extractLsb'_append_eq_of_le (by decide)]
    | rw [BitVec.extractLsb'_append_eq_of_add_le (by decide)]
  simp

theorem FmtMN.unpack_pack (x : FmtMN) (fn : BitVec 3) : FmtMN.unpack x.p (x.pack fn) = .ok x := by
  unfold FmtMN.unpack FmtMN.pack
  repeat first
    | rw [BitVec.extractLsb'_append_eq_of_le (by decide)]
    | rw [BitVec.extractLsb'_append_eq_of_add_le (by decide)]
  simp

theorem FmtMN.fn_pack (x : FmtMN) (fn : BitVec 3) : (x.pack fn).extractLsb' 0 3 = fn := by
  unfold FmtMN.pack
  repeat first
    | rw [BitVec.extractLsb'_append_eq_of_le (by decide)]
    | rw [BitVec.extractLsb'_append_eq_of_add_le (by decide)]
  simp

theorem FmtMN0.unpack_pack (x : FmtMN0) (fn : BitVec 3) : FmtMN0.unpack (x.pack fn) = .ok x := by
  unfold FmtMN0.unpack FmtMN0.pack
  repeat first
    | rw [BitVec.extractLsb'_append_eq_of_le (by decide)]
    | rw [BitVec.extractLsb'_append_eq_of_add_le (by decide)]
  simp

theorem FmtMN0.fn_pack (x : FmtMN0) (fn : BitVec 3) : (x.pack fn).extractLsb' 0 3 = fn := by
  unfold FmtMN0.pack
  repeat first
    | rw [BitVec.extractLsb'_append_eq_of_le (by decide)]
    | rw [BitVec.extractLsb'_append_eq_of_add_le (by decide)]
  simp

theorem FmtMQ.unpack_pack (x : FmtMQ) : FmtMQ.unpack x.p x.pack = .ok x := by
  unfold FmtMQ.unpack FmtMQ.pack
  repeat first
    | rw [BitVec.extractLsb'_append_eq_of_le (by decide)]
    | rw [BitVec.extractLsb'_append_eq_of_add_le (by decide)]
  simp

theorem FmtMC.unpack_pack (x : FmtMC) : FmtMC.unpack x.p x.pack = .ok x := by
  unfold FmtMC.unpack FmtMC.pack
  repeat first
    | rw [BitVec.extractLsb'_append_eq_of_le (by decide)]
    | rw [BitVec.extractLsb'_append_eq_of_add_le (by decide)]
  simp

theorem FmtSC0.unpack_pack (x : FmtSC0) : FmtSC0.unpack x.pack = .ok x := by
  unfold FmtSC0.unpack FmtSC0.pack
  repeat first
    | rw [BitVec.extractLsb'_append_eq_of_le (by decide)]
    | rw [BitVec.extractLsb'_append_eq_of_add_le (by decide)]
  simp

theorem FmtWT0.unpack_pack (x : FmtWT0) : FmtWT0.unpack x.pack = .ok x := by
  unfold FmtWT0.unpack FmtWT0.pack
  repeat first
    | rw [BitVec.extractLsb'_append_eq_of_le (by decide)]
    | rw [BitVec.extractLsb'_append_eq_of_add_le (by decide)]
  simp

theorem FmtB.unpack_pack (x : FmtB) : FmtB.unpack x.p x.pack = .ok x := by
  unfold FmtB.unpack FmtB.pack
  repeat first
    | rw [BitVec.extractLsb'_append_eq_of_le (by decide)]
    | rw [BitVec.extractLsb'_append_eq_of_add_le (by decide)]
  simp

theorem FmtBJ.unpack_pack (x : FmtBJ) : FmtBJ.unpack x.p x.pack = .ok x := by
  unfold FmtBJ.unpack FmtBJ.pack
  repeat first
    | rw [BitVec.extractLsb'_append_eq_of_le (by decide)]
    | rw [BitVec.extractLsb'_append_eq_of_add_le (by decide)]
  simp

theorem FmtTB0.unpack_pack (x : FmtTB0) : FmtTB0.unpack x.pack = .ok x := by
  unfold FmtTB0.unpack FmtTB0.pack
  repeat first
    | rw [BitVec.extractLsb'_append_eq_of_le (by decide)]
    | rw [BitVec.extractLsb'_append_eq_of_add_le (by decide)]
  simp

theorem FmtLP.unpack_pack (x : FmtLP) : FmtLP.unpack x.p x.pack = .ok x := by
  unfold FmtLP.unpack FmtLP.pack
  repeat first
    | rw [BitVec.extractLsb'_append_eq_of_le (by decide)]
    | rw [BitVec.extractLsb'_append_eq_of_add_le (by decide)]
  simp

theorem FmtSP.unpack_pack (x : FmtSP) : FmtSP.unpack x.p x.pack = .ok x := by
  unfold FmtSP.unpack FmtSP.pack
  repeat first
    | rw [BitVec.extractLsb'_append_eq_of_le (by decide)]
    | rw [BitVec.extractLsb'_append_eq_of_add_le (by decide)]
  simp

theorem FmtJ0.unpack_pack (x : FmtJ0) : FmtJ0.unpack x.pack = .ok x := by
  unfold FmtJ0.unpack FmtJ0.pack
  repeat first
    | rw [BitVec.extractLsb'_append_eq_of_le (by decide)]
    | rw [BitVec.extractLsb'_append_eq_of_add_le (by decide)]
  simp

theorem FmtG.unpack_pack (x : FmtG) (fn : BitVec 7) : FmtG.unpack x.p (x.pack fn) = .ok x := by
  unfold FmtG.unpack FmtG.pack
  repeat first
    | rw [BitVec.extractLsb'_append_eq_of_le (by decide)]
    | rw [BitVec.extractLsb'_append_eq_of_add_le (by decide)]
  simp

theorem FmtG.fn_pack (x : FmtG) (fn : BitVec 7) : (x.pack fn).extractLsb' 0 7 = fn := by
  unfold FmtG.pack
  repeat first
    | rw [BitVec.extractLsb'_append_eq_of_le (by decide)]
    | rw [BitVec.extractLsb'_append_eq_of_add_le (by decide)]
  simp

theorem FmtSG0.unpack_pack (x : FmtSG0) : FmtSG0.unpack x.pack = .ok x := by
  unfold FmtSG0.unpack FmtSG0.pack
  repeat first
    | rw [BitVec.extractLsb'_append_eq_of_le (by decide)]
    | rw [BitVec.extractLsb'_append_eq_of_add_le (by decide)]
  simp

theorem FmtCV0.unpack_pack (x : FmtCV0) : FmtCV0.unpack x.pack = .ok x := by
  unfold FmtCV0.unpack FmtCV0.pack
  repeat first
    | rw [BitVec.extractLsb'_append_eq_of_le (by decide)]
    | rw [BitVec.extractLsb'_append_eq_of_add_le (by decide)]
  simp

theorem FmtSR0.unpack_pack (x : FmtSR0) : FmtSR0.unpack x.pack = .ok x := by
  unfold FmtSR0.unpack FmtSR0.pack
  repeat first
    | rw [BitVec.extractLsb'_append_eq_of_le (by decide)]
    | rw [BitVec.extractLsb'_append_eq_of_add_le (by decide)]
  simp

theorem FmtTR0.unpack_pack (x : FmtTR0) : FmtTR0.unpack x.pack = .ok x := by
  unfold FmtTR0.unpack FmtTR0.pack
  repeat first
    | rw [BitVec.extractLsb'_append_eq_of_le (by decide)]
    | rw [BitVec.extractLsb'_append_eq_of_add_le (by decide)]
  simp

theorem FmtUR.unpack_pack (x : FmtUR) : FmtUR.unpack x.p x.pack = .ok x := by
  unfold FmtUR.unpack FmtUR.pack
  repeat first
    | rw [BitVec.extractLsb'_append_eq_of_le (by decide)]
    | rw [BitVec.extractLsb'_append_eq_of_add_le (by decide)]
  simp

theorem FmtUM.unpack_pack (x : FmtUM) : FmtUM.unpack x.p x.pack = .ok x := by
  unfold FmtUM.unpack FmtUM.pack
  repeat first
    | rw [BitVec.extractLsb'_append_eq_of_le (by decide)]
    | rw [BitVec.extractLsb'_append_eq_of_add_le (by decide)]
  simp

theorem FmtU2.unpack_pack (x : FmtU2) : FmtU2.unpack x.p x.pack = .ok x := by
  unfold FmtU2.unpack FmtU2.pack
  repeat first
    | rw [BitVec.extractLsb'_append_eq_of_le (by decide)]
    | rw [BitVec.extractLsb'_append_eq_of_add_le (by decide)]
  simp

theorem FmtUF.unpack_pack (x : FmtUF) : FmtUF.unpack x.p x.pack = .ok x := by
  unfold FmtUF.unpack FmtUF.pack
  repeat first
    | rw [BitVec.extractLsb'_append_eq_of_le (by decide)]
    | rw [BitVec.extractLsb'_append_eq_of_add_le (by decide)]
  simp

theorem FmtUN.unpack_pack (x : FmtUN) : FmtUN.unpack x.p x.pack = .ok x := by
  unfold FmtUN.unpack FmtUN.pack
  repeat first
    | rw [BitVec.extractLsb'_append_eq_of_le (by decide)]
    | rw [BitVec.extractLsb'_append_eq_of_add_le (by decide)]
  simp

theorem FmtUI.unpack_pack (x : FmtUI) : FmtUI.unpack x.p x.pack = .ok x := by
  unfold FmtUI.unpack FmtUI.pack
  repeat first
    | rw [BitVec.extractLsb'_append_eq_of_le (by decide)]
    | rw [BitVec.extractLsb'_append_eq_of_add_le (by decide)]
  simp

theorem FmtEL.unpack_pack (x : FmtEL) : FmtEL.unpack x.pack = .ok x := by
  unfold FmtEL.unpack FmtEL.pack
  repeat first
    | rw [BitVec.extractLsb'_append_eq_of_le (by decide)]
    | rw [BitVec.extractLsb'_append_eq_of_add_le (by decide)]
  simp

theorem FmtER.unpack_pack (x : FmtER) : FmtER.unpack x.pack = .ok x := by
  unfold FmtER.unpack FmtER.pack
  repeat first
    | rw [BitVec.extractLsb'_append_eq_of_le (by decide)]
    | rw [BitVec.extractLsb'_append_eq_of_add_le (by decide)]
  simp

theorem FmtEO.unpack_pack (x : FmtEO) : FmtEO.unpack x.pack = .ok x := by
  unfold FmtEO.unpack FmtEO.pack
  repeat first
    | rw [BitVec.extractLsb'_append_eq_of_le (by decide)]
    | rw [BitVec.extractLsb'_append_eq_of_add_le (by decide)]
  simp

theorem FmtXS.unpack_pack (x : FmtXS) (fn : BitVec 2) : FmtXS.unpack (x.pack fn) = .ok x := by
  unfold FmtXS.unpack FmtXS.pack
  repeat first
    | rw [BitVec.extractLsb'_append_eq_of_le (by decide)]
    | rw [BitVec.extractLsb'_append_eq_of_add_le (by decide)]
  simp

theorem FmtXS.fn_pack (x : FmtXS) (fn : BitVec 2) : (x.pack fn).extractLsb' 0 2 = fn := by
  unfold FmtXS.pack
  repeat first
    | rw [BitVec.extractLsb'_append_eq_of_le (by decide)]
    | rw [BitVec.extractLsb'_append_eq_of_add_le (by decide)]
  simp

theorem FmtXD.unpack_pack (x : FmtXD) (fn : BitVec 2) : FmtXD.unpack (x.pack fn) = .ok x := by
  unfold FmtXD.unpack FmtXD.pack
  repeat first
    | rw [BitVec.extractLsb'_append_eq_of_le (by decide)]
    | rw [BitVec.extractLsb'_append_eq_of_add_le (by decide)]
  simp

theorem FmtXD.fn_pack (x : FmtXD) (fn : BitVec 2) : (x.pack fn).extractLsb' 0 2 = fn := by
  unfold FmtXD.pack
  repeat first
    | rw [BitVec.extractLsb'_append_eq_of_le (by decide)]
    | rw [BitVec.extractLsb'_append_eq_of_add_le (by decide)]
  simp

theorem FmtXB.unpack_pack (x : FmtXB) (fn : BitVec 2) : FmtXB.unpack (x.pack fn) = .ok x := by
  unfold FmtXB.unpack FmtXB.pack
  repeat first
    | rw [BitVec.extractLsb'_append_eq_of_le (by decide)]
    | rw [BitVec.extractLsb'_append_eq_of_add_le (by decide)]
  simp

theorem FmtXB.fn_pack (x : FmtXB) (fn : BitVec 2) : (x.pack fn).extractLsb' 0 2 = fn := by
  unfold FmtXB.pack
  repeat first
    | rw [BitVec.extractLsb'_append_eq_of_le (by decide)]
    | rw [BitVec.extractLsb'_append_eq_of_add_le (by decide)]
  simp

theorem FmtXN.unpack_pack (x : FmtXN) : FmtXN.unpack x.pack = .ok x := by
  unfold FmtXN.unpack FmtXN.pack
  repeat first
    | rw [BitVec.extractLsb'_append_eq_of_le (by decide)]
    | rw [BitVec.extractLsb'_append_eq_of_add_le (by decide)]
  simp

theorem FmtXI.unpack_pack (x : FmtXI) : FmtXI.unpack x.pack = .ok x := by
  unfold FmtXI.unpack FmtXI.pack
  repeat first
    | rw [BitVec.extractLsb'_append_eq_of_le (by decide)]
    | rw [BitVec.extractLsb'_append_eq_of_add_le (by decide)]
  simp

theorem FmtXW.unpack_pack (x : FmtXW) : FmtXW.unpack x.pack = .ok x := by
  unfold FmtXW.unpack FmtXW.pack
  repeat first
    | rw [BitVec.extractLsb'_append_eq_of_le (by decide)]
    | rw [BitVec.extractLsb'_append_eq_of_add_le (by decide)]
  simp

theorem FmtLY.unpack_pack (x : FmtLY) : FmtLY.unpack x.pack = .ok x := by
  unfold FmtLY.unpack FmtLY.pack
  repeat first
    | rw [BitVec.extractLsb'_append_eq_of_le (by decide)]
    | rw [BitVec.extractLsb'_append_eq_of_add_le (by decide)]
  simp

theorem FmtLZ.unpack_pack (x : FmtLZ) : FmtLZ.unpack x.pack = .ok x := by
  unfold FmtLZ.unpack FmtLZ.pack
  repeat first
    | rw [BitVec.extractLsb'_append_eq_of_le (by decide)]
    | rw [BitVec.extractLsb'_append_eq_of_add_le (by decide)]
  simp

theorem FmtMI.unpack_pack (x : FmtMI) : FmtMI.unpack x.pack = .ok x := by
  unfold FmtMI.unpack FmtMI.pack
  repeat first
    | rw [BitVec.extractLsb'_append_eq_of_le (by decide)]
    | rw [BitVec.extractLsb'_append_eq_of_add_le (by decide)]
  simp

theorem FmtSL.unpack_pack (x : FmtSL) : FmtSL.unpack x.pack = .ok x := by
  unfold FmtSL.unpack FmtSL.pack
  repeat first
    | rw [BitVec.extractLsb'_append_eq_of_le (by decide)]
    | rw [BitVec.extractLsb'_append_eq_of_add_le (by decide)]
  simp

theorem FmtOB.unpack_pack (x : FmtOB) : FmtOB.unpack x.pack = .ok x := by
  unfold FmtOB.unpack FmtOB.pack
  repeat first
    | rw [BitVec.extractLsb'_append_eq_of_le (by decide)]
    | rw [BitVec.extractLsb'_append_eq_of_add_le (by decide)]
  simp

theorem FmtOQ.unpack_pack (x : FmtOQ) : FmtOQ.unpack x.pack = .ok x := by
  unfold FmtOQ.unpack FmtOQ.pack
  repeat first
    | rw [BitVec.extractLsb'_append_eq_of_le (by decide)]
    | rw [BitVec.extractLsb'_append_eq_of_add_le (by decide)]
  simp

theorem FmtOE.unpack_pack (x : FmtOE) (fn : BitVec 3) : FmtOE.unpack (x.pack fn) = .ok x := by
  unfold FmtOE.unpack FmtOE.pack
  repeat first
    | rw [BitVec.extractLsb'_append_eq_of_le (by decide)]
    | rw [BitVec.extractLsb'_append_eq_of_add_le (by decide)]
  simp

theorem FmtOE.fn_pack (x : FmtOE) (fn : BitVec 3) : (x.pack fn).extractLsb' 0 3 = fn := by
  unfold FmtOE.pack
  repeat first
    | rw [BitVec.extractLsb'_append_eq_of_le (by decide)]
    | rw [BitVec.extractLsb'_append_eq_of_add_le (by decide)]
  simp

theorem Pfx.unpack_pack (p : Pfx) : Pfx.unpack p.pack = p := by
  unfold Pfx.unpack Pfx.pack
  repeat first
    | rw [BitVec.extractLsb'_append_eq_of_le (by decide)]
    | rw [BitVec.extractLsb'_append_eq_of_add_le (by decide)]
  simp

/-! ### Words -/

theorem wordOfBytes_bytes (w : BitVec 32) :
    wordOfBytes (w.extractLsb' 0 8) (w.extractLsb' 8 8) (w.extractLsb' 16 8) (w.extractLsb' 24 8) = w := by
  unfold wordOfBytes
  rw [BitVec.extractLsb'_append_extractLsb'_eq_extractLsb' (by decide), BitVec.extractLsb'_append_extractLsb'_eq_extractLsb' (by decide),
    BitVec.extractLsb'_append_extractLsb'_eq_extractLsb' (by decide)]
  exact BitVec.extractLsb'_eq_self

theorem opWord_top (op : BitVec 8) (r : BitVec 24) : (opWord op r).extractLsb' 31 1 = op.extractLsb' 7 1 := by
  unfold opWord
  rw [BitVec.extractLsb'_append_eq_of_le (by decide)]

theorem opWord_op (op : BitVec 8) (r : BitVec 24) : (opWord op r).extractLsb' 24 7 = op.extractLsb' 0 7 := by
  unfold opWord
  rw [BitVec.extractLsb'_append_eq_of_le (by decide)]

theorem opWord_rest (op : BitVec 8) (r : BitVec 24) : (opWord op r).extractLsb' 0 24 = r := by
  unfold opWord
  rw [BitVec.extractLsb'_append_eq_of_add_le (by decide), BitVec.extractLsb'_eq_self]

theorem pfxWord_top (top : BitVec 1) (r : BitVec 24) : (top ++ ((0x7E : BitVec 7) ++ r)).extractLsb' 31 1 = top := by
  rw [BitVec.extractLsb'_append_eq_of_le (by decide)]
  simp

theorem pfxWord_rest (top : BitVec 1) (r : BitVec 24) : (top ++ ((0x7E : BitVec 7) ++ r)).extractLsb' 0 24 = r := by
  rw [BitVec.extractLsb'_append_eq_of_add_le (by decide), BitVec.extractLsb'_append_eq_of_add_le (by decide), BitVec.extractLsb'_eq_self]

theorem pfxWord_isPfx (top : BitVec 1) (r : BitVec 24) : isPfxWord (top ++ ((0x7E : BitVec 7) ++ r)) = true := by
  unfold isPfxWord
  rw [BitVec.extractLsb'_append_eq_of_add_le (by decide), BitVec.extractLsb'_append_eq_of_le (by decide)]
  rfl

theorem opWord_notPfx (op : BitVec 8) (r : BitVec 24) (h : op.extractLsb' 0 7 ≠ 0x7E) : isPfxWord (opWord op r) = false := by
  unfold isPfxWord
  rw [opWord_op]
  simpa using h

/-- A word that reads back, with a prefix of its own set or with none. -/
theorem decode_word (top : BitVec 1) (p : Option Pfx) (op : BitVec 8) (r : BitVec 24) (i : Instr) (rest : List Byte)
    (ht : op.extractLsb' 7 1 = top) (h : op.extractLsb' 0 7 ≠ 0x7E) (hd : decodeWord p (opWord op r) = .ok i) :
    decode ((pfxWords top p ++ [opWord op r]).flatMap bytesOfWord ++ rest) =
      .ok (i, ((pfxWords top p ++ [opWord op r]).flatMap bytesOfWord).length, rest) := by
  cases p with
  | none =>
    simp only [pfxWords, List.nil_append, List.flatMap_cons, List.flatMap_nil, bytesOfWord, List.cons_append, decode, wordOfBytes_bytes,
      opWord_notPfx op r h, decodeWords, hd, Bool.false_eq_true, if_false]
    rfl
  | some q =>
    simp only [pfxWords, List.nil_append, List.flatMap_cons, List.flatMap_nil, bytesOfWord, List.cons_append, decode, wordOfBytes_bytes,
      pfxWord_isPfx, opWord_notPfx op r h, decodeWords, pfxWord_top, opWord_top, ht, pfxWord_rest, Pfx.unpack_pack, hd, Bool.false_eq_true,
      if_false, if_true]
    rfl

theorem decodeWord_lane (p : Option Pfx) (op : BitVec 8) (r : BitVec 24) (n : Nat) (i : Instr) (h : op = BitVec.ofNat 8 n) (hn : n < 128)
    (hd : decodeLane p n r = .ok i) : decodeWord p (opWord op r) = .ok i := by
  unfold decodeWord
  rw [opWord_top, opWord_op, opWord_rest]
  have e : op.extractLsb' 7 1 = 0 ∧ (op.extractLsb' 0 7).toNat = n := by
    subst h
    interval_cases n <;> exact ⟨rfl, rfl⟩
  rw [e.1, e.2, hd]
  rfl

theorem decodeWord_uniform (p : Option Pfx) (op : BitVec 8) (r : BitVec 24) (n : Nat) (i : Instr) (h : op = BitVec.ofNat 8 (n + 128)) (hn : n < 128)
    (hd : decodeUniform p n r = .ok i) : decodeWord p (opWord op r) = .ok i := by
  unfold decodeWord
  rw [opWord_top, opWord_op, opWord_rest]
  have e : op.extractLsb' 7 1 = 1 ∧ (op.extractLsb' 0 7).toNat = n := by
    subst h
    interval_cases n <;> exact ⟨rfl, rfl⟩
  rw [e.1, e.2, hd]
  rfl

end Sys2Proof
end

