-- ==== Sys2Proof/Laws/State.lean ====
section
/-! SUPPORT. What each update of the state leaves of each field, so that no proof unfolds a record update. -/

namespace Sys2Proof.Machine

/-! ### State.setPlot -/

@[simp] theorem State.setPlot_status (s : State) (p : Plot) : (s.setPlot p).status = s.status := rfl
@[simp] theorem State.setPlot_powerLimit (s : State) (p : Plot) : (s.setPlot p).powerLimit = s.powerLimit := rfl
@[simp] theorem State.setPlot_scrubHours (s : State) (p : Plot) : (s.setPlot p).scrubHours = s.scrubHours := rfl
@[simp] theorem State.setPlot_links (s : State) (p : Plot) : (s.setPlot p).links = s.links := rfl
@[simp] theorem State.setPlot_yotisDown (s : State) (p : Plot) : (s.setPlot p).yotisDown = s.yotisDown := rfl
@[simp] theorem State.setPlot_dies (s : State) (p : Plot) : (s.setPlot p).dies = s.dies := rfl
@[simp] theorem State.setPlot_cores (s : State) (p : Plot) : (s.setPlot p).cores = s.cores := rfl
@[simp] theorem State.setPlot_plots (s : State) (p : Plot) : (s.setPlot p).plots = (s.plots.map fun q => if q.pid == p.pid then p else q) := rfl
@[simp] theorem State.setPlot_fields (s : State) (p : Plot) : (s.setPlot p).fields = s.fields := rfl
@[simp] theorem State.setPlot_ctxs (s : State) (p : Plot) : (s.setPlot p).ctxs = s.ctxs := rfl
@[simp] theorem State.setPlot_mem (s : State) (p : Plot) : (s.setPlot p).mem = s.mem := rfl
@[simp] theorem State.setPlot_tags (s : State) (p : Plot) : (s.setPlot p).tags = s.tags := rfl
@[simp] theorem State.setPlot_poison (s : State) (p : Plot) : (s.setPlot p).poison = s.poison := rfl
@[simp] theorem State.setPlot_relRecs (s : State) (p : Plot) : (s.setPlot p).relRecs = s.relRecs := rfl
@[simp] theorem State.setPlot_atomLast (s : State) (p : Plot) : (s.setPlot p).atomLast = s.atomLast := rfl
@[simp] theorem State.setPlot_owners (s : State) (p : Plot) : (s.setPlot p).owners = s.owners := rfl
@[simp] theorem State.setPlot_sums (s : State) (p : Plot) : (s.setPlot p).sums = s.sums := rfl
@[simp] theorem State.setPlot_contribs (s : State) (p : Plot) : (s.setPlot p).contribs = s.contribs := rfl
@[simp] theorem State.setPlot_xlines (s : State) (p : Plot) : (s.setPlot p).xlines = s.xlines := rfl
@[simp] theorem State.setPlot_homeQ (s : State) (p : Plot) : (s.setPlot p).homeQ = s.homeQ := rfl
@[simp] theorem State.setPlot_portTurn (s : State) (p : Plot) : (s.setPlot p).portTurn = s.portTurn := rfl
@[simp] theorem State.setPlot_nextIssue (s : State) (p : Plot) : (s.setPlot p).nextIssue = s.nextIssue := rfl
@[simp] theorem State.setPlot_issueLogs (s : State) (p : Plot) : (s.setPlot p).issueLogs = s.issueLogs := rfl
@[simp] theorem State.setPlot_engineOwned (s : State) (p : Plot) : (s.setPlot p).engineOwned = s.engineOwned := rfl
@[simp] theorem State.setPlot_readers (s : State) (p : Plot) : (s.setPlot p).readers = s.readers := rfl
@[simp] theorem State.setPlot_l2 (s : State) (p : Plot) : (s.setPlot p).l2 = s.l2 := rfl
@[simp] theorem State.setPlot_drains (s : State) (p : Plot) : (s.setPlot p).drains = s.drains := rfl
@[simp] theorem State.setPlot_writeBacks (s : State) (p : Plot) : (s.setPlot p).writeBacks = s.writeBacks := rfl
@[simp] theorem State.setPlot_retries (s : State) (p : Plot) : (s.setPlot p).retries = s.retries := rfl
@[simp] theorem State.setPlot_drops (s : State) (p : Plot) : (s.setPlot p).drops = s.drops := rfl
@[simp] theorem State.setPlot_ships (s : State) (p : Plot) : (s.setPlot p).ships = s.ships := rfl
@[simp] theorem State.setPlot_publishes (s : State) (p : Plot) : (s.setPlot p).publishes = s.publishes := rfl
@[simp] theorem State.setPlot_migrations (s : State) (p : Plot) : (s.setPlot p).migrations = s.migrations := rfl
@[simp] theorem State.setPlot_hostAtomics (s : State) (p : Plot) : (s.setPlot p).hostAtomics = s.hostAtomics := rfl
@[simp] theorem State.setPlot_colls (s : State) (p : Plot) : (s.setPlot p).colls = s.colls := rfl
@[simp] theorem State.setPlot_fallow (s : State) (p : Plot) : (s.setPlot p).fallow = s.fallow := rfl
@[simp] theorem State.setPlot_gangOne (s : State) (p : Plot) : (s.setPlot p).gangOne = s.gangOne := rfl
@[simp] theorem State.setPlot_decisions (s : State) (p : Plot) : (s.setPlot p).decisions = s.decisions := rfl
@[simp] theorem State.setPlot_merges (s : State) (p : Plot) : (s.setPlot p).merges = s.merges := rfl
@[simp] theorem State.setPlot_poisonOnce (s : State) (p : Plot) : (s.setPlot p).poisonOnce = s.poisonOnce := rfl
@[simp] theorem State.setPlot_homeWrites (s : State) (p : Plot) : (s.setPlot p).homeWrites = s.homeWrites := rfl
@[simp] theorem State.setPlot_logWrites (s : State) (p : Plot) : (s.setPlot p).logWrites = s.logWrites := rfl
@[simp] theorem State.setPlot_lostControl (s : State) (p : Plot) : (s.setPlot p).lostControl = s.lostControl := rfl
@[simp] theorem State.setPlot_tops (s : State) (p : Plot) : (s.setPlot p).tops = s.tops := rfl
@[simp] theorem State.setPlot_reports (s : State) (p : Plot) : (s.setPlot p).reports = s.reports := rfl
@[simp] theorem State.setPlot_inputs (s : State) (p : Plot) : (s.setPlot p).inputs = s.inputs := rfl
@[simp] theorem State.setPlot_issuing (s : State) (p : Plot) : (s.setPlot p).issuing = s.issuing := rfl
@[simp] theorem State.setPlot_resumes (s : State) (p : Plot) : (s.setPlot p).resumes = s.resumes := rfl
@[simp] theorem State.setPlot_now (s : State) (p : Plot) : (s.setPlot p).now = s.now := rfl
@[simp] theorem State.setPlot_nextPid (s : State) (p : Plot) : (s.setPlot p).nextPid = s.nextPid := rfl
@[simp] theorem State.setPlot_nextOrder (s : State) (p : Plot) : (s.setPlot p).nextOrder = s.nextOrder := rfl
@[simp] theorem State.setPlot_rotor (s : State) (p : Plot) : (s.setPlot p).rotor = s.rotor := rfl
@[simp] theorem State.setPlot_freeCtr (s : State) (p : Plot) : (s.setPlot p).freeCtr = s.freeCtr := rfl

/-! ### State.modPlot -/

@[simp] theorem State.modPlot_status (s : State) (pid : Nat) (f : Plot → Plot) : (s.modPlot pid f).status = s.status := rfl
@[simp] theorem State.modPlot_powerLimit (s : State) (pid : Nat) (f : Plot → Plot) : (s.modPlot pid f).powerLimit = s.powerLimit := rfl
@[simp] theorem State.modPlot_scrubHours (s : State) (pid : Nat) (f : Plot → Plot) : (s.modPlot pid f).scrubHours = s.scrubHours := rfl
@[simp] theorem State.modPlot_links (s : State) (pid : Nat) (f : Plot → Plot) : (s.modPlot pid f).links = s.links := rfl
@[simp] theorem State.modPlot_yotisDown (s : State) (pid : Nat) (f : Plot → Plot) : (s.modPlot pid f).yotisDown = s.yotisDown := rfl
@[simp] theorem State.modPlot_dies (s : State) (pid : Nat) (f : Plot → Plot) : (s.modPlot pid f).dies = s.dies := rfl
@[simp] theorem State.modPlot_cores (s : State) (pid : Nat) (f : Plot → Plot) : (s.modPlot pid f).cores = s.cores := rfl
@[simp] theorem State.modPlot_plots (s : State) (pid : Nat) (f : Plot → Plot) : (s.modPlot pid f).plots = (s.plots.map fun q => if q.pid == pid then f q else q) := rfl
@[simp] theorem State.modPlot_fields (s : State) (pid : Nat) (f : Plot → Plot) : (s.modPlot pid f).fields = s.fields := rfl
@[simp] theorem State.modPlot_ctxs (s : State) (pid : Nat) (f : Plot → Plot) : (s.modPlot pid f).ctxs = s.ctxs := rfl
@[simp] theorem State.modPlot_mem (s : State) (pid : Nat) (f : Plot → Plot) : (s.modPlot pid f).mem = s.mem := rfl
@[simp] theorem State.modPlot_tags (s : State) (pid : Nat) (f : Plot → Plot) : (s.modPlot pid f).tags = s.tags := rfl
@[simp] theorem State.modPlot_poison (s : State) (pid : Nat) (f : Plot → Plot) : (s.modPlot pid f).poison = s.poison := rfl
@[simp] theorem State.modPlot_relRecs (s : State) (pid : Nat) (f : Plot → Plot) : (s.modPlot pid f).relRecs = s.relRecs := rfl
@[simp] theorem State.modPlot_atomLast (s : State) (pid : Nat) (f : Plot → Plot) : (s.modPlot pid f).atomLast = s.atomLast := rfl
@[simp] theorem State.modPlot_owners (s : State) (pid : Nat) (f : Plot → Plot) : (s.modPlot pid f).owners = s.owners := rfl
@[simp] theorem State.modPlot_sums (s : State) (pid : Nat) (f : Plot → Plot) : (s.modPlot pid f).sums = s.sums := rfl
@[simp] theorem State.modPlot_contribs (s : State) (pid : Nat) (f : Plot → Plot) : (s.modPlot pid f).contribs = s.contribs := rfl
@[simp] theorem State.modPlot_xlines (s : State) (pid : Nat) (f : Plot → Plot) : (s.modPlot pid f).xlines = s.xlines := rfl
@[simp] theorem State.modPlot_homeQ (s : State) (pid : Nat) (f : Plot → Plot) : (s.modPlot pid f).homeQ = s.homeQ := rfl
@[simp] theorem State.modPlot_portTurn (s : State) (pid : Nat) (f : Plot → Plot) : (s.modPlot pid f).portTurn = s.portTurn := rfl
@[simp] theorem State.modPlot_nextIssue (s : State) (pid : Nat) (f : Plot → Plot) : (s.modPlot pid f).nextIssue = s.nextIssue := rfl
@[simp] theorem State.modPlot_issueLogs (s : State) (pid : Nat) (f : Plot → Plot) : (s.modPlot pid f).issueLogs = s.issueLogs := rfl
@[simp] theorem State.modPlot_engineOwned (s : State) (pid : Nat) (f : Plot → Plot) : (s.modPlot pid f).engineOwned = s.engineOwned := rfl
@[simp] theorem State.modPlot_readers (s : State) (pid : Nat) (f : Plot → Plot) : (s.modPlot pid f).readers = s.readers := rfl
@[simp] theorem State.modPlot_l2 (s : State) (pid : Nat) (f : Plot → Plot) : (s.modPlot pid f).l2 = s.l2 := rfl
@[simp] theorem State.modPlot_drains (s : State) (pid : Nat) (f : Plot → Plot) : (s.modPlot pid f).drains = s.drains := rfl
@[simp] theorem State.modPlot_writeBacks (s : State) (pid : Nat) (f : Plot → Plot) : (s.modPlot pid f).writeBacks = s.writeBacks := rfl
@[simp] theorem State.modPlot_retries (s : State) (pid : Nat) (f : Plot → Plot) : (s.modPlot pid f).retries = s.retries := rfl
@[simp] theorem State.modPlot_drops (s : State) (pid : Nat) (f : Plot → Plot) : (s.modPlot pid f).drops = s.drops := rfl
@[simp] theorem State.modPlot_ships (s : State) (pid : Nat) (f : Plot → Plot) : (s.modPlot pid f).ships = s.ships := rfl
@[simp] theorem State.modPlot_publishes (s : State) (pid : Nat) (f : Plot → Plot) : (s.modPlot pid f).publishes = s.publishes := rfl
@[simp] theorem State.modPlot_migrations (s : State) (pid : Nat) (f : Plot → Plot) : (s.modPlot pid f).migrations = s.migrations := rfl
@[simp] theorem State.modPlot_hostAtomics (s : State) (pid : Nat) (f : Plot → Plot) : (s.modPlot pid f).hostAtomics = s.hostAtomics := rfl
@[simp] theorem State.modPlot_colls (s : State) (pid : Nat) (f : Plot → Plot) : (s.modPlot pid f).colls = s.colls := rfl
@[simp] theorem State.modPlot_fallow (s : State) (pid : Nat) (f : Plot → Plot) : (s.modPlot pid f).fallow = s.fallow := rfl
@[simp] theorem State.modPlot_gangOne (s : State) (pid : Nat) (f : Plot → Plot) : (s.modPlot pid f).gangOne = s.gangOne := rfl
@[simp] theorem State.modPlot_decisions (s : State) (pid : Nat) (f : Plot → Plot) : (s.modPlot pid f).decisions = s.decisions := rfl
@[simp] theorem State.modPlot_merges (s : State) (pid : Nat) (f : Plot → Plot) : (s.modPlot pid f).merges = s.merges := rfl
@[simp] theorem State.modPlot_poisonOnce (s : State) (pid : Nat) (f : Plot → Plot) : (s.modPlot pid f).poisonOnce = s.poisonOnce := rfl
@[simp] theorem State.modPlot_homeWrites (s : State) (pid : Nat) (f : Plot → Plot) : (s.modPlot pid f).homeWrites = s.homeWrites := rfl
@[simp] theorem State.modPlot_logWrites (s : State) (pid : Nat) (f : Plot → Plot) : (s.modPlot pid f).logWrites = s.logWrites := rfl
@[simp] theorem State.modPlot_lostControl (s : State) (pid : Nat) (f : Plot → Plot) : (s.modPlot pid f).lostControl = s.lostControl := rfl
@[simp] theorem State.modPlot_tops (s : State) (pid : Nat) (f : Plot → Plot) : (s.modPlot pid f).tops = s.tops := rfl
@[simp] theorem State.modPlot_reports (s : State) (pid : Nat) (f : Plot → Plot) : (s.modPlot pid f).reports = s.reports := rfl
@[simp] theorem State.modPlot_inputs (s : State) (pid : Nat) (f : Plot → Plot) : (s.modPlot pid f).inputs = s.inputs := rfl
@[simp] theorem State.modPlot_issuing (s : State) (pid : Nat) (f : Plot → Plot) : (s.modPlot pid f).issuing = s.issuing := rfl
@[simp] theorem State.modPlot_resumes (s : State) (pid : Nat) (f : Plot → Plot) : (s.modPlot pid f).resumes = s.resumes := rfl
@[simp] theorem State.modPlot_now (s : State) (pid : Nat) (f : Plot → Plot) : (s.modPlot pid f).now = s.now := rfl
@[simp] theorem State.modPlot_nextPid (s : State) (pid : Nat) (f : Plot → Plot) : (s.modPlot pid f).nextPid = s.nextPid := rfl
@[simp] theorem State.modPlot_nextOrder (s : State) (pid : Nat) (f : Plot → Plot) : (s.modPlot pid f).nextOrder = s.nextOrder := rfl
@[simp] theorem State.modPlot_rotor (s : State) (pid : Nat) (f : Plot → Plot) : (s.modPlot pid f).rotor = s.rotor := rfl
@[simp] theorem State.modPlot_freeCtr (s : State) (pid : Nat) (f : Plot → Plot) : (s.modPlot pid f).freeCtr = s.freeCtr := rfl

/-! ### State.modFibre -/

@[simp] theorem State.modFibre_status (s : State) (pid fid : Nat) (f : Fibre → Fibre) : (s.modFibre pid fid f).status = s.status := rfl
@[simp] theorem State.modFibre_powerLimit (s : State) (pid fid : Nat) (f : Fibre → Fibre) : (s.modFibre pid fid f).powerLimit = s.powerLimit := rfl
@[simp] theorem State.modFibre_scrubHours (s : State) (pid fid : Nat) (f : Fibre → Fibre) : (s.modFibre pid fid f).scrubHours = s.scrubHours := rfl
@[simp] theorem State.modFibre_links (s : State) (pid fid : Nat) (f : Fibre → Fibre) : (s.modFibre pid fid f).links = s.links := rfl
@[simp] theorem State.modFibre_yotisDown (s : State) (pid fid : Nat) (f : Fibre → Fibre) : (s.modFibre pid fid f).yotisDown = s.yotisDown := rfl
@[simp] theorem State.modFibre_dies (s : State) (pid fid : Nat) (f : Fibre → Fibre) : (s.modFibre pid fid f).dies = s.dies := rfl
@[simp] theorem State.modFibre_cores (s : State) (pid fid : Nat) (f : Fibre → Fibre) : (s.modFibre pid fid f).cores = s.cores := rfl
@[simp] theorem State.modFibre_fields (s : State) (pid fid : Nat) (f : Fibre → Fibre) : (s.modFibre pid fid f).fields = s.fields := rfl
@[simp] theorem State.modFibre_ctxs (s : State) (pid fid : Nat) (f : Fibre → Fibre) : (s.modFibre pid fid f).ctxs = s.ctxs := rfl
@[simp] theorem State.modFibre_mem (s : State) (pid fid : Nat) (f : Fibre → Fibre) : (s.modFibre pid fid f).mem = s.mem := rfl
@[simp] theorem State.modFibre_tags (s : State) (pid fid : Nat) (f : Fibre → Fibre) : (s.modFibre pid fid f).tags = s.tags := rfl
@[simp] theorem State.modFibre_poison (s : State) (pid fid : Nat) (f : Fibre → Fibre) : (s.modFibre pid fid f).poison = s.poison := rfl
@[simp] theorem State.modFibre_relRecs (s : State) (pid fid : Nat) (f : Fibre → Fibre) : (s.modFibre pid fid f).relRecs = s.relRecs := rfl
@[simp] theorem State.modFibre_atomLast (s : State) (pid fid : Nat) (f : Fibre → Fibre) : (s.modFibre pid fid f).atomLast = s.atomLast := rfl
@[simp] theorem State.modFibre_owners (s : State) (pid fid : Nat) (f : Fibre → Fibre) : (s.modFibre pid fid f).owners = s.owners := rfl
@[simp] theorem State.modFibre_sums (s : State) (pid fid : Nat) (f : Fibre → Fibre) : (s.modFibre pid fid f).sums = s.sums := rfl
@[simp] theorem State.modFibre_contribs (s : State) (pid fid : Nat) (f : Fibre → Fibre) : (s.modFibre pid fid f).contribs = s.contribs := rfl
@[simp] theorem State.modFibre_xlines (s : State) (pid fid : Nat) (f : Fibre → Fibre) : (s.modFibre pid fid f).xlines = s.xlines := rfl
@[simp] theorem State.modFibre_homeQ (s : State) (pid fid : Nat) (f : Fibre → Fibre) : (s.modFibre pid fid f).homeQ = s.homeQ := rfl
@[simp] theorem State.modFibre_portTurn (s : State) (pid fid : Nat) (f : Fibre → Fibre) : (s.modFibre pid fid f).portTurn = s.portTurn := rfl
@[simp] theorem State.modFibre_nextIssue (s : State) (pid fid : Nat) (f : Fibre → Fibre) : (s.modFibre pid fid f).nextIssue = s.nextIssue := rfl
@[simp] theorem State.modFibre_issueLogs (s : State) (pid fid : Nat) (f : Fibre → Fibre) : (s.modFibre pid fid f).issueLogs = s.issueLogs := rfl
@[simp] theorem State.modFibre_engineOwned (s : State) (pid fid : Nat) (f : Fibre → Fibre) : (s.modFibre pid fid f).engineOwned = s.engineOwned := rfl
@[simp] theorem State.modFibre_readers (s : State) (pid fid : Nat) (f : Fibre → Fibre) : (s.modFibre pid fid f).readers = s.readers := rfl
@[simp] theorem State.modFibre_l2 (s : State) (pid fid : Nat) (f : Fibre → Fibre) : (s.modFibre pid fid f).l2 = s.l2 := rfl
@[simp] theorem State.modFibre_drains (s : State) (pid fid : Nat) (f : Fibre → Fibre) : (s.modFibre pid fid f).drains = s.drains := rfl
@[simp] theorem State.modFibre_writeBacks (s : State) (pid fid : Nat) (f : Fibre → Fibre) : (s.modFibre pid fid f).writeBacks = s.writeBacks := rfl
@[simp] theorem State.modFibre_retries (s : State) (pid fid : Nat) (f : Fibre → Fibre) : (s.modFibre pid fid f).retries = s.retries := rfl
@[simp] theorem State.modFibre_drops (s : State) (pid fid : Nat) (f : Fibre → Fibre) : (s.modFibre pid fid f).drops = s.drops := rfl
@[simp] theorem State.modFibre_ships (s : State) (pid fid : Nat) (f : Fibre → Fibre) : (s.modFibre pid fid f).ships = s.ships := rfl
@[simp] theorem State.modFibre_publishes (s : State) (pid fid : Nat) (f : Fibre → Fibre) : (s.modFibre pid fid f).publishes = s.publishes := rfl
@[simp] theorem State.modFibre_migrations (s : State) (pid fid : Nat) (f : Fibre → Fibre) : (s.modFibre pid fid f).migrations = s.migrations := rfl
@[simp] theorem State.modFibre_hostAtomics (s : State) (pid fid : Nat) (f : Fibre → Fibre) : (s.modFibre pid fid f).hostAtomics = s.hostAtomics := rfl
@[simp] theorem State.modFibre_colls (s : State) (pid fid : Nat) (f : Fibre → Fibre) : (s.modFibre pid fid f).colls = s.colls := rfl
@[simp] theorem State.modFibre_fallow (s : State) (pid fid : Nat) (f : Fibre → Fibre) : (s.modFibre pid fid f).fallow = s.fallow := rfl
@[simp] theorem State.modFibre_gangOne (s : State) (pid fid : Nat) (f : Fibre → Fibre) : (s.modFibre pid fid f).gangOne = s.gangOne := rfl
@[simp] theorem State.modFibre_decisions (s : State) (pid fid : Nat) (f : Fibre → Fibre) : (s.modFibre pid fid f).decisions = s.decisions := rfl
@[simp] theorem State.modFibre_merges (s : State) (pid fid : Nat) (f : Fibre → Fibre) : (s.modFibre pid fid f).merges = s.merges := rfl
@[simp] theorem State.modFibre_poisonOnce (s : State) (pid fid : Nat) (f : Fibre → Fibre) : (s.modFibre pid fid f).poisonOnce = s.poisonOnce := rfl
@[simp] theorem State.modFibre_homeWrites (s : State) (pid fid : Nat) (f : Fibre → Fibre) : (s.modFibre pid fid f).homeWrites = s.homeWrites := rfl
@[simp] theorem State.modFibre_logWrites (s : State) (pid fid : Nat) (f : Fibre → Fibre) : (s.modFibre pid fid f).logWrites = s.logWrites := rfl
@[simp] theorem State.modFibre_lostControl (s : State) (pid fid : Nat) (f : Fibre → Fibre) : (s.modFibre pid fid f).lostControl = s.lostControl := rfl
@[simp] theorem State.modFibre_tops (s : State) (pid fid : Nat) (f : Fibre → Fibre) : (s.modFibre pid fid f).tops = s.tops := rfl
@[simp] theorem State.modFibre_reports (s : State) (pid fid : Nat) (f : Fibre → Fibre) : (s.modFibre pid fid f).reports = s.reports := rfl
@[simp] theorem State.modFibre_inputs (s : State) (pid fid : Nat) (f : Fibre → Fibre) : (s.modFibre pid fid f).inputs = s.inputs := rfl
@[simp] theorem State.modFibre_issuing (s : State) (pid fid : Nat) (f : Fibre → Fibre) : (s.modFibre pid fid f).issuing = s.issuing := rfl
@[simp] theorem State.modFibre_resumes (s : State) (pid fid : Nat) (f : Fibre → Fibre) : (s.modFibre pid fid f).resumes = s.resumes := rfl
@[simp] theorem State.modFibre_now (s : State) (pid fid : Nat) (f : Fibre → Fibre) : (s.modFibre pid fid f).now = s.now := rfl
@[simp] theorem State.modFibre_nextPid (s : State) (pid fid : Nat) (f : Fibre → Fibre) : (s.modFibre pid fid f).nextPid = s.nextPid := rfl
@[simp] theorem State.modFibre_nextOrder (s : State) (pid fid : Nat) (f : Fibre → Fibre) : (s.modFibre pid fid f).nextOrder = s.nextOrder := rfl
@[simp] theorem State.modFibre_rotor (s : State) (pid fid : Nat) (f : Fibre → Fibre) : (s.modFibre pid fid f).rotor = s.rotor := rfl
@[simp] theorem State.modFibre_freeCtr (s : State) (pid fid : Nat) (f : Fibre → Fibre) : (s.modFibre pid fid f).freeCtr = s.freeCtr := rfl

/-! ### State.setCore -/

@[simp] theorem State.setCore_status (s : State) (c : Core) : (s.setCore c).status = s.status := by unfold State.setCore; split <;> rfl
@[simp] theorem State.setCore_powerLimit (s : State) (c : Core) : (s.setCore c).powerLimit = s.powerLimit := by unfold State.setCore; split <;> rfl
@[simp] theorem State.setCore_scrubHours (s : State) (c : Core) : (s.setCore c).scrubHours = s.scrubHours := by unfold State.setCore; split <;> rfl
@[simp] theorem State.setCore_links (s : State) (c : Core) : (s.setCore c).links = s.links := by unfold State.setCore; split <;> rfl
@[simp] theorem State.setCore_yotisDown (s : State) (c : Core) : (s.setCore c).yotisDown = s.yotisDown := by unfold State.setCore; split <;> rfl
@[simp] theorem State.setCore_dies (s : State) (c : Core) : (s.setCore c).dies = s.dies := by unfold State.setCore; split <;> rfl
@[simp] theorem State.setCore_plots (s : State) (c : Core) : (s.setCore c).plots = s.plots := by unfold State.setCore; split <;> rfl
@[simp] theorem State.setCore_fields (s : State) (c : Core) : (s.setCore c).fields = s.fields := by unfold State.setCore; split <;> rfl
@[simp] theorem State.setCore_ctxs (s : State) (c : Core) : (s.setCore c).ctxs = s.ctxs := by unfold State.setCore; split <;> rfl
@[simp] theorem State.setCore_mem (s : State) (c : Core) : (s.setCore c).mem = s.mem := by unfold State.setCore; split <;> rfl
@[simp] theorem State.setCore_tags (s : State) (c : Core) : (s.setCore c).tags = s.tags := by unfold State.setCore; split <;> rfl
@[simp] theorem State.setCore_poison (s : State) (c : Core) : (s.setCore c).poison = s.poison := by unfold State.setCore; split <;> rfl
@[simp] theorem State.setCore_relRecs (s : State) (c : Core) : (s.setCore c).relRecs = s.relRecs := by unfold State.setCore; split <;> rfl
@[simp] theorem State.setCore_atomLast (s : State) (c : Core) : (s.setCore c).atomLast = s.atomLast := by unfold State.setCore; split <;> rfl
@[simp] theorem State.setCore_owners (s : State) (c : Core) : (s.setCore c).owners = s.owners := by unfold State.setCore; split <;> rfl
@[simp] theorem State.setCore_sums (s : State) (c : Core) : (s.setCore c).sums = s.sums := by unfold State.setCore; split <;> rfl
@[simp] theorem State.setCore_contribs (s : State) (c : Core) : (s.setCore c).contribs = s.contribs := by unfold State.setCore; split <;> rfl
@[simp] theorem State.setCore_xlines (s : State) (c : Core) : (s.setCore c).xlines = s.xlines := by unfold State.setCore; split <;> rfl
@[simp] theorem State.setCore_homeQ (s : State) (c : Core) : (s.setCore c).homeQ = s.homeQ := by unfold State.setCore; split <;> rfl
@[simp] theorem State.setCore_portTurn (s : State) (c : Core) : (s.setCore c).portTurn = s.portTurn := by unfold State.setCore; split <;> rfl
@[simp] theorem State.setCore_nextIssue (s : State) (c : Core) : (s.setCore c).nextIssue = s.nextIssue := by unfold State.setCore; split <;> rfl
@[simp] theorem State.setCore_issueLogs (s : State) (c : Core) : (s.setCore c).issueLogs = s.issueLogs := by unfold State.setCore; split <;> rfl
@[simp] theorem State.setCore_engineOwned (s : State) (c : Core) : (s.setCore c).engineOwned = s.engineOwned := by unfold State.setCore; split <;> rfl
@[simp] theorem State.setCore_readers (s : State) (c : Core) : (s.setCore c).readers = s.readers := by unfold State.setCore; split <;> rfl
@[simp] theorem State.setCore_l2 (s : State) (c : Core) : (s.setCore c).l2 = s.l2 := by unfold State.setCore; split <;> rfl
@[simp] theorem State.setCore_drains (s : State) (c : Core) : (s.setCore c).drains = s.drains := by unfold State.setCore; split <;> rfl
@[simp] theorem State.setCore_writeBacks (s : State) (c : Core) : (s.setCore c).writeBacks = s.writeBacks := by unfold State.setCore; split <;> rfl
@[simp] theorem State.setCore_retries (s : State) (c : Core) : (s.setCore c).retries = s.retries := by unfold State.setCore; split <;> rfl
@[simp] theorem State.setCore_drops (s : State) (c : Core) : (s.setCore c).drops = s.drops := by unfold State.setCore; split <;> rfl
@[simp] theorem State.setCore_ships (s : State) (c : Core) : (s.setCore c).ships = s.ships := by unfold State.setCore; split <;> rfl
@[simp] theorem State.setCore_publishes (s : State) (c : Core) : (s.setCore c).publishes = s.publishes := by unfold State.setCore; split <;> rfl
@[simp] theorem State.setCore_migrations (s : State) (c : Core) : (s.setCore c).migrations = s.migrations := by unfold State.setCore; split <;> rfl
@[simp] theorem State.setCore_hostAtomics (s : State) (c : Core) : (s.setCore c).hostAtomics = s.hostAtomics := by unfold State.setCore; split <;> rfl
@[simp] theorem State.setCore_colls (s : State) (c : Core) : (s.setCore c).colls = s.colls := by unfold State.setCore; split <;> rfl
@[simp] theorem State.setCore_fallow (s : State) (c : Core) : (s.setCore c).fallow = s.fallow := by unfold State.setCore; split <;> rfl
@[simp] theorem State.setCore_gangOne (s : State) (c : Core) : (s.setCore c).gangOne = s.gangOne := by unfold State.setCore; split <;> rfl
@[simp] theorem State.setCore_decisions (s : State) (c : Core) : (s.setCore c).decisions = s.decisions := by unfold State.setCore; split <;> rfl
@[simp] theorem State.setCore_merges (s : State) (c : Core) : (s.setCore c).merges = s.merges := by unfold State.setCore; split <;> rfl
@[simp] theorem State.setCore_poisonOnce (s : State) (c : Core) : (s.setCore c).poisonOnce = s.poisonOnce := by unfold State.setCore; split <;> rfl
@[simp] theorem State.setCore_homeWrites (s : State) (c : Core) : (s.setCore c).homeWrites = s.homeWrites := by unfold State.setCore; split <;> rfl
@[simp] theorem State.setCore_logWrites (s : State) (c : Core) : (s.setCore c).logWrites = s.logWrites := by unfold State.setCore; split <;> rfl
@[simp] theorem State.setCore_lostControl (s : State) (c : Core) : (s.setCore c).lostControl = s.lostControl := by unfold State.setCore; split <;> rfl
@[simp] theorem State.setCore_tops (s : State) (c : Core) : (s.setCore c).tops = s.tops := by unfold State.setCore; split <;> rfl
@[simp] theorem State.setCore_reports (s : State) (c : Core) : (s.setCore c).reports = s.reports := by unfold State.setCore; split <;> rfl
@[simp] theorem State.setCore_inputs (s : State) (c : Core) : (s.setCore c).inputs = s.inputs := by unfold State.setCore; split <;> rfl
@[simp] theorem State.setCore_issuing (s : State) (c : Core) : (s.setCore c).issuing = s.issuing := by unfold State.setCore; split <;> rfl
@[simp] theorem State.setCore_resumes (s : State) (c : Core) : (s.setCore c).resumes = s.resumes := by unfold State.setCore; split <;> rfl
@[simp] theorem State.setCore_now (s : State) (c : Core) : (s.setCore c).now = s.now := by unfold State.setCore; split <;> rfl
@[simp] theorem State.setCore_nextPid (s : State) (c : Core) : (s.setCore c).nextPid = s.nextPid := by unfold State.setCore; split <;> rfl
@[simp] theorem State.setCore_nextOrder (s : State) (c : Core) : (s.setCore c).nextOrder = s.nextOrder := by unfold State.setCore; split <;> rfl
@[simp] theorem State.setCore_rotor (s : State) (c : Core) : (s.setCore c).rotor = s.rotor := by unfold State.setCore; split <;> rfl
@[simp] theorem State.setCore_freeCtr (s : State) (c : Core) : (s.setCore c).freeCtr = s.freeCtr := by unfold State.setCore; split <;> rfl

/-! ### State.modCore -/

@[simp] theorem State.modCore_status (s : State) (n : Nat) (f : Core → Core) : (s.modCore n f).status = s.status := State.setCore_status s _
@[simp] theorem State.modCore_powerLimit (s : State) (n : Nat) (f : Core → Core) : (s.modCore n f).powerLimit = s.powerLimit := State.setCore_powerLimit s _
@[simp] theorem State.modCore_scrubHours (s : State) (n : Nat) (f : Core → Core) : (s.modCore n f).scrubHours = s.scrubHours := State.setCore_scrubHours s _
@[simp] theorem State.modCore_links (s : State) (n : Nat) (f : Core → Core) : (s.modCore n f).links = s.links := State.setCore_links s _
@[simp] theorem State.modCore_yotisDown (s : State) (n : Nat) (f : Core → Core) : (s.modCore n f).yotisDown = s.yotisDown := State.setCore_yotisDown s _
@[simp] theorem State.modCore_dies (s : State) (n : Nat) (f : Core → Core) : (s.modCore n f).dies = s.dies := State.setCore_dies s _
@[simp] theorem State.modCore_plots (s : State) (n : Nat) (f : Core → Core) : (s.modCore n f).plots = s.plots := State.setCore_plots s _
@[simp] theorem State.modCore_fields (s : State) (n : Nat) (f : Core → Core) : (s.modCore n f).fields = s.fields := State.setCore_fields s _
@[simp] theorem State.modCore_ctxs (s : State) (n : Nat) (f : Core → Core) : (s.modCore n f).ctxs = s.ctxs := State.setCore_ctxs s _
@[simp] theorem State.modCore_mem (s : State) (n : Nat) (f : Core → Core) : (s.modCore n f).mem = s.mem := State.setCore_mem s _
@[simp] theorem State.modCore_tags (s : State) (n : Nat) (f : Core → Core) : (s.modCore n f).tags = s.tags := State.setCore_tags s _
@[simp] theorem State.modCore_poison (s : State) (n : Nat) (f : Core → Core) : (s.modCore n f).poison = s.poison := State.setCore_poison s _
@[simp] theorem State.modCore_relRecs (s : State) (n : Nat) (f : Core → Core) : (s.modCore n f).relRecs = s.relRecs := State.setCore_relRecs s _
@[simp] theorem State.modCore_atomLast (s : State) (n : Nat) (f : Core → Core) : (s.modCore n f).atomLast = s.atomLast := State.setCore_atomLast s _
@[simp] theorem State.modCore_owners (s : State) (n : Nat) (f : Core → Core) : (s.modCore n f).owners = s.owners := State.setCore_owners s _
@[simp] theorem State.modCore_sums (s : State) (n : Nat) (f : Core → Core) : (s.modCore n f).sums = s.sums := State.setCore_sums s _
@[simp] theorem State.modCore_contribs (s : State) (n : Nat) (f : Core → Core) : (s.modCore n f).contribs = s.contribs := State.setCore_contribs s _
@[simp] theorem State.modCore_xlines (s : State) (n : Nat) (f : Core → Core) : (s.modCore n f).xlines = s.xlines := State.setCore_xlines s _
@[simp] theorem State.modCore_homeQ (s : State) (n : Nat) (f : Core → Core) : (s.modCore n f).homeQ = s.homeQ := State.setCore_homeQ s _
@[simp] theorem State.modCore_portTurn (s : State) (n : Nat) (f : Core → Core) : (s.modCore n f).portTurn = s.portTurn := State.setCore_portTurn s _
@[simp] theorem State.modCore_nextIssue (s : State) (n : Nat) (f : Core → Core) : (s.modCore n f).nextIssue = s.nextIssue := State.setCore_nextIssue s _
@[simp] theorem State.modCore_issueLogs (s : State) (n : Nat) (f : Core → Core) : (s.modCore n f).issueLogs = s.issueLogs := State.setCore_issueLogs s _
@[simp] theorem State.modCore_engineOwned (s : State) (n : Nat) (f : Core → Core) : (s.modCore n f).engineOwned = s.engineOwned := State.setCore_engineOwned s _
@[simp] theorem State.modCore_readers (s : State) (n : Nat) (f : Core → Core) : (s.modCore n f).readers = s.readers := State.setCore_readers s _
@[simp] theorem State.modCore_l2 (s : State) (n : Nat) (f : Core → Core) : (s.modCore n f).l2 = s.l2 := State.setCore_l2 s _
@[simp] theorem State.modCore_drains (s : State) (n : Nat) (f : Core → Core) : (s.modCore n f).drains = s.drains := State.setCore_drains s _
@[simp] theorem State.modCore_writeBacks (s : State) (n : Nat) (f : Core → Core) : (s.modCore n f).writeBacks = s.writeBacks := State.setCore_writeBacks s _
@[simp] theorem State.modCore_retries (s : State) (n : Nat) (f : Core → Core) : (s.modCore n f).retries = s.retries := State.setCore_retries s _
@[simp] theorem State.modCore_drops (s : State) (n : Nat) (f : Core → Core) : (s.modCore n f).drops = s.drops := State.setCore_drops s _
@[simp] theorem State.modCore_ships (s : State) (n : Nat) (f : Core → Core) : (s.modCore n f).ships = s.ships := State.setCore_ships s _
@[simp] theorem State.modCore_publishes (s : State) (n : Nat) (f : Core → Core) : (s.modCore n f).publishes = s.publishes := State.setCore_publishes s _
@[simp] theorem State.modCore_migrations (s : State) (n : Nat) (f : Core → Core) : (s.modCore n f).migrations = s.migrations := State.setCore_migrations s _
@[simp] theorem State.modCore_hostAtomics (s : State) (n : Nat) (f : Core → Core) : (s.modCore n f).hostAtomics = s.hostAtomics := State.setCore_hostAtomics s _
@[simp] theorem State.modCore_colls (s : State) (n : Nat) (f : Core → Core) : (s.modCore n f).colls = s.colls := State.setCore_colls s _
@[simp] theorem State.modCore_fallow (s : State) (n : Nat) (f : Core → Core) : (s.modCore n f).fallow = s.fallow := State.setCore_fallow s _
@[simp] theorem State.modCore_gangOne (s : State) (n : Nat) (f : Core → Core) : (s.modCore n f).gangOne = s.gangOne := State.setCore_gangOne s _
@[simp] theorem State.modCore_decisions (s : State) (n : Nat) (f : Core → Core) : (s.modCore n f).decisions = s.decisions := State.setCore_decisions s _
@[simp] theorem State.modCore_merges (s : State) (n : Nat) (f : Core → Core) : (s.modCore n f).merges = s.merges := State.setCore_merges s _
@[simp] theorem State.modCore_poisonOnce (s : State) (n : Nat) (f : Core → Core) : (s.modCore n f).poisonOnce = s.poisonOnce := State.setCore_poisonOnce s _
@[simp] theorem State.modCore_homeWrites (s : State) (n : Nat) (f : Core → Core) : (s.modCore n f).homeWrites = s.homeWrites := State.setCore_homeWrites s _
@[simp] theorem State.modCore_logWrites (s : State) (n : Nat) (f : Core → Core) : (s.modCore n f).logWrites = s.logWrites := State.setCore_logWrites s _
@[simp] theorem State.modCore_lostControl (s : State) (n : Nat) (f : Core → Core) : (s.modCore n f).lostControl = s.lostControl := State.setCore_lostControl s _
@[simp] theorem State.modCore_tops (s : State) (n : Nat) (f : Core → Core) : (s.modCore n f).tops = s.tops := State.setCore_tops s _
@[simp] theorem State.modCore_reports (s : State) (n : Nat) (f : Core → Core) : (s.modCore n f).reports = s.reports := State.setCore_reports s _
@[simp] theorem State.modCore_inputs (s : State) (n : Nat) (f : Core → Core) : (s.modCore n f).inputs = s.inputs := State.setCore_inputs s _
@[simp] theorem State.modCore_issuing (s : State) (n : Nat) (f : Core → Core) : (s.modCore n f).issuing = s.issuing := State.setCore_issuing s _
@[simp] theorem State.modCore_resumes (s : State) (n : Nat) (f : Core → Core) : (s.modCore n f).resumes = s.resumes := State.setCore_resumes s _
@[simp] theorem State.modCore_now (s : State) (n : Nat) (f : Core → Core) : (s.modCore n f).now = s.now := State.setCore_now s _
@[simp] theorem State.modCore_nextPid (s : State) (n : Nat) (f : Core → Core) : (s.modCore n f).nextPid = s.nextPid := State.setCore_nextPid s _
@[simp] theorem State.modCore_nextOrder (s : State) (n : Nat) (f : Core → Core) : (s.modCore n f).nextOrder = s.nextOrder := State.setCore_nextOrder s _
@[simp] theorem State.modCore_rotor (s : State) (n : Nat) (f : Core → Core) : (s.modCore n f).rotor = s.rotor := State.setCore_rotor s _
@[simp] theorem State.modCore_freeCtr (s : State) (n : Nat) (f : Core → Core) : (s.modCore n f).freeCtr = s.freeCtr := State.setCore_freeCtr s _

/-! ### State.setDie -/

@[simp] theorem State.setDie_status (s : State) (d : Die) : (s.setDie d).status = s.status := rfl
@[simp] theorem State.setDie_powerLimit (s : State) (d : Die) : (s.setDie d).powerLimit = s.powerLimit := rfl
@[simp] theorem State.setDie_scrubHours (s : State) (d : Die) : (s.setDie d).scrubHours = s.scrubHours := rfl
@[simp] theorem State.setDie_links (s : State) (d : Die) : (s.setDie d).links = s.links := rfl
@[simp] theorem State.setDie_yotisDown (s : State) (d : Die) : (s.setDie d).yotisDown = s.yotisDown := rfl
@[simp] theorem State.setDie_dies (s : State) (d : Die) : (s.setDie d).dies = (s.dies.map fun e => if e.num == d.num then d else e) := rfl
@[simp] theorem State.setDie_cores (s : State) (d : Die) : (s.setDie d).cores = s.cores := rfl
@[simp] theorem State.setDie_plots (s : State) (d : Die) : (s.setDie d).plots = s.plots := rfl
@[simp] theorem State.setDie_fields (s : State) (d : Die) : (s.setDie d).fields = s.fields := rfl
@[simp] theorem State.setDie_ctxs (s : State) (d : Die) : (s.setDie d).ctxs = s.ctxs := rfl
@[simp] theorem State.setDie_mem (s : State) (d : Die) : (s.setDie d).mem = s.mem := rfl
@[simp] theorem State.setDie_tags (s : State) (d : Die) : (s.setDie d).tags = s.tags := rfl
@[simp] theorem State.setDie_poison (s : State) (d : Die) : (s.setDie d).poison = s.poison := rfl
@[simp] theorem State.setDie_relRecs (s : State) (d : Die) : (s.setDie d).relRecs = s.relRecs := rfl
@[simp] theorem State.setDie_atomLast (s : State) (d : Die) : (s.setDie d).atomLast = s.atomLast := rfl
@[simp] theorem State.setDie_owners (s : State) (d : Die) : (s.setDie d).owners = s.owners := rfl
@[simp] theorem State.setDie_sums (s : State) (d : Die) : (s.setDie d).sums = s.sums := rfl
@[simp] theorem State.setDie_contribs (s : State) (d : Die) : (s.setDie d).contribs = s.contribs := rfl
@[simp] theorem State.setDie_xlines (s : State) (d : Die) : (s.setDie d).xlines = s.xlines := rfl
@[simp] theorem State.setDie_homeQ (s : State) (d : Die) : (s.setDie d).homeQ = s.homeQ := rfl
@[simp] theorem State.setDie_portTurn (s : State) (d : Die) : (s.setDie d).portTurn = s.portTurn := rfl
@[simp] theorem State.setDie_nextIssue (s : State) (d : Die) : (s.setDie d).nextIssue = s.nextIssue := rfl
@[simp] theorem State.setDie_issueLogs (s : State) (d : Die) : (s.setDie d).issueLogs = s.issueLogs := rfl
@[simp] theorem State.setDie_engineOwned (s : State) (d : Die) : (s.setDie d).engineOwned = s.engineOwned := rfl
@[simp] theorem State.setDie_readers (s : State) (d : Die) : (s.setDie d).readers = s.readers := rfl
@[simp] theorem State.setDie_l2 (s : State) (d : Die) : (s.setDie d).l2 = s.l2 := rfl
@[simp] theorem State.setDie_drains (s : State) (d : Die) : (s.setDie d).drains = s.drains := rfl
@[simp] theorem State.setDie_writeBacks (s : State) (d : Die) : (s.setDie d).writeBacks = s.writeBacks := rfl
@[simp] theorem State.setDie_retries (s : State) (d : Die) : (s.setDie d).retries = s.retries := rfl
@[simp] theorem State.setDie_drops (s : State) (d : Die) : (s.setDie d).drops = s.drops := rfl
@[simp] theorem State.setDie_ships (s : State) (d : Die) : (s.setDie d).ships = s.ships := rfl
@[simp] theorem State.setDie_publishes (s : State) (d : Die) : (s.setDie d).publishes = s.publishes := rfl
@[simp] theorem State.setDie_migrations (s : State) (d : Die) : (s.setDie d).migrations = s.migrations := rfl
@[simp] theorem State.setDie_hostAtomics (s : State) (d : Die) : (s.setDie d).hostAtomics = s.hostAtomics := rfl
@[simp] theorem State.setDie_colls (s : State) (d : Die) : (s.setDie d).colls = s.colls := rfl
@[simp] theorem State.setDie_fallow (s : State) (d : Die) : (s.setDie d).fallow = s.fallow := rfl
@[simp] theorem State.setDie_gangOne (s : State) (d : Die) : (s.setDie d).gangOne = s.gangOne := rfl
@[simp] theorem State.setDie_decisions (s : State) (d : Die) : (s.setDie d).decisions = s.decisions := rfl
@[simp] theorem State.setDie_merges (s : State) (d : Die) : (s.setDie d).merges = s.merges := rfl
@[simp] theorem State.setDie_poisonOnce (s : State) (d : Die) : (s.setDie d).poisonOnce = s.poisonOnce := rfl
@[simp] theorem State.setDie_homeWrites (s : State) (d : Die) : (s.setDie d).homeWrites = s.homeWrites := rfl
@[simp] theorem State.setDie_logWrites (s : State) (d : Die) : (s.setDie d).logWrites = s.logWrites := rfl
@[simp] theorem State.setDie_lostControl (s : State) (d : Die) : (s.setDie d).lostControl = s.lostControl := rfl
@[simp] theorem State.setDie_tops (s : State) (d : Die) : (s.setDie d).tops = s.tops := rfl
@[simp] theorem State.setDie_reports (s : State) (d : Die) : (s.setDie d).reports = s.reports := rfl
@[simp] theorem State.setDie_inputs (s : State) (d : Die) : (s.setDie d).inputs = s.inputs := rfl
@[simp] theorem State.setDie_issuing (s : State) (d : Die) : (s.setDie d).issuing = s.issuing := rfl
@[simp] theorem State.setDie_resumes (s : State) (d : Die) : (s.setDie d).resumes = s.resumes := rfl
@[simp] theorem State.setDie_now (s : State) (d : Die) : (s.setDie d).now = s.now := rfl
@[simp] theorem State.setDie_nextPid (s : State) (d : Die) : (s.setDie d).nextPid = s.nextPid := rfl
@[simp] theorem State.setDie_nextOrder (s : State) (d : Die) : (s.setDie d).nextOrder = s.nextOrder := rfl
@[simp] theorem State.setDie_rotor (s : State) (d : Die) : (s.setDie d).rotor = s.rotor := rfl
@[simp] theorem State.setDie_freeCtr (s : State) (d : Die) : (s.setDie d).freeCtr = s.freeCtr := rfl

/-! ### State.modDie -/

@[simp] theorem State.modDie_status (s : State) (n : Nat) (f : Die → Die) : (s.modDie n f).status = s.status := rfl
@[simp] theorem State.modDie_powerLimit (s : State) (n : Nat) (f : Die → Die) : (s.modDie n f).powerLimit = s.powerLimit := rfl
@[simp] theorem State.modDie_scrubHours (s : State) (n : Nat) (f : Die → Die) : (s.modDie n f).scrubHours = s.scrubHours := rfl
@[simp] theorem State.modDie_links (s : State) (n : Nat) (f : Die → Die) : (s.modDie n f).links = s.links := rfl
@[simp] theorem State.modDie_yotisDown (s : State) (n : Nat) (f : Die → Die) : (s.modDie n f).yotisDown = s.yotisDown := rfl
@[simp] theorem State.modDie_cores (s : State) (n : Nat) (f : Die → Die) : (s.modDie n f).cores = s.cores := rfl
@[simp] theorem State.modDie_plots (s : State) (n : Nat) (f : Die → Die) : (s.modDie n f).plots = s.plots := rfl
@[simp] theorem State.modDie_fields (s : State) (n : Nat) (f : Die → Die) : (s.modDie n f).fields = s.fields := rfl
@[simp] theorem State.modDie_ctxs (s : State) (n : Nat) (f : Die → Die) : (s.modDie n f).ctxs = s.ctxs := rfl
@[simp] theorem State.modDie_mem (s : State) (n : Nat) (f : Die → Die) : (s.modDie n f).mem = s.mem := rfl
@[simp] theorem State.modDie_tags (s : State) (n : Nat) (f : Die → Die) : (s.modDie n f).tags = s.tags := rfl
@[simp] theorem State.modDie_poison (s : State) (n : Nat) (f : Die → Die) : (s.modDie n f).poison = s.poison := rfl
@[simp] theorem State.modDie_relRecs (s : State) (n : Nat) (f : Die → Die) : (s.modDie n f).relRecs = s.relRecs := rfl
@[simp] theorem State.modDie_atomLast (s : State) (n : Nat) (f : Die → Die) : (s.modDie n f).atomLast = s.atomLast := rfl
@[simp] theorem State.modDie_owners (s : State) (n : Nat) (f : Die → Die) : (s.modDie n f).owners = s.owners := rfl
@[simp] theorem State.modDie_sums (s : State) (n : Nat) (f : Die → Die) : (s.modDie n f).sums = s.sums := rfl
@[simp] theorem State.modDie_contribs (s : State) (n : Nat) (f : Die → Die) : (s.modDie n f).contribs = s.contribs := rfl
@[simp] theorem State.modDie_xlines (s : State) (n : Nat) (f : Die → Die) : (s.modDie n f).xlines = s.xlines := rfl
@[simp] theorem State.modDie_homeQ (s : State) (n : Nat) (f : Die → Die) : (s.modDie n f).homeQ = s.homeQ := rfl
@[simp] theorem State.modDie_portTurn (s : State) (n : Nat) (f : Die → Die) : (s.modDie n f).portTurn = s.portTurn := rfl
@[simp] theorem State.modDie_nextIssue (s : State) (n : Nat) (f : Die → Die) : (s.modDie n f).nextIssue = s.nextIssue := rfl
@[simp] theorem State.modDie_issueLogs (s : State) (n : Nat) (f : Die → Die) : (s.modDie n f).issueLogs = s.issueLogs := rfl
@[simp] theorem State.modDie_engineOwned (s : State) (n : Nat) (f : Die → Die) : (s.modDie n f).engineOwned = s.engineOwned := rfl
@[simp] theorem State.modDie_readers (s : State) (n : Nat) (f : Die → Die) : (s.modDie n f).readers = s.readers := rfl
@[simp] theorem State.modDie_l2 (s : State) (n : Nat) (f : Die → Die) : (s.modDie n f).l2 = s.l2 := rfl
@[simp] theorem State.modDie_drains (s : State) (n : Nat) (f : Die → Die) : (s.modDie n f).drains = s.drains := rfl
@[simp] theorem State.modDie_writeBacks (s : State) (n : Nat) (f : Die → Die) : (s.modDie n f).writeBacks = s.writeBacks := rfl
@[simp] theorem State.modDie_retries (s : State) (n : Nat) (f : Die → Die) : (s.modDie n f).retries = s.retries := rfl
@[simp] theorem State.modDie_drops (s : State) (n : Nat) (f : Die → Die) : (s.modDie n f).drops = s.drops := rfl
@[simp] theorem State.modDie_ships (s : State) (n : Nat) (f : Die → Die) : (s.modDie n f).ships = s.ships := rfl
@[simp] theorem State.modDie_publishes (s : State) (n : Nat) (f : Die → Die) : (s.modDie n f).publishes = s.publishes := rfl
@[simp] theorem State.modDie_migrations (s : State) (n : Nat) (f : Die → Die) : (s.modDie n f).migrations = s.migrations := rfl
@[simp] theorem State.modDie_hostAtomics (s : State) (n : Nat) (f : Die → Die) : (s.modDie n f).hostAtomics = s.hostAtomics := rfl
@[simp] theorem State.modDie_colls (s : State) (n : Nat) (f : Die → Die) : (s.modDie n f).colls = s.colls := rfl
@[simp] theorem State.modDie_fallow (s : State) (n : Nat) (f : Die → Die) : (s.modDie n f).fallow = s.fallow := rfl
@[simp] theorem State.modDie_gangOne (s : State) (n : Nat) (f : Die → Die) : (s.modDie n f).gangOne = s.gangOne := rfl
@[simp] theorem State.modDie_decisions (s : State) (n : Nat) (f : Die → Die) : (s.modDie n f).decisions = s.decisions := rfl
@[simp] theorem State.modDie_merges (s : State) (n : Nat) (f : Die → Die) : (s.modDie n f).merges = s.merges := rfl
@[simp] theorem State.modDie_poisonOnce (s : State) (n : Nat) (f : Die → Die) : (s.modDie n f).poisonOnce = s.poisonOnce := rfl
@[simp] theorem State.modDie_homeWrites (s : State) (n : Nat) (f : Die → Die) : (s.modDie n f).homeWrites = s.homeWrites := rfl
@[simp] theorem State.modDie_logWrites (s : State) (n : Nat) (f : Die → Die) : (s.modDie n f).logWrites = s.logWrites := rfl
@[simp] theorem State.modDie_lostControl (s : State) (n : Nat) (f : Die → Die) : (s.modDie n f).lostControl = s.lostControl := rfl
@[simp] theorem State.modDie_tops (s : State) (n : Nat) (f : Die → Die) : (s.modDie n f).tops = s.tops := rfl
@[simp] theorem State.modDie_reports (s : State) (n : Nat) (f : Die → Die) : (s.modDie n f).reports = s.reports := rfl
@[simp] theorem State.modDie_inputs (s : State) (n : Nat) (f : Die → Die) : (s.modDie n f).inputs = s.inputs := rfl
@[simp] theorem State.modDie_issuing (s : State) (n : Nat) (f : Die → Die) : (s.modDie n f).issuing = s.issuing := rfl
@[simp] theorem State.modDie_resumes (s : State) (n : Nat) (f : Die → Die) : (s.modDie n f).resumes = s.resumes := rfl
@[simp] theorem State.modDie_now (s : State) (n : Nat) (f : Die → Die) : (s.modDie n f).now = s.now := rfl
@[simp] theorem State.modDie_nextPid (s : State) (n : Nat) (f : Die → Die) : (s.modDie n f).nextPid = s.nextPid := rfl
@[simp] theorem State.modDie_nextOrder (s : State) (n : Nat) (f : Die → Die) : (s.modDie n f).nextOrder = s.nextOrder := rfl
@[simp] theorem State.modDie_rotor (s : State) (n : Nat) (f : Die → Die) : (s.modDie n f).rotor = s.rotor := rfl
@[simp] theorem State.modDie_freeCtr (s : State) (n : Nat) (f : Die → Die) : (s.modDie n f).freeCtr = s.freeCtr := rfl

/-! ### State.setCtx -/

@[simp] theorem State.setCtx_status (s : State) (c : Ctx) : (s.setCtx c).status = s.status := rfl
@[simp] theorem State.setCtx_powerLimit (s : State) (c : Ctx) : (s.setCtx c).powerLimit = s.powerLimit := rfl
@[simp] theorem State.setCtx_scrubHours (s : State) (c : Ctx) : (s.setCtx c).scrubHours = s.scrubHours := rfl
@[simp] theorem State.setCtx_links (s : State) (c : Ctx) : (s.setCtx c).links = s.links := rfl
@[simp] theorem State.setCtx_yotisDown (s : State) (c : Ctx) : (s.setCtx c).yotisDown = s.yotisDown := rfl
@[simp] theorem State.setCtx_dies (s : State) (c : Ctx) : (s.setCtx c).dies = s.dies := rfl
@[simp] theorem State.setCtx_cores (s : State) (c : Ctx) : (s.setCtx c).cores = s.cores := rfl
@[simp] theorem State.setCtx_plots (s : State) (c : Ctx) : (s.setCtx c).plots = s.plots := rfl
@[simp] theorem State.setCtx_fields (s : State) (c : Ctx) : (s.setCtx c).fields = s.fields := rfl
@[simp] theorem State.setCtx_ctxs (s : State) (c : Ctx) : (s.setCtx c).ctxs = (s.ctxs.map fun d => if d.num == c.num then c else d) := rfl
@[simp] theorem State.setCtx_mem (s : State) (c : Ctx) : (s.setCtx c).mem = s.mem := rfl
@[simp] theorem State.setCtx_tags (s : State) (c : Ctx) : (s.setCtx c).tags = s.tags := rfl
@[simp] theorem State.setCtx_poison (s : State) (c : Ctx) : (s.setCtx c).poison = s.poison := rfl
@[simp] theorem State.setCtx_relRecs (s : State) (c : Ctx) : (s.setCtx c).relRecs = s.relRecs := rfl
@[simp] theorem State.setCtx_atomLast (s : State) (c : Ctx) : (s.setCtx c).atomLast = s.atomLast := rfl
@[simp] theorem State.setCtx_owners (s : State) (c : Ctx) : (s.setCtx c).owners = s.owners := rfl
@[simp] theorem State.setCtx_sums (s : State) (c : Ctx) : (s.setCtx c).sums = s.sums := rfl
@[simp] theorem State.setCtx_contribs (s : State) (c : Ctx) : (s.setCtx c).contribs = s.contribs := rfl
@[simp] theorem State.setCtx_xlines (s : State) (c : Ctx) : (s.setCtx c).xlines = s.xlines := rfl
@[simp] theorem State.setCtx_homeQ (s : State) (c : Ctx) : (s.setCtx c).homeQ = s.homeQ := rfl
@[simp] theorem State.setCtx_portTurn (s : State) (c : Ctx) : (s.setCtx c).portTurn = s.portTurn := rfl
@[simp] theorem State.setCtx_nextIssue (s : State) (c : Ctx) : (s.setCtx c).nextIssue = s.nextIssue := rfl
@[simp] theorem State.setCtx_issueLogs (s : State) (c : Ctx) : (s.setCtx c).issueLogs = s.issueLogs := rfl
@[simp] theorem State.setCtx_engineOwned (s : State) (c : Ctx) : (s.setCtx c).engineOwned = s.engineOwned := rfl
@[simp] theorem State.setCtx_readers (s : State) (c : Ctx) : (s.setCtx c).readers = s.readers := rfl
@[simp] theorem State.setCtx_l2 (s : State) (c : Ctx) : (s.setCtx c).l2 = s.l2 := rfl
@[simp] theorem State.setCtx_drains (s : State) (c : Ctx) : (s.setCtx c).drains = s.drains := rfl
@[simp] theorem State.setCtx_writeBacks (s : State) (c : Ctx) : (s.setCtx c).writeBacks = s.writeBacks := rfl
@[simp] theorem State.setCtx_retries (s : State) (c : Ctx) : (s.setCtx c).retries = s.retries := rfl
@[simp] theorem State.setCtx_drops (s : State) (c : Ctx) : (s.setCtx c).drops = s.drops := rfl
@[simp] theorem State.setCtx_ships (s : State) (c : Ctx) : (s.setCtx c).ships = s.ships := rfl
@[simp] theorem State.setCtx_publishes (s : State) (c : Ctx) : (s.setCtx c).publishes = s.publishes := rfl
@[simp] theorem State.setCtx_migrations (s : State) (c : Ctx) : (s.setCtx c).migrations = s.migrations := rfl
@[simp] theorem State.setCtx_hostAtomics (s : State) (c : Ctx) : (s.setCtx c).hostAtomics = s.hostAtomics := rfl
@[simp] theorem State.setCtx_colls (s : State) (c : Ctx) : (s.setCtx c).colls = s.colls := rfl
@[simp] theorem State.setCtx_fallow (s : State) (c : Ctx) : (s.setCtx c).fallow = s.fallow := rfl
@[simp] theorem State.setCtx_gangOne (s : State) (c : Ctx) : (s.setCtx c).gangOne = s.gangOne := rfl
@[simp] theorem State.setCtx_decisions (s : State) (c : Ctx) : (s.setCtx c).decisions = s.decisions := rfl
@[simp] theorem State.setCtx_merges (s : State) (c : Ctx) : (s.setCtx c).merges = s.merges := rfl
@[simp] theorem State.setCtx_poisonOnce (s : State) (c : Ctx) : (s.setCtx c).poisonOnce = s.poisonOnce := rfl
@[simp] theorem State.setCtx_homeWrites (s : State) (c : Ctx) : (s.setCtx c).homeWrites = s.homeWrites := rfl
@[simp] theorem State.setCtx_logWrites (s : State) (c : Ctx) : (s.setCtx c).logWrites = s.logWrites := rfl
@[simp] theorem State.setCtx_lostControl (s : State) (c : Ctx) : (s.setCtx c).lostControl = s.lostControl := rfl
@[simp] theorem State.setCtx_tops (s : State) (c : Ctx) : (s.setCtx c).tops = s.tops := rfl
@[simp] theorem State.setCtx_reports (s : State) (c : Ctx) : (s.setCtx c).reports = s.reports := rfl
@[simp] theorem State.setCtx_inputs (s : State) (c : Ctx) : (s.setCtx c).inputs = s.inputs := rfl
@[simp] theorem State.setCtx_issuing (s : State) (c : Ctx) : (s.setCtx c).issuing = s.issuing := rfl
@[simp] theorem State.setCtx_resumes (s : State) (c : Ctx) : (s.setCtx c).resumes = s.resumes := rfl
@[simp] theorem State.setCtx_now (s : State) (c : Ctx) : (s.setCtx c).now = s.now := rfl
@[simp] theorem State.setCtx_nextPid (s : State) (c : Ctx) : (s.setCtx c).nextPid = s.nextPid := rfl
@[simp] theorem State.setCtx_nextOrder (s : State) (c : Ctx) : (s.setCtx c).nextOrder = s.nextOrder := rfl
@[simp] theorem State.setCtx_rotor (s : State) (c : Ctx) : (s.setCtx c).rotor = s.rotor := rfl
@[simp] theorem State.setCtx_freeCtr (s : State) (c : Ctx) : (s.setCtx c).freeCtr = s.freeCtr := rfl

/-! ### State.report -/

@[simp] theorem State.report_status (s : State) (r : Report) : (s.report r).status = s.status := rfl
@[simp] theorem State.report_powerLimit (s : State) (r : Report) : (s.report r).powerLimit = s.powerLimit := rfl
@[simp] theorem State.report_scrubHours (s : State) (r : Report) : (s.report r).scrubHours = s.scrubHours := rfl
@[simp] theorem State.report_links (s : State) (r : Report) : (s.report r).links = s.links := rfl
@[simp] theorem State.report_yotisDown (s : State) (r : Report) : (s.report r).yotisDown = s.yotisDown := rfl
@[simp] theorem State.report_dies (s : State) (r : Report) : (s.report r).dies = s.dies := rfl
@[simp] theorem State.report_cores (s : State) (r : Report) : (s.report r).cores = s.cores := rfl
@[simp] theorem State.report_plots (s : State) (r : Report) : (s.report r).plots = s.plots := rfl
@[simp] theorem State.report_fields (s : State) (r : Report) : (s.report r).fields = s.fields := rfl
@[simp] theorem State.report_ctxs (s : State) (r : Report) : (s.report r).ctxs = s.ctxs := rfl
@[simp] theorem State.report_mem (s : State) (r : Report) : (s.report r).mem = s.mem := rfl
@[simp] theorem State.report_tags (s : State) (r : Report) : (s.report r).tags = s.tags := rfl
@[simp] theorem State.report_poison (s : State) (r : Report) : (s.report r).poison = s.poison := rfl
@[simp] theorem State.report_relRecs (s : State) (r : Report) : (s.report r).relRecs = s.relRecs := rfl
@[simp] theorem State.report_atomLast (s : State) (r : Report) : (s.report r).atomLast = s.atomLast := rfl
@[simp] theorem State.report_owners (s : State) (r : Report) : (s.report r).owners = s.owners := rfl
@[simp] theorem State.report_sums (s : State) (r : Report) : (s.report r).sums = s.sums := rfl
@[simp] theorem State.report_contribs (s : State) (r : Report) : (s.report r).contribs = s.contribs := rfl
@[simp] theorem State.report_xlines (s : State) (r : Report) : (s.report r).xlines = s.xlines := rfl
@[simp] theorem State.report_homeQ (s : State) (r : Report) : (s.report r).homeQ = s.homeQ := rfl
@[simp] theorem State.report_portTurn (s : State) (r : Report) : (s.report r).portTurn = s.portTurn := rfl
@[simp] theorem State.report_nextIssue (s : State) (r : Report) : (s.report r).nextIssue = s.nextIssue := rfl
@[simp] theorem State.report_issueLogs (s : State) (r : Report) : (s.report r).issueLogs = s.issueLogs := rfl
@[simp] theorem State.report_engineOwned (s : State) (r : Report) : (s.report r).engineOwned = s.engineOwned := rfl
@[simp] theorem State.report_readers (s : State) (r : Report) : (s.report r).readers = s.readers := rfl
@[simp] theorem State.report_l2 (s : State) (r : Report) : (s.report r).l2 = s.l2 := rfl
@[simp] theorem State.report_drains (s : State) (r : Report) : (s.report r).drains = s.drains := rfl
@[simp] theorem State.report_writeBacks (s : State) (r : Report) : (s.report r).writeBacks = s.writeBacks := rfl
@[simp] theorem State.report_retries (s : State) (r : Report) : (s.report r).retries = s.retries := rfl
@[simp] theorem State.report_drops (s : State) (r : Report) : (s.report r).drops = s.drops := rfl
@[simp] theorem State.report_ships (s : State) (r : Report) : (s.report r).ships = s.ships := rfl
@[simp] theorem State.report_publishes (s : State) (r : Report) : (s.report r).publishes = s.publishes := rfl
@[simp] theorem State.report_migrations (s : State) (r : Report) : (s.report r).migrations = s.migrations := rfl
@[simp] theorem State.report_hostAtomics (s : State) (r : Report) : (s.report r).hostAtomics = s.hostAtomics := rfl
@[simp] theorem State.report_colls (s : State) (r : Report) : (s.report r).colls = s.colls := rfl
@[simp] theorem State.report_fallow (s : State) (r : Report) : (s.report r).fallow = s.fallow := rfl
@[simp] theorem State.report_gangOne (s : State) (r : Report) : (s.report r).gangOne = s.gangOne := rfl
@[simp] theorem State.report_decisions (s : State) (r : Report) : (s.report r).decisions = s.decisions := rfl
@[simp] theorem State.report_merges (s : State) (r : Report) : (s.report r).merges = s.merges := rfl
@[simp] theorem State.report_poisonOnce (s : State) (r : Report) : (s.report r).poisonOnce = s.poisonOnce := rfl
@[simp] theorem State.report_homeWrites (s : State) (r : Report) : (s.report r).homeWrites = s.homeWrites := rfl
@[simp] theorem State.report_logWrites (s : State) (r : Report) : (s.report r).logWrites = s.logWrites := rfl
@[simp] theorem State.report_lostControl (s : State) (r : Report) : (s.report r).lostControl = s.lostControl := rfl
@[simp] theorem State.report_tops (s : State) (r : Report) : (s.report r).tops = s.tops := rfl
@[simp] theorem State.report_reports (s : State) (r : Report) : (s.report r).reports = (s.reports ++ [r]) := rfl
@[simp] theorem State.report_inputs (s : State) (r : Report) : (s.report r).inputs = s.inputs := rfl
@[simp] theorem State.report_issuing (s : State) (r : Report) : (s.report r).issuing = s.issuing := rfl
@[simp] theorem State.report_resumes (s : State) (r : Report) : (s.report r).resumes = s.resumes := rfl
@[simp] theorem State.report_now (s : State) (r : Report) : (s.report r).now = s.now := rfl
@[simp] theorem State.report_nextPid (s : State) (r : Report) : (s.report r).nextPid = s.nextPid := rfl
@[simp] theorem State.report_nextOrder (s : State) (r : Report) : (s.report r).nextOrder = s.nextOrder := rfl
@[simp] theorem State.report_rotor (s : State) (r : Report) : (s.report r).rotor = s.rotor := rfl
@[simp] theorem State.report_freeCtr (s : State) (r : Report) : (s.report r).freeCtr = s.freeCtr := rfl

/-! ### State.store -/

@[simp] theorem State.store_status (s : State) (a : Nat) (bs : List Byte) : (s.store a bs).status = s.status := rfl
@[simp] theorem State.store_powerLimit (s : State) (a : Nat) (bs : List Byte) : (s.store a bs).powerLimit = s.powerLimit := rfl
@[simp] theorem State.store_scrubHours (s : State) (a : Nat) (bs : List Byte) : (s.store a bs).scrubHours = s.scrubHours := rfl
@[simp] theorem State.store_links (s : State) (a : Nat) (bs : List Byte) : (s.store a bs).links = s.links := rfl
@[simp] theorem State.store_yotisDown (s : State) (a : Nat) (bs : List Byte) : (s.store a bs).yotisDown = s.yotisDown := rfl
@[simp] theorem State.store_dies (s : State) (a : Nat) (bs : List Byte) : (s.store a bs).dies = s.dies := rfl
@[simp] theorem State.store_cores (s : State) (a : Nat) (bs : List Byte) : (s.store a bs).cores = s.cores := rfl
@[simp] theorem State.store_plots (s : State) (a : Nat) (bs : List Byte) : (s.store a bs).plots = s.plots := rfl
@[simp] theorem State.store_fields (s : State) (a : Nat) (bs : List Byte) : (s.store a bs).fields = s.fields := rfl
@[simp] theorem State.store_ctxs (s : State) (a : Nat) (bs : List Byte) : (s.store a bs).ctxs = s.ctxs := rfl
@[simp] theorem State.store_mem (s : State) (a : Nat) (bs : List Byte) : (s.store a bs).mem = (Memory.writeN s.mem a bs) := rfl
@[simp] theorem State.store_tags (s : State) (a : Nat) (bs : List Byte) : (s.store a bs).tags = (without s.tags (granules a bs.length)) := rfl
@[simp] theorem State.store_poison (s : State) (a : Nat) (bs : List Byte) : (s.store a bs).poison = (without s.poison ((granules a bs.length).filter (coversGranule a bs.length))) := rfl
@[simp] theorem State.store_relRecs (s : State) (a : Nat) (bs : List Byte) : (s.store a bs).relRecs = s.relRecs := rfl
@[simp] theorem State.store_atomLast (s : State) (a : Nat) (bs : List Byte) : (s.store a bs).atomLast = s.atomLast := rfl
@[simp] theorem State.store_owners (s : State) (a : Nat) (bs : List Byte) : (s.store a bs).owners = s.owners := rfl
@[simp] theorem State.store_sums (s : State) (a : Nat) (bs : List Byte) : (s.store a bs).sums = s.sums := rfl
@[simp] theorem State.store_contribs (s : State) (a : Nat) (bs : List Byte) : (s.store a bs).contribs = s.contribs := rfl
@[simp] theorem State.store_xlines (s : State) (a : Nat) (bs : List Byte) : (s.store a bs).xlines = s.xlines := rfl
@[simp] theorem State.store_homeQ (s : State) (a : Nat) (bs : List Byte) : (s.store a bs).homeQ = s.homeQ := rfl
@[simp] theorem State.store_portTurn (s : State) (a : Nat) (bs : List Byte) : (s.store a bs).portTurn = s.portTurn := rfl
@[simp] theorem State.store_nextIssue (s : State) (a : Nat) (bs : List Byte) : (s.store a bs).nextIssue = s.nextIssue := rfl
@[simp] theorem State.store_issueLogs (s : State) (a : Nat) (bs : List Byte) : (s.store a bs).issueLogs = s.issueLogs := rfl
@[simp] theorem State.store_engineOwned (s : State) (a : Nat) (bs : List Byte) : (s.store a bs).engineOwned = s.engineOwned := rfl
@[simp] theorem State.store_readers (s : State) (a : Nat) (bs : List Byte) : (s.store a bs).readers = s.readers := rfl
@[simp] theorem State.store_l2 (s : State) (a : Nat) (bs : List Byte) : (s.store a bs).l2 = s.l2 := rfl
@[simp] theorem State.store_drains (s : State) (a : Nat) (bs : List Byte) : (s.store a bs).drains = s.drains := rfl
@[simp] theorem State.store_writeBacks (s : State) (a : Nat) (bs : List Byte) : (s.store a bs).writeBacks = s.writeBacks := rfl
@[simp] theorem State.store_retries (s : State) (a : Nat) (bs : List Byte) : (s.store a bs).retries = s.retries := rfl
@[simp] theorem State.store_drops (s : State) (a : Nat) (bs : List Byte) : (s.store a bs).drops = s.drops := rfl
@[simp] theorem State.store_ships (s : State) (a : Nat) (bs : List Byte) : (s.store a bs).ships = s.ships := rfl
@[simp] theorem State.store_publishes (s : State) (a : Nat) (bs : List Byte) : (s.store a bs).publishes = s.publishes := rfl
@[simp] theorem State.store_migrations (s : State) (a : Nat) (bs : List Byte) : (s.store a bs).migrations = s.migrations := rfl
@[simp] theorem State.store_hostAtomics (s : State) (a : Nat) (bs : List Byte) : (s.store a bs).hostAtomics = s.hostAtomics := rfl
@[simp] theorem State.store_colls (s : State) (a : Nat) (bs : List Byte) : (s.store a bs).colls = s.colls := rfl
@[simp] theorem State.store_fallow (s : State) (a : Nat) (bs : List Byte) : (s.store a bs).fallow = s.fallow := rfl
@[simp] theorem State.store_gangOne (s : State) (a : Nat) (bs : List Byte) : (s.store a bs).gangOne = s.gangOne := rfl
@[simp] theorem State.store_decisions (s : State) (a : Nat) (bs : List Byte) : (s.store a bs).decisions = s.decisions := rfl
@[simp] theorem State.store_merges (s : State) (a : Nat) (bs : List Byte) : (s.store a bs).merges = s.merges := rfl
@[simp] theorem State.store_poisonOnce (s : State) (a : Nat) (bs : List Byte) : (s.store a bs).poisonOnce = s.poisonOnce := rfl
@[simp] theorem State.store_homeWrites (s : State) (a : Nat) (bs : List Byte) : (s.store a bs).homeWrites = s.homeWrites := rfl
@[simp] theorem State.store_logWrites (s : State) (a : Nat) (bs : List Byte) : (s.store a bs).logWrites = s.logWrites := rfl
@[simp] theorem State.store_lostControl (s : State) (a : Nat) (bs : List Byte) : (s.store a bs).lostControl = s.lostControl := rfl
@[simp] theorem State.store_tops (s : State) (a : Nat) (bs : List Byte) : (s.store a bs).tops = s.tops := rfl
@[simp] theorem State.store_reports (s : State) (a : Nat) (bs : List Byte) : (s.store a bs).reports = s.reports := rfl
@[simp] theorem State.store_inputs (s : State) (a : Nat) (bs : List Byte) : (s.store a bs).inputs = s.inputs := rfl
@[simp] theorem State.store_issuing (s : State) (a : Nat) (bs : List Byte) : (s.store a bs).issuing = s.issuing := rfl
@[simp] theorem State.store_resumes (s : State) (a : Nat) (bs : List Byte) : (s.store a bs).resumes = s.resumes := rfl
@[simp] theorem State.store_now (s : State) (a : Nat) (bs : List Byte) : (s.store a bs).now = s.now := rfl
@[simp] theorem State.store_nextPid (s : State) (a : Nat) (bs : List Byte) : (s.store a bs).nextPid = s.nextPid := rfl
@[simp] theorem State.store_nextOrder (s : State) (a : Nat) (bs : List Byte) : (s.store a bs).nextOrder = s.nextOrder := rfl
@[simp] theorem State.store_rotor (s : State) (a : Nat) (bs : List Byte) : (s.store a bs).rotor = s.rotor := rfl
@[simp] theorem State.store_freeCtr (s : State) (a : Nat) (bs : List Byte) : (s.store a bs).freeCtr = s.freeCtr := rfl

/-! ### State.setTag -/

@[simp] theorem State.setTag_status (s : State) (a : Nat) (t : Bool) : (s.setTag a t).status = s.status := rfl
@[simp] theorem State.setTag_powerLimit (s : State) (a : Nat) (t : Bool) : (s.setTag a t).powerLimit = s.powerLimit := rfl
@[simp] theorem State.setTag_scrubHours (s : State) (a : Nat) (t : Bool) : (s.setTag a t).scrubHours = s.scrubHours := rfl
@[simp] theorem State.setTag_links (s : State) (a : Nat) (t : Bool) : (s.setTag a t).links = s.links := rfl
@[simp] theorem State.setTag_yotisDown (s : State) (a : Nat) (t : Bool) : (s.setTag a t).yotisDown = s.yotisDown := rfl
@[simp] theorem State.setTag_dies (s : State) (a : Nat) (t : Bool) : (s.setTag a t).dies = s.dies := rfl
@[simp] theorem State.setTag_cores (s : State) (a : Nat) (t : Bool) : (s.setTag a t).cores = s.cores := rfl
@[simp] theorem State.setTag_plots (s : State) (a : Nat) (t : Bool) : (s.setTag a t).plots = s.plots := rfl
@[simp] theorem State.setTag_fields (s : State) (a : Nat) (t : Bool) : (s.setTag a t).fields = s.fields := rfl
@[simp] theorem State.setTag_ctxs (s : State) (a : Nat) (t : Bool) : (s.setTag a t).ctxs = s.ctxs := rfl
@[simp] theorem State.setTag_mem (s : State) (a : Nat) (t : Bool) : (s.setTag a t).mem = s.mem := rfl
@[simp] theorem State.setTag_tags (s : State) (a : Nat) (t : Bool) : (s.setTag a t).tags = (if t then insertNat s.tags (a / 16) else without s.tags [a / 16]) := rfl
@[simp] theorem State.setTag_poison (s : State) (a : Nat) (t : Bool) : (s.setTag a t).poison = s.poison := rfl
@[simp] theorem State.setTag_relRecs (s : State) (a : Nat) (t : Bool) : (s.setTag a t).relRecs = s.relRecs := rfl
@[simp] theorem State.setTag_atomLast (s : State) (a : Nat) (t : Bool) : (s.setTag a t).atomLast = s.atomLast := rfl
@[simp] theorem State.setTag_owners (s : State) (a : Nat) (t : Bool) : (s.setTag a t).owners = s.owners := rfl
@[simp] theorem State.setTag_sums (s : State) (a : Nat) (t : Bool) : (s.setTag a t).sums = s.sums := rfl
@[simp] theorem State.setTag_contribs (s : State) (a : Nat) (t : Bool) : (s.setTag a t).contribs = s.contribs := rfl
@[simp] theorem State.setTag_xlines (s : State) (a : Nat) (t : Bool) : (s.setTag a t).xlines = s.xlines := rfl
@[simp] theorem State.setTag_homeQ (s : State) (a : Nat) (t : Bool) : (s.setTag a t).homeQ = s.homeQ := rfl
@[simp] theorem State.setTag_portTurn (s : State) (a : Nat) (t : Bool) : (s.setTag a t).portTurn = s.portTurn := rfl
@[simp] theorem State.setTag_nextIssue (s : State) (a : Nat) (t : Bool) : (s.setTag a t).nextIssue = s.nextIssue := rfl
@[simp] theorem State.setTag_issueLogs (s : State) (a : Nat) (t : Bool) : (s.setTag a t).issueLogs = s.issueLogs := rfl
@[simp] theorem State.setTag_engineOwned (s : State) (a : Nat) (t : Bool) : (s.setTag a t).engineOwned = s.engineOwned := rfl
@[simp] theorem State.setTag_readers (s : State) (a : Nat) (t : Bool) : (s.setTag a t).readers = s.readers := rfl
@[simp] theorem State.setTag_l2 (s : State) (a : Nat) (t : Bool) : (s.setTag a t).l2 = s.l2 := rfl
@[simp] theorem State.setTag_drains (s : State) (a : Nat) (t : Bool) : (s.setTag a t).drains = s.drains := rfl
@[simp] theorem State.setTag_writeBacks (s : State) (a : Nat) (t : Bool) : (s.setTag a t).writeBacks = s.writeBacks := rfl
@[simp] theorem State.setTag_retries (s : State) (a : Nat) (t : Bool) : (s.setTag a t).retries = s.retries := rfl
@[simp] theorem State.setTag_drops (s : State) (a : Nat) (t : Bool) : (s.setTag a t).drops = s.drops := rfl
@[simp] theorem State.setTag_ships (s : State) (a : Nat) (t : Bool) : (s.setTag a t).ships = s.ships := rfl
@[simp] theorem State.setTag_publishes (s : State) (a : Nat) (t : Bool) : (s.setTag a t).publishes = s.publishes := rfl
@[simp] theorem State.setTag_migrations (s : State) (a : Nat) (t : Bool) : (s.setTag a t).migrations = s.migrations := rfl
@[simp] theorem State.setTag_hostAtomics (s : State) (a : Nat) (t : Bool) : (s.setTag a t).hostAtomics = s.hostAtomics := rfl
@[simp] theorem State.setTag_colls (s : State) (a : Nat) (t : Bool) : (s.setTag a t).colls = s.colls := rfl
@[simp] theorem State.setTag_fallow (s : State) (a : Nat) (t : Bool) : (s.setTag a t).fallow = s.fallow := rfl
@[simp] theorem State.setTag_gangOne (s : State) (a : Nat) (t : Bool) : (s.setTag a t).gangOne = s.gangOne := rfl
@[simp] theorem State.setTag_decisions (s : State) (a : Nat) (t : Bool) : (s.setTag a t).decisions = s.decisions := rfl
@[simp] theorem State.setTag_merges (s : State) (a : Nat) (t : Bool) : (s.setTag a t).merges = s.merges := rfl
@[simp] theorem State.setTag_poisonOnce (s : State) (a : Nat) (t : Bool) : (s.setTag a t).poisonOnce = s.poisonOnce := rfl
@[simp] theorem State.setTag_homeWrites (s : State) (a : Nat) (t : Bool) : (s.setTag a t).homeWrites = s.homeWrites := rfl
@[simp] theorem State.setTag_logWrites (s : State) (a : Nat) (t : Bool) : (s.setTag a t).logWrites = s.logWrites := rfl
@[simp] theorem State.setTag_lostControl (s : State) (a : Nat) (t : Bool) : (s.setTag a t).lostControl = s.lostControl := rfl
@[simp] theorem State.setTag_tops (s : State) (a : Nat) (t : Bool) : (s.setTag a t).tops = s.tops := rfl
@[simp] theorem State.setTag_reports (s : State) (a : Nat) (t : Bool) : (s.setTag a t).reports = s.reports := rfl
@[simp] theorem State.setTag_inputs (s : State) (a : Nat) (t : Bool) : (s.setTag a t).inputs = s.inputs := rfl
@[simp] theorem State.setTag_issuing (s : State) (a : Nat) (t : Bool) : (s.setTag a t).issuing = s.issuing := rfl
@[simp] theorem State.setTag_resumes (s : State) (a : Nat) (t : Bool) : (s.setTag a t).resumes = s.resumes := rfl
@[simp] theorem State.setTag_now (s : State) (a : Nat) (t : Bool) : (s.setTag a t).now = s.now := rfl
@[simp] theorem State.setTag_nextPid (s : State) (a : Nat) (t : Bool) : (s.setTag a t).nextPid = s.nextPid := rfl
@[simp] theorem State.setTag_nextOrder (s : State) (a : Nat) (t : Bool) : (s.setTag a t).nextOrder = s.nextOrder := rfl
@[simp] theorem State.setTag_rotor (s : State) (a : Nat) (t : Bool) : (s.setTag a t).rotor = s.rotor := rfl
@[simp] theorem State.setTag_freeCtr (s : State) (a : Nat) (t : Bool) : (s.setTag a t).freeCtr = s.freeCtr := rfl

/-! ### State.poisonGranules -/

@[simp] theorem State.poisonGranules_status (s : State) (gs : List Nat) : (s.poisonGranules gs).status = s.status := rfl
@[simp] theorem State.poisonGranules_powerLimit (s : State) (gs : List Nat) : (s.poisonGranules gs).powerLimit = s.powerLimit := rfl
@[simp] theorem State.poisonGranules_scrubHours (s : State) (gs : List Nat) : (s.poisonGranules gs).scrubHours = s.scrubHours := rfl
@[simp] theorem State.poisonGranules_links (s : State) (gs : List Nat) : (s.poisonGranules gs).links = s.links := rfl
@[simp] theorem State.poisonGranules_yotisDown (s : State) (gs : List Nat) : (s.poisonGranules gs).yotisDown = s.yotisDown := rfl
@[simp] theorem State.poisonGranules_dies (s : State) (gs : List Nat) : (s.poisonGranules gs).dies = s.dies := rfl
@[simp] theorem State.poisonGranules_cores (s : State) (gs : List Nat) : (s.poisonGranules gs).cores = s.cores := rfl
@[simp] theorem State.poisonGranules_plots (s : State) (gs : List Nat) : (s.poisonGranules gs).plots = s.plots := rfl
@[simp] theorem State.poisonGranules_fields (s : State) (gs : List Nat) : (s.poisonGranules gs).fields = s.fields := rfl
@[simp] theorem State.poisonGranules_ctxs (s : State) (gs : List Nat) : (s.poisonGranules gs).ctxs = s.ctxs := rfl
@[simp] theorem State.poisonGranules_mem (s : State) (gs : List Nat) : (s.poisonGranules gs).mem = s.mem := rfl
@[simp] theorem State.poisonGranules_tags (s : State) (gs : List Nat) : (s.poisonGranules gs).tags = (without s.tags gs) := rfl
@[simp] theorem State.poisonGranules_poison (s : State) (gs : List Nat) : (s.poisonGranules gs).poison = (withAll s.poison gs) := rfl
@[simp] theorem State.poisonGranules_relRecs (s : State) (gs : List Nat) : (s.poisonGranules gs).relRecs = s.relRecs := rfl
@[simp] theorem State.poisonGranules_atomLast (s : State) (gs : List Nat) : (s.poisonGranules gs).atomLast = s.atomLast := rfl
@[simp] theorem State.poisonGranules_owners (s : State) (gs : List Nat) : (s.poisonGranules gs).owners = s.owners := rfl
@[simp] theorem State.poisonGranules_sums (s : State) (gs : List Nat) : (s.poisonGranules gs).sums = s.sums := rfl
@[simp] theorem State.poisonGranules_contribs (s : State) (gs : List Nat) : (s.poisonGranules gs).contribs = s.contribs := rfl
@[simp] theorem State.poisonGranules_xlines (s : State) (gs : List Nat) : (s.poisonGranules gs).xlines = s.xlines := rfl
@[simp] theorem State.poisonGranules_homeQ (s : State) (gs : List Nat) : (s.poisonGranules gs).homeQ = s.homeQ := rfl
@[simp] theorem State.poisonGranules_portTurn (s : State) (gs : List Nat) : (s.poisonGranules gs).portTurn = s.portTurn := rfl
@[simp] theorem State.poisonGranules_nextIssue (s : State) (gs : List Nat) : (s.poisonGranules gs).nextIssue = s.nextIssue := rfl
@[simp] theorem State.poisonGranules_issueLogs (s : State) (gs : List Nat) : (s.poisonGranules gs).issueLogs = s.issueLogs := rfl
@[simp] theorem State.poisonGranules_engineOwned (s : State) (gs : List Nat) : (s.poisonGranules gs).engineOwned = s.engineOwned := rfl
@[simp] theorem State.poisonGranules_readers (s : State) (gs : List Nat) : (s.poisonGranules gs).readers = s.readers := rfl
@[simp] theorem State.poisonGranules_l2 (s : State) (gs : List Nat) : (s.poisonGranules gs).l2 = s.l2 := rfl
@[simp] theorem State.poisonGranules_drains (s : State) (gs : List Nat) : (s.poisonGranules gs).drains = s.drains := rfl
@[simp] theorem State.poisonGranules_writeBacks (s : State) (gs : List Nat) : (s.poisonGranules gs).writeBacks = s.writeBacks := rfl
@[simp] theorem State.poisonGranules_retries (s : State) (gs : List Nat) : (s.poisonGranules gs).retries = s.retries := rfl
@[simp] theorem State.poisonGranules_drops (s : State) (gs : List Nat) : (s.poisonGranules gs).drops = s.drops := rfl
@[simp] theorem State.poisonGranules_ships (s : State) (gs : List Nat) : (s.poisonGranules gs).ships = s.ships := rfl
@[simp] theorem State.poisonGranules_publishes (s : State) (gs : List Nat) : (s.poisonGranules gs).publishes = s.publishes := rfl
@[simp] theorem State.poisonGranules_migrations (s : State) (gs : List Nat) : (s.poisonGranules gs).migrations = s.migrations := rfl
@[simp] theorem State.poisonGranules_hostAtomics (s : State) (gs : List Nat) : (s.poisonGranules gs).hostAtomics = s.hostAtomics := rfl
@[simp] theorem State.poisonGranules_colls (s : State) (gs : List Nat) : (s.poisonGranules gs).colls = s.colls := rfl
@[simp] theorem State.poisonGranules_fallow (s : State) (gs : List Nat) : (s.poisonGranules gs).fallow = s.fallow := rfl
@[simp] theorem State.poisonGranules_gangOne (s : State) (gs : List Nat) : (s.poisonGranules gs).gangOne = s.gangOne := rfl
@[simp] theorem State.poisonGranules_decisions (s : State) (gs : List Nat) : (s.poisonGranules gs).decisions = s.decisions := rfl
@[simp] theorem State.poisonGranules_merges (s : State) (gs : List Nat) : (s.poisonGranules gs).merges = s.merges := rfl
@[simp] theorem State.poisonGranules_poisonOnce (s : State) (gs : List Nat) : (s.poisonGranules gs).poisonOnce = s.poisonOnce := rfl
@[simp] theorem State.poisonGranules_homeWrites (s : State) (gs : List Nat) : (s.poisonGranules gs).homeWrites = s.homeWrites := rfl
@[simp] theorem State.poisonGranules_logWrites (s : State) (gs : List Nat) : (s.poisonGranules gs).logWrites = s.logWrites := rfl
@[simp] theorem State.poisonGranules_lostControl (s : State) (gs : List Nat) : (s.poisonGranules gs).lostControl = s.lostControl := rfl
@[simp] theorem State.poisonGranules_tops (s : State) (gs : List Nat) : (s.poisonGranules gs).tops = s.tops := rfl
@[simp] theorem State.poisonGranules_reports (s : State) (gs : List Nat) : (s.poisonGranules gs).reports = s.reports := rfl
@[simp] theorem State.poisonGranules_inputs (s : State) (gs : List Nat) : (s.poisonGranules gs).inputs = s.inputs := rfl
@[simp] theorem State.poisonGranules_issuing (s : State) (gs : List Nat) : (s.poisonGranules gs).issuing = s.issuing := rfl
@[simp] theorem State.poisonGranules_resumes (s : State) (gs : List Nat) : (s.poisonGranules gs).resumes = s.resumes := rfl
@[simp] theorem State.poisonGranules_now (s : State) (gs : List Nat) : (s.poisonGranules gs).now = s.now := rfl
@[simp] theorem State.poisonGranules_nextPid (s : State) (gs : List Nat) : (s.poisonGranules gs).nextPid = s.nextPid := rfl
@[simp] theorem State.poisonGranules_nextOrder (s : State) (gs : List Nat) : (s.poisonGranules gs).nextOrder = s.nextOrder := rfl
@[simp] theorem State.poisonGranules_rotor (s : State) (gs : List Nat) : (s.poisonGranules gs).rotor = s.rotor := rfl
@[simp] theorem State.poisonGranules_freeCtr (s : State) (gs : List Nat) : (s.poisonGranules gs).freeCtr = s.freeCtr := rfl

/-! ### State.send -/

@[simp] theorem State.send_status (s : State) (q : HomeReq) : (s.send q).status = s.status := rfl
@[simp] theorem State.send_powerLimit (s : State) (q : HomeReq) : (s.send q).powerLimit = s.powerLimit := rfl
@[simp] theorem State.send_scrubHours (s : State) (q : HomeReq) : (s.send q).scrubHours = s.scrubHours := rfl
@[simp] theorem State.send_links (s : State) (q : HomeReq) : (s.send q).links = s.links := rfl
@[simp] theorem State.send_yotisDown (s : State) (q : HomeReq) : (s.send q).yotisDown = s.yotisDown := rfl
@[simp] theorem State.send_dies (s : State) (q : HomeReq) : (s.send q).dies = s.dies := rfl
@[simp] theorem State.send_cores (s : State) (q : HomeReq) : (s.send q).cores = s.cores := rfl
@[simp] theorem State.send_plots (s : State) (q : HomeReq) : (s.send q).plots = s.plots := rfl
@[simp] theorem State.send_fields (s : State) (q : HomeReq) : (s.send q).fields = s.fields := rfl
@[simp] theorem State.send_ctxs (s : State) (q : HomeReq) : (s.send q).ctxs = s.ctxs := rfl
@[simp] theorem State.send_mem (s : State) (q : HomeReq) : (s.send q).mem = s.mem := rfl
@[simp] theorem State.send_tags (s : State) (q : HomeReq) : (s.send q).tags = s.tags := rfl
@[simp] theorem State.send_poison (s : State) (q : HomeReq) : (s.send q).poison = s.poison := rfl
@[simp] theorem State.send_relRecs (s : State) (q : HomeReq) : (s.send q).relRecs = s.relRecs := rfl
@[simp] theorem State.send_atomLast (s : State) (q : HomeReq) : (s.send q).atomLast = s.atomLast := rfl
@[simp] theorem State.send_owners (s : State) (q : HomeReq) : (s.send q).owners = s.owners := rfl
@[simp] theorem State.send_sums (s : State) (q : HomeReq) : (s.send q).sums = s.sums := rfl
@[simp] theorem State.send_contribs (s : State) (q : HomeReq) : (s.send q).contribs = s.contribs := rfl
@[simp] theorem State.send_xlines (s : State) (q : HomeReq) : (s.send q).xlines = s.xlines := rfl
@[simp] theorem State.send_homeQ (s : State) (q : HomeReq) : (s.send q).homeQ = s.queueWith q := rfl
@[simp] theorem State.send_portTurn (s : State) (q : HomeReq) : (s.send q).portTurn = s.portTurn := rfl
@[simp] theorem State.send_nextIssue (s : State) (q : HomeReq) : (s.send q).nextIssue = s.nextIssue := rfl
@[simp] theorem State.send_issueLogs (s : State) (q : HomeReq) : (s.send q).issueLogs = s.logsWith q := rfl
@[simp] theorem State.send_engineOwned (s : State) (q : HomeReq) : (s.send q).engineOwned = s.engineOwned := rfl
@[simp] theorem State.send_readers (s : State) (q : HomeReq) : (s.send q).readers = s.readers := rfl
@[simp] theorem State.send_l2 (s : State) (q : HomeReq) : (s.send q).l2 = s.l2 := rfl
@[simp] theorem State.send_drains (s : State) (q : HomeReq) : (s.send q).drains = s.drains := rfl
@[simp] theorem State.send_writeBacks (s : State) (q : HomeReq) : (s.send q).writeBacks = s.writeBacks := rfl
@[simp] theorem State.send_retries (s : State) (q : HomeReq) : (s.send q).retries = s.retries := rfl
@[simp] theorem State.send_drops (s : State) (q : HomeReq) : (s.send q).drops = s.drops := rfl
@[simp] theorem State.send_ships (s : State) (q : HomeReq) : (s.send q).ships = s.ships := rfl
@[simp] theorem State.send_publishes (s : State) (q : HomeReq) : (s.send q).publishes = s.publishes := rfl
@[simp] theorem State.send_migrations (s : State) (q : HomeReq) : (s.send q).migrations = s.migrations := rfl
@[simp] theorem State.send_hostAtomics (s : State) (q : HomeReq) : (s.send q).hostAtomics = s.hostAtomics := rfl
@[simp] theorem State.send_colls (s : State) (q : HomeReq) : (s.send q).colls = s.colls := rfl
@[simp] theorem State.send_fallow (s : State) (q : HomeReq) : (s.send q).fallow = s.fallow := rfl
@[simp] theorem State.send_gangOne (s : State) (q : HomeReq) : (s.send q).gangOne = s.gangOne := rfl
@[simp] theorem State.send_decisions (s : State) (q : HomeReq) : (s.send q).decisions = s.decisions := rfl
@[simp] theorem State.send_merges (s : State) (q : HomeReq) : (s.send q).merges = s.merges := rfl
@[simp] theorem State.send_poisonOnce (s : State) (q : HomeReq) : (s.send q).poisonOnce = s.poisonOnce := rfl
@[simp] theorem State.send_homeWrites (s : State) (q : HomeReq) : (s.send q).homeWrites = s.homeWrites := rfl
@[simp] theorem State.send_logWrites (s : State) (q : HomeReq) : (s.send q).logWrites = s.logWrites := rfl
@[simp] theorem State.send_lostControl (s : State) (q : HomeReq) : (s.send q).lostControl = s.lostControl := rfl
@[simp] theorem State.send_tops (s : State) (q : HomeReq) : (s.send q).tops = s.tops := rfl
@[simp] theorem State.send_reports (s : State) (q : HomeReq) : (s.send q).reports = s.reports := rfl
@[simp] theorem State.send_inputs (s : State) (q : HomeReq) : (s.send q).inputs = s.inputs := rfl
@[simp] theorem State.send_issuing (s : State) (q : HomeReq) : (s.send q).issuing = s.issuing := rfl
@[simp] theorem State.send_resumes (s : State) (q : HomeReq) : (s.send q).resumes = s.resumes := rfl
@[simp] theorem State.send_now (s : State) (q : HomeReq) : (s.send q).now = s.now := rfl
@[simp] theorem State.send_nextPid (s : State) (q : HomeReq) : (s.send q).nextPid = s.nextPid := rfl
@[simp] theorem State.send_nextOrder (s : State) (q : HomeReq) : (s.send q).nextOrder = s.nextOrder := rfl
@[simp] theorem State.send_rotor (s : State) (q : HomeReq) : (s.send q).rotor = s.rotor := rfl
@[simp] theorem State.send_freeCtr (s : State) (q : HomeReq) : (s.send q).freeCtr = s.freeCtr := rfl

/-! ### State.tick -/

@[simp] theorem State.tick_status (s : State) : s.tick.status = s.status := rfl
@[simp] theorem State.tick_powerLimit (s : State) : s.tick.powerLimit = s.powerLimit := rfl
@[simp] theorem State.tick_scrubHours (s : State) : s.tick.scrubHours = s.scrubHours := rfl
@[simp] theorem State.tick_links (s : State) : s.tick.links = s.links := rfl
@[simp] theorem State.tick_yotisDown (s : State) : s.tick.yotisDown = s.yotisDown := rfl
@[simp] theorem State.tick_dies (s : State) : s.tick.dies = s.dies.map (fun d => if d.powered then { s.sampleDie d with cyc := (d.cyc + 1) % 2 ^ 64 } else d) := rfl
@[simp] theorem State.tick_cores (s : State) : s.tick.cores = s.cores.map (fun k => s.holdCore (s.countCcy k)) := rfl
@[simp] theorem State.tick_plots (s : State) : s.tick.plots = s.plots.map (fun p => { s.holdPlot p with exited := [] }) := rfl
@[simp] theorem State.tick_fields (s : State) : s.tick.fields = s.fields := rfl
@[simp] theorem State.tick_ctxs (s : State) : s.tick.ctxs = s.ctxs := rfl
@[simp] theorem State.tick_mem (s : State) : s.tick.mem = s.mem := rfl
@[simp] theorem State.tick_tags (s : State) : s.tick.tags = s.tags := rfl
@[simp] theorem State.tick_poison (s : State) : s.tick.poison = s.poison := rfl
@[simp] theorem State.tick_relRecs (s : State) : s.tick.relRecs = s.relRecs := rfl
@[simp] theorem State.tick_atomLast (s : State) : s.tick.atomLast = s.atomLast := rfl
@[simp] theorem State.tick_owners (s : State) : s.tick.owners = s.owners := rfl
@[simp] theorem State.tick_sums (s : State) : s.tick.sums = s.sums := rfl
@[simp] theorem State.tick_contribs (s : State) : s.tick.contribs = s.contribs := rfl
@[simp] theorem State.tick_xlines (s : State) : s.tick.xlines = s.xlines := rfl
@[simp] theorem State.tick_homeQ (s : State) : s.tick.homeQ = s.homeQ := rfl
@[simp] theorem State.tick_portTurn (s : State) : s.tick.portTurn = s.portTurn := rfl
@[simp] theorem State.tick_nextIssue (s : State) : s.tick.nextIssue = s.nextIssue := rfl
@[simp] theorem State.tick_issueLogs (s : State) : s.tick.issueLogs = s.issueLogs := rfl
@[simp] theorem State.tick_engineOwned (s : State) : s.tick.engineOwned = s.engineOwned := rfl
@[simp] theorem State.tick_readers (s : State) : s.tick.readers = s.readers := rfl
@[simp] theorem State.tick_l2 (s : State) : s.tick.l2 = s.l2 := rfl
@[simp] theorem State.tick_drains (s : State) : s.tick.drains = s.drains := rfl
@[simp] theorem State.tick_writeBacks (s : State) : s.tick.writeBacks = s.writeBacks := rfl
@[simp] theorem State.tick_retries (s : State) : s.tick.retries = s.retries := rfl
@[simp] theorem State.tick_drops (s : State) : s.tick.drops = s.drops := rfl
@[simp] theorem State.tick_ships (s : State) : s.tick.ships = s.ships := rfl
@[simp] theorem State.tick_publishes (s : State) : s.tick.publishes = s.publishes := rfl
@[simp] theorem State.tick_migrations (s : State) : s.tick.migrations = s.migrations := rfl
@[simp] theorem State.tick_hostAtomics (s : State) : s.tick.hostAtomics = s.hostAtomics := rfl
@[simp] theorem State.tick_colls (s : State) : s.tick.colls = s.colls := rfl
@[simp] theorem State.tick_fallow (s : State) : s.tick.fallow = s.fallow := rfl
@[simp] theorem State.tick_gangOne (s : State) : s.tick.gangOne = s.gangOne := rfl
@[simp] theorem State.tick_decisions (s : State) : s.tick.decisions = s.decisions := rfl
@[simp] theorem State.tick_merges (s : State) : s.tick.merges = s.merges := rfl
@[simp] theorem State.tick_poisonOnce (s : State) : s.tick.poisonOnce = s.poisonOnce := rfl
@[simp] theorem State.tick_homeWrites (s : State) : s.tick.homeWrites = s.homeWrites := rfl
@[simp] theorem State.tick_logWrites (s : State) : s.tick.logWrites = s.logWrites := rfl
@[simp] theorem State.tick_lostControl (s : State) : s.tick.lostControl = s.lostControl := rfl
@[simp] theorem State.tick_tops (s : State) : s.tick.tops = s.tops := rfl
@[simp] theorem State.tick_reports (s : State) : s.tick.reports = s.reports := rfl
@[simp] theorem State.tick_inputs (s : State) : s.tick.inputs = s.inputs := rfl
@[simp] theorem State.tick_issuing (s : State) : s.tick.issuing = s.issuing := rfl
@[simp] theorem State.tick_resumes (s : State) : s.tick.resumes = s.resumes := rfl
@[simp] theorem State.tick_now (s : State) : s.tick.now = (s.now + 1) := rfl
@[simp] theorem State.tick_nextPid (s : State) : s.tick.nextPid = s.nextPid := rfl
@[simp] theorem State.tick_nextOrder (s : State) : s.tick.nextOrder = s.nextOrder := rfl
@[simp] theorem State.tick_rotor (s : State) : s.tick.rotor = 0 := rfl
@[simp] theorem State.tick_freeCtr (s : State) : s.tick.freeCtr = s.freeCtr := rfl

/-! ### State.noteRetired -/

@[simp] theorem State.noteRetired_status (s : State) (pid n k : Nat) : (s.noteRetired pid n k).status = s.status := rfl
@[simp] theorem State.noteRetired_powerLimit (s : State) (pid n k : Nat) : (s.noteRetired pid n k).powerLimit = s.powerLimit := rfl
@[simp] theorem State.noteRetired_scrubHours (s : State) (pid n k : Nat) : (s.noteRetired pid n k).scrubHours = s.scrubHours := rfl
@[simp] theorem State.noteRetired_links (s : State) (pid n k : Nat) : (s.noteRetired pid n k).links = s.links := rfl
@[simp] theorem State.noteRetired_yotisDown (s : State) (pid n k : Nat) : (s.noteRetired pid n k).yotisDown = s.yotisDown := rfl
@[simp] theorem State.noteRetired_dies (s : State) (pid n k : Nat) : (s.noteRetired pid n k).dies = s.dies := rfl
@[simp] theorem State.noteRetired_cores (s : State) (pid n k : Nat) : (s.noteRetired pid n k).cores = s.cores := rfl
@[simp] theorem State.noteRetired_fields (s : State) (pid n k : Nat) : (s.noteRetired pid n k).fields = s.fields := rfl
@[simp] theorem State.noteRetired_ctxs (s : State) (pid n k : Nat) : (s.noteRetired pid n k).ctxs = s.ctxs := rfl
@[simp] theorem State.noteRetired_mem (s : State) (pid n k : Nat) : (s.noteRetired pid n k).mem = s.mem := rfl
@[simp] theorem State.noteRetired_tags (s : State) (pid n k : Nat) : (s.noteRetired pid n k).tags = s.tags := rfl
@[simp] theorem State.noteRetired_poison (s : State) (pid n k : Nat) : (s.noteRetired pid n k).poison = s.poison := rfl
@[simp] theorem State.noteRetired_relRecs (s : State) (pid n k : Nat) : (s.noteRetired pid n k).relRecs = s.relRecs := rfl
@[simp] theorem State.noteRetired_atomLast (s : State) (pid n k : Nat) : (s.noteRetired pid n k).atomLast = s.atomLast := rfl
@[simp] theorem State.noteRetired_owners (s : State) (pid n k : Nat) : (s.noteRetired pid n k).owners = s.owners := rfl
@[simp] theorem State.noteRetired_sums (s : State) (pid n k : Nat) : (s.noteRetired pid n k).sums = s.sums := rfl
@[simp] theorem State.noteRetired_contribs (s : State) (pid n k : Nat) : (s.noteRetired pid n k).contribs = s.contribs := rfl
@[simp] theorem State.noteRetired_xlines (s : State) (pid n k : Nat) : (s.noteRetired pid n k).xlines = s.xlines := rfl
@[simp] theorem State.noteRetired_homeQ (s : State) (pid n k : Nat) : (s.noteRetired pid n k).homeQ = s.homeQ := rfl
@[simp] theorem State.noteRetired_portTurn (s : State) (pid n k : Nat) : (s.noteRetired pid n k).portTurn = s.portTurn := rfl
@[simp] theorem State.noteRetired_nextIssue (s : State) (pid n k : Nat) : (s.noteRetired pid n k).nextIssue = s.nextIssue := rfl
@[simp] theorem State.noteRetired_issueLogs (s : State) (pid n k : Nat) : (s.noteRetired pid n k).issueLogs = s.issueLogs := rfl
@[simp] theorem State.noteRetired_engineOwned (s : State) (pid n k : Nat) : (s.noteRetired pid n k).engineOwned = s.engineOwned := rfl
@[simp] theorem State.noteRetired_readers (s : State) (pid n k : Nat) : (s.noteRetired pid n k).readers = s.readers := rfl
@[simp] theorem State.noteRetired_l2 (s : State) (pid n k : Nat) : (s.noteRetired pid n k).l2 = s.l2 := rfl
@[simp] theorem State.noteRetired_drains (s : State) (pid n k : Nat) : (s.noteRetired pid n k).drains = s.drains := rfl
@[simp] theorem State.noteRetired_writeBacks (s : State) (pid n k : Nat) : (s.noteRetired pid n k).writeBacks = s.writeBacks := rfl
@[simp] theorem State.noteRetired_retries (s : State) (pid n k : Nat) : (s.noteRetired pid n k).retries = s.retries := rfl
@[simp] theorem State.noteRetired_drops (s : State) (pid n k : Nat) : (s.noteRetired pid n k).drops = s.drops := rfl
@[simp] theorem State.noteRetired_ships (s : State) (pid n k : Nat) : (s.noteRetired pid n k).ships = s.ships := rfl
@[simp] theorem State.noteRetired_publishes (s : State) (pid n k : Nat) : (s.noteRetired pid n k).publishes = s.publishes := rfl
@[simp] theorem State.noteRetired_migrations (s : State) (pid n k : Nat) : (s.noteRetired pid n k).migrations = s.migrations := rfl
@[simp] theorem State.noteRetired_hostAtomics (s : State) (pid n k : Nat) : (s.noteRetired pid n k).hostAtomics = s.hostAtomics := rfl
@[simp] theorem State.noteRetired_colls (s : State) (pid n k : Nat) : (s.noteRetired pid n k).colls = s.colls := rfl
@[simp] theorem State.noteRetired_fallow (s : State) (pid n k : Nat) : (s.noteRetired pid n k).fallow = s.fallow := rfl
@[simp] theorem State.noteRetired_gangOne (s : State) (pid n k : Nat) : (s.noteRetired pid n k).gangOne = s.gangOne := rfl
@[simp] theorem State.noteRetired_decisions (s : State) (pid n k : Nat) : (s.noteRetired pid n k).decisions = s.decisions := rfl
@[simp] theorem State.noteRetired_merges (s : State) (pid n k : Nat) : (s.noteRetired pid n k).merges = s.merges := rfl
@[simp] theorem State.noteRetired_poisonOnce (s : State) (pid n k : Nat) : (s.noteRetired pid n k).poisonOnce = s.poisonOnce := rfl
@[simp] theorem State.noteRetired_homeWrites (s : State) (pid n k : Nat) : (s.noteRetired pid n k).homeWrites = s.homeWrites := rfl
@[simp] theorem State.noteRetired_logWrites (s : State) (pid n k : Nat) : (s.noteRetired pid n k).logWrites = s.logWrites := rfl
@[simp] theorem State.noteRetired_lostControl (s : State) (pid n k : Nat) : (s.noteRetired pid n k).lostControl = s.lostControl := rfl
@[simp] theorem State.noteRetired_tops (s : State) (pid n k : Nat) : (s.noteRetired pid n k).tops = s.tops := rfl
@[simp] theorem State.noteRetired_reports (s : State) (pid n k : Nat) : (s.noteRetired pid n k).reports = s.reports := rfl
@[simp] theorem State.noteRetired_inputs (s : State) (pid n k : Nat) : (s.noteRetired pid n k).inputs = s.inputs := rfl
@[simp] theorem State.noteRetired_issuing (s : State) (pid n k : Nat) : (s.noteRetired pid n k).issuing = s.issuing := rfl
@[simp] theorem State.noteRetired_resumes (s : State) (pid n k : Nat) : (s.noteRetired pid n k).resumes = s.resumes := rfl
@[simp] theorem State.noteRetired_now (s : State) (pid n k : Nat) : (s.noteRetired pid n k).now = s.now := rfl
@[simp] theorem State.noteRetired_nextPid (s : State) (pid n k : Nat) : (s.noteRetired pid n k).nextPid = s.nextPid := rfl
@[simp] theorem State.noteRetired_nextOrder (s : State) (pid n k : Nat) : (s.noteRetired pid n k).nextOrder = s.nextOrder := rfl
@[simp] theorem State.noteRetired_rotor (s : State) (pid n k : Nat) : (s.noteRetired pid n k).rotor = s.rotor := rfl
@[simp] theorem State.noteRetired_freeCtr (s : State) (pid n k : Nat) : (s.noteRetired pid n k).freeCtr = s.freeCtr := rfl

end Sys2Proof.Machine
end

