-- ==== Sys2Proof/Laws/Lookup.lean ====
section
/-! SUPPORT. What lookups of plots, fibres and cores find after an update. -/

namespace Sys2Proof.Machine

/-- A find by key over a map that keeps keys: at the key that the map changes. -/
theorem find_map_at {α : Type} (l : List α) (key : α → Nat) (k : Nat) (f : α → α) (hf : ∀ a, key (f a) = key a) :
    (l.map fun a => if key a == k then f a else a).find? (fun a => key a == k) = (l.find? fun a => key a == k).map f := by
  induction l with
  | nil => rfl
  | cons a l ih =>
    simp only [List.map_cons, List.find?_cons, ih]
    cases h : key a == k <;> simp [h, hf]

/-- A find by key over a map that changes another key. -/
theorem find_map_other {α : Type} (l : List α) (key : α → Nat) (k j : Nat) (f : α → α) (hf : ∀ a, key (f a) = key a) (h : j ≠ k) :
    (l.map fun a => if key a == k then f a else a).find? (fun a => key a == j) = l.find? fun a => key a == j := by
  induction l with
  | nil => rfl
  | cons a l ih =>
    simp only [List.map_cons, List.find?_cons, ih]
    cases ha : key a == k with
    | true =>
      have e : key a = k := by simpa using ha
      have hj : (k == j) = false := by simpa using Ne.symm h
      simp [hf, e, hj]
    | false => simp

/-! ### Plots -/

/-- A plot that is found has the handle that was asked for. -/
theorem State.plot?_pid {s : State} {pid : Nat} {p : Plot} (h : s.plot? pid = some p) : p.pid = pid := by
  simpa using List.find?_some h

theorem State.plot?_modPlot (s : State) (pid : Nat) (f : Plot → Plot) (hf : ∀ q, (f q).pid = q.pid) :
    (s.modPlot pid f).plot? pid = (s.plot? pid).map f :=
  find_map_at s.plots Plot.pid pid f hf

theorem State.plot?_modPlot_ne (s : State) (pid j : Nat) (f : Plot → Plot) (hf : ∀ q, (f q).pid = q.pid) (h : j ≠ pid) :
    (s.modPlot pid f).plot? j = s.plot? j :=
  find_map_other s.plots Plot.pid pid j f hf h

@[simp] theorem State.plot?_setCore (s : State) (c : Core) (pid : Nat) : (s.setCore c).plot? pid = s.plot? pid := by
  simp [State.plot?]

@[simp] theorem State.plot?_modCore (s : State) (n : Nat) (f : Core → Core) (pid : Nat) : (s.modCore n f).plot? pid = s.plot? pid := by
  simp [State.plot?]

/-! ### Fibres -/

theorem Plot.fibre?_fid {p : Plot} {fid : Nat} {f : Fibre} (h : p.fibre? fid = some f) : f.fid = fid := by
  simpa using List.find?_some h

theorem Plot.fibre?_modFibre (p : Plot) (fid : Nat) (f : Fibre → Fibre) (hf : ∀ g, (f g).fid = g.fid) :
    (p.modFibre fid f).fibre? fid = (p.fibre? fid).map f :=
  find_map_at p.fibres Fibre.fid fid f hf

theorem Plot.fibre?_modFibre_ne (p : Plot) (fid j : Nat) (f : Fibre → Fibre) (hf : ∀ g, (f g).fid = g.fid) (h : j ≠ fid) :
    (p.modFibre fid f).fibre? j = p.fibre? j :=
  find_map_other p.fibres Fibre.fid fid j f hf h

theorem Plot.fibre?_setFibre (p : Plot) (f : Fibre) : (p.setFibre f).fibre? f.fid = (p.fibre? f.fid).map fun _ => f := by
  have h : (p.fibres.map fun g => if g.fid == f.fid then f else g) =
      p.fibres.map fun g => if g.fid == f.fid then { f with fid := g.fid } else g := by
    apply List.map_congr_left
    intro g _
    by_cases e : g.fid = f.fid <;> simp [e]
  unfold Plot.setFibre Plot.fibre?
  simp only [h]
  rw [find_map_at p.fibres Fibre.fid f.fid (fun g => { f with fid := g.fid }) (fun _ => rfl)]
  cases hp : p.fibres.find? (fun g => g.fid == f.fid) with
  | none => rfl
  | some g =>
    have : g.fid = f.fid := by simpa using List.find?_some hp
    simp [this]

theorem Plot.fibre?_setFibre_ne (p : Plot) (f : Fibre) (j : Nat) (h : j ≠ f.fid) : (p.setFibre f).fibre? j = p.fibre? j := by
  have e : (p.fibres.map fun g => if g.fid == f.fid then f else g) =
      p.fibres.map fun g => if g.fid == f.fid then { f with fid := g.fid } else g := by
    apply List.map_congr_left
    intro g _
    by_cases e : g.fid = f.fid <;> simp [e]
  unfold Plot.setFibre Plot.fibre?
  simp only [e]
  exact find_map_other p.fibres Fibre.fid f.fid j _ (fun _ => rfl) h

theorem State.fibre?_modPlot (s : State) (pid fid : Nat) (f : Plot → Plot) (hf : ∀ q, (f q).pid = q.pid) :
    (s.modPlot pid f).fibre? pid fid = (s.plot? pid).bind fun p => (f p).fibre? fid := by
  unfold State.fibre?
  rw [State.plot?_modPlot s pid f hf]
  cases s.plot? pid <;> rfl

@[simp] theorem State.fibre?_modCore (s : State) (n : Nat) (f : Core → Core) (pid fid : Nat) :
    (s.modCore n f).fibre? pid fid = s.fibre? pid fid := by
  simp [State.fibre?]

/-! ### Cores -/

theorem State.core_num (s : State) (n : Nat) : (s.core n).num = n := by
  unfold State.core
  cases h : s.cores.find? (fun c => c.num == n) with
  | none => rfl
  | some c => simpa using List.find?_some h

theorem State.setCore_cores (s : State) (c : Core) : (s.setCore c).cores =
    if s.cores.any (fun d => d.num == c.num) then s.cores.map fun d => if d.num == c.num then c else d else s.cores ++ [c] := by
  unfold State.setCore
  split <;> rfl

/-- Putting a core in place of those of its number, as a change of theirs. -/
theorem cores_map_eq (l : List Core) (c : Core) : (l.map fun d => if d.num == c.num then c else d) =
    l.map fun d => if d.num == c.num then { c with num := d.num } else d := by
  apply List.map_congr_left
  intro d _
  by_cases e : d.num = c.num <;> simp [e]

theorem State.core_setCore (s : State) (c : Core) : (s.setCore c).core c.num = c := by
  unfold State.core
  rw [State.setCore_cores]
  cases h : s.cores.any (fun d => d.num == c.num) with
  | true =>
    simp only [if_true, cores_map_eq]
    rw [find_map_at s.cores Core.num c.num (fun d => { c with num := d.num }) (fun _ => rfl)]
    cases hp : s.cores.find? (fun d => d.num == c.num) with
    | none =>
      simp only [List.find?_eq_none] at hp
      simp only [List.any_eq_true] at h
      obtain ⟨d, hd, hn⟩ := h
      exact absurd hn (hp d hd)
    | some d =>
      have : d.num = c.num := by simpa using List.find?_some hp
      simp [this]
  | false =>
    have : s.cores.find? (fun d => d.num == c.num) = none := by
      simp only [List.find?_eq_none]
      simpa using h
    simp [List.find?_append, this]

theorem State.core_setCore_ne (s : State) (c : Core) (n : Nat) (h : n ≠ c.num) : (s.setCore c).core n = s.core n := by
  unfold State.core
  rw [State.setCore_cores]
  cases s.cores.any (fun d => d.num == c.num) with
  | true =>
    simp only [if_true, cores_map_eq]
    rw [find_map_other s.cores Core.num c.num n (fun d => { c with num := d.num }) (fun _ => rfl) h]
  | false => simp [List.find?_append, Ne.symm h]

theorem State.core_modCore (s : State) (n : Nat) (f : Core → Core) (hf : ∀ c, (f c).num = c.num) :
    (s.modCore n f).core n = f (s.core n) := by
  have h : (f (s.core n)).num = n := by rw [hf, State.core_num]
  unfold State.modCore
  have := State.core_setCore s (f (s.core n))
  rwa [h] at this

theorem State.core_modCore_ne (s : State) (n j : Nat) (f : Core → Core) (hf : ∀ c, (f c).num = c.num) (h : j ≠ n) :
    (s.modCore n f).core j = s.core j := by
  unfold State.modCore
  exact State.core_setCore_ne s _ j (by rw [hf, State.core_num]; exact h)

@[simp] theorem State.core_modPlot (s : State) (pid : Nat) (f : Plot → Plot) (n : Nat) : (s.modPlot pid f).core n = s.core n := rfl

@[simp] theorem State.core_setPlot (s : State) (p : Plot) (n : Nat) : (s.setPlot p).core n = s.core n := rfl

end Sys2Proof.Machine
end

