-- ==== Sys2Proof/Laws/Log.lean ====
section
/-! SUPPORT. A record of the exception log changes memory and the records under way alone, whatever the plots are (R124 to R126). -/

namespace Sys2Proof.Machine

/-- A function of states that changes memory, tags, poison and the records under way alone, and that the plots do not change. -/
structure MemStep (g : State → State) : Prop where
  only : ∀ s, g s = { s with mem := (g s).mem, tags := (g s).tags, poison := (g s).poison, logWrites := (g s).logWrites }
  plots : ∀ s X, g { s with plots := X } = { g s with plots := X }

theorem MemStep.id : MemStep fun s => s := ⟨fun _ => rfl, fun _ _ => rfl⟩

theorem MemStep.comp {g h : State → State} (hg : MemStep g) (hh : MemStep h) : MemStep fun s => h (g s) := by
  constructor
  · intro s
    have a := hh.only (g s)
    have b := hg.only s
    generalize h (g s) = u at *
    generalize g s = t at *
    rw [a, b]
  · intro s X
    rw [hg.plots, hh.plots]

theorem memStep_store (a : Nat) (bs : List Byte) : MemStep fun s => s.store a bs := ⟨fun _ => rfl, fun _ _ => rfl⟩

/-! ### What the plots do not change -/

theorem State.read0_plots (s : State) (X : List Plot) (c : Ctx) : ∀ n k, State.read0 { s with plots := X } c k n = s.read0 c k n := by
  intro n
  induction n with
  | zero => intro k; rfl
  | succ n ih => intro k; simp only [State.read0, ih]

theorem State.entry?_plots (s : State) (X : List Plot) (c : Ctx) (o : Nat) : State.entry? { s with plots := X } c o = s.entry? c o := by
  simp only [State.entry?, State.read0_plots]

theorem State.exlog_plots (s : State) (X : List Plot) (n : Nat) : State.exlog { s with plots := X } n = s.exlog n := by
  have hc : State.ctx? { s with plots := X } n = s.ctx? n := rfl
  unfold State.exlog
  rw [hc]
  cases s.ctx? n with
  | none => rfl
  | some c =>
    dsimp only
    have hl (o : Nat) : State.isLog { s with plots := X } c o = s.isLog c o := by simp only [State.isLog, State.entry?_plots]
    rw [hl, State.entry?_plots]

theorem State.place?_plots (s : State) (X : List Plot) (d c o off : Nat) :
    State.place? { s with plots := X } d c o off = s.place? d c o off := by
  simp only [State.place?, State.entry?_plots, State.desc, State.read0_plots]
  rfl

theorem State.getObj_plots (s : State) (X : List Plot) (c o off n : Nat) :
    State.getObj { s with plots := X } c o off n = s.getObj c o off n := by
  simp only [State.getObj, State.place?_plots]
  rfl

/-! ### Records of the log -/

/-- A fold of steps, each a step of memory. -/
theorem MemStep.fold {α : Type} (g : α → State → State) (h : ∀ a, MemStep (g a)) (l : List α) : MemStep fun s => l.foldl (fun t a => g a t) s := by
  induction l with
  | nil => exact .id
  | cons a rest ih => exact (h a).comp ih

/-- One of two steps, by a test. -/
theorem MemStep.ite {g h : State → State} (p : Prop) [Decidable p] (hg : MemStep g) (hh : MemStep h) : MemStep fun s => if p then g s else h s := by
  by_cases e : p
  · simpa [e] using hg
  · simpa [e] using hh

theorem State.logOpen_plots (s : State) (X : List Plot) (w : LogWrite) : State.logOpen { s with plots := X } w = s.logOpen w := by
  simp only [State.logOpen, State.exlog_plots, State.getObj_plots, State.place?_plots]
  rfl

theorem memStep_putObj (ctx obj off : Nat) (bs : List Byte) : MemStep fun s => s.putObj ctx obj off bs := by
  constructor
  · intro s
    dsimp only [State.putObj]
    split <;> rfl
  · intro s X
    dsimp only [State.putObj]
    rw [State.place?_plots]
    split <;> rfl

theorem memStep_appendRecord (w : LogWrite) : MemStep fun s => s.appendRecord w := by
  have put (ctx obj off off' off'' : Nat) (r r' r'' : List Byte) :
      MemStep fun s => ((s.putObj ctx obj off r).putObj ctx obj off' r').putObj ctx obj off'' r'' :=
    ((memStep_putObj ctx obj off r).comp (memStep_putObj ctx obj off' r')).comp (memStep_putObj ctx obj off'' r'')
  constructor
  · intro s
    dsimp only [State.appendRecord]
    split
    · rfl
    · split
      · rfl
      · split
        · exact (memStep_putObj _ _ _ _).only s
        · exact (put _ _ _ _ _ _ _ _).only s
  · intro s X
    have hc : State.cycOf { s with plots := X } w.core = s.cycOf w.core := rfl
    dsimp only [State.appendRecord]
    simp only [State.exlog_plots, State.place?_plots, State.getObj_plots, hc]
    split
    · rfl
    · split
      · rfl
      · split
        · exact (memStep_putObj _ _ _ _).plots s X
        · exact (put _ _ _ _ _ _ _ _).plots s X

theorem memStep_logException (p : Plot) (pc fid count unit ty cause : Nat) :
    MemStep fun s => s.logException p pc fid count unit ty cause := by
  constructor
  · intro s
    dsimp only [State.logException]
    split
    · rfl
    · exact (memStep_appendRecord _).only s
  · intro s X
    dsimp only [State.logException]
    rw [State.logOpen_plots]
    split
    · rfl
    · exact (memStep_appendRecord _).plots s X

/-- The records of an issue change memory and the records under way alone. -/
theorem memStep_logIssue (p : Plot) (pc unit ty : Nat) (l : List (Nat × List Nat)) : MemStep fun s => s.logIssue p pc unit ty l := by
  have one (cause : Nat) : MemStep fun t =>
      match sortBy id ((l.filter fun q => q.2.contains cause).map (·.1)) with
      | [] => t
      | fid :: rest => t.logException p pc fid (rest.length + 1) unit ty cause := by
    cases sortBy id ((l.filter fun q => q.2.contains cause).map (·.1)) with
    | nil => exact .id
    | cons fid rest => exact memStep_logException p pc fid _ unit ty cause
  exact ((one 1).comp (one 2)).comp (one 3)

end Sys2Proof.Machine
end

