-- ==== Sys2Proof/Laws/Lane.lean ====
section
/-! SUPPORT. What the end of an issue does, said once (R32 to R36, R62, R76, R123 to R126, R351, R432). -/

namespace Sys2Proof.Machine

/-! ### Changes of one plot -/

theorem State.modPlot_modPlot (s : State) (pid : Nat) (f g : Plot → Plot) (hf : ∀ q, (f q).pid = q.pid) :
    (s.modPlot pid f).modPlot pid g = s.modPlot pid fun q => g (f q) := by
  unfold State.modPlot
  simp only [List.map_map]
  congr 1
  apply List.map_congr_left
  intro q _
  by_cases h : q.pid = pid <;> simp [h, hf]

theorem State.modPlot_id (s : State) (pid : Nat) : s.modPlot pid (fun q => q) = s := by
  have h : (s.plots.map fun q => if q.pid == pid then q else q) = s.plots := by simp
  unfold State.modPlot
  rw [h]

@[simp] theorem Fibre.advance_fid (f : Fibre) (pc next : Pc) : (f.advance pc next).fid = f.fid := rfl

/-! ### What a member becomes -/

/-- The fibre that an outcome writes, where it writes one. -/
def Act.fibre? (iss : Issue) (size now : Nat) : Act → Option Fibre
  | .seq f => some (f.advance iss.pc (iss.pc + BitVec.ofNat 40 size))
  | .goto f pc =>
    some (if pc = iss.pc + BitVec.ofNat 40 size then f.advance iss.pc (iss.pc + BitVec.ofNat 40 size) else { f with pc := pc })
  | .hold f j => some { f.advance iss.pc (iss.pc + BitVec.ofNat 40 size) with run := .held j, readyAt := now }
  | .park f w => some { f with run := .parked w, readyAt := now }
  | _ => none

/-- Whether the member may issue again: it is neither parked nor held, and still there. -/
def Act.stays : Act → Bool
  | .seq _ => true
  | .goto _ _ => true
  | .fault _ => true
  | _ => false

/-- A member's outcome as a change of its plot. -/
theorem State.settle_eq (s : State) (iss : Issue) (size fid : Nat) (a : Act) (g : Fibre)
    (h : a.fibre? iss size (s.cycOf iss.core) = some g) : s.settle iss size fid a = s.modPlot iss.pid fun p => p.setFibre g := by
  cases a <;> simp [Act.fibre?] at h <;> subst h <;> rfl

/-- All outcomes as one change of the plot. -/
theorem settle_all (iss : Issue) (size now : Nat) (effs : List (Nat × Act × Flg × List Nat)) (s : State)
    (hn : s.cycOf iss.core = now) (h : ∀ q ∈ effs, q.2.1 ≠ .exit) :
    effs.foldl (fun t q => t.settle iss size q.1 q.2.1) s =
      s.modPlot iss.pid fun p => (effs.filterMap fun q => q.2.1.fibre? iss size now).foldl Plot.setFibre p := by
  induction effs generalizing s with
  | nil => exact (s.modPlot_id iss.pid).symm
  | cons q rest ih =>
    have hr := fun q hq => h q (List.mem_cons_of_mem _ hq)
    rw [List.foldl_cons]
    cases hg : q.2.1.fibre? iss size now with
    | none =>
      have e : s.settle iss size q.1 q.2.1 = s := by
        have hx := h q (by simp)
        revert hg hx
        cases q.2.1 <;> simp [Act.fibre?, State.settle]
      rw [e, ih s hn hr]
      simp [hg]
    | some g =>
      have e := s.settle_eq iss size q.1 q.2.1 g (by rw [hn]; exact hg)
      rw [e, ih (s.modPlot iss.pid (·.setFibre g)) hn hr, State.modPlot_modPlot s iss.pid (·.setFibre g) _ fun _ => rfl]
      simp [hg]

/-- A list of fibres put into a plot: all but its fibres stays. -/
theorem setFibres_rest (l : List Fibre) (p : Plot) : { l.foldl Plot.setFibre p with fibres := [] } = { p with fibres := [] } := by
  induction l generalizing p with
  | nil => rfl
  | cons g rest ih => rw [List.foldl_cons, ih]; rfl

theorem setFibres_other (l : List Fibre) (p : Plot) (fid : Nat) (h : ∀ g ∈ l, g.fid ≠ fid) :
    (l.foldl Plot.setFibre p).fibre? fid = p.fibre? fid := by
  induction l generalizing p with
  | nil => rfl
  | cons g rest ih =>
    rw [List.foldl_cons, ih _ fun x hx => h x (by simp [hx]), Plot.fibre?_setFibre_ne _ _ _ (h g (by simp)).symm]

theorem setFibres_at (l : List Fibre) (p : Plot) (g : Fibre) (nd : (l.map (·.fid)).Nodup) (hg : g ∈ l) (hp : (p.fibre? g.fid).isSome) :
    (l.foldl Plot.setFibre p).fibre? g.fid = some g := by
  induction l generalizing p with
  | nil => simp at hg
  | cons x rest ih =>
    simp only [List.map_cons, List.nodup_cons] at nd
    rw [List.foldl_cons]
    rcases List.mem_cons.1 hg with rfl | hg
    · rw [setFibres_other _ _ _ fun y hy e => nd.1 (by rw [← e]; exact List.mem_map_of_mem hy), Plot.fibre?_setFibre]
      obtain ⟨q, hq⟩ := Option.isSome_iff_exists.1 hp
      simp [hq]
    · have ne : g.fid ≠ x.fid := fun e => nd.1 (by rw [← e]; exact List.mem_map_of_mem hg)
      exact ih _ nd.2 hg (by rw [Plot.fibre?_setFibre_ne _ _ _ ne]; exact hp)

/-! ### The furrow after an issue -/

/-- A state that differs from another in furrows, and in when and how the given fibres of a plot run next. -/
structure Requeued (pid : Nat) (fids : List Nat) (s t : State) : Prop where
  rest : { t with plots := [], cores := [] } = { s with plots := [], cores := [] }
  cores : ∀ n, { t.core n with furrows := [], ports := [] } = { s.core n with furrows := [], ports := [] }
  others : ∀ j, j ≠ pid → t.plot? j = s.plot? j
  plot : ∀ P, s.plot? pid = some P → ∃ q, t.plot? pid = some q ∧ { q with fibres := [] } = { P with fibres := [] } ∧
    (∀ fid, fid ∉ fids → q.fibre? fid = P.fibre? fid) ∧
    ∀ fid f, P.fibre? fid = some f → ∃ g, q.fibre? fid = some g ∧ g.same f

theorem Requeued.refl (pid : Nat) (fids : List Nat) (s : State) : Requeued pid fids s s :=
  ⟨rfl, fun _ => rfl, fun _ _ => rfl, fun P h => ⟨P, h, rfl, fun _ _ => rfl, fun _ f hf => ⟨f, hf, rfl⟩⟩⟩

theorem Requeued.trans {pid : Nat} {fids : List Nat} {s t u : State} (h : Requeued pid fids s t) (k : Requeued pid fids t u) :
    Requeued pid fids s u := by
  refine ⟨k.rest.trans h.rest, fun n => (k.cores n).trans (h.cores n), fun j hj => (k.others j hj).trans (h.others j hj), ?_⟩
  intro P hP
  obtain ⟨q, hq, e, o, a⟩ := h.plot P hP
  obtain ⟨r, hr, e', o', a'⟩ := k.plot q hq
  refine ⟨r, hr, e'.trans e, fun fid hf => (o' fid hf).trans (o fid hf), fun fid f hf => ?_⟩
  obtain ⟨g, hg, eg⟩ := a fid f hf
  obtain ⟨g', hg', eg'⟩ := a' fid g hg
  exact ⟨g', hg', Eq.trans eg' eg⟩

theorem Requeued.mono {pid : Nat} {l m : List Nat} {s t : State} (h : Requeued pid l s t) (hl : ∀ x ∈ l, x ∈ m) :
    Requeued pid m s t := by
  refine ⟨h.rest, h.cores, h.others, fun P hP => ?_⟩
  obtain ⟨q, hq, e, o, a⟩ := h.plot P hP
  exact ⟨q, hq, e, fun fid hf => o fid fun x => hf (hl _ x), a⟩

/-- Changing when and how a fibre runs next. -/
theorem requeued_run (s : State) (pid fid : Nat) (h : Fibre → Fibre) (hf : ∀ f, (h f).fid = f.fid) (same : ∀ f, (h f).same f) :
    Requeued pid [fid] s (s.modFibre pid fid h) := by
  unfold State.modFibre
  refine ⟨rfl, fun _ => rfl, fun j hj => State.plot?_modPlot_ne s pid j (·.modFibre fid h) (fun _ => rfl) hj, fun P hP => ?_⟩
  refine ⟨P.modFibre fid h, ?_, rfl, fun j hj => ?_, fun j f hj => ?_⟩
  · rw [State.plot?_modPlot s pid (·.modFibre fid h) fun _ => rfl, hP]
    rfl
  · exact Plot.fibre?_modFibre_ne P fid j h hf (by simpa using hj)
  · by_cases e : j = fid
    · subst e
      exact ⟨h f, by rw [Plot.fibre?_modFibre P j h hf, hj]; rfl, same f⟩
    · exact ⟨f, by rw [Plot.fibre?_modFibre_ne P fid j h hf e]; exact hj, rfl⟩

/-- A change of a core's furrows and ports. -/
theorem requeued_modCore (pid : Nat) (l : List Nat) (s : State) (n : Nat) (f : Core → Core)
    (hf : ∀ c, { f c with furrows := [], ports := [] } = { c with furrows := [], ports := [] }) : Requeued pid l s (s.modCore n f) := by
  have hn (c : Core) : (f c).num = c.num := (congrArg Core.num (hf c) : _)
  refine ⟨?_, fun j => ?_, fun j _ => by simp, fun P hP => ⟨P, by simpa using hP, rfl, fun _ _ => rfl, fun _ g hg => ⟨g, hg, rfl⟩⟩⟩
  · unfold State.modCore State.setCore
    split <;> rfl
  · by_cases e : j = n
    · subst e
      rw [State.core_modCore _ _ _ hn, hf]
    · rw [State.core_modCore_ne _ _ _ _ hn e]

/-- Making a fibre runnable. -/
theorem requeued_readyAs (s : State) (pid fid since age : Nat) (flight : Bool) : Requeued pid [fid] s (s.readyAs pid fid since age flight) := by
  unfold State.readyAs
  split
  · exact .refl _ _ _
  · split
    · exact requeued_run s pid fid _ (fun _ => rfl) fun _ => rfl
    · dsimp only
      split
      · exact requeued_run s pid fid _ (fun _ => rfl) fun _ => rfl
      · rename_i p _ _ fu _ _
        have e (g : Furrow) : Requeued pid [fid] s (s.modCore p.core fun k => k.setFurrow g) := requeued_modCore _ _ _ _ _ fun _ => rfl
        exact (e _).trans (requeued_run _ pid fid _ (fun _ => rfl) fun _ => rfl)

theorem requeued_all (pid since age : Nat) (flight : Bool) (l : List (Nat × Act)) (s : State) :
    Requeued pid (l.map (·.1)) s (l.foldl (fun t q => t.readyAs pid q.1 since age flight) s) := by
  induction l generalizing s with
  | nil => exact .refl _ _ _
  | cons q rest ih =>
    rw [List.foldl_cons]
    exact (((requeued_readyAs s pid q.1 since age flight).mono (by simp)).trans ((ih _).mono (by simp +contextual)))

/-- The end of a furrow changes furrows alone. -/
theorem endFurrow_rest (c : Core) (fu : Furrow) (now occ : Nat) :
    { c.endFurrow fu now occ with furrows := [], ports := [] } = { c with furrows := [], ports := [] } := by
  unfold Core.endFurrow
  split <;> rfl

/-- The furrow of an issue after it: members that do not park, hold or exit may become runnable. -/
theorem requeued_regroup (s : State) (iss : Issue) (w : LaneWord) (acts : List (Nat × Act)) (occ : Nat) (l : List Nat)
    (hl : ∀ q ∈ acts, q.2.stays = true → q.1 ∈ l) : Requeued iss.pid l s (s.regroup iss w acts occ) := by
  have hs (t : State) (since age : Nat) (flight : Bool) (stay : List (Nat × Act)) (h : ∀ q ∈ stay, q ∈ acts ∧ q.2.stays = true) :
      Requeued iss.pid l t (stay.foldl (fun t q => t.readyAs iss.pid q.1 since age flight) t) := by
    refine (requeued_all iss.pid since age flight stay t).mono fun x hx => ?_
    obtain ⟨q, hq, rfl⟩ := List.mem_map.1 hx
    exact hl q (h q hq).1 (h q hq).2
  unfold State.regroup State.keepFurrow
  dsimp only
  generalize hstay : (acts.filter _) = stay
  have h : ∀ q ∈ stay, q ∈ acts ∧ q.2.stays = true := by
    intro q hq
    rw [← hstay, List.mem_filter] at hq
    refine ⟨hq.1, ?_⟩
    revert hq
    cases q.2 <;> simp [Act.stays]
  split
  · exact hs _ _ _ _ _ h
  · split
    · exact hs _ _ _ _ _ h
    · split
      · split
        · exact requeued_modCore _ _ _ _ _ fun c => endFurrow_rest c _ _ _
        · exact requeued_modCore _ _ _ _ _ fun _ => rfl
      · split
        · exact (requeued_modCore _ _ _ _ _ fun c => endFurrow_rest c _ _ _).trans (hs _ _ _ _ _ h)
        · exact requeued_modCore _ _ _ _ _ fun _ => rfl

theorem requeued_takePort (pid : Nat) (l : List Nat) (s : State) (iss : Issue) (occ : Nat) : Requeued pid l s (s.takePort iss occ) := by
  unfold State.takePort
  split
  · exact requeued_modCore _ _ _ _ _ fun _ => rfl
  · exact .refl _ _ _

/-! ### The end of an issue -/

/-- The issue in progress is not read by a lookup. -/
theorem State.core_congr {s t : State} (h : t.cores = s.cores) (n : Nat) : t.core n = s.core n := by
  unfold State.core
  rw [h]

theorem State.plot?_congr {s t : State} (h : t.plots = s.plots) (n : Nat) : t.plot? n = s.plot? n := by
  unfold State.plot?
  rw [h]

/-- The change that the skid and the faults of an issue make to its plot. -/
theorem raiseAll_eq (s : State) (iss : Issue) (l : List (Nat × FaultRec)) :
    (s.countSkid iss).raiseAll iss.pid (iss.furrow.map (·.1)) l = s.modPlot iss.pid fun p => { p with halt := s.raised p iss l } := by
  unfold State.raiseAll State.raised State.countSkid
  generalize sortBy (·.1) l = m
  have fold (m : List (Nat × FaultRec)) (t : State) (g : Plot → Option Halt) (hc : t.cycOf = s.cycOf) :
      m.foldl (fun t q => t.modPlot iss.pid fun p =>
          { p with halt := some (haltWith p.halt (t.cycOf p.core) (iss.furrow.map (·.1)) q.1 q.2) })
        (t.modPlot iss.pid fun p => { p with halt := g p }) =
      t.modPlot iss.pid fun p =>
        { p with halt := m.foldl (fun h q => some (haltWith h (s.cycOf p.core) (iss.furrow.map (·.1)) q.1 q.2)) (g p) } := by
    induction m generalizing g with
    | nil => rfl
    | cons q rest ih =>
      have h : (t.modPlot iss.pid fun p => { p with halt := g p }).cycOf = s.cycOf := hc
      rw [List.foldl_cons, h, State.modPlot_modPlot t iss.pid (fun p => { p with halt := g p }) _ fun _ => rfl]
      exact ih fun p => some (haltWith (g p) (s.cycOf p.core) (iss.furrow.map (·.1)) q.1 q.2)
  exact fold m s (fun p => p.halt.map fun h => h.skid (s.cycOf p.core) iss) rfl

/-- The end of an issue as its parts: n instructions retire, some made as steps; the issue occupies its port for some ccy. -/
theorem finish_parts (t : State) (iss : Issue) (w : LaneWord) (p0 : Plot) (effs : List (Nat × Act × Flg × List Nat)) :
    ∃ n steps occ U, U = ((((((effs.foldl (fun t q => t.settle iss w.size q.1 q.2.1) t).noteRetired iss.pid n steps).modPlot iss.pid fun p =>
        { p with flgPend := p.flgPend ||| effs.foldl (fun a q => a ||| q.2.2.1) 0 }).logIssue p0 iss.pc.toNat 0 w.ty
          (effs.map fun q => (q.1, q.2.2.2))).regroup iss w (effs.map fun q => (q.1, q.2.1)) occ).takePort iss occ) ∧
      t.finish iss w p0 effs =
        { (U.countSkid iss).raiseAll iss.pid (iss.furrow.map (·.1))
            (effs.filterMap fun q => match q.2.1 with | .fault r => some (q.1, r) | _ => none) with
          issuing := none, nextIssue := U.nextIssue + 1 } := by
  unfold State.finish
  dsimp only
  rw [List.filterMap_map]
  exact ⟨_, _, _, _, rfl, rfl⟩

/-- The change that the retirement of instructions makes to a plot. -/
theorem noteRetired_eq (s : State) (pid n steps : Nat) : ∃ G : Plot → Plot, s.noteRetired pid n steps = s.modPlot pid G ∧
    ∀ q, { G q with rcnt := 0, progress := [] } = { q with rcnt := 0, progress := [] } :=
  ⟨_, rfl, fun _ => rfl⟩

/-- The change that the end of an issue makes to its plot before the furrow's. -/
theorem plotEnd_eq (t : State) (pid n steps : Nat) (gs : List Fibre) (flg : Flg) : ∃ F : Plot → Plot,
    ((t.modPlot pid fun p => gs.foldl Plot.setFibre p).noteRetired pid n steps).modPlot pid
      (fun p => { p with flgPend := p.flgPend ||| flg }) = t.modPlot pid F ∧ ∀ q,
    { F q with fibres := [], rcnt := 0, progress := [], flgPend := 0 } = { q with fibres := [], rcnt := 0, progress := [], flgPend := 0 } ∧
    (F q).flgPend = q.flgPend ||| flg ∧ (F q).fibres = (gs.foldl Plot.setFibre q).fibres := by
  have hp (q : Plot) : (gs.foldl Plot.setFibre q).pid = q.pid := (congrArg Plot.pid (setFibres_rest gs q) : _)
  obtain ⟨G, hG, hq⟩ := noteRetired_eq (t.modPlot pid fun p => gs.foldl Plot.setFibre p) pid n steps
  have hp' (q : Plot) : (G q).pid = q.pid := (congrArg Plot.pid (hq q) : _)
  rw [hG, State.modPlot_modPlot t pid _ G hp, State.modPlot_modPlot t pid _ _ fun q => (hp' _).trans (hp q)]
  refine ⟨_, rfl, fun q => ?_⟩
  have e := setFibres_rest gs q
  have e' := hq (gs.foldl Plot.setFibre q)
  dsimp only
  generalize gs.foldl Plot.setFibre q = r at *
  generalize G r = u at *
  cases q
  cases r
  cases u
  simp only [Plot.mk.injEq] at e e'
  simp_all

/-- Putting fibres whose numbers are those of outcomes. -/
theorem fids_filterMap (effs : List (Nat × Act × Flg × List Nat)) (iss : Issue) (size now : Nat)
    (hact : ∀ q ∈ effs, ∀ g, q.2.1.fibre? iss size now = some g → g.fid = q.1) (nd : (effs.map (·.1)).Nodup) :
    ((effs.filterMap fun q => q.2.1.fibre? iss size now).map (·.fid)).Nodup ∧
      ∀ g ∈ effs.filterMap (fun q => q.2.1.fibre? iss size now), g.fid ∈ effs.map (·.1) := by
  have mem : ∀ g ∈ effs.filterMap (fun q => q.2.1.fibre? iss size now), g.fid ∈ effs.map (·.1) := by
    intro g hg
    obtain ⟨q, hq, e⟩ := List.mem_filterMap.1 hg
    rw [hact q hq g e]
    exact List.mem_map_of_mem hq
  refine ⟨?_, mem⟩
  clear mem
  induction effs with
  | nil => exact List.nodup_nil
  | cons q rest ih =>
    simp only [List.map_cons, List.nodup_cons] at nd
    have hr := fun q hq => hact q (List.mem_cons_of_mem _ hq)
    cases hg : q.2.1.fibre? iss size now with
    | none => simpa [hg] using ih hr nd.2
    | some g =>
      simp only [List.filterMap_cons, hg, List.map_cons, List.nodup_cons]
      refine ⟨fun hm => nd.1 ?_, ih hr nd.2⟩
      obtain ⟨x, hx, e⟩ := List.mem_map.1 hm
      obtain ⟨y, hy, e'⟩ := List.mem_filterMap.1 hx
      rw [← hact q (by simp) g hg, ← e, hr y hy x e']
      exact List.mem_map_of_mem hy

/-- The end of an issue none of whose members exits: what each becomes, the flags, the log, the halt, and nothing else. -/
theorem finish_spec (t : State) (iss : Issue) (w : LaneWord) (p0 : Plot) (effs : List (Nat × Act × Flg × List Nat))
    (noExit : ∀ q ∈ effs, q.2.1 ≠ .exit) (hact : ∀ q ∈ effs, ∀ g, q.2.1.fibre? iss w.size (t.cycOf iss.core) = some g → g.fid = q.1)
    (nd : (effs.map (·.1)).Nodup) (mem : ∀ q ∈ effs, q.1 ∈ iss.members.map (·.2)) :
    LaneEnd (t.logIssue p0 iss.pc.toNat 0 w.ty (effs.map fun q => (q.1, q.2.2.2))) (t.finish iss w p0 effs) iss
      (effs.foldl (fun a q => a ||| q.2.2.1) 0) (effs.filterMap fun q => match q.2.1 with | .fault r => some (q.1, r) | _ => none) ∧
    (∀ q ∈ effs, (t.fibre? iss.pid q.1).isSome → ∀ g, q.2.1.fibre? iss w.size (t.cycOf iss.core) = some g →
      Becomes (t.finish iss w p0 effs) iss q.1 g) ∧
    (∀ q ∈ effs, ∀ f, t.fibre? iss.pid q.1 = some f → ∀ r, q.2.1 = .fault r → Becomes (t.finish iss w p0 effs) iss q.1 f) ∧
    (∀ q ∈ effs, (t.fibre? iss.pid q.1).isSome → ∀ f k, q.2.1 = .park f k →
      (t.finish iss w p0 effs).fibre? iss.pid q.1 = some { f with run := .parked k, readyAt := t.cycOf iss.core }) ∧
    ∀ q ∈ effs, (t.fibre? iss.pid q.1).isSome → ∀ f k, q.2.1 = .hold f k →
      (t.finish iss w p0 effs).fibre? iss.pid q.1 =
        some { f.advance iss.pc (iss.pc + BitVec.ofNat 40 w.size) with run := .held k, readyAt := t.cycOf iss.core } := by
  obtain ⟨n, steps, occ, U, hU0, hfin⟩ := finish_parts t iss w p0 effs
  rw [hfin]
  clear hfin
  rw [settle_all iss w.size (t.cycOf iss.core) effs t rfl noExit] at hU0
  obtain ⟨ndg, gmem⟩ := fids_filterMap effs iss w.size (t.cycOf iss.core) hact nd
  generalize hgs : (effs.filterMap fun q => q.2.1.fibre? iss w.size (t.cycOf iss.core)) = gs at *
  generalize hflg : effs.foldl (fun a q => a ||| q.2.2.1) 0 = flg at *
  generalize hlog : (effs.map fun q => (q.1, q.2.2.2)) = lg at *
  generalize (effs.filterMap fun q => match q.2.1 with | .fault r => some (q.1, r) | _ => none) = faults
  obtain ⟨F, hs, hF⟩ := plotEnd_eq t iss.pid n steps gs flg
  rw [hs] at hU0
  have hpid (q : Plot) : (F q).pid = q.pid := (congrArg Plot.pid (hF q).1 : _)
  have hlogs : (t.modPlot iss.pid F).logIssue p0 iss.pc.toNat 0 w.ty lg =
      { t.logIssue p0 iss.pc.toNat 0 w.ty lg with plots := (t.modPlot iss.pid F).plots } :=
    (memStep_logIssue p0 iss.pc.toNat 0 w.ty lg).plots t (t.modPlot iss.pid F).plots
  rw [hlogs] at hU0
  have hlogt := (memStep_logIssue p0 iss.pc.toNat 0 w.ty lg).only t
  generalize t.logIssue p0 iss.pc.toNat 0 w.ty lg = S at *
  have hSp (j : Nat) : S.plot? j = t.plot? j := State.plot?_congr (by rw [hlogt]) j
  have goers : ∀ q ∈ effs.map (fun q => (q.1, q.2.1)), q.2.stays = true →
      q.1 ∈ (effs.filter fun q => q.2.1.stays).map (·.1) := by
    intro q hq hn
    obtain ⟨q', hq', rfl⟩ := List.mem_map.1 hq
    exact List.mem_map.2 ⟨q', List.mem_filter.2 ⟨hq', hn⟩, rfl⟩
  generalize hl : (effs.filter fun q => q.2.1.stays).map (·.1) = l at goers
  have R := (requeued_regroup { S with plots := (t.modPlot iss.pid F).plots } iss w (effs.map fun q => (q.1, q.2.1)) occ l goers).trans
    (requeued_takePort iss.pid l _ iss occ)
  rw [← hU0] at R
  clear hU0
  have hT : State.plot? { S with plots := (t.modPlot iss.pid F).plots } iss.pid = (t.plot? iss.pid).map F :=
    State.plot?_modPlot t iss.pid F hpid
  have fibreF (P : Plot) (j : Nat) : (F P).fibre? j = (gs.foldl Plot.setFibre P).fibre? j := by
    unfold Plot.fibre?
    rw [(hF P).2.2]
  have hU : U.cycOf = S.cycOf := by
    funext n
    have e := congrArg State.dies R.rest
    have e' : U.dies = S.dies := e
    unfold State.cycOf State.die
    rw [e']
  have hUp (P : Plot) : U.raised P iss faults = S.raised P iss faults := by
    unfold State.raised
    rw [hU]
  rw [raiseAll_eq]
  -- the plot at the end
  have atEnd (P : Plot) (hP : t.plot? iss.pid = some P) : ∃ q, U.plot? iss.pid = some q ∧
      (U.modPlot iss.pid fun p => { p with halt := U.raised p iss faults }).plot? iss.pid = some { q with halt := U.raised q iss faults } ∧
      { q with fibres := [] } = { F P with fibres := [] } ∧ (∀ fid, fid ∉ l → q.fibre? fid = (F P).fibre? fid) ∧
      ∀ fid f, (F P).fibre? fid = some f → ∃ g, q.fibre? fid = some g ∧ g.same f := by
    obtain ⟨q, hq, e, o, a⟩ := R.plot (F P) (by rw [hT, hP]; rfl)
    refine ⟨q, hq, ?_, e, o, a⟩
    rw [State.plot?_modPlot U iss.pid (fun p => { p with halt := U.raised p iss faults }) fun _ => rfl, hq]
    rfl
  have someP (fid : Nat) (h : (t.fibre? iss.pid fid).isSome) : ∃ P, t.plot? iss.pid = some P ∧ (P.fibre? fid).isSome := by
    unfold State.fibre? at h
    cases hp : t.plot? iss.pid with
    | none => simp [hp] at h
    | some P => exact ⟨P, rfl, by simpa [hp] using h⟩
  have notL (q : Nat × Act × Flg × List Nat) (hq : q ∈ effs) (hn : q.2.1.stays = false) : q.1 ∉ l := by
    intro h
    rw [← hl] at h
    obtain ⟨x, hx, ex⟩ := List.mem_map.1 h
    obtain ⟨hx, hm⟩ := List.mem_filter.1 hx
    have : x = q := List.inj_on_of_nodup_map nd hx hq ex
    rw [this, hn] at hm
    exact Bool.noConfusion hm
  have written (q : Nat × Act × Flg × List Nat) (hq : q ∈ effs) (g : Fibre) (hg : q.2.1.fibre? iss w.size (t.cycOf iss.core) = some g)
      (P : Plot) (hP : (P.fibre? q.1).isSome) : (F P).fibre? q.1 = some g := by
    have e := hact q hq g hg
    rw [fibreF, ← e, setFibres_at gs P g ndg (by rw [← hgs]; exact List.mem_filterMap.2 ⟨q, hq, hg⟩)]
    rw [e]
    exact hP
  have look (P : Plot) (q : Plot) (fid : Nat) (h : (U.modPlot iss.pid fun p => { p with halt := U.raised p iss faults }).plot? iss.pid = some q) :
      State.fibre? { U.modPlot iss.pid (fun p => { p with halt := U.raised p iss faults }) with issuing := none, nextIssue := U.nextIssue + 1 } iss.pid fid = q.fibre? fid := by
    show ((U.modPlot iss.pid fun p => { p with halt := U.raised p iss faults }).plot? iss.pid).bind (fun p => p.fibre? fid) = _
    rw [h]
    rfl
  have next : U.nextIssue = S.nextIssue := (congrArg State.nextIssue R.rest : _)
  refine ⟨⟨?_, rfl, congrArg (· + 1) next, ?_, ?_, ?_⟩, ?_, ?_, ?_, ?_⟩
  · exact congrArg (fun x : State => { x with issuing := none, nextIssue := 0 }) R.rest
  · intro j
    exact R.cores j
  · intro j hj
    refine (State.plot?_modPlot_ne U iss.pid j (fun p => { p with halt := U.raised p iss faults }) (fun _ => rfl) hj).trans ?_
    refine (R.others j hj).trans ?_
    rw [hSp]
    exact State.plot?_modPlot_ne t iss.pid j F hpid hj
  · intro P hP
    rw [hSp] at hP
    obtain ⟨q, hq, hq', e, o, a⟩ := atEnd P hP
    refine ⟨{ q with halt := U.raised q iss faults }, hq', ?_, ?_, ?_, ?_⟩
    · have h := congrArg (fun x : Plot => { x with rcnt := 0, progress := [], flgPend := 0, halt := none }) e
      have h' := congrArg (fun x : Plot => { x with halt := none }) (hF P).1
      exact Eq.trans h h'
    · have h := congrArg Plot.flgPend e
      exact Eq.trans h (hF P).2.1
    · rw [hUp]
      have hh := congrArg Plot.halt e
      have hh' := congrArg Plot.halt (hF P).1
      have hc := congrArg Plot.core e
      have hc' := congrArg Plot.core (hF P).1
      replace hh : q.halt = P.halt := Eq.trans hh hh'
      replace hc : q.core = P.core := Eq.trans hc hc'
      unfold State.raised
      rw [hh, hc]
    · intro fid hfid
      have notIn : ∀ g ∈ gs, g.fid ≠ fid := by
        intro g hg e
        obtain ⟨q, hq, e'⟩ := List.mem_map.1 (gmem g hg)
        exact hfid (by rw [← e, ← e']; exact mem q hq)
      show q.fibre? fid = _
      rw [o fid, fibreF, setFibres_other _ _ _ notIn]
      intro h
      rw [← hl] at h
      obtain ⟨q', hq', rfl⟩ := List.mem_map.1 h
      exact hfid (mem q' (List.mem_filter.1 hq').1)
  · intro q hq hsome g hg
    obtain ⟨P, hP, hPf⟩ := someP _ hsome
    obtain ⟨q', hq', hqe, e, o, a⟩ := atEnd P hP
    obtain ⟨f', hf', e''⟩ := a q.1 g (written q hq g hg P hPf)
    exact ⟨f', by rw [look P _ _ hqe]; exact hf', e''⟩
  · intro q hq f hf r hr
    obtain ⟨P, hP, hPf⟩ := someP q.1 (by rw [hf]; rfl)
    have hfP : P.fibre? q.1 = some f := by simpa [State.fibre?, hP] using hf
    obtain ⟨q', hq', hqe, e, o, a⟩ := atEnd P hP
    have notIn : ∀ g ∈ gs, g.fid ≠ q.1 := by
      intro g hg e
      rw [← hgs] at hg
      obtain ⟨x, hx, ex⟩ := List.mem_filterMap.1 hg
      have : x = q := List.inj_on_of_nodup_map nd hx hq ((hact x hx g ex).symm.trans e)
      rw [this, hr] at ex
      simp [Act.fibre?] at ex
    obtain ⟨f', hf', e''⟩ := a q.1 f (by rw [fibreF, setFibres_other _ _ _ notIn]; exact hfP)
    exact ⟨f', by rw [look P _ _ hqe]; exact hf', e''⟩
  · intro q hq hsome f k hk
    obtain ⟨P, hP, hPf⟩ := someP _ hsome
    obtain ⟨q', hq', hqe, e, o, a⟩ := atEnd P hP
    rw [look P _ _ hqe]
    show q'.fibre? q.1 = _
    rw [o q.1 (notL q hq (by rw [hk]; rfl))]
    exact written q hq _ (by rw [hk]; rfl) P hPf
  · intro q hq hsome f k hk
    obtain ⟨P, hP, hPf⟩ := someP _ hsome
    obtain ⟨q', hq', hqe, e, o, a⟩ := atEnd P hP
    rw [look P _ _ hqe]
    show q'.fibre? q.1 = _
    rw [o q.1 (notL q hq (by rw [hk]; rfl))]
    exact written q hq _ (by rw [hk]; rfl) P hPf

end Sys2Proof.Machine
end

