-- ==== Sys2Proof/Laws/Memory.lean ====
section
/-! SUPPORT. The canonical form of memory is kept by every operation on it; a byte reads as what was written to it (R216, R468). -/

namespace Sys2Proof.Machine

theorem Memory.wf_cons (c : Host.Cell) (m : List Host.Cell) :
    Memory.wf (c :: m) = true ↔ c.2 ≠ 0 ∧ (∀ d ∈ m, c.1 < d.1) ∧ Memory.wf m = true := by
  induction m generalizing c with
  | nil => simp [Memory.wf]
  | cons d m ih =>
    have e : Memory.wf (c :: d :: m) = (c.2 != 0 && decide (c.1 < d.1) && Memory.wf (d :: m)) := rfl
    rw [e]
    simp only [Bool.and_eq_true, bne_iff_ne, ne_eq, decide_eq_true_eq, List.mem_cons, forall_eq_or_imp]
    constructor
    · rintro ⟨⟨h0, h1⟩, h2⟩
      exact ⟨h0, ⟨h1, fun x hx => Nat.lt_trans h1 (((ih d).1 h2).2.1 x hx)⟩, h2⟩
    · rintro ⟨h0, ⟨h1, -⟩, h2⟩
      exact ⟨⟨h0, h1⟩, h2⟩

/-- The canonical form: addresses strictly rising, no byte zero. -/
theorem Memory.wf_iff (m : List Host.Cell) : Memory.wf m = true ↔ m.Pairwise (fun c d => c.1 < d.1) ∧ ∀ c ∈ m, c.2 ≠ 0 := by
  induction m with
  | nil => simp [Memory.wf]
  | cons c m ih =>
    rw [Memory.wf_cons, ih, List.pairwise_cons]
    simp only [List.mem_cons, forall_eq_or_imp]
    tauto

theorem Memory.wf_filter (m : List Host.Cell) (p : Host.Cell → Bool) (h : Memory.wf m = true) : Memory.wf (m.filter p) = true := by
  rw [Memory.wf_iff] at *
  exact ⟨h.1.filter p, fun c hc => h.2 c (List.mem_filter.1 hc).1⟩

theorem Memory.mem_erase {m : List Host.Cell} {a : Nat} {c : Host.Cell} (h : c ∈ Memory.erase m a) : c ∈ m := by
  induction m with
  | nil => simp [Memory.erase] at h
  | cons d m ih =>
    unfold Memory.erase at h
    split at h
    · exact List.mem_cons_of_mem _ h
    · rcases List.mem_cons.1 h with rfl | h
      · simp
      · exact List.mem_cons_of_mem _ (ih h)

theorem Memory.wf_erase (m : List Host.Cell) (a : Nat) (h : Memory.wf m = true) : Memory.wf (Memory.erase m a) = true := by
  induction m with
  | nil => rfl
  | cons d m ih =>
    rw [Memory.wf_cons] at h
    unfold Memory.erase
    split
    · exact h.2.2
    · rw [Memory.wf_cons]
      exact ⟨h.1, fun c hc => h.2.1 c (Memory.mem_erase hc), ih h.2.2⟩

theorem Memory.mem_put {m : List Host.Cell} {a : Nat} {v : Byte} {c : Host.Cell} (h : c ∈ Memory.put m a v) : c = (a, v) ∨ c ∈ m := by
  induction m with
  | nil => simpa [Memory.put] using h
  | cons d m ih =>
    unfold Memory.put at h
    split at h
    · simpa using h
    · split at h
      · rcases List.mem_cons.1 h with rfl | h
        · exact .inl rfl
        · exact .inr (List.mem_cons_of_mem _ h)
      · rcases List.mem_cons.1 h with rfl | h
        · simp
        · exact (ih h).imp id (List.mem_cons_of_mem _)

theorem Memory.wf_put (m : List Host.Cell) (a : Nat) (v : Byte) (hv : v ≠ 0) (h : Memory.wf m = true) :
    Memory.wf (Memory.put m a v) = true := by
  induction m with
  | nil => simpa [Memory.put, Memory.wf] using hv
  | cons d m ih =>
    rw [Memory.wf_cons] at h
    unfold Memory.put
    split
    · rename_i lt
      rw [Memory.wf_cons, Memory.wf_cons]
      refine ⟨hv, fun c hc => ?_, h⟩
      rcases List.mem_cons.1 hc with rfl | hc
      · exact lt
      · exact Nat.lt_trans lt (h.2.1 c hc)
    · split
      · rename_i e
        rw [Memory.wf_cons]
        exact ⟨hv, fun c hc => by rw [← e]; exact h.2.1 c hc, h.2.2⟩
      · rw [Memory.wf_cons]
        refine ⟨h.1, fun c hc => ?_, ih h.2.2⟩
        rcases Memory.mem_put hc with rfl | hc
        · dsimp only
          omega
        · exact h.2.1 c hc

/-- A write of one byte keeps the canonical form. -/
theorem Memory.wf_write (m : List Host.Cell) (a : Nat) (v : Byte) (h : Memory.wf m = true) : Memory.wf (Memory.write m a v) = true := by
  unfold Memory.write
  split
  · exact Memory.wf_erase m a h
  · exact Memory.wf_put m a v ‹_› h

/-- A write of bytes keeps the canonical form. -/
theorem Memory.wf_writeN (m : List Host.Cell) (a : Nat) (bs : List Byte) (h : Memory.wf m = true) :
    Memory.wf (Memory.writeN m a bs) = true := by
  induction bs generalizing m a with
  | nil => exact h
  | cons b bs ih => exact ih _ _ (Memory.wf_write m a b h)

/-- A list of writes keeps the canonical form. -/
theorem Memory.wf_writes {α : Type} (l : List α) (at_ : α → Nat) (v : α → Byte) (m : List Host.Cell) (h : Memory.wf m = true) :
    Memory.wf (l.foldl (fun m q => Memory.write m (at_ q) (v q)) m) = true := by
  induction l generalizing m with
  | nil => exact h
  | cons q l ih => exact ih _ (Memory.wf_write _ _ _ h)

/-! ### Reading after writing -/

/-- An address below every listed one reads as 0. -/
theorem Memory.read_below (m : List Host.Cell) (a : Nat) (h : ∀ c ∈ m, a < c.1) : Memory.read m a = 0 := by
  induction m with
  | nil => rfl
  | cons c m ih =>
    unfold Memory.read
    rw [if_neg (Nat.ne_of_gt (h c (by simp)))]
    exact ih fun d hd => h d (by simp [hd])

theorem Memory.read_put (m : List Host.Cell) (a b : Nat) (v : Byte) :
    Memory.read (Memory.put m a v) b = if b = a then v else Memory.read m b := by
  have head (l : List Host.Cell) : Memory.read ((a, v) :: l) b = if b = a then v else Memory.read l b := by
    by_cases e : b = a
    · simp [Memory.read, e]
    · simp [Memory.read, e, Ne.symm e]
  induction m with
  | nil => exact head []
  | cons c m ih =>
    unfold Memory.put
    split
    · exact head _
    · split
      · rename_i e
        rw [head]
        by_cases eb : b = a
        · simp [eb]
        · simp [Memory.read, eb, e, Ne.symm eb]
      · rename_i e
        simp only [Memory.read, ih]
        by_cases eb : b = a
        · simp [eb, e]
        · simp [eb]

theorem Memory.read_erase (m : List Host.Cell) (a b : Nat) (h : Memory.wf m = true) :
    Memory.read (Memory.erase m a) b = if b = a then 0 else Memory.read m b := by
  induction m with
  | nil => simp [Memory.erase, Memory.read]
  | cons c m ih =>
    rw [Memory.wf_cons] at h
    unfold Memory.erase
    split
    · rename_i e
      by_cases eb : b = a
      · subst eb
        rw [if_pos rfl]
        exact Memory.read_below m b fun d hd => by rw [← e]; exact h.2.1 d hd
      · have : c.1 ≠ b := fun x => eb (by rw [← x, e])
        simp [Memory.read, eb, this]
    · simp only [Memory.read, ih h.2.2]
      by_cases eb : b = a
      · subst eb
        simp_all
      · simp [eb]

/-- A byte reads as the last one written there, and every other byte as before. -/
theorem Memory.read_write (m : List Host.Cell) (a b : Nat) (v : Byte) (h : Memory.wf m = true) :
    Memory.read (Memory.write m a v) b = if b = a then v else Memory.read m b := by
  unfold Memory.write
  split
  · rename_i e
    rw [Memory.read_erase m a b h, e]
  · exact Memory.read_put m a b v

/-- A write of bytes leaves every byte outside them as it was. -/
theorem Memory.read_writeN_other (m : List Host.Cell) (a b : Nat) (bs : List Byte) (h : Memory.wf m = true)
    (hb : b < a ∨ a + bs.length ≤ b) : Memory.read (Memory.writeN m a bs) b = Memory.read m b := by
  induction bs generalizing m a with
  | nil => rfl
  | cons v bs ih =>
    rw [List.length_cons] at hb
    unfold Memory.writeN
    rw [ih _ _ (Memory.wf_write m a v h) (by omega), Memory.read_write m a b v h, if_neg (by omega)]

/-- The bytes written read back. -/
theorem Memory.readN_writeN (m : List Host.Cell) (a : Nat) (bs : List Byte) (h : Memory.wf m = true) :
    Memory.readN (Memory.writeN m a bs) a bs.length = bs := by
  induction bs generalizing m a with
  | nil => rfl
  | cons v bs ih =>
    have w := Memory.wf_write m a v h
    simp only [List.length_cons, Memory.readN, Memory.writeN, ih _ _ w]
    rw [Memory.read_writeN_other _ _ _ _ w (by omega), Memory.read_write m a a v h, if_pos rfl]

/-! ### The state's memory -/

theorem pairwise_insertNat (l : List Nat) (n : Nat) (h : l.Pairwise (· < ·)) :
    (insertNat l n).Pairwise (· < ·) ∧ ∀ x, x ∈ insertNat l n ↔ x = n ∨ x ∈ l := by
  induction l with
  | nil => simp [insertNat]
  | cons y l ih =>
    rw [List.pairwise_cons] at h
    obtain ⟨hp, hm⟩ := ih h.2
    unfold insertNat
    split
    · rename_i lt
      refine ⟨List.pairwise_cons.2 ⟨fun x hx => ?_, List.pairwise_cons.2 h⟩, fun x => by simp⟩
      rcases List.mem_cons.1 hx with rfl | hx
      · exact lt
      · exact Nat.lt_trans lt (h.1 x hx)
    · split
      · rename_i e
        subst e
        exact ⟨List.pairwise_cons.2 h, fun x => by simp⟩
      · refine ⟨List.pairwise_cons.2 ⟨fun x hx => ?_, hp⟩, fun x => ?_⟩
        · rcases (hm x).1 hx with rfl | hx
          · omega
          · exact h.1 x hx
        · simp only [List.mem_cons, hm]
          tauto

theorem pairwise_withAll (gs l : List Nat) (h : l.Pairwise (· < ·)) : (withAll l gs).Pairwise (· < ·) := by
  unfold withAll
  induction gs generalizing l with
  | nil => exact h
  | cons g gs ih => exact ih _ (pairwise_insertNat l g h).1

theorem pairwise_without (gs l : List Nat) (h : l.Pairwise (· < ·)) : (without l gs).Pairwise (· < ·) :=
  h.filter _

end Sys2Proof.Machine
end

