-- ==== Sys2Proof/Laws/PerInstr.lean ====
section
/-! SUPPORT. The encoding of every instruction word reads back, one lemma for each constructor (R57 to R71). -/

open Sys2Proof

/-- The bytes of an instruction word, before any bytes, decode to it and its size, and leave the bytes after it. The steps that are no
instruction words have no bytes. -/
def Sys2Proof.Laws.Encoding.Statement (i : Instr) : Prop :=
  i.isWord = true → ∀ rest, decode (encodeBytes i ++ rest) = .ok (i, (encodeBytes i).length, rest)

theorem Sys2Proof.Laws.Encoding.iadd (x : FmtR) : Sys2Proof.Laws.Encoding.Statement (.iadd x) := fun _ rest =>
  decode_word 0 x.p 0x01 x.pack _ rest (by decide) (by decide) (decodeWord_lane _ _ _ 0x01 _ rfl (by decide) <| by
    have h := FmtR.unpack_pack x
    generalize x.pack = r at h
    show Except.map _ (FmtR.unpack x.p r) = _
    rw [h]
    rfl)

theorem Sys2Proof.Laws.Encoding.isub (x : FmtR) : Sys2Proof.Laws.Encoding.Statement (.isub x) := fun _ rest =>
  decode_word 0 x.p 0x02 x.pack _ rest (by decide) (by decide) (decodeWord_lane _ _ _ 0x02 _ rfl (by decide) <| by
    have h := FmtR.unpack_pack x
    generalize x.pack = r at h
    show Except.map _ (FmtR.unpack x.p r) = _
    rw [h]
    rfl)

theorem Sys2Proof.Laws.Encoding.imul (x : FmtR) : Sys2Proof.Laws.Encoding.Statement (.imul x) := fun _ rest =>
  decode_word 0 x.p 0x03 x.pack _ rest (by decide) (by decide) (decodeWord_lane _ _ _ 0x03 _ rfl (by decide) <| by
    have h := FmtR.unpack_pack x
    generalize x.pack = r at h
    show Except.map _ (FmtR.unpack x.p r) = _
    rw [h]
    rfl)

theorem Sys2Proof.Laws.Encoding.imulh (x : FmtR) : Sys2Proof.Laws.Encoding.Statement (.imulh x) := fun _ rest =>
  decode_word 0 x.p 0x04 x.pack _ rest (by decide) (by decide) (decodeWord_lane _ _ _ 0x04 _ rfl (by decide) <| by
    have h := FmtR.unpack_pack x
    generalize x.pack = r at h
    show Except.map _ (FmtR.unpack x.p r) = _
    rw [h]
    rfl)

theorem Sys2Proof.Laws.Encoding.imulhU (x : FmtR) : Sys2Proof.Laws.Encoding.Statement (.imulhU x) := fun _ rest =>
  decode_word 0 x.p 0x05 x.pack _ rest (by decide) (by decide) (decodeWord_lane _ _ _ 0x05 _ rfl (by decide) <| by
    have h := FmtR.unpack_pack x
    generalize x.pack = r at h
    show Except.map _ (FmtR.unpack x.p r) = _
    rw [h]
    rfl)

theorem Sys2Proof.Laws.Encoding.imad (x : FmtR) : Sys2Proof.Laws.Encoding.Statement (.imad x) := fun _ rest =>
  decode_word 0 x.p 0x06 x.pack _ rest (by decide) (by decide) (decodeWord_lane _ _ _ 0x06 _ rfl (by decide) <| by
    have h := FmtR.unpack_pack x
    generalize x.pack = r at h
    show Except.map _ (FmtR.unpack x.p r) = _
    rw [h]
    rfl)

theorem Sys2Proof.Laws.Encoding.idiv (x : FmtR) : Sys2Proof.Laws.Encoding.Statement (.idiv x) := fun _ rest =>
  decode_word 0 x.p 0x07 x.pack _ rest (by decide) (by decide) (decodeWord_lane _ _ _ 0x07 _ rfl (by decide) <| by
    have h := FmtR.unpack_pack x
    generalize x.pack = r at h
    show Except.map _ (FmtR.unpack x.p r) = _
    rw [h]
    rfl)

theorem Sys2Proof.Laws.Encoding.idivU (x : FmtR) : Sys2Proof.Laws.Encoding.Statement (.idivU x) := fun _ rest =>
  decode_word 0 x.p 0x08 x.pack _ rest (by decide) (by decide) (decodeWord_lane _ _ _ 0x08 _ rfl (by decide) <| by
    have h := FmtR.unpack_pack x
    generalize x.pack = r at h
    show Except.map _ (FmtR.unpack x.p r) = _
    rw [h]
    rfl)

theorem Sys2Proof.Laws.Encoding.imin (x : FmtR) : Sys2Proof.Laws.Encoding.Statement (.imin x) := fun _ rest =>
  decode_word 0 x.p 0x09 x.pack _ rest (by decide) (by decide) (decodeWord_lane _ _ _ 0x09 _ rfl (by decide) <| by
    have h := FmtR.unpack_pack x
    generalize x.pack = r at h
    show Except.map _ (FmtR.unpack x.p r) = _
    rw [h]
    rfl)

theorem Sys2Proof.Laws.Encoding.iminU (x : FmtR) : Sys2Proof.Laws.Encoding.Statement (.iminU x) := fun _ rest =>
  decode_word 0 x.p 0x0A x.pack _ rest (by decide) (by decide) (decodeWord_lane _ _ _ 0x0A _ rfl (by decide) <| by
    have h := FmtR.unpack_pack x
    generalize x.pack = r at h
    show Except.map _ (FmtR.unpack x.p r) = _
    rw [h]
    rfl)

theorem Sys2Proof.Laws.Encoding.imax (x : FmtR) : Sys2Proof.Laws.Encoding.Statement (.imax x) := fun _ rest =>
  decode_word 0 x.p 0x0B x.pack _ rest (by decide) (by decide) (decodeWord_lane _ _ _ 0x0B _ rfl (by decide) <| by
    have h := FmtR.unpack_pack x
    generalize x.pack = r at h
    show Except.map _ (FmtR.unpack x.p r) = _
    rw [h]
    rfl)

theorem Sys2Proof.Laws.Encoding.imaxU (x : FmtR) : Sys2Proof.Laws.Encoding.Statement (.imaxU x) := fun _ rest =>
  decode_word 0 x.p 0x0C x.pack _ rest (by decide) (by decide) (decodeWord_lane _ _ _ 0x0C _ rfl (by decide) <| by
    have h := FmtR.unpack_pack x
    generalize x.pack = r at h
    show Except.map _ (FmtR.unpack x.p r) = _
    rw [h]
    rfl)

theorem Sys2Proof.Laws.Encoding.iaddc (x : FmtR) : Sys2Proof.Laws.Encoding.Statement (.iaddc x) := fun _ rest =>
  decode_word 0 x.p 0x0D x.pack _ rest (by decide) (by decide) (decodeWord_lane _ _ _ 0x0D _ rfl (by decide) <| by
    have h := FmtR.unpack_pack x
    generalize x.pack = r at h
    show Except.map _ (FmtR.unpack x.p r) = _
    rw [h]
    rfl)

theorem Sys2Proof.Laws.Encoding.isubb (x : FmtR) : Sys2Proof.Laws.Encoding.Statement (.isubb x) := fun _ rest =>
  decode_word 0 x.p 0x0E x.pack _ rest (by decide) (by decide) (decodeWord_lane _ _ _ 0x0E _ rfl (by decide) <| by
    have h := FmtR.unpack_pack x
    generalize x.pack = r at h
    show Except.map _ (FmtR.unpack x.p r) = _
    rw [h]
    rfl)

theorem Sys2Proof.Laws.Encoding.and (x : FmtR) : Sys2Proof.Laws.Encoding.Statement (.and x) := fun _ rest =>
  decode_word 0 x.p 0x0F x.pack _ rest (by decide) (by decide) (decodeWord_lane _ _ _ 0x0F _ rfl (by decide) <| by
    have h := FmtR.unpack_pack x
    generalize x.pack = r at h
    show Except.map _ (FmtR.unpack x.p r) = _
    rw [h]
    rfl)

theorem Sys2Proof.Laws.Encoding.or (x : FmtR) : Sys2Proof.Laws.Encoding.Statement (.or x) := fun _ rest =>
  decode_word 0 x.p 0x10 x.pack _ rest (by decide) (by decide) (decodeWord_lane _ _ _ 0x10 _ rfl (by decide) <| by
    have h := FmtR.unpack_pack x
    generalize x.pack = r at h
    show Except.map _ (FmtR.unpack x.p r) = _
    rw [h]
    rfl)

theorem Sys2Proof.Laws.Encoding.xor (x : FmtR) : Sys2Proof.Laws.Encoding.Statement (.xor x) := fun _ rest =>
  decode_word 0 x.p 0x11 x.pack _ rest (by decide) (by decide) (decodeWord_lane _ _ _ 0x11 _ rfl (by decide) <| by
    have h := FmtR.unpack_pack x
    generalize x.pack = r at h
    show Except.map _ (FmtR.unpack x.p r) = _
    rw [h]
    rfl)

theorem Sys2Proof.Laws.Encoding.shl (x : FmtR) : Sys2Proof.Laws.Encoding.Statement (.shl x) := fun _ rest =>
  decode_word 0 x.p 0x12 x.pack _ rest (by decide) (by decide) (decodeWord_lane _ _ _ 0x12 _ rfl (by decide) <| by
    have h := FmtR.unpack_pack x
    generalize x.pack = r at h
    show Except.map _ (FmtR.unpack x.p r) = _
    rw [h]
    rfl)

theorem Sys2Proof.Laws.Encoding.shr (x : FmtR) : Sys2Proof.Laws.Encoding.Statement (.shr x) := fun _ rest =>
  decode_word 0 x.p 0x13 x.pack _ rest (by decide) (by decide) (decodeWord_lane _ _ _ 0x13 _ rfl (by decide) <| by
    have h := FmtR.unpack_pack x
    generalize x.pack = r at h
    show Except.map _ (FmtR.unpack x.p r) = _
    rw [h]
    rfl)

theorem Sys2Proof.Laws.Encoding.sar (x : FmtR) : Sys2Proof.Laws.Encoding.Statement (.sar x) := fun _ rest =>
  decode_word 0 x.p 0x14 x.pack _ rest (by decide) (by decide) (decodeWord_lane _ _ _ 0x14 _ rfl (by decide) <| by
    have h := FmtR.unpack_pack x
    generalize x.pack = r at h
    show Except.map _ (FmtR.unpack x.p r) = _
    rw [h]
    rfl)

theorem Sys2Proof.Laws.Encoding.rol (x : FmtR) : Sys2Proof.Laws.Encoding.Statement (.rol x) := fun _ rest =>
  decode_word 0 x.p 0x15 x.pack _ rest (by decide) (by decide) (decodeWord_lane _ _ _ 0x15 _ rfl (by decide) <| by
    have h := FmtR.unpack_pack x
    generalize x.pack = r at h
    show Except.map _ (FmtR.unpack x.p r) = _
    rw [h]
    rfl)

theorem Sys2Proof.Laws.Encoding.bfx (x : FmtR) : Sys2Proof.Laws.Encoding.Statement (.bfx x) := fun _ rest =>
  decode_word 0 x.p 0x16 x.pack _ rest (by decide) (by decide) (decodeWord_lane _ _ _ 0x16 _ rfl (by decide) <| by
    have h := FmtR.unpack_pack x
    generalize x.pack = r at h
    show Except.map _ (FmtR.unpack x.p r) = _
    rw [h]
    rfl)

theorem Sys2Proof.Laws.Encoding.bfi (x : FmtR) : Sys2Proof.Laws.Encoding.Statement (.bfi x) := fun _ rest =>
  decode_word 0 x.p 0x17 x.pack _ rest (by decide) (by decide) (decodeWord_lane _ _ _ 0x17 _ rfl (by decide) <| by
    have h := FmtR.unpack_pack x
    generalize x.pack = r at h
    show Except.map _ (FmtR.unpack x.p r) = _
    rw [h]
    rfl)

theorem Sys2Proof.Laws.Encoding.isel (x : FmtR) : Sys2Proof.Laws.Encoding.Statement (.isel x) := fun _ rest =>
  decode_word 0 x.p 0x18 x.pack _ rest (by decide) (by decide) (decodeWord_lane _ _ _ 0x18 _ rfl (by decide) <| by
    have h := FmtR.unpack_pack x
    generalize x.pack = r at h
    show Except.map _ (FmtR.unpack x.p r) = _
    rw [h]
    rfl)

theorem Sys2Proof.Laws.Encoding.icmp (x : FmtC) : Sys2Proof.Laws.Encoding.Statement (.icmp x) := fun _ rest =>
  decode_word 0 x.p 0x19 x.pack _ rest (by decide) (by decide) (decodeWord_lane _ _ _ 0x19 _ rfl (by decide) <| by
    have h := FmtC.unpack_pack x
    generalize x.pack = r at h
    show Except.map _ (FmtC.unpack x.p r) = _
    rw [h]
    rfl)

theorem Sys2Proof.Laws.Encoding.iaddLi (x : FmtR) : Sys2Proof.Laws.Encoding.Statement (.iaddLi x) := fun _ rest =>
  decode_word 0 x.p 0x1A x.pack _ rest (by decide) (by decide) (decodeWord_lane _ _ _ 0x1A _ rfl (by decide) <| by
    have h := FmtR.unpack_pack x
    generalize x.pack = r at h
    show Except.map _ (FmtR.unpack x.p r) = _
    rw [h]
    rfl)

theorem Sys2Proof.Laws.Encoding.andLi (x : FmtR) : Sys2Proof.Laws.Encoding.Statement (.andLi x) := fun _ rest =>
  decode_word 0 x.p 0x1B x.pack _ rest (by decide) (by decide) (decodeWord_lane _ _ _ 0x1B _ rfl (by decide) <| by
    have h := FmtR.unpack_pack x
    generalize x.pack = r at h
    show Except.map _ (FmtR.unpack x.p r) = _
    rw [h]
    rfl)

theorem Sys2Proof.Laws.Encoding.orLi (x : FmtR) : Sys2Proof.Laws.Encoding.Statement (.orLi x) := fun _ rest =>
  decode_word 0 x.p 0x1C x.pack _ rest (by decide) (by decide) (decodeWord_lane _ _ _ 0x1C _ rfl (by decide) <| by
    have h := FmtR.unpack_pack x
    generalize x.pack = r at h
    show Except.map _ (FmtR.unpack x.p r) = _
    rw [h]
    rfl)

theorem Sys2Proof.Laws.Encoding.xorLi (x : FmtR) : Sys2Proof.Laws.Encoding.Statement (.xorLi x) := fun _ rest =>
  decode_word 0 x.p 0x1D x.pack _ rest (by decide) (by decide) (decodeWord_lane _ _ _ 0x1D _ rfl (by decide) <| by
    have h := FmtR.unpack_pack x
    generalize x.pack = r at h
    show Except.map _ (FmtR.unpack x.p r) = _
    rw [h]
    rfl)

theorem Sys2Proof.Laws.Encoding.shlLi (x : FmtR) : Sys2Proof.Laws.Encoding.Statement (.shlLi x) := fun _ rest =>
  decode_word 0 x.p 0x1E x.pack _ rest (by decide) (by decide) (decodeWord_lane _ _ _ 0x1E _ rfl (by decide) <| by
    have h := FmtR.unpack_pack x
    generalize x.pack = r at h
    show Except.map _ (FmtR.unpack x.p r) = _
    rw [h]
    rfl)

theorem Sys2Proof.Laws.Encoding.shrLi (x : FmtR) : Sys2Proof.Laws.Encoding.Statement (.shrLi x) := fun _ rest =>
  decode_word 0 x.p 0x1F x.pack _ rest (by decide) (by decide) (decodeWord_lane _ _ _ 0x1F _ rfl (by decide) <| by
    have h := FmtR.unpack_pack x
    generalize x.pack = r at h
    show Except.map _ (FmtR.unpack x.p r) = _
    rw [h]
    rfl)

theorem Sys2Proof.Laws.Encoding.sarLi (x : FmtR) : Sys2Proof.Laws.Encoding.Statement (.sarLi x) := fun _ rest =>
  decode_word 0 x.p 0x20 x.pack _ rest (by decide) (by decide) (decodeWord_lane _ _ _ 0x20 _ rfl (by decide) <| by
    have h := FmtR.unpack_pack x
    generalize x.pack = r at h
    show Except.map _ (FmtR.unpack x.p r) = _
    rw [h]
    rfl)

theorem Sys2Proof.Laws.Encoding.icmpLi (x : FmtC) : Sys2Proof.Laws.Encoding.Statement (.icmpLi x) := fun _ rest =>
  decode_word 0 x.p 0x21 x.pack _ rest (by decide) (by decide) (decodeWord_lane _ _ _ 0x21 _ rfl (by decide) <| by
    have h := FmtC.unpack_pack x
    generalize x.pack = r at h
    show Except.map _ (FmtC.unpack x.p r) = _
    rw [h]
    rfl)

theorem Sys2Proof.Laws.Encoding.iabs (x : FmtU) : Sys2Proof.Laws.Encoding.Statement (.iabs x) := fun _ rest =>
  decode_word 0 x.p 0x22 (x.pack 0) _ rest (by decide) (by decide) (decodeWord_lane _ _ _ 0x22 _ rfl (by decide) <| by
    have h := FmtU.unpack_pack x 0
    have e := FmtU.fn_pack x 0
    generalize (x.pack 0) = r at h e
    show decodeGroup22 x.p r = _
    unfold decodeGroup22
    rw [e]
    show Except.map _ (FmtU.unpack x.p r) = _
    rw [h]
    rfl)

theorem Sys2Proof.Laws.Encoding.ineg (x : FmtU) : Sys2Proof.Laws.Encoding.Statement (.ineg x) := fun _ rest =>
  decode_word 0 x.p 0x22 (x.pack 1) _ rest (by decide) (by decide) (decodeWord_lane _ _ _ 0x22 _ rfl (by decide) <| by
    have h := FmtU.unpack_pack x 1
    have e := FmtU.fn_pack x 1
    generalize (x.pack 1) = r at h e
    show decodeGroup22 x.p r = _
    unfold decodeGroup22
    rw [e]
    show Except.map _ (FmtU.unpack x.p r) = _
    rw [h]
    rfl)

theorem Sys2Proof.Laws.Encoding.not (x : FmtU) : Sys2Proof.Laws.Encoding.Statement (.not x) := fun _ rest =>
  decode_word 0 x.p 0x22 (x.pack 2) _ rest (by decide) (by decide) (decodeWord_lane _ _ _ 0x22 _ rfl (by decide) <| by
    have h := FmtU.unpack_pack x 2
    have e := FmtU.fn_pack x 2
    generalize (x.pack 2) = r at h e
    show decodeGroup22 x.p r = _
    unfold decodeGroup22
    rw [e]
    show Except.map _ (FmtU.unpack x.p r) = _
    rw [h]
    rfl)

theorem Sys2Proof.Laws.Encoding.popc (x : FmtU) : Sys2Proof.Laws.Encoding.Statement (.popc x) := fun _ rest =>
  decode_word 0 x.p 0x22 (x.pack 3) _ rest (by decide) (by decide) (decodeWord_lane _ _ _ 0x22 _ rfl (by decide) <| by
    have h := FmtU.unpack_pack x 3
    have e := FmtU.fn_pack x 3
    generalize (x.pack 3) = r at h e
    show decodeGroup22 x.p r = _
    unfold decodeGroup22
    rw [e]
    show Except.map _ (FmtU.unpack x.p r) = _
    rw [h]
    rfl)

theorem Sys2Proof.Laws.Encoding.clz (x : FmtU) : Sys2Proof.Laws.Encoding.Statement (.clz x) := fun _ rest =>
  decode_word 0 x.p 0x22 (x.pack 4) _ rest (by decide) (by decide) (decodeWord_lane _ _ _ 0x22 _ rfl (by decide) <| by
    have h := FmtU.unpack_pack x 4
    have e := FmtU.fn_pack x 4
    generalize (x.pack 4) = r at h e
    show decodeGroup22 x.p r = _
    unfold decodeGroup22
    rw [e]
    show Except.map _ (FmtU.unpack x.p r) = _
    rw [h]
    rfl)

theorem Sys2Proof.Laws.Encoding.brev (x : FmtU) : Sys2Proof.Laws.Encoding.Statement (.brev x) := fun _ rest =>
  decode_word 0 x.p 0x22 (x.pack 5) _ rest (by decide) (by decide) (decodeWord_lane _ _ _ 0x22 _ rfl (by decide) <| by
    have h := FmtU.unpack_pack x 5
    have e := FmtU.fn_pack x 5
    generalize (x.pack 5) = r at h e
    show decodeGroup22 x.p r = _
    unfold decodeGroup22
    rw [e]
    show Except.map _ (FmtU.unpack x.p r) = _
    rw [h]
    rfl)

theorem Sys2Proof.Laws.Encoding.mov (x : FmtU) : Sys2Proof.Laws.Encoding.Statement (.mov x) := fun _ rest =>
  decode_word 0 x.p 0x22 (x.pack 6) _ rest (by decide) (by decide) (decodeWord_lane _ _ _ 0x22 _ rfl (by decide) <| by
    have h := FmtU.unpack_pack x 6
    have e := FmtU.fn_pack x 6
    generalize (x.pack 6) = r at h e
    show decodeGroup22 x.p r = _
    unfold decodeGroup22
    rw [e]
    show Except.map _ (FmtU.unpack x.p r) = _
    rw [h]
    rfl)

theorem Sys2Proof.Laws.Encoding.movi (x : FmtW17) : Sys2Proof.Laws.Encoding.Statement (.movi x) := fun _ rest =>
  decode_word 0 x.p 0x23 x.pack _ rest (by decide) (by decide) (decodeWord_lane _ _ _ 0x23 _ rfl (by decide) <| by
    have h := FmtW17.unpack_pack x
    generalize x.pack = r at h
    show Except.map _ (FmtW17.unpack x.p r) = _
    rw [h]
    rfl)

theorem Sys2Proof.Laws.Encoding.pand (x : FmtP30) : Sys2Proof.Laws.Encoding.Statement (.pand x) := fun _ rest =>
  decode_word 0 none 0x24 (x.pack 0) _ rest (by decide) (by decide) (decodeWord_lane _ _ _ 0x24 _ rfl (by decide) <| by
    have h := FmtP30.unpack_pack x 0
    have e := FmtP30.fn_pack x 0
    generalize (x.pack 0) = r at h e
    show decodeGroup24 none r = _
    unfold decodeGroup24
    rw [e]
    show Except.map _ (FmtP30.unpack r) = _
    rw [h]
    rfl)

theorem Sys2Proof.Laws.Encoding.por (x : FmtP30) : Sys2Proof.Laws.Encoding.Statement (.por x) := fun _ rest =>
  decode_word 0 none 0x24 (x.pack 1) _ rest (by decide) (by decide) (decodeWord_lane _ _ _ 0x24 _ rfl (by decide) <| by
    have h := FmtP30.unpack_pack x 1
    have e := FmtP30.fn_pack x 1
    generalize (x.pack 1) = r at h e
    show decodeGroup24 none r = _
    unfold decodeGroup24
    rw [e]
    show Except.map _ (FmtP30.unpack r) = _
    rw [h]
    rfl)

theorem Sys2Proof.Laws.Encoding.pxor (x : FmtP30) : Sys2Proof.Laws.Encoding.Statement (.pxor x) := fun _ rest =>
  decode_word 0 none 0x24 (x.pack 2) _ rest (by decide) (by decide) (decodeWord_lane _ _ _ 0x24 _ rfl (by decide) <| by
    have h := FmtP30.unpack_pack x 2
    have e := FmtP30.fn_pack x 2
    generalize (x.pack 2) = r at h e
    show decodeGroup24 none r = _
    unfold decodeGroup24
    rw [e]
    show Except.map _ (FmtP30.unpack r) = _
    rw [h]
    rfl)

theorem Sys2Proof.Laws.Encoding.pnot (x : FmtP20) : Sys2Proof.Laws.Encoding.Statement (.pnot x) := fun _ rest =>
  decode_word 0 none 0x24 (x.pack 3) _ rest (by decide) (by decide) (decodeWord_lane _ _ _ 0x24 _ rfl (by decide) <| by
    have h := FmtP20.unpack_pack x 3
    have e := FmtP20.fn_pack x 3
    generalize (x.pack 3) = r at h e
    show decodeGroup24 none r = _
    unfold decodeGroup24
    rw [e]
    show Except.map _ (FmtP20.unpack r) = _
    rw [h]
    rfl)

theorem Sys2Proof.Laws.Encoding.p2v (x : FmtD1) : Sys2Proof.Laws.Encoding.Statement (.p2v x) := fun _ rest =>
  decode_word 0 x.p 0x25 (x.pack 0) _ rest (by decide) (by decide) (decodeWord_lane _ _ _ 0x25 _ rfl (by decide) <| by
    have h := FmtD1.unpack_pack x 0
    have e := FmtD1.fn_pack x 0
    generalize (x.pack 0) = r at h e
    show decodeGroup25 x.p r = _
    unfold decodeGroup25
    rw [e]
    show Except.map _ (FmtD1.unpack x.p r) = _
    rw [h]
    rfl)

theorem Sys2Proof.Laws.Encoding.v2p (x : FmtA1) : Sys2Proof.Laws.Encoding.Statement (.v2p x) := fun _ rest =>
  decode_word 0 x.p 0x25 (x.pack 1) _ rest (by decide) (by decide) (decodeWord_lane _ _ _ 0x25 _ rfl (by decide) <| by
    have h := FmtA1.unpack_pack x 1
    have e := FmtA1.fn_pack x 1
    generalize (x.pack 1) = r at h e
    show decodeGroup25 x.p r = _
    unfold decodeGroup25
    rw [e]
    show Except.map _ (FmtA1.unpack x.p r) = _
    rw [h]
    rfl)

theorem Sys2Proof.Laws.Encoding.bara (x : FmtR) : Sys2Proof.Laws.Encoding.Statement (.bara x) := fun _ rest =>
  decode_word 0 x.p 0x26 x.pack _ rest (by decide) (by decide) (decodeWord_lane _ _ _ 0x26 _ rfl (by decide) <| by
    have h := FmtR.unpack_pack x
    generalize x.pack = r at h
    show Except.map _ (FmtR.unpack x.p r) = _
    rw [h]
    rfl)

theorem Sys2Proof.Laws.Encoding.barw (x : FmtRW) : Sys2Proof.Laws.Encoding.Statement (.barw x) := fun _ rest =>
  decode_word 0 x.p 0x27 x.pack _ rest (by decide) (by decide) (decodeWord_lane _ _ _ 0x27 _ rfl (by decide) <| by
    have h := FmtRW.unpack_pack x
    generalize x.pack = r at h
    show Except.map _ (FmtRW.unpack x.p r) = _
    rw [h]
    rfl)

theorem Sys2Proof.Laws.Encoding.bart (x : FmtR) : Sys2Proof.Laws.Encoding.Statement (.bart x) := fun _ rest =>
  decode_word 0 x.p 0x28 x.pack _ rest (by decide) (by decide) (decodeWord_lane _ _ _ 0x28 _ rfl (by decide) <| by
    have h := FmtR.unpack_pack x
    generalize x.pack = r at h
    show Except.map _ (FmtR.unpack x.p r) = _
    rw [h]
    rfl)

theorem Sys2Proof.Laws.Encoding.cnarrow (x : FmtCN) : Sys2Proof.Laws.Encoding.Statement (.cnarrow x) := fun _ rest =>
  decode_word 0 x.p 0x29 x.pack _ rest (by decide) (by decide) (decodeWord_lane _ _ _ 0x29 _ rfl (by decide) <| by
    have h := FmtCN.unpack_pack x
    generalize x.pack = r at h
    show Except.map _ (FmtCN.unpack x.p r) = _
    rw [h]
    rfl)

theorem Sys2Proof.Laws.Encoding.cright (x : FmtCN) : Sys2Proof.Laws.Encoding.Statement (.cright x) := fun _ rest =>
  decode_word 0 x.p 0x2A x.pack _ rest (by decide) (by decide) (decodeWord_lane _ _ _ 0x2A _ rfl (by decide) <| by
    have h := FmtCN.unpack_pack x
    generalize x.pack = r at h
    show Except.map _ (FmtCN.unpack x.p r) = _
    rw [h]
    rfl)

theorem Sys2Proof.Laws.Encoding.cmov (x : FmtCM) : Sys2Proof.Laws.Encoding.Statement (.cmov x) := fun _ rest =>
  decode_word 0 x.p 0x2B x.pack _ rest (by decide) (by decide) (decodeWord_lane _ _ _ 0x2B _ rfl (by decide) <| by
    have h := FmtCM.unpack_pack x
    generalize x.pack = r at h
    show Except.map _ (FmtCM.unpack x.p r) = _
    rw [h]
    rfl)

theorem Sys2Proof.Laws.Encoding.cbase (x : FmtCQ) : Sys2Proof.Laws.Encoding.Statement (.cbase x) := fun _ rest =>
  decode_word 0 x.p 0x2C (x.pack 0) _ rest (by decide) (by decide) (decodeWord_lane _ _ _ 0x2C _ rfl (by decide) <| by
    have h := FmtCQ.unpack_pack x 0
    have e := FmtCQ.fn_pack x 0
    generalize (x.pack 0) = r at h e
    show decodeGroup2C x.p r = _
    unfold decodeGroup2C
    rw [e]
    show Except.map _ (FmtCQ.unpack x.p r) = _
    rw [h]
    rfl)

theorem Sys2Proof.Laws.Encoding.clen (x : FmtCQ) : Sys2Proof.Laws.Encoding.Statement (.clen x) := fun _ rest =>
  decode_word 0 x.p 0x2C (x.pack 1) _ rest (by decide) (by decide) (decodeWord_lane _ _ _ 0x2C _ rfl (by decide) <| by
    have h := FmtCQ.unpack_pack x 1
    have e := FmtCQ.fn_pack x 1
    generalize (x.pack 1) = r at h e
    show decodeGroup2C x.p r = _
    unfold decodeGroup2C
    rw [e]
    show Except.map _ (FmtCQ.unpack x.p r) = _
    rw [h]
    rfl)

theorem Sys2Proof.Laws.Encoding.cvalid (x : FmtCQ) : Sys2Proof.Laws.Encoding.Statement (.cvalid x) := fun _ rest =>
  decode_word 0 x.p 0x2C (x.pack 2) _ rest (by decide) (by decide) (decodeWord_lane _ _ _ 0x2C _ rfl (by decide) <| by
    have h := FmtCQ.unpack_pack x 2
    have e := FmtCQ.fn_pack x 2
    generalize (x.pack 2) = r at h e
    show decodeGroup2C x.p r = _
    unfold decodeGroup2C
    rw [e]
    show Except.map _ (FmtCQ.unpack x.p r) = _
    rw [h]
    rfl)

theorem Sys2Proof.Laws.Encoding.mfsr (x : FmtMF) : Sys2Proof.Laws.Encoding.Statement (.mfsr x) := fun _ rest =>
  decode_word 0 x.p 0x2D x.pack _ rest (by decide) (by decide) (decodeWord_lane _ _ _ 0x2D _ rfl (by decide) <| by
    have h := FmtMF.unpack_pack x
    generalize x.pack = r at h
    show Except.map _ (FmtMF.unpack x.p r) = _
    rw [h]
    rfl)

theorem Sys2Proof.Laws.Encoding.mtsr (x : FmtMT) : Sys2Proof.Laws.Encoding.Statement (.mtsr x) := fun _ rest =>
  decode_word 0 x.p 0x2E x.pack _ rest (by decide) (by decide) (decodeWord_lane _ _ _ 0x2E _ rfl (by decide) <| by
    have h := FmtMT.unpack_pack x
    generalize x.pack = r at h
    show Except.map _ (FmtMT.unpack x.p r) = _
    rw [h]
    rfl)

theorem Sys2Proof.Laws.Encoding.eret (x : FmtE1) : Sys2Proof.Laws.Encoding.Statement (.eret x) := fun _ rest =>
  decode_word 0 x.p 0x2F (x.pack 0) _ rest (by decide) (by decide) (decodeWord_lane _ _ _ 0x2F _ rfl (by decide) <| by
    have h := FmtE1.unpack_pack x 0
    have e := FmtE1.fn_pack x 0
    generalize (x.pack 0) = r at h e
    show decodeGroup2F x.p r = _
    unfold decodeGroup2F
    rw [e]
    show Except.map _ (FmtE1.unpack x.p r) = _
    rw [h]
    rfl)

theorem Sys2Proof.Laws.Encoding.halt (x : FmtN) : Sys2Proof.Laws.Encoding.Statement (.halt x) := by
  have d : ∀ r, FmtN.unpack x.p r = .ok x → r.extractLsb' 0 7 = (1 : BitVec 7) → decodeLane x.p 0x2F r = .ok (.halt x) := by
    intro r h e
    show decodeGroup2F x.p r = _
    unfold decodeGroup2F
    rw [e]
    show Except.map _ (FmtN.unpack x.p r) = _
    rw [h]
    rfl
  intro _ rest
  have w := decodeWord_lane x.p 0x2F (x.pack 1) 0x2F _ rfl (by decide) (d _ (FmtN.unpack_pack x 1) (FmtN.fn_pack x 1))
  unfold encodeBytes encode
  exact decode_word 0 x.p 0x2F (x.pack 1) _ rest (by decide) (by decide) w

theorem Sys2Proof.Laws.Encoding.dbgb (x : FmtN) : Sys2Proof.Laws.Encoding.Statement (.dbgb x) := by
  have d : ∀ r, FmtN.unpack x.p r = .ok x → r.extractLsb' 0 7 = (2 : BitVec 7) → decodeLane x.p 0x2F r = .ok (.dbgb x) := by
    intro r h e
    show decodeGroup2F x.p r = _
    unfold decodeGroup2F
    rw [e]
    show Except.map _ (FmtN.unpack x.p r) = _
    rw [h]
    rfl
  intro _ rest
  have w := decodeWord_lane x.p 0x2F (x.pack 2) 0x2F _ rfl (by decide) (d _ (FmtN.unpack_pack x 2) (FmtN.fn_pack x 2))
  unfold encodeBytes encode
  exact decode_word 0 x.p 0x2F (x.pack 2) _ rest (by decide) (by decide) w

theorem Sys2Proof.Laws.Encoding.fadd (x : FmtR) : Sys2Proof.Laws.Encoding.Statement (.fadd x) := fun _ rest =>
  decode_word 0 x.p 0x30 x.pack _ rest (by decide) (by decide) (decodeWord_lane _ _ _ 0x30 _ rfl (by decide) <| by
    have h := FmtR.unpack_pack x
    generalize x.pack = r at h
    show Except.map _ (FmtR.unpack x.p r) = _
    rw [h]
    rfl)

theorem Sys2Proof.Laws.Encoding.fsub (x : FmtR) : Sys2Proof.Laws.Encoding.Statement (.fsub x) := fun _ rest =>
  decode_word 0 x.p 0x31 x.pack _ rest (by decide) (by decide) (decodeWord_lane _ _ _ 0x31 _ rfl (by decide) <| by
    have h := FmtR.unpack_pack x
    generalize x.pack = r at h
    show Except.map _ (FmtR.unpack x.p r) = _
    rw [h]
    rfl)

theorem Sys2Proof.Laws.Encoding.fmul (x : FmtR) : Sys2Proof.Laws.Encoding.Statement (.fmul x) := fun _ rest =>
  decode_word 0 x.p 0x32 x.pack _ rest (by decide) (by decide) (decodeWord_lane _ _ _ 0x32 _ rfl (by decide) <| by
    have h := FmtR.unpack_pack x
    generalize x.pack = r at h
    show Except.map _ (FmtR.unpack x.p r) = _
    rw [h]
    rfl)

theorem Sys2Proof.Laws.Encoding.ffma (x : FmtR) : Sys2Proof.Laws.Encoding.Statement (.ffma x) := fun _ rest =>
  decode_word 0 x.p 0x33 x.pack _ rest (by decide) (by decide) (decodeWord_lane _ _ _ 0x33 _ rfl (by decide) <| by
    have h := FmtR.unpack_pack x
    generalize x.pack = r at h
    show Except.map _ (FmtR.unpack x.p r) = _
    rw [h]
    rfl)

theorem Sys2Proof.Laws.Encoding.fmin (x : FmtR) : Sys2Proof.Laws.Encoding.Statement (.fmin x) := fun _ rest =>
  decode_word 0 x.p 0x34 x.pack _ rest (by decide) (by decide) (decodeWord_lane _ _ _ 0x34 _ rfl (by decide) <| by
    have h := FmtR.unpack_pack x
    generalize x.pack = r at h
    show Except.map _ (FmtR.unpack x.p r) = _
    rw [h]
    rfl)

theorem Sys2Proof.Laws.Encoding.fmax (x : FmtR) : Sys2Proof.Laws.Encoding.Statement (.fmax x) := fun _ rest =>
  decode_word 0 x.p 0x35 x.pack _ rest (by decide) (by decide) (decodeWord_lane _ _ _ 0x35 _ rfl (by decide) <| by
    have h := FmtR.unpack_pack x
    generalize x.pack = r at h
    show Except.map _ (FmtR.unpack x.p r) = _
    rw [h]
    rfl)

theorem Sys2Proof.Laws.Encoding.fcmp (x : FmtC0) : Sys2Proof.Laws.Encoding.Statement (.fcmp x) := fun _ rest =>
  decode_word 0 none 0x36 x.pack _ rest (by decide) (by decide) (decodeWord_lane _ _ _ 0x36 _ rfl (by decide) <| by
    have h := FmtC0.unpack_pack x
    generalize x.pack = r at h
    show Except.map _ (FmtC0.unpack r) = _
    rw [h]
    rfl)

theorem Sys2Proof.Laws.Encoding.dot4 (x : FmtR) : Sys2Proof.Laws.Encoding.Statement (.dot4 x) := fun _ rest =>
  decode_word 0 x.p 0x37 x.pack _ rest (by decide) (by decide) (decodeWord_lane _ _ _ 0x37 _ rfl (by decide) <| by
    have h := FmtR.unpack_pack x
    generalize x.pack = r at h
    show Except.map _ (FmtR.unpack x.p r) = _
    rw [h]
    rfl)

theorem Sys2Proof.Laws.Encoding.fdot2 (x : FmtR) : Sys2Proof.Laws.Encoding.Statement (.fdot2 x) := fun _ rest =>
  decode_word 0 x.p 0x38 x.pack _ rest (by decide) (by decide) (decodeWord_lane _ _ _ 0x38 _ rfl (by decide) <| by
    have h := FmtR.unpack_pack x
    generalize x.pack = r at h
    show Except.map _ (FmtR.unpack x.p r) = _
    rw [h]
    rfl)

theorem Sys2Proof.Laws.Encoding.qdotE2m1 (x : FmtRP) : Sys2Proof.Laws.Encoding.Statement (.qdotE2m1 x) := fun _ rest =>
  decode_word 0 (some x.p) 0x39 x.pack _ rest (by decide) (by decide) (decodeWord_lane _ _ _ 0x39 _ rfl (by decide) <| by
    have h := FmtRP.unpack_pack x
    generalize x.pack = r at h
    show Except.map _ (FmtRP.unpack x.p r) = _
    rw [h]
    rfl)

theorem Sys2Proof.Laws.Encoding.qdotInt4 (x : FmtRP) : Sys2Proof.Laws.Encoding.Statement (.qdotInt4 x) := fun _ rest =>
  decode_word 0 (some x.p) 0x3A x.pack _ rest (by decide) (by decide) (decodeWord_lane _ _ _ 0x3A _ rfl (by decide) <| by
    have h := FmtRP.unpack_pack x
    generalize x.pack = r at h
    show Except.map _ (FmtRP.unpack x.p r) = _
    rw [h]
    rfl)

theorem Sys2Proof.Laws.Encoding.qdotUint4 (x : FmtRP) : Sys2Proof.Laws.Encoding.Statement (.qdotUint4 x) := fun _ rest =>
  decode_word 0 (some x.p) 0x3B x.pack _ rest (by decide) (by decide) (decodeWord_lane _ _ _ 0x3B _ rfl (by decide) <| by
    have h := FmtRP.unpack_pack x
    generalize x.pack = r at h
    show Except.map _ (FmtRP.unpack x.p r) = _
    rw [h]
    rfl)

theorem Sys2Proof.Laws.Encoding.fpack (x : FmtR) : Sys2Proof.Laws.Encoding.Statement (.fpack x) := fun _ rest =>
  decode_word 0 x.p 0x3C x.pack _ rest (by decide) (by decide) (decodeWord_lane _ _ _ 0x3C _ rfl (by decide) <| by
    have h := FmtR.unpack_pack x
    generalize x.pack = r at h
    show Except.map _ (FmtR.unpack x.p r) = _
    rw [h]
    rfl)

theorem Sys2Proof.Laws.Encoding.funpk (x : FmtFE) : Sys2Proof.Laws.Encoding.Statement (.funpk x) := fun _ rest =>
  decode_word 0 x.p 0x3D x.pack _ rest (by decide) (by decide) (decodeWord_lane _ _ _ 0x3D _ rfl (by decide) <| by
    have h := FmtFE.unpack_pack x
    generalize x.pack = r at h
    show Except.map _ (FmtFE.unpack x.p r) = _
    rw [h]
    rfl)

theorem Sys2Proof.Laws.Encoding.fcvt (x : FmtFE) : Sys2Proof.Laws.Encoding.Statement (.fcvt x) := fun _ rest =>
  decode_word 0 x.p 0x3E x.pack _ rest (by decide) (by decide) (decodeWord_lane _ _ _ 0x3E _ rfl (by decide) <| by
    have h := FmtFE.unpack_pack x
    generalize x.pack = r at h
    show Except.map _ (FmtFE.unpack x.p r) = _
    rw [h]
    rfl)

theorem Sys2Proof.Laws.Encoding.fclass (x : FmtU) : Sys2Proof.Laws.Encoding.Statement (.fclass x) := fun _ rest =>
  decode_word 0 x.p 0x3F (x.pack 0) _ rest (by decide) (by decide) (decodeWord_lane _ _ _ 0x3F _ rfl (by decide) <| by
    have h := FmtU.unpack_pack x 0
    have e := FmtU.fn_pack x 0
    generalize (x.pack 0) = r at h e
    show decodeGroup3F x.p r = _
    unfold decodeGroup3F
    rw [e]
    show Except.map _ (FmtU.unpack x.p r) = _
    rw [h]
    rfl)

theorem Sys2Proof.Laws.Encoding.frnd (x : FmtU) : Sys2Proof.Laws.Encoding.Statement (.frnd x) := fun _ rest =>
  decode_word 0 x.p 0x3F (x.pack 1) _ rest (by decide) (by decide) (decodeWord_lane _ _ _ 0x3F _ rfl (by decide) <| by
    have h := FmtU.unpack_pack x 1
    have e := FmtU.fn_pack x 1
    generalize (x.pack 1) = r at h e
    show decodeGroup3F x.p r = _
    unfold decodeGroup3F
    rw [e]
    show Except.map _ (FmtU.unpack x.p r) = _
    rw [h]
    rfl)

theorem Sys2Proof.Laws.Encoding.exp2 (x : FmtU0) : Sys2Proof.Laws.Encoding.Statement (.exp2 x) := fun _ rest =>
  decode_word 0 none 0x40 (x.pack 0) _ rest (by decide) (by decide) (decodeWord_lane _ _ _ 0x40 _ rfl (by decide) <| by
    have h := FmtU0.unpack_pack x 0
    have e := FmtU0.fn_pack x 0
    generalize (x.pack 0) = r at h e
    show decodeGroup40 none r = _
    unfold decodeGroup40
    rw [e]
    show Except.map _ (FmtU0.unpack r) = _
    rw [h]
    rfl)

theorem Sys2Proof.Laws.Encoding.log2 (x : FmtU0) : Sys2Proof.Laws.Encoding.Statement (.log2 x) := fun _ rest =>
  decode_word 0 none 0x40 (x.pack 1) _ rest (by decide) (by decide) (decodeWord_lane _ _ _ 0x40 _ rfl (by decide) <| by
    have h := FmtU0.unpack_pack x 1
    have e := FmtU0.fn_pack x 1
    generalize (x.pack 1) = r at h e
    show decodeGroup40 none r = _
    unfold decodeGroup40
    rw [e]
    show Except.map _ (FmtU0.unpack r) = _
    rw [h]
    rfl)

theorem Sys2Proof.Laws.Encoding.rcp (x : FmtU0) : Sys2Proof.Laws.Encoding.Statement (.rcp x) := fun _ rest =>
  decode_word 0 none 0x40 (x.pack 2) _ rest (by decide) (by decide) (decodeWord_lane _ _ _ 0x40 _ rfl (by decide) <| by
    have h := FmtU0.unpack_pack x 2
    have e := FmtU0.fn_pack x 2
    generalize (x.pack 2) = r at h e
    show decodeGroup40 none r = _
    unfold decodeGroup40
    rw [e]
    show Except.map _ (FmtU0.unpack r) = _
    rw [h]
    rfl)

theorem Sys2Proof.Laws.Encoding.rsq (x : FmtU0) : Sys2Proof.Laws.Encoding.Statement (.rsq x) := fun _ rest =>
  decode_word 0 none 0x40 (x.pack 3) _ rest (by decide) (by decide) (decodeWord_lane _ _ _ 0x40 _ rfl (by decide) <| by
    have h := FmtU0.unpack_pack x 3
    have e := FmtU0.fn_pack x 3
    generalize (x.pack 3) = r at h e
    show decodeGroup40 none r = _
    unfold decodeGroup40
    rw [e]
    show Except.map _ (FmtU0.unpack r) = _
    rw [h]
    rfl)

theorem Sys2Proof.Laws.Encoding.sqrt (x : FmtU0) : Sys2Proof.Laws.Encoding.Statement (.sqrt x) := fun _ rest =>
  decode_word 0 none 0x40 (x.pack 4) _ rest (by decide) (by decide) (decodeWord_lane _ _ _ 0x40 _ rfl (by decide) <| by
    have h := FmtU0.unpack_pack x 4
    have e := FmtU0.fn_pack x 4
    generalize (x.pack 4) = r at h e
    show decodeGroup40 none r = _
    unfold decodeGroup40
    rw [e]
    show Except.map _ (FmtU0.unpack r) = _
    rw [h]
    rfl)

theorem Sys2Proof.Laws.Encoding.sin (x : FmtU0) : Sys2Proof.Laws.Encoding.Statement (.sin x) := fun _ rest =>
  decode_word 0 none 0x40 (x.pack 5) _ rest (by decide) (by decide) (decodeWord_lane _ _ _ 0x40 _ rfl (by decide) <| by
    have h := FmtU0.unpack_pack x 5
    have e := FmtU0.fn_pack x 5
    generalize (x.pack 5) = r at h e
    show decodeGroup40 none r = _
    unfold decodeGroup40
    rw [e]
    show Except.map _ (FmtU0.unpack r) = _
    rw [h]
    rfl)

theorem Sys2Proof.Laws.Encoding.cos (x : FmtU0) : Sys2Proof.Laws.Encoding.Statement (.cos x) := fun _ rest =>
  decode_word 0 none 0x40 (x.pack 6) _ rest (by decide) (by decide) (decodeWord_lane _ _ _ 0x40 _ rfl (by decide) <| by
    have h := FmtU0.unpack_pack x 6
    have e := FmtU0.fn_pack x 6
    generalize (x.pack 6) = r at h e
    show decodeGroup40 none r = _
    unfold decodeGroup40
    rw [e]
    show Except.map _ (FmtU0.unpack r) = _
    rw [h]
    rfl)

theorem Sys2Proof.Laws.Encoding.tanh (x : FmtU0) : Sys2Proof.Laws.Encoding.Statement (.tanh x) := fun _ rest =>
  decode_word 0 none 0x40 (x.pack 7) _ rest (by decide) (by decide) (decodeWord_lane _ _ _ 0x40 _ rfl (by decide) <| by
    have h := FmtU0.unpack_pack x 7
    have e := FmtU0.fn_pack x 7
    generalize (x.pack 7) = r at h e
    show decodeGroup40 none r = _
    unfold decodeGroup40
    rw [e]
    show Except.map _ (FmtU0.unpack r) = _
    rw [h]
    rfl)

theorem Sys2Proof.Laws.Encoding.sigm (x : FmtU0) : Sys2Proof.Laws.Encoding.Statement (.sigm x) := fun _ rest =>
  decode_word 0 none 0x40 (x.pack 8) _ rest (by decide) (by decide) (decodeWord_lane _ _ _ 0x40 _ rfl (by decide) <| by
    have h := FmtU0.unpack_pack x 8
    have e := FmtU0.fn_pack x 8
    generalize (x.pack 8) = r at h e
    show decodeGroup40 none r = _
    unfold decodeGroup40
    rw [e]
    show Except.map _ (FmtU0.unpack r) = _
    rw [h]
    rfl)

theorem Sys2Proof.Laws.Encoding.shflIdx (x : FmtR0) : Sys2Proof.Laws.Encoding.Statement (.shflIdx x) := fun _ rest =>
  decode_word 0 none 0x41 x.pack _ rest (by decide) (by decide) (decodeWord_lane _ _ _ 0x41 _ rfl (by decide) <| by
    have h := FmtR0.unpack_pack x
    generalize x.pack = r at h
    show Except.map _ (FmtR0.unpack r) = _
    rw [h]
    rfl)

theorem Sys2Proof.Laws.Encoding.shflUp (x : FmtR0) : Sys2Proof.Laws.Encoding.Statement (.shflUp x) := fun _ rest =>
  decode_word 0 none 0x42 x.pack _ rest (by decide) (by decide) (decodeWord_lane _ _ _ 0x42 _ rfl (by decide) <| by
    have h := FmtR0.unpack_pack x
    generalize x.pack = r at h
    show Except.map _ (FmtR0.unpack r) = _
    rw [h]
    rfl)

theorem Sys2Proof.Laws.Encoding.shflDn (x : FmtR0) : Sys2Proof.Laws.Encoding.Statement (.shflDn x) := fun _ rest =>
  decode_word 0 none 0x43 x.pack _ rest (by decide) (by decide) (decodeWord_lane _ _ _ 0x43 _ rfl (by decide) <| by
    have h := FmtR0.unpack_pack x
    generalize x.pack = r at h
    show Except.map _ (FmtR0.unpack r) = _
    rw [h]
    rfl)

theorem Sys2Proof.Laws.Encoding.shflXor (x : FmtR0) : Sys2Proof.Laws.Encoding.Statement (.shflXor x) := fun _ rest =>
  decode_word 0 none 0x44 x.pack _ rest (by decide) (by decide) (decodeWord_lane _ _ _ 0x44 _ rfl (by decide) <| by
    have h := FmtR0.unpack_pack x
    generalize x.pack = r at h
    show Except.map _ (FmtR0.unpack r) = _
    rw [h]
    rfl)

theorem Sys2Proof.Laws.Encoding.voteAny (x : FmtV0) : Sys2Proof.Laws.Encoding.Statement (.voteAny x) := fun _ rest =>
  decode_word 0 none 0x45 (x.pack 0) _ rest (by decide) (by decide) (decodeWord_lane _ _ _ 0x45 _ rfl (by decide) <| by
    have h := FmtV0.unpack_pack x 0
    have e := FmtV0.fn_pack x 0
    generalize (x.pack 0) = r at h e
    show decodeGroup45 none r = _
    unfold decodeGroup45
    rw [e]
    show Except.map _ (FmtV0.unpack r) = _
    rw [h]
    rfl)

theorem Sys2Proof.Laws.Encoding.voteAll (x : FmtV0) : Sys2Proof.Laws.Encoding.Statement (.voteAll x) := fun _ rest =>
  decode_word 0 none 0x45 (x.pack 1) _ rest (by decide) (by decide) (decodeWord_lane _ _ _ 0x45 _ rfl (by decide) <| by
    have h := FmtV0.unpack_pack x 1
    have e := FmtV0.fn_pack x 1
    generalize (x.pack 1) = r at h e
    show decodeGroup45 none r = _
    unfold decodeGroup45
    rw [e]
    show Except.map _ (FmtV0.unpack r) = _
    rw [h]
    rfl)

theorem Sys2Proof.Laws.Encoding.voteBal (x : FmtV0) : Sys2Proof.Laws.Encoding.Statement (.voteBal x) := fun _ rest =>
  decode_word 0 none 0x45 (x.pack 2) _ rest (by decide) (by decide) (decodeWord_lane _ _ _ 0x45 _ rfl (by decide) <| by
    have h := FmtV0.unpack_pack x 2
    have e := FmtV0.fn_pack x 2
    generalize (x.pack 2) = r at h e
    show decodeGroup45 none r = _
    unfold decodeGroup45
    rw [e]
    show Except.map _ (FmtV0.unpack r) = _
    rw [h]
    rfl)

theorem Sys2Proof.Laws.Encoding.lredAdd (x : FmtU0) : Sys2Proof.Laws.Encoding.Statement (.lredAdd x) := fun _ rest =>
  decode_word 0 none 0x46 (x.pack 0) _ rest (by decide) (by decide) (decodeWord_lane _ _ _ 0x46 _ rfl (by decide) <| by
    have h := FmtU0.unpack_pack x 0
    have e := FmtU0.fn_pack x 0
    generalize (x.pack 0) = r at h e
    show decodeGroup46 none r = _
    unfold decodeGroup46
    rw [e]
    show Except.map _ (FmtU0.unpack r) = _
    rw [h]
    rfl)

theorem Sys2Proof.Laws.Encoding.lredMin (x : FmtU0) : Sys2Proof.Laws.Encoding.Statement (.lredMin x) := fun _ rest =>
  decode_word 0 none 0x46 (x.pack 1) _ rest (by decide) (by decide) (decodeWord_lane _ _ _ 0x46 _ rfl (by decide) <| by
    have h := FmtU0.unpack_pack x 1
    have e := FmtU0.fn_pack x 1
    generalize (x.pack 1) = r at h e
    show decodeGroup46 none r = _
    unfold decodeGroup46
    rw [e]
    show Except.map _ (FmtU0.unpack r) = _
    rw [h]
    rfl)

theorem Sys2Proof.Laws.Encoding.lredMax (x : FmtU0) : Sys2Proof.Laws.Encoding.Statement (.lredMax x) := fun _ rest =>
  decode_word 0 none 0x46 (x.pack 2) _ rest (by decide) (by decide) (decodeWord_lane _ _ _ 0x46 _ rfl (by decide) <| by
    have h := FmtU0.unpack_pack x 2
    have e := FmtU0.fn_pack x 2
    generalize (x.pack 2) = r at h e
    show decodeGroup46 none r = _
    unfold decodeGroup46
    rw [e]
    show Except.map _ (FmtU0.unpack r) = _
    rw [h]
    rfl)

theorem Sys2Proof.Laws.Encoding.lredAnd (x : FmtU0) : Sys2Proof.Laws.Encoding.Statement (.lredAnd x) := fun _ rest =>
  decode_word 0 none 0x46 (x.pack 3) _ rest (by decide) (by decide) (decodeWord_lane _ _ _ 0x46 _ rfl (by decide) <| by
    have h := FmtU0.unpack_pack x 3
    have e := FmtU0.fn_pack x 3
    generalize (x.pack 3) = r at h e
    show decodeGroup46 none r = _
    unfold decodeGroup46
    rw [e]
    show Except.map _ (FmtU0.unpack r) = _
    rw [h]
    rfl)

theorem Sys2Proof.Laws.Encoding.lredOr (x : FmtU0) : Sys2Proof.Laws.Encoding.Statement (.lredOr x) := fun _ rest =>
  decode_word 0 none 0x46 (x.pack 4) _ rest (by decide) (by decide) (decodeWord_lane _ _ _ 0x46 _ rfl (by decide) <| by
    have h := FmtU0.unpack_pack x 4
    have e := FmtU0.fn_pack x 4
    generalize (x.pack 4) = r at h e
    show decodeGroup46 none r = _
    unfold decodeGroup46
    rw [e]
    show Except.map _ (FmtU0.unpack r) = _
    rw [h]
    rfl)

theorem Sys2Proof.Laws.Encoding.lredXor (x : FmtU0) : Sys2Proof.Laws.Encoding.Statement (.lredXor x) := fun _ rest =>
  decode_word 0 none 0x46 (x.pack 5) _ rest (by decide) (by decide) (decodeWord_lane _ _ _ 0x46 _ rfl (by decide) <| by
    have h := FmtU0.unpack_pack x 5
    have e := FmtU0.fn_pack x 5
    generalize (x.pack 5) = r at h e
    show decodeGroup46 none r = _
    unfold decodeGroup46
    rw [e]
    show Except.map _ (FmtU0.unpack r) = _
    rw [h]
    rfl)

theorem Sys2Proof.Laws.Encoding.lredMinU (x : FmtU0) : Sys2Proof.Laws.Encoding.Statement (.lredMinU x) := fun _ rest =>
  decode_word 0 none 0x46 (x.pack 6) _ rest (by decide) (by decide) (decodeWord_lane _ _ _ 0x46 _ rfl (by decide) <| by
    have h := FmtU0.unpack_pack x 6
    have e := FmtU0.fn_pack x 6
    generalize (x.pack 6) = r at h e
    show decodeGroup46 none r = _
    unfold decodeGroup46
    rw [e]
    show Except.map _ (FmtU0.unpack r) = _
    rw [h]
    rfl)

theorem Sys2Proof.Laws.Encoding.lredMaxU (x : FmtU0) : Sys2Proof.Laws.Encoding.Statement (.lredMaxU x) := fun _ rest =>
  decode_word 0 none 0x46 (x.pack 7) _ rest (by decide) (by decide) (decodeWord_lane _ _ _ 0x46 _ rfl (by decide) <| by
    have h := FmtU0.unpack_pack x 7
    have e := FmtU0.fn_pack x 7
    generalize (x.pack 7) = r at h e
    show decodeGroup46 none r = _
    unfold decodeGroup46
    rw [e]
    show Except.map _ (FmtU0.unpack r) = _
    rw [h]
    rfl)

theorem Sys2Proof.Laws.Encoding.matchLanes (x : FmtU0) : Sys2Proof.Laws.Encoding.Statement (.matchLanes x) := fun _ rest =>
  decode_word 0 none 0x47 (x.pack 0) _ rest (by decide) (by decide) (decodeWord_lane _ _ _ 0x47 _ rfl (by decide) <| by
    have h := FmtU0.unpack_pack x 0
    have e := FmtU0.fn_pack x 0
    generalize (x.pack 0) = r at h e
    show decodeGroup47 none r = _
    unfold decodeGroup47
    rw [e]
    show Except.map _ (FmtU0.unpack r) = _
    rw [h]
    rfl)

theorem Sys2Proof.Laws.Encoding.ld8 (x : FmtM) : Sys2Proof.Laws.Encoding.Statement (.ld8 x) := fun _ rest =>
  decode_word 0 x.p 0x48 x.pack _ rest (by decide) (by decide) (decodeWord_lane _ _ _ 0x48 _ rfl (by decide) <| by
    have h := FmtM.unpack_pack x
    generalize x.pack = r at h
    show Except.map _ (FmtM.unpack x.p r) = _
    rw [h]
    rfl)

theorem Sys2Proof.Laws.Encoding.ld16 (x : FmtM) : Sys2Proof.Laws.Encoding.Statement (.ld16 x) := fun _ rest =>
  decode_word 0 x.p 0x49 x.pack _ rest (by decide) (by decide) (decodeWord_lane _ _ _ 0x49 _ rfl (by decide) <| by
    have h := FmtM.unpack_pack x
    generalize x.pack = r at h
    show Except.map _ (FmtM.unpack x.p r) = _
    rw [h]
    rfl)

theorem Sys2Proof.Laws.Encoding.ld32 (x : FmtM) : Sys2Proof.Laws.Encoding.Statement (.ld32 x) := fun _ rest =>
  decode_word 0 x.p 0x4A x.pack _ rest (by decide) (by decide) (decodeWord_lane _ _ _ 0x4A _ rfl (by decide) <| by
    have h := FmtM.unpack_pack x
    generalize x.pack = r at h
    show Except.map _ (FmtM.unpack x.p r) = _
    rw [h]
    rfl)

theorem Sys2Proof.Laws.Encoding.ld64 (x : FmtM) : Sys2Proof.Laws.Encoding.Statement (.ld64 x) := fun _ rest =>
  decode_word 0 x.p 0x4B x.pack _ rest (by decide) (by decide) (decodeWord_lane _ _ _ 0x4B _ rfl (by decide) <| by
    have h := FmtM.unpack_pack x
    generalize x.pack = r at h
    show Except.map _ (FmtM.unpack x.p r) = _
    rw [h]
    rfl)

theorem Sys2Proof.Laws.Encoding.ld128 (x : FmtM) : Sys2Proof.Laws.Encoding.Statement (.ld128 x) := fun _ rest =>
  decode_word 0 x.p 0x4C x.pack _ rest (by decide) (by decide) (decodeWord_lane _ _ _ 0x4C _ rfl (by decide) <| by
    have h := FmtM.unpack_pack x
    generalize x.pack = r at h
    show Except.map _ (FmtM.unpack x.p r) = _
    rw [h]
    rfl)

theorem Sys2Proof.Laws.Encoding.ld8S (x : FmtM) : Sys2Proof.Laws.Encoding.Statement (.ld8S x) := fun _ rest =>
  decode_word 0 x.p 0x4D x.pack _ rest (by decide) (by decide) (decodeWord_lane _ _ _ 0x4D _ rfl (by decide) <| by
    have h := FmtM.unpack_pack x
    generalize x.pack = r at h
    show Except.map _ (FmtM.unpack x.p r) = _
    rw [h]
    rfl)

theorem Sys2Proof.Laws.Encoding.ld16S (x : FmtM) : Sys2Proof.Laws.Encoding.Statement (.ld16S x) := fun _ rest =>
  decode_word 0 x.p 0x4E x.pack _ rest (by decide) (by decide) (decodeWord_lane _ _ _ 0x4E _ rfl (by decide) <| by
    have h := FmtM.unpack_pack x
    generalize x.pack = r at h
    show Except.map _ (FmtM.unpack x.p r) = _
    rw [h]
    rfl)

theorem Sys2Proof.Laws.Encoding.st8 (x : FmtM) : Sys2Proof.Laws.Encoding.Statement (.st8 x) := fun _ rest =>
  decode_word 0 x.p 0x4F x.pack _ rest (by decide) (by decide) (decodeWord_lane _ _ _ 0x4F _ rfl (by decide) <| by
    have h := FmtM.unpack_pack x
    generalize x.pack = r at h
    show Except.map _ (FmtM.unpack x.p r) = _
    rw [h]
    rfl)

theorem Sys2Proof.Laws.Encoding.st16 (x : FmtM) : Sys2Proof.Laws.Encoding.Statement (.st16 x) := fun _ rest =>
  decode_word 0 x.p 0x50 x.pack _ rest (by decide) (by decide) (decodeWord_lane _ _ _ 0x50 _ rfl (by decide) <| by
    have h := FmtM.unpack_pack x
    generalize x.pack = r at h
    show Except.map _ (FmtM.unpack x.p r) = _
    rw [h]
    rfl)

theorem Sys2Proof.Laws.Encoding.st32 (x : FmtM) : Sys2Proof.Laws.Encoding.Statement (.st32 x) := fun _ rest =>
  decode_word 0 x.p 0x51 x.pack _ rest (by decide) (by decide) (decodeWord_lane _ _ _ 0x51 _ rfl (by decide) <| by
    have h := FmtM.unpack_pack x
    generalize x.pack = r at h
    show Except.map _ (FmtM.unpack x.p r) = _
    rw [h]
    rfl)

theorem Sys2Proof.Laws.Encoding.st64 (x : FmtM) : Sys2Proof.Laws.Encoding.Statement (.st64 x) := fun _ rest =>
  decode_word 0 x.p 0x52 x.pack _ rest (by decide) (by decide) (decodeWord_lane _ _ _ 0x52 _ rfl (by decide) <| by
    have h := FmtM.unpack_pack x
    generalize x.pack = r at h
    show Except.map _ (FmtM.unpack x.p r) = _
    rw [h]
    rfl)

theorem Sys2Proof.Laws.Encoding.st128 (x : FmtM) : Sys2Proof.Laws.Encoding.Statement (.st128 x) := fun _ rest =>
  decode_word 0 x.p 0x53 x.pack _ rest (by decide) (by decide) (decodeWord_lane _ _ _ 0x53 _ rfl (by decide) <| by
    have h := FmtM.unpack_pack x
    generalize x.pack = r at h
    show Except.map _ (FmtM.unpack x.p r) = _
    rw [h]
    rfl)

theorem Sys2Proof.Laws.Encoding.lds8 (x : FmtMS) : Sys2Proof.Laws.Encoding.Statement (.lds8 x) := fun _ rest =>
  decode_word 0 x.p 0x54 x.pack _ rest (by decide) (by decide) (decodeWord_lane _ _ _ 0x54 _ rfl (by decide) <| by
    have h := FmtMS.unpack_pack x
    generalize x.pack = r at h
    show Except.map _ (FmtMS.unpack x.p r) = _
    rw [h]
    rfl)

theorem Sys2Proof.Laws.Encoding.lds16 (x : FmtMS) : Sys2Proof.Laws.Encoding.Statement (.lds16 x) := fun _ rest =>
  decode_word 0 x.p 0x55 x.pack _ rest (by decide) (by decide) (decodeWord_lane _ _ _ 0x55 _ rfl (by decide) <| by
    have h := FmtMS.unpack_pack x
    generalize x.pack = r at h
    show Except.map _ (FmtMS.unpack x.p r) = _
    rw [h]
    rfl)

theorem Sys2Proof.Laws.Encoding.lds32 (x : FmtMS) : Sys2Proof.Laws.Encoding.Statement (.lds32 x) := fun _ rest =>
  decode_word 0 x.p 0x56 x.pack _ rest (by decide) (by decide) (decodeWord_lane _ _ _ 0x56 _ rfl (by decide) <| by
    have h := FmtMS.unpack_pack x
    generalize x.pack = r at h
    show Except.map _ (FmtMS.unpack x.p r) = _
    rw [h]
    rfl)

theorem Sys2Proof.Laws.Encoding.lds64 (x : FmtMS) : Sys2Proof.Laws.Encoding.Statement (.lds64 x) := fun _ rest =>
  decode_word 0 x.p 0x57 x.pack _ rest (by decide) (by decide) (decodeWord_lane _ _ _ 0x57 _ rfl (by decide) <| by
    have h := FmtMS.unpack_pack x
    generalize x.pack = r at h
    show Except.map _ (FmtMS.unpack x.p r) = _
    rw [h]
    rfl)

theorem Sys2Proof.Laws.Encoding.lds128 (x : FmtMS) : Sys2Proof.Laws.Encoding.Statement (.lds128 x) := fun _ rest =>
  decode_word 0 x.p 0x58 x.pack _ rest (by decide) (by decide) (decodeWord_lane _ _ _ 0x58 _ rfl (by decide) <| by
    have h := FmtMS.unpack_pack x
    generalize x.pack = r at h
    show Except.map _ (FmtMS.unpack x.p r) = _
    rw [h]
    rfl)

theorem Sys2Proof.Laws.Encoding.lds8S (x : FmtMS) : Sys2Proof.Laws.Encoding.Statement (.lds8S x) := fun _ rest =>
  decode_word 0 x.p 0x59 x.pack _ rest (by decide) (by decide) (decodeWord_lane _ _ _ 0x59 _ rfl (by decide) <| by
    have h := FmtMS.unpack_pack x
    generalize x.pack = r at h
    show Except.map _ (FmtMS.unpack x.p r) = _
    rw [h]
    rfl)

theorem Sys2Proof.Laws.Encoding.lds16S (x : FmtMS) : Sys2Proof.Laws.Encoding.Statement (.lds16S x) := fun _ rest =>
  decode_word 0 x.p 0x5A x.pack _ rest (by decide) (by decide) (decodeWord_lane _ _ _ 0x5A _ rfl (by decide) <| by
    have h := FmtMS.unpack_pack x
    generalize x.pack = r at h
    show Except.map _ (FmtMS.unpack x.p r) = _
    rw [h]
    rfl)

theorem Sys2Proof.Laws.Encoding.sts8 (x : FmtMS) : Sys2Proof.Laws.Encoding.Statement (.sts8 x) := fun _ rest =>
  decode_word 0 x.p 0x5B x.pack _ rest (by decide) (by decide) (decodeWord_lane _ _ _ 0x5B _ rfl (by decide) <| by
    have h := FmtMS.unpack_pack x
    generalize x.pack = r at h
    show Except.map _ (FmtMS.unpack x.p r) = _
    rw [h]
    rfl)

theorem Sys2Proof.Laws.Encoding.sts16 (x : FmtMS) : Sys2Proof.Laws.Encoding.Statement (.sts16 x) := fun _ rest =>
  decode_word 0 x.p 0x5C x.pack _ rest (by decide) (by decide) (decodeWord_lane _ _ _ 0x5C _ rfl (by decide) <| by
    have h := FmtMS.unpack_pack x
    generalize x.pack = r at h
    show Except.map _ (FmtMS.unpack x.p r) = _
    rw [h]
    rfl)

theorem Sys2Proof.Laws.Encoding.sts32 (x : FmtMS) : Sys2Proof.Laws.Encoding.Statement (.sts32 x) := fun _ rest =>
  decode_word 0 x.p 0x5D x.pack _ rest (by decide) (by decide) (decodeWord_lane _ _ _ 0x5D _ rfl (by decide) <| by
    have h := FmtMS.unpack_pack x
    generalize x.pack = r at h
    show Except.map _ (FmtMS.unpack x.p r) = _
    rw [h]
    rfl)

theorem Sys2Proof.Laws.Encoding.sts64 (x : FmtMS) : Sys2Proof.Laws.Encoding.Statement (.sts64 x) := fun _ rest =>
  decode_word 0 x.p 0x5E x.pack _ rest (by decide) (by decide) (decodeWord_lane _ _ _ 0x5E _ rfl (by decide) <| by
    have h := FmtMS.unpack_pack x
    generalize x.pack = r at h
    show Except.map _ (FmtMS.unpack x.p r) = _
    rw [h]
    rfl)

theorem Sys2Proof.Laws.Encoding.sts128 (x : FmtMS) : Sys2Proof.Laws.Encoding.Statement (.sts128 x) := fun _ rest =>
  decode_word 0 x.p 0x5F x.pack _ rest (by decide) (by decide) (decodeWord_lane _ _ _ 0x5F _ rfl (by decide) <| by
    have h := FmtMS.unpack_pack x
    generalize x.pack = r at h
    show Except.map _ (FmtMS.unpack x.p r) = _
    rw [h]
    rfl)

theorem Sys2Proof.Laws.Encoding.lda (x : FmtM) : Sys2Proof.Laws.Encoding.Statement (.lda x) := fun _ rest =>
  decode_word 0 x.p 0x60 x.pack _ rest (by decide) (by decide) (decodeWord_lane _ _ _ 0x60 _ rfl (by decide) <| by
    have h := FmtM.unpack_pack x
    generalize x.pack = r at h
    show Except.map _ (FmtM.unpack x.p r) = _
    rw [h]
    rfl)

theorem Sys2Proof.Laws.Encoding.str (x : FmtM) : Sys2Proof.Laws.Encoding.Statement (.str x) := fun _ rest =>
  decode_word 0 x.p 0x61 x.pack _ rest (by decide) (by decide) (decodeWord_lane _ _ _ 0x61 _ rfl (by decide) <| by
    have h := FmtM.unpack_pack x
    generalize x.pack = r at h
    show Except.map _ (FmtM.unpack x.p r) = _
    rw [h]
    rfl)

theorem Sys2Proof.Laws.Encoding.ldk (x : FmtM0) : Sys2Proof.Laws.Encoding.Statement (.ldk x) := fun _ rest =>
  decode_word 0 none 0x62 x.pack _ rest (by decide) (by decide) (decodeWord_lane _ _ _ 0x62 _ rfl (by decide) <| by
    have h := FmtM0.unpack_pack x
    generalize x.pack = r at h
    show Except.map _ (FmtM0.unpack r) = _
    rw [h]
    rfl)

theorem Sys2Proof.Laws.Encoding.atomAdd (x : FmtMN) : Sys2Proof.Laws.Encoding.Statement (.atomAdd x) := fun _ rest =>
  decode_word 0 x.p 0x63 (x.pack 0) _ rest (by decide) (by decide) (decodeWord_lane _ _ _ 0x63 _ rfl (by decide) <| by
    have h := FmtMN.unpack_pack x 0
    have e := FmtMN.fn_pack x 0
    generalize (x.pack 0) = r at h e
    show decodeGroup63 x.p r = _
    unfold decodeGroup63
    rw [e]
    show Except.map _ (FmtMN.unpack x.p r) = _
    rw [h]
    rfl)

theorem Sys2Proof.Laws.Encoding.atomMin (x : FmtMN) : Sys2Proof.Laws.Encoding.Statement (.atomMin x) := fun _ rest =>
  decode_word 0 x.p 0x63 (x.pack 1) _ rest (by decide) (by decide) (decodeWord_lane _ _ _ 0x63 _ rfl (by decide) <| by
    have h := FmtMN.unpack_pack x 1
    have e := FmtMN.fn_pack x 1
    generalize (x.pack 1) = r at h e
    show decodeGroup63 x.p r = _
    unfold decodeGroup63
    rw [e]
    show Except.map _ (FmtMN.unpack x.p r) = _
    rw [h]
    rfl)

theorem Sys2Proof.Laws.Encoding.atomMax (x : FmtMN) : Sys2Proof.Laws.Encoding.Statement (.atomMax x) := fun _ rest =>
  decode_word 0 x.p 0x63 (x.pack 2) _ rest (by decide) (by decide) (decodeWord_lane _ _ _ 0x63 _ rfl (by decide) <| by
    have h := FmtMN.unpack_pack x 2
    have e := FmtMN.fn_pack x 2
    generalize (x.pack 2) = r at h e
    show decodeGroup63 x.p r = _
    unfold decodeGroup63
    rw [e]
    show Except.map _ (FmtMN.unpack x.p r) = _
    rw [h]
    rfl)

theorem Sys2Proof.Laws.Encoding.atomAnd (x : FmtMN) : Sys2Proof.Laws.Encoding.Statement (.atomAnd x) := fun _ rest =>
  decode_word 0 x.p 0x63 (x.pack 3) _ rest (by decide) (by decide) (decodeWord_lane _ _ _ 0x63 _ rfl (by decide) <| by
    have h := FmtMN.unpack_pack x 3
    have e := FmtMN.fn_pack x 3
    generalize (x.pack 3) = r at h e
    show decodeGroup63 x.p r = _
    unfold decodeGroup63
    rw [e]
    show Except.map _ (FmtMN.unpack x.p r) = _
    rw [h]
    rfl)

theorem Sys2Proof.Laws.Encoding.atomOr (x : FmtMN) : Sys2Proof.Laws.Encoding.Statement (.atomOr x) := fun _ rest =>
  decode_word 0 x.p 0x63 (x.pack 4) _ rest (by decide) (by decide) (decodeWord_lane _ _ _ 0x63 _ rfl (by decide) <| by
    have h := FmtMN.unpack_pack x 4
    have e := FmtMN.fn_pack x 4
    generalize (x.pack 4) = r at h e
    show decodeGroup63 x.p r = _
    unfold decodeGroup63
    rw [e]
    show Except.map _ (FmtMN.unpack x.p r) = _
    rw [h]
    rfl)

theorem Sys2Proof.Laws.Encoding.atomXor (x : FmtMN) : Sys2Proof.Laws.Encoding.Statement (.atomXor x) := fun _ rest =>
  decode_word 0 x.p 0x63 (x.pack 5) _ rest (by decide) (by decide) (decodeWord_lane _ _ _ 0x63 _ rfl (by decide) <| by
    have h := FmtMN.unpack_pack x 5
    have e := FmtMN.fn_pack x 5
    generalize (x.pack 5) = r at h e
    show decodeGroup63 x.p r = _
    unfold decodeGroup63
    rw [e]
    show Except.map _ (FmtMN.unpack x.p r) = _
    rw [h]
    rfl)

theorem Sys2Proof.Laws.Encoding.atomExch (x : FmtMN) : Sys2Proof.Laws.Encoding.Statement (.atomExch x) := fun _ rest =>
  decode_word 0 x.p 0x63 (x.pack 6) _ rest (by decide) (by decide) (decodeWord_lane _ _ _ 0x63 _ rfl (by decide) <| by
    have h := FmtMN.unpack_pack x 6
    have e := FmtMN.fn_pack x 6
    generalize (x.pack 6) = r at h e
    show decodeGroup63 x.p r = _
    unfold decodeGroup63
    rw [e]
    show Except.map _ (FmtMN.unpack x.p r) = _
    rw [h]
    rfl)

theorem Sys2Proof.Laws.Encoding.atomCas (x : FmtMN) : Sys2Proof.Laws.Encoding.Statement (.atomCas x) := fun _ rest =>
  decode_word 0 x.p 0x63 (x.pack 7) _ rest (by decide) (by decide) (decodeWord_lane _ _ _ 0x63 _ rfl (by decide) <| by
    have h := FmtMN.unpack_pack x 7
    have e := FmtMN.fn_pack x 7
    generalize (x.pack 7) = r at h e
    show decodeGroup63 x.p r = _
    unfold decodeGroup63
    rw [e]
    show Except.map _ (FmtMN.unpack x.p r) = _
    rw [h]
    rfl)

theorem Sys2Proof.Laws.Encoding.atomInc (x : FmtMN) : Sys2Proof.Laws.Encoding.Statement (.atomInc x) := fun _ rest =>
  decode_word 0 x.p 0x64 (x.pack 0) _ rest (by decide) (by decide) (decodeWord_lane _ _ _ 0x64 _ rfl (by decide) <| by
    have h := FmtMN.unpack_pack x 0
    have e := FmtMN.fn_pack x 0
    generalize (x.pack 0) = r at h e
    show decodeGroup64 x.p r = _
    unfold decodeGroup64
    rw [e]
    show Except.map _ (FmtMN.unpack x.p r) = _
    rw [h]
    rfl)

theorem Sys2Proof.Laws.Encoding.redAdd (x : FmtMN) : Sys2Proof.Laws.Encoding.Statement (.redAdd x) := fun _ rest =>
  decode_word 0 x.p 0x65 (x.pack 0) _ rest (by decide) (by decide) (decodeWord_lane _ _ _ 0x65 _ rfl (by decide) <| by
    have h := FmtMN.unpack_pack x 0
    have e := FmtMN.fn_pack x 0
    generalize (x.pack 0) = r at h e
    show decodeGroup65 x.p r = _
    unfold decodeGroup65
    rw [e]
    show Except.map _ (FmtMN.unpack x.p r) = _
    rw [h]
    rfl)

theorem Sys2Proof.Laws.Encoding.redMin (x : FmtMN) : Sys2Proof.Laws.Encoding.Statement (.redMin x) := fun _ rest =>
  decode_word 0 x.p 0x65 (x.pack 1) _ rest (by decide) (by decide) (decodeWord_lane _ _ _ 0x65 _ rfl (by decide) <| by
    have h := FmtMN.unpack_pack x 1
    have e := FmtMN.fn_pack x 1
    generalize (x.pack 1) = r at h e
    show decodeGroup65 x.p r = _
    unfold decodeGroup65
    rw [e]
    show Except.map _ (FmtMN.unpack x.p r) = _
    rw [h]
    rfl)

theorem Sys2Proof.Laws.Encoding.redMax (x : FmtMN) : Sys2Proof.Laws.Encoding.Statement (.redMax x) := fun _ rest =>
  decode_word 0 x.p 0x65 (x.pack 2) _ rest (by decide) (by decide) (decodeWord_lane _ _ _ 0x65 _ rfl (by decide) <| by
    have h := FmtMN.unpack_pack x 2
    have e := FmtMN.fn_pack x 2
    generalize (x.pack 2) = r at h e
    show decodeGroup65 x.p r = _
    unfold decodeGroup65
    rw [e]
    show Except.map _ (FmtMN.unpack x.p r) = _
    rw [h]
    rfl)

theorem Sys2Proof.Laws.Encoding.redAnd (x : FmtMN) : Sys2Proof.Laws.Encoding.Statement (.redAnd x) := fun _ rest =>
  decode_word 0 x.p 0x65 (x.pack 3) _ rest (by decide) (by decide) (decodeWord_lane _ _ _ 0x65 _ rfl (by decide) <| by
    have h := FmtMN.unpack_pack x 3
    have e := FmtMN.fn_pack x 3
    generalize (x.pack 3) = r at h e
    show decodeGroup65 x.p r = _
    unfold decodeGroup65
    rw [e]
    show Except.map _ (FmtMN.unpack x.p r) = _
    rw [h]
    rfl)

theorem Sys2Proof.Laws.Encoding.redOr (x : FmtMN) : Sys2Proof.Laws.Encoding.Statement (.redOr x) := fun _ rest =>
  decode_word 0 x.p 0x65 (x.pack 4) _ rest (by decide) (by decide) (decodeWord_lane _ _ _ 0x65 _ rfl (by decide) <| by
    have h := FmtMN.unpack_pack x 4
    have e := FmtMN.fn_pack x 4
    generalize (x.pack 4) = r at h e
    show decodeGroup65 x.p r = _
    unfold decodeGroup65
    rw [e]
    show Except.map _ (FmtMN.unpack x.p r) = _
    rw [h]
    rfl)

theorem Sys2Proof.Laws.Encoding.redXor (x : FmtMN) : Sys2Proof.Laws.Encoding.Statement (.redXor x) := fun _ rest =>
  decode_word 0 x.p 0x65 (x.pack 5) _ rest (by decide) (by decide) (decodeWord_lane _ _ _ 0x65 _ rfl (by decide) <| by
    have h := FmtMN.unpack_pack x 5
    have e := FmtMN.fn_pack x 5
    generalize (x.pack 5) = r at h e
    show decodeGroup65 x.p r = _
    unfold decodeGroup65
    rw [e]
    show Except.map _ (FmtMN.unpack x.p r) = _
    rw [h]
    rfl)

theorem Sys2Proof.Laws.Encoding.pref (x : FmtM) : Sys2Proof.Laws.Encoding.Statement (.pref x) := fun _ rest =>
  decode_word 0 x.p 0x66 x.pack _ rest (by decide) (by decide) (decodeWord_lane _ _ _ 0x66 _ rfl (by decide) <| by
    have h := FmtM.unpack_pack x
    generalize x.pack = r at h
    show Except.map _ (FmtM.unpack x.p r) = _
    rw [h]
    rfl)

theorem Sys2Proof.Laws.Encoding.waitaEq (x : FmtMN0) : Sys2Proof.Laws.Encoding.Statement (.waitaEq x) := fun _ rest =>
  decode_word 0 none 0x67 (x.pack 0) _ rest (by decide) (by decide) (decodeWord_lane _ _ _ 0x67 _ rfl (by decide) <| by
    have h := FmtMN0.unpack_pack x 0
    have e := FmtMN0.fn_pack x 0
    generalize (x.pack 0) = r at h e
    show decodeGroup67 none r = _
    unfold decodeGroup67
    rw [e]
    show Except.map _ (FmtMN0.unpack r) = _
    rw [h]
    rfl)

theorem Sys2Proof.Laws.Encoding.waitaNe (x : FmtMN0) : Sys2Proof.Laws.Encoding.Statement (.waitaNe x) := fun _ rest =>
  decode_word 0 none 0x67 (x.pack 1) _ rest (by decide) (by decide) (decodeWord_lane _ _ _ 0x67 _ rfl (by decide) <| by
    have h := FmtMN0.unpack_pack x 1
    have e := FmtMN0.fn_pack x 1
    generalize (x.pack 1) = r at h e
    show decodeGroup67 none r = _
    unfold decodeGroup67
    rw [e]
    show Except.map _ (FmtMN0.unpack r) = _
    rw [h]
    rfl)

theorem Sys2Proof.Laws.Encoding.waitaGe (x : FmtMN0) : Sys2Proof.Laws.Encoding.Statement (.waitaGe x) := fun _ rest =>
  decode_word 0 none 0x67 (x.pack 2) _ rest (by decide) (by decide) (decodeWord_lane _ _ _ 0x67 _ rfl (by decide) <| by
    have h := FmtMN0.unpack_pack x 2
    have e := FmtMN0.fn_pack x 2
    generalize (x.pack 2) = r at h e
    show decodeGroup67 none r = _
    unfold decodeGroup67
    rw [e]
    show Except.map _ (FmtMN0.unpack r) = _
    rw [h]
    rfl)

theorem Sys2Proof.Laws.Encoding.ldlat (x : FmtMQ) : Sys2Proof.Laws.Encoding.Statement (.ldlat x) := fun _ rest =>
  decode_word 0 (some x.p) 0x68 x.pack _ rest (by decide) (by decide) (decodeWord_lane _ _ _ 0x68 _ rfl (by decide) <| by
    have h := FmtMQ.unpack_pack x
    generalize x.pack = r at h
    show Except.map _ (FmtMQ.unpack x.p r) = _
    rw [h]
    rfl)

theorem Sys2Proof.Laws.Encoding.ljoin (x : FmtMQ) : Sys2Proof.Laws.Encoding.Statement (.ljoin x) := fun _ rest =>
  decode_word 0 (some x.p) 0x69 x.pack _ rest (by decide) (by decide) (decodeWord_lane _ _ _ 0x69 _ rfl (by decide) <| by
    have h := FmtMQ.unpack_pack x
    generalize x.pack = r at h
    show Except.map _ (FmtMQ.unpack x.p r) = _
    rw [h]
    rfl)

theorem Sys2Proof.Laws.Encoding.publ (x : FmtM0) : Sys2Proof.Laws.Encoding.Statement (.publ x) := fun _ rest =>
  decode_word 0 none 0x6A x.pack _ rest (by decide) (by decide) (decodeWord_lane _ _ _ 0x6A _ rfl (by decide) <| by
    have h := FmtM0.unpack_pack x
    generalize x.pack = r at h
    show Except.map _ (FmtM0.unpack r) = _
    rw [h]
    rfl)

theorem Sys2Proof.Laws.Encoding.cld (x : FmtMC) : Sys2Proof.Laws.Encoding.Statement (.cld x) := fun _ rest =>
  decode_word 0 x.p 0x6B x.pack _ rest (by decide) (by decide) (decodeWord_lane _ _ _ 0x6B _ rfl (by decide) <| by
    have h := FmtMC.unpack_pack x
    generalize x.pack = r at h
    show Except.map _ (FmtMC.unpack x.p r) = _
    rw [h]
    rfl)

theorem Sys2Proof.Laws.Encoding.cst (x : FmtMC) : Sys2Proof.Laws.Encoding.Statement (.cst x) := fun _ rest =>
  decode_word 0 x.p 0x6C x.pack _ rest (by decide) (by decide) (decodeWord_lane _ _ _ 0x6C _ rfl (by decide) <| by
    have h := FmtMC.unpack_pack x
    generalize x.pack = r at h
    show Except.map _ (FmtMC.unpack x.p r) = _
    rw [h]
    rfl)

theorem Sys2Proof.Laws.Encoding.fence (x : FmtSC0) : Sys2Proof.Laws.Encoding.Statement (.fence x) := fun _ rest =>
  decode_word 0 none 0x6D x.pack _ rest (by decide) (by decide) (decodeWord_lane _ _ _ 0x6D _ rfl (by decide) <| by
    have h := FmtSC0.unpack_pack x
    generalize x.pack = r at h
    show Except.map _ (FmtSC0.unpack r) = _
    rw [h]
    rfl)

theorem Sys2Proof.Laws.Encoding.wait (x : FmtWT0) : Sys2Proof.Laws.Encoding.Statement (.wait x) := fun _ rest =>
  decode_word 0 none 0x6E x.pack _ rest (by decide) (by decide) (decodeWord_lane _ _ _ 0x6E _ rfl (by decide) <| by
    have h := FmtWT0.unpack_pack x
    generalize x.pack = r at h
    show Except.map _ (FmtWT0.unpack r) = _
    rw [h]
    rfl)

theorem Sys2Proof.Laws.Encoding.bra (x : FmtB) : Sys2Proof.Laws.Encoding.Statement (.bra x) := fun _ rest =>
  decode_word 0 x.p 0x6F x.pack _ rest (by decide) (by decide) (decodeWord_lane _ _ _ 0x6F _ rfl (by decide) <| by
    have h := FmtB.unpack_pack x
    generalize x.pack = r at h
    show Except.map _ (FmtB.unpack x.p r) = _
    rw [h]
    rfl)

theorem Sys2Proof.Laws.Encoding.braJ (x : FmtBJ) : Sys2Proof.Laws.Encoding.Statement (.braJ x) := fun _ rest =>
  decode_word 0 x.p 0x70 x.pack _ rest (by decide) (by decide) (decodeWord_lane _ _ _ 0x70 _ rfl (by decide) <| by
    have h := FmtBJ.unpack_pack x
    generalize x.pack = r at h
    show Except.map _ (FmtBJ.unpack x.p r) = _
    rw [h]
    rfl)

theorem Sys2Proof.Laws.Encoding.brx (x : FmtTB0) : Sys2Proof.Laws.Encoding.Statement (.brx x) := fun _ rest =>
  decode_word 0 none 0x71 x.pack _ rest (by decide) (by decide) (decodeWord_lane _ _ _ 0x71 _ rfl (by decide) <| by
    have h := FmtTB0.unpack_pack x
    generalize x.pack = r at h
    show Except.map _ (FmtTB0.unpack r) = _
    rw [h]
    rfl)

theorem Sys2Proof.Laws.Encoding.call (x : FmtB) : Sys2Proof.Laws.Encoding.Statement (.call x) := fun _ rest =>
  decode_word 0 x.p 0x72 x.pack _ rest (by decide) (by decide) (decodeWord_lane _ _ _ 0x72 _ rfl (by decide) <| by
    have h := FmtB.unpack_pack x
    generalize x.pack = r at h
    show Except.map _ (FmtB.unpack x.p r) = _
    rw [h]
    rfl)

theorem Sys2Proof.Laws.Encoding.loop (x : FmtLP) : Sys2Proof.Laws.Encoding.Statement (.loop x) := fun _ rest =>
  decode_word 0 x.p 0x73 x.pack _ rest (by decide) (by decide) (decodeWord_lane _ _ _ 0x73 _ rfl (by decide) <| by
    have h := FmtLP.unpack_pack x
    generalize x.pack = r at h
    show Except.map _ (FmtLP.unpack x.p r) = _
    rw [h]
    rfl)

theorem Sys2Proof.Laws.Encoding.spawn (x : FmtSP) : Sys2Proof.Laws.Encoding.Statement (.spawn x) := fun _ rest =>
  decode_word 0 x.p 0x74 x.pack _ rest (by decide) (by decide) (decodeWord_lane _ _ _ 0x74 _ rfl (by decide) <| by
    have h := FmtSP.unpack_pack x
    generalize x.pack = r at h
    show Except.map _ (FmtSP.unpack x.p r) = _
    rw [h]
    rfl)

theorem Sys2Proof.Laws.Encoding.join (x : FmtJ0) : Sys2Proof.Laws.Encoding.Statement (.join x) := fun _ rest =>
  decode_word 0 none 0x75 x.pack _ rest (by decide) (by decide) (decodeWord_lane _ _ _ 0x75 _ rfl (by decide) <| by
    have h := FmtJ0.unpack_pack x
    generalize x.pack = r at h
    show Except.map _ (FmtJ0.unpack r) = _
    rw [h]
    rfl)

theorem Sys2Proof.Laws.Encoding.nop (x : FmtG) : Sys2Proof.Laws.Encoding.Statement (.nop x) := fun _ rest =>
  decode_word 0 x.p 0x76 (x.pack 0) _ rest (by decide) (by decide) (decodeWord_lane _ _ _ 0x76 _ rfl (by decide) <| by
    have h := FmtG.unpack_pack x 0
    have e := FmtG.fn_pack x 0
    generalize (x.pack 0) = r at h e
    show decodeGroup76 x.p r = _
    unfold decodeGroup76
    rw [e]
    show Except.map _ (FmtG.unpack x.p r) = _
    rw [h]
    rfl)

theorem Sys2Proof.Laws.Encoding.ret (x : FmtA1) : Sys2Proof.Laws.Encoding.Statement (.ret x) := fun _ rest =>
  decode_word 0 x.p 0x76 (x.pack 1) _ rest (by decide) (by decide) (decodeWord_lane _ _ _ 0x76 _ rfl (by decide) <| by
    have h := FmtA1.unpack_pack x 1
    have e := FmtA1.fn_pack x 1
    generalize (x.pack 1) = r at h e
    show decodeGroup76 x.p r = _
    unfold decodeGroup76
    rw [e]
    show Except.map _ (FmtA1.unpack x.p r) = _
    rw [h]
    rfl)

theorem Sys2Proof.Laws.Encoding.exit (x : FmtG) : Sys2Proof.Laws.Encoding.Statement (.exit x) := fun _ rest =>
  decode_word 0 x.p 0x76 (x.pack 2) _ rest (by decide) (by decide) (decodeWord_lane _ _ _ 0x76 _ rfl (by decide) <| by
    have h := FmtG.unpack_pack x 2
    have e := FmtG.fn_pack x 2
    generalize (x.pack 2) = r at h e
    show decodeGroup76 x.p r = _
    unfold decodeGroup76
    rw [e]
    show Except.map _ (FmtG.unpack x.p r) = _
    rw [h]
    rfl)

theorem Sys2Proof.Laws.Encoding.yield (x : FmtN) : Sys2Proof.Laws.Encoding.Statement (.yield x) := by
  have d : ∀ r, FmtN.unpack x.p r = .ok x → r.extractLsb' 0 7 = (3 : BitVec 7) → decodeLane x.p 0x76 r = .ok (.yield x) := by
    intro r h e
    show decodeGroup76 x.p r = _
    unfold decodeGroup76
    rw [e]
    show Except.map _ (FmtN.unpack x.p r) = _
    rw [h]
    rfl
  intro _ rest
  have w := decodeWord_lane x.p 0x76 (x.pack 3) 0x76 _ rfl (by decide) (d _ (FmtN.unpack_pack x 3) (FmtN.fn_pack x 3))
  unfold encodeBytes encode
  exact decode_word 0 x.p 0x76 (x.pack 3) _ rest (by decide) (by decide) w

theorem Sys2Proof.Laws.Encoding.bind (x : FmtN) : Sys2Proof.Laws.Encoding.Statement (.bind x) := by
  have d : ∀ r, FmtN.unpack x.p r = .ok x → r.extractLsb' 0 7 = (4 : BitVec 7) → decodeLane x.p 0x76 r = .ok (.bind x) := by
    intro r h e
    show decodeGroup76 x.p r = _
    unfold decodeGroup76
    rw [e]
    show Except.map _ (FmtN.unpack x.p r) = _
    rw [h]
    rfl
  intro _ rest
  have w := decodeWord_lane x.p 0x76 (x.pack 4) 0x76 _ rfl (by decide) (d _ (FmtN.unpack_pack x 4) (FmtN.fn_pack x 4))
  unfold encodeBytes encode
  exact decode_word 0 x.p 0x76 (x.pack 4) _ rest (by decide) (by decide) w

theorem Sys2Proof.Laws.Encoding.unbind (x : FmtN) : Sys2Proof.Laws.Encoding.Statement (.unbind x) := by
  have d : ∀ r, FmtN.unpack x.p r = .ok x → r.extractLsb' 0 7 = (5 : BitVec 7) → decodeLane x.p 0x76 r = .ok (.unbind x) := by
    intro r h e
    show decodeGroup76 x.p r = _
    unfold decodeGroup76
    rw [e]
    show Except.map _ (FmtN.unpack x.p r) = _
    rw [h]
    rfl
  intro _ rest
  have w := decodeWord_lane x.p 0x76 (x.pack 5) 0x76 _ rfl (by decide) (d _ (FmtN.unpack_pack x 5) (FmtN.fn_pack x 5))
  unfold encodeBytes encode
  exact decode_word 0 x.p 0x76 (x.pack 5) _ rest (by decide) (by decide) w

theorem Sys2Proof.Laws.Encoding.pmark (x : FmtG) : Sys2Proof.Laws.Encoding.Statement (.pmark x) := fun _ rest =>
  decode_word 0 x.p 0x76 (x.pack 6) _ rest (by decide) (by decide) (decodeWord_lane _ _ _ 0x76 _ rfl (by decide) <| by
    have h := FmtG.unpack_pack x 6
    have e := FmtG.fn_pack x 6
    generalize (x.pack 6) = r at h e
    show decodeGroup76 x.p r = _
    unfold decodeGroup76
    rw [e]
    show Except.map _ (FmtG.unpack x.p r) = _
    rw [h]
    rfl)

theorem Sys2Proof.Laws.Encoding.sign (x : FmtSG0) : Sys2Proof.Laws.Encoding.Statement (.sign x) := fun _ rest =>
  decode_word 0 none 0x77 x.pack _ rest (by decide) (by decide) (decodeWord_lane _ _ _ 0x77 _ rfl (by decide) <| by
    have h := FmtSG0.unpack_pack x
    generalize x.pack = r at h
    show Except.map _ (FmtSG0.unpack r) = _
    rw [h]
    rfl)

theorem Sys2Proof.Laws.Encoding.cvset (x : FmtCV0) : Sys2Proof.Laws.Encoding.Statement (.cvset x) := fun _ rest =>
  decode_word 0 none 0x78 x.pack _ rest (by decide) (by decide) (decodeWord_lane _ _ _ 0x78 _ rfl (by decide) <| by
    have h := FmtCV0.unpack_pack x
    generalize x.pack = r at h
    show Except.map _ (FmtCV0.unpack r) = _
    rw [h]
    rfl)

theorem Sys2Proof.Laws.Encoding.s2v (x : FmtSR0) : Sys2Proof.Laws.Encoding.Statement (.s2v x) := fun _ rest =>
  decode_word 0 none 0x79 x.pack _ rest (by decide) (by decide) (decodeWord_lane _ _ _ 0x79 _ rfl (by decide) <| by
    have h := FmtSR0.unpack_pack x
    generalize x.pack = r at h
    show Except.map _ (FmtSR0.unpack r) = _
    rw [h]
    rfl)

theorem Sys2Proof.Laws.Encoding.pdlog (x : FmtTB0) : Sys2Proof.Laws.Encoding.Statement (.pdlog x) := fun _ rest =>
  decode_word 0 none 0x7A x.pack _ rest (by decide) (by decide) (decodeWord_lane _ _ _ 0x7A _ rfl (by decide) <| by
    have h := FmtTB0.unpack_pack x
    generalize x.pack = r at h
    show Except.map _ (FmtTB0.unpack r) = _
    rw [h]
    rfl)

theorem Sys2Proof.Laws.Encoding.trap (x : FmtTR0) : Sys2Proof.Laws.Encoding.Statement (.trap x) := fun _ rest =>
  decode_word 0 none 0x7B x.pack _ rest (by decide) (by decide) (decodeWord_lane _ _ _ 0x7B _ rfl (by decide) <| by
    have h := FmtTR0.unpack_pack x
    generalize x.pack = r at h
    show Except.map _ (FmtTR0.unpack r) = _
    rw [h]
    rfl)

theorem Sys2Proof.Laws.Encoding.sysc (x : FmtTR0) : Sys2Proof.Laws.Encoding.Statement (.sysc x) := fun _ rest =>
  decode_word 0 none 0x7C x.pack _ rest (by decide) (by decide) (decodeWord_lane _ _ _ 0x7C _ rfl (by decide) <| by
    have h := FmtTR0.unpack_pack x
    generalize x.pack = r at h
    show Except.map _ (FmtTR0.unpack r) = _
    rw [h]
    rfl)

theorem Sys2Proof.Laws.Encoding.uadd (x : FmtUR) : Sys2Proof.Laws.Encoding.Statement (.uadd x) := fun _ rest =>
  decode_word 1 x.p 0x81 x.pack _ rest (by decide) (by decide) (decodeWord_uniform _ _ _ 0x01 _ rfl (by decide) <| by
    have h := FmtUR.unpack_pack x
    generalize x.pack = r at h
    show Except.map _ (FmtUR.unpack x.p r) = _
    rw [h]
    rfl)

theorem Sys2Proof.Laws.Encoding.usub (x : FmtUR) : Sys2Proof.Laws.Encoding.Statement (.usub x) := fun _ rest =>
  decode_word 1 x.p 0x82 x.pack _ rest (by decide) (by decide) (decodeWord_uniform _ _ _ 0x02 _ rfl (by decide) <| by
    have h := FmtUR.unpack_pack x
    generalize x.pack = r at h
    show Except.map _ (FmtUR.unpack x.p r) = _
    rw [h]
    rfl)

theorem Sys2Proof.Laws.Encoding.umul (x : FmtUR) : Sys2Proof.Laws.Encoding.Statement (.umul x) := fun _ rest =>
  decode_word 1 x.p 0x83 x.pack _ rest (by decide) (by decide) (decodeWord_uniform _ _ _ 0x03 _ rfl (by decide) <| by
    have h := FmtUR.unpack_pack x
    generalize x.pack = r at h
    show Except.map _ (FmtUR.unpack x.p r) = _
    rw [h]
    rfl)

theorem Sys2Proof.Laws.Encoding.umad (x : FmtUR) : Sys2Proof.Laws.Encoding.Statement (.umad x) := fun _ rest =>
  decode_word 1 x.p 0x84 x.pack _ rest (by decide) (by decide) (decodeWord_uniform _ _ _ 0x04 _ rfl (by decide) <| by
    have h := FmtUR.unpack_pack x
    generalize x.pack = r at h
    show Except.map _ (FmtUR.unpack x.p r) = _
    rw [h]
    rfl)

theorem Sys2Proof.Laws.Encoding.uand (x : FmtUR) : Sys2Proof.Laws.Encoding.Statement (.uand x) := fun _ rest =>
  decode_word 1 x.p 0x85 x.pack _ rest (by decide) (by decide) (decodeWord_uniform _ _ _ 0x05 _ rfl (by decide) <| by
    have h := FmtUR.unpack_pack x
    generalize x.pack = r at h
    show Except.map _ (FmtUR.unpack x.p r) = _
    rw [h]
    rfl)

theorem Sys2Proof.Laws.Encoding.uor (x : FmtUR) : Sys2Proof.Laws.Encoding.Statement (.uor x) := fun _ rest =>
  decode_word 1 x.p 0x86 x.pack _ rest (by decide) (by decide) (decodeWord_uniform _ _ _ 0x06 _ rfl (by decide) <| by
    have h := FmtUR.unpack_pack x
    generalize x.pack = r at h
    show Except.map _ (FmtUR.unpack x.p r) = _
    rw [h]
    rfl)

theorem Sys2Proof.Laws.Encoding.uxor (x : FmtUR) : Sys2Proof.Laws.Encoding.Statement (.uxor x) := fun _ rest =>
  decode_word 1 x.p 0x87 x.pack _ rest (by decide) (by decide) (decodeWord_uniform _ _ _ 0x07 _ rfl (by decide) <| by
    have h := FmtUR.unpack_pack x
    generalize x.pack = r at h
    show Except.map _ (FmtUR.unpack x.p r) = _
    rw [h]
    rfl)

theorem Sys2Proof.Laws.Encoding.ushl (x : FmtUR) : Sys2Proof.Laws.Encoding.Statement (.ushl x) := fun _ rest =>
  decode_word 1 x.p 0x88 x.pack _ rest (by decide) (by decide) (decodeWord_uniform _ _ _ 0x08 _ rfl (by decide) <| by
    have h := FmtUR.unpack_pack x
    generalize x.pack = r at h
    show Except.map _ (FmtUR.unpack x.p r) = _
    rw [h]
    rfl)

theorem Sys2Proof.Laws.Encoding.ushr (x : FmtUR) : Sys2Proof.Laws.Encoding.Statement (.ushr x) := fun _ rest =>
  decode_word 1 x.p 0x89 x.pack _ rest (by decide) (by decide) (decodeWord_uniform _ _ _ 0x09 _ rfl (by decide) <| by
    have h := FmtUR.unpack_pack x
    generalize x.pack = r at h
    show Except.map _ (FmtUR.unpack x.p r) = _
    rw [h]
    rfl)

theorem Sys2Proof.Laws.Encoding.umin (x : FmtUM) : Sys2Proof.Laws.Encoding.Statement (.umin x) := fun _ rest =>
  decode_word 1 x.p 0x8A x.pack _ rest (by decide) (by decide) (decodeWord_uniform _ _ _ 0x0A _ rfl (by decide) <| by
    have h := FmtUM.unpack_pack x
    generalize x.pack = r at h
    show Except.map _ (FmtUM.unpack x.p r) = _
    rw [h]
    rfl)

theorem Sys2Proof.Laws.Encoding.umax (x : FmtUM) : Sys2Proof.Laws.Encoding.Statement (.umax x) := fun _ rest =>
  decode_word 1 x.p 0x8B x.pack _ rest (by decide) (by decide) (decodeWord_uniform _ _ _ 0x0B _ rfl (by decide) <| by
    have h := FmtUM.unpack_pack x
    generalize x.pack = r at h
    show Except.map _ (FmtUM.unpack x.p r) = _
    rw [h]
    rfl)

theorem Sys2Proof.Laws.Encoding.umov (x : FmtU2) : Sys2Proof.Laws.Encoding.Statement (.umov x) := fun _ rest =>
  decode_word 1 x.p 0x8C x.pack _ rest (by decide) (by decide) (decodeWord_uniform _ _ _ 0x0C _ rfl (by decide) <| by
    have h := FmtU2.unpack_pack x
    generalize x.pack = r at h
    show Except.map _ (FmtU2.unpack x.p r) = _
    rw [h]
    rfl)

theorem Sys2Proof.Laws.Encoding.ucmp (x : FmtUF) : Sys2Proof.Laws.Encoding.Statement (.ucmp x) := fun _ rest =>
  decode_word 1 x.p 0x8D x.pack _ rest (by decide) (by decide) (decodeWord_uniform _ _ _ 0x0D _ rfl (by decide) <| by
    have h := FmtUF.unpack_pack x
    generalize x.pack = r at h
    show Except.map _ (FmtUF.unpack x.p r) = _
    rw [h]
    rfl)

theorem Sys2Proof.Laws.Encoding.usel (x : FmtUR) : Sys2Proof.Laws.Encoding.Statement (.usel x) := fun _ rest =>
  decode_word 1 x.p 0x8E x.pack _ rest (by decide) (by decide) (decodeWord_uniform _ _ _ 0x0E _ rfl (by decide) <| by
    have h := FmtUR.unpack_pack x
    generalize x.pack = r at h
    show Except.map _ (FmtUR.unpack x.p r) = _
    rw [h]
    rfl)

theorem Sys2Proof.Laws.Encoding.ucnar (x : FmtUN) : Sys2Proof.Laws.Encoding.Statement (.ucnar x) := fun _ rest =>
  decode_word 1 x.p 0x8F x.pack _ rest (by decide) (by decide) (decodeWord_uniform _ _ _ 0x0F _ rfl (by decide) <| by
    have h := FmtUN.unpack_pack x
    generalize x.pack = r at h
    show Except.map _ (FmtUN.unpack x.p r) = _
    rw [h]
    rfl)

theorem Sys2Proof.Laws.Encoding.uaddUi (x : FmtUI) : Sys2Proof.Laws.Encoding.Statement (.uaddUi x) := fun _ rest =>
  decode_word 1 x.p 0x90 x.pack _ rest (by decide) (by decide) (decodeWord_uniform _ _ _ 0x10 _ rfl (by decide) <| by
    have h := FmtUI.unpack_pack x
    generalize x.pack = r at h
    show Except.map _ (FmtUI.unpack x.p r) = _
    rw [h]
    rfl)

theorem Sys2Proof.Laws.Encoding.uandUi (x : FmtUI) : Sys2Proof.Laws.Encoding.Statement (.uandUi x) := fun _ rest =>
  decode_word 1 x.p 0x91 x.pack _ rest (by decide) (by decide) (decodeWord_uniform _ _ _ 0x11 _ rfl (by decide) <| by
    have h := FmtUI.unpack_pack x
    generalize x.pack = r at h
    show Except.map _ (FmtUI.unpack x.p r) = _
    rw [h]
    rfl)

theorem Sys2Proof.Laws.Encoding.uorUi (x : FmtUI) : Sys2Proof.Laws.Encoding.Statement (.uorUi x) := fun _ rest =>
  decode_word 1 x.p 0x92 x.pack _ rest (by decide) (by decide) (decodeWord_uniform _ _ _ 0x12 _ rfl (by decide) <| by
    have h := FmtUI.unpack_pack x
    generalize x.pack = r at h
    show Except.map _ (FmtUI.unpack x.p r) = _
    rw [h]
    rfl)

theorem Sys2Proof.Laws.Encoding.ushlUi (x : FmtUI) : Sys2Proof.Laws.Encoding.Statement (.ushlUi x) := fun _ rest =>
  decode_word 1 x.p 0x93 x.pack _ rest (by decide) (by decide) (decodeWord_uniform _ _ _ 0x13 _ rfl (by decide) <| by
    have h := FmtUI.unpack_pack x
    generalize x.pack = r at h
    show Except.map _ (FmtUI.unpack x.p r) = _
    rw [h]
    rfl)

theorem Sys2Proof.Laws.Encoding.ushrUi (x : FmtUI) : Sys2Proof.Laws.Encoding.Statement (.ushrUi x) := fun _ rest =>
  decode_word 1 x.p 0x94 x.pack _ rest (by decide) (by decide) (decodeWord_uniform _ _ _ 0x14 _ rfl (by decide) <| by
    have h := FmtUI.unpack_pack x
    generalize x.pack = r at h
    show Except.map _ (FmtUI.unpack x.p r) = _
    rw [h]
    rfl)

theorem Sys2Proof.Laws.Encoding.umovi (x : FmtUI) : Sys2Proof.Laws.Encoding.Statement (.umovi x) := fun _ rest =>
  decode_word 1 x.p 0x95 x.pack _ rest (by decide) (by decide) (decodeWord_uniform _ _ _ 0x15 _ rfl (by decide) <| by
    have h := FmtUI.unpack_pack x
    generalize x.pack = r at h
    show Except.map _ (FmtUI.unpack x.p r) = _
    rw [h]
    rfl)

theorem Sys2Proof.Laws.Encoding.sbld (x : FmtEL) : Sys2Proof.Laws.Encoding.Statement (.sbld x) := fun _ rest =>
  decode_word 1 none 0xA0 x.pack _ rest (by decide) (by decide) (decodeWord_uniform _ _ _ 0x20 _ rfl (by decide) <| by
    have h := FmtEL.unpack_pack x
    generalize x.pack = r at h
    show Except.map _ (FmtEL.unpack r) = _
    rw [h]
    rfl)

theorem Sys2Proof.Laws.Encoding.mmrun (x : FmtER) : Sys2Proof.Laws.Encoding.Statement (.mmrun x) := fun _ rest =>
  decode_word 1 none 0xA1 x.pack _ rest (by decide) (by decide) (decodeWord_uniform _ _ _ 0x21 _ rfl (by decide) <| by
    have h := FmtER.unpack_pack x
    generalize x.pack = r at h
    show Except.map _ (FmtER.unpack r) = _
    rw [h]
    rfl)

theorem Sys2Proof.Laws.Encoding.mmout (x : FmtEO) : Sys2Proof.Laws.Encoding.Statement (.mmout x) := fun _ rest =>
  decode_word 1 none 0xA2 x.pack _ rest (by decide) (by decide) (decodeWord_uniform _ _ _ 0x22 _ rfl (by decide) <| by
    have h := FmtEO.unpack_pack x
    generalize x.pack = r at h
    show Except.map _ (FmtEO.unpack r) = _
    rw [h]
    rfl)

theorem Sys2Proof.Laws.Encoding.mtab (x : FmtEL) : Sys2Proof.Laws.Encoding.Statement (.mtab x) := fun _ rest =>
  decode_word 1 none 0xA3 x.pack _ rest (by decide) (by decide) (decodeWord_uniform _ _ _ 0x23 _ rfl (by decide) <| by
    have h := FmtEL.unpack_pack x
    generalize x.pack = r at h
    show Except.map _ (FmtEL.unpack r) = _
    rw [h]
    rfl)

theorem Sys2Proof.Laws.Encoding.mbias (x : FmtEL) : Sys2Proof.Laws.Encoding.Statement (.mbias x) := fun _ rest =>
  decode_word 1 none 0xA4 x.pack _ rest (by decide) (by decide) (decodeWord_uniform _ _ _ 0x24 _ rfl (by decide) <| by
    have h := FmtEL.unpack_pack x
    generalize x.pack = r at h
    show Except.map _ (FmtEL.unpack r) = _
    rw [h]
    rfl)

theorem Sys2Proof.Laws.Encoding.copyGs (x : FmtXS) : Sys2Proof.Laws.Encoding.Statement (.copyGs x) := fun _ rest =>
  decode_word 1 none 0xA8 (x.pack 0) _ rest (by decide) (by decide) (decodeWord_uniform _ _ _ 0x28 _ rfl (by decide) <| by
    have h := FmtXS.unpack_pack x 0
    have e := FmtXS.fn_pack x 0
    generalize (x.pack 0) = r at h e
    show decodeGroupA8 none r = _
    unfold decodeGroupA8
    rw [e]
    show Except.map _ (FmtXS.unpack r) = _
    rw [h]
    rfl)

theorem Sys2Proof.Laws.Encoding.copySg (x : FmtXD) : Sys2Proof.Laws.Encoding.Statement (.copySg x) := fun _ rest =>
  decode_word 1 none 0xA8 (x.pack 1) _ rest (by decide) (by decide) (decodeWord_uniform _ _ _ 0x28 _ rfl (by decide) <| by
    have h := FmtXD.unpack_pack x 1
    have e := FmtXD.fn_pack x 1
    generalize (x.pack 1) = r at h e
    show decodeGroupA8 none r = _
    unfold decodeGroupA8
    rw [e]
    show Except.map _ (FmtXD.unpack r) = _
    rw [h]
    rfl)

theorem Sys2Proof.Laws.Encoding.copyGg (x : FmtXB) : Sys2Proof.Laws.Encoding.Statement (.copyGg x) := fun _ rest =>
  decode_word 1 none 0xA8 (x.pack 2) _ rest (by decide) (by decide) (decodeWord_uniform _ _ _ 0x28 _ rfl (by decide) <| by
    have h := FmtXB.unpack_pack x 2
    have e := FmtXB.fn_pack x 2
    generalize (x.pack 2) = r at h e
    show decodeGroupA8 none r = _
    unfold decodeGroupA8
    rw [e]
    show Except.map _ (FmtXB.unpack r) = _
    rw [h]
    rfl)

theorem Sys2Proof.Laws.Encoding.tcopyGs (x : FmtXS) : Sys2Proof.Laws.Encoding.Statement (.tcopyGs x) := fun _ rest =>
  decode_word 1 none 0xA9 (x.pack 0) _ rest (by decide) (by decide) (decodeWord_uniform _ _ _ 0x29 _ rfl (by decide) <| by
    have h := FmtXS.unpack_pack x 0
    have e := FmtXS.fn_pack x 0
    generalize (x.pack 0) = r at h e
    show decodeGroupA9 none r = _
    unfold decodeGroupA9
    rw [e]
    show Except.map _ (FmtXS.unpack r) = _
    rw [h]
    rfl)

theorem Sys2Proof.Laws.Encoding.tcopySg (x : FmtXD) : Sys2Proof.Laws.Encoding.Statement (.tcopySg x) := fun _ rest =>
  decode_word 1 none 0xA9 (x.pack 1) _ rest (by decide) (by decide) (decodeWord_uniform _ _ _ 0x29 _ rfl (by decide) <| by
    have h := FmtXD.unpack_pack x 1
    have e := FmtXD.fn_pack x 1
    generalize (x.pack 1) = r at h e
    show decodeGroupA9 none r = _
    unfold decodeGroupA9
    rw [e]
    show Except.map _ (FmtXD.unpack r) = _
    rw [h]
    rfl)

theorem Sys2Proof.Laws.Encoding.copypIn (x : FmtXS) : Sys2Proof.Laws.Encoding.Statement (.copypIn x) := fun _ rest =>
  decode_word 1 none 0xAA (x.pack 0) _ rest (by decide) (by decide) (decodeWord_uniform _ _ _ 0x2A _ rfl (by decide) <| by
    have h := FmtXS.unpack_pack x 0
    have e := FmtXS.fn_pack x 0
    generalize (x.pack 0) = r at h e
    show decodeGroupAA none r = _
    unfold decodeGroupAA
    rw [e]
    show Except.map _ (FmtXS.unpack r) = _
    rw [h]
    rfl)

theorem Sys2Proof.Laws.Encoding.copypOut (x : FmtXD) : Sys2Proof.Laws.Encoding.Statement (.copypOut x) := fun _ rest =>
  decode_word 1 none 0xAA (x.pack 1) _ rest (by decide) (by decide) (decodeWord_uniform _ _ _ 0x2A _ rfl (by decide) <| by
    have h := FmtXD.unpack_pack x 1
    have e := FmtXD.fn_pack x 1
    generalize (x.pack 1) = r at h e
    show decodeGroupAA none r = _
    unfold decodeGroupAA
    rw [e]
    show Except.map _ (FmtXD.unpack r) = _
    rw [h]
    rfl)

theorem Sys2Proof.Laws.Encoding.coll (x : FmtXN) : Sys2Proof.Laws.Encoding.Statement (.coll x) := fun _ rest =>
  decode_word 1 none 0xAB x.pack _ rest (by decide) (by decide) (decodeWord_uniform _ _ _ 0x2B _ rfl (by decide) <| by
    have h := FmtXN.unpack_pack x
    generalize x.pack = r at h
    show Except.map _ (FmtXN.unpack r) = _
    rw [h]
    rfl)

theorem Sys2Proof.Laws.Encoding.barinit (x : FmtXI) : Sys2Proof.Laws.Encoding.Statement (.barinit x) := fun _ rest =>
  decode_word 1 none 0xAC x.pack _ rest (by decide) (by decide) (decodeWord_uniform _ _ _ 0x2C _ rfl (by decide) <| by
    have h := FmtXI.unpack_pack x
    generalize x.pack = r at h
    show Except.map _ (FmtXI.unpack r) = _
    rw [h]
    rfl)

theorem Sys2Proof.Laws.Encoding.sow (x : FmtXW) : Sys2Proof.Laws.Encoding.Statement (.sow x) := fun _ rest =>
  decode_word 1 none 0xB0 x.pack _ rest (by decide) (by decide) (decodeWord_uniform _ _ _ 0x30 _ rfl (by decide) <| by
    have h := FmtXW.unpack_pack x
    generalize x.pack = r at h
    show Except.map _ (FmtXW.unpack r) = _
    rw [h]
    rfl)

theorem Sys2Proof.Laws.Encoding.ldlayer (x : FmtLY) : Sys2Proof.Laws.Encoding.Statement (.ldlayer x) := fun _ rest =>
  decode_word 1 none 0xB1 x.pack _ rest (by decide) (by decide) (decodeWord_uniform _ _ _ 0x31 _ rfl (by decide) <| by
    have h := FmtLY.unpack_pack x
    generalize x.pack = r at h
    show Except.map _ (FmtLY.unpack r) = _
    rw [h]
    rfl)

theorem Sys2Proof.Laws.Encoding.rellayer (x : FmtLZ) : Sys2Proof.Laws.Encoding.Statement (.rellayer x) := fun _ rest =>
  decode_word 1 none 0xB2 x.pack _ rest (by decide) (by decide) (decodeWord_uniform _ _ _ 0x32 _ rfl (by decide) <| by
    have h := FmtLZ.unpack_pack x
    generalize x.pack = r at h
    show Except.map _ (FmtLZ.unpack r) = _
    rw [h]
    rfl)

theorem Sys2Proof.Laws.Encoding.mint (x : FmtMI) : Sys2Proof.Laws.Encoding.Statement (.mint x) := fun _ rest =>
  decode_word 1 none 0xB8 x.pack _ rest (by decide) (by decide) (decodeWord_uniform _ _ _ 0x38 _ rfl (by decide) <| by
    have h := FmtMI.unpack_pack x
    generalize x.pack = r at h
    show Except.map _ (FmtMI.unpack r) = _
    rw [h]
    rfl)

theorem Sys2Proof.Laws.Encoding.seal (x : FmtSL) : Sys2Proof.Laws.Encoding.Statement (.seal x) := fun _ rest =>
  decode_word 1 none 0xB9 x.pack _ rest (by decide) (by decide) (decodeWord_uniform _ _ _ 0x39 _ rfl (by decide) <| by
    have h := FmtSL.unpack_pack x
    generalize x.pack = r at h
    show Except.map _ (FmtSL.unpack r) = _
    rw [h]
    rfl)

theorem Sys2Proof.Laws.Encoding.objinv (x : FmtOB) : Sys2Proof.Laws.Encoding.Statement (.objinv x) := fun _ rest =>
  decode_word 1 none 0xBA x.pack _ rest (by decide) (by decide) (decodeWord_uniform _ _ _ 0x3A _ rfl (by decide) <| by
    have h := FmtOB.unpack_pack x
    generalize x.pack = r at h
    show Except.map _ (FmtOB.unpack r) = _
    rw [h]
    rfl)

theorem Sys2Proof.Laws.Encoding.migr (x : FmtOQ) : Sys2Proof.Laws.Encoding.Statement (.migr x) := fun _ rest =>
  decode_word 1 none 0xBB x.pack _ rest (by decide) (by decide) (decodeWord_uniform _ _ _ 0x3B _ rfl (by decide) <| by
    have h := FmtOQ.unpack_pack x
    generalize x.pack = r at h
    show Except.map _ (FmtOQ.unpack r) = _
    rw [h]
    rfl)

theorem Sys2Proof.Laws.Encoding.biasD (x : FmtOE) : Sys2Proof.Laws.Encoding.Statement (.biasD x) := fun _ rest =>
  decode_word 1 none 0xBC (x.pack 0) _ rest (by decide) (by decide) (decodeWord_uniform _ _ _ 0x3C _ rfl (by decide) <| by
    have h := FmtOE.unpack_pack x 0
    have e := FmtOE.fn_pack x 0
    generalize (x.pack 0) = r at h e
    show decodeGroupBC none r = _
    unfold decodeGroupBC
    rw [e]
    show Except.map _ (FmtOE.unpack r) = _
    rw [h]
    rfl)

theorem Sys2Proof.Laws.Encoding.biasH (x : FmtOE) : Sys2Proof.Laws.Encoding.Statement (.biasH x) := fun _ rest =>
  decode_word 1 none 0xBC (x.pack 1) _ rest (by decide) (by decide) (decodeWord_uniform _ _ _ 0x3C _ rfl (by decide) <| by
    have h := FmtOE.unpack_pack x 1
    have e := FmtOE.fn_pack x 1
    generalize (x.pack 1) = r at h e
    show decodeGroupBC none r = _
    unfold decodeGroupBC
    rw [e]
    show Except.map _ (FmtOE.unpack r) = _
    rw [h]
    rfl)

theorem Sys2Proof.Laws.Encoding.unpubl (x : FmtOQ) : Sys2Proof.Laws.Encoding.Statement (.unpubl x) := fun _ rest =>
  decode_word 1 none 0xBD x.pack _ rest (by decide) (by decide) (decodeWord_uniform _ _ _ 0x3D _ rfl (by decide) <| by
    have h := FmtOQ.unpack_pack x
    generalize x.pack = r at h
    show Except.map _ (FmtOQ.unpack r) = _
    rw [h]
    rfl)

theorem Sys2Proof.Laws.Encoding.uniformPipeExecute (x0) : Sys2Proof.Laws.Encoding.Statement (.uniformPipeExecute x0) := fun h => absurd h Bool.false_ne_true

theorem Sys2Proof.Laws.Encoding.uniformResultWrite (x0) : Sys2Proof.Laws.Encoding.Statement (.uniformResultWrite x0) := fun h => absurd h Bool.false_ne_true

theorem Sys2Proof.Laws.Encoding.laneResultWrite (x0) : Sys2Proof.Laws.Encoding.Statement (.laneResultWrite x0) := fun h => absurd h Bool.false_ne_true

theorem Sys2Proof.Laws.Encoding.loadReturn (x0) : Sys2Proof.Laws.Encoding.Statement (.loadReturn x0) := fun h => absurd h Bool.false_ne_true

theorem Sys2Proof.Laws.Encoding.storeAcknowledge (x0) : Sys2Proof.Laws.Encoding.Statement (.storeAcknowledge x0) := fun h => absurd h Bool.false_ne_true

theorem Sys2Proof.Laws.Encoding.formFurrow (x0) (x1) : Sys2Proof.Laws.Encoding.Statement (.formFurrow x0 x1) := fun h => absurd h Bool.false_ne_true

theorem Sys2Proof.Laws.Encoding.fillWaitExpiry (x0) (x1) : Sys2Proof.Laws.Encoding.Statement (.fillWaitExpiry x0 x1) := fun h => absurd h Bool.false_ne_true

theorem Sys2Proof.Laws.Encoding.groupPromotion (x0) (x1) : Sys2Proof.Laws.Encoding.Statement (.groupPromotion x0 x1) := fun h => absurd h Bool.false_ne_true

theorem Sys2Proof.Laws.Encoding.issueSelect (x0) (x1) : Sys2Proof.Laws.Encoding.Statement (.issueSelect x0 x1) := fun h => absurd h Bool.false_ne_true

theorem Sys2Proof.Laws.Encoding.furrowPromotion (x0) (x1) : Sys2Proof.Laws.Encoding.Statement (.furrowPromotion x0 x1) := fun h => absurd h Bool.false_ne_true

theorem Sys2Proof.Laws.Encoding.binTimerExpiry (x0) : Sys2Proof.Laws.Encoding.Statement (.binTimerExpiry x0) := fun h => absurd h Bool.false_ne_true

theorem Sys2Proof.Laws.Encoding.joinHoldExpiry (x0) (x1) : Sys2Proof.Laws.Encoding.Statement (.joinHoldExpiry x0 x1) := fun h => absurd h Bool.false_ne_true

theorem Sys2Proof.Laws.Encoding.engineQueueEntry (x0) : Sys2Proof.Laws.Encoding.Statement (.engineQueueEntry x0) := fun h => absurd h Bool.false_ne_true

theorem Sys2Proof.Laws.Encoding.matrixCommandStart (x0) : Sys2Proof.Laws.Encoding.Statement (.matrixCommandStart x0) := fun h => absurd h Bool.false_ne_true

theorem Sys2Proof.Laws.Encoding.scratchpadPortGrant (x0) : Sys2Proof.Laws.Encoding.Statement (.scratchpadPortGrant x0) := fun h => absurd h Bool.false_ne_true

theorem Sys2Proof.Laws.Encoding.matrixCommandComplete (x0) : Sys2Proof.Laws.Encoding.Statement (.matrixCommandComplete x0) := fun h => absurd h Bool.false_ne_true

theorem Sys2Proof.Laws.Encoding.wainCommandStart (x0) : Sys2Proof.Laws.Encoding.Statement (.wainCommandStart x0) := fun h => absurd h Bool.false_ne_true

theorem Sys2Proof.Laws.Encoding.pieceLanded (x0) : Sys2Proof.Laws.Encoding.Statement (.pieceLanded x0) := fun h => absurd h Bool.false_ne_true

theorem Sys2Proof.Laws.Encoding.collRootResult (x0) (x1) : Sys2Proof.Laws.Encoding.Statement (.collRootResult x0 x1) := fun h => absurd h Bool.false_ne_true

theorem Sys2Proof.Laws.Encoding.homeRequest : Sys2Proof.Laws.Encoding.Statement (.homeRequest) := fun h => absurd h Bool.false_ne_true

theorem Sys2Proof.Laws.Encoding.drain (x0) : Sys2Proof.Laws.Encoding.Statement (.drain x0) := fun h => absurd h Bool.false_ne_true

theorem Sys2Proof.Laws.Encoding.drainAcknowledge (x0) : Sys2Proof.Laws.Encoding.Statement (.drainAcknowledge x0) := fun h => absurd h Bool.false_ne_true

theorem Sys2Proof.Laws.Encoding.recall (x0) (x1) (x2) (x3) : Sys2Proof.Laws.Encoding.Statement (.recall x0 x1 x2 x3) := fun h => absurd h Bool.false_ne_true

theorem Sys2Proof.Laws.Encoding.gather (x0) (x1) (x2) (x3) : Sys2Proof.Laws.Encoding.Statement (.gather x0 x1 x2 x3) := fun h => absurd h Bool.false_ne_true

theorem Sys2Proof.Laws.Encoding.writeBack : Sys2Proof.Laws.Encoding.Statement (.writeBack) := fun h => absurd h Bool.false_ne_true

theorem Sys2Proof.Laws.Encoding.l1Eviction (x0) (x1) (x2) (x3) : Sys2Proof.Laws.Encoding.Statement (.l1Eviction x0 x1 x2 x3) := fun h => absurd h Bool.false_ne_true

theorem Sys2Proof.Laws.Encoding.ownershipRetry : Sys2Proof.Laws.Encoding.Statement (.ownershipRetry) := fun h => absurd h Bool.false_ne_true

theorem Sys2Proof.Laws.Encoding.watchRetest (x0) (x1) : Sys2Proof.Laws.Encoding.Statement (.watchRetest x0 x1) := fun h => absurd h Bool.false_ne_true

theorem Sys2Proof.Laws.Encoding.ldlatRetest (x0) (x1) : Sys2Proof.Laws.Encoding.Statement (.ldlatRetest x0 x1) := fun h => absurd h Bool.false_ne_true

theorem Sys2Proof.Laws.Encoding.objectDrop (x0) (x1) (x2) : Sys2Proof.Laws.Encoding.Statement (.objectDrop x0 x1 x2) := fun h => absurd h Bool.false_ne_true

theorem Sys2Proof.Laws.Encoding.migrationLineCopy (x0) (x1) (x2) : Sys2Proof.Laws.Encoding.Statement (.migrationLineCopy x0 x1 x2) := fun h => absurd h Bool.false_ne_true

theorem Sys2Proof.Laws.Encoding.migrationComplete (x0) (x1) (x2) : Sys2Proof.Laws.Encoding.Statement (.migrationComplete x0 x1 x2) := fun h => absurd h Bool.false_ne_true

theorem Sys2Proof.Laws.Encoding.publLineMove : Sys2Proof.Laws.Encoding.Statement (.publLineMove) := fun h => absurd h Bool.false_ne_true

theorem Sys2Proof.Laws.Encoding.publComplete : Sys2Proof.Laws.Encoding.Statement (.publComplete) := fun h => absurd h Bool.false_ne_true

theorem Sys2Proof.Laws.Encoding.hostAtomicCompletion : Sys2Proof.Laws.Encoding.Statement (.hostAtomicCompletion) := fun h => absurd h Bool.false_ne_true

theorem Sys2Proof.Laws.Encoding.hostSnoop (x0) : Sys2Proof.Laws.Encoding.Statement (.hostSnoop x0) := fun h => absurd h Bool.false_ne_true

theorem Sys2Proof.Laws.Encoding.hostMemRead (x0) (x1) (x2) (x3) : Sys2Proof.Laws.Encoding.Statement (.hostMemRead x0 x1 x2 x3) := fun h => absurd h Bool.false_ne_true

theorem Sys2Proof.Laws.Encoding.hostMemWrite (x0) (x1) (x2) (x3) (x4) : Sys2Proof.Laws.Encoding.Statement (.hostMemWrite x0 x1 x2 x3 x4) := fun h => absurd h Bool.false_ne_true

theorem Sys2Proof.Laws.Encoding.exchangeTick (x0) (x1) (x2) : Sys2Proof.Laws.Encoding.Statement (.exchangeTick x0 x1 x2) := fun h => absurd h Bool.false_ne_true

theorem Sys2Proof.Laws.Encoding.latticeMerge : Sys2Proof.Laws.Encoding.Statement (.latticeMerge) := fun h => absurd h Bool.false_ne_true

theorem Sys2Proof.Laws.Encoding.takeRecord (x0) (x1) : Sys2Proof.Laws.Encoding.Statement (.takeRecord x0 x1) := fun h => absurd h Bool.false_ne_true

theorem Sys2Proof.Laws.Encoding.tailRetest (x0) (x1) : Sys2Proof.Laws.Encoding.Statement (.tailRetest x0 x1) := fun h => absurd h Bool.false_ne_true

theorem Sys2Proof.Laws.Encoding.fieldEligible (x0) (x1) : Sys2Proof.Laws.Encoding.Statement (.fieldEligible x0 x1) := fun h => absurd h Bool.false_ne_true

theorem Sys2Proof.Laws.Encoding.placePlot : Sys2Proof.Laws.Encoding.Statement (.placePlot) := fun h => absurd h Bool.false_ne_true

theorem Sys2Proof.Laws.Encoding.gangWaitLimit : Sys2Proof.Laws.Encoding.Statement (.gangWaitLimit) := fun h => absurd h Bool.false_ne_true

theorem Sys2Proof.Laws.Encoding.gangOfOne : Sys2Proof.Laws.Encoding.Statement (.gangOfOne) := fun h => absurd h Bool.false_ne_true

theorem Sys2Proof.Laws.Encoding.restoreRoom : Sys2Proof.Laws.Encoding.Statement (.restoreRoom) := fun h => absurd h Bool.false_ne_true

theorem Sys2Proof.Laws.Encoding.plotRetirement (x0) : Sys2Proof.Laws.Encoding.Statement (.plotRetirement x0) := fun h => absurd h Bool.false_ne_true

theorem Sys2Proof.Laws.Encoding.portFaultReport (x0) : Sys2Proof.Laws.Encoding.Statement (.portFaultReport x0) := fun h => absurd h Bool.false_ne_true

theorem Sys2Proof.Laws.Encoding.haltComplete (x0) : Sys2Proof.Laws.Encoding.Statement (.haltComplete x0) := fun h => absurd h Bool.false_ne_true

theorem Sys2Proof.Laws.Encoding.haltFrameWrite (x0) : Sys2Proof.Laws.Encoding.Statement (.haltFrameWrite x0) := fun h => absurd h Bool.false_ne_true

theorem Sys2Proof.Laws.Encoding.handlerStart (x0) : Sys2Proof.Laws.Encoding.Statement (.handlerStart x0) := fun h => absurd h Bool.false_ne_true

theorem Sys2Proof.Laws.Encoding.handlerTimeout (x0) : Sys2Proof.Laws.Encoding.Statement (.handlerTimeout x0) := fun h => absurd h Bool.false_ne_true

theorem Sys2Proof.Laws.Encoding.hostEscalationAnswer (x0) (x1) (x2) : Sys2Proof.Laws.Encoding.Statement (.hostEscalationAnswer x0 x1 x2) := fun h => absurd h Bool.false_ne_true

theorem Sys2Proof.Laws.Encoding.preemptionRequest (x0) (x1) : Sys2Proof.Laws.Encoding.Statement (.preemptionRequest x0 x1) := fun h => absurd h Bool.false_ne_true

theorem Sys2Proof.Laws.Encoding.drainBudgetExpiry (x0) : Sys2Proof.Laws.Encoding.Statement (.drainBudgetExpiry x0) := fun h => absurd h Bool.false_ne_true

theorem Sys2Proof.Laws.Encoding.save (x0) : Sys2Proof.Laws.Encoding.Statement (.save x0) := fun h => absurd h Bool.false_ne_true

theorem Sys2Proof.Laws.Encoding.restore (x0) : Sys2Proof.Laws.Encoding.Statement (.restore x0) := fun h => absurd h Bool.false_ne_true

theorem Sys2Proof.Laws.Encoding.contextSwitch (x0) (x1) : Sys2Proof.Laws.Encoding.Statement (.contextSwitch x0 x1) := fun h => absurd h Bool.false_ne_true

theorem Sys2Proof.Laws.Encoding.contextCreate (x0) : Sys2Proof.Laws.Encoding.Statement (.contextCreate x0) := fun h => absurd h Bool.false_ne_true

theorem Sys2Proof.Laws.Encoding.cropRegistration (x0) : Sys2Proof.Laws.Encoding.Statement (.cropRegistration x0) := fun h => absurd h Bool.false_ne_true

theorem Sys2Proof.Laws.Encoding.swapIn (x0) (x1) : Sys2Proof.Laws.Encoding.Statement (.swapIn x0 x1) := fun h => absurd h Bool.false_ne_true

theorem Sys2Proof.Laws.Encoding.swapInComplete (x0) (x1) : Sys2Proof.Laws.Encoding.Statement (.swapInComplete x0 x1) := fun h => absurd h Bool.false_ne_true

theorem Sys2Proof.Laws.Encoding.swapInTimeout (x0) (x1) : Sys2Proof.Laws.Encoding.Statement (.swapInTimeout x0 x1) := fun h => absurd h Bool.false_ne_true

theorem Sys2Proof.Laws.Encoding.uncorrectableError (x0) : Sys2Proof.Laws.Encoding.Statement (.uncorrectableError x0) := fun h => absurd h Bool.false_ne_true

theorem Sys2Proof.Laws.Encoding.scrub (x0) (x1) : Sys2Proof.Laws.Encoding.Statement (.scrub x0 x1) := fun h => absurd h Bool.false_ne_true

theorem Sys2Proof.Laws.Encoding.flitReplay (x0) (x1) : Sys2Proof.Laws.Encoding.Statement (.flitReplay x0 x1) := fun h => absurd h Bool.false_ne_true

theorem Sys2Proof.Laws.Encoding.linkRetrainComplete (x0) : Sys2Proof.Laws.Encoding.Statement (.linkRetrainComplete x0) := fun h => absurd h Bool.false_ne_true

theorem Sys2Proof.Laws.Encoding.linkDown (x0) : Sys2Proof.Laws.Encoding.Statement (.linkDown x0) := fun h => absurd h Bool.false_ne_true

theorem Sys2Proof.Laws.Encoding.controlTimeout (x0) (x1) : Sys2Proof.Laws.Encoding.Statement (.controlTimeout x0 x1) := fun h => absurd h Bool.false_ne_true

theorem Sys2Proof.Laws.Encoding.lateAnswer : Sys2Proof.Laws.Encoding.Statement (.lateAnswer) := fun h => absurd h Bool.false_ne_true

theorem Sys2Proof.Laws.Encoding.yotisFlitLost (x0) (x1) : Sys2Proof.Laws.Encoding.Statement (.yotisFlitLost x0 x1) := fun h => absurd h Bool.false_ne_true

theorem Sys2Proof.Laws.Encoding.hostLinkDown : Sys2Proof.Laws.Encoding.Statement (.hostLinkDown) := fun h => absurd h Bool.false_ne_true

theorem Sys2Proof.Laws.Encoding.debuggerHalt (x0) : Sys2Proof.Laws.Encoding.Statement (.debuggerHalt x0) := fun h => absurd h Bool.false_ne_true

theorem Sys2Proof.Laws.Encoding.debuggerResume (x0) : Sys2Proof.Laws.Encoding.Statement (.debuggerResume x0) := fun h => absurd h Bool.false_ne_true

theorem Sys2Proof.Laws.Encoding.powerGood : Sys2Proof.Laws.Encoding.Statement (.powerGood) := fun h => absurd h Bool.false_ne_true

theorem Sys2Proof.Laws.Encoding.stageComplete (x0) (x1) : Sys2Proof.Laws.Encoding.Statement (.stageComplete x0 x1) := fun h => absurd h Bool.false_ne_true

theorem Sys2Proof.Laws.Encoding.perstDeassert : Sys2Proof.Laws.Encoding.Statement (.perstDeassert) := fun h => absurd h Bool.false_ne_true

theorem Sys2Proof.Laws.Encoding.clockRebalance (x0) (x1) (x2) : Sys2Proof.Laws.Encoding.Statement (.clockRebalance x0 x1 x2) := fun h => absurd h Bool.false_ne_true

theorem Sys2Proof.Laws.Encoding.thermalThrottle (x0) : Sys2Proof.Laws.Encoding.Statement (.thermalThrottle x0) := fun h => absurd h Bool.false_ne_true

theorem Sys2Proof.Laws.Encoding.thermalShutdown (x0) : Sys2Proof.Laws.Encoding.Statement (.thermalShutdown x0) := fun h => absurd h Bool.false_ne_true

theorem Sys2Proof.Laws.Encoding.monitorWindow (x0) (x1) : Sys2Proof.Laws.Encoding.Statement (.monitorWindow x0 x1) := fun h => absurd h Bool.false_ne_true

theorem Sys2Proof.Laws.Encoding.monitorControlWrite (x0) (x1) (x2) : Sys2Proof.Laws.Encoding.Statement (.monitorControlWrite x0 x1 x2) := fun h => absurd h Bool.false_ne_true

theorem Sys2Proof.Laws.Encoding.managementRegisterWrite (x0) (x1) : Sys2Proof.Laws.Encoding.Statement (.managementRegisterWrite x0 x1) := fun h => absurd h Bool.false_ne_true

theorem Sys2Proof.Laws.Encoding.contextDestroy (x0) : Sys2Proof.Laws.Encoding.Statement (.contextDestroy x0) := fun h => absurd h Bool.false_ne_true

theorem Sys2Proof.Laws.Encoding.contextSwitchBack (x0) : Sys2Proof.Laws.Encoding.Statement (.contextSwitchBack x0) := fun h => absurd h Bool.false_ne_true

theorem Sys2Proof.Laws.Encoding.savePool (x0) (x1) : Sys2Proof.Laws.Encoding.Statement (.savePool x0 x1) := fun h => absurd h Bool.false_ne_true

theorem Sys2Proof.Laws.Encoding.debuggerAttach (x0) (x1) : Sys2Proof.Laws.Encoding.Statement (.debuggerAttach x0 x1) := fun h => absurd h Bool.false_ne_true

theorem Sys2Proof.Laws.Encoding.debuggerAction (x0) (x1) : Sys2Proof.Laws.Encoding.Statement (.debuggerAction x0 x1) := fun h => absurd h Bool.false_ne_true

theorem Sys2Proof.Laws.Encoding.corePowerGate (x0) : Sys2Proof.Laws.Encoding.Statement (.corePowerGate x0) := fun h => absurd h Bool.false_ne_true

theorem Sys2Proof.Laws.Encoding.yotisRetrain (x0) (x1) : Sys2Proof.Laws.Encoding.Statement (.yotisRetrain x0 x1) := fun h => absurd h Bool.false_ne_true

theorem Sys2Proof.Laws.Encoding.packageReset : Sys2Proof.Laws.Encoding.Statement (.packageReset) := fun h => absurd h Bool.false_ne_true
end

