-- ==== Sys2Proof/Laws/Serves.lean ====
section
/-! SUPPORT. What the issue of a lane word does: the members take their turns, and the end of the issue gives each its outcome. -/

namespace Sys2Proof.Machine

/-! ### The members of an issue -/

/-- The members of an issue: each is a fibre of the plot, under a member's number, none twice. -/
theorem Issue.live_mem {iss : Issue} {p : Plot} {m : Nat × Fibre} (h : m ∈ iss.live p) :
    p.fibre? m.2.fid = some m.2 ∧ m.2.fid ∈ iss.members.map (·.2) := by
  obtain ⟨x, hx, e⟩ := List.mem_filterMap.1 h
  cases hf : p.fibre? x.2 with
  | none => simp [hf] at e
  | some f =>
    simp only [hf, Option.map_some, Option.some.injEq] at e
    subst e
    have hfid := Plot.fibre?_fid hf
    exact ⟨by rw [hfid]; exact hf, by rw [hfid]; exact List.mem_map_of_mem hx⟩

theorem Issue.live_nodup {iss : Issue} {p : Plot} (h : (iss.members.map (·.2)).Nodup) :
    ((iss.live p).map fun m => m.2.fid).Nodup := by
  unfold Issue.live
  generalize iss.members = l at h ⊢
  induction l with
  | nil => exact List.nodup_nil
  | cons x rest ih =>
    simp only [List.map_cons, List.nodup_cons] at h
    cases hf : p.fibre? x.2 with
    | none => simpa [hf] using ih h.2
    | some f =>
      have hfid := Plot.fibre?_fid hf
      simp only [List.filterMap_cons, hf, Option.map_some, List.map_cons, List.nodup_cons]
      refine ⟨fun hm => h.1 ?_, ih h.2⟩
      obtain ⟨m, hm, e⟩ := List.mem_map.1 hm
      obtain ⟨y, hy, e'⟩ := List.mem_filterMap.1 hm
      cases hg : p.fibre? y.2 with
      | none => simp [hg] at e'
      | some g =>
        simp only [hg, Option.map_some, Option.some.injEq] at e'
        subst e'
        refine List.mem_map.2 ⟨y, hy, ?_⟩
        rw [← Plot.fibre?_fid hg, ← hfid]
        exact e

/-- An outcome that says the same as a turn. -/
structure Agrees (c : IssueCtx) (x : Eff) (u : Turn) : Prop where
  state : u.s = x.s
  flags : u.flags = x.flg
  causes : u.causes = x.causes
  act : match x.act with
    | .seq f => u.stall = none ∧ u.fault = none ∧ u.wait = none ∧ u.f = f.advance c.iss.pc (c.iss.pc + BitVec.ofNat 40 c.size)
    | .goto f pc => u.stall = none ∧ u.fault = none ∧ u.wait = none ∧
        u.f = if pc = c.iss.pc + BitVec.ofNat 40 c.size then f.advance c.iss.pc (c.iss.pc + BitVec.ofNat 40 c.size) else { f with pc := pc }
    | .again k => u.stall = some k ∧ u.fault = none
    | .exit => False
    | .hold f j => u.stall = none ∧ u.fault = none ∧ u.wait = some (.held j) ∧
        u.f = f.advance c.iss.pc (c.iss.pc + BitVec.ofNat 40 c.size)
    | .park f k => u.stall = none ∧ u.fault = none ∧ u.wait = some (.parked k) ∧ u.f = f
    | .fault r => u.stall = none ∧ u.fault = some r

/-- The outcomes of the members of an issue. -/
def laneEffs (w : LaneWord) (iss : Issue) (p : Plot) (body : IssueCtx → State → Fibre → Eff) :
    State → List (Nat × Fibre) → List (Nat × Act × Flg × List Nat)
  | _, [] => []
  | s, m :: rest =>
    if p.waits w m.2 then (m.2.fid, .park m.2 (.uniformResult (w.ks ++ w.bs.map (· + 64))), 0, []) :: laneEffs w iss p body s rest
    else if m.2.pred w.guard then
      let x := body (iss.context p w m.1) s m.2
      (m.2.fid, x.act, x.flg, x.causes) :: laneEffs w iss p body x.s rest
    else (m.2.fid, .seq m.2, 0, []) :: laneEffs w iss p body s rest

theorem takes_iff (p : Plot) (w : LaneWord) (f : Fibre) : p.takes w f = (!p.waits w f && f.pred w.guard) := by
  unfold Plot.takes
  exact Bool.and_comm _ _

/-- The fold of the issue gives the state after the turns and the outcomes. -/
theorem fold_members (w : LaneWord) (iss : Issue) (p : Plot) (body : IssueCtx → State → Fibre → Eff) (e : IssueCtx → State → Fibre → Turn)
    (h : ∀ c s f, Agrees c (body c s f) (e c s f)) (l : List (Nat × Fibre)) (s : State) (acc : List (Nat × Act × Flg × List Nat)) :
    l.foldl (memberStep w iss p body) (s, acc) = (iss.after p w e s l, acc ++ laneEffs w iss p body s l) := by
  induction l generalizing s acc with
  | nil => simp [Issue.after, laneEffs]
  | cons m rest ih =>
    rw [List.foldl_cons]
    have hs := (h (iss.context p w m.1) s m.2).state
    have ea : iss.after p w e s (m :: rest) = iss.after p w e (if p.takes w m.2 then (e (iss.context p w m.1) s m.2).s else s) rest := rfl
    cases hw : p.waits w m.2 with
    | true =>
      have em : memberStep w iss p body (s, acc) m = (s, acc ++ [(m.2.fid, .park m.2 (.uniformResult (w.ks ++ w.bs.map (· + 64))), 0, [])]) := by
        simp [memberStep, hw]
      have el : laneEffs w iss p body s (m :: rest) =
          (m.2.fid, .park m.2 (.uniformResult (w.ks ++ w.bs.map (· + 64))), 0, []) :: laneEffs w iss p body s rest := by
        simp [laneEffs, hw]
      rw [em, ih, ea, el]
      simp [takes_iff, hw]
    | false =>
      cases hp : m.2.pred w.guard with
      | true =>
        have em : memberStep w iss p body (s, acc) m = ((body (iss.context p w m.1) s m.2).s,
            acc ++ [(m.2.fid, (body (iss.context p w m.1) s m.2).act, (body (iss.context p w m.1) s m.2).flg,
              (body (iss.context p w m.1) s m.2).causes)]) := by
          simp [memberStep, hw, hp]
        have el : laneEffs w iss p body s (m :: rest) = (m.2.fid, (body (iss.context p w m.1) s m.2).act,
            (body (iss.context p w m.1) s m.2).flg, (body (iss.context p w m.1) s m.2).causes) ::
              laneEffs w iss p body (body (iss.context p w m.1) s m.2).s rest := by
          simp [laneEffs, hw, hp]
        rw [em, ih, ea, el]
        simp [takes_iff, hw, hp, hs]
      | false =>
        have em : memberStep w iss p body (s, acc) m = (s, acc ++ [(m.2.fid, .seq m.2, 0, [])]) := by
          simp [memberStep, hw, hp]
        have el : laneEffs w iss p body s (m :: rest) = (m.2.fid, .seq m.2, 0, []) :: laneEffs w iss p body s rest := by
          simp [laneEffs, hw, hp]
        rw [em, ih, ea, el]
        simp [takes_iff, hw, hp]

theorem laneEffs_fids (w : LaneWord) (iss : Issue) (p : Plot) (body : IssueCtx → State → Fibre → Eff) (l : List (Nat × Fibre)) (s : State) :
    (laneEffs w iss p body s l).map (·.1) = l.map fun m => m.2.fid := by
  induction l generalizing s with
  | nil => rfl
  | cons m rest ih =>
    unfold laneEffs
    split
    · simp [ih]
    · split <;> simp [ih]

/-- Where an outcome comes from. -/
theorem laneEffs_mem (w : LaneWord) (iss : Issue) (p : Plot) (body : IssueCtx → State → Fibre → Eff) (l : List (Nat × Fibre)) (s : State) (q : Nat × Act × Flg × List Nat)
    (hq : q ∈ laneEffs w iss p body s l) : ∃ m ∈ l, q.1 = m.2.fid ∧
      (q.2.1 = .park m.2 (.uniformResult (w.ks ++ w.bs.map (· + 64))) ∨ q.2.1 = .seq m.2 ∨
        ∃ s', q.2.1 = (body (iss.context p w m.1) s' m.2).act) := by
  induction l generalizing s with
  | nil => simp [laneEffs] at hq
  | cons m rest ih =>
    unfold laneEffs at hq
    split at hq
    · rcases List.mem_cons.1 hq with rfl | hq
      · exact ⟨m, by simp, rfl, .inl rfl⟩
      · obtain ⟨x, hx, r⟩ := ih _ hq
        exact ⟨x, by simp [hx], r⟩
    · split at hq
      · rcases List.mem_cons.1 hq with rfl | hq
        · exact ⟨m, by simp, rfl, .inr (.inr ⟨s, rfl⟩)⟩
        · obtain ⟨x, hx, r⟩ := ih _ hq
          exact ⟨x, by simp [hx], r⟩
      · rcases List.mem_cons.1 hq with rfl | hq
        · exact ⟨m, by simp, rfl, .inr (.inl rfl)⟩
        · obtain ⟨x, hx, r⟩ := ih _ hq
          exact ⟨x, by simp [hx], r⟩

/-- A member that waits parks. -/
theorem laneEffs_waits (w : LaneWord) (iss : Issue) (p : Plot) (body : IssueCtx → State → Fibre → Eff) (l : List (Nat × Fibre)) (s : State)
    (m : Nat × Fibre) (hm : m ∈ l) (hw : p.waits w m.2 = true) :
    (m.2.fid, Act.park m.2 (.uniformResult (w.ks ++ w.bs.map (· + 64))), (0 : Flg), ([] : List Nat)) ∈ laneEffs w iss p body s l := by
  induction l generalizing s with
  | nil => simp at hm
  | cons x rest ih =>
    unfold laneEffs
    rcases List.mem_cons.1 hm with rfl | hm
    · simp [hw]
    · split
      · exact List.mem_cons_of_mem _ (ih _ hm)
      · split <;> exact List.mem_cons_of_mem _ (ih _ hm)

/-- A member whose guard is false goes on. -/
theorem laneEffs_passes (w : LaneWord) (iss : Issue) (p : Plot) (body : IssueCtx → State → Fibre → Eff) (l : List (Nat × Fibre)) (s : State)
    (m : Nat × Fibre) (hm : m ∈ l) (hp : m.2.pred w.guard = false) :
    (m.2.fid, Act.seq m.2, (0 : Flg), ([] : List Nat)) ∈ laneEffs w iss p body s l := by
  have hw : p.waits w m.2 = false := by simp [Plot.waits, hp]
  induction l generalizing s with
  | nil => simp at hm
  | cons x rest ih =>
    unfold laneEffs
    rcases List.mem_cons.1 hm with rfl | hm
    · simp [hw, hp]
    · split
      · exact List.mem_cons_of_mem _ (ih _ hm)
      · split <;> exact List.mem_cons_of_mem _ (ih _ hm)

/-- A turn is the outcome of a member. -/
theorem turns_mem (w : LaneWord) (iss : Issue) (p : Plot) (body : IssueCtx → State → Fibre → Eff) (e : IssueCtx → State → Fibre → Turn)
    (h : ∀ c s f, Agrees c (body c s f) (e c s f)) (l : List (Nat × Fibre)) (s : State) (q : Nat × Turn)
    (hq : q ∈ iss.turns p w e s l) : ∃ m ∈ l, ∃ s', p.takes w m.2 = true ∧ q.1 = m.2.fid ∧ q.2 = e (iss.context p w m.1) s' m.2 ∧
      (m.2.fid, (body (iss.context p w m.1) s' m.2).act, (body (iss.context p w m.1) s' m.2).flg,
        (body (iss.context p w m.1) s' m.2).causes) ∈ laneEffs w iss p body s l := by
  induction l generalizing s with
  | nil => simp [Issue.turns] at hq
  | cons m rest ih =>
    unfold Issue.turns at hq
    unfold laneEffs
    have hs := (h (iss.context p w m.1) s m.2).state
    cases hw : p.waits w m.2 with
    | true =>
      simp only [takes_iff, hw, Bool.not_true, Bool.false_and, Bool.false_eq_true, if_false] at hq
      obtain ⟨x, hx, s', r1, r2, r3, r4⟩ := ih _ hq
      exact ⟨x, by simp [hx], s', r1, r2, r3, by simp only [if_true]; exact List.mem_cons_of_mem _ r4⟩
    | false =>
      cases hp : m.2.pred w.guard with
      | true =>
        simp only [takes_iff, hw, hp, Bool.not_false, Bool.and_self, if_true] at hq
        simp only [Bool.false_eq_true, if_false, if_true]
        rcases List.mem_cons.1 hq with rfl | hq
        · exact ⟨m, by simp, s, by simp [takes_iff, hw, hp], rfl, rfl, by simp⟩
        · rw [hs] at hq
          obtain ⟨x, hx, s', r1, r2, r3, r4⟩ := ih _ hq
          exact ⟨x, by simp [hx], s', r1, r2, r3, List.mem_cons_of_mem _ r4⟩
      | false =>
        simp only [takes_iff, hw, hp, Bool.and_false, Bool.false_eq_true, if_false] at hq
        obtain ⟨x, hx, s', r1, r2, r3, r4⟩ := ih _ hq
        exact ⟨x, by simp [hx], s', r1, r2, r3, by simp only [Bool.false_eq_true, if_false]; exact List.mem_cons_of_mem _ r4⟩

theorem firstSome_cons {α : Type} (x : Option α) (l : List (Option α)) : firstSome (x :: l) = match x with | some a => some a | none => firstSome l := by
  cases x <;> rfl

/-- The wait of a list of outcomes, one by one. -/
theorem issueWait_cons (q : Nat × Act × Flg × List Nat) (l : List (Nat × Act × Flg × List Nat)) :
    issueWait (q :: l) = match q.2.1 with | .again w => some w | _ => issueWait l := by
  unfold issueWait
  rw [List.map_cons, firstSome_cons]
  cases q.2.1 <;> rfl

/-- The flags, the causes, the faults and the wait of the outcomes are those of the turns. -/
theorem laneEffs_sums (w : LaneWord) (iss : Issue) (p : Plot) (body : IssueCtx → State → Fibre → Eff) (e : IssueCtx → State → Fibre → Turn)
    (h : ∀ c s f, Agrees c (body c s f) (e c s f)) (l : List (Nat × Fibre)) (s : State) :
    (∀ a : Flg, (laneEffs w iss p body s l).foldl (fun a q => a ||| q.2.2.1) a =
      (iss.turns p w e s l).foldl (fun a q => a ||| q.2.flags) a) ∧
    (∀ n : Nat, ((laneEffs w iss p body s l).map fun q => (q.1, q.2.2.2)).filter (fun q => q.2.contains n) =
      ((iss.turns p w e s l).map fun q => (q.1, q.2.causes)).filter fun q => q.2.contains n) ∧
    ((laneEffs w iss p body s l).filterMap fun q => match q.2.1 with | .fault r => some (q.1, r) | _ => none) =
      ((iss.turns p w e s l).filterMap fun q => q.2.fault.map fun r => (q.1, r)) ∧
    issueWait (laneEffs w iss p body s l) = firstSome ((iss.turns p w e s l).map fun q => q.2.stall) := by
  induction l generalizing s with
  | nil => exact ⟨fun _ => rfl, fun _ => rfl, rfl, rfl⟩
  | cons m rest ih =>
    unfold Issue.turns laneEffs
    have ha := h (iss.context p w m.1) s m.2
    cases hw : p.waits w m.2 with
    | true =>
      obtain ⟨i1, i2, i3, i4⟩ := ih s
      simp only [takes_iff, hw, Bool.not_true, Bool.false_and, Bool.false_eq_true, if_false, if_true]
      exact ⟨fun a => by simpa using i1 a, fun n => by simpa using i2 n, by simpa using i3, by rw [issueWait_cons]; exact i4⟩
    | false =>
      cases hp : m.2.pred w.guard with
      | true =>
        obtain ⟨i1, i2, i3, i4⟩ := ih (body (iss.context p w m.1) s m.2).s
        simp only [takes_iff, hw, hp, Bool.not_false, Bool.and_self, Bool.false_eq_true, if_false, if_true]
        rw [ha.state]
        refine ⟨fun a => ?_, fun n => ?_, ?_, ?_⟩
        · simpa [ha.flags] using i1 _
        · have i := i2 n
          simp only [List.map_cons, List.filter_cons, ha.causes]
          rw [i]
        · have act := ha.act
          rw [List.filterMap_cons, List.filterMap_cons, i3]
          cases hx : (body (iss.context p w m.1) s m.2).act <;> simp_all
        · have act := ha.act
          rw [issueWait_cons, List.map_cons, firstSome_cons, i4]
          cases hx : (body (iss.context p w m.1) s m.2).act <;> simp_all
      | false =>
        obtain ⟨i1, i2, i3, i4⟩ := ih s
        simp only [takes_iff, hw, hp, Bool.and_false, Bool.false_eq_true, if_false]
        exact ⟨fun a => by simpa using i1 a, fun n => by simpa using i2 n, by simpa using i3, by rw [issueWait_cons]; exact i4⟩

/-- The records of an issue depend only on who adds which cause. -/
theorem logIssue_congr (s : State) (p : Plot) (pc unit ty : Nat) (l m : List (Nat × List Nat))
    (h : ∀ n : Nat, l.filter (fun q => q.2.contains n) = m.filter fun q => q.2.contains n) :
    s.logIssue p pc unit ty l = s.logIssue p pc unit ty m := by
  unfold State.logIssue
  simp only [h]

/-- An interlock holds no member exactly where none has a load on its way to a register of the word. -/
theorem unlocked_iff (s : State) (iss : Issue) (p : Plot) (w : LaneWord) :
    s.unlocked iss p w ↔ ((iss.live p).any fun m => s.interlocked p w m.2) = false := by
  unfold State.unlocked State.interlocked
  simp only [List.any_eq_false, Bool.and_eq_true, List.any_eq_true, List.contains_iff_mem, not_and, not_exists]

/-- The one lemma behind the meanings of lane words: the members of an issue take their turns, and the issue ends in a next state, or waits to
begin. -/
theorem runLane_serves (w : LaneWord) (body : IssueCtx → State → Fibre → Eff) (e : IssueCtx → State → Fibre → Turn)
    (h : ∀ c s f, Agrees c (body c s f) (e c s f)) (hf : ∀ c s f, (e c s f).f.fid = f.fid) (s : State) (iss : Issue) (p : Plot)
    (hi : Issuing s iss p) (hpriv : w.privileged = true → p.system = true) : Served (runLane w s body) s iss p w e := by
  have hn : (w.privileged && !p.system) = false := by
    cases hx : w.privileged with
    | false => rfl
    | true => simp [hpriv hx]
  have hrun : runLane w s body = match (if (iss.live p).any fun m => s.interlocked p w m.2 then some (.operands w.uses)
        else issueWait (laneEffs w iss p body s (iss.live p))) with
      | some k => .next (s.waitIssue iss k)
      | none => .next ((iss.after p w e s (iss.live p)).finish iss w p (laneEffs w iss p body s (iss.live p))) := by
    unfold runLane
    simp only [hi.issuing, hi.plot, hn, Bool.false_eq_true, if_false, fold_members w iss p body e h, List.nil_append] <;> rfl
  obtain ⟨sf, sc, sx, sw⟩ := laneEffs_sums w iss p body e h (iss.live p) s
  rw [sw] at hrun
  refine ⟨fun hu hns => ?_, fun hu => ?_, fun hu k hk => ?_⟩
  rotate_left
  · rw [unlocked_iff, Bool.not_eq_false] at hu
    rw [hrun, if_pos hu]
  · rw [unlocked_iff] at hu
    rw [hrun, if_neg (by simp [hu]), hk]
  have hrun : runLane w s body = .next ((iss.after p w e s (iss.live p)).finish iss w p (laneEffs w iss p body s (iss.live p))) := by
    rw [unlocked_iff] at hu
    have hk : firstSome ((iss.turns p w e s (iss.live p)).map fun q => q.2.stall) = none := by
      generalize iss.turns p w e s (iss.live p) = l at hns
      induction l with
      | nil => rfl
      | cons q rest ih =>
        rw [List.map_cons, firstSome_cons, hns q (by simp)]
        exact ih fun x hx => hns x (by simp [hx])
    rw [hrun, if_neg (by simp [hu]), hk]
  have nd : ((laneEffs w iss p body s (iss.live p)).map (·.1)).Nodup := by
    rw [laneEffs_fids]
    exact Issue.live_nodup hi.fids
  have src := laneEffs_mem w iss p body (iss.live p) s
  have tm := turns_mem w iss p body e h (iss.live p) s
  have tw := laneEffs_waits w iss p body (iss.live p) s
  have tp := laneEffs_passes w iss p body (iss.live p) s
  have agree (c : IssueCtx) (s' : State) (f g : Fibre)
      (hg : (body c s' f).act.fibre? iss w.size (iss.after p w e s (iss.live p) |>.cycOf iss.core) = some g) : g.fid = f.fid := by
    have a := (h c s' f).act
    have b := hf c s' f
    revert a hg
    cases (body c s' f).act <;> simp only [Act.fibre?, Option.some.injEq, reduceCtorEq, false_implies] <;> intro hg <;> subst hg
    · rintro ⟨-, -, -, a⟩
      rw [a] at b
      exact b
    · rintro ⟨-, -, -, a⟩
      rw [a] at b
      split at b <;> split <;> exact b
    · rintro ⟨-, -, -, a⟩
      rw [a] at b
      exact b
    · rintro ⟨-, -, -, a⟩
      rw [a] at b
      exact b
  obtain ⟨hend, hbec, hfau, hpark, hhold⟩ := finish_spec (iss.after p w e s (iss.live p)) iss w p (laneEffs w iss p body s (iss.live p))
    (fun q hq hx => by
      obtain ⟨m, -, -, r | r | ⟨s', r⟩⟩ := src q hq
      · rw [r] at hx
        cases hx
      · rw [r] at hx
        cases hx
      · have a := (h (iss.context p w m.1) s' m.2).act
        rw [← r, hx] at a
        exact a)
    (fun q hq g hg => by
      obtain ⟨m, -, e1, r | r | ⟨s', r⟩⟩ := src q hq
      · rw [r] at hg
        cases hg
        exact e1.symm
      · rw [r] at hg
        cases hg
        exact e1.symm
      · rw [r] at hg
        rw [e1]
        exact agree _ _ _ _ hg)
    nd
    (fun q hq => by
      obtain ⟨m, hm, e1, -⟩ := src q hq
      rw [e1]
      exact (Issue.live_mem hm).2)
  rw [sf, logIssue_congr _ _ _ _ _ _ _ sc] at hend
  replace hend := Eq.mp (congrArg (LaneEnd _ _ iss _) sx) hend
  refine ⟨_, hrun, hend, ?_, ?_, ?_, ?_⟩
  · intro q hq hnf hs
    obtain ⟨m, hm, s', ht, e1, e2, hin⟩ := tm q hq
    have a := (h (iss.context p w m.1) s' m.2).act
    rw [e1] at hs
    rw [e1, e2]
    rw [e2] at hnf
    cases hx : (body (iss.context p w m.1) s' m.2).act with
    | seq f =>
      rw [hx] at a hin
      rw [a.2.2.1, a.2.2.2]
      exact hbec _ hin hs _ rfl
    | goto f pc =>
      rw [hx] at a hin
      rw [a.2.2.1, a.2.2.2]
      exact hbec _ hin hs _ rfl
    | again k =>
      rw [hx] at a
      have n := hns q hq
      rw [e2, a.1] at n
      cases n
    | exit =>
      rw [hx] at a
      exact a.elim
    | hold f j =>
      rw [hx] at a hin
      rw [a.2.2.1, a.2.2.2]
      exact hhold _ hin hs _ _ rfl
    | park f k =>
      rw [hx] at a hin
      rw [a.2.2.1, a.2.2.2]
      exact hpark _ hin hs _ _ rfl
    | fault r =>
      rw [hx] at a
      rw [a.2] at hnf
      cases hnf
  · intro q hq hnf f hs
    obtain ⟨m, hm, s', ht, e1, e2, hin⟩ := tm q hq
    have a := (h (iss.context p w m.1) s' m.2).act
    rw [e1] at hs
    rw [e1]
    rw [e2] at hnf
    cases hx : (body (iss.context p w m.1) s' m.2).act with
    | fault r =>
      rw [hx] at hin
      exact hfau _ hin f hs r rfl
    | exit =>
      rw [hx] at a
      exact a.elim
    | seq f => rw [hx] at a; simp [a.2.1] at hnf
    | goto f pc => rw [hx] at a; simp [a.2.1] at hnf
    | again k => rw [hx] at a; simp [a.2] at hnf
    | hold f j => rw [hx] at a; simp [a.2.1] at hnf
    | park f k => rw [hx] at a; simp [a.2.1] at hnf
  · intro m hm hp hs
    exact hbec _ (tp m hm hp) hs _ rfl
  · intro m hm hw hs
    exact hpark _ (tw m hm hw) hs _ _ rfl

/-! ### A word whose members change only their own registers and flags -/

/-- The turns of such a word leave the shared state alone. -/
theorem after_pure (iss : Issue) (p : Plot) (w : LaneWord) (e : IssueCtx → State → Fibre → Turn) (he : ∀ c s f, (e c s f).s = s)
    (l : List (Nat × Fibre)) (s : State) : iss.after p w e s l = s := by
  unfold Issue.after
  induction l generalizing s with
  | nil => rfl
  | cons m rest ih =>
    rw [List.foldl_cons]
    split
    · rw [he, ih]
    · exact ih s

/-- The turns of such a word, as a list of its members. -/
theorem turns_pure (iss : Issue) (p : Plot) (w : LaneWord) (e : IssueCtx → State → Fibre → Turn) (he : ∀ c s f, (e c s f).s = s)
    (l : List (Nat × Fibre)) (s : State) :
    iss.turns p w e s l = (l.filter fun m => p.takes w m.2).map fun m => (m.2.fid, e (iss.context p w m.1) s m.2) := by
  induction l with
  | nil => rfl
  | cons m rest ih =>
    unfold Issue.turns
    cases hp : p.takes w m.2 with
    | true => simp [he, ih, hp]
    | false => simp [ih, hp]

/-- Leaving out those that add no cause changes no record. -/
theorem causes_filter (iss : Issue) (p : Plot) (w : LaneWord) (r : IssueCtx → Fibre → Fibre × Flg × List Nat) (n : Nat) (l : List (Nat × Fibre)) :
    (((l.filter fun m => p.takes w m.2).map fun m => (m.2.fid, (r (iss.context p w m.1) m.2).2.2)).filter fun q => q.2.contains n) =
      (l.map fun m => (m.2.fid, if p.takes w m.2 then (r (iss.context p w m.1) m.2).2.2 else [])).filter fun q => q.2.contains n := by
  induction l with
  | nil => rfl
  | cons m rest ih =>
    cases hp : p.takes w m.2 with
    | true =>
      simp only [List.filter_cons, List.map_cons, hp, if_true]
      rw [ih]
    | false =>
      simp only [List.filter_cons, List.map_cons, hp, Bool.false_eq_true, if_false]
      simpa using ih

/-- A word of this kind completes: the one lemma behind the meanings of arithmetic, of comparisons, conversions, lane shuffles and
capability registers. -/
theorem runPure_completes (w : LaneWord) (hw : w.privileged = false) (i : Instr) (r : IssueCtx → Fibre → Fibre × Flg × List Nat)
    (hi : ∀ s, exec i s = runPure w s r) (hr : ∀ c f, (r c f).1.fid = f.fid) : Completes i w r := by
  intro s iss p h
  let e : IssueCtx → State → Fibre → Turn := fun c t f => { Turn.next c t (r c f).1 with flags := (r c f).2.1, causes := (r c f).2.2 }
  have he : ∀ c t f, (e c t f).s = t := fun _ _ _ => rfl
  obtain ⟨serve, lock, -⟩ := runLane_serves w (fun c t f => ⟨t, .seq (r c f).1, (r c f).2.1, (r c f).2.2⟩) e
    (fun c t f => ⟨rfl, rfl, rfl, rfl, rfl, rfl, rfl⟩) (fun c t f => hr c f) s iss p h (by simp [hw])
  refine ⟨fun hu => ?_, fun hu => (hi s).trans (lock hu)⟩
  obtain ⟨t, ht, hend, hgo, -, hpass, hwait⟩ := serve hu fun q hq => by
    rw [turns_pure iss p w e he] at hq
    obtain ⟨m, -, rfl⟩ := List.mem_map.1 hq
    rfl
  rw [after_pure iss p w e he] at hend hgo hpass hwait
  rw [turns_pure iss p w e he] at hend hgo
  have some (m : Nat × Fibre) (hm : m ∈ iss.live p) : (s.fibre? iss.pid m.2.fid).isSome := by
    simp [State.fibre?, h.plot, (Issue.live_mem hm).1]
  refine ⟨t, (hi s).trans ht, ?_, fun m hm hp => hpass m hm hp (some m hm), fun m hm hp => hwait m hm hp (some m hm), ?_⟩
  · intro m hm hp
    exact hgo (m.2.fid, e (iss.context p w m.1) s m.2) (List.mem_map.2 ⟨m, List.mem_filter.2 ⟨hm, hp⟩, rfl⟩) rfl (some m hm)
  · have hflt : ((((iss.live p).filter fun m => p.takes w m.2).map fun m => (m.2.fid, e (iss.context p w m.1) s m.2)).filterMap
        fun q => q.2.fault.map fun r => (q.1, r)) = [] := by
      simp [List.filterMap_map, e, Turn.next]
    have hflg : ((((iss.live p).filter fun m => p.takes w m.2).map fun m => (m.2.fid, e (iss.context p w m.1) s m.2)).foldl
        (fun a q => a ||| q.2.flags) 0) = iss.flags p w r := by
      simp [List.foldl_map, Issue.flags, e]
    rw [hflt, hflg] at hend
    rw [logIssue_congr s p iss.pc.toNat 0 w.ty (iss.causes p w r)
      ((((iss.live p).filter fun m => p.takes w m.2).map fun m => (m.2.fid, e (iss.context p w m.1) s m.2)).map
        fun q => (q.1, q.2.causes)) fun n => ?_]
    · exact hend
    · rw [List.map_map]
      exact (causes_filter iss p w r n (iss.live p)).symm

/-! ### Words alike in an issue -/

/-- A word but for its issue cost, the line that it touches in the L1 and the end of its furrow, on which its members' turns do not depend. -/
def LaneWord.plain (w : LaneWord) : LaneWord :=
  { w with dissolves := false, cost := 1, eighths := false, touch := fun _ _ => none }

theorem turns_plain (iss : Issue) (p : Plot) (w : LaneWord) (e : IssueCtx → State → Fibre → Turn) (l : List (Nat × Fibre)) (s : State) :
    iss.turns p w.plain e s l = iss.turns p w e s l := by
  induction l generalizing s with
  | nil => rfl
  | cons m rest ih =>
    unfold Issue.turns
    rw [show p.takes w.plain m.2 = p.takes w m.2 from rfl, show iss.context p w.plain m.1 = iss.context p w m.1 from rfl]
    simp only [ih]

theorem served_plain (r : Result) (s : State) (iss : Issue) (p : Plot) (w : LaneWord) (e : IssueCtx → State → Fibre → Turn) :
    Served r s iss p w.plain e ↔ Served r s iss p w e := by
  unfold Served Ends
  rw [turns_plain]
  exact Iff.rfl

/-- Words alike in an issue are served alike. -/
theorem Served.alike {r : Result} {s : State} {iss : Issue} {p : Plot} {w w' : LaneWord} {e : IssueCtx → State → Fibre → Turn}
    (h : w.plain = w'.plain) (hs : Served r s iss p w e) : Served r s iss p w' e := by
  rw [← served_plain, ← h, served_plain]
  exact hs

/-- The turn of an effect that does not exit says the same as the effect. -/
theorem Eff.turn_agrees (x : Eff) (c : IssueCtx) (f : Fibre) (h : x.act ≠ .exit) : Agrees c x (x.turn c f) := by
  cases hx : x.act <;> simp only [Eff.turn, hx] <;> refine ⟨?_, ?_, ?_, ?_⟩ <;>
    simp_all [Turn.next, Turn.goto, Turn.again, Turn.park, Turn.raise] <;> split <;> simp_all

/-- A meaning that is one lane word serves what its members' turns say. -/
theorem serves_of_runLane {i : Instr} {w w' : LaneWord} {e : IssueCtx → State → Fibre → Turn} (body : IssueCtx → State → Fibre → Eff)
    (hi : ∀ s, exec i s = runLane w' s body) (hw : w'.plain = w.plain) (h : ∀ c s f, Agrees c (body c s f) (e c s f))
    (hf : ∀ c s f, (e c s f).f.fid = f.fid) : Serves i w e := by
  intro s iss p h1 h2
  rw [hi]
  have hp : w'.plain.privileged = w.plain.privileged := by rw [hw]
  exact (runLane_serves w' body e h hf s iss p h1 fun hx => h2 (hp.symm.trans hx)).alike hw

end Sys2Proof.Machine
end

