-- ==== Sys2Proof/Laws/Words.lean ====
section
/-! SUPPORT. The functions of the lane words as arithmetic, and what it takes for a word to complete in each shape. -/

namespace Sys2Proof.Machine

/-! ### Fields that register updates leave -/

@[simp] theorem Fibre.setV_fid (f : Fibre) (n : Nat) (w : Word) : (f.setV n w).fid = f.fid := rfl
@[simp] theorem Fibre.setVs_fid (f : Fibre) (n : Nat) (ws : List Word) : (f.setVs n ws).fid = f.fid := rfl
@[simp] theorem Fibre.setA_fid (f : Fibre) (n : Nat) (c : Cap) : (f.setA n c).fid = f.fid := rfl

@[simp] theorem Fibre.setPred_fid (f : Fibre) (n : Nat) (v : Bool) : (f.setPred n v).fid = f.fid := by
  unfold Fibre.setPred
  split <;> rfl

/-! ### Functions of words -/

theorem exactInt_eq (sat : Bool) (x : Int) : exactInt sat x = satWord sat x := by
  unfold exactInt satWord wordOfInt
  cases sat
  · simp
  · simp only [true_and, if_true]
    have e1 : (x < -2 ^ 31) ↔ x < -2147483648 := by norm_num
    have e2 : (2 ^ 31 ≤ x) ↔ 2147483647 < x := by omega
    simp only [e1, e2]

theorem signedOf_elemOf (a : Word) (e : Nat) : signedOf 8 (elemOf a 8 e) = (a.extractLsb' (8 * e) 8).toInt := by
  have h : (a.extractLsb' (8 * e) 8).toNat = elemOf a 8 e := by
    simp [elemOf, field, Nat.shiftRight_eq_div_pow]
  unfold signedOf
  rw [BitVec.toInt_eq_toNat_cond, h]
  split <;> split <;> simp_all <;> omega

theorem popcWord_eq (a : Word) : popcWord a = BitVec.ofNat 32 ((List.range 32).countP a.getLsbD) := by
  have (l : List Nat) (n : Nat) : l.foldl (fun n i => n + (a.getLsbD i).toNat) n = n + l.countP a.getLsbD := by
    induction l generalizing n with
    | nil => rfl
    | cons i rest ih =>
      rw [List.foldl_cons, ih, List.countP_cons]
      cases a.getLsbD i <;> simp <;> omega
  unfold popcWord
  rw [this]
  simp

theorem clzWord_eq (a : Word) : clzWord a = BitVec.ofNat 32 ((List.range 32).findIdx fun i => a.getLsbD (31 - i)) := by
  unfold clzWord
  congr 1
  split
  · subst_vars
    simp
    decide
  · rename_i h
    have hn : a.toNat ≠ 0 := fun e => h (BitVec.eq_of_toNat_eq (by simpa using e))
    have hl : Nat.log2 a.toNat < 32 := (Nat.log2_lt hn).2 a.isLt
    symm
    rw [List.findIdx_eq (by simp; omega)]
    constructor
    · simp only [List.getElem_range]
      have : 31 - (31 - Nat.log2 a.toNat) = Nat.log2 a.toNat := by omega
      rw [this, BitVec.getLsbD, Nat.testBit_log2 hn]
    · intro j hj
      simp only [List.getElem_range]
      rw [BitVec.getLsbD]
      apply Nat.testBit_lt_two_pow
      exact lt_of_lt_of_le (Nat.lt_log2_self) (Nat.pow_le_pow_right (by omega) (by omega))

theorem foldBits (g : Nat → Bool) (n : Nat) : (List.range n).foldl (fun s i => s + (g i).toNat * 2 ^ i) 0 < 2 ^ n ∧
    ∀ j, ((List.range n).foldl (fun s i => s + (g i).toNat * 2 ^ i) 0).testBit j = (decide (j < n) && g j) := by
  induction n with
  | zero => simp
  | succ n ih =>
    rw [List.range_succ, List.foldl_append, List.foldl_cons, List.foldl_nil]
    generalize (List.range n).foldl (fun s i => s + (g i).toNat * 2 ^ i) 0 = m at ih ⊢
    obtain ⟨hm, ht⟩ := ih
    cases hg : g n with
    | false =>
      refine ⟨by rw [Nat.pow_succ]; simp; omega, fun j => ?_⟩
      simp only [Bool.toNat_false, Nat.zero_mul, Nat.add_zero, ht]
      by_cases hj : j = n
      · simp [hj, hg]
      · have : j < n + 1 ↔ j < n := by omega
        simp [this]
    | true =>
      refine ⟨by rw [Nat.pow_succ]; simp; omega, fun j => ?_⟩
      simp only [Bool.toNat_true, Nat.one_mul]
      have e : m + 2 ^ n = 2 ^ n * 1 ||| m := by rw [← Nat.two_pow_add_eq_or_of_lt hm]; omega
      rw [e, Nat.testBit_or, ht, Nat.mul_one, Nat.testBit_two_pow]
      by_cases hj : j = n
      · simp [hj, hg]
      · have : j < n + 1 ↔ j < n := by omega
        simp [this, Ne.symm hj]

theorem brevWord_eq (a : Word) : brevWord a = a.reverse := by
  unfold brevWord
  apply BitVec.eq_of_getLsbD_eq
  intro i hi
  rw [BitVec.getLsbD_ofNat, (foldBits _ 32).2, BitVec.getLsbD_reverse, BitVec.getMsbD]
  simp [hi]
theorem condition_eq (n : Nat) (a b : Word) : condition n a b = icond n a b := by
  match n with
  | 0 => exact (Bool.eq_iff_iff.mpr (decide_eq_true_iff.trans beq_iff_eq.symm))
  | 1 => exact (Bool.eq_iff_iff.mpr (decide_eq_true_iff.trans bne_iff_ne.symm))
  | 2 => rfl
  | 3 => rfl
  | 4 => rfl
  | 5 => rfl
  | 6 => rfl
  | 7 => rfl
  | 8 => rfl
  | _ + 9 => rfl

theorem bfiWord_eq (a b c : Word) : bfiWord a b c = BitVec.ofFnLE fun i : Fin 32 =>
      if b.toNat % 32 ≤ i ∧ (i : Nat) < b.toNat % 32 + min (b.toNat / 256 % 64) 32 then a.getLsbD (i - b.toNat % 32) else c.getLsbD i := by
  have hf : field b.toNat 8 6 = b.toNat / 256 % 64 := by simp [field]
  unfold bfiWord
  rw [hf]
  generalize b.toNat % 32 = p
  generalize min (b.toNat / 256 % 64) 32 = n
  apply BitVec.eq_of_getLsbD_eq
  intro i hi
  have hm : ((2 ^ n - 1) * 2 ^ p).testBit i = decide (p ≤ i ∧ i < p + n) := by
    rw [Nat.testBit_mul_two_pow, Nat.testBit_two_pow_sub_one]
    rw [Bool.eq_iff_iff]
    simp
    omega
  have ha : (a.toNat * 2 ^ p).testBit i = (decide (p ≤ i) && a.getLsbD (i - p)) := by
    rw [Nat.testBit_mul_two_pow]
    rfl
  simp only [BitVec.getLsbD_or, BitVec.getLsbD_and, BitVec.getLsbD_not, BitVec.getLsbD_ofNat, hi, hm, ha, decide_true, Bool.true_and]
  rw [BitVec.getLsbD_ofFnLE]
  simp only [hi, dif_pos]
  by_cases h : p ≤ i ∧ i < p + n <;> simp [h]

theorem movi_eq (ih : BitVec 3) (il : BitVec 14) : (ih ++ il).toNat = ih.toNat * 2 ^ 14 + il.toNat := by
  rw [BitVec.toNat_append, Nat.shiftLeft_eq, Nat.mul_comm, Nat.two_pow_add_eq_or_of_lt il.isLt]

theorem divuWord_eq (a b : Word) : divuWord a b = if b = 0 then (0xFFFFFFFF, flgDZ, [2]) else (a / b, 0, []) := by
  unfold divuWord
  split
  · rfl
  · congr 1
    apply BitVec.eq_of_toNat_eq
    simp only [BitVec.toNat_ofNat, BitVec.toNat_udiv]
    exact Nat.mod_eq_of_lt (lt_of_le_of_lt (Nat.div_le_self _ _) a.isLt)

theorem divWord_eq (sat : Bool) (a b : Word) : divWord sat a b = if b = 0 then (0xFFFFFFFF, flgDZ, [2])
    else ((exactInt sat (a.toInt.tdiv b.toInt)).1, (exactInt sat (a.toInt.tdiv b.toInt)).2, []) := by
  unfold divWord
  split
  · rfl
  · split
    · rename_i h
      obtain ⟨rfl, rfl⟩ := h
      cases sat <;> decide
    · rename_i h0 h
      have hlt : a.toInt.tdiv b.toInt < 2 ^ 31 ∧ -2 ^ 31 ≤ a.toInt.tdiv b.toInt := by
        have h1 : a.toInt < 2147483648 := by simpa using a.toInt_lt (w := 32)
        have h2 : -2147483648 ≤ a.toInt := by simpa using a.le_toInt (w := 32)
        have hb0 : b.toInt ≠ 0 := fun e => h0 (BitVec.eq_of_toInt_eq (by simpa using e))
        have habs : (a.toInt.tdiv b.toInt).natAbs ≤ a.toInt.natAbs := by
          rw [Int.natAbs_tdiv]
          exact Nat.div_le_self _ _
        by_cases hm : b.toInt = -1
        · rw [hm]
          have : a.toInt ≠ -2147483648 := by
            intro e
            apply h
            exact ⟨BitVec.eq_of_toInt_eq (by rw [e]; decide), BitVec.eq_of_toInt_eq (by rw [hm]; decide)⟩
          rw [Int.tdiv_neg, Int.tdiv_one]
          omega
        · constructor
          · by_contra hc
            have : a.toInt.natAbs = 2147483648 := by omega
            have e : a.toInt = -2147483648 := by omega
            have hn : (a.toInt.tdiv b.toInt).natAbs = 2147483648 := by omega
            rw [Int.natAbs_tdiv, this] at hn
            have hb1 : b.toInt.natAbs = 1 := by
              by_contra hb
              have h2 : 2 ≤ b.toInt.natAbs := by omega
              have := Nat.div_le_div_left (a := 2147483648) h2 (by decide)
              have : Nat.div 2147483648 b.toInt.natAbs ≤ 1073741824 := this
              change Nat.div 2147483648 b.toInt.natAbs = _ at hn
              omega
            have hb' : b.toInt = 1 := by omega
            rw [hb', Int.tdiv_one] at hc
            omega
          · omega
      unfold exactInt
      rw [if_neg (by omega), if_neg (by omega)]
      rfl

theorem ofNat_mul_two_pow (a : Word) (n : Nat) : BitVec.ofNat 32 (a.toNat * 2 ^ n) = a <<< n := by
  apply BitVec.eq_of_toNat_eq
  simp [BitVec.toNat_shiftLeft, Nat.shiftLeft_eq]

theorem ofNat_div_two_pow (a : Word) (n : Nat) : BitVec.ofNat 32 (a.toNat / 2 ^ n) = a >>> n := by
  apply BitVec.eq_of_toNat_eq
  simp only [BitVec.toNat_ofNat, BitVec.toNat_ushiftRight, Nat.shiftRight_eq_div_pow]
  exact Nat.mod_eq_of_lt (lt_of_le_of_lt (Nat.div_le_self _ _) a.isLt)

theorem ofInt_div_two_pow (a : Word) (n : Nat) : BitVec.ofInt 32 (a.toInt / 2 ^ n) = a.sshiftRight n := by
  apply BitVec.eq_of_toInt_eq
  rw [BitVec.toInt_sshiftRight, BitVec.toInt_ofInt, Int.shiftRight_eq_div_pow]
  have h1 : a.toInt < 2147483648 := by simpa using a.toInt_lt (w := 32)
  have h2 : -2147483648 ≤ a.toInt := by simpa using a.le_toInt (w := 32)
  have hp : (0 : Int) < 2 ^ n := by positivity
  have h3 : a.toInt / 2 ^ n < 2147483648 := by
    rw [Int.ediv_lt_iff_lt_mul hp]
    have : (1 : Int) ≤ 2 ^ n := by exact_mod_cast Nat.one_le_two_pow
    nlinarith
  have h4 : -2147483648 ≤ a.toInt / 2 ^ n := by
    rw [Int.le_ediv_iff_mul_le hp]
    have : (1 : Int) ≤ 2 ^ n := by exact_mod_cast Nat.one_le_two_pow
    nlinarith
  push_cast
  rw [Int.bmod_eq_of_le] <;> omega


/-! ### Shapes -/

/-- A word completes as r says where its meaning is a run whose members become the same. -/
theorem Completes.of {w : LaneWord} {i : Instr} {r : IssueCtx → Fibre → Fibre × Flg × List Nat} (body : IssueCtx → Fibre → Fibre × Flg × List Nat)
    (hi : ∀ s, exec i s = runPure w s body) (hw : w.privileged = false) (hr : ∀ c f, (body c f).1.fid = f.fid) (e : ∀ c f, r c f = body c f) :
    Completes i w r := by
  obtain rfl : r = body := funext fun c => funext fun f => e c f
  exact runPure_completes w hw i r hi hr

theorem Binary.of {i : Instr} {x : FmtR} {op op' : Word → Word → Word × Flg} (hi : ∀ s, exec i s = binOp x s op')
    (e : ∀ a b, op a b = op' a b) : Binary i x op := by
  obtain rfl : op = op' := funext fun a => funext fun b => e a b
  exact runPure_completes _ rfl _ _ hi fun _ _ => rfl

theorem Immediate.of {i : Instr} {x : FmtR} {op op' : Word → Word → Word × Flg} (hi : ∀ s, exec i s = binOpImm x s op')
    (e : ∀ a b, op a b = op' a b) : Immediate i x op := by
  obtain rfl : op = op' := funext fun a => funext fun b => e a b
  exact runPure_completes _ rfl _ _ hi fun _ _ => rfl

theorem Ternary.of {i : Instr} {x : FmtR} {op op' : Word → Word → Word → Word × Flg} (hi : ∀ s, exec i s = triOp x s op')
    (e : ∀ a b c, op a b c = op' a b c) : Ternary i x op := by
  obtain rfl : op = op' := funext fun a => funext fun b => funext fun c => e a b c
  exact runPure_completes _ rfl _ _ hi fun _ _ => rfl

theorem Unary.of {i : Instr} {x : FmtU} {op op' : Word → Word × Flg} (hi : ∀ s, exec i s = unOp x s op') (e : ∀ a, op a = op' a) :
    Unary i x op := by
  obtain rfl : op = op' := funext fun a => e a
  exact runPure_completes _ rfl _ _ hi fun _ _ => rfl

end Sys2Proof.Machine
end

