-- ==== Sys2Proof/WellFormed.lean ====
section
/-! DEFINITION. Well-formed instruction words: what R71 point 2 checks beyond the decoder, for the widest window. -/

namespace Sys2Proof

/-- An instruction word that passes the checks of R71 point 2 in a plot of 96 v registers. -/
def WellFormed (i : Instr) : Bool :=
  Machine.checkWord 96 i

end Sys2Proof
end

