-- ==== Sys2Proof/Tests/Slice0.lean ====
section
/-! SUPPORT. Tests of the model: words of the spec's encodings and what they decode to, ill-formed words that the checks refuse, one step
of some instructions with results worked out by hand from the rules, and for the statements' hypotheses states that meet them. -/

namespace Sys2Proof.Tests

set_option Elab.async false

open Sys2Proof.Machine

/-! ### Decoding: words written out from the encodings of R60 to R70 -/

/-- The decoder reads an instruction of a given form from a word whose bits are w, no second word. -/
def reads (w : Nat) (p : Instr → Bool) : Bool :=
  (decodeTableWord 32 w).any p

/-- The decoder reads an instruction from a prefix word x and the word w after it. -/
def pair (x w : Nat) : Option Instr :=
  decodeTableWord 64 (x + w * 2 ^ 32)

/-! The match word of each row of the opcode table: its fixed bits, every operand field zero. -/

theorem test_match_words_iadd : ([
    reads 0x01000000 (· matches .iadd ..),
    reads 0x1A000000 (· matches .iaddLi ..),
    reads 0x02000000 (· matches .isub ..),
    reads 0x03000000 (· matches .imul ..),
    reads 0x04000000 (· matches .imulh ..),
    reads 0x05000000 (· matches .imulhU ..),
    reads 0x06000000 (· matches .imad ..),
    reads 0x07000000 (· matches .idiv ..),
    reads 0x08000000 (· matches .idivU ..),
    reads 0x09000000 (· matches .imin ..),
    reads 0x0A000000 (· matches .iminU ..),
    reads 0x0B000000 (· matches .imax ..),
    reads 0x0C000000 (· matches .imaxU ..),
    reads 0x0D000000 (· matches .iaddc ..)] : List Bool).all id = true := by
  decide +kernel

theorem test_match_words_isubb : ([
    reads 0x0E000000 (· matches .isubb ..),
    reads 0x0F000000 (· matches .and ..),
    reads 0x1B000000 (· matches .andLi ..),
    reads 0x10000000 (· matches .or ..),
    reads 0x1C000000 (· matches .orLi ..),
    reads 0x11000000 (· matches .xor ..),
    reads 0x1D000000 (· matches .xorLi ..),
    reads 0x12000000 (· matches .shl ..),
    reads 0x1E000000 (· matches .shlLi ..),
    reads 0x13000000 (· matches .shr ..),
    reads 0x1F000000 (· matches .shrLi ..),
    reads 0x14000000 (· matches .sar ..),
    reads 0x20000000 (· matches .sarLi ..),
    reads 0x15000000 (· matches .rol ..)] : List Bool).all id = true := by
  decide +kernel

theorem test_match_words_bfx : ([
    reads 0x16000000 (· matches .bfx ..),
    reads 0x17000000 (· matches .bfi ..),
    reads 0x18000000 (· matches .isel ..),
    reads 0x19000000 (· matches .icmp ..),
    reads 0x21000000 (· matches .icmpLi ..),
    reads 0x22000000 (· matches .iabs ..),
    reads 0x22000001 (· matches .ineg ..),
    reads 0x22000002 (· matches .not ..),
    reads 0x22000003 (· matches .popc ..),
    reads 0x22000004 (· matches .clz ..),
    reads 0x22000005 (· matches .brev ..),
    reads 0x22000006 (· matches .mov ..),
    reads 0x23000000 (· matches .movi ..),
    reads 0x24000000 (· matches .pand ..)] : List Bool).all id = true := by
  decide +kernel

theorem test_match_words_por : ([
    reads 0x24000008 (· matches .por ..),
    reads 0x24000010 (· matches .pxor ..),
    reads 0x24000018 (· matches .pnot ..),
    reads 0x25000000 (· matches .p2v ..),
    reads 0x25000001 (· matches .v2p ..),
    reads 0x26000000 (· matches .bara ..),
    reads 0x27000000 (· matches .barw ..),
    reads 0x28000000 (· matches .bart ..),
    reads 0x29000000 (· matches .cnarrow ..),
    reads 0x2A000000 (· matches .cright ..),
    reads 0x2B000000 (· matches .cmov ..),
    reads 0x2C000000 (· matches .cbase ..),
    reads 0x2C000001 (· matches .clen ..),
    reads 0x2C000002 (· matches .cvalid ..)] : List Bool).all id = true := by
  decide +kernel

theorem test_match_words_mfsr : ([
    reads 0x2D000000 (· matches .mfsr ..),
    reads 0x2E000000 (· matches .mtsr ..),
    reads 0x2FE00000 (· matches .eret ..),
    reads 0x2FE00001 (· matches .halt ..),
    reads 0x2FE00002 (· matches .dbgb ..),
    reads 0x30000000 (· matches .fadd ..),
    reads 0x31000000 (· matches .fsub ..),
    reads 0x32000000 (· matches .fmul ..),
    reads 0x33000000 (· matches .ffma ..),
    reads 0x34000000 (· matches .fmin ..),
    reads 0x35000000 (· matches .fmax ..),
    reads 0x36000000 (· matches .fcmp ..),
    reads 0x37000000 (· matches .dot4 ..),
    reads 0x38000000 (· matches .fdot2 ..)] : List Bool).all id = true := by
  decide +kernel

theorem test_match_words_fcvt : ([
    reads 0x3E000000 (· matches .fcvt ..),
    reads 0x3F000000 (· matches .fclass ..),
    reads 0x3F000001 (· matches .frnd ..),
    reads 0x40000000 (· matches .exp2 ..),
    reads 0x40000001 (· matches .log2 ..),
    reads 0x40000002 (· matches .rcp ..),
    reads 0x40000003 (· matches .rsq ..),
    reads 0x40000004 (· matches .sqrt ..),
    reads 0x40000005 (· matches .sin ..),
    reads 0x40000006 (· matches .cos ..),
    reads 0x40000007 (· matches .tanh ..),
    reads 0x40000008 (· matches .sigm ..),
    reads 0x41000000 (· matches .shflIdx ..),
    reads 0x42000000 (· matches .shflUp ..)] : List Bool).all id = true := by
  decide +kernel

theorem test_match_words_shflDn : ([
    reads 0x43000000 (· matches .shflDn ..),
    reads 0x44000000 (· matches .shflXor ..),
    reads 0x45000000 (· matches .voteAny ..),
    reads 0x45000001 (· matches .voteAll ..),
    reads 0x45000002 (· matches .voteBal ..),
    reads 0x46000000 (· matches .lredAdd ..),
    reads 0x46000001 (· matches .lredMin ..),
    reads 0x46000002 (· matches .lredMax ..),
    reads 0x46000003 (· matches .lredAnd ..),
    reads 0x46000004 (· matches .lredOr ..),
    reads 0x46000005 (· matches .lredXor ..),
    reads 0x46000006 (· matches .lredMinU ..),
    reads 0x46000007 (· matches .lredMaxU ..),
    reads 0x47000000 (· matches .matchLanes ..)] : List Bool).all id = true := by
  decide +kernel

theorem test_match_words_ld8 : ([
    reads 0x48000000 (· matches .ld8 ..),
    reads 0x49000000 (· matches .ld16 ..),
    reads 0x4A000000 (· matches .ld32 ..),
    reads 0x4B000000 (· matches .ld64 ..),
    reads 0x4C000000 (· matches .ld128 ..),
    reads 0x4D000000 (· matches .ld8S ..),
    reads 0x4E000000 (· matches .ld16S ..),
    reads 0x4F000000 (· matches .st8 ..),
    reads 0x50000000 (· matches .st16 ..),
    reads 0x51000000 (· matches .st32 ..),
    reads 0x52000000 (· matches .st64 ..),
    reads 0x53000000 (· matches .st128 ..),
    reads 0x54000000 (· matches .lds8 ..),
    reads 0x55000000 (· matches .lds16 ..)] : List Bool).all id = true := by
  decide +kernel

theorem test_match_words_lds32 : ([
    reads 0x56000000 (· matches .lds32 ..),
    reads 0x57000000 (· matches .lds64 ..),
    reads 0x58000000 (· matches .lds128 ..),
    reads 0x59000000 (· matches .lds8S ..),
    reads 0x5A000000 (· matches .lds16S ..),
    reads 0x5B000000 (· matches .sts8 ..),
    reads 0x5C000000 (· matches .sts16 ..),
    reads 0x5D000000 (· matches .sts32 ..),
    reads 0x5E000000 (· matches .sts64 ..),
    reads 0x5F000000 (· matches .sts128 ..),
    reads 0x60000000 (· matches .lda ..),
    reads 0x61000000 (· matches .str ..),
    reads 0x62000000 (· matches .ldk ..),
    reads 0x63000000 (· matches .atomAdd ..)] : List Bool).all id = true := by
  decide +kernel

theorem test_match_words_atomMin : ([
    reads 0x63000001 (· matches .atomMin ..),
    reads 0x63000002 (· matches .atomMax ..),
    reads 0x63000006 (· matches .atomExch ..),
    reads 0x63000007 (· matches .atomCas ..),
    reads 0x65000000 (· matches .redAdd ..),
    reads 0x65000001 (· matches .redMin ..),
    reads 0x65000002 (· matches .redMax ..),
    reads 0x66000000 (· matches .pref ..),
    reads 0x67000000 (· matches .waitaEq ..),
    reads 0x67000001 (· matches .waitaNe ..),
    reads 0x67000002 (· matches .waitaGe ..),
    reads 0x6A000000 (· matches .publ ..),
    reads 0x6B000000 (· matches .cld ..),
    reads 0x6C000000 (· matches .cst ..)] : List Bool).all id = true := by
  decide +kernel

theorem test_match_words_fence : ([
    reads 0x6D000000 (· matches .fence ..),
    reads 0x6E000000 (· matches .wait ..),
    reads 0x6F000000 (· matches .bra ..),
    reads 0x70000000 (· matches .braJ ..),
    reads 0x71000000 (· matches .brx ..),
    reads 0x72000000 (· matches .call ..),
    reads 0x73000000 (· matches .loop ..),
    reads 0x74000000 (· matches .spawn ..),
    reads 0x75E00000 (· matches .join ..),
    reads 0x76000000 (· matches .nop ..),
    reads 0x76000001 (· matches .ret ..),
    reads 0x76000002 (· matches .exit ..),
    reads 0x76E00003 (· matches .yield ..),
    reads 0x76E00004 (· matches .bind ..)] : List Bool).all id = true := by
  decide +kernel

theorem test_match_words_unbind : ([
    reads 0x76E00005 (· matches .unbind ..),
    reads 0x76000006 (· matches .pmark ..),
    reads 0x77000000 (· matches .sign ..),
    reads 0x78000000 (· matches .cvset ..),
    reads 0x79000000 (· matches .s2v ..),
    reads 0x7A000000 (· matches .pdlog ..),
    reads 0x7B000000 (· matches .trap ..),
    reads 0x7C000000 (· matches .sysc ..),
    reads 0x81000000 (· matches .uadd ..),
    reads 0x82000000 (· matches .usub ..),
    reads 0x83000000 (· matches .umul ..),
    reads 0x84000000 (· matches .umad ..),
    reads 0x85000000 (· matches .uand ..),
    reads 0x86000000 (· matches .uor ..)] : List Bool).all id = true := by
  decide +kernel

theorem test_match_words_uxor : ([
    reads 0x87000000 (· matches .uxor ..),
    reads 0x88000000 (· matches .ushl ..),
    reads 0x89000000 (· matches .ushr ..),
    reads 0x8A000000 (· matches .umin ..),
    reads 0x8B000000 (· matches .umax ..),
    reads 0x8C000000 (· matches .umov ..),
    reads 0x8D000000 (· matches .ucmp ..),
    reads 0x8E000000 (· matches .usel ..),
    reads 0x8F000000 (· matches .ucnar ..),
    reads 0x90000000 (· matches .uaddUi ..),
    reads 0x91000000 (· matches .uandUi ..),
    reads 0x92000000 (· matches .uorUi ..),
    reads 0x93000000 (· matches .ushlUi ..),
    reads 0x94000000 (· matches .ushrUi ..)] : List Bool).all id = true := by
  decide +kernel

theorem test_match_words_umovi : ([
    reads 0x95000000 (· matches .umovi ..),
    reads 0xA0000000 (· matches .sbld ..),
    reads 0xA1000000 (· matches .mmrun ..),
    reads 0xA2000000 (· matches .mmout ..),
    reads 0xA3000000 (· matches .mtab ..),
    reads 0xA4000000 (· matches .mbias ..),
    reads 0xA8000000 (· matches .copyGs ..),
    reads 0xA8000001 (· matches .copySg ..),
    reads 0xA8000002 (· matches .copyGg ..),
    reads 0xA9000000 (· matches .tcopyGs ..),
    reads 0xA9000001 (· matches .tcopySg ..),
    reads 0xAA000000 (· matches .copypIn ..),
    reads 0xAA000001 (· matches .copypOut ..),
    reads 0xAB000000 (· matches .coll ..)] : List Bool).all id = true := by
  decide +kernel

theorem test_match_words_barinit : ([
    reads 0xAC000000 (· matches .barinit ..),
    reads 0xB0000000 (· matches .sow ..),
    reads 0xB1000000 (· matches .ldlayer ..),
    reads 0xB2000000 (· matches .rellayer ..),
    reads 0xB8000000 (· matches .mint ..),
    reads 0xB9000000 (· matches .seal ..),
    reads 0xBA000000 (· matches .objinv ..),
    reads 0xBB000000 (· matches .migr ..),
    reads 0xBC000001 (· matches .biasH ..),
    reads 0xBC000000 (· matches .biasD ..),
    reads 0xBD000000 (· matches .unpubl ..)] : List Bool).all id = true := by
  decide +kernel

/-! Words of the spec's examples: guard, registers, immediates and prefix fields each in its place. -/

theorem test_lane_words :
    decodeTableWord 32 0x01610286 = some (.iadd ⟨3, 4, 5, 6, none⟩) ∧
    decodeTableWord 32 0x0DE20206 = some (.iaddc ⟨7, 8, 4, 6, none⟩) ∧
    pair 0x7E010B00 0x33E2048A = some (.ffma ⟨7, 8, 9, 10, some ⟨0, 1, 0, 11, 0⟩⟩) ∧
    pair 0x7E180405 0x39E20103 = some (.qdotE2m1 ⟨7, 8, 2, 3, ⟨3, 0, 0, 4, 5⟩⟩) ∧
    decodeTableWord 32 0x24E00010 = some (.pxor ⟨7, 0, 0, 0⟩) ∧
    decodeTableWord 32 0x26E20205 = some (.bara ⟨7, 8, 4, 5, none⟩) ∧
    decodeTableWord 32 0x27E00208 = some (.barw ⟨7, 4, 8, none⟩) ∧
    decodeTableWord 32 0x29E08084 = some (.cnarrow ⟨7, 2, 1, 4, none⟩) ∧
    decodeTableWord 32 0x2AE0C102 = some (.cright ⟨7, 3, 2, 2, none⟩) := by
  decide +kernel

theorem test_system_words :
    decodeTableWord 32 0x2DE10000 = some (.mfsr ⟨7, 4, 0, none⟩) ∧
    decodeTableWord 32 0x2EE00305 = some (.mtsr ⟨7, 6, 5, none⟩) ∧
    decodeTableWord 32 0x2FE00200 = some (.eret ⟨4, none⟩) ∧
    decodeTableWord 32 0x2FE00001 = some (.halt ⟨none⟩) ∧
    decodeTableWord 32 0x2FE00002 = some (.dbgb ⟨none⟩) ∧
    decodeTableWord 32 0x7BE00005 = some (.trap ⟨7, 5⟩) ∧
    decodeTableWord 32 0x7CE0000C = some (.sysc ⟨7, 12⟩) := by
  decide +kernel

theorem test_memory_words :
    decodeTableWord 32 0x4AE20390 = some (.ld32 ⟨7, 8, 7, 2, 0, none⟩) ∧
    decodeTableWord 32 0x50E2718B = some (.st16 ⟨7, 9, 99, 1, 3, none⟩) ∧
    decodeTableWord 32 0x56E20384 = some (.lds32 ⟨7, 8, 7, 4, none⟩) ∧
    pair 0x7E000400 0x60E20118 = some (.lda ⟨7, 8, 2, 3, 0, some ⟨0, 0, 0, 4, 0⟩⟩) ∧
    pair 0x7EA00000 0x63E20390 = some (.atomAdd ⟨7, 8, 7, 2, some ⟨20, 0, 0, 0, 0⟩⟩) ∧
    pair 0x7E100A00 0x68E20119 = some (.ldlat ⟨7, 8, 2, 3, 1, ⟨2, 0, 0, 10, 0⟩⟩) ∧
    pair 0x7E380000 0x69E30209 = some (.ljoin ⟨7, 12, 4, 1, 1, ⟨7, 0, 0, 0, 0⟩⟩) ∧
    decodeTableWord 32 0x6AE2C523 = some (.publ ⟨7, 11, 10, 4, 3⟩) ∧
    decodeTableWord 32 0x6DE00004 = some (.fence ⟨7, 4⟩) ∧
    decodeTableWord 32 0x6E000FF0 = some (.wait ⟨0, 0, 15, 15⟩) := by
  decide +kernel

theorem test_control_words :
    decodeTableWord 32 0x70208005 = some (.braJ ⟨1, 2, 5, none⟩) ∧
    decodeTableWord 32 0x73028001 = some (.loop ⟨0, 5, 1, none⟩) ∧
    decodeTableWord 32 0x74E20014 = some (.spawn ⟨7, 8, 20, none⟩) ∧
    decodeTableWord 32 0x75E00003 = some (.join ⟨3⟩) ∧
    decodeTableWord 32 0x76E00381 = some (.ret ⟨7, 7, none⟩) ∧
    decodeTableWord 32 0x77E00001 = some (.sign ⟨7, 1⟩) ∧
    decodeTableWord 32 0x78200003 = some (.cvset ⟨1, 3⟩) := by
  decide +kernel

theorem test_function_words :
    decodeTableWord 32 0x76E00000 = some (.nop ⟨7, none⟩) ∧
    decodeTableWord 32 0x76E00002 = some (.exit ⟨7, none⟩) ∧
    decodeTableWord 32 0x76E00003 = some (.yield ⟨none⟩) ∧
    decodeTableWord 32 0x76E00004 = some (.bind ⟨none⟩) ∧
    decodeTableWord 32 0x76E00005 = some (.unbind ⟨none⟩) ∧
    decodeTableWord 32 0x76E00006 = some (.pmark ⟨7, none⟩) := by
  decide +kernel

theorem test_uniform_words :
    decodeTableWord 32 0x81220A30 = some (.uadd ⟨1, 4, 5, 6, none⟩) ∧
    decodeTableWord 32 0x8D010622 = some (.ucmp ⟨0, 2, 3, 4, 2, none⟩) ∧
    decodeTableWord 32 0x90020001 = some (.uaddUi ⟨0, 4, 1, none⟩) ∧
    decodeTableWord 32 0x95040064 = some (.umovi ⟨0, 8, 100, none⟩) := by
  decide +kernel

theorem test_engine_words :
    decodeTableWord 32 0xA0020401 = some (.sbld ⟨0, 1, 2, 1⟩) ∧
    decodeTableWord 32 0xA1240001 = some (.mmrun ⟨1, 2, 1⟩) ∧
    decodeTableWord 32 0xA2060007 = some (.mmout ⟨0, 3, 1, 1, 1⟩) ∧
    decodeTableWord 32 0xA4080000 = some (.mbias ⟨0, 4, 0, 0⟩) ∧
    decodeTableWord 32 0xA30A0000 = some (.mtab ⟨0, 5, 0, 0⟩) ∧
    decodeTableWord 32 0xA8040604 = some (.copyGs ⟨0, 2, 3, 1⟩) ∧
    decodeTableWord 32 0xAC020000 = some (.barinit ⟨0, 1⟩) ∧
    decodeTableWord 32 0xB0040200 = some (.sow ⟨0, 2, 1⟩) ∧
    decodeTableWord 32 0xB1020C10 = some (.ldlayer ⟨0, 4, 6, 2, 0⟩) ∧
    decodeTableWord 32 0xB2020C10 = some (.rellayer ⟨0, 4, 6, 2⟩) ∧
    decodeTableWord 32 0xB8019000 = some (.mint ⟨0, 3, 2, 0⟩) := by
  decide +kernel

/-- Words that always carry a prefix (R151, R284), and those whose type has no prefix-free code (R147, R148, R265): FPACK of FP16, element
pair 0; FUNPK of FP16, element 1; ATOM and RED of U32 by function code. -/
theorem test_prefixed_words :
    pair 0x7E180405 0x3AE20103 = some (.qdotInt4 ⟨7, 8, 2, 3, ⟨3, 0, 0, 4, 5⟩⟩) ∧
    pair 0x7E180405 0x3BE20103 = some (.qdotUint4 ⟨7, 8, 2, 3, ⟨3, 0, 0, 4, 5⟩⟩) ∧
    pair 0x7EA00000 0x63E20393 = some (.atomAnd ⟨7, 8, 7, 2, some ⟨20, 0, 0, 0, 0⟩⟩) ∧
    pair 0x7EA00000 0x63E20394 = some (.atomOr ⟨7, 8, 7, 2, some ⟨20, 0, 0, 0, 0⟩⟩) ∧
    pair 0x7EA00000 0x63E20395 = some (.atomXor ⟨7, 8, 7, 2, some ⟨20, 0, 0, 0, 0⟩⟩) ∧
    pair 0x7EA00000 0x65E20393 = some (.redAnd ⟨7, 8, 7, 2, some ⟨20, 0, 0, 0, 0⟩⟩) ∧
    pair 0x7EA00000 0x65E20394 = some (.redOr ⟨7, 8, 7, 2, some ⟨20, 0, 0, 0, 0⟩⟩) ∧
    pair 0x7EA00000 0x65E20395 = some (.redXor ⟨7, 8, 7, 2, some ⟨20, 0, 0, 0, 0⟩⟩) ∧
    pair 0x7EA00000 0x64E20390 = some (.atomInc ⟨7, 8, 7, 2, some ⟨20, 0, 0, 0, 0⟩⟩) ∧
    pair 0x7E080000 0x3CE20205 = some (.fpack ⟨7, 8, 4, 5, some ⟨1, 0, 0, 0, 0⟩⟩) ∧
    pair 0x7E080000 0x3DE20201 = some (.funpk ⟨7, 8, 4, 1, some ⟨1, 0, 0, 0, 0⟩⟩) ∧
    decodeTableWord 32 0x39E20103 = none ∧ decodeTableWord 32 0x68E20119 = none ∧ decodeTableWord 32 0x69E30209 = none := by
  decide +kernel

/-! ### Well-formed words: an ill-formed one for each check of R61, R62, R66 and R71 -/

/-- A word that is in order, in the widest window; a v register outside a window of 16; a k register as a destination (R61). -/
theorem test_register_fields :
    WellFormed (.iadd ⟨7, 4, 5, 99, none⟩) = true ∧ checkWord 16 (.iadd ⟨7, 16, 5, 6, none⟩) = false ∧
    checkWord 16 (.iadd ⟨7, 4, 16, 6, none⟩) = false ∧ WellFormed (.iadd ⟨7, 96, 5, 6, none⟩) = false ∧
    WellFormed (.ld64 ⟨7, 9, 5, 1, 0, none⟩) = false ∧ WellFormed (.ld128 ⟨7, 10, 5, 1, 0, none⟩) = false ∧
    WellFormed (.cnarrow ⟨7, 2, 1, 5, none⟩) = false ∧ WellFormed (.st64 ⟨7, 97, 5, 1, 0, none⟩) = false := by
  decide +kernel

/-- Prefix fields that the entry does not accept; reserved rounding modes; a prefix of zeros is none (R66, R67). -/
theorem test_prefix_fields :
    WellFormed (.iadd ⟨7, 4, 5, 6, some ⟨0, 0, 1, 0, 0⟩⟩) = true ∧ WellFormed (.and ⟨7, 4, 5, 6, some ⟨0, 0, 0, 0, 0⟩⟩) = true ∧
    WellFormed (.and ⟨7, 4, 5, 6, some ⟨0, 0, 1, 0, 0⟩⟩) = false ∧ WellFormed (.iadd ⟨7, 4, 5, 6, some ⟨1, 0, 0, 0, 0⟩⟩) = false ∧
    WellFormed (.iadd ⟨7, 4, 5, 6, some ⟨0, 1, 0, 0, 0⟩⟩) = false ∧ WellFormed (.iadd ⟨7, 4, 5, 6, some ⟨0, 0, 0, 5, 0⟩⟩) = false ∧
    WellFormed (.iadd ⟨7, 4, 5, 6, some ⟨0, 0, 0, 0, 1⟩⟩) = false ∧ WellFormed (.fadd ⟨7, 4, 5, 6, some ⟨0, 6, 0, 0, 0⟩⟩) = false ∧
    WellFormed (.iaddc ⟨7, 4, 5, 6, some ⟨0, 0, 0, 8, 0⟩⟩) = false ∧ WellFormed (.uadd ⟨0, 4, 5, 6, some ⟨0, 1, 0, 0, 0⟩⟩) = false := by
  decide +kernel

/-- SBLD without .G names no b register: A is zero (R165); what the host reads: PART 0x4128, STEP 0xB0, 4 dies of 32 cores, 8 stacks of 48 GB, 12
ports, FEAT 0x1F (R467), and READY after stage 6 (R469). -/
theorem test_engine_fields_and_host :
    WellFormed (.sbld ⟨0, 1, 2, 1⟩) = true ∧ WellFormed (.sbld ⟨0, 1, 2, 0⟩) = false ∧ WellFormed (.mtab ⟨0, 1, 2, 0⟩) = false ∧
    WellFormed (.mbias ⟨0, 1, 2, 0⟩) = false ∧ capabilityList = 0x1F0C30082004B04128 ∧
    Status.word ⟨true, 6, true, 0, 0, true, none, false⟩ = 0xD ∧ State.reset.readCapabilityList = none := by
  decide +kernel

/-- Types that the entry does not accept (R141, R146 to R148, R151, R264, R265, R284). -/
theorem test_types :
    WellFormed (.fadd ⟨7, 4, 5, 6, some ⟨1, 0, 0, 0, 0⟩⟩) = false ∧ WellFormed (.fclass ⟨7, 4, 5, some ⟨3, 0, 0, 0, 0⟩⟩) = false ∧
    WellFormed (.fpack ⟨7, 4, 5, 6, some ⟨20, 0, 0, 0, 0⟩⟩) = false ∧ WellFormed (.fpack ⟨7, 4, 5, 6, some ⟨1, 0, 0, 0, 1⟩⟩) = false ∧
    WellFormed (.funpk ⟨7, 4, 5, 2, some ⟨1, 0, 0, 0, 0⟩⟩) = false ∧ WellFormed (.fcvt ⟨7, 4, 5, 24, none⟩) = false ∧
    WellFormed (.fcvt ⟨7, 5, 4, 0, some ⟨22, 0, 0, 0, 0⟩⟩) = false ∧ WellFormed (.qdotE2m1 ⟨7, 8, 2, 3, ⟨3, 0, 0, 4, 8⟩⟩) = false ∧
    WellFormed (.qdotE2m1 ⟨7, 8, 2, 3, ⟨0, 0, 0, 4, 5⟩⟩) = false ∧ WellFormed (.atomAnd ⟨7, 8, 7, 2, none⟩) = false ∧
    WellFormed (.atomInc ⟨7, 8, 7, 2, some ⟨21, 0, 0, 0, 0⟩⟩) = false ∧ WellFormed (.ldlat ⟨7, 8, 2, 3, 1, ⟨9, 0, 0, 10, 0⟩⟩) = false ∧
    WellFormed (.ljoin ⟨7, 12, 4, 1, 1, ⟨7, 0, 0, 4, 0⟩⟩) = false := by
  decide +kernel

/-- Reserved codes of conditions, sizes, scopes, hints, special and system registers, barriers, loops and counts (R71 point 2).
Steps that are no instruction words are not well formed. -/
theorem test_reserved_codes :
    WellFormed (.icmp ⟨7, 10, 1, 4, 5, none⟩) = false ∧ WellFormed (.fcmp ⟨7, 8, 1, 4, 5⟩) = false ∧
    WellFormed (.ucmp ⟨0, 2, 3, 4, 6, none⟩) = false ∧ WellFormed (.lda ⟨7, 8, 2, 3, 2, none⟩) = false ∧
    WellFormed (.str ⟨7, 8, 2, 3, 0, some ⟨0, 0, 0, 6, 0⟩⟩) = false ∧ WellFormed (.ldk ⟨7, 8, 2, 3, 3⟩) = false ∧
    WellFormed (.pref ⟨7, 2, 4, 1, 0, none⟩) = false ∧ WellFormed (.publ ⟨7, 4, 5, 1, 6⟩) = false ∧
    WellFormed (.fence ⟨7, 6⟩) = false ∧ WellFormed (.s2v ⟨7, 4, 14⟩) = false ∧
    WellFormed (.mfsr ⟨7, 4, 15, none⟩) = false ∧ WellFormed (.mtsr ⟨7, 4, 0, some ⟨0, 0, 0, 0, 1⟩⟩) = false ∧
    WellFormed (.bara ⟨7, 8, 4, 5, some ⟨0, 0, 0, 0, 16⟩⟩) = false ∧ WellFormed (.loop ⟨3, 5, 1, none⟩) = false ∧
    WellFormed (.loop ⟨0, 5, 0, none⟩) = false ∧ WellFormed (.spawn ⟨7, 97, 1, none⟩) = false ∧
    WellFormed (.cvset ⟨1, 0⟩) = false ∧ WellFormed (.cvset ⟨1, 1025⟩) = false ∧ WellFormed (.ucnar ⟨0, 2, 1, 6, none⟩) = false ∧
    WellFormed (.homeRequest) = false := by
  decide +kernel

/-! ### States that meet the statements' hypotheses -/

/-- A plot at system level on core 0 with one fibre, all registers zero. -/
def plot : Plot :=
  fetchPlot 0

/-- Its fibre. -/
def fibre : Fibre :=
  { Fibre.launched 0 96 0 0 (List.replicate 8 .null) 0 with run := .inFurrow }

/-- The issue of its fibre. -/
def issue : Issue :=
  { pid := 0, core := 0, furrow := some (0, 0), pc := 0, members := [(0, 0)] }

/-- A READY package with context 0 and one plot, whose fibre's issue is in progress. -/
def running (p : Plot) : State :=
  { State.reset with status := ⟨true, 6, true, 0, 0, true, none, false⟩, ctxs := [fetchCtx], plots := [p], issuing := some issue, nextPid := 1 }

/-- The same at a cycle of die 0. -/
def runningAt (cyc : Nat) (p : Plot) : State :=
  { running p with dies := [{ Die.reset 0 with cyc := cyc }] }

/-- The same with core 0 as given. -/
def onCore (s : State) (k : Core → Core) : State :=
  { s with cores := [k (.reset 0)] }

/-- The plot with its fibre as given. -/
def withFibre (f : Fibre) : Plot :=
  { plot with fibres := [f] }

/-- Context 0 with four objects and object 2 as list 0. -/
def tableCtx : Ctx :=
  { fetchCtx with otne := 4, ll := [2 ^ 24 + 2, 0, 0, 0, 0, 0, 0, 0] }

/-- The 64 bits of an entry above and below that the tests need: page table offset, one page, VALID, kind, rights (R395). -/
def entryBits (ptoff kind rights more : Nat) : Nat :=
  ptoff * 2 ^ 88 + 2 ^ 64 + 2 ^ 63 + kind * 2 ^ 58 + rights * 2 ^ 48 + more

/-- Objects of context 0: 1 is code, sealed; 2 is data, every right; 3 is a lattice of MAX64. Each has one resident CACHED page. -/
def withObjects (s : State) : State :=
  let desc (frame : Nat) : Nat := frame * 2 ^ 32 + 2 ^ 14
  [(64, leBytes 16 (entryBits 256 1 5 (2 ^ 62))), (128, leBytes 16 (entryBits 264 0 0x1FF 0)),
    (192, leBytes 16 (entryBits 272 2 0x1FF (2 * 2 ^ 44))), (256, leBytes 8 (desc 1)), (264, leBytes 8 (desc 2)),
    (272, leBytes 8 (desc 3))].foldl (fun u q =>
      match tableCtx.addr0 q.1 with
      | some a => u.store a q.2
      | none => u) { s with ctxs := [tableCtx] }

theorem witness_encoding :
    (Instr.nop ⟨7, none⟩).isWord = true ∧ decode [0x86, 0x02, 0x61, 0x01] = .ok (.iadd ⟨3, 4, 5, 6, none⟩, 4, []) ∧
    (0x00000001 : BitVec 32).extractLsb' 24 7 = 0 ∧ (0x7F000000 : BitVec 32).extractLsb' 24 7 = 0x7F ∧
    (0x7E000000 : BitVec 32).extractLsb' 24 7 = 0x7E ∧ (0x81000000 : BitVec 32).extractLsb' 24 7 ≠ 0x7E ∧
    (0x7E000000 : BitVec 32).extractLsb' 31 1 ≠ (0x81000000 : BitVec 32).extractLsb' 31 1 := by
  decide +kernel

/-- A word of memory is fetched, decodes, passes the checks (StepRunsDecodedInstruction). -/
theorem witness_step_runs :
    let s := State.reset.withFetchWord 32 0x76E00000
    s.issuing = some issue ∧ s.plot? issue.pid = some plot ∧ s.fetch plot issue.pc = .ok (0x76E00000, 0) ∧
    decodeWords 0x76E00000 0 = .ok (.nop ⟨7, none⟩, 4) ∧ checkWord plot.window (.nop ⟨7, none⟩) = true ∧
    (s.fetchWord plot 0 0).toOption.isSome = true := by
  decide +kernel

/-- A word that cannot be fetched, one that does not decode, one that fails the checks; a plot at user level (FaultsBeforeExecution). -/
theorem witness_faults_before :
    ((running plot).fetch plot 0).toOption = none ∧
    (State.reset.withFetchWord 32 0x00000000).fetch plot 0 = .ok (0, 0) ∧ decodeWords 0 0 = .error .unassignedOp ∧
    (State.reset.withFetchWord 32 0x18E00060).fetch plot 0 = .ok (0x18E00060, 0) ∧
    decodeWords 0x18180060 0 = .ok (.isel ⟨0, 96, 0, 96, none⟩, 4) ∧ checkWord plot.window (.isel ⟨0, 96, 0, 96, none⟩) = false ∧
    ({ plot with system := false } : Plot).system = false := by
  decide +kernel

/-- An issue of the plot's fibre is in progress, as every completion statement asks. -/
theorem witness_issuing (p : Plot) (h : p.pid = 0) : Issuing (running p) issue p :=
  ⟨rfl, by simp [running, State.plot?, issue, h], by decide⟩

theorem witness_alone (p : Plot) (h : p.pid = 0) (f : Fibre) (hf : p.fibre? 0 = some f) (h0 : f.fid = 0) : Alone (running p) issue p f :=
  ⟨rfl, by simp [running, State.plot?, issue, h], by simp [issue, h0], by rw [h0]; exact hf⟩

/-- A member that takes part, one whose guard is false, one that waits for k4 of an instance that it has signed. -/
theorem witness_members :
    issue.live plot = [(0, fibre)] ∧ plot.takes { guard := 7 } fibre = true ∧ fibre.pred 1 = false ∧
    ({ plot with c := [{ CSet.free with insts := [⟨0, some (.uaddUi ⟨0, 4, 1, none⟩), 0, 4, [⟨0, false⟩], [0], true, true, false, none⟩] }] } : Plot).waits
      { codes := [100] } fibre = true := by
  decide +kernel

/-- Goes on: nothing in progress, and an issue of a plot that exists (MachineNeverStops). -/
theorem witness_goes_on : State.reset.issuing = none ∧ ((running plot).plot? issue.pid).isSome = true := by
  decide +kernel

/-- A canonical memory that is not empty, and a step from it (StepKeepsMemory, StoreWritesItsBytes). -/
theorem witness_memory :
    State.MemOk (State.reset.withFetchWord 32 0x76E00000) ∧
    (match step (State.reset.withFetchWord 32 0x76E00000) with
    | .next _ => true
    | _ => false) = true :=
  ⟨⟨by decide +kernel, by decide +kernel, by decide +kernel⟩, by decide +kernel⟩

/-- Numbers 1, 3 and 4 are FP32 values (ValuesRoundToThemselves, RoundingTakesANeighbour, MinMaxCompareClassRound, Conversion). -/
theorem witness_numbers :
    isFinite 0 0x3F800000 ∧ isFinite 0 0x40400000 ∧ isFinite 0 0x40800000 ∧ numberOf 0 0x40800000 = 4 ∧
    (codeVal 0 0x7F800000).isInf = true ∧ isFinite 1 0x3C00 := by
  refine ⟨by decide +kernel, by decide +kernel, by decide +kernel, ?_, by decide +kernel, by decide +kernel⟩
  have h : (codeVal 0 0x40800000).dy.m = 8388608 ∧ (codeVal 0 0x40800000).dy.e = -21 := by decide +kernel
  rw [numberOf, h.1, h.2]
  norm_num

/-- One capability that passes, and one for each fault of R79: untagged, without the right, out of bounds, misaligned (CapabilityCheck,
DerivedCapabilitiesGainNothing). -/
theorem witness_capabilities :
    (Cap.make 2 0 64 rightR 0 true).check 60 4 rightR 4 allKinds = .ok (2, 60) ∧
    (Cap.make 2 0 64 rightR 0 false).tag = false ∧ (Cap.make 2 0 64 rightR 0 true).rights.testBit 1 = false ∧
    (Cap.make 2 0 64 rightR 0 true).len < 61 + 4 ∧ ((Cap.make 2 0 64 rightR 0 true).base + 2) % 4 ≠ 0 ∧
    ((Cap.make 2 0 64 rightR 0 true).narrow 32 16).check 12 4 rightR 4 allKinds = .ok (2, 44) ∧
    ((Cap.make 2 0 64 3 0 true).maskRights 1).check 60 4 rightR 4 allKinds = .ok (2, 60) := by
  decide +kernel

/-- Entry 1 of object 0 is VALID and SEALED (SealingIsIrrevocable). -/
theorem witness_sealed :
    let s := withObjects (running plot)
    Memory.wf s.mem = true ∧ s.ctx? tableCtx.num = some tableCtx ∧ 1 < tableCtx.otne.toNat ∧
    (BitVec.ofNat 512 (s.read0 tableCtx (64 * 1) 64)).getLsbD 63 = true ∧ (BitVec.ofNat 512 (s.read0 tableCtx (64 * 1) 64)).getLsbD 62 = true := by
  decide +kernel

/-- Data object 2 as the port finds it, once cacheable and once not; an L1 line whose bytes a load finds (PlainAccessesInTheL1); an atomic
of it that no core owns (AtomicAtHome). -/
theorem witness_accesses :
    let s := withObjects (running plot)
    let k : Core → Core := fun k => { k with lines := [⟨0, 2, 0, .clean, [(0, 7), (1, 8)], [], [], [], [], 0, none, [], 0, true, 0⟩] }
    (match s.port 0 0 true 0 2 rightR 0 with
    | .ok h => h.cacheable && !s.poisoned h.addr 4 && !({ h with desc := { h.desc with home := 1 } } : PortHit).cacheable
    | .error _ => false) = true ∧
    (onCore s k).l1Bytes ⟨0, 0, 0, 0, 0, true⟩ 2 0 2 0 = [some (7, false), some (8, false)] ∧ (s.core 0).lines = [] ∧ s.owners = [] ∧
    plot.uncommitted = false := by
  decide +kernel

/-- A loop counter that ends at an address, with the inner ones at rest; then none that ends there (TransfersAndLoops). -/
theorem witness_loops :
    let l : LoopCtr := ⟨2, 0, 4, 8⟩
    ({ fibre with lc := [l, ⟨0, 0, 0, 0⟩, ⟨0, 0, 0, 0⟩] } : Fibre).lc = [l, ⟨0, 0, 0, 0⟩, ⟨0, 0, 0, 0⟩] ∧ l.last = 8 ∧ l.count ≠ 0 ∧
    ∀ c ∈ fibre.lc, c.count = 0 ∨ c.last ≠ 8 := by
  decide +kernel

/-- A furrow of the issue, bound and not; a join slot whose openers have all arrived, and one that waits for an opener (BranchJoinBind,
Joins). -/
theorem witness_furrow_and_slot :
    let fu : Furrow := ⟨0, 0, 0, 0, [(0, 0)], 0, true, 0, false, none⟩
    ((onCore (running plot) fun k => { k with furrows := [fu] }).furrowOf issue = some fu) ∧
    ((onCore (running plot) fun k => { k with furrows := [{ fu with bound := false }] }).furrowOf issue = some { fu with bound := false }) ∧
    (running plot).furrowOf issue = none ∧
    plot.halt = none ∧ plot.jhold + 5 ≤ plot.jhold + 9 ∧
    (let y : JSlot := ⟨[0], [(0, 5)], [(0, 3)], some 5⟩; y.arrived ≠ [] ∧ ∀ f ∈ y.opened, ∃ q ∈ y.arrived, q.1 = f ∧ q.2 ≤ 5) ∧
    (let y : JSlot := ⟨[0], [(0, 5)], [(0, 3)], some 5⟩; ∃ f ∈ y.opened, ∀ q ∈ y.arrived, ¬(q.1 = f ∧ q.2 ≤ 4)) ∧
    (let y : JSlot := ⟨[0, 1], [(0, 5)], [(0, 3)], some 5⟩; ∃ f ∈ y.opened, ∀ q ∈ y.arrived, q.1 ≠ f) ∧ 3 < plot.j.length := by
  decide +kernel

/-- SPAWN finds a FID and a window (SpawnMarkSetRead). -/
theorem witness_spawn : ((running plot).spawn plot fibre 8 20 3).isSome = true := by
  decide +kernel

/-- A member that no load holds, one that waits for a load into v4; bytes that an earlier access of the fibre has outstanding and bytes that
none has; BRX's entry in the L1 (LatticeWords, GlobalLoadsAndStores, TransfersAndLoops). -/
theorem witness_interlocks :
    let w : LaneWord := { codes := [4], dst := [5] }
    let q : HomeReq := { pid := 0, fid := 0, pc := 0, core := 0, ctx := 0, system := true, cap := .null, obj := 2, off := 8, op := .load 4 false 4 }
    let s : State := { running plot with homeQ := [⟨[q], 0, 0, 0, false⟩] }
    let l : L1Line := ⟨0, 2, 0, .clean, [(0, 7), (1, 8), (2, 0), (3, 0)], [], [], [], [], 0, none, [], 0, true, 0⟩
    (running plot).loading 0 0 = [] ∧ s.loading 0 0 = [4] ∧ 4 ∈ w.uses ∧ plot.takes w fibre = true ∧ issue.live plot = [(0, fibre)] ∧
    s.bytesBusy 0 0 2 8 4 = true ∧ s.bytesBusy 0 0 2 12 4 = false ∧
    (onCore (running plot) fun k => { k with lines := [l] }).l1Bytes ⟨0, 0, 0, 0, 0, true⟩ 2 0 4 0 =
      [some (7, false), some (8, false), some (0, false), some (0, false)] := by
  decide +kernel

/-- An atomic on object 2, which is no launch list here, of an issue that no log waits for (AtomicAtHome). -/
theorem witness_atomic :
    let s : State := { withObjects (running plot) with ctxs := [{ tableCtx with ll := [] }] }
    (s.ctx? 0).any (fun k => !k.isList 2 && k.exlog.toNat % 2 ^ 24 != 2 && k.crops.isEmpty) = true ∧ s.issueLogs = [] ∧ (s.plot? 0).isSome = true ∧
    (s.port 0 0 true 0 2 rightR 0).toOption.any (fun h => !s.poisoned h.addr (atomSize 20)) = true := by
  decide +kernel

/-- Layer 0 of a crop whose table is object 3, its residency word as given (ObjectWords). -/
def withLayer (w : Nat) : State :=
  let s := withObjects (running plot)
  let c := { tableCtx with crops := [⟨0, 3, 2, 0, [⟨1, .host 0, 65536, 0⟩], [], none⟩] }
  let t := (tableCtx.addr0 192).elim s fun a => s.store a (leBytes 16 (entryBits 272 3 0x3FF (2 * 2 ^ 44)))
  let t : State := { t with ctxs := [c] }
  match t.port 0 0 true 3 3 rightR 0 with
  | .ok h => t.store h.addr (leBytes 8 w)
  | .error _ => t

/-- The plot with a k0 of its own. -/
def withKreg (n : Word) : Plot :=
  { plot with k := n :: plot.k.drop 1 }

/-- A layer that is not resident, one on its way, one that has failed, a layer that the crop has not, one for which an LDLAYER is parked; a resident one whose reference is counted and given back; a capability that fails the check
before the crop is looked for; a publish-free state (ObjectWords). -/
theorem witness_layers :
    let b := Cap.make 3 0 4096 0x3FF 3 true
    let word (w : Nat) : Option Nat :=
      match (withLayer w).layerCheck plot 0 b with
      | .ok (k, l) => ((withLayer w).testWord plot k l).toOption.map (· % 4)
      | .error _ => none
    word 0 = some 0 ∧ word 1 = some 1 ∧ word 2 = some 2 ∧ ((withLayer 2).countWord 0 2 0) = (0, false, 0) ∧
    addRef plot.layers 0 0 = some [⟨0, 0, 1⟩] ∧ dropRef [⟨0, 0, 1⟩] 0 0 = some [] ∧
    (match (withLayer 2).layerCheck plot 0 .null with
    | .error e => e.code != .layx
    | .ok _ => false) = true ∧ word 3 = some 3 ∧ (withLayer 2).countOpen 0 = true ∧ dropRef plot.layers 0 0 = none ∧
    (match (withLayer 2).layerCheck (withKreg 7) 0 b with
    | .error e => (e.code, e.obj, e.off, e.acc) == (.layx, 3, 56, 1)
    | .ok _ => false) = true ∧
    (match (withLayer 2).layerOf ⟨0, 4, 6, 2, 0⟩ plot { num := 0, code := none, pc := 0, size := 4, sigs := [], req := [], complete := true, executed := false, retried := false, park := some ⟨0, 0, 6⟩ } with
    | .ok (k, l) => k.num == 0 && l == 0
    | .error _ => false) = true ∧ (withLayer 2).publishes = [] ∧ (withLayer 2).readers = [] ∧
    (withLayer 2).signersQuiet plot ⟨0, none, 0, 4, [⟨0, false⟩], [0], true, false, false, none⟩ = true := by
  decide +kernel

/-- The words of ten system registers (SystemRegisters): a launch list without SYS, one with SYS where lists of the system are not enabled. -/
theorem witness_lists :
    fetchCtx.ll.length = 8 ∧ (0x01000002 : Word).getLsbD 25 = false ∧ (0x03000002 : Word).getLsbD 25 = true ∧ fetchCtx.sysLists = false := by
  decide +kernel

/-- A plot without a halt, one with a record of this fibre, one with a record of another (FaultsStartOneHalt). -/
theorem witness_halts :
    let h := Halt.start 0 0 1 [(0, .precise .illop 0)] false
    plot.halt = none ∧ (∃ q ∈ h.recs, q.1 = 0) ∧ ∀ q ∈ h.recs, q.1 ≠ 1 := by
  decide +kernel

/-- EXIT's fibre, alone in its plot; a handler's plot; plots at both levels outside a handler (ExitAndReturn). -/
theorem witness_exit :
    plot.fibre? 0 = some fibre ∧ fibre.pred 7 = true ∧ plot.handler = none ∧ (∀ y ∈ plot.c, y.insts = []) ∧ (∀ y ∈ plot.j, y = .empty) ∧
    plot.system = true ∧ ({ plot with handler := some 9 } : Plot).fibre? 0 = some fibre ∧
    ({ plot with system := false } : Plot).fibre? 0 = some fibre := by
  decide +kernel

/-- A barrier that an arrival completes, one that it does not, one without the tag, one full (BarrierArrival). -/
theorem witness_barriers :
    let init (arr exp : Nat) : Barrier := ⟨0xB, 0, arr, exp, 0, 0⟩
    let s (b : Barrier) : State := (running plot).setBarrier (scratchAddr 0) b
    (s (init 1 2)).barrier (scratchAddr 0) = init 1 2 ∧ (1 + 1) % 2048 = (init 1 2).exp ∧ (s (init 0 2)).barrier (scratchAddr 0) = init 0 2 ∧
    ((running plot).barrier (scratchAddr 0)).tag ≠ 0xB ∧ (init 2 2).arr = (init 2 2).exp ∧ Memory.wf (s (init 0 2)).mem = true := by
  decide +kernel

/-- An issue whose fibre is the only member of set c0 and of a closed set c1 (UniformAluWords, EngineCommands, ObjectWords). -/
theorem witness_solo : Solo (running plot) issue plot fibre 0 :=
  ⟨witness_alone plot rfl fibre (by decide +kernel) rfl, rfl, by decide, by decide, rfl, Or.inl rfl, by decide +kernel,
    rfl, by decide, by decide, rfl, rfl, rfl⟩

theorem witness_solo_set :
    let p := { plot with c := .free :: ⟨1, 1, [0], true, [], 0, 0⟩ :: plot.c.drop 2 }
    Solo (running p) issue p fibre 1 :=
  ⟨witness_alone _ rfl fibre (by decide +kernel) rfl, rfl, by decide, by decide, rfl, Or.inr rfl, by decide +kernel,
    rfl, by decide, by decide, rfl, rfl, rfl⟩

/-- MINT's capability lies within the entry of object 2; object 9 has no entry; object 2 may be sealed through b0 (ObjectWords). -/
theorem witness_mint :
    let c := Cap.make 2 0 4096 rightR 0 true
    let s := withObjects (running plot)
    (match s.entry? tableCtx 2 with
    | some e => decide (c.kind = e.kind) && rightsWithin c.rights e.ceiling && decide (c.base + c.len ≤ 65536 * e.npages)
    | none => false) = true ∧
    c.bits.extractLsb' 18 6 = 0 ∧ c.bits.extractLsb' 0 4 = 0 ∧ s.entry? tableCtx 9 = none ∧ plot.k.length = 64 ∧
    (Cap.make 2 0 4096 0x1FF 0 true).rights.testBit 6 = true := by
  decide +kernel

/-- A member of a set that is not closed, of one with its fourth instance open, of one with an instance of another PC; the pipe's oldest
complete instance; a result on the way (SigningAndCompletion). -/
theorem witness_signing :
    let i : Inst := ⟨0, some (.uaddUi ⟨0, 4, 1, none⟩), 8, 4, [⟨1, false⟩], [0, 1], false, false, false, none⟩
    let p := { plot with c := ⟨0, 0, [], false, [i], 0, 1⟩ :: ⟨2, 1, [0], false, [], 0, 0⟩ :: plot.c.drop 2 }
    fibre.fid ∈ p.membersOf 0 ∧ fibre.fid ∉ p.membersOf 2 ∧ fibre.fid ∈ p.membersOf 1 ∧ (p.cset 1).closed = false ∧
    (p.cset 0).insts.find? (fun j => j.num == fibre.seqOf 0) = some i ∧ seqAhead (fibre.seqOf 0) (p.cset 0).low < 4 ∧
    4 ≤ seqAhead (({ fibre with seq := [4, 0, 0, 0, 0, 0, 0, 0] } : Fibre).seqOf 0) (p.cset 0).low ∧
    (let q := { p with c := ⟨0, 0, [], false, [{ i with complete := true }], 0, 1⟩ :: p.c.drop 1 }
      let s := onCore (running q) fun k => { k with pipeWait := [⟨0, 0, 0, 5⟩], results := [⟨0, 0, 0, .k 4 1, 0⟩] }
      s.pipeDue 0 = true ∧ s.pipeNext 0 = some ⟨0, 0, 0, 5⟩ ∧ (∀ p ∈ s.plots, p.prio ≤ 8 ∧ p.order < 2 ^ 64) ∧
      (s.core 0).results.find? (fun r => decide (r.due ≤ s.cycOf 0)) = some ⟨0, 0, 0, .k 4 1, 0⟩) := by
  decide +kernel

/-! ### Subjects of the part's own steps -/

/-- A fault record, and a halt in a phase. -/
def record : FaultRec :=
  .precise .illop 0

def haltIn (ph : HaltPhase) : Halt :=
  { Halt.start 0 0 FaultCode.illop.num [(0, record)] false with phase := ph }

/-- A command of the plot: the word and its descriptor. -/
def command (i : Instr) (desc : BitVec 128) : Cmd :=
  { pid := 0, order := 0, code := i, pc := 0, desc := desc, src := .null, dst := .null, seed := 0, first := 0, signers := [0] }

/-- Flags of a lane word, an answered load, an acknowledged store, faults of both kinds (ResultsReachTheirFibres). -/
theorem witness_results :
    let p : Plot := { plot with flgPend := 1, pendLoads := [.fault 0 record, .regs 0 4 [1]], pendStores := [.fault 0 true record, .done 0] }
    (running p).plot? 0 = some p ∧ p.flgPend ≠ 0 ∧ p.answer? = some (.regs 0 4 [1]) ∧ p.ack? = some 0 ∧ p.pendFault = some (0, record) ∧
    ({ p with pendLoads := [] } : Plot).pendFault = none ∧ ({ p with pendLoads := [] } : Plot).pendStoreFault = some (0, true, record) ∧
    ({ p with pendLoads := [.cap 0 1 .null] } : Plot).answer? = some (.cap 0 1 .null) ∧
    ({ p with pendLoads := [.free 0] } : Plot).answer? = some (.free 0) ∧
    counterFull ({ fibre with run := .parked (.counter .loads), loads := 62 } : Fibre) .loads = false := by
  decide +kernel

/-- A group that is formed, one past its fill wait with a fibre in flight, one past 256 ccy (FurrowsFormAndIssue). -/
theorem witness_groups :
    let p := withFibre { fibre with run := .ready 0 }
    let q := { plot with fibres := [{ fibre with run := .ready 0 }, { fibre with fid := 1, run := .ready 1000, flight := true }] }
    (runningAt 1 p).coreRuns 0 = true ∧ ((runningAt 1 p).core 0).freeSlot 1 0 = some 0 ∧ ((runningAt 1 p).nextGroup 0).isSome = true ∧
    ((runningAt 4 q).group? 0 0).any (runningAt 4 q).fillDue = true ∧ ((runningAt 256 p).group? 0 0).any (runningAt 256 p).promoteDue = true := by
  decide +kernel

/-- A woken fibre, a furrow that issues, one issuable for 64 ccy, one whose wait is over, bins whose timer has run out and that are full
(FurrowsFormAndIssue). -/
theorem witness_issue_choice :
    let fu : Furrow := ⟨0, 0, 0, 0, [(0, 0)], 0, false, 0, false, none⟩
    let s := { onCore (runningAt 200 plot) fun k => { k with furrows := [fu], bins := [⟨0, 0, [0], 0, 0⟩] } with issuing := none }
    let r : Resume := ⟨0, 0, 7, none⟩
    ({ s with resumes := [r] } : State).nextResume 0 = some r ∧ s.nextFurrow 0 0 = some fu ∧ fu.promoted = false ∧ s.issuable fu = true ∧
    fu.since + 64 ≤ s.cycOf 0 ∧ s.waitOver 0 0 ((s.issueOf fu).members.map (·.2)) .quiet = true ∧ plot.halt = none ∧
    (s.binDue 0).isSome = true ∧ s.sums = [] ∧ fu ∈ (s.core 0).furrows := by
  decide +kernel

/-- A waiting command, a matrix command that starts, with its fault and without, the port's claim, a completed command (EnginesWork). -/
theorem witness_matrix :
    let d := command (.mtab ⟨0, 0, 0, 0⟩) 0
    let big := { plot with ssize := 8192 }
    let k (q : Core) : Core := { q with mat := { q.mat with queue := [d] } }
    ((onCore (running plot) fun q => { q with cmdWait := [d] }).core 0).entry? = some d ∧
    (onCore (running plot) k).matrixStart? 0 = some d ∧ (matrixFault d plot .claimed).isSome = true ∧
    (onCore (running big) k).matrixStart? 0 = some d ∧ matrixFault d big .claimed = none ∧
    ((onCore (running big) fun q => { q with mat := { q.mat with load := some d } }).core 0).mat.waitsPort = some d ∧
    ((onCore (running big) fun q => { q with mat := { q.mat with load := some d, port := some 0 } }).matrixDone? 0) = some d := by
  decide +kernel

/-- A BARINIT that starts, with its fault and without; a piece to land; a collective's round with its member's contribution (EnginesWork). -/
theorem witness_wain :
    let d (n : BitVec 128) := command (.barinit ⟨0, 0⟩) n
    let big := { plot with ssize := 8192 }
    let k (n : BitVec 128) (q : Core) : Core := { q with wainQueue := [d n] }
    let r : WainRun := ⟨d 0, [⟨1, [(0, [7])]⟩], none, none, false, [], []⟩
    let x : CollPart := ⟨0, 0, 0, 0, 0, 0, (0, 0, 0, 1), [(1, 0)]⟩
    let c : CollWait := ⟨0, 5, 1, 0, [x]⟩
    (onCore (running big) (k (2 ^ 32))).wainStart? 0 = some (d (2 ^ 32)) ∧ (running big).wainFault big (d (2 ^ 32)) = none ∧
    (onCore (running plot) (k 1)).wainStart? 0 = some (d 1) ∧ ((running plot).wainFault plot (d 1)).isSome = true ∧
    (onCore (running big) fun q => { q with wainRun := [r] }).lands? 0 = some r ∧ r.pieces = [⟨1, [(0, [7])]⟩] ∧ r.bar = none ∧
    ({ running big with colls := [c] } : State).colls.find? (fun c => c.ctx == 0 && c.gid == 5) = some c ∧ c.round = some [x] ∧
    (running big).wayOpen (dieOf x.core) (dieOf x.core) = true := by
  decide +kernel

/-- An access at a home, of the plot's fibre, and its request. -/
def access (op : HomeOp) : HomeReq :=
  { pid := 0, fid := 0, pc := 0, core := 0, ctx := 0, system := true, cap := Cap.make 2 0 4096 0x1FF 0 true, obj := 2, off := 0, op := op }

def request (op : HomeOp) : Request :=
  { parts := [access op], issue := 0, at_ := 0, backoff := 0, draining := false }

/-- A request that has arrived, a retry whose backoff is over, a drain and its acknowledgement, with another on its line and without
(HomesServe). -/
theorem witness_homes :
    let q := request (.load 4 false 4)
    let line : LineRef := ⟨0, 2, 0, 0⟩
    let s : State := { withObjects (running plot) with now := 1 }
    let dr : DrainMsg := ⟨0, line, 0, false⟩
    ({ s with homeQ := [q] } : State).nextRequest = some q ∧
    ({ s with retries := [(q, 1)] } : State).retries.find? (fun q => decide (q.2 ≤ s.now)) = some (q, 1) ∧
    ({ s with drains := [dr] } : State).nextDrain 0 = some dr ∧
    ({ s with drains := [{ dr with acked := true }] } : State).nextAck 0 = some { dr with acked := true } ∧
    (let u := [dr]; ∃ e ∈ u, e.line = line) ∧ (let u : List DrainMsg := []; ∀ e ∈ u, e.line ≠ line) := by
  decide +kernel

/-- An owned line, a line with partial sums, an evictable line of each sort, a write-back that its home accepts, a drop (HomesServe). -/
theorem witness_lines :
    let line : LineRef := ⟨0, 2, 0, 0⟩
    let l (kind : LineKind) : L1Line := ⟨0, 2, 0, kind, [(0, 7)], [0], [], [], [], 0, none, [], 0, true, rightW⟩
    let s := withObjects (running plot)
    let w : WriteBackMsg := ⟨0, l .owned⟩
    (line, 0) ∈ ({ s with owners := [(line, 0)] } : State).owners ∧
    ((onCore s fun k => { k with lines := [l .psum] }).core 0).line? 0 2 0 2 none = some (l .psum) ∧
    ((onCore s fun k => { k with lines := [l .clean] }).core 0).evictable 0 2 0 = [l .clean] ∧
    ((onCore s fun k => { k with lines := [l .owned] }).core 0).evictable 0 2 0 = [l .owned] ∧
    ({ s with writeBacks := [w] } : State).writeBacks.find? ({ s with writeBacks := [w] } : State).backReady = some w ∧
    (s.acceptsWriteBack 0 w.line rightW).isSome = true ∧ s.sums = [] ∧ tableCtx.isList 2 = true ∧
    ({ tableCtx with ll := [] } : Ctx).isList 2 = false ∧ ({ s with drops := [⟨0, 0, 2, some 0⟩] } : State).nextDrop 0 0 2 = some ⟨0, 0, 2, some 0⟩ := by
  decide +kernel

/-- Watches that pass, fail and fault; lattice waits that pass and do not (HomesServe). -/
theorem witness_waits :
    let w (obj : Nat) (v : Word) : WatchWait := ⟨0, obj, 0, 0, v, 4, none, 0⟩
    let p (k : Park) : Plot := withFibre { fibre with run := .parked k }
    let s (k : Park) : State := withObjects (running (p k))
    let test (w : WatchWait) := ((s (.waita w)).watchTest (p (.waita w)) fibre w).2
    let c := Cap.make 3 0 4096 0x1FF 2 true
    let lw (thr : Nat) : LatWait := ⟨c, 3, 0, 2, some thr, false, 4, 8⟩
    ((s (.waita (w 2 0))).watchOf 0 0).isSome = true ∧ (s (.waita (w 2 1))).watchDue 0 0 = true ∧
    (s (.waita (w 9 0))).watchDue 0 0 = true ∧ test (w 2 0) = .passed ∧ test (w 2 1) = .failed ∧
    (match test (w 9 0) with
    | .fault _ => true
    | _ => false) = true ∧
    ((s (.ldlat (lw 0))).latWaitOf 0 0).isSome = true ∧ (s (.ldlat (lw 0))).latReady (p (.ldlat (lw 0))) c 3 0 2 (some 0) = true ∧
    (s (.ldlat (lw 1))).latReady (p (.ldlat (lw 1))) c 3 0 2 (some 1) = false := by
  decide +kernel

/-- Migrations on their way and at their end, publishes that start, move a line, are complete, a host atomic (PagesHostAndExchange). -/
theorem witness_pages :
    let m : Migration := ⟨0, 2, 0, 2 ^ 33 + 2 ^ 14, 0⟩
    let q : Publish := ⟨0, 0, 0, 0, 0, 2, [0], [0], 0, true, 0, false, none⟩
    let a : HostAtomic := ⟨[access (.atom 0 20 1 0 (some 4))], 0⟩
    let s := withObjects (running plot)
    let one (q : Publish) : State := { s with publishes := [q] }
    ({ s with migrations := [m] } : State).migration? 0 2 0 = some m ∧ m.p < 512 ∧ s.moveOpen m = true ∧
    (s.moving m).any (fun q => !q.2.lattice) = true ∧ s.owners = [] ∧
    ({ s with migrations := [{ m with p := 512 }] } : State).migration? 0 2 0 = some { m with p := 512 } ∧
    (one q).nextPublish [] (one q).publishes = some q ∧
    (let z := { q with started := true }; (one z).nextPublish [] (one z).publishes = some z) ∧
    (let z : Publish := { q with started := true, todo := [] }; (one z).publishes.find? (fun q => q.unpubl.isNone && q.started && q.todo.isEmpty) = some z) ∧
    ({ s with hostAtomics := [a] } : State).nextHostAtomic = some a ∧ (s.portOf (access (.atom 0 20 1 0 (some 4)))).isOk = true := by
  decide +kernel

/-- Host accesses before and after READY, of no line; a shipment that arrives (PagesHostAndExchange). -/
theorem witness_host :
    let s := withObjects (running plot)
    let x : Shipment := ⟨1, ⟨0, 3, 0, 2⟩, [], [], 0⟩
    State.reset.status.ready = false ∧ s.status.ready = true ∧ linesOf 0 0 = [] ∧ s.engineOwned = [] ∧
    ({ s with ships := [x] } : State).nextMerge = some x := by
  decide +kernel

/-- A page of object 2 that the host may read and write (PagesHostAndExchange). -/
theorem witness_exposed :
    linesOf 0 4 = [(0, 4)] ∧ ((withObjects (running plot)).place? 0 0 2 0).any (·.exposed) = true := by
  decide +kernel

theorem witness_ticks :
    let r := objRef 0 3
    let s := withObjects (running plot)
    let d (cyc : Nat) (push : List LineRef) : State := { s with dies := [{ Die.reset 0 with cyc := cyc, lastTick := [(r, 0)], pushq := push }] }
    (s.latticeEntry 0 3).isSome = true ∧ (∃ d ∈ s.dies, d.num = 0) ∧ assoc (s.die 0).lastTick r = none ∧
    (s.latticeEntry 0 3).any (fun e => decide (0 + e.period ≤ ((d 10000000000 []).die 0).cyc)) = true ∧
    assoc ((d 0 []).die 0).lastTick r = some 0 ∧ (s.latticeEntry 0 3).any (fun e => decide (((d 0 []).die 0).cyc < 0 + e.period)) = true ∧
    (d 0 [⟨0, 3, 0, 1⟩]).pushed 0 0 3 ≠ [] := by
  decide +kernel

/-- A launch record of one plot of one fibre, eligible at once, or with a MAX64 dependency on object 3. -/
def launch (dty : Nat) : LaunchRec :=
  { code := plot.code, a := List.replicate 8 .null, depc := Cap.make 3 0 4096 0x1FF 2 true, cmpc := .null, entry := 0, plots := 1, fibm1 := 0,
    win := 1, scr := 0, prio := 0, replant := false, gang := false, place := 0, hdie := 0, bint := 0, jhold := 0, crop := 0, cropv := false,
    est := 0, dty := dty, cty := 0, doff := 0, coff := 0, dval := 0, cval := 0 }

/-- A field of that record. -/
def field1 (r : LaunchRec) (eligible : Option Nat) : Field :=
  { ctx := 0, fld := 0, record := r, system := false, depth := 0, parent := none, order := 0, eligible := eligible, unplaced := [], nextPlot := 0,
    live := 0, retired := 0, stepSum := 0, aborted := false }

/-- Object 2 as launch list 0, its TAIL and CAPN as given, HEAD 0; whether the list is stopped. -/
def withList (tail capn : Nat) (stopped : List (Nat × Nat)) : State :=
  let s := withObjects (running plot)
  let c := { tableCtx with stopped := stopped }
  match s.port 0 0 true 0 2 rightR 0 with
  | .ok h => { (s.store h.addr (leBytes 8 tail ++ leBytes 8 0 ++ leBytes 4 capn)) with ctxs := [c] }
  | .error _ => s

/-- Object 2 as the exception log of context 0, of a KIND as given, with room for 4 records. -/
def withLog (kind : Nat) : State :=
  let s := withObjects (running plot)
  let t := (tableCtx.addr0 128).elim s fun a => s.store a (leBytes 16 (entryBits 264 kind 0x3FF 0))
  match s.port 0 0 true 0 2 rightR 16 with
  | .ok h => { (t.store h.addr (leBytes 4 4)) with ctxs := [{ tableCtx with exlog := 2 ^ 24 + 2 }] }
  | .error _ => s

/-- An object of KIND exception log, which is 4, takes a record, and a shape table, which is 5, takes none (R124, R126, R387). -/
theorem test_log_kind :
    ((withLog 4).logException plot 64 0 1 0 20 1).getObj 0 2 0 8 = 1 ∧ ((withLog 4).logException plot 64 0 1 0 20 1).getObj 0 2 72 1 = 1 ∧
    ((withLog 5).logException plot 64 0 1 0 20 1).getObj 0 2 0 8 = 0 := by
  decide +kernel

/-- A record to take, a TAIL out of range, a stopped list in and out of range (ReevesLaunchAndRetire). -/
theorem witness_lists_read :
    let inRange (s : State) : Bool := (s.listHead 0 0).any fun q => q.2.inRange
    let open_ (s : State) : Bool := s.listOpen 0 0 && (s.listHead 0 0).any fun q => q.2.tail != q.2.head
    open_ (withList 1 4 []) = true ∧ inRange (withList 1 4 []) = true ∧ open_ (withList 9 4 []) = true ∧
    (inRange (withList 9 4 []) = false ∧ ((withList 9 4 []).listHead 0 0).isSome = true) ∧
    (withList 1 4 [(0, 0)]).retestOpen 0 0 = true ∧ inRange (withList 1 4 [(0, 0)]) = true ∧ inRange (withList 9 4 [(0, 0)]) = false := by
  decide +kernel

/-- A dependency that is reached; a candidate that fits; one that none fits, of which the tops are noted; a plot with nothing open
(ReevesLaunchAndRetire). -/
theorem witness_placement :
    let s (f : Field) : State := { withObjects (running plot) with fields := [f] }
    let fits (s : State) : Bool := (firstSome (s.rankAgain.candidates.map s.rankAgain.placeOne)).isSome
    ((s (field1 (launch 2) none)).eligibleDue 0 0).isSome = true ∧ (s (field1 (launch 0) (some 0))).reeves = true ∧
    fits (s (field1 (launch 0) (some 0))) = true ∧
    (let big := s (field1 { launch 0 with scr := 5000 } (some 0)); fits big = false ∧ big.rankAgain.tops ≠ big.tops) ∧
    (let p := { plot with fibres := [] }; (running p).retireDue p = true) := by
  decide +kernel

/-- A candidate that has waited 200 µs; a gang's victim; a saved plot's victim (ReevesLaunchAndRetire). -/
theorem witness_waits_long :
    let f := field1 { launch 0 with scr := 5000 } (some 0)
    let s : State := { runningAt 400000 plot with fields := [f], tops := [(0, (0, 0, 0), 0)] }
    ((s.waited 320000).find? fun c => !s.isGang c).isSome = true ∧
    (({ s with fallow := some ⟨0, 0, [0], 0⟩ } : State).gangVictim).isSome = true ∧
    (let v : SavedPlot := ⟨{ plot with pid := 7, ssize := 1000000 }, none, [], [], [], [], none, 0, 0, 0, none, false⟩
      let p := withFibre { fibre with run := .parked (.wait 0 0 0 0) }
      let t : State := { runningAt 400000 p with ctxs := [{ fetchCtx with saved := [v] }], tops := [(0, (0, 0, 0), 0)] }
      t.roomVictim.isSome = true) := by
  decide +kernel

/-- Context 0 with a handler at byte 64 of object 1. -/
def handled : Ctx :=
  { fetchCtx with handlerCode := some (Cap.make 1 0 65536 rightX 1 true), handlerEntry := 64 }

/-- A halt that completes, of a plot and of a handler's plot, with a handler and without; a plot whose frame is written; one whose handler
starts; a late handler; a plot that waits for the host; one that waits for the debugger (HaltsAreServed). -/
theorem witness_halts_served :
    let p (ph : HaltPhase) : Plot := { plot with halt := some (haltIn ph) }
    let core (p : Plot) (k : Core → Core) : State := onCore { runningAt 20000000 p with ctxs := [handled] } k
    (runningAt 5 (p .stopping)).haltDue (p .stopping) = true ∧ (p .stopping).handler = none ∧ (p .stopping).intent = none ∧
    replants (p .stopping) (haltIn .stopping) = false ∧ (haltIn .stopping).cause ≠ 0 ∧ (haltIn .stopping).cause ≠ FaultCode.dbg.num ∧
    (haltIn .stopping).toReeve = false ∧ handled.handlerCode.isSome = true ∧ fetchCtx.handlerCode = none ∧
    (let q := { p .stopping with handler := some 9 }; (runningAt 5 q).haltDue q = true) ∧
    (core (p .queued) fun k => { k with handlerQueue := [0] }).frameNext 0 = some (p .queued) ∧
    (core (p .withHandler) fun k => { k with frameOf := some 0, handlerAt := some 0 }).handlerNext 0 = some (p .withHandler) ∧
    ((let s := core (p .withHandler) fun k => { k with frameOf := some 0, handlerAt := some 0, handlerStarted := true }; ({ s with plots := s.plots ++ [{ plot with pid := 1, handler := some 0 }] } : State).handlerLate 0).isSome = true) ∧
    (haltIn .escalated).phase = .escalated ∧ (haltIn .debugger).phase = .debugger := by
  decide +kernel

/-- A plot that a request names; one whose budget has run out, halted and not; one to be saved; one whose image is in place, its header in
order and not (PreemptionSavesAndRestores). -/
theorem witness_preemption :
    let p := { plot with halt := some (haltIn .saving), intent := some (.save 4) }
    let d := { plot with drainBy := some 3 }
    let v : SavedPlot := ⟨{ plot with pid := 0 }, none, [], [], [], [], none, hostAddr 0, 0, 0, some 0, false⟩
    let s : State := { running plot with ctxs := [{ fetchCtx with saved := [v] }] }
    (running plot).plotsOf (.plot 0) = [plot] ∧ plot.handler = none ∧ plot.halt = none ∧ plot.fibres ≠ [] ∧
    (runningAt 3 d).drainDue d = true ∧ (let h := { d with halt := some (haltIn .queued) }; (runningAt 3 h).drainDue h = true) ∧
    (running p).saveDue p = true ∧ (s.restoreDue 0).isSome = true ∧ s.opaqueIntact v = true ∧
    headerLawful ((s.store (hostAddr 0) (leBytes 32 (2 ^ 117 + 12 * 2 ^ 113))).loadNat (hostAddr 0) 32) = true ∧
    headerLawful (s.loadNat (hostAddr 0) 32) = false ∧
    (∃ r ∈ opaqueRegions { v with mat := some .claimed }, (s.store (hostAddr 0 + r.1) [1]).opaqueIntact { v with mat := some .claimed } = false) := by
  decide +kernel

/-- A crop with a queued layer, with a swap-in that has its frames, in and out of time; a registration with every object sealed and one
without (ContextsAndCrops). -/
theorem witness_crops :
    let k (queue : List (Nat × Nat)) (swap : Option Swap) : Crop := ⟨1, 2, 2, 0, [⟨1, .host 0, 65536, 0⟩], queue, swap⟩
    let s (c : Crop) (cyc : Nat) : State :=
      { withObjects (runningAt cyc plot) with ctxs := [{ tableCtx with crops := [c], framePool := [9] }] }
    State.reset.ctx? 5 = none ∧ (running plot).ctx? 0 = some fetchCtx ∧
    ((s (k [(0, 0)] none) 0).crop? 0 1).isSome = true ∧ (s (k [(0, 0)] none) 0).swapDue 0 1 = true ∧
    (let c := k [] (some ⟨0, 0, true, 0⟩); let w : Swap := ⟨0, 0, true, 0⟩; let t := s c 160000000
      t.swapReady 0 1 = some (c, w) ∧ t.swapCcy 0 c w ≤ ((t.die 0).cyc + 2 ^ 64 - w.started) % 2 ^ 64 ∧ t.swapOpen 0 c w = true ∧
      160000000 ≤ ((t.die 0).cyc + 2 ^ 64 - w.started) % 2 ^ 64) ∧
    (s (k [] none) 0).isSealed 0 1 = true ∧ (s (k [] none) 0).isSealed 0 2 = false := by
  decide +kernel

/-- Errors of each structure, links up, retraining and past eight replays, a wain command on the way (ErrorsAndLinks). -/
theorem witness_errors :
    ((running plot).errorAt (.registerFile 0 0)).isSome = true ∧ inSram (scratchAddr 0) = true ∧ inSram 0 = false ∧ inHbm 0 = true ∧
    State.reset.link? 2 = some ⟨2, 0, false, false, 0⟩ ∧
    (let s : State := { State.reset with links := [⟨2, 8, true, false, 0⟩], now := 16000000, lostControl := [⟨2, [⟨0, 1, 0, 0⟩], 0⟩] };
      s.link? 2 = some ⟨2, 8, true, false, 0⟩ ∧ (0 : Nat) + 16000000 ≤ s.now ∧ s.lostDue 2 [⟨0, 1, 0, 0⟩] = some ⟨2, [⟨0, 1, 0, 0⟩], 0⟩) ∧
    ((onCore (running plot) fun q => { q with wainRun := [⟨command (.coll ⟨0, 0, 0⟩) 0, [], none, none, false, [], []⟩] }).core 0).oldestYotis.isSome = true := by
  decide +kernel

/-- The package before power, in a stage, a die, a monitor and one whose window ends, a core without plots (ComingUpAndManagement). -/
theorem witness_coming_up :
    State.reset.status.good = false ∧ ({ State.reset.status with good := true } : Status).stage < 6 ∧ (∃ d ∈ State.reset.dies, d.num = 3) ∧
    ((State.reset.die 0).monitor? 7).isSome = true ∧
    (let m : Monitor := { Monitor.reset 1 with ctl := BitVec.ofNat 64 (2 ^ 56 + 2 ^ 40 + 10) }; ({ State.reset with dies := [{ Die.reset 0 with cyc := 1024, monitors := [m] }] } : State).windowDue 0 1).isSome = true ∧
    (∀ p ∈ (running plot).plots, p.core ≠ 5) ∧ (∃ d ∈ (runningAt 32000 plot).dies, d.num = 0) ∧
    ((runningAt 32000 plot).die 0).window + 32000 ≤ ((runningAt 32000 plot).die 0).cyc ∧
    Memory.wf State.reset.mem = true ∧ State.reset.tags = [] ∧ State.reset.poison = [] := by
  decide +kernel

/-- Infinities of both signs, zeros, a quiet and a signalling NaN of FP32 and of E5M2; a significand beyond the largest FP32 (FloatArithmetic,
RoundingTakesANeighbour, DotProducts). -/
theorem witness_special_values :
    (codeVal 0 0x7F800000).isInf = true ∧ (codeVal 0 0xFF800000).isNeg = true ∧ (codeVal 0 0).isZero = true ∧ (codeVal 0 0x7FC00000).isNan = true ∧
    (codeVal 0 0x7F800001).isSnan = true ∧ (codeVal 3 0x7C).isInf = true ∧ (codeVal 3 0x7D).isNan = true ∧ isFinite 3 0x3C ∧
    (codeVal 1 0x7C00).isInf = true ∧ (codeVal 1 0).isZero = true ∧ (codeVal 1 0x7E00).isNan = true ∧
    (qdotSum 7 0 0).m = 0 ∧ (qdotSum 7 2 2).m ≠ 0 ∧ (codeVal 26 0xFF).isNan = true := by
  decide +kernel

/-- Numbers to round: within FP32's range, a tie, beyond the range by less than a step and by more; within S8, beyond it, negative into U8
(RoundingTakesANeighbour). -/
theorem witness_rounding :
    isFinite 0 0x7F7FFFFF ∧ isFinite 0 0x7F7FFFFE ∧ numberOf 0 0x7F7FFFFF = (2 ^ 24 - 1) * 2 ^ 104 ∧ numberOf 0 0x7F7FFFFE = (2 ^ 24 - 2) * 2 ^ 104 ∧
    numberOf 0 0x7F7FFFFF < 1 * (2 ^ 25 - 1 : ℕ) * 2 ^ (103 : Int) ∧
    (1 * (2 ^ 25 - 1 : ℕ) * 2 ^ (103 : Int) : ℚ) < numberOf 0 0x7F7FFFFF + (numberOf 0 0x7F7FFFFF - numberOf 0 0x7F7FFFFE) ∧
    numberOf 0 0x7F7FFFFF + (numberOf 0 0x7F7FFFFF - numberOf 0 0x7F7FFFFE) ≤ 1 * (1 : ℕ) * 2 ^ (128 : Int) ∧
    |numberOf 0 0x7F7FFFFE - 1 * (2 ^ 25 - 3 : ℕ) * 2 ^ (103 : Int)| = |numberOf 0 0x7F7FFFFF - 1 * (2 ^ 25 - 3 : ℕ) * 2 ^ (103 : Int)| ∧
    (127 : ℚ) < 1 * (300 : ℕ) * 2 ^ (0 : Int) ∧ ((-128 : Int) : ℚ) ≤ -1 * (3 : ℕ) * 2 ^ (0 : Int) := by
  have h : (codeVal 0 0x7F7FFFFF).dy.m = 2 ^ 24 - 1 ∧ (codeVal 0 0x7F7FFFFF).dy.e = 104 ∧ (codeVal 0 0x7F7FFFFE).dy.m = 2 ^ 24 - 2 ∧
    (codeVal 0 0x7F7FFFFE).dy.e = 104 := by decide +kernel
  refine ⟨by decide +kernel, by decide +kernel, ?_⟩
  simp only [numberOf, h.1, h.2.1, h.2.2.1, h.2.2.2]
  norm_num


/-- Loops that end at one address: lc2 with a count left; lc2 at its last round and lc1 with a count left; both at theirs (TransfersAndLoops). -/
theorem witness_loops_nested :
    let l (n : Nat) : LoopCtr := ⟨BitVec.ofNat 32 n, 0, 4, 8⟩
    ({ fibre with lc := [l 2, l 2, l 3] } : Fibre).lc = [l 2, l 2, l 3] ∧ (l 3).count ≠ 0 ∧ (l 3).last = 8 ∧ (l 3).count ≠ 1 ∧ (l 1).count = 1 := by
  decide +kernel

/-- A second fibre of the plot, at the same address but in a loop that ends there; both in one issue. -/
def fibre1 : Fibre :=
  { fibre with fid := 1, lc := [⟨2, 0, 8, 0⟩, ⟨0, 0, 0, 0⟩, ⟨0, 0, 0, 0⟩], preds := 0 }

def plot2 : Plot :=
  { plot with fibres := [fibre, fibre1] }

def issue2 : Issue :=
  { issue with members := [(0, 0), (1, 1)] }

/-- Their furrow, bound or not. -/
def furrow2 (bound : Bool) : Furrow :=
  ⟨0, 0, 0, 0, [(0, 0), (1, 1)], 2, bound, 0, false, none⟩

/-- The state of that issue. -/
def running2 (bound : Bool) : State :=
  { (onCore (running plot2) fun k => { k with furrows := [furrow2 bound] }) with issuing := some issue2 }

/-- An issue of a furrow in its slot, bound and not, whose members part after a NOP; the acts of a regrouping that parks one, lets one exit, faults
one (BranchJoinBind). -/
theorem witness_in_furrow (bound : Bool) : InFurrow (running2 bound) issue2 plot2 (furrow2 bound) where
  issuing := rfl
  plot := rfl
  fids := by decide
  core := rfl
  furrow := rfl
  holds := by cases bound <;> decide +kernel
  lanes := by simp [furrow2]
  only := by cases bound <;> decide +kernel

theorem witness_regroup :
    let gone (m : Nat × Fibre) : Fibre := m.2.advance issue2.pc (issue2.pc + BitVec.ofNat 40 4)
    (∃ m ∈ issue2.live plot2, ∃ m' ∈ issue2.live plot2, (gone m).pc ≠ (gone m').pc) ∧
    (let acts : List (Nat × Act) := [(0, .seq fibre), (1, .exit)];
      (acts.map (·.1)).Nodup ∧ (∀ q ∈ acts, q.1 ∈ issue2.members.map (·.2) ∧ ∀ k, q.2 ≠ Act.again k) ∧
      ((furrow2 true).lanes.filter fun l => !(acts.any fun q => q.1 == l.2 && q.2 == .exit)) ≠ []) ∧
    (let acts : List (Nat × Act) := [(0, .exit), (1, .exit)];
      ((furrow2 true).lanes.filter fun l => !(acts.any fun q => q.1 == l.2 && q.2 == .exit)) = []) ∧
    (running2 false).fibre? 0 1 = some fibre1 := by
  refine ⟨by decide +kernel, ⟨by decide, ?_, by decide +kernel⟩, by decide +kernel, by decide +kernel⟩
  simp [issue2, issue]

/-- A join slot that its openers complete, one whose hold timer has run out, one that waits, in a plot that runs, halts in this ccy, has halted
(Joins). -/
theorem witness_join_due :
    let p (y : JSlot) (h : Option Halt) : Plot := { plot with j := y :: plot.j.drop 1, halt := h, jhold := 10 }
    let due (cyc : Nat) (p : Plot) : Bool := (runningAt cyc p).joinDue p 0
    due 5 (p ⟨[0], [(0, 5)], [(0, 3)], some 5⟩ none) = true ∧ due 15 (p ⟨[0, 1], [(0, 5)], [(0, 3)], some 5⟩ none) = true ∧
    due 14 (p ⟨[0, 1], [(0, 5)], [(0, 3)], some 5⟩ none) = false ∧ due 15 (p ⟨[0, 1], [], [], none⟩ none) = false ∧
    due 5 (p ⟨[0], [(0, 5)], [(0, 3)], some 5⟩ (some (haltIn .stopping))) = false := by
  decide +kernel

/-- A free set, one that a second fibre joins and closes, one of another count (SpawnMarkSetRead); a spawner whose accesses are done. -/
theorem witness_sets :
    let y : CSet := ⟨2, 1, [5], false, [], 0, 0⟩
    CSet.free.count = 0 ∧ y.count = 2 ∧ y.closed = false ∧ 0 ∉ y.members ∧ 5 ∈ y.members ∧ y.count ≠ 3 ∧ (running plot).quiet 0 0 = true := by
  decide +kernel

/-- A fault in a ccy after the halt's, whose issue counts as skid (FaultsStartOneHalt). -/
theorem witness_skid :
    let p : Plot := { plot with halt := some (haltIn .stopping) }
    (runningAt 3 p).plot? issue.pid = some p ∧ (haltIn .stopping).fcyc < (runningAt 3 p).cycOf p.core ∧
    p.mayIssue 3 none (some 1) [0] = false ∧ p.mayIssue 3 none (some 1) [1] = true ∧ p.mayIssue 3 (some .ready) (some 1) [0] = true ∧
    { p with halt := some (haltIn .queued) }.mayIssue 3 none (some 1) [1] = false := by
  decide +kernel

/-- Two members of which one exits (ExitAndReturn). -/
theorem witness_exits : Issuing (running2 false) issue2 plot2 ∧ plot2.handler = none ∧ (∀ m ∈ issue2.members, m.2 < 1024) ∧
    fibre.pred 6 = false ∧ ({ fibre with preds := 0x40 } : Fibre).pred 6 = true :=
  ⟨⟨rfl, rfl, by decide⟩, rfl, by decide, by decide +kernel, by decide +kernel⟩

/-- A barrier's way open, its fibre quiet (BarrierWords). -/
theorem witness_bara : (running plot).quiet 0 0 = true ∧ (running plot).wayOpen 0 1 = true := by
  decide +kernel

/-- A fibre that enters its bin, a furrow that may not issue and has waited, a begun wait of a halted plot (FurrowsFormAndIssue). -/
theorem witness_entering :
    let fu (w : Option IssueWait) : Furrow := ⟨0, 0, 0, 0, [(0, 0)], 1, false, 0, false, w⟩
    let s (p : Plot) (w : Option IssueWait) : State := { onCore (runningAt 3 p) fun k => { k with furrows := [fu w], ports := [(0, 9)] } with issuing := none }
    let halted : Plot := { plot with halt := some (haltIn .stopping) }
    (onCore (runningAt 3 plot) fun k => { k with spawning := [⟨0, 4, 7, 3⟩] }).entering 0 = some ⟨0, 4, 7, 3⟩ ∧
    (s plot none).portFree 0 0 = false ∧ (fu none).since ≤ (s plot none).cycOf 0 ∧ (fu none).lanes ≠ [] ∧
    (s halted (some .quiet)).waitOver 0 0 (((s halted (some .quiet)).issueOf (fu (some .quiet))).members.map (·.2)) .quiet = true ∧
    IssueWait.begun .quiet = true ∧ IssueWait.begun (.operands []) = false ∧
    (s { plot with halt := some (haltIn .queued) } none).issuable (fu none) = false := by
  decide +kernel

/-- A port of the ring that a collective needs is up; a COPY from object 2 reads its pieces (EnginesWork). -/
theorem witness_copy :
    let d : Cmd := { command (.copyGs ⟨0, 2, 3, 0⟩) (64 * 2 ^ 96) with src := Cap.make 2 0 4096 0x1FF 0 true }
    let p := { plot with ssize := 8192 }
    let s := withObjects (running p)
    let r := s.readPieces p d
    s.wainFault p d = none ∧ s.yotisShut p d = false ∧ d.form.dstGlobal = false ∧ r.2.1 ≠ [] ∧ r.2.2 = none ∧
    ((onCore s fun k => { k with cmdWait := [d] }).core 0).roomFor d = true := by
  decide +kernel

/-- A release to a line on which an acquire waits for a drain; an Owned line that object 2's home takes, none of its bytes read only (HomesServe). -/
theorem witness_release_held :
    let rel := request (.releaseStore [1, 2, 3, 4] (some 0))
    let acq : Request := { request (.acquireLoad 4 4) with draining := true }
    let s : State := { withObjects (running plot) with now := 1, homeQ := [acq, rel] }
    let l : L1Line := ⟨0, 2, 0, .owned, [(0, 7), (1, 8)], [0], [], [], [], 0, none, [], 0, true, rightW⟩
    let c := { tableCtx with ll := [] }
    (rel.parts.any fun q => q.op.releases) = true ∧ acq ∈ s.homeQ ∧ acq.ref s = some ⟨0, 2, 0, 0⟩ ∧ rel.ref s = some ⟨0, 2, 0, 0⟩ ∧
    (s.acceptsWriteBack 0 l l.need).isSome = true ∧ l.bytes.Pairwise (fun a b => a.1 < b.1) ∧ (∀ b ∈ l.bytes, b.1 < 128) ∧
    c.isList 2 = false ∧ c.crops = [] ∧ s.isLog c 2 = false := by
  decide +kernel

/-- The pool's bytes; a crop's table of the right kind beside a count object of DIE placement that homes uncached (ContextsAndCrops). -/
theorem witness_registration :
    let s := (withLayer 2).setDesc 0 2 0 fun d => { d with home := 1, place := 1, pdie := 0 }
    (4 : Nat) + ([1, 2] : List Byte).length ≤ ({ tableCtx with savePool := 64 } : Ctx).savePool ∧
    (s.entry? tableCtx 3).any (·.kind == 3) = true ∧ s.countObject tableCtx 2 = true ∧ s.countObject tableCtx 3 = false ∧ s.isSealed 0 1 = true := by
  decide +kernel

/-- A scrub that corrects a word of each kind of storage; an answer on its way into a core's L1; a control flit whose answer is due; a load that
waits at a home on the line that is given up (ErrorsAndLinks). -/
theorem witness_recovery :
    let q := request (.load 4 false 4)
    let s : State := { withObjects (running plot) with homeQ := [q], now := 20000 }
    (s.correctedAt (.registerFile 0 0)).isSome = true ∧ (s.correctedAt (.memory (scratchAddr 0))).isSome = true ∧
    (s.die 0).errq = [] ∧ dieOf (sramCore (scratchAddr 0)) = 0 ∧ (∃ d ∈ State.reset.dies, d.num = 0) ∧ (0 : Nat) + 16384 ≤ s.now ∧
    q.ref s = some ⟨0, 2, 0, 0⟩ ∧ (s.portOf (access (.load 4 false 4))).toOption.any (fun h => h.entry.crty == 0 && some (h.addr / 128) == (s.lineAt ⟨0, 2, 0, 0⟩).map (· / 128)) = true ∧
    (s.core 0).lines = [] ∧ s.writeBacks = [] ∧ s.sums = [] := by
  decide +kernel

/-- Cores below, at and above the median of their fractions; PERST# long ago; a die that is powered (ComingUpAndManagement). -/
theorem witness_median :
    let s : State := { runningAt 32000 plot with cores := [{ Core.reset 0 with phases := 1, parked := 1, alive := 4 },
      { Core.reset 1 with phases := 1, parked := 2, alive := 4 }, { Core.reset 2 with phases := 1, parked := 3, alive := 4 }] }
    let med := median2 ((s.fractions 0).map (·.2))
    (s.cores.map (·.num)).Nodup ∧ (s.die 0).fixedClock = false ∧ (∃ q ∈ s.fractions 0, med < 2 * q.2) ∧ (∃ q ∈ s.fractions 0, 2 * q.2 < med) ∧
    (∃ q ∈ s.fractions 0, 2 * q.2 = med) ∧ 1425 ≤ (s.core 0).clock ∧ (∃ k ∈ dieCores 0, ∀ q ∈ s.fractions 0, q.1 ≠ k) ∧
    (∃ t, ({ State.reset.status with perst := some 0 } : Status).perst = some t ∧ t + 160000000 ≤ 160000000) := by
  decide +kernel

/-- A restored plot that waits to be pre-empted again (PreemptionSavesAndRestores). -/
theorem witness_restored_waiting :
    let p := { plot with intent := some (.waiting 7) }
    let v : SavedPlot := ⟨{ plot with pid := 0 }, none, [], [], [], [], none, hostAddr 0, 0, 0, some 0, false⟩
    let s : State := { running p with ctxs := [{ fetchCtx with saved := [v] }] }
    s.restoreDue 0 = some (v, p) ∧ (0 : Nat) ≤ 1000000 := by
  decide +kernel

/-- A host's write outside the package; a record whose lines are within reach of the reeve (PagesHostAndExchange, ReevesLaunchAndRetire). -/
theorem witness_source_write :
    State.MemOk State.reset ∧ SourcePoison.once ≠ .clean ∧
    ((withList 1 4 []).listHead 0 0).any (fun q => q.2.inRange && q.1.recordOpen 0 q.2) = true :=
  ⟨⟨by decide +kernel, by decide +kernel, by decide +kernel⟩, by decide, by decide +kernel⟩

/-- A layer's word as LDLAYER tests it: not there, on its way, there and counted, failed; the homes within reach; a count that fits (ObjectWords). -/
theorem witness_layer_words :
    let i : Inst := ⟨0, none, 0, 4, [⟨0, false⟩], [0], true, false, false, none⟩
    let x : FmtLY := ⟨0, 4, 6, 2, 0⟩
    let b := Cap.make 3 0 4096 0x3FF 3 true
    let p := { withKreg 0 with b := List.replicate 16 b }
    let word (w : Nat) : Option Nat :=
      match (withLayer w).layerOf x p i with
      | .ok (k, l) => ((withLayer w).testWord p k l).toOption.map (· % 4)
      | .error _ => none
    word 0 = some 0 ∧ word 1 = some 1 ∧ word 2 = some 2 ∧ word 3 = some 3 ∧ (withLayer 2).countOpen 0 = true ∧
    (addRef ((withLayer 2).refPlot p).layers 0 0).isSome = true ∧ addRef (List.replicate 64 ⟨5, 5, 1⟩) 0 0 = none := by
  decide +kernel

/-! ### One step, with results worked out by hand from the rules -/

/-- The fibre's v register d after one instruction, from v1, v2 and v3. -/
def result (i : Instr) (v1 v2 v3 : Word) (d : Nat := 4) : Option Word :=
  match exec i (running (withFibre { fibre with v := [0, v1, v2, v3] ++ fibre.v.drop 4 })) with
  | .next t => (t.fibre? 0 0).map fun f => f.vreg d
  | _ => none

/-- The plot after one instruction. -/
def plotAfter (i : Instr) (p : Plot) : Option Plot :=
  match exec i (running p) with
  | .next t => t.plot? 0
  | _ => none

/-- Sums wrap, or clamp under SAT (R131); the high word of -1 × -1, signed and unsigned; -7 / 2 = -3, and division by 0 gives all ones (R134). -/
theorem test_integer :
    result (.iadd ⟨7, 4, 1, 2, none⟩) 0xFFFFFFFF 2 0 = some 1 ∧
    result (.iadd ⟨7, 4, 1, 2, some ⟨0, 0, 1, 0, 0⟩⟩) 0x7FFFFFFF 2 0 = some 0x7FFFFFFF ∧
    result (.isub ⟨7, 4, 1, 2, none⟩) 3 5 0 = some 0xFFFFFFFE ∧
    result (.imulh ⟨7, 4, 1, 2, none⟩) 0xFFFFFFFF 0xFFFFFFFF 0 = some 0 ∧
    result (.imulhU ⟨7, 4, 1, 2, none⟩) 0xFFFFFFFF 0xFFFFFFFF 0 = some 0xFFFFFFFE ∧
    result (.imad ⟨7, 4, 1, 2, some ⟨0, 0, 0, 3, 0⟩⟩) 6 7 100 = some 142 ∧
    result (.idiv ⟨7, 4, 1, 2, none⟩) 0xFFFFFFF9 2 0 = some 0xFFFFFFFD ∧ result (.idiv ⟨7, 4, 1, 2, none⟩) 5 0 0 = some 0xFFFFFFFF := by
  decide +kernel

/-- Shifts take B[7:0]: 32 clears, 256 does nothing, SAR stops at 31 (R131); a field of 8 bits from bit 4 (R132); counts. -/
theorem test_bits :
    result (.shl ⟨7, 4, 1, 2, none⟩) 1 32 0 = some 0 ∧ result (.shl ⟨7, 4, 1, 2, none⟩) 1 256 0 = some 1 ∧
    result (.sar ⟨7, 4, 1, 2, none⟩) 0x80000000 40 0 = some 0xFFFFFFFF ∧ result (.rol ⟨7, 4, 1, 2, none⟩) 0x80000001 1 0 = some 3 ∧
    result (.bfx ⟨7, 4, 1, 2, none⟩) 0x00000AB5 0x804 0 = some 0xAB ∧ result (.clz ⟨7, 4, 1, none⟩) 0x00010000 0 0 = some 15 ∧
    result (.popc ⟨7, 4, 1, none⟩) 0xF0F00001 0 0 = some 9 ∧ result (.movi ⟨7, 4, 0x3FFB, none⟩) 0 0 0 = some 0xFFFFFFFB := by
  decide +kernel

/-- 1 + 2 = 3, 1.5 × 2 = 3, 2 × 3 + 1 = 7 in FP32; (1 + 2^-23)^2 = 1 + 2^-22 + 2^-46 towards zero; the smaller of -0 and +0;
7.0 to S32; bytes 1, 2, 3, 4 times 1, 1, 1, -1, plus 10 (R141 to R146, R149). -/
theorem test_float :
    result (.fadd ⟨7, 4, 1, 2, none⟩) 0x3F800000 0x40000000 0 = some 0x40400000 ∧
    result (.fmul ⟨7, 4, 1, 2, none⟩) 0x3FC00000 0x40000000 0 = some 0x40400000 ∧
    result (.ffma ⟨7, 4, 1, 2, some ⟨0, 0, 0, 3, 0⟩⟩) 0x40000000 0x40400000 0x3F800000 = some 0x40E00000 ∧
    result (.fmul ⟨7, 4, 1, 2, some ⟨0, 1, 0, 0, 0⟩⟩) 0x3F800001 0x3F800001 0 = some 0x3F800002 ∧
    result (.fmin ⟨7, 4, 1, 2, none⟩) 0 0x80000000 0 = some 0x80000000 ∧
    result (.fcvt ⟨7, 4, 1, 0, some ⟨21, 0, 0, 0, 0⟩⟩) 0x40E00000 0 0 = some 7 ∧
    result (.dot4 ⟨7, 4, 1, 2, some ⟨0, 0, 0, 3, 0⟩⟩) 0x04030201 0xFF010101 10 = some 12 := by
  decide +kernel

/-- BRA goes to its own address plus four times its offset; RET to an aligned offset; SYSC halts its plot with the trap's cause, the fibre
staying at the word; EXIT ends the fibre; MTSR at user level raises PRIV (R340 to R356, R391, R423). -/
theorem test_control :
    ((plotAfter (.bra ⟨7, 5, none⟩) plot).bind (·.fibre? 0)).map (·.pc) = some 20 ∧
    ((plotAfter (.ret ⟨7, 1, none⟩) (withFibre { fibre with v := [0, 64] ++ fibre.v.drop 2 })).bind (·.fibre? 0)).map (·.pc) = some 64 ∧
    ((plotAfter (.sysc ⟨7, 12⟩) plot).bind (·.halt)).map (fun h => (h.cause, h.first)) = some (FaultCode.trapi.num, 0) ∧
    ((plotAfter (.sysc ⟨7, 12⟩) plot).bind (·.fibre? 0)).map (·.pc) = some 0 ∧
    (plotAfter (.exit ⟨7, none⟩) plot).map (·.fibres) = some [] ∧
    ((plotAfter (.mtsr ⟨7, 1, 5, none⟩) { plot with system := false }).bind (·.halt)).map (·.cause) = some FaultCode.priv.num := by
  decide +kernel

/-- STS.32 stores the low byte first and misaligned raises ALIGN (R198, R261); UADD with an immediate puts its result on the way to its register
(R49, R366); BARA on a barrier of two arrivals counts one and answers phase 0 (R362). -/
theorem test_memory_and_uniform :
    let p (v1 : Word) := { withFibre { fibre with v := [0, v1, 0x11223344, 0] ++ fibre.v.drop 4 } with ssize := 4096 }
    let mem (i : Instr) (q : Plot) : Option (List Byte) :=
      match exec i (running q) with
      | .next t => some (Memory.readN t.mem (scratchAddr 0 + 8) 4)
      | _ => none
    mem (.sts32 ⟨7, 2, 1, 0, none⟩) (p 8) = some [0x44, 0x33, 0x22, 0x11] ∧
    ((plotAfter (.sts32 ⟨7, 2, 1, 0, none⟩) (p 9)).bind (·.halt)).map (·.cause) = some FaultCode.align.num ∧
    (match exec (.uaddUi ⟨0, 4, 1, none⟩) (running plot) with
    | .next t =>
      match exec (.uniformPipeExecute 0) t with
      | .next u => (u.core 0).results
      | _ => []
    | _ => []) = [⟨0, 0, 0, .k 4 1, 2⟩] ∧
    (match exec (.bara ⟨7, 4, 3, 3, none⟩) ((running (p 0)).setBarrier (scratchAddr 0) ⟨0xB, 0, 0, 2, 0, 0⟩) with
    | .next t => ((t.barrier (scratchAddr 0)).arr, (t.fibre? 0 0).map fun f => f.vreg 4)
    | _ => (0, none)) = (1, some 0) := by
  decide +kernel

end Sys2Proof.Tests
end

section
/-! SUPPORT. An atomic performed at the home of its line: what each part of it (the exception log, the answer, the write, the core's own copy) leaves
unchanged, and what it does as a whole (R10, R126, R254, R265, R266). -/

namespace Sys2Proof.Machine

/-! ### The exception log and the answer -/

/-- An access of an issue that owes no records writes none (R126). -/
theorem State.closeLog_of_no_log {s : State} {issue : Nat} (h : ∀ l ∈ s.issueLogs, l.issue ≠ issue) (fid : Nat) (causes : List Nat) :
    s.closeLog issue fid causes = s := by
  have none : s.issueLogs.find? (fun l => l.issue == issue && l.left.contains (fid % 1024)) = none :=
    List.find?_eq_none.2 fun l hl => by simp [h l hl]
  simp only [State.closeLog, none]

/-- The plot of an answer finds the answer behind those that are under way (R254). -/
theorem State.plot?_giveLoad (s : State) (pid : Nat) (l : PendLoad) :
    (s.giveLoad pid l).plot? pid = (s.plot? pid).map fun p => { p with pendLoads := p.pendLoads ++ [l] } :=
  State.plot?_modPlot s pid _ fun _ => rfl

theorem State.plot?_setFlags (s : State) (pid : Nat) (f : Flg) :
    (s.setFlags pid f).plot? pid = (s.plot? pid).map fun p => { p with flg := p.flg ||| f.setWidth 32 } :=
  State.plot?_modPlot s pid _ fun _ => rfl

/-- The old value of an atomic fills one register for each 4 bytes of its type (R257, R265). -/
theorem wordsOf_atomSize (ty v : Nat) : wordsOf (atomSize ty) v = (List.range (atomSize ty / 4)).map fun i => BitVec.ofNat 32 (v / 2 ^ (32 * i)) := by
  by_cases wide : ty = 22
  · simp [wordsOf, atomSize, wide]
  · simp [wordsOf, atomSize, wide, List.range_succ]

/-- An atomic whose issue owes no records raises its flags and answers the old value (R123, R266). -/
theorem State.atomAnswer_of_no_log {s : State} {issue : Nat} (h : ∀ l ∈ s.issueLogs, l.issue ≠ issue) (q : HomeReq) (old op ty d c dst : Nat) :
    s.atomAnswer q issue old op ty d c (some dst) =
      ((s.setFlags q.pid (atomNew q.pc.toNat (q.fid % 1024) op ty old d c).flg).giveLoad q.pid (.regs q.fid dst (wordsOf (atomSize ty) old)),
        (atomNew q.pc.toNat (q.fid % 1024) op ty old d c).code) := by
  have kept (f : Flg) (causes : List Nat) : (s.setFlags q.pid f).closeLog issue q.fid causes = s.setFlags q.pid f :=
    State.closeLog_of_no_log (s := s.setFlags q.pid f) h q.fid causes
  simp only [State.atomAnswer, kept]

/-! ### The write -/

@[simp] theorem State.plot?_store (s : State) (a : Nat) (bs : List Byte) (pid : Nat) : (s.store a bs).plot? pid = s.plot? pid := rfl

/-- An object none of whose bytes the home keeps from software: no object 0, launch list, crop's count object or EXLOG's object (R10). -/
def State.PlainObject (s : State) (ctx obj : Nat) : Prop :=
  obj ≠ 0 ∧ ∀ k, s.ctx? ctx = some k → k.isList obj = false ∧ k.exlog.toNat % 2 ^ 24 ≠ obj ∧ ∀ z ∈ k.crops, z.count ≠ obj

/-- Software may write every byte of a plain object (R10, R124, R323, R447). -/
theorem State.PlainObject.not_readOnly {s : State} {ctx obj : Nat} {k : Ctx} (h : s.PlainObject ctx obj) (hk : s.ctx? ctx = some k) (off : Nat) :
    s.readOnly k obj off = false := by
  obtain ⟨list, exlog, count⟩ := h.2 k hk
  have other : (field k.exlog.toNat 0 24 == obj) = false := by simpa [field] using exlog
  have noLog : s.isLog k obj = false := by simp [State.isLog, other]
  have noCount : (k.crops.any fun z => z.count == obj && decide (off < 8 * z.layers.length)) = false :=
    List.any_eq_false.2 fun z hz => by simp [count z hz]
  simp [State.readOnly, list, noLog, noCount]

/-- The home keeps nothing of a write to a plain object (R10). -/
theorem State.PlainObject.keepHeader_eq {s : State} {ctx obj : Nat} (h : s.PlainObject ctx obj) (old : List Host.Cell) (off a n : Nat) :
    s.keepHeader old ctx obj off a n = s := by
  unfold State.keepHeader
  cases hk : s.ctx? ctx with
  | none => rfl
  | some k => simp [h.not_readOnly hk]

/-- A write at the home of a plain object is a plain write (R10, R216). -/
theorem State.PlainObject.homeStore_eq {s : State} {ctx obj : Nat} (h : s.PlainObject ctx obj) (off a : Nat) (bs : List Byte) :
    s.homeStore ctx obj off a bs = s.store a bs := by
  have after : (s.store a bs).PlainObject ctx obj := h
  simp only [State.homeStore, if_neg h.1, after.keepHeader_eq]

/-! ### The core's own copy -/

@[simp] theorem State.ownUpdate_mem (s : State) (core ctx obj off : Nat) (bs : List Byte) : (s.ownUpdate core ctx obj off bs).mem = s.mem :=
  State.modCore_mem s core _

@[simp] theorem State.plot?_ownUpdate (s : State) (core ctx obj off : Nat) (bs : List Byte) (pid : Nat) :
    (s.ownUpdate core ctx obj off bs).plot? pid = s.plot? pid :=
  State.plot?_modCore s core _ pid

/-! ### The atomic -/

/-- An atomic at the home as its parts: the flags, the answer, one plain write of the new value, the core's own copy (R266). -/
theorem State.farAtom_of_plain {s : State} {q : HomeReq} {h : PortHit} {issue ty : Nat} (plain : s.PlainObject q.ctx q.obj)
    (noLog : ∀ l ∈ s.issueLogs, l.issue ≠ issue) (clean : s.poisoned h.addr (atomSize ty) = false) (op d c dst : Nat) :
    s.farAtom q h issue op ty d c (some dst) =
      let old := s.loadNat h.addr (atomSize ty)
      let r := atomNew q.pc.toNat (q.fid % 1024) op ty old d c
      let bs := leBytes (atomSize ty) r.code
      (((s.setFlags q.pid r.flg).giveLoad q.pid (.regs q.fid dst (wordsOf (atomSize ty) old))).store h.addr bs).ownUpdate
        q.core q.ctx q.obj q.off bs := by
  have answered (f : Flg) (l : PendLoad) : ((s.setFlags q.pid f).giveLoad q.pid l).PlainObject q.ctx q.obj := plain
  simp only [State.farAtom, clean, Bool.false_eq_true, if_false, State.atomAnswer_of_no_log noLog, (answered _ _).homeStore_eq]

/-- Settles O33: an atomic is its parts, of which the write alone changes memory, and the answer alone the loads under way. -/
theorem atomicAtHome : Obligations.AtomicAtHome := by
  intro s q h issue op ty d c dst p _ _ table hp kept noLog clean
  have plain : s.PlainObject q.ctx q.obj := ⟨table, kept⟩
  simp only [State.farAtom_of_plain plain noLog clean]
  constructor
  · rw [State.ownUpdate_mem, State.store_mem]
    rfl
  · rw [State.plot?_ownUpdate, State.plot?_store, State.plot?_giveLoad, State.plot?_setFlags, hp, ← wordsOf_atomSize]
    exact ⟨_, rfl, rfl⟩

end Sys2Proof.Machine
end

section
/-! SUPPORT. What the way of a line to its home, and what homes perform, leave of a state as it is (R202 to R240, R253, R264 to R270). -/

namespace Sys2Proof.Machine

/-- A state but for its memory, caches, directories, error records and reports: what the way of a line to its home leaves as it is. -/
def State.apart (s : State) : State :=
  { s with dies := [], cores := [], mem := [], tags := [], poison := [], homeWrites := [], owners := [], sums := [], contribs := [], l2 := [],
           writeBacks := [], reports := [] }

@[simp] theorem State.apart_update (t : State) (dies cores mem tags poison homeWrites owners sums contribs l2 writeBacks reports) :
    State.apart
      { t with dies := dies, cores := cores, mem := mem, tags := tags, poison := poison, homeWrites := homeWrites, owners := owners,
               sums := sums, contribs := contribs, l2 := l2, writeBacks := writeBacks, reports := reports } = t.apart := rfl

/-- A fold keeps what each of its steps keeps. -/
theorem foldl_keeps {α β γ : Type} (π : β → γ) {f : β → α → β} {l : List α} (h : ∀ b, ∀ a ∈ l, π (f b a) = π b) (b : β) :
    π (l.foldl f b) = π b :=
  List.foldlRecOn l f (motive := fun c => π c = π b) rfl fun c ih a ha => (h c a ha).trans ih

@[simp] theorem State.foldl_apart {α : Type} {f : State → α → State} (h : ∀ t a, (f t a).apart = t.apart) (l : List α) (s : State) :
    (l.foldl f s).apart = s.apart :=
  foldl_keeps State.apart (fun t a _ => h t a) s

/-! ### Cores, error records, memory -/

@[simp] theorem State.modCore_apart (s : State) (n : Nat) (f : Core → Core) : (s.modCore n f).apart = s.apart := by
  unfold State.modCore State.setCore
  split <;> simp

@[simp] theorem State.logError_apart (s : State) (die src sev unitNum : Nat) (ctx : Option Nat) (obj off : Nat) :
    (s.logError die src sev unitNum ctx obj off).apart = s.apart := by
  simp only [State.logError, State.setDie, State.report]
  split <;> simp

@[simp] theorem State.store_apart (s : State) (a : Nat) (bs : List Byte) : (s.store a bs).apart = s.apart := by
  simp [State.store]

@[simp] theorem State.setTag_apart (s : State) (a : Nat) (t : Bool) : (s.setTag a t).apart = s.apart := by
  simp [State.setTag]

@[simp] theorem State.poisonGranules_apart (s : State) (gs : List Nat) : (s.poisonGranules gs).apart = s.apart := by
  simp [State.poisonGranules]

@[simp] theorem State.write0_apart (s : State) (c : Ctx) (off : Nat) (bs : List Byte) : (s.write0 c off bs).apart = s.apart := by
  induction bs generalizing s off with
  | nil => rfl
  | cons b bs ih =>
    simp only [State.write0]
    split <;> simp [ih]

@[simp] theorem State.keepSeal_apart (s : State) (old : List Host.Cell) (c : Ctx) (off : Nat) : (s.keepSeal old c off).apart = s.apart := by
  simp only [State.keepSeal]
  repeat' split
  all_goals simp

@[simp] theorem State.keepMig_apart (s : State) (c : Ctx) (off : Nat) : (s.keepMig c off).apart = s.apart := by
  simp only [State.keepMig]
  split <;> simp

@[simp] theorem State.keepTable_apart (s : State) (old : List Host.Cell) (ctx off n : Nat) : (s.keepTable old ctx off n).apart = s.apart := by
  simp only [State.keepTable]
  split
  · simp [apply_ite]
  · rfl

@[simp] theorem State.keepHeader_apart (s : State) (old : List Host.Cell) (ctx obj off a n : Nat) :
    (s.keepHeader old ctx obj off a n).apart = s.apart := by
  simp only [State.keepHeader]
  split <;> simp

@[simp] theorem State.homeStore_apart (s : State) (ctx obj off a : Nat) (bs : List Byte) : (s.homeStore ctx obj off a bs).apart = s.apart := by
  simp only [State.homeStore]
  split <;> simp

@[simp] theorem State.putObj_apart (s : State) (ctx obj off : Nat) (bs : List Byte) : (s.putObj ctx obj off bs).apart = s.apart := by
  simp only [State.putObj]
  split <;> simp

/-! ### Sums and slices -/

@[simp] theorem State.setRangeSum_apart (s : State) (e : Entry) (ctx obj off : Nat) (v : Int) :
    (s.setRangeSum e ctx obj off v).apart = s.apart := by
  simp [State.setRangeSum]

@[simp] theorem State.sumsToShadow_apart (s : State) (r : LineRef) : (s.sumsToShadow r).apart = s.apart := by
  simp only [State.sumsToShadow]
  split <;> simp

@[simp] theorem State.showSums_apart (s : State) (e : Entry) (r : LineRef) : (s.showSums e r).apart = s.apart := by
  simp [State.showSums, apply_ite]

@[simp] theorem State.rangeStore_apart (s : State) (e : Entry) (ctx obj off a : Nat) (bs : List Byte) :
    (s.rangeStore e ctx obj off a bs).1.apart = s.apart := by
  simp only [State.rangeStore, State.showSums_apart]
  refine (foldl_keeps (fun acc : State × Flg × List Nat => acc.1.apart) (fun acc el _ => ?_) _).trans (State.store_apart s a bs)
  exact State.setRangeSum_apart ..

@[simp] theorem State.evictL2_apart (s : State) (slot n : Nat) : (s.evictL2 slot n).apart = s.apart := by
  induction n generalizing s with
  | zero => rfl
  | succ n ih =>
    simp only [State.evictL2]
    split <;> simp [ih]

@[simp] theorem State.trimL2_apart (s : State) (slot : Nat) : (s.trimL2 slot).apart = s.apart := by
  simp only [State.trimL2]
  split <;> simp

@[simp] theorem State.noteWrite_apart (s : State) (r : LineRef) : (s.noteWrite r).apart = s.apart := by
  simp [State.noteWrite]

@[simp] theorem State.touchL2_apart (s : State) (r : LineRef) (h : PortHit) (dirty : Bool) : (s.touchL2 r h dirty).apart = s.apart := by
  cases dirty <;> simp only [State.touchL2, if_true, Bool.false_eq_true, if_false] <;> split <;> simp

/-! ### Write-backs, partials, recalls -/

@[simp] theorem State.writeGranule_apart (s : State) (ctx obj line a g : Nat) (cells : List (Nat × Byte)) (tag poison : Bool) :
    (s.writeGranule ctx obj line a g cells tag poison).apart = s.apart := by
  simp only [State.writeGranule]
  split_ifs <;> simp

@[simp] theorem State.discardLine_apart (s : State) (core : Nat) (l : L1Line) : (s.discardLine core l).apart = s.apart := by
  simp [State.discardLine]

@[simp] theorem State.putLine_apart (s : State) (core : Nat) (l : L1Line) : (s.putLine core l).apart = s.apart := by
  simp only [State.putLine]
  split <;> simp

@[simp] theorem State.putPartials_apart (s : State) (core : Nat) (l : L1Line) : (s.putPartials core l).apart = s.apart := by
  simp only [State.putPartials]
  split
  · simp [apply_ite]
  · split <;> simp [apply_ite]

@[simp] theorem State.land_apart (s : State) (core : Nat) (l : L1Line) : (s.land core l).apart = s.apart := by
  simp only [State.land]
  split <;> simp

@[simp] theorem State.landWhere_apart (s : State) (core : Nat) (p : L1Line → Bool) : (s.landWhere core p).apart = s.apart := by
  simp [State.landWhere]

@[simp] theorem State.applyPartials_apart (s : State) (core : Nat) (l : L1Line) : (s.applyPartials core l).apart = s.apart := by
  simp [State.applyPartials]

/-- A contributor of a range line returns its partials to the home (R240). -/
def State.giveBack (s : State) (r : LineRef) (core : Nat) : State :=
  let t := s.landWhere core fun l => l.ref == r && l.kind == .psum
  match (t.core core).line? r.ctx r.obj r.line 2 none with
  | some l => t.applyPartials core l
  | none => { t with contribs := t.contribs.filter fun z => !(z.1 == r && z.2 == core) }

@[simp] theorem State.giveBack_apart (s : State) (r : LineRef) (core : Nat) : (s.giveBack r core).apart = s.apart := by
  simp only [State.giveBack]
  split <;> simp

/-- A gather is what each contributor gives back, and the read values of the sums then (R240). -/
theorem State.gather_eq (s : State) (r : LineRef) : s.gather r =
    let t := (s.contribs.filter fun q => q.1 == r).foldl (fun t q => t.giveBack r q.2) s
    match (t.ctx? r.ctx).bind fun c => t.entry? c r.obj with
    | some e => if e.crty = 0 then t else t.showSums e r
    | none => t := rfl

@[simp] theorem State.gather_apart (s : State) (r : LineRef) : (s.gather r).apart = s.apart := by
  simp only [State.gather_eq]
  split
  · split <;> simp
  · simp

@[simp] theorem State.recallFrom_apart (s : State) (core : Nat) (r : LineRef) (byOther : Bool) :
    (s.recallFrom core r byOther).apart = s.apart := by
  simp only [State.recallFrom]
  repeat' split
  all_goals simp


/-! ### What homes leave -/

/-- A state but for what homes and the machine's answers to members change. -/
def State.outside (s : State) : State :=
  { s.apart with plots := [], engineOwned := [], homeQ := [], issueLogs := [], relRecs := [], atomLast := [], drains := [], hostAtomics := [],
                 poisonOnce := [], logWrites := [], readers := [] }

@[simp] theorem State.outside_update (t : State) (dies cores mem tags poison homeWrites owners sums contribs l2 writeBacks reports plots engineOwned
      homeQ issueLogs relRecs atomLast drains hostAtomics poisonOnce logWrites readers) :
    State.outside
      { t with dies := dies, cores := cores, mem := mem, tags := tags, poison := poison, homeWrites := homeWrites, owners := owners,
               sums := sums, contribs := contribs, l2 := l2, writeBacks := writeBacks, reports := reports, plots := plots,
               engineOwned := engineOwned, homeQ := homeQ, issueLogs := issueLogs, relRecs := relRecs, atomLast := atomLast, drains := drains,
               hostAtomics := hostAtomics, poisonOnce := poisonOnce, logWrites := logWrites, readers := readers } = t.outside := rfl

theorem State.outside_of_apart {s t : State} (h : t.apart = s.apart) : t.outside = s.outside :=
  show t.apart.outside = s.apart.outside from congrArg State.outside h

@[simp] theorem State.foldl_outside {α : Type} {f : State → α → State} (h : ∀ t a, (f t a).outside = t.outside) (l : List α) (s : State) :
    (l.foldl f s).outside = s.outside :=
  foldl_keeps State.outside (fun t a _ => h t a) s

@[simp] theorem State.modCore_outside (s : State) (n : Nat) (f : Core → Core) : (s.modCore n f).outside = s.outside :=
  outside_of_apart (s.modCore_apart n f)

@[simp] theorem State.logError_outside (s : State) (die src sev unitNum : Nat) (ctx : Option Nat) (obj off : Nat) :
    (s.logError die src sev unitNum ctx obj off).outside = s.outside :=
  outside_of_apart (s.logError_apart ..)

@[simp] theorem State.setTag_outside (s : State) (a : Nat) (t : Bool) : (s.setTag a t).outside = s.outside :=
  outside_of_apart (s.setTag_apart a t)

@[simp] theorem State.store_outside (s : State) (a : Nat) (bs : List Byte) : (s.store a bs).outside = s.outside :=
  outside_of_apart (s.store_apart a bs)

@[simp] theorem State.storeNat_outside (s : State) (a n v : Nat) : (s.storeNat a n v).outside = s.outside :=
  outside_of_apart (s.store_apart a _)

@[simp] theorem State.poisonLine_outside (s : State) (a : Nat) : (s.poisonLine a).outside = s.outside :=
  outside_of_apart (s.poisonGranules_apart _)

@[simp] theorem State.homeStore_outside (s : State) (ctx obj off a : Nat) (bs : List Byte) :
    (s.homeStore ctx obj off a bs).outside = s.outside :=
  outside_of_apart (s.homeStore_apart ..)

@[simp] theorem State.rangeStore_outside (s : State) (e : Entry) (ctx obj off a : Nat) (bs : List Byte) :
    (s.rangeStore e ctx obj off a bs).1.outside = s.outside :=
  outside_of_apart (s.rangeStore_apart ..)

@[simp] theorem State.touchL2_outside (s : State) (r : LineRef) (h : PortHit) (dirty : Bool) : (s.touchL2 r h dirty).outside = s.outside :=
  outside_of_apart (s.touchL2_apart r h dirty)

@[simp] theorem State.land_outside (s : State) (core : Nat) (l : L1Line) : (s.land core l).outside = s.outside :=
  outside_of_apart (s.land_apart core l)

@[simp] theorem State.applyPartials_outside (s : State) (core : Nat) (l : L1Line) : (s.applyPartials core l).outside = s.outside :=
  outside_of_apart (s.applyPartials_apart core l)

@[simp] theorem State.gather_outside (s : State) (r : LineRef) : (s.gather r).outside = s.outside :=
  outside_of_apart (s.gather_apart r)

@[simp] theorem State.recallFrom_outside (s : State) (core : Nat) (r : LineRef) (byOther : Bool) :
    (s.recallFrom core r byOther).outside = s.outside :=
  outside_of_apart (s.recallFrom_apart core r byOther)

@[simp] theorem State.modPlot_outside (s : State) (pid : Nat) (f : Plot → Plot) : (s.modPlot pid f).outside = s.outside := rfl

@[simp] theorem State.setFlags_outside (s : State) (pid : Nat) (f : Flg) : (s.setFlags pid f).outside = s.outside := rfl

@[simp] theorem State.giveLoad_outside (s : State) (pid : Nat) (l : PendLoad) : (s.giveLoad pid l).outside = s.outside := rfl

@[simp] theorem State.giveStore_outside (s : State) (pid : Nat) (x : PendStore) : (s.giveStore pid x).outside = s.outside := rfl

@[simp] theorem State.logIssue_outside (s : State) (p : Plot) (pc unit ty : Nat) (l : List (Nat × List Nat)) :
    (s.logIssue p pc unit ty l).outside = s.outside :=
  (congrArg State.outside ((memStep_logIssue p pc unit ty l).only s)).trans rfl

/-! ### Engines that own lines, write-backs -/

@[simp] theorem State.logEngine_outside (s : State) (p : Plot) (d : Cmd) (ty : Nat) (causes : List Nat) :
    (s.logEngine p d ty causes).outside = s.outside := by
  simp [State.logEngine]

@[simp] theorem State.engineWrite_outside (s : State) (p : Plot) (d : Cmd) (off : Nat) (bs : List Byte) :
    (s.engineWrite p d off bs).1.outside = s.outside := by
  simp only [State.engineWrite]
  split
  · rfl
  · split_ifs <;> simp

@[simp] theorem State.engineCells_outside (s : State) (p : Plot) (d : Cmd) (cells : List (Nat × List Byte)) :
    (s.engineCells p d cells).1.outside = s.outside := by
  refine foldl_keeps (fun acc : State × Option FaultRec => acc.1.outside) (fun acc c _ => ?_) _
  split <;> simp

@[simp] theorem State.engineFlush_outside (s : State) (core order : Nat) (r : LineRef) : (s.engineFlush core order r).outside = s.outside := by
  simp only [State.engineFlush]
  split
  · simp
  · split <;> simp

@[simp] theorem State.homeReady_outside (s : State) (r : LineRef) (by_ : Option Nat) : (s.homeReady r by_).outside = s.outside := by
  simp [State.homeReady]

@[simp] theorem State.applyLine_outside (s : State) (core : Nat) (l : L1Line) : (s.applyLine core l).outside = s.outside := by
  simp only [State.applyLine]
  split <;> simp

@[simp] theorem State.deliver_outside (s : State) (core : Nat) (p : L1Line → Bool) : (s.deliver core p).outside = s.outside := by
  simp [State.deliver]

@[simp] theorem State.writeBackLine_outside (s : State) (core : Nat) (l : L1Line) : (s.writeBackLine core l).outside = s.outside := by
  simp [State.writeBackLine]

@[simp] theorem State.writeBackWhere_outside (s : State) (core : Nat) (p : L1Line → Bool) : (s.writeBackWhere core p).outside = s.outside := by
  simp [State.writeBackWhere, apply_ite]

@[simp] theorem State.ownBack_outside (s : State) (core : Nat) (r : LineRef) : (s.ownBack core r).outside = s.outside := by
  simp [State.ownBack]

@[simp] theorem State.flushCore_outside (s : State) (core : Nat) : (s.flushCore core).outside = s.outside := by
  simp [State.flushCore, State.flushWhere]

/-! ### Accesses at their homes -/

@[simp] theorem State.closeLog_outside (s : State) (issue fid : Nat) (causes : List Nat) : (s.closeLog issue fid causes).outside = s.outside := by
  simp only [State.closeLog]
  repeat' split
  all_goals simp

@[simp] theorem State.refuse_outside (s : State) (q : HomeReq) (code : FaultCode) : (s.refuse q code).outside = s.outside := by
  simp only [State.refuse, State.refuseEngine]
  split
  · simp
  · split <;> simp

@[simp] theorem State.ownUpdate_outside (s : State) (core ctx obj off : Nat) (bs : List Byte) :
    (s.ownUpdate core ctx obj off bs).outside = s.outside := by
  simp [State.ownUpdate]

@[simp] theorem State.recordRelease_outside (s : State) (r : LineRef) (core epoch : Nat) : (s.recordRelease r core epoch).outside = s.outside := by
  simp only [State.recordRelease]
  split <;> simp

@[simp] theorem State.releaseFirst_outside (s : State) (r : LineRef) (core : Nat) (epoch : Option Nat) :
    (s.releaseFirst r core epoch).outside = s.outside := by
  simp only [State.releaseFirst]
  split <;> simp

@[simp] theorem State.atomAnswer_outside (s : State) (q : HomeReq) (issue old op ty d c : Nat) (dst : Option Nat) :
    (s.atomAnswer q issue old op ty d c dst).1.outside = s.outside := by
  cases dst <;> simp [State.atomAnswer]

@[simp] theorem State.atomPoison_outside (s : State) (q : HomeReq) (issue : Nat) (dst : Option Nat) :
    (s.atomPoison q issue dst).outside = s.outside := by
  cases dst <;> simp [State.atomPoison]

@[simp] theorem State.takeOwnership_outside (s : State) (q : HomeReq) (h : PortHit) : (s.takeOwnership q h).outside = s.outside := by
  simp only [State.takeOwnership]
  split <;> simp

@[simp] theorem State.nearAtom_outside (s : State) (q : HomeReq) (issue op ty d c : Nat) (dst : Option Nat) :
    (s.nearAtom q issue op ty d c dst).outside = s.outside := by
  simp only [State.nearAtom]
  split
  · rfl
  · split <;> simp

@[simp] theorem State.farAtom_outside (s : State) (q : HomeReq) (h : PortHit) (issue op ty d c : Nat) (dst : Option Nat) :
    (s.farAtom q h issue op ty d c dst).outside = s.outside := by
  simp only [State.farAtom]
  split <;> simp

@[simp] theorem State.trainAtom_outside (s : State) (q : HomeReq) (h : PortHit) (near : Bool) : (s.trainAtom q h near).outside = s.outside := by
  simp only [State.trainAtom]
  split_ifs <;> simp

@[simp] theorem State.afterRead_outside (s : State) (h : PortHit) (n : Nat) : (s.afterRead h n).outside = s.outside := by
  simp only [State.afterRead, State.sourceRead]
  split <;> simp

@[simp] theorem State.readyRead_outside (s : State) (q : HomeReq) (h : PortHit) : (s.readyRead q h).outside = s.outside := by
  simp only [State.readyRead]
  split <;> simp

@[simp] theorem State.invalidate_outside (s : State) (core : Nat) : (s.invalidate core).outside = s.outside := by
  simp [State.invalidate]

@[simp] theorem State.performAcquire_outside (s : State) (q : HomeReq) (size dst : Nat) : (s.performAcquire q size dst).outside = s.outside := by
  simp only [State.performAcquire]
  split
  · simp
  · split <;> simp

@[simp] theorem State.performLat_outside (s : State) (q : HomeReq) (ty : Nat) (acq : Bool) (dst v : Nat) :
    (s.performLat q ty acq dst v).outside = s.outside := by
  cases acq <;> simp [State.performLat]

@[simp] theorem State.homePut_outside (s : State) (issue : Nat) (q : HomeReq) (h : PortHit) (bs : List Byte) :
    (s.homePut issue q h bs).outside = s.outside := by
  simp only [State.homePut]
  split <;> simp

@[simp] theorem State.putFree_outside (s : State) (issue : Nat) (rest : List HomeReq) (q : HomeReq) (h : PortHit) (bs : List Byte) :
    (s.putFree issue rest q h bs).outside = s.outside := by
  simp only [State.putFree]
  split_ifs <;> simp

@[simp] theorem State.grantEngine_outside (s : State) (q : HomeReq) (h : PortHit) (order : Nat) : (s.grantEngine q h order).outside = s.outside := by
  simp only [State.grantEngine]
  split <;> simp

@[simp] theorem State.markChanged_outside (s : State) (die : Nat) (e : Entry) (r : LineRef) (eager : Bool) :
    (s.markChanged die e r eager).outside = s.outside := rfl

@[simp] theorem State.appendLog_outside (s : State) (q : HomeReq) (h : PortHit) (lim rec_ : Nat) :
    (s.appendLog q h lim rec_).outside = s.outside := by
  simp only [State.appendLog]
  repeat' split
  all_goals simp

@[simp] theorem State.waitDrains_outside (s : State) (r : LineRef) (g : Request) : (s.waitDrains r g).outside = s.outside := by
  simp [State.waitDrains, State.startDrains]

@[simp] theorem State.servePart_outside (s : State) (issue : Nat) (rest : List HomeReq) (q : HomeReq) :
    (s.servePart issue rest q).outside = s.outside := by
  simp only [State.servePart]
  repeat' split
  all_goals simp

@[simp] theorem State.serveParts_outside (s : State) (issue : Nat) (l : List HomeReq) : (s.serveParts issue l).outside = s.outside := by
  induction l generalizing s with
  | nil => rfl
  | cons q l ih => simp only [State.serveParts, ih, State.servePart_outside]

/-- The fate of an atomic at the port: the port's fault, that of its object and page, or its place (R252, R268, R269). -/
def State.atomFate (s : State) (q : HomeReq) : Except FaultCode PortHit :=
  match s.portOf q, q.op with
  | .ok h, .atom op ty _ _ _ =>
    match atomFault h op ty with
    | some e => .error e
    | none => .ok h
  | r, _ => r

/-- The run of a request's atomics that the port takes, all at one line (R267, R269, R270). -/
def State.atomRun (s : State) (issue : Nat) (run : List (HomeReq × PortHit)) : State :=
  match run with
  | [] => s
  | (q, h) :: _ =>
    if h.isHost && h.desc.home == 1 then { s with hostAtomics := s.hostAtomics ++ [⟨run.map (·.1), issue⟩] }
    else
      let near := s.nearLine q h
      let s := s.trainAtom q h near
      let r := q.ref h
      let s := if near then s.takeOwnership q h else ((s.ownBack q.core r).homeReady r (some q.core)).touchL2 r h true
      run.foldl (fun t z =>
        match z.1.op with
        | .atom op ty d c dst => if near then t.nearAtom z.1 issue op ty d c dst else t.farAtom z.1 z.2 issue op ty d c dst
        | _ => t) s

/-- A request's atomics: those that the port refuses are answered, the others run (R267). -/
theorem State.serveAtoms_eq (s : State) (g : Request) : s.serveAtoms g =
    (g.parts.foldl (fun t q =>
      match s.atomFate q with
      | .error e => (t.closeLog g.issue q.fid []).refuse q e
      | .ok _ => t) s).atomRun g.issue (g.parts.filterMap fun q =>
        match s.atomFate q with
        | .error _ => none
        | .ok h => some (q, h)) := rfl

@[simp] theorem State.atomRun_outside (s : State) (issue : Nat) (run : List (HomeReq × PortHit)) : (s.atomRun issue run).outside = s.outside := by
  have one (near : Bool) (t : State) (z : HomeReq × PortHit) : (match z.1.op with
      | .atom op ty d c dst => if near then t.nearAtom z.1 issue op ty d c dst else t.farAtom z.1 z.2 issue op ty d c dst
      | _ => t).outside = t.outside := by
    split
    · split <;> simp
    · rfl
  simp only [State.atomRun]
  split
  · rfl
  · split
    · simp
    · rw [State.foldl_outside (one _)]
      split <;> simp

@[simp] theorem State.serveAtoms_outside (s : State) (g : Request) : (s.serveAtoms g).outside = s.outside := by
  rw [State.serveAtoms_eq, State.atomRun_outside, State.foldl_outside]
  intro t q
  split <;> simp

@[simp] theorem State.serve_outside (s : State) (g : Request) : (s.serve g).outside = s.outside := by
  simp only [State.serve]
  split
  · simp
  · split
    · split <;> simp
    · simp

@[simp] theorem State.loseLine_outside (s : State) (r : LineRef) : (s.loseLine r).outside = s.outside := by
  simp only [State.loseLine]
  split <;> simp

end Sys2Proof.Machine
end

section
/-! SUPPORT. Dies, error records, links and poison after an update (R456, R459, R460, R466). -/

namespace Sys2Proof.Machine

/-! ### Replacing an element of a list by its number -/

/-- A find by key over a map that puts an element in place of those of its key. -/
theorem find_replace {α : Type} {l : List α} {key : α → Nat} {b : α} {k : Nat} (hb : key b = k) (h : ∃ a ∈ l, key a = k) :
    (l.map fun a => if key a == key b then b else a).find? (fun a => key a == k) = some b := by
  subst hb
  obtain ⟨a, ha, e⟩ := h
  induction l with
  | nil => simp at ha
  | cons c l ih =>
    by_cases hc : key c = key b
    · simp [hc]
    · have : a ∈ l := by
        rcases List.mem_cons.1 ha with rfl | ha
        · exact absurd e hc
        · exact ha
      simpa [hc] using ih this

/-! ### Dies -/

theorem State.die_num (s : State) (n : Nat) : (s.die n).num = n := by
  unfold State.die
  cases h : s.dies.find? (fun d => d.num == n) with
  | none => rfl
  | some d => simpa using List.find?_some h

theorem State.die_setDie {s : State} {d : Die} {n : Nat} (hd : d.num = n) (h : ∃ e ∈ s.dies, e.num = n) : (s.setDie d).die n = d := by
  simp only [State.die, State.setDie, find_replace hd h]

theorem State.die_modDie {s : State} {n : Nat} {f : Die → Die} (hf : ∀ d, (f d).num = d.num) (h : ∃ d ∈ s.dies, d.num = n) :
    (s.modDie n f).die n = f (s.die n) :=
  State.die_setDie (by rw [hf, State.die_num]) h

@[simp] theorem State.core_modDie (s : State) (n : Nat) (f : Die → Die) (k : Nat) : (s.modDie n f).core k = s.core k := rfl

@[simp] theorem State.plot?_modDie (s : State) (n : Nat) (f : Die → Die) (pid : Nat) : (s.modDie n f).plot? pid = s.plot? pid := rfl

/-! ### Error records (R466) -/

theorem Die.logError_num (d : Die) (src sev unitNum : Nat) (ctx : Option Nat) (obj off : Nat) :
    (d.logError src sev unitNum ctx obj off).num = d.num := by
  simp only [Die.logError]
  repeat' split
  all_goals rfl

/-- The first record of an empty error queue. -/
theorem Die.logError_errq {d : Die} (h : d.errq = []) (src sev unitNum : Nat) (ctx : Option Nat) (obj off : Nat) :
    (d.logError src sev unitNum ctx obj off).errq =
      [{ cyc := d.cyc, off := off, obj := obj, ctx := ctx, unitNum := unitNum, die := d.num, src := src, sev := sev, count := 1, seq := d.errSeq }] := by
  simp [Die.logError, h]

/-- A record changes the dies, and adds a report where it is not of a corrected error. -/
theorem State.logError_eq (s : State) (die src sev unitNum : Nat) (ctx : Option Nat) (obj off : Nat) :
    s.logError die src sev unitNum ctx obj off =
      { s.modDie die (fun d => d.logError src sev unitNum ctx obj off) with reports := (s.logError die src sev unitNum ctx obj off).reports } := by
  simp only [State.logError]
  split <;> rfl

theorem State.logError_corrected (s : State) (die src unitNum : Nat) (ctx : Option Nat) (obj off : Nat) :
    s.logError die src 0 unitNum ctx obj off = s.modDie die fun d => d.logError src 0 unitNum ctx obj off := by
  simp [State.logError, State.modDie]

section
variable (s : State) (die src sev unitNum : Nat) (ctx : Option Nat) (obj off : Nat)

@[simp] theorem State.logError_status : (s.logError die src sev unitNum ctx obj off).status = s.status := by rw [State.logError_eq]; rfl
@[simp] theorem State.logError_links : (s.logError die src sev unitNum ctx obj off).links = s.links := by rw [State.logError_eq]; rfl
@[simp] theorem State.logError_yotisDown : (s.logError die src sev unitNum ctx obj off).yotisDown = s.yotisDown := by rw [State.logError_eq]; rfl
@[simp] theorem State.logError_cores : (s.logError die src sev unitNum ctx obj off).cores = s.cores := by rw [State.logError_eq]; rfl
@[simp] theorem State.logError_plots : (s.logError die src sev unitNum ctx obj off).plots = s.plots := by rw [State.logError_eq]; rfl
@[simp] theorem State.logError_mem : (s.logError die src sev unitNum ctx obj off).mem = s.mem := by rw [State.logError_eq]; rfl
@[simp] theorem State.logError_tags : (s.logError die src sev unitNum ctx obj off).tags = s.tags := by rw [State.logError_eq]; rfl
@[simp] theorem State.logError_poison : (s.logError die src sev unitNum ctx obj off).poison = s.poison := by rw [State.logError_eq]; rfl
@[simp] theorem State.logError_relRecs : (s.logError die src sev unitNum ctx obj off).relRecs = s.relRecs := by rw [State.logError_eq]; rfl
@[simp] theorem State.logError_owners : (s.logError die src sev unitNum ctx obj off).owners = s.owners := by rw [State.logError_eq]; rfl
@[simp] theorem State.logError_contribs : (s.logError die src sev unitNum ctx obj off).contribs = s.contribs := by rw [State.logError_eq]; rfl
@[simp] theorem State.logError_engineOwned : (s.logError die src sev unitNum ctx obj off).engineOwned = s.engineOwned := by
  rw [State.logError_eq]; rfl
@[simp] theorem State.logError_homeQ : (s.logError die src sev unitNum ctx obj off).homeQ = s.homeQ := by rw [State.logError_eq]; rfl
@[simp] theorem State.logError_drains : (s.logError die src sev unitNum ctx obj off).drains = s.drains := by rw [State.logError_eq]; rfl
@[simp] theorem State.logError_lostControl : (s.logError die src sev unitNum ctx obj off).lostControl = s.lostControl := by
  rw [State.logError_eq]; rfl

@[simp] theorem State.plot?_logError (pid : Nat) : (s.logError die src sev unitNum ctx obj off).plot? pid = s.plot? pid := by
  simp [State.plot?]

@[simp] theorem State.core_logError (n : Nat) : (s.logError die src sev unitNum ctx obj off).core n = s.core n := by
  simp [State.core]

@[simp] theorem State.link?_logError (n : Nat) : (s.logError die src sev unitNum ctx obj off).link? n = s.link? n := by
  simp [State.link?]

/-- A die with no record yet takes the record as its only one. -/
theorem State.die_logError_errq (h : ∃ d ∈ s.dies, d.num = die) (none : (s.die die).errq = []) :
    ((s.logError die src sev unitNum ctx obj off).die die).errq =
      [{ cyc := (s.die die).cyc, off := off, obj := obj, ctx := ctx, unitNum := unitNum, die := die, src := src, sev := sev, count := 1,
         seq := (s.die die).errSeq }] := by
  rw [State.logError_eq]
  change ((s.modDie die fun d => d.logError src sev unitNum ctx obj off).die die).errq = _
  rw [State.die_modDie (fun d => d.logError_num ..) h, Die.logError_errq none, State.die_num]

end

/-! ### Links -/

theorem State.link?_num {s : State} {b : Nat} {l : Link} (h : s.link? b = some l) : l.num = b := by
  simpa using List.find?_some h

theorem State.link?_setLink {s t : State} {b : Nat} {l k : Link} (kept : t.links = s.links) (h : s.link? b = some l) (hk : k.num = l.num) :
    (t.setLink k).link? b = some k := by
  have num := State.link?_num h
  simp only [State.link?, State.setLink, kept]
  exact find_replace (hk.trans num) ⟨l, List.mem_of_find?_eq_some h, num⟩

@[simp] theorem Link.retrain_num (l : Link) (now : Nat) : (l.retrain now).num = l.num := by
  unfold Link.retrain
  split <;> rfl

/-- The boundary of a flit that is lost retrains, its count of replays begins anew (R460). -/
theorem State.link?_loseFlit {s : State} {b : Nat} {l : Link} (h : s.link? b = some l) :
    (s.loseFlit l).link? b = some ({ l with replays := 0 }.retrain s.now) := by
  simp only [State.loseFlit, State.link?_logError]
  exact State.link?_setLink rfl h (by simp)

@[simp] theorem State.loseFlit_poison (s : State) (l : Link) : (s.loseFlit l).poison = s.poison := by
  simp [State.loseFlit, State.setLink]

/-! ### Poison -/

theorem mem_insertNat {l : List Nat} {n x : Nat} : x ∈ insertNat l n ↔ x = n ∨ x ∈ l := by
  induction l with
  | nil => simp [insertNat]
  | cons a l ih =>
    unfold insertNat
    split_ifs with lt eq
    · simp
    · simp [eq]
    · simp only [List.mem_cons, ih]
      tauto

theorem mem_withAll {l gs : List Nat} {x : Nat} : x ∈ withAll l gs ↔ x ∈ gs ∨ x ∈ l := by
  unfold withAll
  induction gs generalizing l with
  | nil => simp
  | cons g gs ih =>
    simp only [List.foldl_cons, ih, mem_insertNat, List.mem_cons]
    tauto

theorem mem_without {l gs : List Nat} {x : Nat} : x ∈ without l gs ↔ x ∈ l ∧ x ∉ gs := by
  simp [without]

/-- A granule that is poisoned is poisoned, and its tag is clear (R459). -/
theorem State.poisonGranules_of_mem (s : State) {gs : List Nat} {g : Nat} (h : g ∈ gs) :
    g ∈ (s.poisonGranules gs).poison ∧ g ∉ (s.poisonGranules gs).tags :=
  ⟨mem_withAll.2 (.inl h), fun tagged => (mem_without.1 tagged).2 h⟩

/-- The granules of the line of an address. -/
theorem mem_granules_line {a g : Nat} : g ∈ granules (a / 128 * 128) 128 ↔ ∃ i < 8, g = 8 * (a / 128) + i := by
  have count : (a / 128 * 128 + 128 - 1) / 16 - a / 128 * 128 / 16 + 1 = 8 := by omega
  have first : a / 128 * 128 / 16 = 8 * (a / 128) := by omega
  rw [granules, if_neg (by omega), count, first]
  simp only [List.mem_map, List.mem_range]
  constructor
  · rintro ⟨i, hi, rfl⟩
    exact ⟨i, hi, by omega⟩
  · rintro ⟨i, hi, rfl⟩
    exact ⟨i, hi, by omega⟩

/-- The eight granules of a line that is poisoned (R459). -/
theorem State.poisonLine_granules (s : State) (a : Nat) {g : Nat} (h : g < 8) :
    8 * (a / 128) + g ∈ (s.poisonLine a).poison ∧ 8 * (a / 128) + g ∉ (s.poisonLine a).tags :=
  s.poisonGranules_of_mem (mem_granules_line.2 ⟨g, h, rfl⟩)

/-- An access on a line of which every granule is poisoned meets poison. -/
theorem State.poisoned_of_line {s : State} {a addr n : Nat} (h : ∀ g < 8, 8 * (a / 128) + g ∈ s.poison) (line : addr / 128 = a / 128)
    (hn : 0 < n) : s.poisoned addr n = true := by
  have first : addr / 16 ∈ s.poison := by
    have := h (addr / 16 % 8) (by omega)
    rwa [show 8 * (a / 128) + addr / 16 % 8 = addr / 16 by omega] at this
  simp only [State.poisoned, granules, if_neg (show n ≠ 0 by omega), List.any_eq_true, List.mem_map, List.mem_range]
  exact ⟨addr / 16, ⟨0, by omega, by omega⟩, by simpa using first⟩

end Sys2Proof.Machine
end

section
/-! SUPPORT. Where objects lie; a plain load at the home of a line that nobody holds; a line that its home gives up (R390 to R399, R462). -/

namespace Sys2Proof.Machine

/-! ### Places depend on contexts, memory and migrations alone -/

/-- Two states in which every object lies at the same place (R390 to R397). -/
structure State.SameTables (s t : State) : Prop where
  ctxs : t.ctxs = s.ctxs
  mem : t.mem = s.mem
  migrations : t.migrations = s.migrations

namespace State.SameTables

variable {s t : State} (same : s.SameTables t)
include same

theorem read0 (c : Ctx) (off n : Nat) : t.read0 c off n = s.read0 c off n := by
  induction n generalizing off with
  | zero => rfl
  | succ n ih => simp only [State.read0, ih, same.mem]

theorem ctx? (n : Nat) : t.ctx? n = s.ctx? n := by
  simp only [State.ctx?, same.ctxs]

theorem entry? (c : Ctx) (obj : Nat) : t.entry? c obj = s.entry? c obj := by
  simp only [State.entry?, same.read0]

theorem desc (c : Ctx) (obj : Nat) (e : Entry) (p : Nat) : t.desc c obj e p = s.desc c obj e p := by
  simp only [State.desc, same.read0]

theorem routed (ctx obj page l : Nat) (d : PageDesc) : t.routed ctx obj page l d = s.routed ctx obj page l d := by
  simp only [State.routed, same.migrations]

theorem place? (die ctx obj off : Nat) : t.place? die ctx obj off = s.place? die ctx obj off := by
  simp only [State.place?, same.ctx?, same.entry?, same.desc, same.routed]

theorem port (die ctx : Nat) (system : Bool) (kind obj need off : Nat) :
    t.port die ctx system kind obj need off = s.port die ctx system kind obj need off := by
  simp only [State.port, same.ctx?, same.entry?, same.desc, same.routed]

theorem portOf (q : HomeReq) : t.portOf q = s.portOf q := by
  simp only [State.portOf, same.ctx?, same.read0, same.port]

theorem ref (g : Request) : g.ref t = g.ref s := by
  simp only [Request.ref, Request.hit?, same.place?]

theorem lineAt (r : LineRef) : t.lineAt r = s.lineAt r := by
  simp only [State.lineAt, same.place?]

end State.SameTables

/-- Where the port takes an access, its line lies where the port finds it. -/
theorem State.place?_of_port {s : State} {die ctx kind obj need off : Nat} {system : Bool} {h : PortHit}
    (ok : s.port die ctx system kind obj need off = .ok h) : s.place? die ctx obj off = some h := by
  unfold State.port at ok
  unfold State.place?
  split at ok
  · simp at ok
  next c hc =>
    split at ok
    · simp at ok
    next e he =>
      dsimp only at ok
      split_ifs at ok with _ _ _ page there
      simpa only [hc, he, if_neg page, if_neg there, Except.ok.injEq, Option.some.injEq] using ok

/-- The line of a plain load that the port takes. -/
theorem Request.ref_of_load {s : State} {g : Request} {z : HomeReq} {size dst : Nat} {sx : Bool} {h : PortHit} (parts : g.parts = [z])
    (op : z.op = .load size sx dst) (ok : s.portOf z = .ok h) : g.ref s = some (z.ref h) := by
  have port : s.port (dieOf z.core) z.ctx z.system z.cap.kind z.obj z.op.need z.off = .ok h := by
    simp only [State.portOf, op, Bool.false_and, Bool.false_eq_true, if_false] at ok ⊢
    split at ok
    · simp at ok
    next h' e => rw [e, ok]
  simp only [Request.ref, Request.hit?, parts, State.place?_of_port port]

/-! ### A plain load served on a line that nobody holds -/

theorem State.ownBack_of_empty {s : State} {core : Nat} (lines : (s.core core).lines = []) (sent : s.writeBacks = []) (r : LineRef) :
    s.ownBack core r = s := by
  have delivered (p : L1Line → Bool) : s.deliver core p = s := by
    simp only [State.deliver, sent, List.filter_nil, List.foldl_nil]
    rw [← sent]
  simp only [State.ownBack, State.writeBackWhere, delivered, lines, List.foldl_nil]

theorem State.homeReady_of_unowned {s : State} {r : LineRef} (owners : ∀ x ∈ s.owners, x.1 ≠ r) (engines : ∀ x ∈ s.engineOwned, x.1 ≠ r)
    (by_ : Option Nat) : s.homeReady r by_ = s := by
  have o : s.owners.filter (fun q => q.1 == r) = [] := by simpa [List.filter_eq_nil_iff] using owners
  have e : s.engineOwned.filter (fun q => q.1 == r) = [] := by simpa [List.filter_eq_nil_iff] using engines
  simp only [State.homeReady, o, e, List.foldl_nil]

theorem State.sumsToShadow_of_none {s : State} (none : s.sums = []) (r : LineRef) : s.sumsToShadow r = s := by
  have kept : { s with sums := [] } = s := by rw [← none]
  simp only [State.sumsToShadow, none, List.filter_nil, List.foldl_nil, kept]
  split <;> rfl

/-- A slice without sums gives up lines, nothing else. -/
theorem State.evictL2_of_no_sums {s : State} (none : s.sums = []) (slot n : Nat) : ∃ l, s.evictL2 slot n = { s with l2 := l } := by
  induction n generalizing s with
  | zero => exact ⟨s.l2, rfl⟩
  | succ n ih =>
    simp only [State.evictL2]
    split
    next l _ =>
      rw [State.sumsToShadow_of_none (s := { s with l2 := s.l2.erase l }) none]
      exact ih (s := { s with l2 := s.l2.erase l }) none
    · exact ⟨s.l2, rfl⟩

theorem State.trimL2_of_no_sums {s : State} (none : s.sums = []) (slot : Nat) : ∃ l, s.trimL2 slot = { s with l2 := l } := by
  simp only [State.trimL2]
  split
  · exact ⟨s.l2, rfl⟩
  · exact State.evictL2_of_no_sums none _ _

theorem State.touchL2_of_no_sums {s : State} (none : s.sums = []) (r : LineRef) (h : PortHit) :
    ∃ l, s.touchL2 r h false = { s with l2 := l } := by
  have trimmed (l : List L2Line) (slot : Nat) : ∃ m, ({ s with l2 := l } : State).trimL2 slot = { s with l2 := m } :=
    State.trimL2_of_no_sums (s := { s with l2 := l }) none slot
  simp only [State.touchL2, Bool.false_eq_true, if_false]
  split
  · exact ⟨s.l2, rfl⟩
  · exact trimmed _ _

/-- A line that no L1 and no engine owns, of an object that is no range, is ready for a read as it stands. -/
theorem State.readyRead_of_free {s : State} {q : HomeReq} {h : PortHit} (lines : (s.core q.core).lines = []) (sent : s.writeBacks = [])
    (none : s.sums = []) (owners : ∀ x ∈ s.owners, x.1 ≠ q.ref h) (engines : ∀ x ∈ s.engineOwned, x.1 ≠ q.ref h) (plain : h.entry.crty = 0) :
    ∃ l, s.readyRead q h = { s with l2 := l } := by
  simp only [State.readyRead, State.ownBack_of_empty lines sent, State.homeReady_of_unowned owners engines, plain, ne_eq, not_true_eq_false,
    if_false]
  exact State.touchL2_of_no_sums none _ h

/-- A home serves a request of one plain load as that load alone. -/
theorem State.serve_load {s : State} {g : Request} {z : HomeReq} {size dst : Nat} {sx : Bool} (parts : g.parts = [z])
    (op : z.op = .load size sx dst) : s.serve g = s.servePart g.issue [] z := by
  have plain : g.atomic = false := by simp [Request.atomic, parts, op]
  have drains : g.drainLine s = none := by
    simp only [Request.drainLine, parts, op, HomeOp.acquires, List.map_cons, List.map_nil, Bool.false_and, Bool.false_eq_true, if_false]
    split <;> rfl
  simp only [State.serve, plain, Bool.false_eq_true, if_false, drains, parts, State.serveParts]

/-- A plain load that finds poison at the home, on a line that nobody holds, is answered with it and changes no queue (R459, R462). -/
theorem State.serve_poisoned_load {s : State} {g : Request} {z : HomeReq} {size dst : Nat} {sx : Bool} {h : PortHit} {p : Plot}
    (parts : g.parts = [z]) (op : z.op = .load size sx dst) (ok : s.portOf z = .ok h) (plain : h.entry.crty = 0)
    (lines : (s.core z.core).lines = []) (sent : s.writeBacks = []) (none : s.sums = []) (owners : ∀ x ∈ s.owners, x.1 ≠ z.ref h)
    (engines : ∀ x ∈ s.engineOwned, x.1 ≠ z.ref h) (bad : s.poisoned h.addr size = true) (hp : s.plot? z.pid = some p) :
    (s.serve g).homeQ = s.homeQ ∧
      (s.serve g).plot? z.pid = some { p with pendLoads := p.pendLoads ++ [.fault z.fid (.late .poison z.pc z.obj z.off 1 2)] } := by
  obtain ⟨l, ready⟩ := State.readyRead_of_free lines sent none owners engines plain
  have bad' : ({ s with l2 := l } : State).poisoned h.addr size = true := bad
  have answered : s.serve g = (({ s with l2 := l } : State).afterRead h size).giveLoad z.pid (.fault z.fid (.late .poison z.pc z.obj z.off 1 2)) := by
    rw [State.serve_load parts op]
    simp only [State.servePart, ok, op, ready, bad', if_true, State.refuse, HomeOp.isLoad, HomeOp.acc]
  have queue : (({ s with l2 := l } : State).afterRead h size).homeQ = s.homeQ := by
    unfold State.afterRead
    split <;> rfl
  have plot : (({ s with l2 := l } : State).afterRead h size).plot? z.pid = some p := by
    unfold State.afterRead
    split <;> exact hp
  rw [answered, State.plot?_giveLoad, plot]
  exact ⟨queue, rfl⟩

/-! ### A line that is given up (R462) -/

/-- The line is poisoned, the copies that the transaction took back are gone (R462). -/
def State.giveUp (s : State) (r : LineRef) : State :=
  let t := match s.lineAt r with
    | some a => s.poisonLine a
    | none => s
  let held := t.owners.filter fun q => q.1 == r
  let t := held.foldl (fun t q => t.modCore q.2 fun k => { k with lines := k.lines.filter fun l => !(l.ref == r && l.kind == .owned) }) t
  (t.contribs.filter fun q => q.1 == r).foldl (fun t q =>
    t.modCore q.2 fun k => { k with lines := k.lines.filter fun l => !(l.ref == r && l.kind == .psum) }) t

/-- The home's records of a line, and the requests that wait on it, are gone (R462). -/
def State.clearLine (s : State) (r : LineRef) : State :=
  { s with
    relRecs := s.relRecs.filter fun q => q.1 != r
    owners := s.owners.filter fun q => q.1 != r
    contribs := s.contribs.filter fun q => q.1 != r
    atomLast := s.atomLast.filter fun q => q.1 != r
    engineOwned := s.engineOwned.filter fun q => q.1 != r
    readers := s.readers.filter fun q => q.1 != r
    writeBacks := s.writeBacks.filter fun w => !(w.line.ref == r && (w.line.kind == .owned || w.line.kind == .psum))
    drains := s.drains.filter fun d => d.line != r
    homeQ := s.homeQ.filter fun q => !s.waitsOn q r }

/-- A home gives a line up: copies, records and waiting requests go, then the requests are served (R462). -/
theorem State.loseLine_eq (s : State) (r : LineRef) : s.loseLine r =
    ((s.giveUp r).homeQ.filter fun q => (s.giveUp r).waitsOn q r).foldl (fun t q => t.serve { q with draining := false })
      ((s.giveUp r).clearLine r) := rfl

theorem State.modCore_eq (s : State) (n : Nat) (f : Core → Core) : s.modCore n f = { s with cores := (s.modCore n f).cores } := by
  unfold State.modCore State.setCore
  split <;> rfl

/-- Changes of cores by which lines alone go. -/
theorem State.foldl_modCore_drop {α : Type} (l : List α) (n : α → Nat) (f : α → Core → Core) (num : ∀ a c, (f a c).num = c.num)
    (drop : ∀ a c, (f a c).lines ⊆ c.lines) (s : State) :
    (∃ cs, l.foldl (fun t a => t.modCore (n a) (f a)) s = { s with cores := cs }) ∧
      ∀ k, ((l.foldl (fun t a => t.modCore (n a) (f a)) s).core k).lines ⊆ (s.core k).lines := by
  induction l generalizing s with
  | nil => exact ⟨⟨s.cores, rfl⟩, fun k => List.Subset.refl _⟩
  | cons a l ih =>
    obtain ⟨⟨cs, e⟩, sub⟩ := ih (s.modCore (n a) (f a))
    refine ⟨⟨cs, ?_⟩, fun k => List.Subset.trans (sub k) ?_⟩
    · rw [List.foldl_cons, e, State.modCore_eq]
    · by_cases h : k = n a
      · rw [h, State.core_modCore s _ _ (num a)]
        exact drop a _
      · rw [State.core_modCore_ne s _ _ _ (num a) h]
        exact List.Subset.refl _

/-- A line that is given up changes only cores but for the poison of its granules; no L1 gains a line. -/
theorem State.giveUp_eq {s : State} {r : LineRef} {a : Nat} (at_ : s.lineAt r = some a) :
    (∃ cs, s.giveUp r = { s.poisonLine a with cores := cs }) ∧ ∀ k, ((s.giveUp r).core k).lines ⊆ (s.core k).lines := by
  have one (kind : LineKind) (l : List (LineRef × Nat)) := State.foldl_modCore_drop l (·.2)
    (fun _ k => { k with lines := k.lines.filter fun l => !(l.ref == r && l.kind == kind) }) (fun _ _ => rfl)
    (fun _ _ => List.filter_sublist.subset)
  simp only [State.giveUp, at_]
  obtain ⟨⟨cs, e⟩, sub⟩ := one .owned ((s.poisonLine a).owners.filter fun q => q.1 == r) (s.poisonLine a)
  obtain ⟨⟨cs', e'⟩, sub'⟩ := one .psum (((s.poisonLine a).contribs).filter fun q => q.1 == r) { s.poisonLine a with cores := cs }
  rw [e]
  rw [e] at sub
  exact ⟨⟨cs', e'⟩, fun k => List.Subset.trans (sub' k) (sub k)⟩

end Sys2Proof.Machine
end

section
/-! SUPPORT. What a given-up line, a lost answer, a command that ends and a fatal error leave (R306, R456, R461, R462). -/

namespace Sys2Proof.Machine

theorem State.links_of_outside {s t : State} (h : t.outside = s.outside) : t.links = s.links :=
  show t.outside.links = s.outside.links from congrArg State.links h

theorem State.link?_congr {s t : State} (h : t.links = s.links) (b : Nat) : t.link? b = s.link? b := by
  simp only [State.link?, h]

theorem State.link?_of_outside {s t : State} (h : t.outside = s.outside) (b : Nat) : t.link? b = s.link? b :=
  State.link?_congr (State.links_of_outside h) b

/-! ### What a given-up line leaves (R462) -/

/-- A line that is given up: its granules poisoned, no register of the home names it. -/
structure State.LineGone (t : State) (r : LineRef) (a : Nat) : Prop where
  granules : ∀ g < 8, 8 * (a / 128) + g ∈ t.poison ∧ 8 * (a / 128) + g ∉ t.tags
  relRecs : ∀ x ∈ t.relRecs, x.1 ≠ r
  owners : ∀ x ∈ t.owners, x.1 ≠ r
  contribs : ∀ x ∈ t.contribs, x.1 ≠ r
  engineOwned : ∀ x ∈ t.engineOwned, x.1 ≠ r
  drains : ∀ d ∈ t.drains, d.line ≠ r

/-- A boundary that retrains and an error record leave a line gone. -/
theorem State.LineGone.noted {t : State} {r : LineRef} {a : Nat} (gone : t.LineGone r a) (k : Link) (die src sev unitNum : Nat) (ctx : Option Nat)
    (obj off : Nat) : ((t.setLink k).logError die src sev unitNum ctx obj off).LineGone r a := by
  obtain ⟨granules, relRecs, owners, contribs, engineOwned, drains⟩ := gone
  constructor <;>
    simpa only [State.logError_poison, State.logError_tags, State.logError_relRecs, State.logError_owners, State.logError_contribs,
      State.logError_engineOwned, State.logError_drains]

/-- What a home has left of a line that it gives up, before it answers those who wait. -/
theorem State.clearLine_gone {s : State} {r : LineRef} {a : Nat} (at_ : s.lineAt r = some a) : ((s.giveUp r).clearLine r).LineGone r a := by
  obtain ⟨⟨cs, e⟩, -⟩ := State.giveUp_eq at_
  constructor
  · intro g hg
    simpa only [State.clearLine, e] using s.poisonLine_granules a hg
  all_goals
    intro x hx
    simpa using (List.mem_filter.1 hx).2

/-- A line for which nobody waits is gone. -/
theorem State.loseLine_of_idle {s : State} {r : LineRef} {a : Nat} (at_ : s.lineAt r = some a) (idle : s.homeQ = []) :
    (s.loseLine r).LineGone r a := by
  obtain ⟨⟨cs, e⟩, -⟩ := State.giveUp_eq at_
  have queue : (s.giveUp r).homeQ = [] := by rw [e]; exact idle
  rw [State.loseLine_eq, queue]
  exact State.clearLine_gone at_

/-- A plain load that waits on a line that is given up, with nothing else at the homes, is answered with POISON (R462). -/
theorem State.loseLine_of_load {s : State} {r : LineRef} {a size dst : Nat} {sx : Bool} {g : Request} {z : HomeReq} {h : PortHit} {p : Plot}
    (at_ : s.lineAt r = some a) (queue : s.homeQ = [g]) (parts : g.parts = [z]) (op : z.op = .load size sx dst) (bytes : 0 < size)
    (ref : g.ref s = some r) (ok : s.portOf z = .ok h) (plain : h.entry.crty = 0) (line : h.addr / 128 = a / 128)
    (lines : (s.core z.core).lines = []) (sent : s.writeBacks = []) (none : s.sums = []) (hp : s.plot? z.pid = some p) :
    (s.loseLine r).homeQ = [] ∧ (s.loseLine r).plot? z.pid =
      some { p with pendLoads := p.pendLoads ++ [.fault z.fid (.late .poison z.pc z.obj z.off 1 2)] } := by
  obtain ⟨⟨cs, e⟩, sub⟩ := State.giveUp_eq at_
  have gone := State.clearLine_gone at_
  have tables : s.SameTables (s.giveUp r) := by rw [e]; exact ⟨rfl, rfl, rfl⟩
  have cleared : s.SameTables ((s.giveUp r).clearLine r) := ⟨tables.ctxs, tables.mem, tables.migrations⟩
  have waits : (s.giveUp r).waitsOn g r = true := by simp only [State.waitsOn, tables.ref, ref, beq_self_eq_true]
  have queue' : (s.giveUp r).homeQ = [g] := by rw [e]; exact queue
  have here : z.ref h = r := by simpa only [Request.ref_of_load parts op ok, Option.some.injEq] using ref
  have sent' : ((s.giveUp r).clearLine r).writeBacks = [] := by
    have : (s.giveUp r).writeBacks = [] := by rw [e]; exact sent
    simp [State.clearLine, this]
  have none' : ((s.giveUp r).clearLine r).sums = [] := by rw [e]; exact none
  have plot : ((s.giveUp r).clearLine r).plot? z.pid = some p := by rw [e]; exact hp
  have bad := State.poisoned_of_line (fun i hi => (gone.granules i hi).1) line bytes
  have served := State.serve_poisoned_load (s := (s.giveUp r).clearLine r) (g := { g with draining := false }) parts op ((cleared.portOf z).trans ok) plain
    (List.subset_nil.1 (lines ▸ sub z.core)) sent' none' (by rw [here]; exact gone.owners) (by rw [here]; exact gone.engineOwned) bad plot
  have left : ((s.giveUp r).clearLine r).homeQ = [] := by simp [State.clearLine, queue', waits]
  have waiting : [g].filter (fun q => (s.giveUp r).waitsOn q r) = [g] := by simp [waits]
  rw [State.loseLine_eq, queue', waiting, List.foldl_cons, List.foldl_nil]
  exact ⟨served.1.trans left, served.2⟩

/-- A lost control flit whose time is over is found. -/
theorem State.lostDue_of_mem {s : State} {q : LostControl} (mem : q ∈ s.lostControl) (due : q.at_ + 16384 ≤ s.now) :
    ∃ q', s.lostDue q.boundary q.lines = some q' := by
  refine Option.isSome_iff_exists.1 (List.find?_isSome.2 ⟨q, mem, ?_⟩)
  simp only [beq_self_eq_true, Bool.true_and]
  exact decide_eq_true (by rwa [timeoutCcy])

/-- CONTROL_TIMEOUT of a boundary that is up (R462). -/
theorem execControlTimeout_eq {s : State} {b : Nat} {l : Link} {q : LostControl} {lines : List LineRef} (hl : s.link? b = some l)
    (up : l.down = false) (due : s.lostDue b lines = some q) :
    ∃ die ctx obj off, exec (.controlTimeout b lines) s = .next
      (((lines.foldl State.loseLine { s with lostControl := s.lostControl.erase q }).setLink (l.retrain s.now)).logError
        die 15 1 b ctx obj off) := by
  change ∃ die ctx obj off, execControlTimeout b lines s = _
  simp only [execControlTimeout, hl, due, up, Bool.false_eq_true, if_false]
  exact ⟨_, _, _, _, rfl⟩

/-! ### Answers that are lost (R461) -/

/-- The refusal of a plain load is an answer. -/
theorem State.refuse_cores_of_plainLoad (s : State) {q : HomeReq} (h : q.op.plainLoad = true) (code : FaultCode) :
    (s.refuse q code).cores = s.cores := by
  unfold HomeOp.plainLoad at h
  unfold State.refuse
  split at h <;> simp_all [HomeOp.isLoad, State.giveLoad]

theorem State.loseAnswer_outside (s : State) (core : Nat) (r : LineRef) (gs : List Nat) : (s.loseAnswer core r gs).outside = s.outside := by
  simp [State.loseAnswer]

/-- The lines of the core whose answer is lost: the bytes that were on their way are poisoned (R459, R461). -/
theorem State.core_loseAnswer (s : State) (core : Nat) (r : LineRef) (gs : List Nat) :
    ((s.loseAnswer core r gs).core core).lines = (s.core core).lines.map fun l =>
      if l.ref == { r with rep := 0 } then { l with poison := withAll l.poison gs, tags := without l.tags gs } else l := by
  have kept : (s.loseAnswer core r gs).cores = (s.modCore core fun k => { k with lines := k.lines.map fun l =>
      if l.ref == { r with rep := 0 } then { l with poison := withAll l.poison gs, tags := without l.tags gs } else l }).cores := by
    refine foldl_keeps State.cores (fun t q hq => t.refuse_cores_of_plainLoad ?_ _) _
    simp only [List.mem_filter, Bool.and_eq_true] at hq
    exact hq.2.2
  rw [State.core, kept, ← State.core, State.core_modCore]
  exact fun _ => rfl

/-! ### Commands that end, fatal errors -/

theorem State.resumeWhere_cores (s : State) (pid : Nat) (p : Fibre → Bool) : (s.resumeWhere pid p).cores = s.cores := by
  simp only [State.resumeWhere]
  repeat' split
  all_goals rfl

theorem State.freeSigners_cores (s : State) (d : Cmd) : (s.freeSigners d).cores = s.cores := by
  have barinit (t : State) : (t.wakeBarinit d.pid).cores = t.cores := by
    simp only [State.wakeBarinit]
    split
    · rfl
    · exact State.resumeWhere_cores ..
  simp only [State.freeSigners, barinit, State.wakeWaits, State.wakeCounter, State.resumeWhere_cores]
  exact foldl_keeps State.cores (fun t f _ => State.modFibre_cores ..) s

/-- A command that ends is no more among those that its engine runs (R306). -/
theorem State.wainRun_endWain (s : State) (core : Nat) (r : WainRun) :
    ((s.endWain core r).core core).wainRun = (s.core core).wainRun.filter fun q => q.cmd.order != r.cmd.order := by
  have kept : (s.endWain core r).cores =
      (s.modCore core fun k => { k with wainRun := k.wainRun.filter fun q => q.cmd.order != r.cmd.order }).cores := by
    simp only [State.endWain]
    split
    · exact State.freeSigners_cores ..
    · exact State.freeSigners_cores ..
  rw [State.core, kept, ← State.core, State.core_modCore]
  exact fun _ => rfl

theorem State.escalate_outside (s : State) (pid : Nat) : (s.escalate pid).outside = s.outside := by
  simp only [State.escalate]
  split
  · rfl
  · split
    · rfl
    · split_ifs <;> simp [State.setPhase, State.report, State.freeHandler, State.copyFrame, State.writeFrame, State.clearBytes]

/-- A fatal error leaves the links, and of the status all but its mark (R456). -/
theorem State.fatal_kept (s : State) : (s.fatal.links, s.fatal.status) = (s.links, { s.status with fatal := true }) := by
  refine foldl_keeps (fun t : State => (t.links, t.status)) (fun t p _ => ?_) { s with status := { s.status with fatal := true } }
  have escalated := congrArg (fun t : State => (t.links, t.status)) (t.escalate_outside p.pid)
  split
  · simp [State.forgetPlot]
  · split
    · rfl
    · split_ifs
      · rfl
      · rfl
      · exact escalated

theorem State.fatal_status (s : State) : s.fatal.status = { s.status with fatal := true } :=
  (Prod.mk.inj s.fatal_kept).2

theorem State.link?_fatal (s : State) (b : Nat) : s.fatal.link? b = s.link? b :=
  State.link?_congr (Prod.mk.inj s.fatal_kept).1 b

end Sys2Proof.Machine
end

section
/-! Errors of storage and of links, each by the step that names it (R456 to R463). -/

namespace Sys2Proof.Machine

/-! ### Errors of storage -/

theorem exec_uncorrectableError {s t : State} {e : ErrSite} (h : s.errorAt e = some t) : exec (.uncorrectableError e) s = .next t := by
  change execUncorrectableError e s = _
  simp only [execUncorrectableError, h]

theorem exec_scrub_corrected {s t : State} {e : ErrSite} (h : s.correctedAt e = some t) : exec (.scrub e .corrected) s = .next t := by
  change execScrub e .corrected s = _
  simp only [execScrub, h]

/-- An uncorrectable error of a scratchpad or a frame poisons its granule (R457, R459). -/
theorem uncorrectableError_sram (s : State) {a : Nat} (sram : inSram a = true) :
    ∃ t, exec (.uncorrectableError (.memory a)) s = .next t ∧ a / 16 ∈ t.poison ∧ a / 16 ∉ t.tags ∧ t.mem = s.mem := by
  have poisoned := s.poisonGranules_of_mem (List.mem_singleton_self (a / 16))
  refine ⟨_, exec_uncorrectableError (by simp only [State.errorAt, sram, if_true]; rfl), ?_⟩
  simpa using poisoned

/-- An uncorrectable error of HBM poisons its line, unless a slice holds a newer copy (R457). -/
theorem uncorrectableError_hbm (s : State) {a : Nat} (sram : inSram a = false) (hbm : inHbm a = true) :
    ∃ t, exec (.uncorrectableError (.memory a)) s = .next t ∧
      (if s.inL2 a true = true then t.poison = s.poison else ∀ g < 8, 8 * (a / 128) + g ∈ t.poison) ∧ t.mem = s.mem := by
  refine ⟨_, exec_uncorrectableError (by simp only [State.errorAt, sram, hbm, Bool.false_eq_true, if_false, if_true]; rfl), ?_⟩
  simp only [State.logError_poison, State.logError_mem]
  split
  · exact ⟨rfl, rfl⟩
  · exact ⟨fun g hg => (s.poisonLine_granules a hg).1, rfl⟩

/-- An uncorrectable error of a register file stops its plot with cause 0 and escalates it (R457). -/
theorem uncorrectableError_registerFile {s : State} {pid fid : Nat} {p : Plot} {f : Fibre} (hp : s.plot? pid = some p)
    (hf : p.fibre? fid = some f) (running : p.halt = none) : ∃ t q h,
      exec (.uncorrectableError (.registerFile pid fid)) s = .next t ∧ t.plot? pid = some q ∧ q.halt = some h ∧ h.toReeve = true ∧
        h.cause = 0 ∧ h.recs = [] ∧ { q with halt := none } = p := by
  have stop (t : State) : t.stopForGood p = t.stopPlot p.pid true := by simp only [State.stopForGood, running]
  have halted (t : State) (ht : t.plot? pid = some p) :
      (t.stopPlot p.pid true).plot? pid = some { p with halt := some (.start (t.cycOf p.core) 0 0 [] true) } := by
    have num (q : Plot) : (match q.halt with
        | some h => { q with halt := some { h with toReeve := h.toReeve || true } }
        | none => { q with halt := some (.start (t.cycOf q.core) 0 0 [] true) }).pid = q.pid := by split <;> rfl
    have pid_eq := State.plot?_pid hp
    subst pid_eq
    exact (State.plot?_modPlot t p.pid _ num).trans (by simp only [ht, Option.map_some, running])
  refine ⟨_, _, _, exec_uncorrectableError (by simp only [State.errorAt, hp, hf, stop]; rfl), halted _ (by simpa using hp), rfl, rfl, rfl, rfl, ?_⟩
  rw [← running]

/-- A scrub that corrects a word writes one corrected record, nothing else (R456, R458). -/
theorem correctedAt_eq {s t : State} {e : ErrSite} (h : s.correctedAt e = some t) : ∃ die src unitNum ctx obj off,
    t = s.logError die src 0 unitNum ctx obj off := by
  cases e <;> simp only [State.correctedAt, Option.map_eq_some_iff, Option.ite_none_right_eq_some, Option.some.injEq] at h
  case registerFile =>
    split at h
    · cases h
    · simp only [Option.ite_none_left_eq_some, Option.some.injEq] at h
      exact ⟨_, _, _, _, _, _, h.2.symm⟩
  case memory =>
    split at h
    · exact ⟨_, _, _, _, _, _, (Option.some.inj h).symm⟩
    · simp only [Option.ite_none_right_eq_some, Option.some.injEq] at h
      exact ⟨_, _, _, _, _, _, h.2.symm⟩
  case directory =>
    obtain ⟨_, -, rfl⟩ := h
    exact ⟨_, _, _, _, _, _, rfl⟩
  all_goals exact ⟨_, _, _, _, _, _, h.2.symm⟩

theorem correctedAt_dies {s t : State} {e : ErrSite} (h : s.correctedAt e = some t) : { t with dies := [] } = { s with dies := [] } := by
  obtain ⟨_, _, _, _, _, _, rfl⟩ := correctedAt_eq h
  rw [State.logError_corrected]
  rfl

/-- A corrected word of a scratchpad or a frame gives its die one record of SRC 2 (R456, R466). -/
theorem scrub_sram_corrected {s : State} {a : Nat} (sram : inSram a = true) (die : ∃ d ∈ s.dies, d.num = dieOf (sramCore a))
    (empty : (s.die (dieOf (sramCore a))).errq = []) : ∃ t r, exec (.scrub (.memory a) .corrected) s = .next t ∧
      (t.die (dieOf (sramCore a))).errq = [r] ∧ (r.src, r.sev, r.count) = (2, 0, 1) :=
  ⟨_, _, exec_scrub_corrected (by simp only [State.correctedAt, sram, if_true]; rfl), State.die_logError_errq _ _ _ _ _ _ _ _ die empty, rfl⟩

/-! ### Links -/

section
variable {s : State} {b : Nat} {l : Link} (hl : s.link? b = some l) (up : l.down = false)
include hl up

theorem flitReplay_failed (few : l.replays < 8) : ∃ t, exec (.flitReplay b .failed) s = .next t ∧
    t.link? b = some { l with replays := l.replays + 1 } ∧ t.mem = s.mem := by
  refine ⟨s.setLink { l with replays := l.replays + 1 }, ?_, State.link?_setLink rfl hl rfl, rfl⟩
  change execFlitReplay b .failed s = _
  simp only [execFlitReplay, hl, up, Bool.false_eq_true, if_false, few, if_true]

theorem flitReplay_replayed : ∃ t, exec (.flitReplay b .replayed) s = .next t ∧ t.link? b = some { l with replays := 0 } ∧ t.mem = s.mem ∧
    ((∃ d ∈ s.dies, d.num = boundaryDie b) → (s.die (boundaryDie b)).errq = [] → ∃ r, (t.die (boundaryDie b)).errq = [r] ∧
      (r.src, r.sev) = (9, 0)) := by
  have num := State.link?_num hl
  refine ⟨(s.setLink { l with replays := 0 }).logError (boundaryDie b) 9 0 l.num none 0 0, ?_, ?_, ?_, fun die empty => ?_⟩
  · change execFlitReplay b .replayed s = _
    simp only [execFlitReplay, hl, up, Bool.false_eq_true, if_false, num]
  · rw [State.link?_logError]
    exact State.link?_setLink rfl hl rfl
  · rw [State.logError_mem]
    rfl
  · exact ⟨_, State.die_logError_errq _ _ _ _ _ _ _ _ die empty, rfl⟩

theorem flitReplay_data (many : 8 ≤ l.replays) (gs : List Nat) : ∃ t, exec (.flitReplay b (.data gs)) s = .next t ∧
    t.link? b = some ({ l with replays := 0 }.retrain s.now) ∧ ∀ g ∈ gs, g ∈ t.poison ∧ g ∉ t.tags := by
  refine ⟨(s.loseFlit l).poisonGranules gs, ?_, ?_, fun g hg => State.poisonGranules_of_mem _ hg⟩
  · change execFlitReplay b (.data gs) s = _
    simp only [execFlitReplay, hl, up, Bool.false_eq_true, if_false, if_neg (Nat.not_lt.2 many)]
  · rw [State.link?, State.poisonGranules_links]
    exact State.link?_loseFlit hl

theorem flitReplay_answer (many : 8 ≤ l.replays) {core : Nat} (r : LineRef) (gs : List Nat) (hc : core < 128) :
    ∃ t, exec (.flitReplay b (.answer core r gs)) s = .next t ∧ t.link? b = some ({ l with replays := 0 }.retrain s.now) ∧
      ∀ y ∈ (t.core core).lines, y.ref = { r with rep := 0 } → ∀ g ∈ gs, g ∈ y.poison ∧ g ∉ y.tags := by
  refine ⟨(s.loseFlit l).loseAnswer core r gs, ?_, ?_, fun y hy ref g hg => ?_⟩
  · change execFlitReplay b (.answer core r gs) s = _
    simp only [execFlitReplay, hl, up, Bool.false_eq_true, if_false, if_neg (show ¬(l.replays < 8 ∨ 128 ≤ core) by omega)]
  · rw [State.link?_of_outside (State.loseAnswer_outside ..)]
    exact State.link?_loseFlit hl
  · rw [State.core_loseAnswer, List.mem_map] at hy
    obtain ⟨x, -, rfl⟩ := hy
    split at ref
    next same => rw [if_pos same]; exact ⟨mem_withAll.2 (.inl hg), fun tagged => (mem_without.1 tagged).2 hg⟩
    next other => exact absurd (beq_iff_eq.2 ref) other

theorem flitReplay_control (many : 8 ≤ l.replays) (m : List LineRef) (ago : Nat) : ∃ t, exec (.flitReplay b (.control m ago)) s = .next t ∧
    t.link? b = some ({ l with replays := 0 }.retrain s.now) ∧ t.lostControl = s.lostControl ++ [⟨b, m, s.now - ago⟩] ∧ t.poison = s.poison := by
  have retrains := State.link?_loseFlit hl
  have kept := State.loseFlit_poison s l
  have run : exec (.flitReplay b (.control m ago)) s = .next { s.loseFlit l with lostControl := s.lostControl ++ [⟨b, m, s.now - ago⟩] } := by
    change execFlitReplay b (.control m ago) s = _
    simp only [execFlitReplay, hl, up, Bool.false_eq_true, if_false, if_neg (Nat.not_lt.2 many)]
  generalize s.loseFlit l = t at *
  exact ⟨_, run, retrains, rfl, kept⟩

theorem linkRetrainComplete_next (retraining : l.retraining = true) : ∃ t, exec (.linkRetrainComplete b) s = .next t ∧
    t.link? b = some { l with retraining := false } ∧ t.mem = s.mem := by
  refine ⟨s.setLink { l with retraining := false }, ?_, State.link?_setLink rfl hl rfl, rfl⟩
  change execLinkRetrainComplete b s = _
  simp only [execLinkRetrainComplete, hl, up, retraining, Bool.not_false, Bool.and_self, if_true]

/-- A boundary that has retrained for 10 ms goes down, which is fatal (R456, R460). -/
theorem linkDown_next (retraining : l.retraining = true) (long : l.since + 16000000 ≤ s.now) : ∃ t, exec (.linkDown b) s = .next t ∧
    t.link? b = some { l with down := true } ∧ t.status.fatal = true := by
  have late : (l.retraining && !l.down && decide (l.since + downCcy ≤ s.now)) = true := by
    rw [retraining, up, Bool.not_false, Bool.and_self, Bool.true_and]
    exact decide_eq_true (by rwa [downCcy])
  refine ⟨((s.setLink { l with down := true }).logError (boundaryDie b) 9 2 b none 0 0).fatal, ?_, ?_, by rw [State.fatal_status]⟩
  · change execLinkDown b s = _
    simp only [execLinkDown, hl, late, if_true]
  · rw [State.link?_fatal, State.link?_logError]
    exact State.link?_setLink rfl hl rfl

/-- After 16,384 ccy without the lost answer a home gives up the lines of the transaction (R462). -/
theorem controlTimeout_next {q : LostControl} (mem : q ∈ s.lostControl) (hb : q.boundary = b) (due : q.at_ + 16384 ≤ s.now) :
    ∃ t, exec (.controlTimeout b q.lines) s = .next t ∧ t.link? b = some (l.retrain s.now) ∧
      ∀ r a, q.lines = [r] → s.lineAt r = some a →
        (s.homeQ = [] → (∀ g < 8, 8 * (a / 128) + g ∈ t.poison ∧ 8 * (a / 128) + g ∉ t.tags) ∧ (∀ x ∈ t.relRecs, x.1 ≠ r) ∧
          (∀ x ∈ t.owners, x.1 ≠ r) ∧ (∀ x ∈ t.contribs, x.1 ≠ r) ∧ ∀ d ∈ t.drains, d.line ≠ r) ∧
        ∀ g z size sx dst h p, s.homeQ = [g] → g.parts = [z] → z.op = .load size sx dst → 0 < size → g.ref s = some r → s.portOf z = .ok h →
          h.entry.crty = 0 → h.addr / 128 = a / 128 → (s.core z.core).lines = [] → s.writeBacks = [] → s.sums = [] → s.plot? z.pid = some p →
          t.homeQ = [] ∧ ∃ P, t.plot? z.pid = some P ∧ P.pendLoads = p.pendLoads ++ [.fault z.fid (.late .poison z.pc z.obj z.off 1 2)] := by
  subst hb
  obtain ⟨q', found⟩ := State.lostDue_of_mem mem due
  obtain ⟨die, ctx, obj, off, run⟩ := execControlTimeout_eq hl up found
  let u : State := { s with lostControl := s.lostControl.erase q' }
  have tables : s.SameTables u := ⟨rfl, rfl, rfl⟩
  have links : (q.lines.foldl State.loseLine u).links = s.links :=
    (State.links_of_outside (State.foldl_outside (fun t r => t.loseLine_outside r) q.lines u)).trans rfl
  refine ⟨_, run, ?_, fun r a lines at_ => ⟨fun idle => ?_, ?_⟩⟩
  · rw [State.link?_logError]
    exact State.link?_setLink links hl (l.retrain_num s.now)
  · have gone := State.loseLine_of_idle ((tables.lineAt r).trans at_) idle
    rw [lines, List.foldl_cons, List.foldl_nil]
    obtain ⟨granules, relRecs, owners, contribs, -, drains⟩ := gone.noted (l.retrain s.now) die 15 1 q.boundary ctx obj off
    exact ⟨granules, relRecs, owners, contribs, drains⟩
  · intro g z size sx dst h p queue parts op bytes ref ok plain line noLines sent none hp
    have answered := State.loseLine_of_load (s := u) ((tables.lineAt r).trans at_) queue parts op bytes ((tables.ref g).trans ref)
      ((tables.portOf z).trans ok) plain line noLines sent none hp
    rw [lines, List.foldl_cons, List.foldl_nil, State.logError_homeQ, State.plot?_logError]
    exact ⟨answered.1, _, answered.2, rfl⟩

end

/-! ### Ports and the host's link -/

theorem mem_addNat (l : List Nat) (n : Nat) : n ∈ addNat l n := by
  unfold addNat
  split
  · simpa using ‹l.contains n = true›
  · simp

/-- The command that sent a lost Yotis flit has ended; its port retrains (R302, R463). -/
theorem yotisFlitLost_next {s : State} {port core : Nat} {r : WainRun} (oldest : (s.core core).oldestYotis = some r) (hp : port < 12) :
    ∃ t, exec (.yotisFlitLost port core) s = .next t ∧ port ∈ t.yotisDown ∧ ∀ q ∈ (t.core core).wainRun, q.cmd.order ≠ r.cmd.order := by
  let ended := s.endWain core { r with failed := some (r.cmd.faultRec .poison 0 0 5) }
  refine ⟨({ ended with yotisDown := addNat ended.yotisDown port } : State).logError (port / 3) 11 1 port none 0 0, ?_, ?_, fun q hq => ?_⟩
  · change execYotisFlitLost port core s = _
    simp only [execYotisFlitLost, oldest, if_neg (Nat.not_le.2 hp)]
    rfl
  · rw [State.logError_yotisDown]
    exact mem_addNat _ _
  · rw [State.core_logError] at hq
    change q ∈ (ended.core core).wainRun at hq
    rw [State.wainRun_endWain, List.mem_filter] at hq
    simpa using hq.2

theorem yotisRetrain_next (s : State) {port : Nat} (hp : port < 12) :
    (∃ t, exec (.yotisRetrain port true) s = .next t ∧ port ∉ t.yotisDown) ∧
      ∃ t, exec (.yotisRetrain port false) s = .next t ∧ port ∈ t.yotisDown := by
  have run (up : Bool) : exec (.yotisRetrain port up) s = .next { s with
      yotisDown := if up then s.yotisDown.filter (· != port) else addNat s.yotisDown port } := by
    change execYotisRetrain port up s = _
    simp only [execYotisRetrain, if_neg (Nat.not_le.2 hp)]
  exact ⟨⟨_, run true, by simp⟩, _, run false, mem_addNat _ _⟩

theorem hostLinkDown_next (s : State) : ∃ t, exec .hostLinkDown s = .next t ∧ t.status.hostUp = false ∧ t.status.fatal = true := by
  refine ⟨(({ s with status := { s.status with hostUp := false } } : State).logError 0 10 2 0 none 0 0).fatal, rfl, ?_⟩
  rw [State.fatal_status, State.logError_status]
  exact ⟨rfl, rfl⟩

/-- Settles O59: each error and each loss by its own step; the homes' work leaves the links. -/
theorem errorsAndLinks : Obligations.ErrorsAndLinks :=
  ⟨fun _ _ _ h => ⟨exec_uncorrectableError h, exec_uncorrectableError h⟩,
    fun s _ sram => uncorrectableError_sram s sram,
    fun s _ sram hbm => uncorrectableError_hbm s sram hbm,
    fun _ _ _ _ _ hp hf running => uncorrectableError_registerFile hp hf running,
    fun _ _ => rfl,
    fun _ _ _ h => ⟨exec_scrub_corrected h, correctedAt_dies h⟩,
    fun _ _ sram die empty => scrub_sram_corrected sram die empty,
    fun _ _ _ hl up => ⟨flitReplay_failed hl up, flitReplay_replayed hl up, flitReplay_data hl up, fun many _ r gs => flitReplay_answer hl up many r gs,
      flitReplay_control hl up, linkRetrainComplete_next hl up, linkDown_next hl up, fun _ => controlTimeout_next hl up⟩,
    fun _ => rfl,
    fun _ _ _ _ oldest hp => yotisFlitLost_next oldest hp,
    fun s _ hp => yotisRetrain_next s hp,
    hostLinkDown_next⟩

end Sys2Proof.Machine
end

section
/-! SUPPORT. What a flush of a core leaves, memory that is cleared, clocks of the cores of a die (R27, R230, R339, R468, R470). -/

namespace Sys2Proof.Machine

/-! ### Memory of which a range of addresses is kept -/

theorem Memory.read_filter (m : List Host.Cell) (p : Nat → Bool) (a : Nat) :
    Memory.read (m.filter fun c => p c.1) a = if p a then Memory.read m a else 0 := by
  induction m with
  | nil => simp [Memory.read]
  | cons c m ih =>
    by_cases here : c.1 = a
    · subst here
      cases hp : p c.1 <;> simp [Memory.read, hp, ih]
    · cases hp : p c.1 <;> simp [Memory.read, hp, ih, here]

/-! ### A core that is flushed (R230, R233) -/

theorem State.plots_of_apart {s t : State} (h : t.apart = s.apart) : t.plots = s.plots :=
  show t.apart.plots = s.apart.plots from congrArg State.plots h

theorem State.engineOwned_of_apart {s t : State} (h : t.apart = s.apart) : t.engineOwned = s.engineOwned :=
  show t.apart.engineOwned = s.apart.engineOwned from congrArg State.engineOwned h

/-- Steps that do no more than bring lines home as long as no engine owns a line. -/
theorem State.foldl_apart_of_unowned {α : Type} {f : State → α → State} (h : ∀ t a, t.engineOwned = [] → (f t a).apart = t.apart) (l : List α)
    {s : State} (free : s.engineOwned = []) : (l.foldl f s).apart = s.apart :=
  List.foldlRecOn l f (motive := fun t => t.apart = s.apart) rfl fun t ih a _ => (h t a ((State.engineOwned_of_apart ih).trans free)).trans ih

section
variable {s : State} (free : s.engineOwned = [])
include free

theorem State.homeReady_apart (r : LineRef) (by_ : Option Nat) : (s.homeReady r by_).apart = s.apart := by
  have recalled : ((s.owners.filter fun q => q.1 == r).foldl (fun t q => t.recallFrom q.2 r (by_.any (· != q.2))) s).apart = s.apart := by simp
  simp only [State.homeReady, State.engineOwned_of_apart recalled, free, List.filter_nil, List.foldl_nil, recalled]

theorem State.applyLine_apart (core : Nat) (l : L1Line) : (s.applyLine core l).apart = s.apart := by
  simp only [State.applyLine]
  split
  · rw [State.land_apart, State.homeReady_apart free]
  · exact State.land_apart ..

theorem State.deliver_apart (core : Nat) (p : L1Line → Bool) : (s.deliver core p).apart = s.apart :=
  (State.foldl_apart_of_unowned (fun _ w none => State.applyLine_apart none core w.line) _ (by exact free)).trans (by simp)

theorem State.writeBackLine_apart (core : Nat) (l : L1Line) : (s.writeBackLine core l).apart = s.apart := by
  rw [State.writeBackLine, State.applyLine_apart (by simpa using free), State.modCore_apart]

theorem State.writeBackWhere_apart (core : Nat) (p : L1Line → Bool) : (s.writeBackWhere core p).apart = s.apart := by
  have delivered := State.deliver_apart free core fun l => l.kind != .owned && p l
  refine (State.foldl_apart_of_unowned (fun t l none => ?_) _ ((State.engineOwned_of_apart delivered).trans free)).trans delivered
  split
  · exact State.writeBackLine_apart none core l
  · rfl

/-- A flush of a core brings lines home, nothing else, as long as no engine owns a line (R230). -/
theorem State.flushCore_apart (core : Nat) : (s.flushCore core).apart = s.apart := by
  simp only [State.flushCore, State.flushWhere]
  rw [State.foldl_apart fun t l => t.applyPartials_apart core l, State.writeBackWhere_apart free]

end

/-! ### The cores of a die -/

theorem mem_dieCores {k die : Nat} : k ∈ dieCores die ↔ dieOf k = die := by
  simp only [dieCores, dieOf, List.mem_map, List.mem_range]
  constructor
  · rintro ⟨i, hi, rfl⟩
    omega
  · rintro rfl
    exact ⟨k % 32, Nat.mod_lt _ (by omega), by omega⟩

theorem nodup_dieCores (die : Nat) : (dieCores die).Nodup :=
  List.nodup_range.map fun _ _ h => Nat.add_right_cancel h

/-! ### Clocks (R27, R339, R470) -/

/-- A clock that is lowered stays at 1.4 GHz or above; one that is there already stays (R27). -/
def Lowered (c c' : Core) : Prop :=
  (1400 < c.clock → 1400 ≤ c'.clock ∧ c'.clock < c.clock) ∧ (c.clock ≤ 1400 → c'.clock = c.clock)

/-- A core's move at the end of a window: down above the median, up or not at all below it (R339). -/
def Moved (med : Nat) (rises : Bool) (frac : Nat) (c c' : Core) : Prop :=
  (med < 2 * frac → 1425 ≤ c.clock → c'.clock = c.clock - 25) ∧
    (2 * frac < med → c'.clock = c.clock ∨ rises = true ∧ c'.clock = c.clock + 25) ∧ (2 * frac = med → c'.clock = c.clock)

/-- A clock that has not left the range of R27. -/
def RangeKept (c c' : Core) : Prop :=
  1400 ≤ c.clock → c.clock ≤ 1800 → 1400 ≤ c'.clock ∧ c'.clock ≤ 1800

theorem Lowered.rangeKept {c c' : Core} (h : Lowered c c') : RangeKept c c' := by
  obtain ⟨down, stays⟩ := h
  intro low high
  by_cases above : 1400 < c.clock
  · have := down above
    omega
  · have := stays (by omega)
    omega

/-- A step that may change a core's clock and the free values, nothing else of cores and dies. -/
structure State.Reclocked (s t : State) (k : Nat) : Prop where
  others : ∀ j, j ≠ k → t.core j = s.core j
  dies : t.dies = s.dies

theorem State.reclocked_setClock (s : State) (k mhz : Nat) : s.Reclocked (s.setClock k mhz) k :=
  ⟨fun j h => State.core_modCore_ne s k j _ (fun _ => rfl) h, State.modCore_dies s k _⟩

@[simp] theorem State.core_setClock (s : State) (k mhz : Nat) : (s.setClock k mhz).core k = { s.core k with clock := mhz } :=
  State.core_modCore s k _ fun _ => rfl

/-- What the lowering of a clock does (R27). -/
theorem State.lowerClock_spec (s : State) (k : Nat) : s.Reclocked (s.lowerClock k) k ∧ Lowered (s.core k) ((s.lowerClock k).core k) := by
  have eq : s.lowerClock k =
      s.draw.2.setClock k (if 1400 < (s.core k).clock then 1400 + s.draw.1 % ((s.core k).clock - 1400) else (s.core k).clock) := rfl
  rw [eq, State.core_setClock]
  obtain ⟨others, dies⟩ := s.draw.2.reclocked_setClock k _
  refine ⟨⟨others, dies⟩, fun high => ?_, fun low => if_neg (Nat.not_lt.2 low)⟩
  have := Nat.mod_lt s.draw.1 (show 0 < (s.core k).clock - 1400 by omega)
  simp only [if_pos high]
  omega

/-- What the move of a clock does (R27, R339). -/
theorem State.moveClock_spec (s : State) (med : Nat) (rises : Bool) (q : Nat × Nat) : s.Reclocked (s.moveClock med rises q) q.1 ∧
    Moved med rises q.2 (s.core q.1) ((s.moveClock med rises q).core q.1) ∧
    RangeKept (s.core q.1) ((s.moveClock med rises q).core q.1) := by
  have stays (h : ¬(med < 2 * q.2 ∧ 1425 ≤ (s.core q.1).clock)) :
      Moved med rises q.2 (s.core q.1) (s.core q.1) ∧ RangeKept (s.core q.1) (s.core q.1) :=
    ⟨⟨fun up low => absurd ⟨up, low⟩ h, fun _ => .inl rfl, fun _ => rfl⟩, fun low high => ⟨low, high⟩⟩
  simp only [State.moveClock]
  split_ifs with below up beyond above
  · exact ⟨⟨fun _ _ => rfl, rfl⟩, stays (by omega)⟩
  · simp only [Bool.and_eq_true, decide_eq_true_eq] at up
    obtain ⟨others, dies⟩ := s.overBudget.2.reclocked_setClock q.1 ((s.core q.1).clock + 25)
    rw [State.core_setClock]
    exact ⟨⟨others, dies⟩, ⟨fun h => by omega, fun _ => .inr ⟨up.1, rfl⟩, fun h => by omega⟩, fun low _ => ⟨Nat.le_add_right_of_le low, up.2⟩⟩
  · exact ⟨⟨fun _ _ => rfl, rfl⟩, stays (by omega)⟩
  · rw [State.core_setClock]
    exact ⟨s.reclocked_setClock _ _, ⟨fun _ _ => rfl, fun h => absurd h below, fun h => by omega⟩,
      fun _ high => ⟨by dsimp only; omega, by dsimp only; omega⟩⟩
  · exact ⟨⟨fun _ _ => rfl, rfl⟩, stays above⟩

section
variable {α : Type} {f : State → α → State} {key : α → Nat} (step : ∀ (t : State) a, t.Reclocked (f t a) (key a))
include step

theorem State.foldl_reclocked_dies (l : List α) (s : State) : (l.foldl f s).dies = s.dies :=
  foldl_keeps State.dies (fun t a _ => (step t a).dies) s

/-- Clocks that are changed one after another leave the other cores. -/
theorem State.core_foldl_reclocked {l : List α} {j : Nat} (h : ∀ a ∈ l, key a ≠ j) (s : State) : (l.foldl f s).core j = s.core j :=
  foldl_keeps (fun t : State => t.core j) (fun t a ha => (step t a).others j (h a ha).symm) s

/-- Clocks that are changed one after another, no core twice, change each as its step does. -/
theorem State.foldl_reclocked {P : α → Core → Core → Prop} (own : ∀ (t : State) a, P a (t.core (key a)) ((f t a).core (key a))) {l : List α}
    (nodup : (l.map key).Nodup) (s : State) {a : α} (ha : a ∈ l) : P a (s.core (key a)) ((l.foldl f s).core (key a)) := by
  induction l generalizing s with
  | nil => cases ha
  | cons b l ih =>
    rw [List.map_cons, List.nodup_cons] at nodup
    rw [List.foldl_cons]
    rcases List.mem_cons.1 ha with rfl | ha
    · rw [State.core_foldl_reclocked step fun c hc (e : key c = key a) => nodup.1 (e ▸ List.mem_map_of_mem hc)]
      exact own s a
    · have := ih nodup.2 (f s b) ha
      rwa [(step s b).others _ fun e => nodup.1 (e ▸ List.mem_map_of_mem ha)] at this

/-- Clocks that are changed one after another stay within their range where each step keeps it. -/
theorem State.foldl_rangeKept (own : ∀ (t : State) a, RangeKept (t.core (key a)) ((f t a).core (key a))) (l : List α) (s : State) (j : Nat) :
    RangeKept (s.core j) ((l.foldl f s).core j) := by
  refine List.foldlRecOn l f (motive := fun t => RangeKept (s.core j) (t.core j)) (fun low high => ⟨low, high⟩) fun t ih a _ low high => ?_
  have now := ih low high
  by_cases e : j = key a
  · exact (e ▸ own t a) now.1 now.2
  · rwa [(step t a).others j e]

end

/-! ### The end of a window of the power controller (R339) -/

/-- A die over its budget has lowered its clocks (R27, R339). -/
def State.underBudget (s : State) (die : Nat) : State :=
  if s.overBudget.1 then (dieCores die).foldl State.lowerClock s.overBudget.2 else s.overBudget.2

/-- The cores that take part have moved by their fractions, unless the die's clocks are fixed (R339). -/
def State.balanced (s : State) (die : Nat) : State :=
  if (s.die die).fixedClock then s.underBudget die
  else (s.fractions die).foldl (fun t q => t.moveClock (median2 ((s.fractions die).map (·.2))) (!(s.die die).throttled) q) (s.underBudget die)

theorem exec_clockRebalance {s : State} {die : Nat} (h : ∃ d ∈ s.dies, d.num = die) (due : (s.die die).window + 32000 ≤ (s.die die).cyc) :
    exec (.clockRebalance die (s.powerLimit / 4) (s.fractions die)) s = .next ((s.balanced die).newWindow die) := by
  have now : s.powerDue die = true := by
    simp only [State.powerDue, Bool.and_eq_true, List.any_eq_true, beq_iff_eq]
    exact ⟨h, decide_eq_true (by rwa [powerWindow])⟩
  have budget : (s.powerLimit / 4 == s.dieBudget) = true := beq_iff_eq.2 rfl
  change execClockRebalance die _ _ s = _
  simp only [execClockRebalance, now, budget, beq_self_eq_true, Bool.and_self, Bool.not_true, Bool.false_eq_true, if_false]
  rfl

theorem State.fractions_die {s : State} {die : Nat} {q : Nat × Nat} (h : q ∈ s.fractions die) : dieOf q.1 = die := by
  simp only [State.fractions, List.mem_map, List.mem_filter, Bool.and_eq_true, beq_iff_eq] at h
  obtain ⟨k, ⟨-, e, -⟩, rfl⟩ := h
  exact e

theorem State.nodup_fractions {s : State} (h : (s.cores.map (·.num)).Nodup) (die : Nat) : ((s.fractions die).map (·.1)).Nodup := by
  simp only [State.fractions, List.map_map]
  exact (List.filter_sublist.map Core.num).nodup h

theorem State.underBudget_dies (s : State) (die : Nat) : (s.underBudget die).dies = s.dies := by
  unfold State.underBudget
  split
  · exact State.foldl_reclocked_dies (key := id) (fun t k => (t.lowerClock_spec k).1) _ _
  · rfl

theorem State.balanced_dies (s : State) (die : Nat) : (s.balanced die).dies = s.dies := by
  unfold State.balanced
  split
  · exact s.underBudget_dies die
  · rw [State.foldl_reclocked_dies fun t q => (t.moveClock_spec _ _ q).1, s.underBudget_dies]

/-- A core whose clock does not move has the clock that the budget leaves it. -/
theorem State.core_balanced_unmoved {s : State} {die k : Nat} (h : (s.die die).fixedClock = true ∨ ∀ q ∈ s.fractions die, q.1 ≠ k) :
    (s.balanced die).core k = (s.underBudget die).core k := by
  unfold State.balanced
  split
  · rfl
  · exact State.core_foldl_reclocked (fun t q => (t.moveClock_spec _ _ q).1) (h.resolve_left ‹_›) _

theorem State.core_underBudget_other {s : State} {die k : Nat} (h : dieOf k ≠ die) : (s.underBudget die).core k = s.core k := by
  unfold State.underBudget
  split
  · exact State.core_foldl_reclocked (key := id) (fun t k => (t.lowerClock_spec k).1) (fun a ha (e : a = k) => h (e ▸ mem_dieCores.1 ha)) _
  · rfl

theorem State.core_underBudget_of_under {s : State} (h : s.overBudget.1 = false) (die k : Nat) : (s.underBudget die).core k = s.core k := by
  rw [State.underBudget, h]
  rfl

theorem State.lowered_underBudget {s : State} {die k : Nat} (h : s.overBudget.1 = true) (hk : k ∈ dieCores die) :
    Lowered (s.core k) ((s.underBudget die).core k) := by
  rw [State.underBudget, h, if_pos rfl]
  exact State.foldl_reclocked (key := id) (P := fun _ => Lowered) (fun t k => (t.lowerClock_spec k).1) (fun t k => (t.lowerClock_spec k).2)
    (by simpa using nodup_dieCores die) s.overBudget.2 hk

theorem State.core_balanced_other {s : State} {die k : Nat} (h : dieOf k ≠ die) : (s.balanced die).core k = s.core k := by
  rw [State.core_balanced_unmoved (.inr fun q hq (e : q.1 = k) => h (e ▸ State.fractions_die hq)), State.core_underBudget_other h]

theorem State.rangeKept_balanced (s : State) (die k : Nat) : RangeKept (s.core k) ((s.balanced die).core k) := by
  have budget : RangeKept (s.core k) ((s.underBudget die).core k) := by
    unfold State.underBudget
    split
    · exact State.foldl_rangeKept (key := id) (fun t k => (t.lowerClock_spec k).1) (fun t k => (t.lowerClock_spec k).2.rangeKept) _ s.overBudget.2 k
    · exact fun low high => ⟨low, high⟩
  unfold State.balanced
  split
  · exact budget
  · exact fun low high => (budget low high).elim
      (State.foldl_rangeKept (fun t q => (t.moveClock_spec _ _ q).1) (fun t q => (t.moveClock_spec _ _ q).2.2) _ _ k)

/-- A core that takes part moves by its own fraction (R339). -/
theorem State.moved_balanced {s : State} {die : Nat} (nodup : (s.cores.map (·.num)).Nodup) (under : s.overBudget.1 = false)
    (free : (s.die die).fixedClock = false) {q : Nat × Nat} (hq : q ∈ s.fractions die) :
    Moved (median2 ((s.fractions die).map (·.2))) (!(s.die die).throttled) q.2 (s.core q.1) ((s.balanced die).core q.1) := by
  rw [State.balanced, free, if_neg Bool.false_ne_true, ← State.core_underBudget_of_under under die q.1]
  exact State.foldl_reclocked (key := (·.1)) (P := fun q => Moved _ _ q.2) (fun t q => (t.moveClock_spec _ _ q).1)
    (fun t q => (t.moveClock_spec _ _ q).2.1) (s.nodup_fractions nodup die) _ hq

/-- A core in a new window of a die's power controller (R339). -/
def Core.newWindow (die : Nat) (c : Core) : Core :=
  if dieOf c.num == die then { c with parked := 0, alive := 0, phases := 0 } else c

theorem Core.newWindow_num (die : Nat) (c : Core) : (c.newWindow die).num = c.num := by
  unfold Core.newWindow
  split <;> rfl

/-- A new window of a die begins the counts of its cores anew (R339). -/
theorem State.core_newWindow (s : State) (die k : Nat) : (s.newWindow die).core k = (s.core k).newWindow die := by
  have same : (fun c : Core => (c.newWindow die).num == k) = fun c : Core => c.num == k := by
    funext c
    rw [Core.newWindow_num]
  have found : (s.cores.map (Core.newWindow die)).find? (fun c => c.num == k) = (s.cores.find? fun c => c.num == k).map (Core.newWindow die) := by
    rw [List.find?_map]
    exact congrArg (fun p => (s.cores.find? p).map (Core.newWindow die)) same
  change (match (s.cores.map (Core.newWindow die)).find? fun c => c.num == k with
    | some c => c
    | none => .reset k) = _
  rw [found, State.core]
  cases s.cores.find? fun c => c.num == k with
  | none => simp [Core.newWindow, Core.reset]
  | some c => rfl

/-- A new window of a die begins now, the die no more throttled (R339, R470). -/
theorem State.die_newWindow {s : State} {die : Nat} (h : ∃ d ∈ s.dies, d.num = die) :
    (s.newWindow die).die die = { s.die die with throttled := false, window := (s.die die).cyc } :=
  State.die_modDie (s := { s with cores := _ }) (fun _ => rfl) h

end Sys2Proof.Machine
end

section
/-! Coming up, resets, the debugger, clocks, monitors, management and power gating, each by its step (R27, R233, R339, R425, R465, R468 to R471). -/

namespace Sys2Proof.Machine

/-! ### Coming up and resets -/

theorem powerGood_next {s : State} (off : s.status.good = false) : ∃ t, exec .powerGood s = .next t ∧
    t.status = { s.status with good := true, stage := 0, ready := false, fail := 0, fdet := 0 } ∧ t.mem = s.mem ∧
    ∀ d ∈ t.dies, d.powered = true := by
  refine ⟨{ s with
    status := { s.status with good := true, stage := 0, ready := false, fail := 0, fdet := 0 }
    dies := s.dies.map fun d => { d with powered := true } }, ?_, rfl, rfl, ?_⟩
  · change execPowerGood s = _
    simp only [execPowerGood, off, Bool.false_eq_true, if_false]
  · simp

/-- Memory that has been cleared reads zero within the package (R468). -/
theorem State.read_clearMemory (s : State) {a : Nat} (h : a < 2 ^ 50) : Memory.read s.clearMemory.mem a = 0 := by
  have := Memory.read_filter s.mem (fun b => decide (2 ^ 50 ≤ b)) a
  rwa [decide_eq_false (Nat.not_le.2 h)] at this

section
variable {s : State} (good : s.status.good = true) (stage : s.status.stage < 6) (sound : s.status.fail = 0)
include good stage sound

theorem stageComplete_failed {fail : Nat} (fdet : Nat) (h : fail ≠ 0) : exec (.stageComplete fail fdet) s =
    .next { s with status := { s.status with fail := fail % 256, fdet := fdet % 65536 } } := by
  change execStageComplete fail fdet s = _
  simp [execStageComplete, good, stage, sound, h]

/-- A stage that succeeds is done; the last one makes the package ready, the fourth clears memory (R468). -/
theorem stageComplete_done {fail : Nat} (fdet : Nat) (h : fail = 0) : ∃ t, exec (.stageComplete fail fdet) s = .next t ∧
    t.status = { s.status with stage := s.status.stage + 1, ready := decide (s.status.stage = 5) } ∧
    (s.status.stage = 3 → s.MemOk → ∀ a, a < 2 ^ 50 → Memory.read t.mem a = 0) ∧ (s.status.stage ≠ 3 → t.mem = s.mem) := by
  let u : State := { s with status := { s.status with stage := s.status.stage + 1, ready := s.status.stage + 1 == 6 } }
  have run : exec (.stageComplete fail fdet) s = .next (if s.status.stage + 1 = 4 then u.clearMemory else u) := by
    change execStageComplete fail fdet s = _
    simp [execStageComplete, good, stage, sound, h, u]
  have ready : (s.status.stage + 1 == 6) = decide (s.status.stage = 5) := by
    rw [Bool.eq_iff_iff]
    simp
  refine ⟨_, run, ?_, fun third _ a ha => ?_, fun other => ?_⟩
  · rw [← ready]
    split <;> rfl
  · rw [if_pos (by omega)]
    exact u.read_clearMemory ha
  · rw [if_neg (by omega)]

end

theorem pcie_answers (s : State) : (s.pcieAnswer = .completes ↔ s.status.ready = true) ∧
    (s.status.ready = false → s.pcieAnswer = .unsupported ∧ s.readStatusBar = none) ∧
    ∀ t, s.status.perst = some t → t + 160000000 ≤ s.now → s.configAnswer = if s.status.stage < 2 then .retryStatus else .completes := by
  refine ⟨?_, fun before => ?_, fun t deasserted long => ?_⟩
  · cases h : s.status.ready <;> simp [State.pcieAnswer, h]
  · simp [State.pcieAnswer, State.readStatusBar, before]
  · have late : decide (t + perstCcy ≤ s.now) = true := decide_eq_true (by rwa [perstCcy])
    rw [State.configAnswer, deasserted, Option.any_some, late]
    rfl

/-- What the package keeps of memory without power or through a reset: the host's (R10, R468; log entry 11). -/
theorem read_hostMemory (m : List Host.Cell) (a : Nat) :
    Memory.read (m.filter fun c => decide (2 ^ 50 ≤ c.1 ∧ c.1 < 2 ^ 60)) a = if 2 ^ 50 ≤ a ∧ a < 2 ^ 60 then Memory.read m a else 0 := by
  rw [Memory.read_filter m fun b => decide (2 ^ 50 ≤ b ∧ b < 2 ^ 60)]
  simp only [decide_eq_true_eq]

theorem packageReset_next (s : State) : ∃ t, exec .packageReset s = .next t ∧
    (∀ a, Memory.read t.mem a = if 2 ^ 50 ≤ a ∧ a < 2 ^ 60 then Memory.read s.mem a else 0) ∧
    t.dies = s.dies.map (fun d => { Die.reset d.num with errq := d.errq, overflow := d.overflow, errSeq := d.errSeq, errBase := d.errSeq }) ∧
    { t with mem := [], reports := [], inputs := [], now := 0, freeCtr := 0, dies := [] } = { State.reset with mem := [], dies := [] } :=
  ⟨_, rfl, read_hostMemory s.mem, rfl, rfl⟩

theorem Die.monitor?_num {d : Die} {mon : Nat} {m : Monitor} (hm : d.monitor? mon = some m) : m.num = mon := by
  simpa using List.find?_some hm

/-! ### Steps of a die -/

section
variable {s : State} {die : Nat} (h : ∃ d ∈ s.dies, d.num = die)
include h

theorem any_die : (s.dies.any fun d => d.num == die) = true := by
  simpa using h

theorem debuggerHalt_next : ∃ t, exec (.debuggerHalt die) s = .next t ∧ t.die die = { s.die die with halted := true } ∧
    { t with dies := [] } = { s with dies := [] } := by
  refine ⟨s.modDie die fun d => { d with halted := true }, ?_, State.die_modDie (fun _ => rfl) h, rfl⟩
  change execDebuggerHalt die s = _
  simp only [execDebuggerHalt, any_die h, if_true]

theorem debuggerResume_next : ∃ t, exec (.debuggerResume die) s = .next t ∧ t.die die = { s.die die with halted := false } ∧
    { t with dies := [] } = { s with dies := [] } := by
  refine ⟨s.modDie die fun d => { d with halted := false }, ?_, State.die_modDie (fun _ => rfl) h, rfl⟩
  change execDebuggerResume die s = _
  simp only [execDebuggerResume, any_die h, if_true]

/-- A die that is throttled has lowered the clocks that stood above their floor (R470). -/
theorem thermalThrottle_next : ∃ t, exec (.thermalThrottle die) s = .next t ∧ (t.die die).throttled = true ∧
    ∀ k ∈ dieCores die, 1400 < (s.core k).clock → 1400 ≤ (t.core k).clock ∧ (t.core k).clock < (s.core k).clock := by
  have run : exec (.thermalThrottle die) s =
      .next (((dieCores die).foldl State.lowerClock s).modDie die fun d => { d with throttled := true }) := by
    change execThermalThrottle die s = _
    rw [execThermalThrottle, any_die h, if_pos rfl]
  have dies : ((dieCores die).foldl State.lowerClock s).dies = s.dies :=
    State.foldl_reclocked_dies (key := id) (fun t k => (t.lowerClock_spec k).1) _ s
  refine ⟨_, run, ?_, fun k hk high => ?_⟩
  · have throttled := State.die_modDie (s := (dieCores die).foldl State.lowerClock s) (n := die)
      (f := fun d => { d with throttled := true }) (fun _ => rfl) (by rwa [dies])
    rw [throttled]
  · have lowered := State.foldl_reclocked (key := id) (P := fun _ => Lowered) (fun t k => (t.lowerClock_spec k).1)
      (fun t k => (t.lowerClock_spec k).2) (by simpa using nodup_dieCores die) s hk
    rw [State.core_modDie]
    exact lowered.1 high

/-- A die that grows too hot loses its power, and the package with it what it held (R470). -/
theorem thermalShutdown_next : ∃ t, exec (.thermalShutdown die) s = .next t ∧
    (t.status.fatal, t.status.good, t.status.fail, t.status.fdet) = (true, false, 6, die) ∧ (∀ d ∈ t.dies, d.powered = false) ∧ t.plots = [] ∧
    ∀ a, a < 2 ^ 50 → Memory.read t.mem a = 0 := by
  let u := (s.logError die 17 2 die none 0 0).fatal
  let v := u.powerOff
  refine ⟨{ v with status := { v.status with fail := 6, fdet := die, fatal := true } }, ?_, rfl, ?_, rfl, fun a ha => ?_⟩
  · change execThermalShutdown die s = _
    simp only [execThermalShutdown, any_die h, if_true]
    rfl
  · change ∀ d ∈ u.dies.map (fun d => { d.restart with powered := false }), d.powered = false
    simp
  · exact (read_hostMemory u.mem a).trans (if_neg fun within => absurd within.1 (Nat.not_le.2 ha))

/-- The end of a window of the power controller, core by core (R27, R339). -/
theorem clockRebalance_next (due : (s.die die).window + 32000 ≤ (s.die die).cyc) :
    ∃ t, exec (.clockRebalance die (s.powerLimit / 4) (s.fractions die)) s = .next t ∧ (t.die die).throttled = false ∧
      (t.die die).window = (s.die die).cyc ∧
      (∀ k, 1400 ≤ (s.core k).clock → (s.core k).clock ≤ 1800 → 1400 ≤ (t.core k).clock ∧ (t.core k).clock ≤ 1800) ∧
      (∀ k, dieOf k ≠ die → t.core k = s.core k) ∧
      (∀ k ∈ dieCores die, ((t.core k).parked, (t.core k).alive, (t.core k).phases) = (0, 0, 0) ∧
        (s.overBudget.1 = true → 1400 < (s.core k).clock → ((s.die die).fixedClock = true ∨ ∀ q ∈ s.fractions die, q.1 ≠ k) →
          (t.core k).clock < (s.core k).clock) ∧
        (s.overBudget.1 = false → ((s.die die).fixedClock = true ∨ ∀ q ∈ s.fractions die, q.1 ≠ k) → (t.core k).clock = (s.core k).clock)) ∧
      ((s.cores.map (·.num)).Nodup → s.overBudget.1 = false → (s.die die).fixedClock = false → ∀ q ∈ s.fractions die,
        let med := median2 ((s.fractions die).map (·.2))
        (med < 2 * q.2 → 1425 ≤ (s.core q.1).clock → (t.core q.1).clock = (s.core q.1).clock - 25) ∧
        (2 * q.2 < med → (t.core q.1).clock = (s.core q.1).clock ∨
          (s.die die).throttled = false ∧ (t.core q.1).clock = (s.core q.1).clock + 25) ∧
        (2 * q.2 = med → (t.core q.1).clock = (s.core q.1).clock)) := by
  let u := s.balanced die
  have same : u.die die = s.die die := by simp only [State.die, u, State.balanced_dies]
  have window := State.die_newWindow (s := u) (by rwa [State.balanced_dies])
  have clock (k : Nat) : ((u.newWindow die).core k).clock = (u.core k).clock := by
    rw [State.core_newWindow, Core.newWindow]
    split <;> rfl
  refine ⟨u.newWindow die, exec_clockRebalance h due, ?_, ?_, fun k => ?_, fun k other => ?_, fun k hk => ⟨?_, fun beyond high still => ?_,
    fun under still => ?_⟩, fun nodup under free q hq => ?_⟩
  · rw [window]
  · rw [window, same]
  · rw [clock]
    exact s.rangeKept_balanced die k
  · rw [State.core_newWindow, Core.newWindow, State.core_num, if_neg (by simpa using other), State.core_balanced_other other]
  · rw [State.core_newWindow, Core.newWindow, State.core_num, if_pos (by simpa using mem_dieCores.1 hk)]
  · rw [clock, State.core_balanced_unmoved still]
    exact ((State.lowered_underBudget beyond hk).1 high).2
  · rw [clock, State.core_balanced_unmoved still, State.core_underBudget_of_under under]
  · simpa only [clock, Moved, Bool.not_eq_eq_eq_not, Bool.not_true] using State.moved_balanced nodup under free hq

/-! ### Monitors -/

/-- A monitor of a die after it has been replaced. -/
theorem State.monitor?_setMonitor {mon : Nat} {m n : Monitor} (hm : (s.die die).monitor? mon = some m) (num : n.num = m.num) :
    ((s.setMonitor die n).die die).monitor? mon = some n := by
  have own := Die.monitor?_num hm
  have replaced := State.die_modDie (f := fun d => { d with monitors := d.monitors.map fun x => if x.num == n.num then n else x })
    (fun _ => rfl) h
  rw [State.setMonitor, replaced]
  exact find_replace (num.trans own) ⟨m, List.mem_of_find?_eq_some hm, own⟩

end

/-- A control word as a monitor keeps it, field by field (R4, R471). -/
theorem monitorWord_eq (w : BitVec 64) : monitorWord w =
    (if 8 < (w.extractLsb' 56 8).toNat then w &&& ~~~((255 : BitVec 64) <<< (56 : Nat)) else w) &&& ~~~((3 : BitVec 64) <<< (41 : Nat)) := by
  have source : field w.toNat 56 8 = (w.extractLsb' 56 8).toNat := by
    simp [field, BitVec.extractLsb'_toNat, Nat.shiftRight_eq_div_pow]
  simp only [monitorWord, source]
  split
  · rw [BitVec.and_assoc, BitVec.and_assoc, BitVec.and_comm (~~~_)]
  · rfl

/-- A control word that is written begins a window (R471; log entry 9). -/
theorem monitorControlWrite_next {s : State} {die mon : Nat} {m : Monitor} (h : ∃ d ∈ s.dies, d.num = die) (w : BitVec 64)
    (hm : (s.die die).monitor? mon = some m) : ∃ t, exec (.monitorControlWrite die mon w) s = .next t ∧
      (t.die die).monitor? mon = some { m with
        ctl := (if 8 < (w.extractLsb' 56 8).toNat then w &&& ~~~((255 : BitVec 64) <<< (56 : Nat)) else w) &&& ~~~((3 : BitVec 64) <<< (41 : Nat))
        run := .empty
        start := (s.die die).cyc } := by
  have run : exec (.monitorControlWrite die mon w) s =
      .next (s.setMonitor die { m with ctl := monitorWord w, run := .empty, start := (s.die die).cyc }) := by
    change execMonitorControlWrite die mon w s = _
    rw [execMonitorControlWrite, hm]
  refine ⟨_, run, ?_⟩
  rw [State.monitor?_setMonitor h hm (by rfl), monitorWord_eq]

/-- Samples draw free values, nothing else (log entry 9). -/
theorem State.samples_drawn (base shift : Nat) : ∀ (n : Nat) (s : State) (r : MonRes),
    ∃ c, (s.samples r base shift n).1 = { s with freeCtr := c }
  | 0, s, _ => ⟨s.freeCtr, rfl⟩
  | n + 1, s, r => by
    obtain ⟨c, drawn⟩ := State.samples_drawn base shift n s.draw.2 (addSample r base shift (s.draw.1 % 2 ^ 32))
    exact ⟨c, drawn⟩

/-- The results of a window draw free values, nothing else (log entry 9). -/
theorem State.windowOf_drawn (s : State) (m : Monitor) : ∃ c, (s.windowOf m).1 = { s with freeCtr := c } := by
  simp only [State.windowOf]
  by_cases held : m.held = true
  · rw [if_pos held]
    split
    · exact ⟨_, rfl⟩
    · exact ⟨s.freeCtr, rfl⟩
  · rw [if_neg held]
    obtain ⟨c, drawn⟩ := State.samples_drawn (field m.ctl.toNat 8 32) (field m.ctl.toNat 43 5) s.draw.1 s.draw.2 m.run
    split
    · exact ⟨c + 2, by rw [drawn]; rfl⟩
    · exact ⟨c, drawn⟩

theorem State.die_of_absent {s : State} {n : Nat} (h : ¬∃ d ∈ s.dies, d.num = n) : s.die n = .reset n := by
  have none : s.dies.find? (fun d => d.num == n) = none := by simpa using h
  rw [State.die, none]

/-- A monitor whose window is due is one of a die that exists: as a reset leaves a monitor, it does not run (R471). -/
theorem State.windowDue_some {s : State} {die mon : Nat} {m : Monitor} (h : s.windowDue die mon = some m) :
    (s.die die).monitor? mon = some m ∧ ∃ d ∈ s.dies, d.num = die := by
  simp only [State.windowDue] at h
  split at h
  case h_2 => cases h
  case h_1 x found =>
    split_ifs at h with due
    obtain rfl := Option.some.inj h
    refine ⟨found, by_contra fun absent => ?_⟩
    rw [State.die_of_absent absent] at found
    obtain ⟨i, -, rfl⟩ := List.mem_map.1 (List.mem_of_find?_eq_some found)
    have idle : (Monitor.reset i).runs = false :=
      show (Monitor.reset 0).runs = false by decide
    simp [idle] at due

/-- A window that ends freezes its results (R471). -/
theorem monitorWindow_next {s : State} {die mon : Nat} {m : Monitor} (h : s.windowDue die mon = some m) :
    ∃ t r, exec (.monitorWindow die mon) s = .next t ∧
      (t.die die).monitor? mon = some { m with run := .empty, frozen := r, start := (s.die die).cyc } ∧
      { t with dies := [], freeCtr := 0 } = { s with dies := [], freeCtr := 0 } := by
  obtain ⟨found, exist⟩ := State.windowDue_some h
  have run : exec (.monitorWindow die mon) s =
      .next ((s.windowOf m).1.setMonitor die { m with run := .empty, frozen := (s.windowOf m).2, start := (s.die die).cyc }) := by
    change execMonitorWindow die mon s = _
    rw [execMonitorWindow, h]
  obtain ⟨c, drawn⟩ := s.windowOf_drawn m
  rw [drawn] at run
  exact ⟨_, _, run, State.monitor?_setMonitor (s := { s with freeCtr := c }) exist found (by rfl), rfl⟩

/-! ### The debugger, management and power gating -/

theorem debuggerAttach_next {s : State} {ctx : Nat} {c : Ctx} (on : Bool) (h : s.ctx? ctx = some c) :
    ∃ t, exec (.debuggerAttach ctx on) s = .next t ∧ t.ctx? ctx = some { c with debugger := on } ∧
      { t with ctxs := [] } = { s with ctxs := [] } := by
  have own : c.num = ctx := by simpa using List.find?_some h
  have run : exec (.debuggerAttach ctx on) s = .next (s.setCtx { c with debugger := on }) := by
    change execDebuggerAttach ctx on s = _
    rw [execDebuggerAttach, h]
  exact ⟨_, run, find_replace (key := Ctx.num) (b := { c with debugger := on }) own ⟨c, List.mem_of_find?_eq_some h, own⟩, rfl⟩

/-- Clocks that are fixed stand at 1.6 GHz (R27, R470). -/
theorem fixedClocks_next {s : State} {die : Nat} (v : Nat) (low : die < 4) (h : ∃ d ∈ s.dies, d.num = die) :
    ∃ t, exec (.managementRegisterWrite (.fixedClocks die) v) s = .next t ∧ (t.die die).fixedClock = decide (v ≠ 0) ∧
      (v ≠ 0 → ∀ k ∈ dieCores die, (t.core k).clock = 1600) := by
  let fixed : State := s.modDie die fun d => { d with fixedClock := v != 0 }
  have marked : (fixed.die die).fixedClock = decide (v ≠ 0) := by
    have := State.die_modDie (f := fun d => { d with fixedClock := v != 0 }) (fun _ => rfl) h
    rw [this, Bool.eq_iff_iff]
    simp
  have run : exec (.managementRegisterWrite (.fixedClocks die) v) s =
      .next (if v = 0 ∨ 4 ≤ die then fixed else (dieCores die).foldl (fun t k => t.setClock k 1600) fixed) := rfl
  by_cases off : v = 0
  · rw [if_pos (.inl off)] at run
    exact ⟨_, run, marked, fun on => absurd off on⟩
  · rw [if_neg (by omega)] at run
    refine ⟨_, run, ?_, fun _ k hk => ?_⟩
    · have dies := State.foldl_reclocked_dies (f := fun t k => t.setClock k 1600) (key := id)
        (fun t k => t.reclocked_setClock k 1600) (dieCores die) fixed
      have same : ((dieCores die).foldl (fun t k => t.setClock k 1600) fixed).die die = fixed.die die := by simp only [State.die, dies]
      rw [same, marked]
    · exact State.foldl_reclocked (f := fun t k => t.setClock k 1600) (key := id) (P := fun _ _ c => c.clock = 1600)
        (fun t k => t.reclocked_setClock k 1600) (fun t k => congrArg Core.clock (t.core_setClock k 1600))
        (by simpa using nodup_dieCores die) fixed hk

/-- A core that is gated has no line left, and no line has it among its readers (R339). -/
def State.gate (s : State) (core : Nat) : State :=
  let t := s.modCore core fun k => { k with lines := [], icache := [], loopBuf := [], gated := true }
  { t with readers := t.readers.filter fun q => q.2 != core }

theorem State.core_gate (s : State) (core : Nat) :
    (s.gate core).core core = { s.core core with lines := [], icache := [], loopBuf := [], gated := true } :=
  State.core_modCore s core _ fun _ => rfl

theorem State.gate_plots (s : State) (core : Nat) : (s.gate core).plots = s.plots := by
  change (s.modCore core fun k => { k with lines := [], icache := [], loopBuf := [], gated := true }).plots = s.plots
  exact State.plots_of_apart (State.modCore_apart ..)

/-- The lines that a core still owns are recalled once it has been flushed (R230, R233). -/
def State.emptied (s : State) (core : Nat) : State :=
  ((s.flushCore core).owners.filter fun q => q.2 == core).foldl (fun t q => t.recallFrom core q.1 false) (s.flushCore core)

theorem State.emptied_plots {s : State} (free : s.engineOwned = []) (core : Nat) : (s.emptied core).plots = s.plots := by
  have recalled : (s.emptied core).apart = (s.flushCore core).apart := by
    simp [State.emptied]
  exact State.plots_of_apart (recalled.trans (State.flushCore_apart free core))

theorem exec_corePowerGate {s : State} {core : Nat} (idle : ∀ p ∈ s.plots, p.core ≠ core) :
    exec (.corePowerGate core) s = .next ((s.emptied core).gate core) := by
  have none : (s.plots.any fun p => p.core == core) = false := by simpa using idle
  change execCorePowerGate core s = _
  rw [execCorePowerGate, none, if_neg Bool.false_ne_true]
  rfl

/-- A core without plots is gated, its lines flushed (R233, R339). -/
theorem corePowerGate_next {s : State} {core : Nat} (idle : ∀ p ∈ s.plots, p.core ≠ core) :
    ∃ t, exec (.corePowerGate core) s = .next t ∧ (t.core core).lines = [] ∧ (t.core core).icache = [] ∧
      (t.core core).gated = true ∧ (s.engineOwned = [] → t.plots = s.plots) := by
  refine ⟨_, exec_corePowerGate idle, ?_, ?_, ?_, fun free => ?_⟩
  · rw [State.core_gate]
  · rw [State.core_gate]
  · rw [State.core_gate]
  · rw [State.gate_plots, State.emptied_plots free]

/-- Settles O60: each step of coming up, reset, debugging, clocks, monitors, management and power gating by its own lemma. -/
theorem comingUpAndManagement : Obligations.ComingUpAndManagement :=
  ⟨fun _ off => powerGood_next off,
    fun _ _ fdet good stage sound => ⟨stageComplete_failed good stage sound fdet, stageComplete_done good stage sound fdet⟩,
    fun _ => rfl,
    pcie_answers,
    fun s _ => packageReset_next s,
    fun _ _ h => ⟨debuggerHalt_next h, debuggerResume_next h, thermalThrottle_next h, fun _ => thermalShutdown_next h, clockRebalance_next h,
      fun _ w _ hm => monitorControlWrite_next h w hm⟩,
    fun _ _ _ _ due => monitorWindow_next due,
    fun _ _ on _ found => debuggerAttach_next on found,
    fun _ v => ⟨rfl, rfl, fun _ low h => fixedClocks_next v low h⟩,
    fun _ _ idle => corePowerGate_next idle⟩

end Sys2Proof.Machine
end

section
/-! JOIN, and the release of its slot (R51, R52, R352, R414, R465). -/

namespace Sys2Proof.Machine

/-! ### Words whose effects are their turns -/

/-- A meaning that is one lane word serves the turns of its members' effects, where none exits. -/
theorem serves_of_turns {i : Instr} {w w' : LaneWord} {e : IssueCtx → State → Fibre → Turn} (body : IssueCtx → State → Fibre → Eff)
    (hi : ∀ s, exec i s = runLane w' s body) (hw : w'.plain = w.plain)
    (he : ∀ c s f, (body c s f).act ≠ .exit ∧ e c s f = (body c s f).turn c f ∧ (e c s f).f.fid = f.fid) : Serves i w e := by
  refine serves_of_runLane body hi hw (fun c s f => ?_) fun c s f => (he c s f).2.2
  obtain ⟨stays, turn, -⟩ := he c s f
  rw [turn]
  exact Eff.turn_agrees _ c f stays

/-! ### JOIN -/

/-- JOIN passes on a slot that nobody opened; elsewhere its members arrive, held unless their furrow is bound (R51, R52). -/
theorem serves_join (x : FmtJ0) : Serves (.join x) { dissolves := true } fun c s f =>
    match s.plot? c.p.pid with
    | none => .next c s f
    | some p =>
      let y := p.jslot x.slot.toNat
      if y.opened = [] then .next c s f
      else
        let bound := ((s.core p.core).furrowOf? p.pid f.fid).any (·.bound)
        let now := s.cycOf p.core + s.occupancy c.iss { dissolves := true } c.p - 1
        let z : JSlot := ⟨y.opened, assocSet y.arrived f.fid now, if bound then y.held else y.held ++ [(f.fid, f.readyAt)],
          some (match y.start with
            | some n => min n now
            | none => now)⟩
        let t := s.modPlot p.pid fun q => q.setJslot x.slot.toNat z
        if bound then .next c t f else { Turn.next c t f with wait := some (.held x.slot.toNat) } := by
  refine serves_of_turns _ (fun s => rfl) rfl fun c s f => ?_
  dsimp only
  cases s.plot? c.p.pid with
  | none => exact ⟨nofun, rfl, rfl⟩
  | some p =>
    dsimp only
    generalize p.jslot x.slot.toNat = y
    obtain ⟨opened, arrived, held, start⟩ := y
    cases opened with
    | nil => exact ⟨nofun, rfl, rfl⟩
    | cons a l =>
      cases (s.core p.core).furrowOf? p.pid f.fid with
      | none => cases start <;> exact ⟨nofun, rfl, rfl⟩
      | some fu =>
        obtain ⟨_, _, _, _, _, _, bound, _, _, _⟩ := fu
        cases bound <;> cases start <;> exact ⟨nofun, rfl, rfl⟩

/-! ### Fibres that become runnable -/

/-- A fold of steps each of which changes when and how one fibre runs next. -/
theorem requeued_foldl {α : Type} {pid : Nat} {key : α → Nat} {step : State → α → State} (h : ∀ t a, Requeued pid [key a] t (step t a))
    (l : List α) (s : State) : Requeued pid (l.map key) s (l.foldl step s) := by
  induction l generalizing s with
  | nil => exact .refl _ _ _
  | cons a rest ih => exact ((h s a).mono (by simp)).trans ((ih _).mono (by simp +contextual))

/-- A fibre that becomes runnable: its age counts from the given ccy, and it is ready, or issuable in its bound furrow (R32, R42). -/
theorem State.fibre?_readyAs {s : State} {pid fid : Nat} {f : Fibre} (hf : s.fibre? pid fid = some f) (since age : Nat) (flight : Bool) :
    ∃ g, (s.readyAs pid fid since age flight).fibre? pid fid = some g ∧ g.same f ∧ g.readyAt = age ∧ (g.run = .ready since ∨ g.run = .inFurrow) := by
  have changed (t : State) (ht : t.fibre? pid fid = some f) (c : Fibre → Fibre) (hc : ∀ g, (c g).fid = g.fid) :
      (t.modFibre pid fid c).fibre? pid fid = some (c f) := by
    obtain ⟨p, hp, hpf⟩ := Option.bind_eq_some_iff.1 ht
    rw [State.modFibre, State.fibre?_modPlot t pid fid (·.modFibre fid c) fun _ => rfl, hp]
    simp [Plot.fibre?_modFibre _ _ _ hc, hpf]
  obtain ⟨p, hp, -⟩ := Option.bind_eq_some_iff.1 hf
  simp only [State.readyAs, hp]
  split
  · exact ⟨_, changed s hf _ fun _ => rfl, rfl, rfl, .inl rfl⟩
  · refine ⟨_, changed _ ?_ _ fun _ => rfl, rfl, rfl, .inr rfl⟩
    split
    · exact hf
    · simpa using hf

/-- A held fibre after the release of its slot at the end of a ccy: runnable later than it, with the age of the oldest (R52). -/
structure Released (now age : Nat) (f g : Fibre) : Prop where
  same : g.same f
  age : g.readyAt = age
  runs : (∃ since, now < since ∧ g.run = .ready since) ∨ g.run = .inFurrow

/-- Fibres that become runnable one after another are all released. -/
theorem released_foldl {pid now age : Nat} {since : Nat → Nat} (later : ∀ n, now < since n) (l : List (Nat × Nat)) (s : State) {fid : Nat} {f g : Fibre}
    (hg : s.fibre? pid fid = some g) (same : g.same f) (listed : fid ∈ l.map (·.1) ∨ Released now age f g) :
    ∃ h, (l.foldl (fun t q => t.readyAs pid q.1 (since q.1) age false) s).fibre? pid fid = some h ∧ Released now age f h := by
  induction l generalizing s g with
  | nil => exact ⟨g, hg, listed.resolve_left (by simp)⟩
  | cons q rest ih =>
    rw [List.foldl_cons]
    by_cases e : fid = q.1
    · subst e
      obtain ⟨h, hh, hsame, hage, hrun⟩ := State.fibre?_readyAs hg (since q.1) age false
      have both : h.same f := Eq.trans hsame same
      exact ih _ hh both (.inr ⟨both, hage, hrun.imp_left fun r => ⟨_, later _, r⟩⟩)
    · refine ih _ ?_ same (listed.imp_left fun m => by simpa [e] using m)
      obtain ⟨p, hp, hpf⟩ := Option.bind_eq_some_iff.1 hg
      obtain ⟨r, hr, -, others, -⟩ := (requeued_readyAs s pid q.1 (since q.1) age false).plot p hp
      simp [State.fibre?, hr, others fid (by simpa using e), hpf]

/-! ### The release of a slot -/

/-- The age of the oldest held fibre, as the release counts it. -/
theorem oldest_held {l : List (Nat × Nat)} (h : l ≠ []) : (l.map (·.2)).min? = some (l.foldl (fun a q => min a q.2) (l.headD (0, 0)).2) := by
  cases l with
  | nil => exact absurd rfl h
  | cons a rest => simp only [List.map_cons, List.min?_cons', List.foldl_map, List.headD_cons, List.foldl_cons, min_self]

/-- A slot releases when every fibre that opened it has arrived, or the hold timer has run out, unless a halt or a debugger stands in the way (R52,
R414, R465). -/
theorem State.joinDue_iff (s : State) (p : Plot) (j : Nat) : s.joinDue p j = true ↔
    (s.die (dieOf p.core)).halted = false ∧ (∀ h, p.halt = some h → h.fcyc = s.cycOf p.core) ∧ ∃ first, (p.jslot j).start = some first ∧
      ((first ≤ s.cycOf p.core ∧ ∀ f ∈ (p.jslot j).opened, ∃ q ∈ (p.jslot j).arrived, q.1 = f ∧ q.2 ≤ s.cycOf p.core) ∨
        first + p.jhold ≤ s.cycOf p.core) := by
  have runs : s.timersRun p = true ↔ (s.die (dieOf p.core)).halted = false ∧ ∀ h, p.halt = some h → h.fcyc = s.cycOf p.core := by
    cases h : p.halt <;> simp [State.timersRun, h]
  have here (f : Nat) : ((p.jslot j).here (s.cycOf p.core)).contains f = true ↔ ∃ q ∈ (p.jslot j).arrived, q.1 = f ∧ q.2 ≤ s.cycOf p.core := by
    simp [JSlot.here, and_comm]
  unfold State.joinDue JSlot.full JSlot.expired
  dsimp only
  cases (p.jslot j).start with
  | none => simp
  | some first =>
    simp only [Bool.and_eq_true, Bool.or_eq_true, runs, List.all_eq_true, here, Option.any_some, decide_eq_true_eq, and_assoc,
      Option.some.injEq, exists_eq_left']

/-- A slot that is due releases: both its sets are empty, its held fibres runnable (R51, R52). -/
theorem joinHoldExpiry_due {s : State} {pid j : Nat} {p : Plot} (hp : s.plot? pid = some p) (hj : j < p.j.length) (due : s.joinDue p j = true) :
    ∃ t q, exec (.joinHoldExpiry pid j) s = .next t ∧ t.plot? pid = some q ∧ q.jslot j = .empty ∧
      ∀ h ∈ (p.jslot j).held, ∀ f, p.fibre? h.1 = some f → ∃ g, q.fibre? h.1 = some g ∧ g.same f ∧
        ((p.jslot j).held.map (·.2)).min? = some g.readyAt ∧ ((∃ since, s.cycOf p.core < since ∧ g.run = .ready since) ∨ g.run = .inFurrow) := by
  let x := p.jslot j
  let age := x.held.foldl (fun a q => min a q.2) (x.held.headD (0, 0)).2
  let u := s.modPlot pid fun p => p.setJslot j .empty
  let t := x.held.foldl (fun t q => t.readyAs pid q.1 (x.ready (s.cycOf p.core) q.1) age false) u
  have hu : u.plot? pid = some (p.setJslot j .empty) := by
    rw [State.plot?_modPlot s pid (·.setJslot j .empty) fun _ => rfl, hp, Option.map_some]
  have run : exec (.joinHoldExpiry pid j) s = .next t := by
    change execJoinHoldExpiry pid j s = _
    simp only [execJoinHoldExpiry, hp, due, if_true, State.releaseJoin]
    rfl
  obtain ⟨q, hq, rest, -, -⟩ :=
    (requeued_foldl (fun t a => requeued_readyAs t pid a.1 (x.ready (s.cycOf p.core) a.1) age false) x.held u).plot _ hu
  refine ⟨t, q, run, hq, ?_, fun h mem f hf => ?_⟩
  · have slots : q.j = p.j.set j .empty := (congrArg Plot.j rest : _)
    simp [Plot.jslot, slots, hj]
  · have later (n : Nat) : s.cycOf p.core < x.ready (s.cycOf p.core) n := by
      unfold JSlot.ready
      split
      · split <;> omega
      · omega
    have before : u.fibre? pid h.1 = some f := by
      rw [State.fibre?, hu]
      exact hf
    obtain ⟨g, hg, same, hage, runs⟩ := released_foldl later x.held u before rfl (.inl (List.mem_map_of_mem mem))
    refine ⟨g, ?_, same, ?_, runs⟩
    · rw [State.fibre?, show State.plot? _ pid = some q from hq] at hg
      exact hg
    · rw [hage]
      exact oldest_held (List.ne_nil_of_mem mem)

/-- A slot that is not due stays. -/
theorem joinHoldExpiry_not_due {s : State} {pid j : Nat} {p : Plot} (hp : s.plot? pid = some p) (due : s.joinDue p j = false) :
    exec (.joinHoldExpiry pid j) s = .fault .noSubject := by
  change execJoinHoldExpiry pid j s = _
  simp only [execJoinHoldExpiry, hp, due, Bool.false_eq_true, if_false]

/-- Settles O38: JOIN by its members' turns, the release of a slot by the fibres that become runnable one after another. -/
theorem joins : Obligations.Joins := by
  refine ⟨serves_join, fun s pid j p hp hj => ⟨fun due => ?_, fun notDue => ?_⟩⟩
  · exact joinHoldExpiry_due hp hj ((s.joinDue_iff p j).2 due)
  · exact joinHoldExpiry_not_due hp (Bool.eq_false_iff.2 fun h => notDue ((s.joinDue_iff p j).1 h))

end Sys2Proof.Machine
end

section
/-! SPAWN, PMARK, CVSET, S2V (R28, R29, R44, R73, R75, R354 to R358). -/

namespace Sys2Proof.Machine

/-! ### SPAWN -/

/-- SPAWN waits for its fibre's earlier accesses, and makes a fibre or raises SPWN (R355). -/
theorem serves_spawn (x : FmtSP) :
    let w : LaneWord := { guard := x.g.toNat, size := Machine.sizeOf x.p, codes := List.range x.n.toNat ++ codesFrom 128 8, cost := 2 }
    Serves (.spawn x) w fun c s f =>
      let entered := s.cycOf c.p.core + s.occupancy c.iss w c.p - 1
      if s.quiet c.p.pid f.fid = false then .again s f .quiet
      else
        match (s.plot? c.p.pid).bind fun p => s.spawn p f x.n.toNat (c.iss.pc + BitVec.ofInt 40 (4 * simm x.p 14 x.off.toNat)) entered with
        | none => .raise s f (.precise .spwn c.iss.pc)
        | some t => .next c t f := by
  refine serves_of_turns _ (fun s => rfl) rfl fun c s f => ?_
  dsimp only [waitQuiet, relTarget]
  cases s.quiet c.p.pid f.fid with
  | false => exact ⟨nofun, rfl, rfl⟩
  | true =>
    simp only [if_true, Bool.true_eq_false, if_false]
    generalize Option.bind _ _ = made
    cases made <;> exact ⟨nofun, rfl, rfl⟩

/-- The lowest free FID is one that no fibre of the plot has, nor has had in this ccy (R29). -/
theorem Plot.freeFid_spec {p : Plot} {fid : Nat} (h : p.freeFid = some fid) :
    (∀ g ∈ p.fibres, g.fid ≠ fid) ∧ fid ∉ p.exited ∧ fid < 1024 := by
  have free := List.find?_some h
  have small := List.mem_of_find?_eq_some h
  simp only [Bool.and_eq_true, Bool.not_eq_true', List.any_eq_false, beq_iff_eq, List.contains_eq_mem, decide_eq_false_iff_not] at free
  exact ⟨free.1, free.2, List.mem_range.1 small⟩

/-- The fibre that a SPAWN makes of its maker: n registers of it, its predicates, a registers and path digest, the rest zero (R28, R355). -/
def Plot.spawned (p : Plot) (f : Fibre) (fid n : Nat) (entry : Pc) (base : Nat) : Fibre :=
  { fid := fid, pc := entry, preds := f.preds, wbase := base, v := f.v.take n ++ List.replicate (p.window - n) 0, a := f.a, lc := noLoops,
    loads := 0, stores := 0, copies := 0, engine := 0, pathd := f.pathd, seq := p.spawnSeq, run := .binned, lane := fid % 32, readyAt := 0,
    flight := false }

/-- A SPAWN that is not refused adds the fibre to its plot, under a free FID. -/
theorem State.spawn_eq {s t : State} {p : Plot} {f : Fibre} {n : Nat} {entry : Pc} {entered : Nat} (h : s.spawn p f n entry entered = some t) :
    ∃ fid base ws, p.freeFid = some fid ∧ t = (s.modPlot p.pid fun q =>
      { q with fibres := q.fibres ++ [p.spawned f fid n entry base], windows := q.windows ++ ws }).modCore p.core fun k =>
        { k with spawning := k.spawning ++ [⟨p.pid, entry, fid, entered⟩] } := by
  unfold State.spawn at h
  cases hfid : p.freeFid with
  | none => simp [hfid] at h
  | some fid =>
    simp only [hfid, Option.ite_none_left_eq_some, Option.some.injEq] at h
    obtain ⟨-, -, -, rfl⟩ := h
    cases assoc p.windows fid with
    | none => exact ⟨fid, _, [(fid, _)], rfl, rfl⟩
    | some base => exact ⟨fid, base, [], rfl, by simp only [List.append_nil]; rfl⟩

/-- The fibre of a SPAWN stands in its plot, where no fibre had its FID; memory stays. -/
theorem State.spawn_spec {s t : State} {p : Plot} {f : Fibre} {n : Nat} {entry : Pc} {entered : Nat} (hp : s.plot? p.pid = some p)
    (h : s.spawn p f n entry entered = some t) :
    ∃ fid g, (∀ h ∈ p.fibres, h.fid ≠ fid) ∧ fid ∉ p.exited ∧ fid < 1024 ∧ t.fibre? p.pid fid = some g ∧ g.pc = entry ∧
      g.v = f.v.take n ++ List.replicate (p.window - n) 0 ∧ g.preds = f.preds ∧ g.a = f.a ∧ g.pathd = f.pathd ∧
      (∀ m, g.lc.getD m ⟨0, 0, 0, 0⟩ = ⟨0, 0, 0, 0⟩) ∧ t.mem = s.mem := by
  obtain ⟨fid, base, ws, free, rfl⟩ := State.spawn_eq h
  obtain ⟨new, notExited, small⟩ := Plot.freeFid_spec free
  refine ⟨fid, p.spawned f fid n entry base, new, notExited, small, ?_, rfl, rfl, rfl, rfl, rfl, fun m => ?_, by simp⟩
  · have none : p.fibres.find? (fun g => g.fid == fid) = none := List.find?_eq_none.2 fun g hg => by simpa using new g hg
    rw [State.fibre?_modCore, State.fibre?_modPlot, hp]
    · simp [Plot.fibre?, List.find?_append, none, Plot.spawned]
    · exact fun _ => rfl
  · match m with
    | 0 | 1 | 2 | _ + 3 => rfl

/-! ### PMARK, CVSET, S2V -/

/-- PMARK counts a step of its plot, saturating (R357). -/
theorem serves_pmark (x : FmtG) : Serves (.pmark x) { guard := x.g.toNat, size := Machine.sizeOf x.p } fun c s f =>
    .next c (s.modPlot c.p.pid fun p => { p with step := BitVec.ofNat 32 (min 0xFFFFFFFF (p.step.toNat + 1)) }) f := by
  have saturating (v : Word) : (if v = 0xFFFFFFFF then v else v + 1) = BitVec.ofNat 32 (min 0xFFFFFFFF (v.toNat + 1)) := by
    split <;> bv_omega
  refine serves_of_turns _ (fun s => rfl) rfl fun c s f => ⟨nofun, ?_, rfl⟩
  simp only [saturating]
  rfl

/-- CVSET joins its set with sequence number 0, or raises BARX (R44, R358). -/
theorem serves_cvset (x : FmtCV0) : Serves (.cvset x) {} fun c s f =>
    match (s.plot? c.p.pid).bind fun p => if x.cset = 0 then none else (p.cset x.cset.toNat).join f.fid x.count.toNat with
    | none => .raise s f (.precise .barx c.iss.pc)
    | some y =>
      let t := s.modPlot c.p.pid fun p => p.setCset x.cset.toNat y
      .next c (if y.closed then t.wakeClosed c.p.pid x.cset.toNat else t) { f with seq := f.seq.set x.cset.toNat 0 } := by
  have zero : x.cset.toNat = 0 ↔ x.cset = 0 := by simp [BitVec.toNat_eq]
  refine serves_of_turns _ (fun s => rfl) rfl fun c s f => ?_
  simp only [zero]
  generalize Option.bind _ _ = joined
  cases joined <;> exact ⟨nofun, rfl, rfl⟩

/-- The three outcomes of a join: of a free set, of one that does not take the fibre, of one that does (R44). -/
theorem CSet.join_spec (y : CSet) (fid : Nat) {n : Nat} (some : 0 < n) :
    (y.count = 0 → y.join fid n = .some { CSet.free with count := n, joined := 1, members := [fid], closed := decide (n = 1) }) ∧
    (y.count ≠ 0 → y.count ≠ n ∨ y.closed = true ∨ fid ∈ y.members → y.join fid n = none) ∧
    (y.count = n → y.closed = false → fid ∉ y.members →
      y.join fid n = .some { y with joined := y.joined + 1, members := y.members ++ [fid], closed := decide (y.joined + 1 = n) }) := by
  refine ⟨fun free => ?_, fun taken refused => ?_, fun count still new => ?_⟩
  · rw [CSet.join, if_pos free]
    rfl
  · rw [CSet.join, if_neg taken, if_pos (by simpa using refused)]
  · rw [CSet.join, if_neg (by omega), if_neg (by simp [count, still, new])]
    rfl

/-- S2V reads a special register (R75). -/
theorem serves_s2v (x : FmtSR0) : Serves (.s2v x) { guard := x.g.toNat, dst := [x.d.toNat] } fun c s f =>
    .next c s (f.setV x.d.toNat (specialReg c s f x.n.toNat)) :=
  serves_of_turns _ (fun _ => rfl) rfl fun _ _ _ => ⟨nofun, rfl, rfl⟩

/-- The special registers but the size of the furrow (R73). -/
theorem specialReg_values (c : IssueCtx) (s : State) (f : Fibre) :
    [0, 1, 2, 3, 4, 5, 6].map (fun n => specialReg c s f n) =
      [f.fid, c.p.plot, c.p.fld, dieOf c.p.core, c.p.core % 32, c.lane, f.fid % 32].map (BitVec.ofNat 32) ∧
    [8, 9, 10, 11, 12, 13].map (fun n => specialReg c s f n) = [BitVec.ofNat 32 (s.cycOf c.p.core), BitVec.ofNat 32 (s.cycOf c.p.core / 2 ^ 32),
      f.pathd.extractLsb' 0 32, f.pathd.extractLsb' 32 32, c.p.flg, c.p.step] := by
  have low : f.pathd.setWidth 32 = f.pathd.extractLsb' 0 32 := by
    apply BitVec.eq_of_toNat_eq
    simp
  have high : (f.pathd >>> 32).setWidth 32 = f.pathd.extractLsb' 32 32 := by
    apply BitVec.eq_of_toNat_eq
    simp
  exact ⟨rfl, by simp [specialReg, low, high]⟩

/-- The size of the furrow as a special register (R73). -/
theorem specialReg_furrow {c : IssueCtx} {s : State} {fu : Furrow} (h : s.furrowOf c.iss = some fu) (f : Fibre) :
    specialReg c s f 7 = BitVec.ofNat 32 fu.lanes.length := by
  simp [specialReg, State.furrowSize, h]

/-- Settles O39: each word by the turns of its members, the new fibre by what SPAWN adds to its plot, a join by its three outcomes. -/
theorem spawnMarkSetRead : Obligations.SpawnMarkSetRead :=
  ⟨serves_spawn, fun _ _ _ _ _ _ _ hp h => State.spawn_spec hp h, serves_pmark, serves_cvset, serves_s2v,
    fun y fid _ some => y.join_spec fid some,
    fun c s f => ⟨(specialReg_values c s f).1, fun _ h => specialReg_furrow h f, (specialReg_values c s f).2⟩⟩

end Sys2Proof.Machine
end

section
/-! SUPPORT. The furrow after an issue: what ends, what is kept, who is loose (R32 to R36, R42, R51). -/

namespace Sys2Proof.Machine

/-! ### Furrows of a core after a change of one -/

/-- The furrow of a slot after it has been replaced. -/
theorem Core.furrow?_setFurrow {c : Core} {fu g : Furrow} (h : c.furrow? fu.quad fu.slot = some g) :
    (c.setFurrow fu).furrow? fu.quad fu.slot = some fu := by
  unfold Core.furrow? Core.setFurrow at *
  dsimp only
  generalize c.furrows = l at h
  induction l with
  | nil => cases h
  | cons a l ih =>
    cases ha : a.quad == fu.quad && a.slot == fu.slot with
    | true => simp only [List.map_cons, ha, if_true, List.find?_cons, beq_self_eq_true, Bool.and_self]
    | false =>
      simp only [List.find?_cons, ha] at h
      simpa only [List.map_cons, ha, Bool.false_eq_true, if_false, List.find?_cons] using ih h

/-- The slot of a furrow that has ended is free, or its furrow has no member left. -/
theorem Core.furrow?_endFurrow {c : Core} {fu g : Furrow} {now occ : Nat} (h : (c.endFurrow fu now occ).furrow? fu.quad fu.slot = some g) :
    g.lanes = [] := by
  have slot := List.find?_some h
  have mem := List.mem_of_find?_eq_some h
  unfold Core.endFurrow at mem
  split at mem
  · simp [Core.dropFurrow] at mem
    simp_all
  · obtain ⟨a, -, ha⟩ := List.mem_map.1 mem
    split at ha
    · rw [← ha]
    · simp_all

/-- Once the only furrow that holds a fibre has ended, none does. -/
theorem Core.furrowOf?_endFurrow {c : Core} {fu : Furrow} {pid fid : Nat} (now occ : Nat)
    (only : ∀ g ∈ c.furrows, g.pid = pid → (∃ l ∈ g.lanes, l.2 = fid) → g.quad = fu.quad ∧ g.slot = fu.slot) :
    (c.endFurrow fu now occ).furrowOf? pid fid = none := by
  refine List.find?_eq_none.2 fun g hg => ?_
  have away (h : g ∈ c.furrows) (apart : ¬(g.quad = fu.quad ∧ g.slot = fu.slot)) : ¬(g.pid == pid && g.lanes.any fun l => l.2 == fid) = true := by
    intro holds
    simp only [Bool.and_eq_true, beq_iff_eq, List.any_eq_true] at holds
    exact apart (only g h holds.1 holds.2)
  unfold Core.endFurrow at hg
  split at hg
  · obtain ⟨mem, apart⟩ := List.mem_filter.1 hg
    exact away mem fun slot => by simp [slot] at apart
  · obtain ⟨a, mem, ha⟩ := List.mem_map.1 hg
    split at ha
    · simp [← ha]
    · rename_i apart
      subst ha
      exact away mem fun slot => apart (by simp [slot])

/-! ### Loose fibres -/

/-- A fibre that becomes ready from a ccy on, in flight to its PC (R36, R38). -/
def Fibre.loosened (since : Nat) (f : Fibre) : Fibre :=
  { f with run := .ready since, readyAt := since, flight := true }

/-- Fibres of a plot become ready one after another where no bound furrow holds them. -/
theorem readyAs_foldl {pid since : Nat} (l : List (Nat × Act)) {s : State} {p : Plot} (hp : s.plot? pid = some p)
    (free : ∀ q ∈ l, (s.core p.core).furrowOf? pid q.1 = none) :
    l.foldl (fun t q => t.readyAs pid q.1 since since true) s =
      s.modPlot pid fun p => l.foldl (fun p q => p.modFibre q.1 (Fibre.loosened since)) p := by
  induction l generalizing s p with
  | nil => exact (s.modPlot_id pid).symm
  | cons q rest ih =>
    have first : s.readyAs pid q.1 since since true = s.modPlot pid (·.modFibre q.1 (Fibre.loosened since)) := by
      simp only [State.readyAs, hp, free q (by simp)]
      rfl
    have then_ : (s.modPlot pid (·.modFibre q.1 (Fibre.loosened since))).plot? pid = some (p.modFibre q.1 (Fibre.loosened since)) := by
      rw [State.plot?_modPlot s pid (·.modFibre q.1 (Fibre.loosened since)) fun _ => rfl, hp, Option.map_some]
    rw [List.foldl_cons, first, ih then_ fun r hr => free r (List.mem_cons_of_mem _ hr),
      State.modPlot_modPlot s pid (·.modFibre q.1 (Fibre.loosened since)) _ fun _ => rfl]
    rfl

/-- One of the fibres that become ready, wherever it stands among them. -/
theorem Plot.fibre?_loosened {since : Nat} (l : List (Nat × Act)) {p : Plot} {fid : Nat} {f : Fibre} (hf : p.fibre? fid = some f)
    (listed : fid ∈ l.map (·.1) ∨ f.loosened since = f) :
    (l.foldl (fun p q => p.modFibre q.1 (Fibre.loosened since)) p).fibre? fid = some (f.loosened since) := by
  induction l generalizing p f with
  | nil => rw [List.foldl_nil, hf, listed.resolve_left (by simp)]
  | cons q rest ih =>
    rw [List.foldl_cons]
    by_cases e : fid = q.1
    · subst e
      exact ih (f := f.loosened since) (by rw [Plot.fibre?_modFibre p q.1 (Fibre.loosened since) fun _ => rfl, hf, Option.map_some]) (.inr rfl)
    · exact ih (by rw [Plot.fibre?_modFibre_ne p q.1 fid (Fibre.loosened since) (fun _ => rfl) e, hf]) (listed.imp_left fun m => by simpa [e] using m)

/-! ### When an unbound furrow dissolves (R35) -/

theorem nodup_dedup_and_mem_dedup {α : Type} [BEq α] [LawfulBEq α] (l : List α) : (dedup l).Nodup ∧ ∀ a, a ∈ dedup l ↔ a ∈ l := by
  have fold (l acc : List α) (nodup : acc.Nodup) :
      (l.foldl (fun acc a => if acc.contains a then acc else acc ++ [a]) acc).Nodup ∧
      ∀ a, a ∈ l.foldl (fun acc a => if acc.contains a then acc else acc ++ [a]) acc ↔ a ∈ acc ∨ a ∈ l := by
    induction l generalizing acc with
    | nil => simpa using nodup
    | cons b rest ih =>
      rw [List.foldl_cons]
      by_cases hb : b ∈ acc
      · rw [if_pos (by simpa using hb)]
        obtain ⟨nd, mem⟩ := ih acc nodup
        exact ⟨nd, fun a => by rw [mem]; grind⟩
      · rw [if_neg (by simpa using hb)]
        obtain ⟨nd, mem⟩ := ih (acc ++ [b]) (by simp [List.nodup_append, nodup]; grind)
        exact ⟨nd, fun a => by rw [mem]; simp [or_assoc]⟩
  simpa [dedup] using fold l [] List.nodup_nil

/-- More than one value is left of a list without its repeats where two of its values differ. -/
theorem one_lt_length_dedup {α : Type} [BEq α] [LawfulBEq α] (l : List α) : 1 < (dedup l).length ↔ ∃ a ∈ l, ∃ b ∈ l, a ≠ b := by
  obtain ⟨nodup, mem⟩ := nodup_dedup_and_mem_dedup l
  simp only [← mem]
  match dedup l, nodup with
  | [], _ => simp
  | [a], _ => simp
  | a :: b :: rest, nodup =>
    have ne : a ≠ b := by simp at nodup; tauto
    exact ⟨fun _ => ⟨a, by simp, b, by simp, ne⟩, fun _ => by simp⟩

theorem Act.stays_iff (a : Act) : a.stays = true ↔ (∃ f, a = .seq f) ∨ (∃ f pc, a = .goto f pc) ∨ ∃ r, a = .fault r := by
  cases a <;> simp [Act.stays]

/-- An unbound furrow dissolves where its instruction says so, a member leaves it, or its members have two distinct next PCs. -/
theorem dissolvesNow_iff {w : LaneWord} {acts : List (Nat × Act)} {pcs : List Pc} (begun : ∀ q ∈ acts, ∀ k, q.2 ≠ .again k) :
    dissolvesNow w acts pcs = true ↔ w.dissolves = true ∨ (∃ q ∈ acts, q.2.stays = false) ∨ ∃ a ∈ pcs, ∃ b ∈ pcs, a ≠ b := by
  simp only [dissolvesNow, Bool.or_eq_true, decide_eq_true_eq, one_lt_length_dedup, List.any_eq_true, or_assoc]
  refine or_congr_right ?_
  rw [or_comm]
  refine or_congr_left (exists_congr fun q => and_congr_right fun hq => ?_)
  have started := begun q hq
  revert started
  cases q.2 <;> simp [Act.stays]

/-! ### The furrow after an issue -/

/-- What is left of a furrow's lanes without the members that exit (R42). -/
def Furrow.left (fu : Furrow) (acts : List (Nat × Act)) : List (Nat × Nat) :=
  fu.lanes.filter fun l => !(acts.any fun q => q.1 == l.2 && q.2 == .exit)

/-- The members of an issue that go on in their plot (R35, R36). -/
def staying (acts : List (Nat × Act)) : List (Nat × Act) :=
  acts.filter fun q => q.2.stays

/-- The next PCs of the members of an issue. -/
def State.nextPcs (s : State) (iss : Issue) (acts : List (Nat × Act)) : List Pc :=
  acts.filterMap fun q => (s.fibre? iss.pid q.1).map (·.pc)

section
variable {s : State} {iss : Issue} {p : Plot} {fu : Furrow} (h : InFurrow s iss p fu)
include h

theorem regroup_bound_empty (bound : fu.bound = true) {acts : List (Nat × Act)} (none : fu.left acts = []) (w : LaneWord) (occ : Nat) :
    s.regroup iss w acts occ = s.modCore iss.core fun c => c.endFurrow fu (s.cycOf iss.core) occ := by
  simp only [State.regroup, h.furrow, h.holds, bound, if_true]
  exact if_pos (List.isEmpty_iff.2 none)

theorem regroup_bound (bound : fu.bound = true) {acts : List (Nat × Act)} (some_ : fu.left acts ≠ []) (w : LaneWord) (occ : Nat) :
    ∃ wait, s.regroup iss w acts occ = s.keepFurrow iss fu (fu.left acts) wait := by
  simp only [State.regroup, h.furrow, h.holds, bound, if_true]
  exact ⟨_, if_neg fun none => some_ (List.isEmpty_iff.1 none)⟩

theorem regroup_dissolves (unbound : fu.bound = false) {w : LaneWord} {acts : List (Nat × Act)}
    (dissolves : dissolvesNow w acts (s.nextPcs iss acts) = true) (occ : Nat) :
    s.regroup iss w acts occ = (staying acts).foldl
      (fun t q => t.readyAs iss.pid q.1 (s.cycOf iss.core + occ + 1) (s.cycOf iss.core + occ + 1) true)
      (s.modCore iss.core fun c => c.endFurrow fu (s.cycOf iss.core) occ) := by
  simp only [State.regroup, h.furrow, h.holds, unbound, Bool.false_eq_true, if_false]
  exact if_pos dissolves

theorem regroup_whole (unbound : fu.bound = false) {w : LaneWord} {acts : List (Nat × Act)}
    (stays : dissolvesNow w acts (s.nextPcs iss acts) = false) (occ : Nat) :
    ∃ wait, s.regroup iss w acts occ = s.keepFurrow iss fu fu.lanes wait := by
  simp only [State.regroup, h.furrow, h.holds, unbound, Bool.false_eq_true, if_false]
  exact ⟨_, if_neg (Bool.eq_false_iff.1 stays)⟩

theorem kept_keepFurrow (lanes : List (Nat × Nat)) (wait : Nat) : fu.kept iss.core lanes (s.keepFurrow iss fu lanes wait) := by
  refine ⟨s.cycOf iss.core + wait, ?_⟩
  rw [State.keepFurrow, State.core_modCore]
  · exact Core.furrow?_setFurrow (fu := { fu with lanes := lanes, since := s.cycOf iss.core + wait, promoted := false, waiting := none }) h.holds
  · exact fun _ => rfl

end

theorem Core.num_endFurrow (c : Core) (fu : Furrow) (now occ : Nat) : (c.endFurrow fu now occ).num = c.num :=
  (congrArg Core.num (endFurrow_rest c fu now occ) : _)

/-- A furrow has ended in a state whose core has ended it. -/
theorem ended_of_core {t : State} {core : Nat} {c : Core} {fu : Furrow} {now occ : Nat} (same : t.core core = c.endFurrow fu now occ) :
    fu.ended core t := by
  intro g hg
  rw [same] at hg
  exact Core.furrow?_endFurrow hg

/-- The members of an unbound furrow that has ended are ready two ccy after the issue (R36). -/
theorem loose_regroup {s : State} {iss : Issue} {p : Plot} {fu : Furrow} (h : InFurrow s iss p fu) {acts : List (Nat × Act)} {since occ : Nat}
    (mem : ∀ q ∈ acts, q.1 ∈ iss.members.map (·.2)) :
    let t := acts.foldl (fun t q => t.readyAs iss.pid q.1 since since true) (s.modCore iss.core fun c => c.endFurrow fu (s.cycOf iss.core) occ)
    fu.ended iss.core t ∧ ∀ q ∈ acts, ∀ f, s.fibre? iss.pid q.1 = some f → Loose t iss f since := by
  have core : (s.modCore iss.core fun c => c.endFurrow fu (s.cycOf iss.core) occ).core iss.core =
      (s.core iss.core).endFurrow fu (s.cycOf iss.core) occ := by
    rw [State.core_modCore]
    exact fun c => c.num_endFurrow fu _ occ
  have plot : (s.modCore iss.core fun c => c.endFurrow fu (s.cycOf iss.core) occ).plot? iss.pid = some p := by
    simpa using h.plot
  intro t
  have eq : t = (s.modCore iss.core fun c => c.endFurrow fu (s.cycOf iss.core) occ).modPlot iss.pid
      fun p => acts.foldl (fun p q => p.modFibre q.1 (Fibre.loosened since)) p := by
    refine readyAs_foldl acts plot fun q hq => ?_
    rw [h.core, core]
    exact Core.furrowOf?_endFurrow _ _ fun g hg hp ⟨l, hl, e⟩ => h.only g hg hp ⟨l, hl, by rw [e]; exact mem q hq⟩
  have ended : t.core iss.core = (s.core iss.core).endFurrow fu (s.cycOf iss.core) occ := by
    rw [eq]
    exact core
  refine ⟨ended_of_core ended, fun q hq f hf => ?_⟩
  · have there : p.fibre? q.1 = some f := by simpa [State.fibre?, h.plot] using hf
    have fid : f.fid = q.1 := Plot.fibre?_fid there
    have pid (l : List (Nat × Act)) (p : Plot) : (l.foldl (fun p q => p.modFibre q.1 (Fibre.loosened since)) p).pid = p.pid := by
      induction l generalizing p with
      | nil => rfl
      | cons a l ih => exact ih _
    refine ⟨f.loosened since, ?_, rfl, rfl, rfl⟩
    rw [eq, State.fibre?, State.plot?_modPlot _ _ _ (pid acts), plot, Option.map_some, fid]
    exact Plot.fibre?_loosened acts there (.inl (List.mem_map_of_mem hq))

theorem mem_nextPcs {s : State} {iss : Issue} {acts : List (Nat × Act)} {pc : Pc} :
    pc ∈ s.nextPcs iss acts ↔ ∃ q ∈ acts, ∃ f, s.fibre? iss.pid q.1 = some f ∧ f.pc = pc := by
  simp [State.nextPcs]

/-- The furrow after any issue (R35, R36, R42). -/
theorem regroup_spec {s : State} {iss : Issue} {p : Plot} {fu : Furrow} (h : InFurrow s iss p fu) (w : LaneWord) {acts : List (Nat × Act)} (occ : Nat)
    (mem : ∀ q ∈ acts, q.1 ∈ iss.members.map (·.2)) :
    let t := s.regroup iss w acts occ
    (fu.bound = false → dissolvesNow w acts (s.nextPcs iss acts) = true → fu.ended iss.core t ∧
      ∀ q ∈ staying acts, ∀ f, s.fibre? iss.pid q.1 = some f → Loose t iss f (s.cycOf iss.core + occ + 1)) ∧
    (fu.bound = false → dissolvesNow w acts (s.nextPcs iss acts) = false → fu.kept iss.core fu.lanes t ∧ t.plots = s.plots) ∧
    (fu.bound = true → fu.left acts = [] → fu.ended iss.core t ∧ t.plots = s.plots) ∧
    (fu.bound = true → fu.left acts ≠ [] → fu.kept iss.core (fu.left acts) t ∧ t.plots = s.plots) := by
  refine ⟨fun unbound dissolves => ?_, fun unbound stays => ?_, fun bound none => ?_, fun bound some_ => ?_⟩
  · rw [regroup_dissolves h unbound dissolves]
    exact loose_regroup h fun q hq => mem q (List.mem_filter.1 hq).1
  · obtain ⟨wait, e⟩ := regroup_whole h unbound stays occ
    rw [e]
    exact ⟨kept_keepFurrow h _ _, by simp [State.keepFurrow]⟩
  · rw [regroup_bound_empty h bound none]
    exact ⟨ended_of_core (State.core_modCore _ _ _ fun c => c.num_endFurrow fu _ occ), by simp⟩
  · obtain ⟨wait, e⟩ := regroup_bound h bound some_ w occ
    rw [e]
    exact ⟨kept_keepFurrow h _ _, by simp [State.keepFurrow]⟩

end Sys2Proof.Machine
end

section
/-! BRA.J, BIND, UNBIND, NOP and YIELD (R36, R41, R42, R51, R345, R348, R353). -/

namespace Sys2Proof.Machine

/-! ### Words without operands -/

/-- A word that reads and writes no register. -/
structure LaneWord.Bare (w : LaneWord) : Prop where
  codes : w.codes = []
  dst : w.dst = []
  bs : w.bs = []
  uks : w.uks = []

theorem LaneWord.Bare.waits {w : LaneWord} (h : w.Bare) (p : Plot) (f : Fibre) : p.waits w f = false := by
  simp [Plot.waits, Plot.pending, LaneWord.ks, kOf, h.codes, h.bs, h.uks]
  intros
  split <;> simp

theorem LaneWord.Bare.unlocked {w : LaneWord} (h : w.Bare) (s : State) (iss : Issue) (p : Plot) : s.unlocked iss p w := by
  intro m _ _ n _
  simp [LaneWord.uses, h.codes, h.dst]

/-- The outcomes of members that take their acts without a change of the shared state, the others passing the word by. -/
def LaneWord.outcomes (w : LaneWord) (act : Nat × Fibre → Act) (l : List (Nat × Fibre)) : List (Nat × Act × Flg × List Nat) :=
  l.map fun m => (m.2.fid, if m.2.pred w.guard then act m else .seq m.2, 0, [])

theorem fold_outcomes {w : LaneWord} {iss : Issue} {p : Plot} {body : IssueCtx → State → Fibre → Eff} {act : Nat × Fibre → Act}
    (l : List (Nat × Fibre)) (free : ∀ m ∈ l, p.waits w m.2 = false)
    (acts : ∀ m ∈ l, ∀ s, body (iss.context p w m.1) s m.2 = .of s (act m)) (s : State) (acc : List (Nat × Act × Flg × List Nat)) :
    l.foldl (memberStep w iss p body) (s, acc) = (s, acc ++ w.outcomes act l) := by
  induction l generalizing acc with
  | nil => simp [LaneWord.outcomes]
  | cons m rest ih =>
    have one : memberStep w iss p body (s, acc) m = (s, acc ++ w.outcomes act [m]) := by
      have run := acts m (by simp) s
      cases hp : m.2.pred w.guard <;> simp [memberStep, free m (by simp), hp, run, Eff.of, LaneWord.outcomes]
    rw [List.foldl_cons, one, ih (fun n hn => free n (List.mem_cons_of_mem _ hn)) fun n hn => acts n (List.mem_cons_of_mem _ hn)]
    simp [LaneWord.outcomes]

theorem issueWait_outcomes {w : LaneWord} {act : Nat × Fibre → Act} (begun : ∀ m k, act m ≠ .again k) (l : List (Nat × Fibre)) :
    issueWait (w.outcomes act l) = none := by
  induction l with
  | nil => rfl
  | cons m rest ih =>
    unfold LaneWord.outcomes
    rw [List.map_cons, issueWait_cons]
    have := begun m
    split
    · split at * <;> simp_all
    · exact ih

/-- The issue of a word whose members take their acts without a change of the shared state. -/
theorem runLane_outcomes {w : LaneWord} {s : State} {iss : Issue} {p : Plot} (h : Issuing s iss p) {body : IssueCtx → State → Fibre → Eff}
    {act : Nat × Fibre → Act} (system : w.privileged = true → p.system = true) (unlocked : s.unlocked iss p w)
    (free : ∀ m ∈ iss.live p, p.waits w m.2 = false) (begun : ∀ m k, act m ≠ .again k)
    (acts : ∀ m ∈ iss.live p, ∀ s, body (iss.context p w m.1) s m.2 = .of s (act m)) :
    runLane w s body = .next (s.finish iss w p (w.outcomes act (iss.live p))) := by
  have allowed : (w.privileged && !p.system) = false := by
    cases hx : w.privileged with
    | false => rfl
    | true => simp [system hx]
  simp only [runLane, h.issuing, h.plot, allowed, Bool.false_eq_true, if_false, fold_outcomes _ free acts, List.nil_append,
    (unlocked_iff s iss p w).1 unlocked, issueWait_outcomes begun]

/-- The effect of a member that only goes on. -/
def passing : IssueCtx → State → Fibre → Eff :=
  fun _ s f => .of s (.seq f)

/-- The outcomes of an issue whose members only go on. -/
def Issue.passed (iss : Issue) (p : Plot) : List (Nat × Act × Flg × List Nat) :=
  (iss.live p).map fun m => (m.2.fid, .seq m.2, 0, [])

/-- The members of an issue that only go on, as its furrow sees them. -/
def Issue.goers (iss : Issue) (p : Plot) : List (Nat × Act) :=
  (iss.live p).map fun m => (m.2.fid, .seq m.2)

theorem runLane_passing {w : LaneWord} (hw : w.Bare) (open_ : w.privileged = false) {s : State} {iss : Issue} {p : Plot} (h : Issuing s iss p) :
    runLane w s passing = .next (s.finish iss w p (iss.passed p)) := by
  rw [runLane_outcomes h (act := fun m => .seq m.2) (by simp [open_]) (hw.unlocked s iss p) (fun m _ => hw.waits p m.2) (fun _ _ => nofun)
    fun _ _ _ => rfl]
  simp [LaneWord.outcomes, Issue.passed]

/-- Members that only go on are served as such. -/
theorem served_passing (w : LaneWord) (open_ : w.privileged = false) {s : State} {iss : Issue} {p : Plot} (h : Issuing s iss p) :
    Served (runLane w s passing) s iss p w fun c s f => .next c s f :=
  runLane_serves w passing _ (fun _ _ _ => ⟨rfl, rfl, rfl, rfl, rfl, rfl, rfl⟩) (fun _ _ _ => rfl) s iss p h (by simp [open_])

/-! ### The end of such an issue -/

/-- Members without causes add no record to the exception log. -/
theorem logIssue_none {s : State} {p : Plot} {pc unit ty : Nat} {l : List (Nat × List Nat)} (h : ∀ q ∈ l, q.2 = []) :
    s.logIssue p pc unit ty l = s := by
  have empty (n : Nat) : l.filter (fun q => q.2.contains n) = [] := by
    simp only [List.filter_eq_nil_iff]
    intro q hq
    simp [h q hq]
  simp only [State.logIssue, List.foldl_cons, List.foldl_nil, empty, List.map_nil]
  rfl

/-- What follows the furrow at the end of an issue leaves the furrows and the fibres as they are. -/
structure Settled (R t : State) (core pid : Nat) : Prop where
  furrows : (t.core core).furrows = (R.core core).furrows
  fibres : ∀ fid, t.fibre? pid fid = R.fibre? pid fid

theorem settled_end (R : State) (iss : Issue) (occ : Nat) (l : List (Nat × FaultRec)) (n : Nat) :
    Settled R { ((R.takePort iss occ).countSkid iss).raiseAll iss.pid (iss.furrow.map (·.1)) l with issuing := none, nextIssue := n } iss.core iss.pid := by
  rw [raiseAll_eq]
  constructor
  · change ((R.takePort iss occ).core iss.core).furrows = _
    unfold State.takePort
    split
    · rw [State.core_modCore]
      exact fun _ => rfl
    · rfl
  · intro fid
    change (State.modPlot _ _ _).fibre? iss.pid fid = _
    rw [State.fibre?_modPlot]
    · change (R.takePort iss occ).fibre? iss.pid fid = _
      unfold State.takePort
      split
      · simp
      · rfl
    · exact fun _ => rfl

/-- The end of an issue whose members only go on: they do, and their furrow is regrouped. -/
theorem finish_passing (s : State) (iss : Issue) (w : LaneWord) (p : Plot) : ∃ F : Plot → Plot,
    (∀ q, (F q).pid = q.pid ∧ (F q).core = q.core) ∧
    (∀ q, (F q).fibres = (((iss.live p).map fun m => m.2.advance iss.pc (iss.pc + BitVec.ofNat 40 w.size)).foldl Plot.setFibre q).fibres) ∧
    Settled ((s.modPlot iss.pid F).regroup iss w (iss.goers p) (s.occupancy iss w p)) (s.finish iss w p (iss.passed p)) iss.core iss.pid := by
  have written : (iss.passed p).filterMap (fun q => q.2.1.fibre? iss w.size (s.cycOf iss.core)) =
      (iss.live p).map fun m => m.2.advance iss.pc (iss.pc + BitVec.ofNat 40 w.size) := by
    simp [Issue.passed, List.filterMap_map, Act.fibre?]
  have goers : ((iss.passed p).map fun q => (q.1, q.2.1)) = iss.goers p := by
    simp [Issue.passed, Issue.goers]
  have settled := settle_all iss w.size (s.cycOf iss.core) (iss.passed p) s rfl fun q hq => by
    obtain ⟨m, -, rfl⟩ := List.mem_map.1 hq
    exact nofun
  rw [written] at settled
  unfold State.finish
  dsimp only
  rw [settled]
  obtain ⟨F, hF, rest⟩ := plotEnd_eq s iss.pid _ _ ((iss.live p).map fun m => m.2.advance iss.pc (iss.pc + BitVec.ofNat 40 w.size)) _
  refine ⟨F, fun q => ?_, fun q => (rest q).2.2, ?_⟩
  · have e := (rest q).1
    exact ⟨(congrArg Plot.pid e : _), (congrArg Plot.core e : _)⟩
  rw [hF, logIssue_none]
  · rw [goers]
    exact settled_end _ iss _ _ _
  · simp [Issue.passed]

/-! ### The furrow of such an issue (R35, R36, R42) -/

theorem Settled.ended {R t : State} {core pid : Nat} (h : Settled R t core pid) {fu : Furrow} (e : fu.ended core R) : fu.ended core t := by
  intro g hg
  rw [Core.furrow?, h.furrows] at hg
  exact e g hg

theorem Settled.kept {R t : State} {core pid : Nat} (h : Settled R t core pid) {fu : Furrow} {lanes : List (Nat × Nat)} (k : fu.kept core lanes R) :
    fu.kept core lanes t := by
  obtain ⟨since, hg⟩ := k
  refine ⟨since, ?_⟩
  rw [Core.furrow?, h.furrows]
  exact hg

theorem Settled.loose {R t : State} {iss : Issue} (h : Settled R t iss.core iss.pid) {f : Fibre} {since : Nat} (l : Loose R iss f since) :
    Loose t iss f since := by
  obtain ⟨g, hg, rest⟩ := l
  exact ⟨g, (h.fibres _).trans hg, rest⟩

theorem left_goers (fu : Furrow) (iss : Issue) (p : Plot) : fu.left (iss.goers p) = fu.lanes := by
  refine List.filter_eq_self.2 fun l _ => ?_
  simp only [Bool.not_eq_true', List.any_eq_false]
  rintro q hq
  obtain ⟨m, -, rfl⟩ := List.mem_map.1 hq
  simp

theorem staying_goers (iss : Issue) (p : Plot) : staying (iss.goers p) = iss.goers p := by
  refine List.filter_eq_self.2 fun q hq => ?_
  obtain ⟨m, -, rfl⟩ := List.mem_map.1 hq
  rfl

/-- A word without operands whose members go on: an unbound furrow dissolves where the word says so or the members part, and stays otherwise. -/
theorem passing_furrow {s : State} {iss : Issue} {p : Plot} {fu : Furrow} (h : InFurrow s iss p fu) {w : LaneWord} (hw : w.Bare)
    (open_ : w.privileged = false) :
    let gone (m : Nat × Fibre) : Fibre := m.2.advance iss.pc (iss.pc + BitVec.ofNat 40 w.size)
    let apart : Prop := w.dissolves = true ∨ ∃ m ∈ iss.live p, ∃ m' ∈ iss.live p, (gone m).pc ≠ (gone m').pc
    ∃ t, runLane w s passing = .next t ∧
      (fu.bound = false → apart → fu.ended iss.core t ∧ ∀ m ∈ iss.live p, Loose t iss (gone m) (s.cycOf iss.core + s.occupancy iss w p + 1)) ∧
      (fu.bound = true ∨ ¬apart → fu.kept iss.core fu.lanes t ∧ ∀ m ∈ iss.live p, t.fibre? iss.pid m.2.fid = some (gone m)) := by
  intro gone apart
  obtain ⟨F, hF, fibresF, settled⟩ := finish_passing s iss w p
  let V := s.modPlot iss.pid F
  have plotV : V.plot? iss.pid = some (F p) := by
    rw [State.plot?_modPlot s iss.pid F fun q => (hF q).1, h.plot, Option.map_some]
  have fibreV (m : Nat × Fibre) (hm : m ∈ iss.live p) : V.fibre? iss.pid m.2.fid = some (gone m) := by
    have nodup : (((iss.live p).map gone).map (·.fid)).Nodup := by
      rw [List.map_map]
      exact Issue.live_nodup h.fids
    rw [State.fibre?, plotV, Option.bind_some, Plot.fibre?, fibresF]
    exact setFibres_at _ p (gone m) nodup (List.mem_map_of_mem hm) (Option.isSome_iff_exists.2 ⟨_, (Issue.live_mem hm).1⟩)
  have hV : InFurrow V iss (F p) fu :=
    { issuing := h.issuing, plot := plotV, fids := h.fids, core := (hF p).2.trans h.core, furrow := h.furrow, holds := h.holds,
      lanes := h.lanes, only := h.only }
  have goer (m : Nat × Fibre) (hm : m ∈ iss.live p) : (m.2.fid, Act.seq m.2) ∈ iss.goers p := List.mem_map_of_mem hm
  have part : dissolvesNow w (iss.goers p) (V.nextPcs iss (iss.goers p)) = true ↔ apart := by
    have all : ¬∃ q ∈ iss.goers p, q.2.stays = false := by
      rintro ⟨q, hq, e⟩
      obtain ⟨m, -, rfl⟩ := List.mem_map.1 hq
      cases e
    have pcs (pc : Pc) : pc ∈ V.nextPcs iss (iss.goers p) ↔ ∃ m ∈ iss.live p, (gone m).pc = pc := by
      rw [mem_nextPcs]
      constructor
      · rintro ⟨q, hq, f, hf, e⟩
        obtain ⟨m, hm, rfl⟩ := List.mem_map.1 hq
        rw [fibreV m hm, Option.some.injEq] at hf
        exact ⟨m, hm, hf ▸ e⟩
      · rintro ⟨m, hm, e⟩
        exact ⟨_, goer m hm, gone m, fibreV m hm, e⟩
    rw [dissolvesNow_iff fun q hq => by obtain ⟨m, -, rfl⟩ := List.mem_map.1 hq; exact nofun]
    simp only [all, pcs, false_or]
    refine or_congr_right ⟨?_, ?_⟩
    · rintro ⟨_, ⟨m, hm, rfl⟩, _, ⟨n, hn, rfl⟩, ne⟩
      exact ⟨m, hm, n, hn, ne⟩
    · rintro ⟨m, hm, n, hn, ne⟩
      exact ⟨_, ⟨m, hm, rfl⟩, _, ⟨n, hn, rfl⟩, ne⟩
  obtain ⟨dissolves, whole, -, bound⟩ := regroup_spec hV w (acts := iss.goers p) (s.occupancy iss w p) fun q hq => by
    obtain ⟨m, hm, rfl⟩ := List.mem_map.1 hq
    exact (Issue.live_mem hm).2
  refine ⟨_, runLane_passing hw open_ h.toIssuing, fun unbound ap => ?_, fun stays => ?_⟩
  · obtain ⟨ended, loose⟩ := dissolves unbound (part.2 ap)
    rw [staying_goers] at loose
    exact ⟨settled.ended ended, fun m hm => settled.loose (loose _ (goer m hm) _ (fibreV m hm))⟩
  · have kept : fu.kept iss.core fu.lanes (V.regroup iss w (iss.goers p) (s.occupancy iss w p)) ∧
        (V.regroup iss w (iss.goers p) (s.occupancy iss w p)).plots = V.plots := by
      cases hb : fu.bound with
      | true =>
        rw [left_goers] at bound
        exact bound hb h.lanes
      | false => exact whole hb (Bool.eq_false_iff.2 fun d => stays.elim (by simp [hb]) fun ne => ne (part.1 d))
    refine ⟨settled.kept kept.1, fun m hm => ?_⟩
    rw [settled.fibres, State.fibre?, State.plot?_congr kept.2]
    exact fibreV m hm

/-! ### The words -/

/-- The plot in which every member of an issue has opened a slot (R51). -/
def Plot.opened (iss : Issue) (j : Nat) (p : Plot) : Plot :=
  p.setJslot j { p.jslot j with opened := dedup ((p.jslot j).opened ++ iss.members.map (·.2)) }

/-- BRA.J's members branch once all of them have opened the slot. -/
theorem served_braJ (x : FmtBJ) {s : State} {iss : Issue} {p : Plot} (h : Issuing s iss p) :
    Served (exec (.braJ x) s) (s.modPlot iss.pid (Plot.opened iss x.slot.toNat)) iss (p.opened iss x.slot.toNat)
      { guard := x.g.toNat, size := Machine.sizeOf x.p } fun c s f =>
        let t := c.iss.pc + BitVec.ofInt 40 (4 * simm x.p 14 x.off.toNat)
        .goto c s (if x.g = 7 then f else { f with pathd := BitVec.ofNat 64 (mix64 (f.pathd.toNat ^^^ t.toNat)) }) t := by
  have h' : Issuing (s.modPlot iss.pid (Plot.opened iss x.slot.toNat)) iss (p.opened iss x.slot.toNat) := by
    refine ⟨h.issuing, ?_, h.fids⟩
    rw [State.plot?_modPlot s iss.pid (Plot.opened iss x.slot.toNat) fun _ => rfl, h.plot, Option.map_some]
  have run : exec (.braJ x) s = runLane { guard := x.g.toNat, size := Machine.sizeOf x.p } (s.modPlot iss.pid (Plot.opened iss x.slot.toNat))
      fun c s f => .of s (branchTo x.g f (relTarget c.iss.pc (simm x.p 14 x.off.toNat))) := by
    change execBraJ x s = _
    simp only [execBraJ, h.issuing]
    rfl
  rw [run]
  refine runLane_serves _ _ _ (fun c s f => ?_) (fun c s f => ?_) _ iss _ h' (by simp)
  · simp only [Turn.goto, Turn.next]
    split
    · exact ⟨rfl, rfl, rfl, rfl, rfl, rfl, (if_pos ‹_›).symm⟩
    · exact ⟨rfl, rfl, rfl, rfl, rfl, rfl, (if_neg ‹_›).symm⟩
  · unfold Turn.goto
    dsimp only
    split <;> split <;> rfl

/-- BIND pins the furrow of its issue. -/
theorem served_bind (x : FmtN) {s : State} {iss : Issue} {p : Plot} (h : Issuing s iss p) :
    let w : LaneWord := { size := Machine.sizeOf x.p }
    (∀ fu, s.furrowOf iss = some fu → fu.bound = false →
      Served (exec (.bind x) s) (s.modCore iss.core fun c => c.setFurrow { fu with bound := true }) iss p w fun c s f => .next c s f) ∧
    ((∀ fu, s.furrowOf iss = some fu → fu.bound = true) → Served (exec (.bind x) s) s iss p w fun c s f => .next c s f) := by
  refine ⟨fun fu hfu unbound => ?_, fun bound => ?_⟩
  · have run : exec (.bind x) s = runLane { size := Machine.sizeOf x.p } (s.modCore iss.core fun c => c.setFurrow { fu with bound := true }) passing := by
      change execBind x s = _
      simp only [execBind, h.issuing, hfu, unbound, Bool.false_eq_true, if_false]
      rfl
    rw [run]
    exact served_passing _ rfl ⟨by simpa using h.issuing, by simpa using h.plot, h.fids⟩
  · have run : exec (.bind x) s = runLane { size := Machine.sizeOf x.p } s passing := by
      change execBind x s = _
      simp only [execBind, h.issuing]
      cases hfu : s.furrowOf iss with
      | none => rfl
      | some fu =>
        simp only [bound fu hfu, if_true]
        rfl
    rw [run]
    exact served_passing _ rfl h

/-- The end of an issue is at the ccy of its core at which it began. -/
theorem Ends.cycOf {r : Result} {s t : State} {iss : Issue} {p : Plot} {w : LaneWord} (h : Ends r s iss p w fun c s f => .next c s f) (n : Nat)
    (e : r = .next t) : t.cycOf n = s.cycOf n := by
  obtain ⟨u, hu, ended, -⟩ := h
  rw [after_pure _ _ _ _ fun _ _ _ => rfl] at ended
  obtain rfl : t = u := Host.Outcome.next.inj (e.symm.trans hu)
  have dies : t.dies = (s.logIssue _ _ _ _ _).dies := (congrArg State.dies ended.rest : _)
  unfold State.cycOf State.die
  rw [dies, (memStep_logIssue _ _ _ _ _).only]

/-- UNBIND ends a bound furrow, and does nothing else to an unbound one. -/
theorem served_unbind (x : FmtN) {s : State} {iss : Issue} {p : Plot} (h : Issuing s iss p) :
    let w : LaneWord := { size := Machine.sizeOf x.p, dissolves := true }
    (∀ fu, s.furrowOf iss = some fu → fu.bound = true →
      ∃ t, Ends (.next t) (s.modCore iss.core fun c => c.setFurrow { fu with bound := false }) iss p w (fun c s f => .next c s f) ∧
        let at_ := s.cycOf iss.core + s.occupancy iss w p + 1
        let masked := fu.lanes.filter fun l => !(iss.members.any fun m => m.2 == l.2) && (t.fibre? iss.pid l.2).any fun f => f.run == .inFurrow
        exec (.unbind x) s = .next (masked.foldl (fun u l => u.readyAs iss.pid l.2 at_ at_ true) t)) ∧
    ((∀ fu, s.furrowOf iss = some fu → fu.bound = false) → Served (exec (.unbind x) s) s iss p w fun c s f => .next c s f) := by
  intro w
  refine ⟨fun fu hfu bound => ?_, fun unbound => ?_⟩
  · have h' : Issuing (s.modCore iss.core fun c => c.setFurrow { fu with bound := false }) iss p :=
      ⟨by simpa using h.issuing, by simpa using h.plot, h.fids⟩
    have done := (served_passing w rfl h').1 (LaneWord.Bare.unlocked ⟨rfl, rfl, rfl, rfl⟩ _ iss p) fun q hq => by
      rw [turns_pure iss p w _ fun _ _ _ => rfl] at hq
      obtain ⟨m, -, rfl⟩ := List.mem_map.1 hq
      rfl
    obtain ⟨t, ht, -⟩ := id done
    rw [ht] at done
    refine ⟨t, done, ?_⟩
    have now : t.cycOf iss.core = s.cycOf iss.core := (done.cycOf iss.core rfl).trans (by simp [State.cycOf, State.die])
    change execUnbind x s = _
    simp only [execUnbind, h.issuing, h.plot, hfu, bound, Bool.not_true, Bool.false_eq_true, if_false]
    change (match runLane w _ passing with | .next t => _ | r => r) = _
    rw [ht]
    dsimp only
    rw [now]
    congr 2
    refine List.filter_congr fun l _ => ?_
    cases t.fibre? iss.pid l.2 <;> rfl
  · have run : exec (.unbind x) s = runLane { size := Machine.sizeOf x.p } s passing := by
      change execUnbind x s = _
      simp only [execUnbind, h.issuing, h.plot]
      split
      · rename_i fu q hfu hq
        rw [unbound fu hfu]
        rfl
      · rfl
    rw [run]
    exact Served.alike (w := { size := Machine.sizeOf x.p }) rfl (served_passing _ rfl h)

/-- The furrow after any issue, its members as the obligation names them. -/
theorem regroup_goesOn {s : State} {iss : Issue} {p : Plot} {fu : Furrow} (w : LaneWord) (acts : List (Nat × Act)) (occ : Nat)
    (h : InFurrow s iss p fu) (listed : ∀ q ∈ acts, q.1 ∈ iss.members.map (·.2) ∧ ∀ k, q.2 ≠ .again k) :
    let t := s.regroup iss w acts occ
    let goesOn (a : Act) : Prop := (∃ f, a = .seq f) ∨ (∃ f pc, a = .goto f pc) ∨ ∃ r, a = .fault r
    let event : Prop := w.dissolves = true ∨ (∃ q ∈ acts, ¬goesOn q.2) ∨
      ∃ q ∈ acts, ∃ q' ∈ acts, ∃ f f', s.fibre? iss.pid q.1 = some f ∧ s.fibre? iss.pid q'.1 = some f' ∧ f.pc ≠ f'.pc
    let left := fu.lanes.filter fun l => !(acts.any fun q => q.1 == l.2 && q.2 == .exit)
    (fu.bound = false → event → fu.ended iss.core t ∧
      ∀ q ∈ acts, goesOn q.2 → ∀ f, s.fibre? iss.pid q.1 = some f → Loose t iss f (s.cycOf iss.core + occ + 1)) ∧
    (fu.bound = false → ¬event → fu.kept iss.core fu.lanes t ∧ t.plots = s.plots) ∧
    (fu.bound = true → left = [] → fu.ended iss.core t ∧ t.plots = s.plots) ∧
    (fu.bound = true → left ≠ [] → fu.kept iss.core left t ∧ t.plots = s.plots) := by
  intro t goesOn event left
  obtain ⟨dissolves, whole, bound⟩ := regroup_spec h w occ fun q hq => (listed q hq).1
  have parts : dissolvesNow w acts (s.nextPcs iss acts) = true ↔ event := by
    rw [dissolvesNow_iff fun q hq => (listed q hq).2]
    refine or_congr_right (or_congr (exists_congr fun q => and_congr_right fun _ => ?_) ?_)
    · rw [← Bool.not_eq_true]
      exact not_congr (Act.stays_iff q.2)
    · simp only [mem_nextPcs]
      constructor
      · rintro ⟨_, ⟨q, hq, f, hf, rfl⟩, _, ⟨q', hq', f', hf', rfl⟩, ne⟩
        exact ⟨q, hq, q', hq', f, f', hf, hf', ne⟩
      · rintro ⟨q, hq, q', hq', f, f', hf, hf', ne⟩
        exact ⟨_, ⟨q, hq, f, hf, rfl⟩, _, ⟨q', hq', f', hf', rfl⟩, ne⟩
  refine ⟨fun unbound ev => ?_, fun unbound quiet => ?_, bound⟩
  · obtain ⟨ended, loose⟩ := dissolves unbound (parts.2 ev)
    exact ⟨ended, fun q hq on => loose q (List.mem_filter.2 ⟨hq, (Act.stays_iff q.2).2 on⟩)⟩
  · exact whole unbound (Bool.eq_false_iff.2 fun d => quiet (parts.1 d))

/-- Settles O37: the words by their members' turns, the furrow by the regrouping at the end of the issue. -/
theorem branchJoinBind : Obligations.BranchJoinBind := by
  refine ⟨fun x s iss p h => served_braJ x h, fun x => ?nop, fun x => ?yield, fun x s iss p h => served_bind x h,
    fun x s iss p h => served_unbind x h, fun x s iss p fu h => ?yielded, fun x s iss p fu h => ?passed,
    fun s iss p fu w acts occ h _ listed => regroup_goesOn w acts occ h listed⟩
  case nop => exact serves_of_turns passing (fun s => rfl) rfl fun c s f => ⟨nofun, rfl, rfl⟩
  case yield =>
    exact serves_of_turns (w' := { size := Machine.sizeOf x.p, dissolves := true }) passing (fun s => rfl) rfl fun c s f => ⟨nofun, rfl, rfl⟩
  case yielded =>
    obtain ⟨t, run, unbound, bound⟩ := passing_furrow h (w := { size := Machine.sizeOf x.p, dissolves := true }) ⟨rfl, rfl, rfl, rfl⟩ rfl
    exact ⟨t, run, fun e => unbound e (.inl rfl), fun e => bound (.inl e)⟩
  case passed =>
    obtain ⟨t, run, unbound, bound⟩ :=
      passing_furrow h (w := { guard := x.g.toNat, size := Machine.sizeOf x.p }) ⟨rfl, rfl, rfl, rfl⟩ rfl
    exact ⟨t, run, fun e apart => unbound e (.inr apart), fun e => bound (e.imp_right fun no => by simpa using no)⟩

end Sys2Proof.Machine
end

section
/-! EXIT and ERET (R44, R46, R50, R52, R356, R391, R424, R473). -/

namespace Sys2Proof.Machine

/-! ### What a convergence set, its instances and a join slot keep of fibres that exit -/

/-- Whether a fibre is among the signers. -/
def Inst.signed (i : Inst) (f : Nat) : Bool :=
  i.sigs.any fun g => g.fid == f

/-- The number under which a fibre's signature stands once some fibres have exited (log entry 19). -/
def Inst.name (i : Inst) (out : List Nat) (f : Nat) : Nat :=
  if f ∈ out ∧ i.signed f = true then f + 1024 else f

/-- One of a set's instances after some fibres have exited: it requires no more those that have not signed it (R46). -/
def Inst.without (out : List Nat) (i : Inst) : Inst :=
  { i with
    req := (i.req.filter fun f => decide (f ∉ out ∨ i.signed f = true)).map (i.name out)
    sigs := i.sigs.map fun g => { g with fid := i.name out g.fid } }

/-- A set after some fibres have exited (R44). -/
def CSet.without (out : List Nat) (y : CSet) : CSet :=
  { y with members := y.members.filter (fun f => decide (f ∉ out)), insts := y.insts.map (Inst.without out) }

/-- A join slot after some fibres have exited (R52). -/
def JSlot.without (out : List Nat) (y : JSlot) : JSlot :=
  { y with opened := y.opened.filter (fun f => decide (f ∉ out)), arrived := y.arrived.filter fun a => decide (a.1 ∉ out) }

theorem Inst.signed_of_mem {i : Inst} {g : Signature} (h : g ∈ i.sigs) : i.signed g.fid = true :=
  List.any_eq_true.2 ⟨g, h, by simp⟩

theorem Inst.without_nil (i : Inst) : i.without [] = i := by
  have id_ : i.name [] = id := by
    funext f
    simp [Inst.name]
  simp [Inst.without, id_]

theorem Inst.signed_without {i : Inst} {a f : Nat} (small : f < 1024) (ne : f ≠ a) : (i.without [a]).signed f = i.signed f := by
  rw [Bool.eq_iff_iff]
  simp only [Inst.signed, Inst.without, List.any_eq_true, List.mem_map, exists_exists_and_eq_and, beq_iff_eq]
  refine exists_congr fun g => and_congr_right fun hg => ?_
  unfold Inst.name
  split
  · simp_all
    omega
  · rfl

/-- Fibres may exit one after another. -/
theorem Inst.without_without {i : Inst} {a : Nat} {out : List Nat} (small : ∀ f ∈ a :: out, f < 1024) (new : a ∉ out) :
    (i.without [a]).without out = i.without (a :: out) := by
  have renamed (f : Nat) (keep : f ∉ [a] ∨ i.signed f = true) :
      ((i.without [a]).name out (i.name [a] f) = i.name (a :: out) f) ∧
      ((i.name [a] f ∉ out ∨ (i.without [a]).signed (i.name [a] f) = true) ↔ (f ∉ a :: out ∨ i.signed f = true)) := by
    by_cases e : f = a
    · subst e
      have s : i.signed f = true := keep.resolve_left (by simp)
      have ghost : i.name [f] f = f + 1024 := by simp [Inst.name, s]
      have away : f + 1024 ∉ out := fun m => by
        have := small _ (List.mem_cons_of_mem _ m)
        omega
      rw [ghost]
      simp [Inst.name, away, s]
    · have same : i.name [a] f = f := by simp [Inst.name, e]
      rw [same]
      by_cases m : f ∈ out
      · have s := Inst.signed_without (i := i) (small f (List.mem_cons_of_mem _ m)) e
        simp [Inst.name, s, m, e]
      · simp [Inst.name, m, e]
  have req : (i.without [a]).req.filter (fun f => decide (f ∉ out ∨ (i.without [a]).signed f = true)) =
      (i.req.filter fun f => decide (f ∉ a :: out ∨ i.signed f = true)).map (i.name [a]) := by
    unfold Inst.without
    dsimp only
    rw [List.filter_map, List.filter_filter]
    refine congrArg _ (List.filter_congr fun f _ => ?_)
    rw [Bool.eq_iff_iff]
    simp only [Function.comp_apply, Bool.and_eq_true, decide_eq_true_eq]
    constructor
    · exact fun h => (renamed f h.2).2.1 h.1
    · intro h
      have keep : f ∉ [a] ∨ i.signed f = true := h.imp_left fun m => by simp_all
      exact ⟨(renamed f keep).2.2 h, keep⟩
  rw [Inst.without, req]
  unfold Inst.without
  simp only [List.map_map, Inst.mk.injEq, true_and, and_true]
  refine ⟨List.map_congr_left fun g hg => ?_, List.map_congr_left fun f hf => ?_⟩
  · simp only [Function.comp_apply]
    exact congrArg (Signature.mk · _) (renamed g.fid (.inr (Inst.signed_of_mem hg))).1
  · have keep : f ∉ [a] ∨ i.signed f = true := (of_decide_eq_true (List.mem_filter.1 hf).2).imp_left fun m => by simp_all
    exact (renamed f keep).1

theorem CSet.without_nil (y : CSet) : y.without [] = y := by
  have id_ : Inst.without [] = id := funext Inst.without_nil
  simp [CSet.without, id_]

theorem CSet.without_without {y : CSet} {a : Nat} {out : List Nat} (small : ∀ f ∈ a :: out, f < 1024) (new : a ∉ out) :
    (y.without [a]).without out = y.without (a :: out) := by
  unfold CSet.without
  simp only [List.map_map, CSet.mk.injEq, true_and, and_true, List.filter_filter]
  refine ⟨List.filter_congr fun f _ => ?_, List.map_congr_left fun i _ => Inst.without_without small new⟩
  simp [Bool.and_comm]

theorem JSlot.without_nil (y : JSlot) : y.without [] = y := by
  simp [JSlot.without]

theorem JSlot.without_without (y : JSlot) (a : Nat) (out : List Nat) : (y.without [a]).without out = y.without (a :: out) := by
  simp [JSlot.without, List.filter_filter, Bool.and_comm]

/-! ### The plot of a fibre that exits -/

/-- A plot after one of its fibres has exited (R356). -/
def Plot.exit (p : Plot) (fid : Nat) : Plot :=
  { p.leaveSets fid with
    fibres := p.fibres.filter fun f => f.fid != fid
    exited := p.exited ++ [fid]
    j := p.j.map (·.leave fid)
    pendLoads := p.pendLoads.filter fun q => q.owner != fid
    pendStores := p.pendStores.map (·.orphan fid) }

theorem Plot.exit_c (p : Plot) (fid : Nat) : (p.exit fid).c = p.c.map (CSet.without [fid]) := by
  have inst (i : Inst) : (if i.sigs.any (fun g => g.fid == fid) then
        { i with req := i.req.map fun f => if f = fid then ghost f else f
                 sigs := i.sigs.map fun g => { g with fid := if g.fid = fid then ghost g.fid else g.fid } }
      else { i with req := i.req.filter (· != fid) }) = i.without [fid] := by
    cases s : i.signed fid with
    | true =>
      have name : i.name [fid] = fun f => if f = fid then ghost f else f := by
        funext f
        by_cases e : f = fid <;> simp [Inst.name, ghost, e, s]
      refine (if_pos s).trans ?_
      simp only [Inst.without, name, Inst.mk.injEq, true_and, and_true]
      rw [List.filter_eq_self.2]
      intro f _
      by_cases e : f = fid <;> simp [e, s]
    | false =>
      have name : i.name [fid] = id := by
        funext f
        by_cases e : f = fid <;> simp [Inst.name, e, s]
      rw [if_neg (by rw [← Inst.signed, s]; simp)]
      simp only [Inst.without, name, List.map_id, id, Inst.mk.injEq, true_and, and_true]
      refine ⟨by simp, List.filter_congr fun f _ => ?_⟩
      by_cases e : f = fid <;> simp [e, s]
  refine List.map_congr_left fun y _ => ?_
  unfold CSet.without
  simp only [CSet.mk.injEq, true_and, and_true]
  refine ⟨List.filter_congr fun f _ => ?_, List.map_congr_left fun i _ => inst i⟩
  by_cases e : f = fid <;> simp [e]

theorem Plot.exit_j (p : Plot) (fid : Nat) : (p.exit fid).j = p.j.map (JSlot.without [fid]) := by
  refine List.map_congr_left fun y _ => ?_
  have apart (f : Nat) : (f != fid) = decide (f ∉ [fid]) := by
    by_cases e : f = fid <;> simp [e]
  simp only [JSlot.leave, JSlot.without, apart]

theorem Plot.fibre?_exit (p : Plot) (fid : Nat) : (p.exit fid).fibre? fid = none := by
  simp [Plot.fibre?, Plot.exit]

theorem Plot.fibre?_exit_ne {p : Plot} {fid g : Nat} (ne : g ≠ fid) : (p.exit fid).fibre? g = p.fibre? g := by
  simp only [Plot.fibre?, Plot.exit, List.find?_filter]
  congr 1
  funext f
  by_cases e : f.fid = g <;> simp [e, ne]

/-- A plot after the members of an issue have left it or gone on, in their order. -/
def Plot.departed (next : Fibre → Fibre) (guard : Nat) (l : List (Nat × Fibre)) (p : Plot) : Plot :=
  l.foldl (fun q m => if m.2.pred guard then q.exit m.2.fid else q.setFibre (next m.2)) p

theorem Plot.departed_exit {next : Fibre → Fibre} {guard : Nat} {m : Nat × Fibre} {l : List (Nat × Fibre)} (leaves : m.2.pred guard = true) (p : Plot) :
    p.departed next guard (m :: l) = (p.exit m.2.fid).departed next guard l := by
  rw [Plot.departed, List.foldl_cons, if_pos leaves, Plot.departed]

theorem Plot.departed_pass {next : Fibre → Fibre} {guard : Nat} {m : Nat × Fibre} {l : List (Nat × Fibre)} (stays : m.2.pred guard = false) (p : Plot) :
    p.departed next guard (m :: l) = (p.setFibre (next m.2)).departed next guard l := by
  rw [Plot.departed, List.foldl_cons, if_neg (by simp [stays]), Plot.departed]

/-- The members of an issue that exit: those whose guard is true. -/
def leavers (guard : Nat) (l : List (Nat × Fibre)) : List Nat :=
  (l.filter fun m => m.2.pred guard).map (·.2.fid)

/-- What a plot is once the members of an issue have left it: its sets, its slots, its loads on their way and its fibres. -/
structure Departed (next : Fibre → Fibre) (guard : Nat) (l : List (Nat × Fibre)) (p q : Plot) : Prop where
  exited : q.exited = p.exited ++ leavers guard l
  sets : q.c = p.c.map (CSet.without (leavers guard l))
  slots : q.j = p.j.map (JSlot.without (leavers guard l))
  loads : q.pendLoads = p.pendLoads.filter fun d => decide (d.owner ∉ leavers guard l)
  gone : ∀ f ∈ leavers guard l, q.fibre? f = none
  on : ∀ m ∈ l, m.2.pred guard = false → (p.fibre? m.2.fid).isSome → q.fibre? m.2.fid = some (next m.2)
  others : ∀ g, g ∉ l.map (·.2.fid) → q.fibre? g = p.fibre? g

theorem Plot.fibre?_setFibre_none {p : Plot} {f : Fibre} {fid : Nat} (h : p.fibre? fid = none) : (p.setFibre f).fibre? fid = none := by
  by_cases e : fid = f.fid
  · subst e
    rw [Plot.fibre?_setFibre, h]
    rfl
  · rw [Plot.fibre?_setFibre_ne _ _ _ e, h]

theorem leavers_sub {guard : Nat} {l : List (Nat × Fibre)} {f : Nat} (h : f ∈ leavers guard l) : f ∈ l.map (·.2.fid) := by
  obtain ⟨m, hm, rfl⟩ := List.mem_map.1 h
  exact List.mem_map_of_mem (List.mem_filter.1 hm).1

/-- The first member exits before the others. -/
theorem Departed.exit {next : Fibre → Fibre} {guard : Nat} {m : Nat × Fibre} {l : List (Nat × Fibre)} {p q : Plot} (leaves : m.2.pred guard = true)
    (new : m.2.fid ∉ l.map (·.2.fid)) (small : ∀ f ∈ leavers guard (m :: l), f < 1024) (h : Departed next guard l (p.exit m.2.fid) q) :
    Departed next guard (m :: l) p q := by
  have out : leavers guard (m :: l) = m.2.fid :: leavers guard l := by simp [leavers, leaves]
  have fresh : m.2.fid ∉ leavers guard l := fun h => new (leavers_sub h)
  rw [out] at small
  refine ⟨?_, ?_, ?_, ?_, ?_, ?_, ?_⟩
  · rw [h.exited, out]
    simp [Plot.exit]
  · rw [h.sets, Plot.exit_c, out, List.map_map]
    exact List.map_congr_left fun y _ => CSet.without_without small fresh
  · rw [h.slots, Plot.exit_j, out, List.map_map]
    exact List.map_congr_left fun y _ => y.without_without _ _
  · rw [h.loads, out]
    simp only [Plot.exit, List.filter_filter]
    refine List.filter_congr fun d _ => ?_
    by_cases e : d.owner = m.2.fid <;> simp [e, fresh]
  · rw [out]
    intro f hf
    obtain rfl | hf := List.mem_cons.1 hf
    · rw [h.others _ new, Plot.fibre?_exit]
    · exact h.gone f hf
  · intro n hn hguard hsome
    obtain rfl | hn := List.mem_cons.1 hn
    · rw [leaves] at hguard
      cases hguard
    · have ne : n.2.fid ≠ m.2.fid := fun e => new (e ▸ List.mem_map_of_mem hn)
      exact h.on n hn hguard (by rw [Plot.fibre?_exit_ne ne]; exact hsome)
  · intro g hg
    simp only [List.map_cons, List.mem_cons, not_or] at hg
    rw [h.others g hg.2, Plot.fibre?_exit_ne hg.1]

/-- The first member goes on before the others. -/
theorem Departed.pass {next : Fibre → Fibre} (kept : ∀ f, (next f).fid = f.fid) {guard : Nat} {m : Nat × Fibre} {l : List (Nat × Fibre)}
    {p q : Plot} (stays : m.2.pred guard = false) (new : m.2.fid ∉ l.map (·.2.fid)) (h : Departed next guard l (p.setFibre (next m.2)) q) :
    Departed next guard (m :: l) p q := by
  have out : leavers guard (m :: l) = leavers guard l := by simp [leavers, stays]
  obtain ⟨exited, sets, slots, loads, gone, on, others⟩ := h
  rw [← out] at exited sets slots loads gone
  refine ⟨exited, sets, slots, loads, gone, ?_, ?_⟩
  · intro n hn hguard hsome
    obtain rfl | hn := List.mem_cons.1 hn
    · rw [others _ new, ← kept n.2, Plot.fibre?_setFibre, kept]
      obtain ⟨g, hg⟩ := Option.isSome_iff_exists.1 hsome
      simp [hg]
    · have ne : n.2.fid ≠ (next m.2).fid := fun e => new (kept m.2 ▸ e ▸ List.mem_map_of_mem hn)
      exact on n hn hguard (by rw [Plot.fibre?_setFibre_ne _ _ _ ne]; exact hsome)
  · intro g hg
    simp only [List.map_cons, List.mem_cons, not_or] at hg
    rw [others g hg.2, Plot.fibre?_setFibre_ne _ _ _ (by rw [kept]; exact hg.1)]

theorem departed {next : Fibre → Fibre} (kept : ∀ f, (next f).fid = f.fid) {guard : Nat} {l : List (Nat × Fibre)}
    (nodup : (l.map (·.2.fid)).Nodup) (small : ∀ f ∈ leavers guard l, f < 1024) (p : Plot) :
    Departed next guard l p (p.departed next guard l) := by
  induction l generalizing p with
  | nil =>
    have sets : CSet.without (leavers guard []) = id := funext CSet.without_nil
    have slots : JSlot.without (leavers guard []) = id := funext JSlot.without_nil
    refine ⟨(List.append_nil _).symm, ?_, ?_, ?_, nofun, nofun, fun _ _ => rfl⟩
    · rw [sets, List.map_id]
      rfl
    · rw [slots, List.map_id]
      rfl
    · simp [leavers, Plot.departed]
  | cons m rest ih =>
    obtain ⟨new, nodup⟩ := List.nodup_cons.1 nodup
    have rest_small : ∀ f ∈ leavers guard rest, f < 1024 := fun f hf => small f (by
      obtain ⟨n, hn, e⟩ := List.mem_map.1 hf
      obtain ⟨hn, hg⟩ := List.mem_filter.1 hn
      exact List.mem_map.2 ⟨n, List.mem_filter.2 ⟨List.mem_cons_of_mem _ hn, hg⟩, e⟩)
    cases hp : m.2.pred guard with
    | true =>
      rw [Plot.departed_exit hp]
      exact (ih nodup rest_small _).exit hp new small
    | false =>
      rw [Plot.departed_pass hp]
      exact (ih nodup rest_small _).pass kept hp new

/-! ### The end of an issue of which members exit -/

/-- A state that differs from another in one plot, in cores, and in what is under way at homes for its fibres. -/
structure Leaves (pid : Nat) (G : Plot → Plot) (s t : State) : Prop where
  rest : { t with plots := [], cores := [], homeQ := [], retries := [], hostAtomics := [], publishes := [] } =
    { s with plots := [], cores := [], homeQ := [], retries := [], hostAtomics := [], publishes := [] }
  others : ∀ j, j ≠ pid → t.plot? j = s.plot? j
  plot : t.plot? pid = (s.plot? pid).map G

theorem Leaves.trans {pid : Nat} {G H : Plot → Plot} {s t u : State} (h : Leaves pid G s t) (k : Leaves pid H t u) : Leaves pid (H ∘ G) s u :=
  ⟨k.rest.trans h.rest, fun j hj => (k.others j hj).trans (h.others j hj), by rw [k.plot, h.plot, Option.map_map]⟩

theorem Leaves.mem {pid : Nat} {G : Plot → Plot} {s t : State} (h : Leaves pid G s t) : t.mem = s.mem :=
  (congrArg State.mem h.rest : _)

theorem Leaves.tags {pid : Nat} {G : Plot → Plot} {s t : State} (h : Leaves pid G s t) : t.tags = s.tags :=
  (congrArg State.tags h.rest : _)

theorem leaves_modPlot (s : State) (pid : Nat) (G : Plot → Plot) (hG : ∀ p, (G p).pid = p.pid) : Leaves pid G s (s.modPlot pid G) :=
  ⟨rfl, fun j hj => State.plot?_modPlot_ne s pid j G hG hj, State.plot?_modPlot s pid G hG⟩

theorem leaves_exitFibre (s : State) (pid fid : Nat) : Leaves pid (Plot.exit · fid) s (s.exitFibre pid fid) := by
  let u : State := { s with
    homeQ := (s.homeQ.map (·.orphan pid fid)).filter fun g => !g.parts.isEmpty
    retries := s.retries.map fun q => (q.1.orphan pid fid, q.2)
    hostAtomics := s.hostAtomics.map fun a => { a with reqs := a.reqs.map (·.orphan pid fid) }
    publishes := s.publishes.map fun q => if q.pid = pid ∧ q.fid = fid then { q with fid := ghost fid } else q }
  have left : Leaves pid (Plot.exit · fid) u (u.modPlot pid (Plot.exit · fid)) := leaves_modPlot u pid _ fun _ => rfl
  have cores (n : Nat) (c : Core → Core) : Leaves pid (Plot.exit · fid) u ((u.modPlot pid (Plot.exit · fid)).modCore n c) := by
    refine ⟨?_, fun j hj => by simpa using left.others j hj, by simpa using left.plot⟩
    rw [← left.rest]
    unfold State.modCore State.setCore
    split <;> rfl
  have same : Leaves pid (Plot.exit · fid) u (s.exitFibre pid fid) := by
    change Leaves pid _ u (match (u.modPlot pid (Plot.exit · fid)).plot? pid with
      | some p => (u.modPlot pid (Plot.exit · fid)).modCore p.core (·.orphan pid fid)
      | none => u.modPlot pid (Plot.exit · fid))
    split
    · exact cores _ _
    · exact left
  exact ⟨same.rest, same.others, same.plot⟩

/-- A member that goes on past a word. -/
def Issue.past (iss : Issue) (w : LaneWord) (f : Fibre) : Fibre :=
  f.advance iss.pc (iss.pc + BitVec.ofNat 40 w.size)

/-- The members of an issue leave the plot or go on one after another. -/
theorem leaves_settle (iss : Issue) (w : LaneWord) (l : List (Nat × Fibre)) (s : State) :
    Leaves iss.pid (Plot.departed (iss.past w) w.guard l) s
      ((w.outcomes (fun _ => .exit) l).foldl (fun t q => t.settle iss w.size q.1 q.2.1) s) := by
  induction l generalizing s with
  | nil => exact ⟨rfl, fun _ _ => rfl, Option.map_id'.symm⟩
  | cons m rest ih =>
    rw [LaneWord.outcomes, List.map_cons, List.foldl_cons]
    cases hp : m.2.pred w.guard with
    | true =>
      have step : Plot.departed (iss.past w) w.guard (m :: rest) = Plot.departed (iss.past w) w.guard rest ∘ (Plot.exit · m.2.fid) :=
        funext fun p => p.departed_exit hp
      rw [step]
      exact (leaves_exitFibre s iss.pid m.2.fid).trans (ih _)
    | false =>
      have step : Plot.departed (iss.past w) w.guard (m :: rest) = Plot.departed (iss.past w) w.guard rest ∘ (·.setFibre (iss.past w m.2)) :=
        funext fun p => p.departed_pass hp
      rw [step]
      exact (leaves_modPlot s iss.pid (·.setFibre (iss.past w m.2)) fun _ => rfl).trans (ih _)

/-- The members of an issue that do not exit. -/
def stayers (guard : Nat) (l : List (Nat × Fibre)) : List Nat :=
  (l.filter fun m => !m.2.pred guard).map (·.2.fid)

theorem stayers_listed (w : LaneWord) (l : List (Nat × Fibre)) :
    ∀ q ∈ (w.outcomes (fun _ => .exit) l).map (fun q => (q.1, q.2.1)), q.2.stays = true → q.1 ∈ stayers w.guard l := by
  intro q hq stays
  obtain ⟨o, ho, rfl⟩ := List.mem_map.1 hq
  obtain ⟨m, hm, rfl⟩ := List.mem_map.1 ho
  refine List.mem_map.2 ⟨m, List.mem_filter.2 ⟨hm, ?_⟩, rfl⟩
  cases hp : m.2.pred w.guard with
  | true =>
    rw [hp] at stays
    cases stays
  | false => rfl

/-- What a plot is after an issue of which members exit, but for its counts, its flags and its halt. -/
structure Left (s t : State) (iss : Issue) (w : LaneWord) (p q : Plot) : Prop where
  plot : t.plot? iss.pid = some q
  rest : { q with fibres := [], rcnt := 0, progress := [], flgPend := 0, halt := none } =
    { p.departed (iss.past w) w.guard (iss.live p) with
      fibres := [], rcnt := 0, progress := [], flgPend := 0, halt := none }
  away : ∀ fid, fid ∉ stayers w.guard (iss.live p) →
    q.fibre? fid = (p.departed (iss.past w) w.guard (iss.live p)).fibre? fid
  same : ∀ fid f, (p.departed (iss.past w) w.guard (iss.live p)).fibre? fid = some f →
    Becomes t iss fid f
  others : ∀ pid, pid ≠ iss.pid → t.plot? pid = s.plot? pid
  mem : t.mem = s.mem
  tags : t.tags = s.tags
  ended : t.issuing = none

theorem finish_leaving {s : State} {iss : Issue} {p : Plot} (h : Issuing s iss p) (w : LaneWord) :
    ∃ q, Left s (s.finish iss w p (w.outcomes (fun _ => .exit) (iss.live p))) iss w p q := by
  obtain ⟨n, steps, occ, U, hU, fin⟩ := finish_parts s iss w p (w.outcomes (fun _ => .exit) (iss.live p))
  rw [logIssue_none (by simp [LaneWord.outcomes])] at hU
  have left := leaves_settle iss w (iss.live p) s
  generalize (w.outcomes (fun _ => .exit) (iss.live p)).foldl (fun t q => t.settle iss w.size q.1 q.2.1) s = T at hU left
  obtain ⟨F, counted, hF⟩ := plotEnd_eq T iss.pid n steps [] ((w.outcomes (fun _ => .exit) (iss.live p)).foldl (fun a q => a ||| q.2.2.1) 0)
  simp only [List.foldl_nil, State.modPlot_id] at counted hF
  rw [counted] at hU
  have pid (q : Plot) : (F q).pid = q.pid := (congrArg Plot.pid (hF q).1 : _)
  have before := left.trans (leaves_modPlot T iss.pid F pid)
  have after := (requeued_regroup (T.modPlot iss.pid F) iss w _ occ _ (stayers_listed w (iss.live p))).trans (requeued_takePort iss.pid _ _ iss occ)
  rw [← hU] at after
  generalize T.modPlot iss.pid F = S at before after
  obtain ⟨q, hq, rest, away, same⟩ := after.plot _ (by rw [before.plot, h.plot]; rfl)
  have fibres (g : Nat) : (F (p.departed (iss.past w) w.guard (iss.live p))).fibre? g = (p.departed (iss.past w) w.guard (iss.live p)).fibre? g := by
    rw [Plot.fibre?, (hF _).2.2]
    rfl
  rw [fin, raiseAll_eq]
  generalize (w.outcomes (fun _ => .exit) (iss.live p)).filterMap _ = faults
  have plot : (U.modPlot iss.pid fun p => { p with halt := U.raised p iss faults }).plot? iss.pid = some { q with halt := U.raised q iss faults } := by
    rw [State.plot?_modPlot U iss.pid (fun p => { p with halt := U.raised p iss faults }) fun _ => rfl, hq, Option.map_some]
  refine ⟨{ q with halt := U.raised q iss faults }, plot, ?_, ?_, ?_, ?_, ?_, ?_, rfl⟩
  · exact Eq.trans (congrArg (fun x : Plot => { x with rcnt := 0, progress := [], flgPend := 0, halt := none }) rest)
      (congrArg (fun x : Plot => { x with halt := none }) (hF _).1)
  · exact fun fid there => (away fid there).trans (fibres fid)
  · intro fid f hf
    obtain ⟨g, hg, e⟩ := same fid f ((fibres fid).trans hf)
    refine ⟨g, ?_, e⟩
    change ((U.modPlot iss.pid fun p => { p with halt := U.raised p iss faults }).plot? iss.pid).bind _ = _
    rw [plot]
    exact hg
  · intro j hj
    refine (State.plot?_modPlot_ne U iss.pid j (fun p => { p with halt := U.raised p iss faults }) (fun _ => rfl) hj).trans ?_
    exact (after.others j hj).trans (before.others j hj)
  · have mem : U.mem = S.mem := (congrArg State.mem after.rest : _)
    exact mem.trans before.mem
  · have tags : U.tags = S.tags := (congrArg State.tags after.rest : _)
    exact tags.trans before.tags

/-! ### EXIT -/

/-- The word of EXIT. -/
def exitWord (x : FmtG) : LaneWord :=
  { guard := x.g.toNat, size := Machine.sizeOf x.p }

/-- EXIT outside a handler is the end of its issue. -/
theorem exec_exit (x : FmtG) {s : State} {iss : Issue} {p : Plot} (h : Issuing s iss p) (plain : p.handler = none) :
    ∃ t q, exec (.exit x) s = .next t ∧ Left s t iss (exitWord x) p q := by
  have bare : (exitWord x).Bare := ⟨rfl, rfl, rfl, rfl⟩
  have run : runLane (exitWord x) s (fun _ s _ => .of s .exit) =
      .next (s.finish iss (exitWord x) p ((exitWord x).outcomes (fun _ => .exit) (iss.live p))) :=
    runLane_outcomes h (act := fun _ => .exit) (fun e => nomatch e) (bare.unlocked s iss p) (fun m _ => bare.waits p m.2) (fun _ _ => nofun) fun _ _ _ => rfl
  obtain ⟨q, left⟩ := finish_leaving h (exitWord x)
  refine ⟨_, q, ?_, left⟩
  change (match runLane (exitWord x) s (fun _ s _ => .of s .exit), s.issuing with
    | .next t, some iss => _
    | r, _ => r) = _
  rw [run, h.issuing]
  dsimp only
  rw [h.plot, left.plot]
  dsimp only
  rw [plain]

theorem leavers_stayers {guard : Nat} {l : List (Nat × Fibre)} (nodup : (l.map (·.2.fid)).Nodup) {f : Nat} (h : f ∈ leavers guard l) :
    f ∉ stayers guard l := by
  intro k
  obtain ⟨m, hm, rfl⟩ := List.mem_map.1 h
  obtain ⟨n, hn, e⟩ := List.mem_map.1 k
  obtain ⟨hm, out⟩ := List.mem_filter.1 hm
  obtain ⟨hn, stay⟩ := List.mem_filter.1 hn
  rw [List.inj_on_of_nodup_map nodup hn hm e, out] at stay
  cases stay

/-- Of the members of an issue of EXIT those whose guard is true leave the plot, the others go on. -/
theorem exit_leaves (x : FmtG) {s : State} {iss : Issue} {p : Plot} (h : Issuing s iss p) (plain : p.handler = none)
    (small : ∀ m ∈ iss.members, m.2 < 1024) :
    let out := leavers x.g.toNat (iss.live p)
    ∃ t q, exec (.exit x) s = .next t ∧ t.plot? iss.pid = some q ∧ (∀ f ∈ out, q.fibre? f = none) ∧ q.exited = p.exited ++ out ∧
      (∀ m ∈ iss.live p, m.2.pred x.g.toNat = false → Becomes t iss m.2.fid (m.2.advance iss.pc (iss.pc + BitVec.ofNat 40 (Machine.sizeOf x.p)))) ∧
      (∀ g, g ∉ iss.members.map (·.2) → q.fibre? g = p.fibre? g) ∧
      q.c = p.c.map (CSet.without out) ∧ q.j = p.j.map (JSlot.without out) ∧
      q.pendLoads = p.pendLoads.filter (fun l => decide (l.owner ∉ out)) ∧
      (∀ pid, pid ≠ iss.pid → t.plot? pid = s.plot? pid) ∧ t.mem = s.mem ∧ t.tags = s.tags ∧ t.issuing = none := by
  intro out
  obtain ⟨t, q, run, left⟩ := exec_exit x h plain
  have member {f : Nat} (hf : f ∈ (iss.live p).map (·.2.fid)) : f ∈ iss.members.map (·.2) := by
    obtain ⟨m, hm, rfl⟩ := List.mem_map.1 hf
    exact (Issue.live_mem hm).2
  have nodup : ((iss.live p).map (·.2.fid)).Nodup := Issue.live_nodup h.fids
  have dep := departed (next := iss.past (exitWord x)) (fun _ => rfl) (guard := x.g.toNat) nodup (fun f hf => by
    obtain ⟨m, hm, rfl⟩ := List.mem_map.1 (member (leavers_sub hf))
    exact small m hm) p
  have stayer {f : Nat} (hf : f ∈ stayers x.g.toNat (iss.live p)) : f ∈ iss.members.map (·.2) := by
    obtain ⟨m, hm, rfl⟩ := List.mem_map.1 hf
    exact member (List.mem_map_of_mem (List.mem_filter.1 hm).1)
  have sets : q.c = _ := (congrArg Plot.c left.rest : _)
  have slots : q.j = _ := (congrArg Plot.j left.rest : _)
  have loads : q.pendLoads = _ := (congrArg Plot.pendLoads left.rest : _)
  have exited : q.exited = _ := (congrArg Plot.exited left.rest : _)
  refine ⟨t, q, run, left.plot, fun f hf => ?_, exited.trans dep.exited, fun m hm stays => ?_, fun g hg => ?_, sets.trans dep.sets,
    slots.trans dep.slots, loads.trans dep.loads, left.others, left.mem, left.tags, left.ended⟩
  · exact (left.away f (leavers_stayers nodup hf)).trans (dep.gone f hf)
  · exact left.same _ _ (dep.on m hm stays (Option.isSome_iff_exists.2 ⟨_, (Issue.live_mem hm).1⟩))
  · exact (left.away g fun k => hg (stayer k)).trans (dep.others g fun k => hg (member k))

/-! ### An issue of one fibre -/

section
variable {s : State} {iss : Issue} {p : Plot} {f : Fibre} (h : Alone s iss p f)
include h

theorem Alone.toIssuing : Issuing s iss p :=
  ⟨h.issuing, h.plot, by simp [h.members]⟩

theorem Alone.live : ∃ lane, iss.members = [(lane, f.fid)] ∧ iss.live p = [(lane, f)] := by
  obtain ⟨m, hm, e⟩ := List.map_eq_singleton_iff.1 h.members
  refine ⟨m.1, by rw [hm, ← e], ?_⟩
  simp [Issue.live, hm, e, h.fibre]

/-- A lone fibre that exits leaves its plot as the exit leaves it. -/
theorem Alone.departed_eq (next : Fibre → Fibre) {guard : Nat} (leaves : f.pred guard = true) : p.departed next guard (iss.live p) = p.exit f.fid := by
  obtain ⟨lane, -, hl⟩ := h.live
  rw [hl, Plot.departed_exit leaves]
  rfl

theorem Alone.stayers_eq {guard : Nat} (leaves : f.pred guard = true) : stayers guard (iss.live p) = [] := by
  obtain ⟨lane, -, hl⟩ := h.live
  simp [hl, stayers, leaves]

end

/-- A fibre that has exited is in no convergence set. -/
theorem Plot.cset_exit (p : Plot) (fid n : Nat) {q : Plot} (h : q.c = (p.exit fid).c) : fid ∉ (q.cset n).members := by
  rw [Plot.cset, h, Plot.exit_c, List.getD_eq_getElem?_getD, List.getElem?_map]
  cases p.c[n]? with
  | none => simp [CSet.free]
  | some y => simp [CSet.without]

/-- A lone fibre that executes EXIT leaves its plot. -/
theorem exit_alone (x : FmtG) {s : State} {iss : Issue} {p : Plot} {f : Fibre} (h : Alone s iss p f) (leaves : f.pred x.g.toNat = true)
    (plain : p.handler = none) :
    ∃ t q, exec (.exit x) s = .next t ∧ t.plot? iss.pid = some q ∧ q.fibre? f.fid = none ∧
      (∀ g ∈ p.fibres, g.fid ≠ f.fid → q.fibre? g.fid = p.fibre? g.fid) ∧ (∀ n, f.fid ∉ (q.cset n).members) ∧
      (∀ pid, pid ≠ iss.pid → t.plot? pid = s.plot? pid) ∧ t.mem = s.mem ∧ t.tags = s.tags ∧ t.issuing = none := by
  obtain ⟨t, q, run, left⟩ := exec_exit x h.toIssuing plain
  have fibres (g : Nat) : q.fibre? g = (p.exit f.fid).fibre? g := by
    rw [← h.departed_eq (iss.past (exitWord x)) leaves]
    exact left.away g (by rw [exitWord, h.stayers_eq leaves]; simp)
  have sets : q.c = (p.exit f.fid).c := by
    rw [← h.departed_eq (iss.past (exitWord x)) leaves]
    exact (congrArg Plot.c left.rest : _)
  refine ⟨t, q, run, left.plot, ?_, fun g _ ne => ?_, fun n => Plot.cset_exit p f.fid n sets, left.others, left.mem, left.tags, left.ended⟩
  · rw [fibres, Plot.fibre?_exit]
  · rw [fibres, Plot.fibre?_exit_ne ne]

/-! ### ERET -/

/-- The word of ERET. -/
def eretWord (x : FmtE1) : LaneWord :=
  { codes := [x.a.toNat], privileged := true }

/-- What a member of an issue of ERET does. -/
def eretEff : IssueCtx → State → Fibre → Eff :=
  fun c s f =>
    if c.p.handler.isNone then .of s (.fault (.precise .illop c.iss.pc))
    else if c.p.signedOpen f.fid then .of s (.park f (.uniformResult []))
    else .of s .exit

/-- Where no instances are open no fibre waits for one. -/
theorem waits_closed {p : Plot} (closed : ∀ y ∈ p.c, y.insts = []) (w : LaneWord) (f : Fibre) : p.waits w f = false ∧ p.signedOpen f.fid = false := by
  constructor
  · simp only [Plot.waits, Plot.pending, Bool.and_eq_false_imp, List.any_eq_false]
    intro _ y hy
    simp [closed y hy]
  · simp only [Plot.signedOpen, List.any_eq_false]
    intro y hy
    simp [closed y hy]

/-- A lone fibre's fault ends its issue. -/
theorem finish_fault {s : State} {iss : Issue} {p : Plot} {f : Fibre} (h : Alone s iss p f) (w : LaneWord) (r : FaultRec) :
    LaneEnd s (s.finish iss w p [(f.fid, .fault r, 0, [])]) iss 0 [(f.fid, r)] ∧ Becomes (s.finish iss w p [(f.fid, .fault r, 0, [])]) iss f.fid f := by
  have there : s.fibre? iss.pid f.fid = some f := by
    rw [State.fibre?, h.plot]
    exact h.fibre
  obtain ⟨ended, -, fault, -⟩ := finish_spec s iss w p [(f.fid, .fault r, 0, [])] (by simp) (by simp [Act.fibre?]) (by simp) (by simp [h.members])
  rw [logIssue_none (by simp)] at ended
  exact ⟨by simpa using ended, fault _ (List.mem_singleton_self _) f there r rfl⟩

/-- The issue of ERET by a handler's lone fibre: it exits. -/
theorem runLane_eret (x : FmtE1) {s : State} {iss : Issue} {p : Plot} {f : Fibre} (h : Alone s iss p f) (unlocked : s.unlocked iss p (eretWord x))
    (system : p.system = true) (closed : ∀ y ∈ p.c, y.insts = []) :
    runLane (eretWord x) s eretEff = .next (s.finish iss (eretWord x) p ((eretWord x).outcomes
      (fun _ => if p.handler.isNone then .fault (.precise .illop iss.pc) else .exit) (iss.live p))) := by
  refine runLane_outcomes h.toIssuing (fun _ => system) unlocked (fun m _ => (waits_closed closed _ m.2).1) (fun m k => ?_) fun m _ t => ?_
  · split <;> exact nofun
  · have none := (waits_closed closed (eretWord x) m.2).2
    simp only [eretEff, Issue.context, none, Bool.false_eq_true, if_false]
    split <;> rfl

/-- ERET ends the handler's fibre and applies its action (R424). -/
theorem eret_returns (x : FmtE1) {s : State} {iss : Issue} {p : Plot} {f : Fibre} {served : Nat} (h : Alone s iss p f)
    (unlocked : s.unlocked iss p (eretWord x)) (system : p.system = true) (serves : p.handler = some served) (closed : ∀ y ∈ p.c, y.insts = []) :
    ∃ t : State, t.fibre? iss.pid f.fid = none ∧ t.mem = s.mem ∧ (∀ pid, pid ≠ iss.pid → t.plot? pid = s.plot? pid) ∧
      exec (.eret x) s = .next ((if (readReg p f x.a.toNat).toNat % 4 = 3 then t else t.freeHandler p.core).applyAction served
        ((readReg p f x.a.toNat).toNat % 4) (frameAddr p.core)) := by
  have run := runLane_eret x h unlocked system closed
  obtain ⟨q, left⟩ := finish_leaving h.toIssuing (eretWord x)
  simp only [serves, Option.isNone_some, Bool.false_eq_true, if_false] at run
  generalize s.finish iss (eretWord x) p _ = t at run left
  have gone : t.fibre? iss.pid f.fid = none := by
    rw [State.fibre?, left.plot, Option.bind_some, left.away f.fid (by rw [h.stayers_eq rfl]; simp), h.departed_eq _ rfl, Plot.fibre?_exit]
  refine ⟨t, gone, left.mem, left.others, ?_⟩
  obtain ⟨lane, members, -⟩ := h.live
  change (match runLane (eretWord x) s eretEff, s.issuing with
    | .next t, some iss => _
    | r, _ => r) = _
  rw [run, h.issuing]
  dsimp only
  rw [h.plot]
  dsimp only
  rw [serves, members]
  dsimp only
  rw [State.plot?_pid h.plot, gone, h.fibre]
  rfl

/-- ERET outside a handler is no instruction. -/
theorem eret_outside (x : FmtE1) {s : State} {iss : Issue} {p : Plot} {f : Fibre} (h : Alone s iss p f)
    (unlocked : s.unlocked iss p (eretWord x)) (system : p.system = true) (plain : p.handler = none) (closed : ∀ y ∈ p.c, y.insts = []) :
    ∃ t, exec (.eret x) s = .next t ∧ LaneEnd s t iss 0 [(f.fid, .precise .illop iss.pc)] ∧ Becomes t iss f.fid f := by
  have run := runLane_eret x h unlocked system closed
  obtain ⟨lane, -, live⟩ := h.live
  have effs : (eretWord x).outcomes (fun _ => if p.handler.isNone then .fault (.precise .illop iss.pc) else .exit) (iss.live p) =
      [(f.fid, .fault (.precise .illop iss.pc), 0, [])] := by
    rw [live, plain]
    rfl
  rw [effs] at run
  refine ⟨_, ?_, finish_fault h (eretWord x) (.precise .illop iss.pc)⟩
  change (match runLane (eretWord x) s eretEff, s.issuing with
    | .next t, some iss => _
    | r, _ => r) = _
  rw [run, h.issuing]
  dsimp only
  rw [h.plot]
  dsimp only
  rw [plain]

/-- ERET at user level is privileged. -/
theorem eret_user (x : FmtE1) {s : State} {iss : Issue} {p : Plot} {f : Fibre} (h : Alone s iss p f) (user : p.system = false)
    (plain : p.handler = none) :
    ∃ t, exec (.eret x) s = .next t ∧ LaneEnd s t iss 0 [(f.fid, .precise .priv iss.pc)] ∧ Becomes t iss f.fid f := by
  obtain ⟨lane, -, live⟩ := h.live
  have run : runLane (eretWord x) s eretEff = .next (s.finish iss (eretWord x) p [(f.fid, .fault (.precise .priv iss.pc), 0, [])]) := by
    simp only [runLane, h.issuing, h.plot, user, eretWord, Bool.not_false, Bool.and_self, if_true, live, List.map_cons, List.map_nil]
  refine ⟨_, ?_, finish_fault h (eretWord x) (.precise .priv iss.pc)⟩
  change (match runLane (eretWord x) s eretEff, s.issuing with
    | .next t, some iss => _
    | r, _ => r) = _
  rw [run, h.issuing]
  dsimp only
  rw [h.plot]
  dsimp only
  rw [plain]

/-- Settles O43: EXIT by the members that leave their plot one after another, ERET by the exit of the handler's fibre. -/
theorem exitAndReturn : Obligations.ExitAndReturn :=
  ⟨fun x _ _ _ _ h leaves plain _ _ => exit_alone x h leaves plain,
    fun x _ _ _ h plain small => exit_leaves x h plain small,
    fun x _ _ _ _ _ h unlocked system serves closed _ => eret_returns x h unlocked system serves closed,
    fun x _ _ _ _ h unlocked system plain closed => eret_outside x h unlocked system plain closed,
    fun x _ _ _ _ h user plain => eret_user x h user plain⟩

end Sys2Proof.Machine
end

section
/-! SUPPORT. The handles of the plots through write-backs and commits; the reports through the reeve's own writes (R55, R202, R323). -/

namespace Sys2Proof.Machine

/-! ### Handles -/

/-- The handles of the plots of a state. -/
def State.handles (s : State) : List Nat :=
  s.plots.map (·.pid)

theorem State.plot?_isSome (s : State) (pid : Nat) : (s.plot? pid).isSome = s.handles.contains pid := by
  rw [Bool.eq_iff_iff, State.plot?, List.find?_isSome]
  simp [State.handles]

theorem State.handles_congr {s t : State} (h : t.plots = s.plots) : t.handles = s.handles := by
  rw [State.handles, h, State.handles]

theorem State.handles_of_apart {s t : State} (h : t.apart = s.apart) : t.handles = s.handles :=
  State.handles_congr (State.plots_of_apart h)

theorem State.modPlot_handles (s : State) (pid : Nat) {f : Plot → Plot} (hf : ∀ p, (f p).pid = p.pid) : (s.modPlot pid f).handles = s.handles := by
  simp only [State.handles, State.modPlot, List.map_map]
  refine List.map_congr_left fun p _ => ?_
  simp only [Function.comp_apply]
  split
  · exact hf p
  · rfl

@[simp] theorem State.modCore_handles (s : State) (n : Nat) (f : Core → Core) : (s.modCore n f).handles = s.handles :=
  State.handles_of_apart (s.modCore_apart n f)

theorem State.foldl_handles {α : Type} {f : State → α → State} (h : ∀ t a, (f t a).handles = t.handles) (l : List α) (s : State) :
    (l.foldl f s).handles = s.handles :=
  foldl_keeps State.handles (fun t a _ => h t a) s

/-! ### Lines on their way home -/

@[simp] theorem State.logEngine_handles (s : State) (p : Plot) (d : Cmd) (ty : Nat) (causes : List Nat) :
    (s.logEngine p d ty causes).handles = s.handles := by
  rw [State.logEngine]
  exact (State.handles_congr (by rw [(memStep_logIssue _ _ _ _ _).only])).trans (State.modCore_handles ..)

@[simp] theorem State.setFlags_handles (s : State) (pid : Nat) (f : Flg) : (s.setFlags pid f).handles = s.handles := by
  rw [State.setFlags, State.modPlot_handles]
  exact fun _ => rfl

@[simp] theorem State.engineWrite_handles (s : State) (p : Plot) (d : Cmd) (off : Nat) (bs : List Byte) :
    (s.engineWrite p d off bs).1.handles = s.handles := by
  simp only [State.engineWrite]
  split
  · rfl
  · split_ifs
    · rfl
    · rfl
    · simp only [State.logEngine_handles, State.setFlags_handles]
      exact State.handles_of_apart (by simp)
    · exact State.handles_of_apart (by simp)

@[simp] theorem State.engineCells_handles (s : State) (p : Plot) (d : Cmd) (cells : List (Nat × List Byte)) :
    (s.engineCells p d cells).1.handles = s.handles := by
  refine foldl_keeps (fun acc : State × Option FaultRec => acc.1.handles) (fun acc c _ => ?_) _
  split <;> simp

@[simp] theorem State.engineFlush_handles (s : State) (core order : Nat) (r : LineRef) : (s.engineFlush core order r).handles = s.handles := by
  simp only [State.engineFlush]
  split
  · rfl
  · split
    · rfl
    · simp only [State.modCore_handles, State.engineCells_handles]
      rfl

@[simp] theorem State.homeReady_handles (s : State) (r : LineRef) (by_ : Option Nat) : (s.homeReady r by_).handles = s.handles := by
  simp only [State.homeReady]
  rw [State.foldl_handles fun t q => t.engineFlush_handles ..]
  exact State.foldl_handles (fun t q => State.handles_of_apart (by simp)) _ _

@[simp] theorem State.applyLine_handles (s : State) (core : Nat) (l : L1Line) : (s.applyLine core l).handles = s.handles := by
  simp only [State.applyLine]
  split
  · rw [State.handles_of_apart (State.land_apart ..), State.homeReady_handles]
  · exact State.handles_of_apart (State.land_apart ..)

@[simp] theorem State.writeBackWhere_handles (s : State) (core : Nat) (p : L1Line → Bool) : (s.writeBackWhere core p).handles = s.handles := by
  simp only [State.writeBackWhere]
  rw [State.foldl_handles fun t l => ?_]
  · exact State.foldl_handles (fun t w => t.applyLine_handles ..) _ _
  · split
    · simp [State.writeBackLine]
    · rfl

@[simp] theorem State.flushCore_handles (s : State) (core : Nat) : (s.flushCore core).handles = s.handles := by
  simp only [State.flushCore, State.flushWhere]
  rw [State.foldl_handles fun t l => State.handles_of_apart (t.applyPartials_apart core l), State.writeBackWhere_handles]

/-! ### What a plot leaves as it retires -/

@[simp] theorem State.commit_handles (s : State) (pid : Nat) : (s.commit pid).handles = s.handles := by
  simp only [State.commit]
  split
  · rfl
  · split
    · rfl
    · rw [State.modCore_handles, State.modPlot_handles]
      exact fun _ => rfl

@[simp] theorem State.bumpEpoch_handles (s : State) (core : Nat) : (s.bumpEpoch core).handles = s.handles := by
  simp only [State.bumpEpoch]
  split <;> simp

@[simp] theorem State.lowerCount_handles (s : State) (ctx : Nat) (k : Crop) (i n : Nat) : (s.lowerCount ctx k i n).handles = s.handles :=
  State.handles_of_apart (t := s.setCount ctx k.count i _ _ _) (by simp [State.setCount])

@[simp] theorem State.dropLayers_handles (s : State) (p : Plot) : (s.dropLayers p).handles = s.handles := by
  rw [State.dropLayers, State.modPlot_handles]
  · refine State.foldl_handles (fun t r => ?_) _ _
    split
    · exact t.lowerCount_handles ..
    · rfl
  · exact fun _ => rfl

@[simp] theorem State.forgetPlot_handles (s : State) (p : Plot) : (s.forgetPlot p).handles = s.handles.filter (· != p.pid) := by
  simp only [State.forgetPlot, State.handles, State.modCore_plots, List.filter_map]
  rfl

@[simp] theorem State.reeveJoin_handles (s : State) (ctx : Nat) (c : Cap) (off ty val : Nat) : (s.reeveJoin ctx c off ty val).handles = s.handles := by
  simp only [State.reeveJoin]
  split
  · rfl
  · split
    · rfl
    · split
      · rfl
      · rfl

@[simp] theorem State.retireField_handles (s : State) (ctx fld fuel : Nat) : (s.retireField ctx fld fuel).handles = s.handles := by
  induction fuel generalizing s ctx fld with
  | zero => rfl
  | succ n ih =>
    simp only [State.retireField]
    split
    · rfl
    · rename_i f _
      have joined : (if f.aborted || f.record.cty == 0 then s
          else s.reeveJoin ctx f.record.cmpc f.record.coff f.record.cty f.record.cval).handles = s.handles := by
        split
        · rfl
        · exact State.reeveJoin_handles ..
      split
      · rfl
      · split
        · rw [ih]
          exact joined
        · exact joined

@[simp] theorem State.plotGone_handles (s : State) (p : Plot) (aborted : Bool) : (s.plotGone p aborted).handles = s.handles := by
  simp only [State.plotGone, State.retireField_handles]
  rfl

/-- A plot that retires leaves the machine; the others stay (R55). -/
theorem State.retirePlot_handles (s : State) (p : Plot) : (s.retirePlot p).handles = s.handles.filter (· != p.pid) := by
  simp only [State.retirePlot]
  split
  · exact s.forgetPlot_handles p
  · rw [State.plotGone_handles]
    split
    · exact (State.forgetPlot_handles ..).trans (by simp)
    · simp

/-! ### Reports -/

@[simp] theorem State.write0_reports (s : State) (c : Ctx) (off : Nat) (bs : List Byte) : (s.write0 c off bs).reports = s.reports := by
  induction bs generalizing s off with
  | nil => rfl
  | cons b bs ih =>
    simp only [State.write0]
    split <;> simp [ih]

@[simp] theorem State.sumsToShadow_reports (s : State) (r : LineRef) : (s.sumsToShadow r).reports = s.reports := by
  simp only [State.sumsToShadow]
  split
  · exact foldl_keeps State.reports (fun t q _ => t.write0_reports ..) _
  · rfl

@[simp] theorem State.evictL2_reports (s : State) (slot n : Nat) : (s.evictL2 slot n).reports = s.reports := by
  induction n generalizing s with
  | zero => rfl
  | succ n ih =>
    simp only [State.evictL2]
    split
    · rw [ih, State.sumsToShadow_reports]
    · rfl

@[simp] theorem State.touchL2_reports (s : State) (r : LineRef) (h : PortHit) (dirty : Bool) : (s.touchL2 r h dirty).reports = s.reports := by
  have trim (t : State) (slot : Nat) : (t.trimL2 slot).reports = t.reports := by
    simp only [State.trimL2]
    split
    · rfl
    · exact t.evictL2_reports ..
  cases dirty <;> simp only [State.touchL2, if_true, Bool.false_eq_true, if_false] <;> split <;> simp [trim, State.noteWrite]

@[simp] theorem State.putHead_reports (s : State) (ctx obj off : Nat) (bs : List Byte) : (s.putHead ctx obj off bs).reports = s.reports := by
  simp only [State.putHead]
  split
  · simp
  · rfl

end Sys2Proof.Machine
end

section
/-! The reeves' steps: records taken, fields eligible, plots placed and retired (R55, R324, R328, R330 to R333, R337). -/

namespace Sys2Proof.Machine

/-! ### Launch lists (R324) -/

theorem ListHead.busy {h : ListHead} (ne : h.tail ≠ h.head) : (h.tail == h.head) = false := by
  simpa using ne

/-- A record whose TAIL is in range is taken. -/
theorem takeRecord_next {s t : State} {ctx list : Nat} {h : ListHead} (read : s.listHead ctx list = some (t, h)) (open_ : s.listOpen ctx list = true)
    (ne : h.tail ≠ h.head) (range : h.inRange = true) (reached : t.recordOpen ctx h = true) :
    exec (.takeRecord ctx list) s = .next (t.takeRecord ctx list h) := by
  change execTakeRecord ctx list s = _
  simp only [execTakeRecord, read, open_, ListHead.busy ne, range, reached, Bool.not_true, Bool.or_self, Bool.false_eq_true, if_false, if_true]

/-- The stopped lists of a context after a change of them. -/
theorem State.ctx?_modStopped {s : State} {ctx : Nat} {f : List (Nat × Nat) → List (Nat × Nat)} {c : Ctx} (h : (s.modStopped ctx f).ctx? ctx = some c) :
    ∃ d, s.ctx? ctx = some d ∧ c = { d with stopped := f d.stopped } := by
  have same : ((fun c : Ctx => c.num == ctx) ∘ fun c => if c.num == ctx then { c with stopped := f c.stopped } else c) = fun c => c.num == ctx := by
    funext c
    by_cases e : c.num = ctx <;> simp [e]
  simp only [State.ctx?, State.modStopped, List.find?_map, same, Option.map_eq_some_iff] at h
  obtain ⟨d, hd, e⟩ := h
  have num : d.num == ctx := (List.find?_some hd : _)
  exact ⟨d, hd, by rw [← e, if_pos num]⟩

/-- A list with a bad TAIL stops and is reported. -/
theorem takeRecord_stops {s t : State} {ctx list : Nat} {h : ListHead} (read : s.listHead ctx list = some (t, h)) (open_ : s.listOpen ctx list = true)
    (ne : h.tail ≠ h.head) (range : h.inRange = false) :
    ∃ u, exec (.takeRecord ctx list) s = .next u ∧ u.reports = t.reports ++ [.listStop ctx list h.head] ∧
      ∀ c, u.ctx? ctx = some c → c.listStopped list = true := by
  refine ⟨t.stopList ctx list h, ?_, ?_, fun c hc => ?_⟩
  · change execTakeRecord ctx list s = _
    simp only [execTakeRecord, read, open_, ListHead.busy ne, range, Bool.not_true, Bool.or_self, Bool.false_eq_true, if_false]
  · have kept : ((t.putHead ctx h.obj 40 (leBytes 2 15)).putHead ctx h.obj 32 (leBytes 8 h.head)).reports = t.reports := by simp
    exact congrArg (· ++ [_]) kept
  · have stopped : (((t.putHead ctx h.obj 40 (leBytes 2 15)).putHead ctx h.obj 32 (leBytes 8 h.head)).modStopped ctx
        fun l => l ++ [(list, (t.die 0).cyc + retestCcy)]).ctx? ctx = some c := hc
    obtain ⟨d, -, rfl⟩ := State.ctx?_modStopped stopped
    simp [Ctx.listStopped]

/-- A stopped list in range starts again, another is read again 100 µs later. -/
theorem tailRetest_next {s t : State} {ctx list : Nat} {h : ListHead} (read : s.listHead ctx list = some (t, h)) (due : s.retestOpen ctx list = true) :
    (h.inRange = true → ∃ u, exec (.tailRetest ctx list) s = .next u ∧ (∀ c, u.ctx? ctx = some c → c.listStopped list = false) ∧
      { u with ctxs := [] } = { t with ctxs := [] }) ∧
    (h.inRange = false → ∃ u, exec (.tailRetest ctx list) s = .next u ∧
      (∀ c, u.ctx? ctx = some c → (list, (s.die 0).cyc + 160000) ∈ c.stopped) ∧ { u with ctxs := [] } = { t with ctxs := [] }) := by
  let others (l : List (Nat × Nat)) : List (Nat × Nat) := l.filter fun q => q.1 != list
  have run : exec (.tailRetest ctx list) s =
      .next (t.modStopped ctx fun l => if h.inRange then others l else others l ++ [(list, (s.die 0).cyc + retestCcy)]) := by
    change execTailRetest ctx list s = _
    simp only [execTailRetest, read, due, Bool.not_true, Bool.false_eq_true, if_false]
    rfl
  refine ⟨fun range => ⟨_, run, fun c hc => ?_, rfl⟩, fun range => ⟨_, run, fun c hc => ?_, rfl⟩⟩
  · obtain ⟨d, -, rfl⟩ := State.ctx?_modStopped hc
    simp [Ctx.listStopped, range, others]
  · obtain ⟨d, -, rfl⟩ := State.ctx?_modStopped hc
    simp [range, retestCcy]

/-! ### Eligibility (R328) -/

theorem State.drainCore_fields (s : State) (core epoch : Nat) : (s.drainCore core epoch).fields = s.fields := by
  have outside : (s.drainCore core epoch).outside = s.outside := by
    simp [State.drainCore, State.flushWhere]
  show (s.drainCore core epoch).outside.fields = s.outside.fields
  rw [outside]

theorem State.drainRecords_fields (s : State) (r : LineRef) : (s.drainRecords r).fields = s.fields := by
  simp only [State.drainRecords]
  exact foldl_keeps State.fields (fun t q _ => t.drainCore_fields q.2.1 q.2.2) s

/-- A field after a change that keeps its name. -/
theorem State.field?_modField (s : State) (ctx fld : Nat) {f : Field → Field} (hf : ∀ g, (f g).ctx = g.ctx ∧ (f g).fld = g.fld) :
    (s.modField ctx fld f).field? ctx fld = (s.field? ctx fld).map f := by
  have same : ((fun g : Field => g.ctx == ctx && g.fld == fld) ∘ fun g => if g.ctx == ctx && g.fld == fld then f g else g) =
      fun g => g.ctx == ctx && g.fld == fld := by
    funext g
    simp only [Function.comp_apply]
    split
    · rw [(hf g).1, (hf g).2]
    · rfl
  simp only [State.field?, State.modField, List.find?_map, same]
  cases hg : s.fields.find? fun g => g.ctx == ctx && g.fld == fld with
  | none => rfl
  | some g => simp only [Option.map_some, if_pos (List.find?_some hg)]

/-- A dependency that is reached makes its field eligible. -/
theorem fieldEligible_next {s : State} {ctx fld : Nat} {r : LineRef} {f : Field} (due : s.eligibleDue ctx fld = some r) (hf : s.field? ctx fld = some f) :
    ∃ t, exec (.fieldEligible ctx fld) s = .next t ∧ t.field? ctx fld = some { f with eligible := some (s.die 0).cyc } := by
  refine ⟨(s.drainRecords r).modField ctx fld fun f => { f with eligible := some (s.die 0).cyc }, ?_, ?_⟩
  · change execFieldEligible ctx fld s = _
    simp only [execFieldEligible, due]
  · have same : (s.drainRecords r).field? ctx fld = some f := by
      rw [State.field?, State.drainRecords_fields]
      exact hf
    rw [State.field?_modField]
    · rw [same, Option.map_some]
    · exact fun _ => ⟨rfl, rfl⟩

/-! ### Placement (R330 to R333, R337) -/

/-- A candidate that fits is placed, four at most in a µs; without one, a change of the ranks is a step. -/
theorem placePlot_next {s : State} (up : s.reeves = true) :
    let t := s.rankAgain
    let recent := t.decisions.filter fun c => (t.die 0).cyc < c + 1600
    let first := firstSome (t.candidates.map t.placeOne)
    (∀ u, recent.length < 4 → first = some u → exec .placePlot s = .next { u with decisions := recent ++ [(t.die 0).cyc] }) ∧
    ((4 ≤ recent.length ∨ first = none) → (t.tops ≠ s.tops ∨ t.fallow ≠ s.fallow) → exec .placePlot s = .next t) ∧
    ((4 ≤ recent.length ∨ first = none) → t.tops = s.tops → t.fallow = s.fallow → exec .placePlot s = .fault .noSubject) := by
  intro t recent first
  have run : exec .placePlot s = match t.placement with
      | some u => .next u
      | none => if t.tops = s.tops ∧ t.fallow = s.fallow then .fault .noSubject else .next t := by
    change execPlacePlot s = _
    simp only [execPlacePlot, up, Bool.not_true, Bool.false_eq_true, if_false]
    rfl
  have stands : (4 ≤ recent.length ∨ first = none) → t.placement = none := by
    rintro (many | none)
    · exact if_pos many
    · simp only [State.placement]
      split
      · rfl
      · exact congrArg (Option.map _) none
  refine ⟨fun u few placed => ?_, fun still change_ => ?_, fun still tops fallow => ?_⟩
  · have place : t.placement = some { u with decisions := recent ++ [(t.die 0).cyc] } := by
      refine (if_neg (by exact Nat.not_le.2 few)).trans ?_
      exact congrArg (Option.map _) placed
    rw [run, place]
  · rw [run, stands still]
    exact if_neg fun same => change_.elim (· same.1) (· same.2)
  · rw [run, stands still]
    exact if_pos ⟨tops, fallow⟩

/-- Long waits make a gang of one. -/
theorem gangOfOne_next {s : State} {c : Cand} (up : s.reeves = true) (top : (s.waited 320000).find? (fun c => !s.isGang c) = some c) :
    exec .gangOfOne s = .next { s with gangOne := s.gangOne ++ [c.name] } := by
  change execGangOfOne s = _
  simp only [execGangOfOne, top, up, if_true]

/-- A gang whose set has stood long pre-empts a victim. -/
theorem gangWaitLimit_next {s : State} {p : Plot} (victim : s.gangVictim = some p) :
    exec .gangWaitLimit s = .next (s.preemptPlot p.pid (s.cycOf p.core)) := by
  change execGangWaitLimit s = _
  simp only [execGangWaitLimit, victim]

/-- A saved plot that has waited long pre-empts a victim. -/
theorem restoreRoom_next {s : State} {p : Plot} (victim : s.roomVictim = some p) :
    exec .restoreRoom s = .next (s.preemptPlot p.pid (s.cycOf p.core)) := by
  change execRestoreRoom s = _
  simp only [execRestoreRoom, victim]

/-! ### Retirement (R55) -/

/-- A plot with nothing open retires, and no other goes with it. -/
theorem plotRetirement_next {s : State} {pid : Nat} {p : Plot} (hp : s.plot? pid = some p) (due : s.retireDue p = true) :
    ∃ t, exec (.plotRetirement pid) s = .next t ∧ t.plot? pid = none ∧ ∀ other, other ≠ pid → (t.plot? other).isSome = (s.plot? other).isSome := by
  have handles := s.retirePlot_handles p
  rw [State.plot?_pid hp] at handles
  refine ⟨s.retirePlot p, ?_, ?_, fun other ne => ?_⟩
  · change execPlotRetirement pid s = _
    simp only [execPlotRetirement, hp, due, if_true]
  · rw [← Option.isNone_iff_eq_none, ← Option.not_isSome, State.plot?_isSome, handles]
    simp
  · rw [State.plot?_isSome, State.plot?_isSome, handles]
    simp [ne]

/-- Settles O55: each step of the reeves by its own lemma. -/
theorem reevesLaunchAndRetire : Obligations.ReevesLaunchAndRetire :=
  ⟨fun _ _ _ _ _ read open_ ne =>
      ⟨fun range reached => takeRecord_next read open_ ne range reached, fun range => takeRecord_stops read open_ ne range⟩,
    fun _ _ _ _ _ read due => tailRetest_next read due,
    fun _ _ _ _ _ due hf => fieldEligible_next due hf,
    fun _ up => placePlot_next up,
    fun _ _ up top => gangOfOne_next up top,
    fun _ _ victim => gangWaitLimit_next victim,
    fun _ _ victim => restoreRoom_next victim,
    fun _ _ _ hp due => plotRetirement_next hp due⟩

end Sys2Proof.Machine
end

section
/-! Two statements that do not hold of the model, each refuted by a state written out (R45, R414). -/

namespace Sys2Proof.Machine

/-! ### Two plots under one handle -/

/-- One of a set's instances, signed by all its signers, which the uniform pipe has not taken note of (R46). -/
def signedInst : Inst :=
  Inst.open 0 0 (some (.uand ⟨0, 0, 0, 0, none⟩)) 0 4 [0]

/-- A plot on core 1 whose set c0 has it open, under handle 1. -/
def farPlot : Plot :=
  { fetchPlot 1 with core := 1, c := [{ CSet.free with insts := [signedInst] }] }

/-- An issue of the only fibre of plot 0 on core 0, beside a plot of that core that shares its handle with the far one. -/
def twinState : State :=
  { State.reset with plots := [fetchPlot 0, farPlot, fetchPlot 1], issuing := some ⟨0, 0, none, 0, [(0, 0)]⟩ }

/-- The fibre of plot 0. -/
def twinFibre : Fibre :=
  { Fibre.launched 0 96 0 0 (List.replicate 8 .null) 0 with run := .inFurrow }

/-- The state of the twins meets what `Solo` asks: the far plot is on no core and under no handle of which it speaks. -/
theorem twinState_solo : Solo twinState ⟨0, 0, none, 0, [(0, 0)]⟩ (fetchPlot 0) twinFibre 0 where
  issuing := rfl
  plot := rfl
  members := rfl
  fibre := rfl
  core := rfl
  set := by decide
  sets := by decide
  member := rfl
  closed := .inl rfl
  quiet := by decide +kernel
  turn := rfl
  seqs := by decide
  low := by decide
  committed := rfl
  running := rfl
  free := rfl

/-- The lengths of the uniform pipe of core 1 that a result shows. -/
def farPipe : Result → Nat
  | .next t => (t.core 1).pipeWait.length
  | _ => 0

/-- The state after the signature. -/
def twinSigned : State :=
  match exec (.uand ⟨0, 0, 0, 0, none⟩) twinState with
  | .next t => t
  | _ => twinState

/-- The same, what plot 0 has signed being complete and at the pipe of core 0, as the statement has it. -/
def twinMarked : State :=
  (twinSigned.marked 0 0 0 fun j => { j with complete := true }).modCore 0 fun k => { k with pipeWait := [⟨0, 0, 0, 0⟩] }

/-- Plot 0 then. -/
def twinPlot : Plot :=
  (twinMarked.plot? 0).getD (fetchPlot 0)

/-- In the model what the far plot has signed is at the pipe of core 1 after the step. -/
theorem farPipe_twinSigned : farPipe (exec (.uniformPipeExecute 0) twinSigned) = 1 := by
  decide +kernel

/-- What the statement says of the step leaves the pipe of core 1 empty. -/
theorem farPipe_executed : farPipe (.next (((twinMarked.setFlags twinPlot.pid 0).executed 0 0 0 0 (.k 0 0)).taken 0 ⟨0, 0, 0, 0⟩)) = 0 := by
  decide +kernel

/-- Refutes O46: `Solo` lets two plots share a handle. The end of the ccy then completes the instances of the first of them, which is on another core
than the one whose plots the pipe goes through, and queues one there, where the statement leaves every other core as it was. -/
theorem not_uniformAluWords : ¬Obligations.UniformAluWords := by
  rintro ⟨-, -, -, -, uand, -⟩
  obtain ⟨-, solo⟩ := uand ⟨0, 0, 0, 0, none⟩
  obtain ⟨S, P, T, Q, signed, -, hT, hQ, executed⟩ := solo _ _ _ _ twinState_solo (fun h => nomatch h) (fun _ h => nomatch h)
  obtain rfl : S = twinSigned := by simp only [twinSigned, signed]
  obtain rfl : T = twinMarked := hT
  obtain rfl : Q = twinPlot := by simp [twinPlot, show twinMarked.plot? 0 = some Q from hQ]
  have far := (congrArg farPipe executed).symm.trans farPipe_twinSigned
  exact absurd (far.symm.trans farPipe_executed) (by decide)

/-! ### A fibre whose fault is imprecise -/

/-- A plot that stops for an imprecise fault of its fibre 0. -/
def latePlot : Plot :=
  { fetchPlot 0 with halt := some (.start 0 0 20 [(0, .late .poison 0 0 0 1 2)] false) }

/-- Refutes O51 at its clause on the skid: it lets a fibre whose recorded fault is imprecise issue in the fault cycle, where in the model a fibre with
any record issues no more (R414, R415). -/
theorem not_furrowsFormAndIssue : ¬Obligations.FurrowsFormAndIssue := by
  rintro ⟨-, -, -, -, -, -, -, -, -, mayIssue, -⟩
  have issues := (mayIssue latePlot _ 0 none 0 [0] rfl rfl).2 (.inr ⟨.inl rfl, by decide⟩)
  exact absurd issues (by decide)

end Sys2Proof.Machine
end
section
/-! The integer arithmetic words (R115, R131, R137). -/

namespace Sys2Proof.Machine

/-! ### Functions of words -/

/-- Bits [63:32] of a 64-bit product as the floor of the product over 2^32. -/
theorem extractHigh_ofInt (z : Int) : (BitVec.ofInt 64 z).extractLsb' 32 32 = wordOfInt (z / 2 ^ 32) := by
  apply BitVec.eq_of_toNat_eq
  simp only [wordOfInt, BitVec.extractLsb'_toNat, BitVec.toNat_ofInt, Nat.shiftRight_eq_div_pow]
  omega

theorem mulhWord_eq (a b : Word) : mulhWord a b = (a.signExtend 64 * b.signExtend 64).extractLsb' 32 32 := by
  have product : a.signExtend 64 * b.signExtend 64 = BitVec.ofInt 64 (a.toInt * b.toInt) := by
    rw [BitVec.signExtend, BitVec.signExtend, BitVec.ofInt_mul]
  rw [product, extractHigh_ofInt]
  rfl

theorem mulhuWord_eq (a b : Word) : mulhuWord a b = (a.setWidth 64 * b.setWidth 64).extractLsb' 32 32 := by
  have bound : a.toNat * b.toNat < 2 ^ 64 := by
    calc a.toNat * b.toNat < 2 ^ 32 * 2 ^ 32 := Nat.mul_lt_mul'' a.isLt b.isLt
      _ = 2 ^ 64 := by norm_num
  apply BitVec.eq_of_toNat_eq
  simp only [mulhuWord, BitVec.extractLsb'_toNat, BitVec.toNat_mul, BitVec.toNat_setWidth, BitVec.toNat_ofNat,
    Nat.shiftRight_eq_div_pow, Nat.mod_eq_of_lt (lt_trans a.isLt (by norm_num : 2 ^ 32 < 2 ^ 64)),
    Nat.mod_eq_of_lt (lt_trans b.isLt (by norm_num : 2 ^ 32 < 2 ^ 64)), Nat.mod_eq_of_lt bound]

theorem exactInt_abs (sat : Bool) (a : Word) : exactInt sat |a.toInt| = satWord sat (if a.toInt < 0 then -a.toInt else a.toInt) := by
  rw [exactInt_eq, abs_eq_max_neg]
  congr 1
  split <;> omega

/-- The least of two words by a key, as the model selects it by a test of the key's order. -/
theorem least_eq {α : Type} [LinearOrder α] {key : Word → α} {below : Word → Word → Bool} (spec : ∀ a b, below a b = decide (key a < key b))
    (a b : Word) : (if key a ≤ key b then a else b, (0 : Flg)) = noFlg (if below b a then b else a) := by
  rw [spec, noFlg]
  rcases le_or_gt (key a) (key b) with h | h <;> simp [h, not_lt.2, not_le.2]

/-- The greatest of two words by a key that tells words apart, as the model selects it. -/
theorem greatest_eq {α : Type} [LinearOrder α] {key : Word → α} {below : Word → Word → Bool} (spec : ∀ a b, below a b = decide (key a < key b))
    (inj : Function.Injective key) (a b : Word) : (if key a ≤ key b then b else a, (0 : Flg)) = noFlg (if below a b then b else a) := by
  rw [spec, noFlg]
  rcases lt_trichotomy (key a) (key b) with h | h | h
  · simp [h, h.le]
  · simp [inj h]
  · simp [not_le.2 h, not_lt.2 h.le]

/-- Settles O10: each word by its shape and the equation of its function. -/
theorem integerArithmetic : Obligations.IntegerArithmetic := by
  refine ⟨fun x => ?_, fun x => ?_, fun x => ?_, fun x => ?_, fun x => ?_, fun x => ?_, fun x => ?_, fun x => ?_, fun x => ?_,
    fun x => ?_, fun x => ?_, fun x => ?_, fun x => ?_⟩
  · exact Binary.of (fun _ => by rfl) fun _ _ => exactInt_eq _ _
  · exact Binary.of (fun _ => by rfl) fun _ _ => exactInt_eq _ _
  · exact Binary.of (fun _ => by rfl) fun _ _ => exactInt_eq _ _
  · exact Binary.of (fun _ => by rfl) fun a b => congrArg noFlg (mulhWord_eq a b).symm
  · exact Binary.of (fun _ => by rfl) fun a b => congrArg noFlg (mulhuWord_eq a b).symm
  · exact Ternary.of (fun _ => by rfl) fun _ _ _ => exactInt_eq _ _
  · exact Binary.of (fun _ => by rfl) (least_eq (below := BitVec.slt) fun _ _ => rfl)
  · exact Binary.of (fun _ => by rfl) (least_eq (below := BitVec.ult) fun _ _ => rfl)
  · exact Binary.of (fun _ => by rfl) (greatest_eq (below := BitVec.slt) (fun _ _ => rfl) fun _ _ => BitVec.eq_of_toInt_eq)
  · exact Binary.of (fun _ => by rfl) (greatest_eq (below := BitVec.ult) (fun _ _ => rfl) fun _ _ => BitVec.eq_of_toNat_eq)
  · exact Immediate.of (fun _ => by rfl) fun _ _ => exactInt_eq _ _
  · exact Unary.of (fun _ => by rfl) fun a => exactInt_abs _ a
  · exact Unary.of (fun _ => by rfl) fun _ => exactInt_eq _ _

end Sys2Proof.Machine
end
section
/-! Answers, acknowledgements, flags and port faults reach their plot (R123, R228, R254, R255, R414). -/

namespace Sys2Proof.Machine

/-! ### Fibres that issue again -/

/-- Resuming fibres adds to the resumes, and to nothing else. -/
theorem State.resumeWhere_only (s : State) (pid : Nat) (due : Fibre → Bool) :
    ∃ l, s.resumeWhere pid due = { s with resumes := s.resumes ++ l } := by
  have none : ∃ l, s = { s with resumes := s.resumes ++ l } := ⟨[], by rw [List.append_nil]⟩
  unfold State.resumeWhere
  split
  · exact none
  · split
    · exact none
    · exact ⟨_, rfl⟩

/-- A fibre whose park is met is among those that issue again. -/
theorem State.resumeWhere_due {s : State} {pid : Nat} {p : Plot} (hp : s.plot? pid = some p) (runs : p.halt = none) {due : Fibre → Bool} {g : Fibre}
    (hg : g ∈ p.fibres) (met : due g = true) : ∃ r ∈ (s.resumeWhere pid due).resumes, r.pid = pid ∧ r.fid = g.fid := by
  simp only [State.resumeWhere, hp, runs, Option.isSome_none, Bool.false_eq_true, if_false]
  cases listed : s.resumes.any fun r => r.pid == pid && r.fid == g.fid with
  | true =>
    obtain ⟨r, hr, same⟩ := List.any_eq_true.1 listed
    exact ⟨r, List.mem_append_left _ hr, by simpa using same⟩
  | false =>
    refine ⟨_, List.mem_append_right _ (List.mem_map_of_mem (List.mem_filter.2 ⟨hg, ?_⟩)), rfl, rfl⟩
    simp [met, listed]

/-- Waking those who wait for a count, and then those whose WAIT is met, adds to the resumes alone; with it the fibres parked at a counter that is
not full issue again (R255, R272). -/
theorem State.wake_spec (s : State) (pid : Nat) (k : OpClass) :
    ∃ l, (s.wakeCounter pid k).wakeWaits pid = { s with resumes := s.resumes ++ l } ∧
      ∀ p, s.plot? pid = some p → p.halt = none → ∀ g ∈ p.fibres, g.run = .parked (.counter k) → counterFull g k = false →
        ∃ r ∈ s.resumes ++ l, r.pid = pid ∧ r.fid = g.fid := by
  obtain ⟨l, hl⟩ := s.resumeWhere_only pid fun f => f.run == .parked (.counter k) && !counterFull f k
  obtain ⟨m, hm⟩ := (s.wakeCounter pid k).resumeWhere_only pid Fibre.waitMet
  refine ⟨l ++ m, ?_, fun p hp runs g hg parked free => ?_⟩
  · rw [State.wakeWaits, hm, State.wakeCounter, hl, List.append_assoc]
  · obtain ⟨r, hr, same⟩ := State.resumeWhere_due (due := fun f => f.run == .parked (.counter k) && !counterFull f k) hp runs hg (by simp [parked, free])
    rw [hl] at hr
    exact ⟨r, by rw [← List.append_assoc]; exact List.mem_append_left _ hr, same⟩

/-- What a change of one plot leaves, and what waking adds to it. -/
theorem State.wake_modPlot {s : State} {pid : Nat} {p : Plot} (hp : s.plot? pid = some p) {F : Plot → Plot} (hF : ∀ q, (F q).pid = q.pid) (k : OpClass) :
    ∃ t, ((s.modPlot pid F).wakeCounter pid k).wakeWaits pid = t ∧ t.plot? pid = some (F p) ∧
      ((F p).halt = none → ∀ g ∈ (F p).fibres, g.run = .parked (.counter k) → counterFull g k = false →
        ∃ r ∈ t.resumes, r.pid = pid ∧ r.fid = g.fid) ∧
      (∀ other, other ≠ pid → t.plot? other = s.plot? other) ∧ { t with plots := [], resumes := [] } = { s with plots := [], resumes := [] } := by
  obtain ⟨l, eq, woken⟩ := (s.modPlot pid F).wake_spec pid k
  have at_ : (s.modPlot pid F).plot? pid = some (F p) := by rw [State.plot?_modPlot s pid F hF, hp]; rfl
  exact ⟨_, eq, at_, woken (F p) at_, fun other ne => State.plot?_modPlot_ne s pid other F hF ne, rfl⟩

/-! ### Loads and stores -/

/-- A plot without one of its pending answers. -/
def Plot.dropLoad (l : PendLoad) (p : Plot) : Plot :=
  { p with pendLoads := p.pendLoads.erase l }

/-- A plot without one of its pending acknowledgements. -/
def Plot.dropStore (x : PendStore) (p : Plot) : Plot :=
  { p with pendStores := p.pendStores.erase x }

/-- One load fewer outstanding. -/
def Fibre.fewerLoads (f : Fibre) : Fibre :=
  { f with loads := f.loads - 1 }

/-- One store fewer outstanding. -/
def Fibre.fewerStores (f : Fibre) : Fibre :=
  { f with stores := f.stores - 1 }

/-- A change of a plot and then of one of its fibres is one change of the plot. -/
theorem State.modFibre_modPlot (s : State) (pid fid : Nat) {F : Plot → Plot} (hF : ∀ q, (F q).pid = q.pid) (f : Fibre → Fibre) :
    (s.modPlot pid F).modFibre pid fid f = s.modPlot pid fun q => (F q).modFibre fid f :=
  State.modPlot_modPlot s pid F _ hF

@[simp] theorem PendLoad.deliver_fid (l : PendLoad) (f : Fibre) : (l.deliver f).fid = f.fid := by
  cases l <;> rfl

theorem exec_loadReturn {s : State} {pid : Nat} {p : Plot} {l : PendLoad} (hp : s.plot? pid = some p) (due : p.answer? = some l) :
    exec (.loadReturn pid) s =
      .next (((s.modPlot pid fun q => (q.dropLoad l).modFibre l.owner l.deliver).wakeCounter pid .loads).wakeWaits pid) := by
  rw [← State.modFibre_modPlot s pid l.owner (F := Plot.dropLoad l) (fun _ => rfl)]
  change execLoadReturn pid s = _
  unfold execLoadReturn
  rw [hp, Option.bind_some, due]
  rfl

theorem exec_storeAcknowledge {s : State} {pid : Nat} {p : Plot} {fid : Nat} (hp : s.plot? pid = some p) (due : p.ack? = some fid) :
    exec (.storeAcknowledge pid) s =
      .next (((s.modPlot pid fun q => (q.dropStore (.done fid)).modFibre fid Fibre.fewerStores).wakeCounter pid .stores).wakeWaits pid) := by
  rw [← State.modFibre_modPlot s pid fid (F := Plot.dropStore (.done fid)) (fun _ => rfl)]
  change execStoreAcknowledge pid s = _
  unfold execStoreAcknowledge
  rw [hp, Option.bind_some, due]
  rfl

/-- A fibre after a change that keeps FIDs. -/
theorem Plot.fibre?_modFibre_some {p : Plot} {fid : Nat} {f : Fibre} (hf : p.fibre? fid = some f) {g : Fibre → Fibre} (hg : ∀ f, (g f).fid = f.fid) :
    (p.modFibre fid g).fibre? fid = some (g f) := by
  rw [Plot.fibre?_modFibre p fid g hg, hf]
  rfl

/-! ### Port faults -/

/-- A report of a fault gives its plot a halt, and changes nothing else of it (R414, R416). -/
theorem State.reportFault_eq (s : State) (pid fid : Nat) (r : FaultRec) :
    ∃ h : Plot → Halt, s.reportFault pid fid r = s.modPlot pid fun p => { p with halt := some (h p) } := by
  unfold State.reportFault
  split
  · exact ⟨_, rfl⟩
  · refine ⟨fun p => p.halt.getD (.start (s.cycOf p.core) (fid % 1024) r.code.num [] false), congrArg (s.modPlot pid) (funext fun p => ?_)⟩
    obtain ⟨halt, eq⟩ : ∃ h, p.halt = h := ⟨_, rfl⟩
    cases p
    subst eq
    split <;> simp_all

/-- A report after a change of its plot: the plot as changed, and halted. -/
theorem report_next {s : State} {pid : Nat} {p : Plot} (hp : s.plot? pid = some p) {F : Plot → Plot} (hF : ∀ q, (F q).pid = q.pid) (fid : Nat)
    (r : FaultRec) (k : OpClass) :
    ∃ h, ((((s.modPlot pid F).reportFault pid fid r).wakeCounter pid k).wakeWaits pid).plot? pid = some { F p with halt := some h } := by
  obtain ⟨h, eq⟩ := (s.modPlot pid F).reportFault_eq pid fid r
  rw [eq, State.modPlot_modPlot s pid F _ hF]
  obtain ⟨t, ht, at_, -⟩ := State.wake_modPlot hp (F := fun q => { F q with halt := some (h (F q)) }) hF k
  exact ⟨h (F p), by rw [ht]; exact at_⟩

theorem exec_loadFault {s : State} {pid : Nat} {p : Plot} {fid : Nat} {r : FaultRec} (hp : s.plot? pid = some p) (due : p.pendFault = some (fid, r)) :
    exec (.portFaultReport pid) s =
      .next ((((s.modPlot pid fun q => (q.dropLoad (.fault fid r)).modFibre fid Fibre.fewerLoads).reportFault pid fid r).wakeCounter pid .loads).wakeWaits
        pid) := by
  rw [← State.modFibre_modPlot s pid fid (F := Plot.dropLoad (.fault fid r)) (fun _ => rfl)]
  change execPortFaultReport pid s = _
  unfold execPortFaultReport
  rw [hp]
  dsimp only
  rw [due]
  rfl

theorem exec_storeFault {s : State} {pid : Nat} {p : Plot} {fid : Nat} {counted : Bool} {r : FaultRec} (hp : s.plot? pid = some p)
    (first : p.pendFault = none) (due : p.pendStoreFault = some (fid, counted, r)) :
    exec (.portFaultReport pid) s =
      .next ((((s.modPlot pid fun q => (q.dropStore (.fault fid counted r)).modFibre fid (if counted then Fibre.fewerStores else id)).reportFault
        pid fid r).wakeCounter pid .stores).wakeWaits pid) := by
  change execPortFaultReport pid s = _
  unfold execPortFaultReport
  rw [hp]
  dsimp only
  rw [first, due]
  cases counted with
  | true =>
    rw [← State.modFibre_modPlot s pid fid (F := Plot.dropStore (.fault fid true r)) (fun _ => rfl)]
    rfl
  | false =>
    have same (q : Plot) : q.modFibre fid id = q := by simp [Plot.modFibre]
    simp only [Bool.false_eq_true, if_false, same]
    rfl

/-- Settles O50: each arrival as one change of its plot, after which the fibres that wait for its count issue again. -/
theorem resultsReachTheirFibres : Obligations.ResultsReachTheirFibres := by
  refine ⟨fun s pid p hp pending => ?_, fun s pid p l hp due => ?_, fun s pid p fid hp due => ?_, fun s pid p fid r hp due => ?_,
    fun s pid p fid counted r hp first due => ?_⟩
  · have hF (q : Plot) : ({ q with flg := q.flg ||| q.flgPend.setWidth 32, flgPend := 0 } : Plot).pid = q.pid := rfl
    refine ⟨_, ?_, ?_, fun other ne => State.plot?_modPlot_ne s pid other _ hF ne, rfl⟩
    · change execLaneResultWrite pid s = _
      unfold execLaneResultWrite
      rw [hp]
      exact if_neg pending
    · rw [State.plot?_modPlot s pid _ hF, hp]
      rfl
  · obtain ⟨t, eq, at_, woken, others, rest⟩ :=
      State.wake_modPlot hp (F := fun q => (q.dropLoad l).modFibre l.owner l.deliver) (fun _ => rfl) .loads
    refine ⟨t, _, (exec_loadReturn hp due).trans (congrArg _ eq), at_, rfl,
      fun fid ne => Plot.fibre?_modFibre_ne _ l.owner fid l.deliver l.deliver_fid ne, fun f hf => ?_, woken, others, rest⟩
    have delivered := Plot.fibre?_modFibre_some (p := p.dropLoad l) hf l.deliver_fid
    refine ⟨?_, ?_, ?_⟩
    · rintro fid d vs rfl
      exact delivered
    · rintro fid d c rfl
      exact delivered
    · rintro fid rfl
      exact delivered
  · obtain ⟨t, eq, at_, woken, others, rest⟩ :=
      State.wake_modPlot hp (F := fun q => (q.dropStore (.done fid)).modFibre fid Fibre.fewerStores) (fun _ => rfl) .stores
    exact ⟨t, _, (exec_storeAcknowledge hp due).trans (congrArg _ eq), at_, rfl,
      fun o ne => Plot.fibre?_modFibre_ne _ fid o Fibre.fewerStores (fun _ => rfl) ne,
      fun f hf => Plot.fibre?_modFibre_some (p := p.dropStore (.done fid)) hf (g := Fibre.fewerStores) fun _ => rfl, woken, others, rest⟩
  · obtain ⟨h, at_⟩ := report_next hp (F := fun q => (q.dropLoad (.fault fid r)).modFibre fid Fibre.fewerLoads) (fun _ => rfl) fid r .loads
    exact ⟨_, _, exec_loadFault hp due, at_, rfl, rfl,
      fun f hf => Plot.fibre?_modFibre_some (p := p.dropLoad (.fault fid r)) hf (g := Fibre.fewerLoads) fun _ => rfl⟩
  · obtain ⟨h, at_⟩ := report_next hp
      (F := fun q => (q.dropStore (.fault fid counted r)).modFibre fid (if counted then Fibre.fewerStores else id)) (fun _ => rfl) fid r .stores
    refine ⟨_, _, exec_storeFault hp first due, at_, rfl, rfl, fun f hf => ?_⟩
    have freed := Plot.fibre?_modFibre_some (p := p.dropStore (.fault fid counted r)) hf (g := if counted then Fibre.fewerStores else id)
      (by cases counted <;> exact fun _ => rfl)
    cases counted <;> exact freed

end Sys2Proof.Machine
end
section
/-! SUPPORT. Exact numbers: what the significand-and-exponent arithmetic and the splitting into units say of rationals (R77, R141). -/

namespace Sys2Proof.Machine

/-! ### Powers of two -/

theorem pow2_cast {K : Type} [DivisionRing K] {e : Int} (h : 0 ≤ e) : ((pow2 e : Nat) : K) = 2 ^ e := by
  obtain ⟨n, rfl⟩ := Int.eq_ofNat_of_zero_le h
  simp [pow2]

theorem pow2_pos (e : Int) : 0 < pow2 e :=
  Nat.two_pow_pos _

theorem two_zpow_pos (e : Int) : (0 : ℚ) < 2 ^ e := by
  positivity

/-- A power of two as another one times the power of their difference. -/
theorem two_zpow_sub_mul (e q : Int) : (2 : ℚ) ^ (e - q) * 2 ^ q = 2 ^ e := by
  rw [← zpow_add₀ two_ne_zero, sub_add_cancel]

/-- The number of a significand lies between the powers of two that its bit length gives. -/
theorem log2_bounds {m : Nat} (h : 0 < m) (e : Int) :
    (2 : ℚ) ^ ((Nat.log2 m : Int) + e) ≤ m * 2 ^ e ∧ (m : ℚ) * 2 ^ e < 2 ^ ((Nat.log2 m : Int) + e + 1) := by
  have low : (2 : ℚ) ^ Nat.log2 m ≤ m := by exact_mod_cast Nat.log2_self_le h.ne'
  have high : (m : ℚ) < 2 ^ (Nat.log2 m + 1) := by exact_mod_cast Nat.lt_log2_self
  have split (a : Nat) : (2 : ℚ) ^ ((a : Int) + e) = 2 ^ a * 2 ^ e := by rw [zpow_add₀ two_ne_zero, zpow_natCast]
  constructor
  · rw [split]
    exact mul_le_mul_of_nonneg_right low (two_zpow_pos e).le
  · rw [show (Nat.log2 m : Int) + e + 1 = ((Nat.log2 m + 1 : Nat) : Int) + e by push_cast; ring, split]
    exact mul_lt_mul_of_pos_right high (two_zpow_pos e)

/-! ### Significand and exponent -/

theorem Dy.number_eq_zero (d : Dy) : d.number = 0 ↔ d.m = 0 := by
  simp [Dy.number, (two_zpow_pos d.e).ne']

theorem Dy.number_neg_iff (d : Dy) : d.number < 0 ↔ d.m < 0 := by
  rw [Dy.number, ← not_le, mul_nonneg_iff_of_pos_right (two_zpow_pos d.e), not_le, Int.cast_lt_zero]

/-- Two numbers over one exponent. -/
theorem Dy.align_spec (a b : Dy) : a.number = ((a.align b).1 : ℚ) * 2 ^ (a.align b).2.2 ∧ b.number = ((a.align b).2.1 : ℚ) * 2 ^ (a.align b).2.2 := by
  have shifted (d : Dy) {e : Int} (h : e ≤ d.e) : d.number = ((d.m * pow2 (d.e - e) : Int) : ℚ) * 2 ^ e := by
    push_cast
    rw [pow2_cast (by omega), mul_assoc, two_zpow_sub_mul]
    rfl
  exact ⟨shifted a (min_le_left _ _), shifted b (min_le_right _ _)⟩

theorem Dy.number_add (a b : Dy) : (a.add b).number = a.number + b.number := by
  obtain ⟨ha, hb⟩ := a.align_spec b
  rw [ha, hb, ← add_mul, ← Int.cast_add]
  rfl

theorem Dy.number_mul (a b : Dy) : (a.mul b).number = a.number * b.number := by
  simp only [Dy.number, Dy.mul, zpow_add₀ (two_ne_zero (α := ℚ))]
  push_cast
  ring

theorem Dy.lt_iff (a b : Dy) : a.lt b = true ↔ a.number < b.number := by
  obtain ⟨ha, hb⟩ := a.align_spec b
  rw [ha, hb, mul_lt_mul_iff_left₀ (two_zpow_pos _), Int.cast_lt]
  exact decide_eq_true_iff

theorem Dy.eq_iff (a b : Dy) : a.eq b = true ↔ a.number = b.number := by
  obtain ⟨ha, hb⟩ := a.align_spec b
  rw [ha, hb, mul_left_inj' (two_zpow_pos _).ne', Int.cast_inj]
  exact decide_eq_true_iff

/-- The number of an integer. -/
theorem Dy.number_int (n : Int) : (Dy.mk n 0).number = n := by
  simp [Dy.number]

/-! ### Values -/

@[simp] theorem Dy.isNan_val (d : Dy) (zneg : Bool) : (d.val zneg).isNan = false := by
  unfold Dy.val
  split <;> rfl

@[simp] theorem Dy.isInf_val (d : Dy) (zneg : Bool) : (d.val zneg).isInf = false := by
  unfold Dy.val
  split <;> rfl

theorem Dy.isZero_val (d : Dy) (zneg : Bool) : (d.val zneg).isZero = true ↔ d.number = 0 := by
  rw [d.number_eq_zero]
  unfold Dy.val
  split <;> simp_all [Val.isZero]

theorem Dy.isNeg_val (d : Dy) (zneg : Bool) : (d.val zneg).isNeg = if d.number = 0 then zneg else decide (d.number < 0) := by
  simp only [d.number_eq_zero, d.number_neg_iff, Dy.val]
  split <;> rfl

theorem Dy.number_val (d : Dy) (zneg : Bool) : (d.val zneg).dy.number = d.number := by
  unfold Dy.val
  split
  · simp_all [Val.dy, Dy.number]
  · simp only [Val.dy, Dy.number, decide_eq_true_eq]
    congr 2
    split <;> omega

/-- The number of a finite value by its sign. -/
theorem Val.number_fin (neg : Bool) (m : Nat) (e : Int) : (Val.fin neg m e).dy.number = (if neg then -1 else 1) * (m * 2 ^ e) := by
  cases neg <;> simp [Val.dy, Dy.number]

/-! ### Units -/

/-- A magnitude as a whole number of units and a fraction of one. -/
theorem splitAt_spec (m : Nat) (e q : Int) : ∃ n r d, splitAt m e q = (n, r, d) ∧ r < d ∧ (m : ℚ) * 2 ^ e = (n + (r : ℚ) / d) * 2 ^ q := by
  unfold splitAt
  split
  · rename_i le
    refine ⟨_, _, _, rfl, one_pos, ?_⟩
    push_cast
    rw [pow2_cast (by omega), zero_div, add_zero, mul_assoc, two_zpow_sub_mul]
  · rename_i gt
    refine ⟨_, _, _, rfl, Nat.mod_lt _ (pow2_pos _), ?_⟩
    have pos : (0 : ℚ) < pow2 (q - e) := by exact_mod_cast pow2_pos _
    have whole : (m : ℚ) = (m / pow2 (q - e) : Nat) * pow2 (q - e) + (m % pow2 (q - e) : Nat) := by
      exact_mod_cast (Nat.div_add_mod' m (pow2 (q - e))).symm
    have unit : (2 : ℚ) ^ q = pow2 (q - e) * 2 ^ e := by rw [pow2_cast (by omega), two_zpow_sub_mul]
    rw [unit, ← mul_assoc, add_mul, div_mul_cancel₀ _ pos.ne', ← whole]

end Sys2Proof.Machine
end
section
/-! SUPPORT. The finite magnitudes of a floating-point format in their order, and rounding into them (R77, R99, R100, R110, R113). -/

namespace Sys2Proof.Machine

/-! ### The magnitudes of a format -/

/-- The exponent of a format's least unit. -/
def FpSpec.least (f : FpSpec) : Int :=
  1 - f.bias - f.mb

/-- The significand of a magnitude code: its fraction, with the leading bit from the first normal on. -/
def FpSpec.sig (f : FpSpec) (k : Nat) : Nat :=
  if k < 2 ^ f.mb then k else 2 ^ f.mb + k % 2 ^ f.mb

/-- The exponent of the unit in the last place of a magnitude code. -/
def FpSpec.unit (f : FpSpec) (k : Nat) : Int :=
  f.least + ((k / 2 ^ f.mb - 1 : Nat) : Int)

/-- The number of a magnitude code. -/
def FpSpec.mag (f : FpSpec) (k : Nat) : ℚ :=
  f.sig k * 2 ^ f.unit k

/-- The code of a sign. -/
def FpSpec.sign (f : FpSpec) (neg : Bool) : Nat :=
  if neg then 2 ^ (f.eb + f.mb) else 0

/-- The code of the largest finite magnitude. -/
def FpSpec.top (f : FpSpec) : Nat :=
  maxCode f false

theorem FpSpec.sig_mod_two (f : FpSpec) (hmb : 1 ≤ f.mb) (k : Nat) : f.sig k % 2 = k % 2 := by
  have even : 2 ∣ 2 ^ f.mb := dvd_pow_self 2 (by omega)
  unfold FpSpec.sig
  split
  · rfl
  · rw [Nat.add_mod, Nat.mod_mod_of_dvd k even, Nat.dvd_iff_mod_eq_zero.1 even]
    omega

theorem FpSpec.mag_zero (f : FpSpec) : f.mag 0 = 0 := by
  simp [FpSpec.mag, FpSpec.sig]

/-- The next magnitude is one unit further. -/
theorem FpSpec.mag_succ (f : FpSpec) (k : Nat) : f.mag (k + 1) = (f.sig k + 1) * 2 ^ f.unit k := by
  have pos : 0 < 2 ^ f.mb := Nat.two_pow_pos _
  have decompose := Nat.div_add_mod k (2 ^ f.mb)
  have small := Nat.mod_lt k pos
  unfold FpSpec.mag FpSpec.sig FpSpec.unit
  generalize hP : 2 ^ f.mb = P at *
  generalize k / P = a at *
  generalize k % P = b at *
  subst decompose
  rcases Nat.eq_zero_or_pos a with rfl | ha
  · rcases Nat.lt_or_ge (b + 1) P with h | h
    · simp [h, small, Nat.div_eq_of_lt h]
    · obtain rfl : P = b + 1 := by omega
      simp
  · have large : ¬P * a + b < P := by nlinarith
    have large' : ¬P * a + b + 1 < P := by nlinarith
    rw [if_neg large, if_neg large']
    rcases Nat.lt_or_ge (b + 1) P with h | h
    · rw [add_assoc, Nat.mul_add_div pos, Nat.mul_add_mod, Nat.div_eq_of_lt h, Nat.mod_eq_of_lt h]
      push_cast
      ring_nf
    · obtain rfl : P = b + 1 := by omega
      rw [show (b + 1) * a + b + 1 = (b + 1) * (a + 1) by ring, Nat.mul_div_cancel_left _ pos, Nat.mul_mod_right]
      have exponent : f.least + ((a + 1 - 1 : Nat) : Int) = f.least + ((a - 1 : Nat) : Int) + 1 := by omega
      rw [exponent, zpow_add_one₀ two_ne_zero]
      push_cast
      ring

theorem FpSpec.mag_strictMono (f : FpSpec) : StrictMono f.mag :=
  strictMono_nat_of_lt_succ fun k => by
    rw [f.mag_succ, FpSpec.mag]
    exact mul_lt_mul_of_pos_right (lt_add_one _) (two_zpow_pos _)

theorem FpSpec.mag_nonneg (f : FpSpec) (k : Nat) : 0 ≤ f.mag k := by
  rw [← f.mag_zero]
  exact f.mag_strictMono.monotone (Nat.zero_le k)

/-- The first normal magnitude. -/
theorem FpSpec.mag_normal (f : FpSpec) : f.mag (2 ^ f.mb) = 2 ^ (1 - f.bias) := by
  have pos : 0 < 2 ^ f.mb := Nat.two_pow_pos _
  simp only [FpSpec.mag, FpSpec.sig, FpSpec.unit, FpSpec.least, lt_irrefl, if_false, Nat.mod_self, Nat.div_self pos]
  push_cast
  rw [add_zero, ← zpow_natCast, ← zpow_add₀ two_ne_zero]
  congr 1
  omega

/-! ### Codes of magnitudes -/

theorem fpCode_sig (f : FpSpec) (neg : Bool) (k : Nat) : fpCode f neg (f.sig k) (f.unit k) = f.sign neg + k := by
  have pos : 0 < 2 ^ f.mb := Nat.two_pow_pos _
  have decompose := Nat.div_add_mod k (2 ^ f.mb)
  have small := Nat.mod_lt k pos
  unfold fpCode FpSpec.sig
  rcases Nat.lt_or_ge k (2 ^ f.mb) with h | h
  · rcases Nat.eq_zero_or_pos k with rfl | hk
    · simp [h, FpSpec.sign]
    · simp [h, hk.ne', FpSpec.sign]
  · have one : 1 ≤ k / 2 ^ f.mb := (Nat.one_le_div_iff pos).2 h
    have exponent : (f.unit k + f.bias + f.mb).toNat = k / 2 ^ f.mb := by
      simp only [FpSpec.unit, FpSpec.least]
      omega
    have double : 2 ^ (f.mb + 1) = 2 * 2 ^ f.mb := by ring
    rw [if_neg (not_lt.2 h), if_neg (by omega), if_neg (by omega), if_pos (by omega), exponent, FpSpec.sign, Nat.mul_comm]
    omega

theorem fpCode_sig_succ (f : FpSpec) (neg : Bool) (k : Nat) : fpCode f neg (f.sig k + 1) (f.unit k) = f.sign neg + (k + 1) := by
  have pos : 0 < 2 ^ f.mb := Nat.two_pow_pos _
  have decompose := Nat.div_add_mod k (2 ^ f.mb)
  have small := Nat.mod_lt k pos
  have double : 2 ^ (f.mb + 1) = 2 * 2 ^ f.mb := by ring
  unfold fpCode FpSpec.sig FpSpec.sign
  rcases Nat.lt_or_ge k (2 ^ f.mb) with h | h
  · have exponent : (f.unit k + f.bias + f.mb).toNat = 1 := by
      simp only [FpSpec.unit, FpSpec.least, Nat.div_eq_of_lt h]
      omega
    rw [if_pos h, if_neg (by omega), exponent]
    split
    · rfl
    · rw [if_pos (by omega)]
      omega
  · have one : 1 ≤ k / 2 ^ f.mb := (Nat.one_le_div_iff pos).2 h
    have exponent : (f.unit k + f.bias + f.mb).toNat = k / 2 ^ f.mb ∧ (f.unit k + 1 + f.bias + f.mb).toNat = k / 2 ^ f.mb + 1 := by
      simp only [FpSpec.unit, FpSpec.least]
      omega
    rw [if_neg (not_lt.2 h), if_neg (by omega), if_neg (by omega), exponent.1, exponent.2, Nat.add_mul, Nat.mul_comm]
    split <;> omega

/-- Every whole number of units with at most one bit more than the fraction is the significand of a magnitude of that unit. -/
theorem FpSpec.exists_sig (f : FpSpec) {n : Nat} {q : Int} (short : n < 2 ^ (f.mb + 1)) (above : f.least ≤ q) (normal : f.least < q → 2 ^ f.mb ≤ n) :
    ∃ k, f.sig k = n ∧ f.unit k = q := by
  have pos : 0 < 2 ^ f.mb := Nat.two_pow_pos _
  have double : 2 ^ (f.mb + 1) = 2 * 2 ^ f.mb := by ring
  rcases Nat.lt_or_ge n (2 ^ f.mb) with h | h
  · refine ⟨n, if_pos h, ?_⟩
    have : q = f.least := le_antisymm (not_lt.1 fun lt => absurd (normal lt) (not_le.2 h)) above
    simp [FpSpec.unit, Nat.div_eq_of_lt h, this]
  · have rest : n - 2 ^ f.mb < 2 ^ f.mb := by omega
    refine ⟨2 ^ f.mb * ((q - f.least).toNat + 1) + (n - 2 ^ f.mb), ?_, ?_⟩
    · rw [FpSpec.sig, Nat.mul_add_mod, Nat.mod_eq_of_lt rest, if_neg (by nlinarith)]
      omega
    · rw [FpSpec.unit, Nat.mul_add_div pos, Nat.div_eq_of_lt rest]
      omega

/-! ### The largest magnitude -/

/-- A format with a fraction and at least two exponent bits, as all of R99 are. -/
structure FpSpec.Sound (f : FpSpec) : Prop where
  fraction : 1 ≤ f.mb
  exponent : 2 ≤ f.eb

theorem FpSpec.last_exponent (f : FpSpec) : (2 ^ f.eb - 1) * 2 ^ f.mb = 2 ^ (f.eb + f.mb) - 2 ^ f.mb := by
  rw [Nat.sub_mul, one_mul, pow_add]

/-- The magnitude codes of the last exponent. -/
theorem FpSpec.last_exponent_iff (f : FpSpec) {k : Nat} (short : k < 2 ^ (f.eb + f.mb)) :
    k / 2 ^ f.mb = 2 ^ f.eb - 1 ↔ 2 ^ (f.eb + f.mb) - 2 ^ f.mb ≤ k := by
  have pos : 0 < 2 ^ f.mb := Nat.two_pow_pos _
  have bound : k / 2 ^ f.mb < 2 ^ f.eb := Nat.div_lt_of_lt_mul (by rwa [← pow_add, Nat.add_comm])
  rw [← f.last_exponent, ← Nat.le_div_iff_mul_le pos]
  omega

theorem FpSpec.top_bounds {f : FpSpec} (h : f.Sound) : 2 ^ f.mb ≤ f.top ∧ f.top < 2 ^ (f.eb + f.mb) := by
  obtain ⟨hm, he⟩ := h
  have two : 2 ≤ 2 ^ f.mb := by simpa using Nat.pow_le_pow_right two_pos hm
  have four : 4 ≤ 2 ^ f.eb := by simpa using Nat.pow_le_pow_right two_pos he
  unfold FpSpec.top maxCode
  rw [pow_add]
  generalize 2 ^ f.mb = P at *
  generalize 2 ^ f.eb = Q at *
  have product : 4 * P ≤ Q * P := Nat.mul_le_mul_right P four
  have less : (Q - 1) * P = Q * P - P := by rw [Nat.sub_mul, one_mul]
  simp only [Bool.false_eq_true, if_false, zero_add]
  split
  · omega
  · split <;> omega

/-- The codes that a format keeps above its largest magnitude. -/
theorem FpSpec.top_add (f : FpSpec) (h : f.Sound) : f.top + (if f.inf then 2 ^ f.mb + 1 else if f.topNan then 2 else 1) = 2 ^ (f.eb + f.mb) := by
  have bound : 2 ^ (1 + 2) ≤ 2 ^ (f.eb + f.mb) := Nat.pow_le_pow_right two_pos (by have := h.fraction; have := h.exponent; omega)
  have room : 2 ^ (1 + f.mb) ≤ 2 ^ (f.eb + f.mb) := Nat.pow_le_pow_right two_pos (by have := h.exponent; omega)
  have double : 2 ^ (1 + f.mb) = 2 * 2 ^ f.mb := by ring
  have pos : 0 < 2 ^ f.mb := Nat.two_pow_pos _
  unfold FpSpec.top maxCode
  rw [f.last_exponent]
  simp only [Bool.false_eq_true, if_false, zero_add]
  split
  · omega
  · split <;> omega

theorem maxDy_number {f : FpSpec} (h : f.Sound) : (maxDy f).number = f.mag f.top := by
  obtain ⟨normal, short⟩ := FpSpec.top_bounds h
  have pos : 0 < 2 ^ f.mb := Nat.two_pow_pos _
  have one : 1 ≤ f.top / 2 ^ f.mb := (Nat.one_le_div_iff pos).2 normal
  have field_top : field f.top f.mb f.eb = f.top / 2 ^ f.mb :=
    Nat.mod_eq_of_lt (Nat.div_lt_of_lt_mul (by rw [← pow_add, Nat.add_comm]; exact short))
  have fraction : field f.top 0 f.mb = f.top % 2 ^ f.mb := by simp [field]
  change (Dy.mk (2 ^ f.mb + field f.top 0 f.mb) (field f.top f.mb f.eb - f.bias - f.mb)).number = _
  rw [field_top, fraction, FpSpec.mag, FpSpec.sig, if_neg (not_lt.2 normal), Dy.number, FpSpec.unit, FpSpec.least]
  push_cast [one]
  congr 2
  ring

/-! ### Rounding -/

/-- The unit of rounding of a magnitude, and the magnitude below it. -/
theorem FpSpec.exists_floor (f : FpSpec) {m : Nat} (hm : 0 < m) (e : Int) :
    ∃ k r d : Nat, splitAt m e (f.unit k) = (f.sig k, r, d) ∧
      f.unit k = max ((Nat.log2 m : Int) + e - f.mb) f.least ∧ r < d ∧ (m : ℚ) * 2 ^ e = (f.sig k + (r : ℚ) / d) * 2 ^ f.unit k := by
  obtain ⟨low, high⟩ := log2_bounds hm e
  obtain ⟨n, r, d, split, rd, eq⟩ := splitAt_spec m e (max ((Nat.log2 m : Int) + e - f.mb) f.least)
  rw [eq] at low high
  generalize hq : max ((Nat.log2 m : Int) + e - f.mb) f.least = q at *
  have pos := two_zpow_pos q
  have dpos : (0 : ℚ) < d := by exact_mod_cast (Nat.zero_le r).trans_lt rd
  have part : 0 ≤ (r : ℚ) / d ∧ (r : ℚ) / d < 1 := ⟨by positivity, (div_lt_one dpos).2 (by exact_mod_cast rd)⟩
  have short : n < 2 ^ (f.mb + 1) := by
    have le : (2 : ℚ) ^ ((Nat.log2 m : Int) + e + 1) ≤ 2 ^ (f.mb + 1) * 2 ^ q := by
      rw [← zpow_natCast, ← zpow_add₀ two_ne_zero]
      exact zpow_le_zpow_right₀ one_le_two (by push_cast; omega)
    have lt := lt_of_mul_lt_mul_right (high.trans_le le) pos.le
    exact_mod_cast (le_add_of_nonneg_right part.1).trans_lt lt
  have normal (above : f.least < q) : 2 ^ f.mb ≤ n := by
    have le : (2 : ℚ) ^ f.mb * 2 ^ q ≤ 2 ^ ((Nat.log2 m : Int) + e) := by
      rw [← zpow_natCast, ← zpow_add₀ two_ne_zero]
      exact zpow_le_zpow_right₀ one_le_two (by omega)
    have lt : (2 : ℚ) ^ f.mb < n + 1 := (le_of_mul_le_mul_right (le.trans low) pos).trans_lt (by linarith [part.2])
    have : 2 ^ f.mb < n + 1 := by exact_mod_cast lt
    omega
  obtain ⟨k, sig, unit⟩ := f.exists_sig short (by omega) normal
  exact ⟨k, r, d, by rw [sig, unit, split], unit, rd, by rw [sig, unit]; exact eq⟩

/-- The result of a rounding that leaves a format's range (R113). -/
def fpOverflow (c : RndCtx) (f : FpSpec) (neg : Bool) : NumRes :=
  if c.narrow || !f.inf then ⟨maxCode f neg, flgSA ||| flgNX, []⟩
  else
    let toInf := match c.rm with
      | 1 => false
      | 2 => !neg
      | 3 => neg
      | _ => true
    ⟨if toInf then infCode f neg else maxCode f neg, flgOF ||| flgNX, []⟩

/-- The magnitude that a rounding selects: the one below, or the next one. -/
def fpSelect (c : RndCtx) (neg : Bool) (k r d : Nat) : Nat :=
  if r ≠ 0 ∧ roundsUp c neg (k % 2 == 0) r d then k + 1 else k

/-- Rounding selects one of the two magnitudes about a number; it leaves the range, is exact, or sets NX, and UF below the first normal. -/
theorem roundFp_eq {f : FpSpec} (h : f.Sound) (c : RndCtx) (neg : Bool) {m : Nat} (hm : 0 < m) (e : Int) :
    ∃ k r d : Nat, f.unit k = max ((Nat.log2 m : Int) + e - f.mb) f.least ∧ r < d ∧ (m : ℚ) * 2 ^ e = (f.sig k + (r : ℚ) / d) * 2 ^ f.unit k ∧
      roundFp c f neg m e =
        if f.top < fpSelect c neg k r d ∨ ((c.narrow || !f.inf) = true ∧ f.mag f.top < m * 2 ^ e) then fpOverflow c f neg
        else ⟨f.sign neg + fpSelect c neg k r d,
          if r = 0 then 0 else flgNX ||| if fpSelect c neg k r d ≠ 0 ∧ fpSelect c neg k r d < 2 ^ f.mb then flgUF else 0, []⟩ := by
  obtain ⟨k, r, d, split, unit, rd, eq⟩ := f.exists_floor hm e
  refine ⟨k, r, d, unit, rd, eq, ?_⟩
  have parity : (f.sig k % 2 == 0) = (k % 2 == 0) := by rw [f.sig_mod_two h.fraction]
  obtain ⟨n', select, code, number⟩ : ∃ n', (if r ≠ 0 ∧ roundsUp c neg (k % 2 == 0) r d then f.sig k + 1 else f.sig k) = n' ∧
      fpCode f neg n' (f.unit k) = f.sign neg + fpSelect c neg k r d ∧ (Dy.mk n' (f.unit k)).number = f.mag (fpSelect c neg k r d) := by
    refine ⟨_, rfl, ?_⟩
    unfold fpSelect
    split
    · exact ⟨fpCode_sig_succ f neg k, by rw [f.mag_succ, Dy.number]; push_cast; rfl⟩
    · exact ⟨fpCode_sig f neg k, rfl⟩
  have value : (Dy.mk m e).number = m * 2 ^ e := by simp [Dy.number]
  have large : (maxDy f).lt (Dy.mk n' (f.unit k)) = decide (f.top < fpSelect c neg k r d) := by
    rw [Bool.eq_iff_iff, Dy.lt_iff, maxDy_number h, number, f.mag_strictMono.lt_iff_lt, decide_eq_true_iff]
  have outside : (maxDy f).lt (Dy.mk m e) = decide (f.mag f.top < m * 2 ^ e) := by
    rw [Bool.eq_iff_iff, Dy.lt_iff, maxDy_number h, value, decide_eq_true_iff]
  have tiny : (Dy.mk n' (f.unit k)).lt (Dy.mk 1 (1 - f.bias)) = decide (fpSelect c neg k r d < 2 ^ f.mb) := by
    have normal : (Dy.mk 1 (1 - f.bias)).number = f.mag (2 ^ f.mb) := by simp [Dy.number, f.mag_normal]
    rw [Bool.eq_iff_iff, Dy.lt_iff, number, normal, f.mag_strictMono.lt_iff_lt, decide_eq_true_iff]
  have zero : n' ≠ 0 ↔ fpSelect c neg k r d ≠ 0 := by
    have : (Dy.mk n' (f.unit k)).number = 0 ↔ f.mag (fpSelect c neg k r d) = f.mag 0 := by rw [number, f.mag_zero]
    rw [Dy.number_eq_zero, f.mag_strictMono.injective.eq_iff] at this
    simpa using not_congr this
  have exponent : max ((Nat.log2 m : Int) + e - f.mb) (1 - f.bias - f.mb) = f.unit k := unit.symm
  unfold roundFp fpOverflow
  simp only [exponent, split, parity, select, large, outside, tiny, code, zero]
  refine if_congr (by simp only [Bool.or_eq_true, Bool.and_eq_true, decide_eq_true_eq]) rfl ?_
  by_cases exact_ : r = 0
  · rw [if_pos exact_, if_pos exact_]
  · rw [if_neg exact_, if_neg exact_]
    simp only [Bool.and_eq_true, decide_eq_true_eq]

/-- A number that a format holds rounds to its own code in every mode, with no flag (R110). -/
theorem roundFp_exact {f : FpSpec} (h : f.Sound) (c : RndCtx) (neg : Bool) {m : Nat} (hm : 0 < m) {e : Int} {k : Nat} (within : k ≤ f.top)
    (eq : (m : ℚ) * 2 ^ e = f.mag k) : roundFp c f neg m e = ⟨f.sign neg + k, 0, []⟩ := by
  obtain ⟨j, r, d, -, rd, about, round⟩ := roundFp_eq h c neg hm e
  have pos := two_zpow_pos (f.unit j)
  have dpos : (0 : ℚ) < d := by exact_mod_cast (Nat.zero_le r).trans_lt rd
  rw [eq] at about
  have low : f.mag j ≤ f.mag k := by
    rw [about, FpSpec.mag]
    exact mul_le_mul_of_nonneg_right (le_add_of_nonneg_right (by positivity)) pos.le
  have high : f.mag k < f.mag (j + 1) := by
    rw [about, f.mag_succ]
    exact mul_lt_mul_of_pos_right (by linarith [(div_lt_one dpos).2 (by exact_mod_cast rd : (r : ℚ) < d)]) pos
  obtain rfl : k = j := by
    have := f.mag_strictMono.le_iff_le.1 low
    have := f.mag_strictMono.lt_iff_lt.1 high
    omega
  have whole : r = 0 := by
    rw [FpSpec.mag, mul_left_inj' pos.ne', left_eq_add, div_eq_zero_iff] at about
    exact_mod_cast about.resolve_right dpos.ne'
  have inside : f.mag k ≤ f.mag f.top := f.mag_strictMono.monotone within
  rw [round, eq, if_neg (by simp [whole, fpSelect, not_lt.2 within, not_lt.2 inside])]
  simp [whole, fpSelect]

/-- A whole number of units of a format, of at most one bit more than its significands have, is one of its magnitudes. -/
theorem FpSpec.exists_mag (f : FpSpec) {n : Nat} {q : Int} (short : n ≤ 2 ^ (f.mb + 1)) (above : f.least ≤ q) : ∃ k, f.mag k = n * 2 ^ q := by
  have of_short {n : Nat} {q : Int} (hn : n < 2 ^ (f.mb + 1)) (above : f.least ≤ q) : ∃ k, f.mag k = n * 2 ^ q := by
    rcases Nat.eq_zero_or_pos n with rfl | pos
    · exact ⟨0, by simp [f.mag_zero]⟩
    · obtain ⟨k, r, d, split, unit, -, eq⟩ := f.exists_floor pos q
      have bits : Nat.log2 n < f.mb + 1 := (Nat.log2_lt pos.ne').2 hn
      have le : f.unit k ≤ q := by omega
      rw [splitAt, if_pos le] at split
      obtain ⟨-, rfl, -⟩ : _ ∧ 0 = r ∧ 1 = d := by simpa using split
      exact ⟨k, by rw [eq, FpSpec.mag]; simp⟩
  rcases Nat.lt_or_ge n (2 ^ (f.mb + 1)) with lt | ge
  · exact of_short lt above
  · obtain rfl : n = 2 ^ (f.mb + 1) := le_antisymm short ge
    obtain ⟨k, eq⟩ := of_short (n := 2 ^ f.mb) (q := q + 1) (Nat.pow_lt_pow_right one_lt_two (by omega)) (by omega)
    refine ⟨k, eq.trans ?_⟩
    rw [zpow_add_one₀ two_ne_zero]
    push_cast
    ring

/-! ### Codes -/

/-- The value of a sign and a finite magnitude code. -/
def FpSpec.val (f : FpSpec) (neg : Bool) (k : Nat) : Val :=
  if k = 0 then .zero neg else .fin neg (f.sig k) (f.unit k)

theorem FpSpec.sig_pos (f : FpSpec) {k : Nat} (hk : k ≠ 0) : 0 < f.sig k := by
  unfold FpSpec.sig
  split <;> omega

theorem FpSpec.number_val (f : FpSpec) (neg : Bool) (k : Nat) : (f.val neg k).dy.number = (if neg then -1 else 1) * f.mag k := by
  unfold FpSpec.val
  split
  · simp_all [Val.dy, Dy.number, f.mag_zero]
  · rw [Val.number_fin, FpSpec.mag]

theorem fpSpec_sound {ty : Nat} {f : FpSpec} (h : fpSpec ty = some f) : f.Sound ∧ tyWidth ty = f.eb + f.mb + 1 := by
  unfold fpSpec at h
  split at h <;> simp only [Option.some.injEq, reduceCtorEq] at h <;> subst h <;> exact ⟨⟨by decide, by decide⟩, rfl⟩

/-- A code is read through its low bits. -/
theorem codeVal_mod (ty code : Nat) : codeVal ty (code % 2 ^ tyWidth ty) = codeVal ty code := by
  rw [codeVal, Nat.mod_mod]
  rfl

section
variable {ty : Nat} {f : FpSpec} (h : fpSpec ty = some f)
include h

theorem codeVal_fp (code : Nat) : codeVal ty code = fpVal ty f (code % 2 ^ (f.eb + f.mb + 1)) := by
  rw [codeVal, ← (fpSpec_sound h).2]
  simp only [h]

/-- A code is a sign and a magnitude code. -/
theorem code_split {code : Nat} (short : code < 2 ^ tyWidth ty) : ∃ neg k, code = f.sign neg + k ∧ k < 2 ^ (f.eb + f.mb) := by
  rw [(fpSpec_sound h).2, pow_succ] at short
  rcases Nat.lt_or_ge code (2 ^ (f.eb + f.mb)) with low | high
  · exact ⟨false, code, by simp [FpSpec.sign], low⟩
  · exact ⟨true, code - 2 ^ (f.eb + f.mb), by simp [FpSpec.sign, high], by omega⟩

/-- The value of a sign and a magnitude code by its exponent and fraction (R99). -/
theorem codeVal_sign_add (neg : Bool) {k : Nat} (hk : k < 2 ^ (f.eb + f.mb)) : codeVal ty (f.sign neg + k) =
    if f.inf = true ∧ k / 2 ^ f.mb = 2 ^ f.eb - 1 then
      if k % 2 ^ f.mb = 0 then .inf neg else if ty = 3 then .nan neg none else .nan neg (some (k % 2 ^ f.mb * 2 ^ (23 - f.mb)))
    else if f.topNan = true ∧ k / 2 ^ f.mb = 2 ^ f.eb - 1 ∧ k % 2 ^ f.mb = 2 ^ f.mb - 1 then .nan neg none
    else f.val neg k := by
  have pos : 0 < 2 ^ f.mb := Nat.two_pow_pos _
  have exponent : k / 2 ^ f.mb < 2 ^ f.eb := Nat.div_lt_of_lt_mul (by rwa [← pow_add, Nat.add_comm])
  have total : 2 ^ (f.eb + f.mb + 1) = 2 * 2 ^ (f.eb + f.mb) := by ring
  have whole : 2 ^ (f.eb + f.mb) = 2 ^ f.mb * 2 ^ f.eb := by ring
  have short : f.sign neg + k < 2 ^ (f.eb + f.mb + 1) := by
    unfold FpSpec.sign
    split <;> omega
  have sign : bit (f.sign neg + k) (f.eb + f.mb) = neg := by
    cases neg
    · simp [bit, FpSpec.sign, Nat.div_eq_of_lt hk]
    · simp [bit, FpSpec.sign, Nat.add_div_left, Nat.div_eq_of_lt hk]
  have high : field (f.sign neg + k) f.mb f.eb = k / 2 ^ f.mb := by
    cases neg
    · simp [field, FpSpec.sign, Nat.mod_eq_of_lt exponent]
    · simp [field, FpSpec.sign, whole, Nat.mul_add_div pos, Nat.mod_eq_of_lt exponent]
  have low : field (f.sign neg + k) 0 f.mb = k % 2 ^ f.mb := by
    cases neg
    · simp [field, FpSpec.sign]
    · simp [field, FpSpec.sign, whole]
  have finite : (if k / 2 ^ f.mb = 0 then if k % 2 ^ f.mb = 0 then Val.zero neg else .fin neg (k % 2 ^ f.mb) (1 - f.bias - f.mb)
      else .fin neg (2 ^ f.mb + k % 2 ^ f.mb) ((k / 2 ^ f.mb : Nat) - f.bias - f.mb)) = f.val neg k := by
    unfold FpSpec.val FpSpec.sig FpSpec.unit FpSpec.least
    rcases Nat.lt_or_ge k (2 ^ f.mb) with lt | ge
    · rw [Nat.div_eq_of_lt lt, Nat.mod_eq_of_lt lt]
      simp [lt]
    · have one : 1 ≤ k / 2 ^ f.mb := (Nat.one_le_div_iff pos).2 ge
      rw [if_neg (by omega), if_neg (by omega), if_neg (by omega)]
      congr 1
      omega
  rw [codeVal_fp h, Nat.mod_eq_of_lt short, fpVal]
  simp only [sign, high, low, finite, Bool.and_eq_true, beq_iff_eq, and_assoc]

/-- A finite magnitude code is its number with the sign. -/
theorem codeVal_finite (neg : Bool) {k : Nat} (within : k ≤ f.top) : codeVal ty (f.sign neg + k) = f.val neg k := by
  have sound := (fpSpec_sound h).1
  have short := within.trans_lt (FpSpec.top_bounds sound).2
  have top := f.top_add sound
  have decompose := Nat.div_add_mod' k (2 ^ f.mb)
  have last := f.last_exponent_iff short
  rw [codeVal_sign_add h neg short, if_neg, if_neg]
  · rintro ⟨nan, exponent, fraction⟩
    have := last.1 exponent
    rw [exponent, f.last_exponent, fraction] at decompose
    cases inf : f.inf <;> simp only [inf, nan, if_true, if_false, Bool.false_eq_true] at top <;> omega
  · rintro ⟨inf, exponent⟩
    have := last.1 exponent
    simp only [inf, if_true] at top
    omega

/-- A magnitude code above the largest finite one is the infinity, where the format has one, or a NaN. -/
theorem codeVal_above (neg : Bool) {k : Nat} (above : f.top < k) (short : k < 2 ^ (f.eb + f.mb)) : codeVal ty (f.sign neg + k) =
    if f.inf = true ∧ k = f.top + 1 then .inf neg
    else .nan neg (if f.inf = true ∧ ty ≠ 3 then some (k % 2 ^ f.mb * 2 ^ (23 - f.mb)) else none) := by
  have top := f.top_add (fpSpec_sound h).1
  have decompose := Nat.div_add_mod' k (2 ^ f.mb)
  have last := f.last_exponent_iff short
  have room : 2 ^ f.mb ≤ 2 ^ (f.eb + f.mb) := Nat.pow_le_pow_right two_pos (Nat.le_add_left _ _)
  have pos : 0 < 2 ^ f.mb := Nat.two_pow_pos _
  rw [codeVal_sign_add h neg short]
  cases inf : f.inf with
  | true =>
    simp only [inf, if_true] at top
    have exponent := last.2 (by omega)
    rw [exponent, f.last_exponent] at decompose
    have first : k % 2 ^ f.mb = 0 ↔ k = f.top + 1 := by omega
    simp only [exponent, first, and_self, if_true, true_and]
    by_cases five : ty = 3 <;> simp [five]
  | false =>
    simp only [inf, Bool.false_eq_true, if_false] at top
    cases nan : f.topNan with
    | true =>
      simp only [nan, if_true] at top
      have two : 2 ≤ 2 ^ f.mb := by simpa using Nat.pow_le_pow_right two_pos (fpSpec_sound h).1.fraction
      have exponent := last.2 (by omega)
      rw [exponent, f.last_exponent] at decompose
      have fraction : k % 2 ^ f.mb = 2 ^ f.mb - 1 := by omega
      simp [exponent, fraction]
    | false =>
      simp only [nan, Bool.false_eq_true, if_false] at top
      omega

/-- A code is a number of its format just where its magnitude code is at most the largest one. -/
theorem isFinite_sign_add (neg : Bool) {k : Nat} (short : k < 2 ^ (f.eb + f.mb)) : isFinite ty (f.sign neg + k) ↔ k ≤ f.top := by
  rcases Nat.lt_or_ge f.top k with above | within
  · refine iff_of_false ?_ (not_le.2 above)
    rw [isFinite, codeVal_above h neg above short]
    split <;> simp [Val.isNan, Val.isInf]
  · refine iff_of_true ?_ within
    rw [isFinite, codeVal_finite h neg within, FpSpec.val]
    split <;> simp [Val.isNan, Val.isInf]

/-- The number of a finite code. -/
theorem numberOf_sign_add (neg : Bool) {k : Nat} (within : k ≤ f.top) : numberOf ty (f.sign neg + k) = (if neg then -1 else 1) * f.mag k := by
  rw [← f.number_val, ← codeVal_finite h neg within]
  rfl

/-- Every number of a format is a finite magnitude with a sign. -/
theorem exists_mag_of_isFinite {code : Nat} (finite : isFinite ty code) : ∃ k ≤ f.top, |numberOf ty code| = f.mag k := by
  have read := codeVal_mod ty code
  obtain ⟨neg, k, eq, short⟩ := code_split h (Nat.mod_lt code (Nat.two_pow_pos (tyWidth ty)))
  rw [eq] at read
  have within : k ≤ f.top := (isFinite_sign_add h neg short).1 (by rwa [isFinite, read])
  refine ⟨k, within, ?_⟩
  have number : numberOf ty code = numberOf ty (f.sign neg + k) := by rw [numberOf, numberOf, read]
  rw [number, numberOf_sign_add h neg within]
  cases neg <;> simp [abs_of_nonneg (f.mag_nonneg k)]

/-- The code of an infinity follows the largest magnitude. -/
theorem infCode_eq (neg : Bool) (inf : f.inf = true) : infCode f neg = f.sign neg + (f.top + 1) := by
  have top := f.top_add (fpSpec_sound h).1
  have room : 2 ^ f.mb ≤ 2 ^ (f.eb + f.mb) := Nat.pow_le_pow_right two_pos (Nat.le_add_left _ _)
  simp only [inf, if_true] at top
  unfold infCode FpSpec.sign
  rw [f.last_exponent]
  omega

end

/-- A code of a floating-point format that is a zero or a nonzero number: its magnitude code. -/
theorem magnitude_of_isFinite {ty : Nat} {f : FpSpec} (h : fpSpec ty = some f) {k : Nat} (short : k < 2 ^ tyWidth ty) (finite : isFinite ty k) :
    ∃ neg j, k = f.sign neg + j ∧ j ≤ f.top ∧ codeVal ty k = f.val neg j ∧ numberOf ty k = (if neg then -1 else 1) * f.mag j := by
  obtain ⟨neg, j, rfl, hj⟩ := code_split h short
  have within := (isFinite_sign_add h neg hj).1 finite
  exact ⟨neg, j, rfl, within, codeVal_finite h neg within, numberOf_sign_add h neg within⟩

theorem FpSpec.isNeg_val (f : FpSpec) (neg : Bool) (k : Nat) : (f.val neg k).isNeg = neg := by
  unfold FpSpec.val
  split <;> rfl

theorem FpSpec.sig_lt (f : FpSpec) (k : Nat) : f.sig k < 2 ^ (f.mb + 1) := by
  have small := Nat.mod_lt k (Nat.two_pow_pos f.mb)
  rw [pow_succ]
  unfold FpSpec.sig
  split <;> omega

end Sys2Proof.Machine
end
section
/-! Every value of a format rounds to its own code (R99, R101, R104, R110). -/

namespace Sys2Proof.Machine

/-! ### Floating-point formats -/

section
variable {ty : Nat} {f : FpSpec} (h : fpSpec ty = some f)
include h

theorem fpSpec_ne_bin : ty ≠ 19 := by
  rintro rfl
  simp [fpSpec] at h

theorem roundVal_fin_fp (c : RndCtx) (neg : Bool) (m : Nat) (e : Int) : roundVal c ty (.fin neg m e) = roundFp c f neg m e := by
  simp only [roundVal, if_neg (fpSpec_ne_bin h), h]

theorem roundVal_zero_fp (c : RndCtx) (neg : Bool) : roundVal c ty (.zero neg) = ⟨f.sign neg, 0, []⟩ := by
  simp only [roundVal, if_neg (fpSpec_ne_bin h), h, FpSpec.sign]

theorem roundVal_inf_fp {c : RndCtx} (inf : f.inf = true) (wide : c.narrow = false) (neg : Bool) :
    roundVal c ty (.inf neg) = ⟨f.sign neg + (f.top + 1), 0, []⟩ := by
  simp [roundVal, fpSpec_ne_bin h, h, inf, wide, infCode_eq h neg inf]

/-- A number of a format, whatever significand and exponent give it, rounds to its code. -/
theorem roundVal_fin_exact (c : RndCtx) (neg : Bool) {m : Nat} (hm : 0 < m) {e : Int} {k : Nat} (within : k ≤ f.top)
    (eq : (m : ℚ) * 2 ^ e = f.mag k) : roundVal c ty (.fin neg m e) = ⟨f.sign neg + k, 0, []⟩ :=
  (roundVal_fin_fp h c neg m e).trans (roundFp_exact (fpSpec_sound h).1 c neg hm within eq)

theorem roundVal_val (c : RndCtx) (neg : Bool) {k : Nat} (within : k ≤ f.top) : roundVal c ty (f.val neg k) = ⟨f.sign neg + k, 0, []⟩ := by
  rcases Nat.eq_zero_or_pos k with rfl | pos
  · exact roundVal_zero_fp h c neg
  · rw [FpSpec.val, if_neg pos.ne']
    exact roundVal_fin_exact h c neg (f.sig_pos pos.ne') within rfl

theorem roundVal_codeVal_fp (c : RndCtx) {code : Nat} (short : code < 2 ^ tyWidth ty) (number : (codeVal ty code).isNan = false)
    (wide : (codeVal ty code).isInf = true → c.narrow = false) : roundVal c ty (codeVal ty code) = ⟨code, 0, []⟩ := by
  obtain ⟨neg, k, rfl, hk⟩ := code_split h short
  rcases Nat.lt_or_ge f.top k with above | within
  · have value := codeVal_above h neg above hk
    split at value
    · rename_i inf
      obtain ⟨inf, rfl⟩ := inf
      rw [value] at wide ⊢
      exact roundVal_inf_fp h inf (wide rfl) neg
    · rw [value] at number
      exact absurd number (by simp [Val.isNan])
  · rw [codeVal_finite h neg within, roundVal_val h c neg within]

end

/-- An integer that a format holds rounds to its own code. -/
theorem roundVal_ofInt {ty : Nat} {f : FpSpec} (h : fpSpec ty = some f) (c : RndCtx) {y : Int} {k : Nat} (within : k ≤ f.top)
    (eq : ((y.natAbs : Nat) : ℚ) = f.mag k) : roundVal c ty (.ofInt y) = ⟨f.sign (decide (y < 0)) + k, 0, []⟩ := by
  by_cases zero : y = 0
  · subst zero
    have : k = 0 := f.mag_strictMono.injective (by rw [← eq, f.mag_zero]; rfl)
    subst this
    exact roundVal_zero_fp h c false
  · rw [Val.ofInt, Dy.val, if_neg zero]
    exact roundVal_fin_exact h c _ (Int.natAbs_pos.2 zero) within (by rw [← eq]; simp)

/-! ### L formats -/

/-- The number of an exponent code of an L format. -/
def logMag (ty k : Nat) : Dy :=
  if k = 0 then ⟨0, 0⟩ else logDy ty ((k : Int) - logBias ty)

/-- Of strictly rising numbers, the last one that is not above the j-th is the j-th. -/
theorem foldl_last_le {mag : Nat → Dy} {n : Nat} (rises : ∀ k < n, (mag k).lt (mag (k + 1)) = true) {j : Nat} (hj : j ≤ n) :
    (List.range (n + 1)).foldl (fun acc k => if (mag j).lt (mag k) then acc else k) 0 = j := by
  have mono : StrictMonoOn (fun k => (mag k).number) (Set.Icc 0 n) := by
    refine strictMonoOn_of_lt_succ Set.ordConnected_Icc fun k _ _ hk => ?_
    exact (Dy.lt_iff _ _).1 (rises k (by simpa using hk.2))
  have upTo (N : Nat) (hN : N ≤ n + 1) : (List.range N).foldl (fun acc k => if (mag j).lt (mag k) then acc else k) 0 = min (N - 1) j := by
    induction N with
    | zero => simp
    | succ N ih =>
      have below : (mag j).lt (mag N) = true ↔ j < N := by
        rw [Dy.lt_iff]
        exact mono.lt_iff_lt ⟨Nat.zero_le _, hj⟩ ⟨Nat.zero_le _, by omega⟩
      rw [List.range_succ, List.foldl_append, ih (by omega), List.foldl_cons, List.foldl_nil]
      by_cases lt : j < N
      · rw [if_pos (below.2 lt)]
        omega
      · rw [if_neg (mt below.1 lt)]
        omega
  rw [upTo (n + 1) le_rfl]
  omega

/-- The table of R104 rises, for both L formats. -/
theorem logMag_rises {ty : Nat} (h : ty = 9 ∨ ty = 10) : ∀ k < logCodes ty, (logMag ty k).lt (logMag ty (k + 1)) = true := by
  rcases h with rfl | rfl <;> decide +kernel

theorem logMag_pos {ty : Nat} (h : ty = 9 ∨ ty = 10) : ∀ k < logCodes ty, 0 ≤ (logMag ty k).m := by
  rcases h with rfl | rfl <;> decide +kernel

/-- The exponent code of the largest magnitude of an L format that is not above a number. -/
def logFloor (ty : Nat) (x : Dy) : Nat :=
  (List.range (logCodes ty + 1)).foldl (fun acc k => if x.lt (logMag ty k) then acc else k) 0

theorem roundLog_of_eq {ty m : Nat} {e : Int} (held : ((logMag ty (logFloor ty ⟨m, e⟩)).eq ⟨m, e⟩ && decide (logFloor ty ⟨m, e⟩ ≤ logCodes ty - 1)) = true)
    (c : RndCtx) (neg : Bool) : roundLog c ty neg m e = ⟨(if neg then logCodes ty else 0) + logFloor ty ⟨m, e⟩, 0, []⟩ :=
  if_pos held

theorem roundLog_logMag {ty : Nat} (h : ty = 9 ∨ ty = 10) (c : RndCtx) (neg : Bool) {k : Nat} (hk : k < logCodes ty) :
    roundLog c ty neg (logMag ty k).m.toNat (logMag ty k).e = ⟨(if neg then logCodes ty else 0) + k, 0, []⟩ := by
  have same : Dy.mk (logMag ty k).m.toNat (logMag ty k).e = logMag ty k := by rw [Int.toNat_of_nonneg (logMag_pos h k hk)]
  have floor : logFloor ty (logMag ty k) = k := foldl_last_le (logMag_rises h) hk.le
  have last : k ≤ logCodes ty - 1 := by omega
  rw [roundLog_of_eq (by rw [same, floor, (Dy.eq_iff _ _).2 rfl, decide_eq_true last]; rfl), same, floor]

/-- The value of a sign and an exponent code of an L format (R104). -/
theorem codeVal_log {ty : Nat} (h : ty = 9 ∨ ty = 10) (neg : Bool) {k : Nat} (hk : k < logCodes ty) :
    codeVal ty ((if neg then logCodes ty else 0) + k) =
      if k = 0 then (if neg then .nan false none else .zero false) else .fin neg (logMag ty k).m.toNat (logMag ty k).e := by
  have facts : fpSpec ty = none ∧ 2 ^ tyWidth ty = 2 * logCodes ty := by rcases h with rfl | rfl <;> decide
  have short : (if neg then logCodes ty else 0) + k < 2 * logCodes ty := by split <;> omega
  have sign : decide (logCodes ty ≤ (if neg then logCodes ty else 0) + k) = neg := by cases neg <;> simp [hk]
  have rest : ((if neg then logCodes ty else 0) + k) % logCodes ty = k := by cases neg <;> simp [Nat.mod_eq_of_lt hk]
  rw [codeVal, facts.2, Nat.mod_eq_of_lt short]
  simp only [facts.1, if_pos h, logVal, Nat.mod_eq_of_lt short, sign, rest]
  split
  · rfl
  · rename_i pos
    rw [logMag, if_neg pos]

theorem roundVal_codeVal_log {ty : Nat} (h : ty = 9 ∨ ty = 10) (c : RndCtx) {code : Nat} (short : code < 2 ^ tyWidth ty)
    (number : (codeVal ty code).isNan = false) : roundVal c ty (codeVal ty code) = ⟨code, 0, []⟩ := by
  have facts : fpSpec ty = none ∧ ty ≠ 19 ∧ 2 ^ tyWidth ty = 2 * logCodes ty := by rcases h with rfl | rfl <;> decide
  obtain ⟨fp, notBin, width⟩ := facts
  obtain ⟨neg, k, rfl, hk⟩ : ∃ (neg : Bool) (k : Nat), code = (if neg then logCodes ty else 0) + k ∧ k < logCodes ty := by
    rcases Nat.lt_or_ge code (logCodes ty) with low | high
    · exact ⟨false, code, by simp, low⟩
    · exact ⟨true, code - logCodes ty, by simp [high], by omega⟩
  rw [codeVal_log h neg hk] at number ⊢
  rcases Nat.eq_zero_or_pos k with rfl | pos
  · cases neg
    · simp [roundVal, notBin, fp]
    · exact absurd number (by simp [Val.isNan])
  · rw [if_neg pos.ne']
    simp only [roundVal, if_neg notBin, fp, if_pos h, roundLog_logMag h c neg hk]

/-! ### Integer formats -/

/-- An integer in the range of an integer format rounds to its code, whatever the mode (R101, R110). -/
theorem roundToInt_int {ty : Nat} {lo hi v : Int} (c : RndCtx) (low : lo ≤ v) (high : v ≤ hi) :
    roundToInt c ty lo hi (decide (v < 0)) v.natAbs 0 = ⟨intCode ty v, 0, []⟩ := by
  have magnitude : (if decide (v < 0) then -(v.natAbs : Int) else v.natAbs) = v := by
    simp only [decide_eq_true_eq]
    split <;> omega
  have value : roundInt c (decide (v < 0)) v.natAbs 0 = (v, false) := by
    have split : splitAt v.natAbs 0 0 = (v.natAbs, 0, 1) := by simp [splitAt, pow2]
    simp only [roundInt, split, ne_eq, not_true_eq_false, false_and, if_false, magnitude]
    rfl
  have above : (Dy.mk v 0).lt ⟨lo, 0⟩ = false := by
    rw [← Bool.not_eq_true, Dy.lt_iff, Dy.number_int, Dy.number_int]
    exact_mod_cast not_lt.2 low
  have below : (Dy.mk hi 0).lt ⟨v, 0⟩ = false := by
    rw [← Bool.not_eq_true, Dy.lt_iff, Dy.number_int, Dy.number_int]
    exact_mod_cast not_lt.2 high
  have unsigned : ¬(lo = 0 ∧ decide (v < 0) = true) := by
    rw [decide_eq_true_eq]
    omega
  have range : ¬(v < lo ∨ hi < v ∨ (Dy.mk v 0).lt ⟨lo, 0⟩ = true ∨ (Dy.mk hi 0).lt ⟨v, 0⟩ = true) := by
    simp [above, below, low, high]
  unfold roundToInt
  simp only [value, magnitude, if_neg unsigned, if_neg range, Bool.false_eq_true, if_false]

/-- An integer format's code is its value in two's complement, or unsigned. -/
theorem roundVal_codeVal_int {ty : Nat} (h : 11 ≤ ty ∧ ty ≤ 17) (c : RndCtx) {code : Nat} (short : code < 2 ^ tyWidth ty) :
    roundVal c ty (codeVal ty code) = ⟨code, 0, []⟩ := by
  obtain ⟨lo, hi, range, ends⟩ : ∃ lo hi, intRange ty = some (lo, hi) ∧
      (lo = 0 ∧ hi = 2 ^ tyWidth ty - 1 ∨ lo = -2 ^ (tyWidth ty - 1) ∧ hi = 2 ^ (tyWidth ty - 1) - 1) := by
    obtain ⟨h1, h2⟩ := h
    interval_cases ty <;> exact ⟨_, _, rfl, by decide⟩
  have others : ¬(ty = 9 ∨ ty = 10) ∧ ty ≠ 18 ∧ ty ≠ 19 ∧ ty ≠ 26 := by omega
  have fp : fpSpec ty = none ∧ tyWidth ty ≠ 0 := by
    obtain ⟨h1, h2⟩ := h
    interval_cases ty <;> exact ⟨rfl, by decide⟩
  obtain ⟨v, hv⟩ : ∃ v, (if lo < 0 then signedOf (tyWidth ty) code else (code : Int)) = v := ⟨_, rfl⟩
  have value : codeVal ty code = (Dy.mk v 0).val false := by
    rw [codeVal, Nat.mod_eq_of_lt short, ← hv]
    simp only [fp.1, if_neg others.1, if_neg others.2.1, if_neg others.2.2.1, if_neg others.2.2.2, range]
    rfl
  obtain ⟨low, high, back⟩ : lo ≤ v ∧ v ≤ hi ∧ intCode ty v = code := by
    obtain ⟨w, hw⟩ := Nat.exists_eq_succ_of_ne_zero fp.2
    have half : (2 : Int) ^ (w + 1) = 2 * 2 ^ w := by ring
    have pos : (0 : Int) < 2 ^ w := by positivity
    rw [hw] at short
    have bound : (code : Int) < 2 ^ (w + 1) := by exact_mod_cast short
    simp only [signedOf, intCode, wrap, hw, Nat.mod_eq_of_lt short, Nat.succ_eq_add_one, Nat.add_sub_cancel] at hv ends ⊢
    push_cast at hv ⊢
    subst hv
    have lowHalf : code < 2 ^ w ↔ (code : Int) < 2 ^ w := by exact_mod_cast Iff.rfl
    rcases ends with ⟨rfl, rfl⟩ | ⟨rfl, rfl⟩
    · rw [if_neg (lt_irrefl _), Int.emod_eq_of_lt (Int.natCast_nonneg _) bound]
      omega
    · rw [if_pos (by omega)]
      simp only [lowHalf]
      split
      · rw [Int.emod_eq_of_lt (Int.natCast_nonneg _) bound]
        omega
      · rw [Int.sub_emod_right, Int.emod_eq_of_lt (Int.natCast_nonneg _) bound]
        omega
  rw [value, Dy.val]
  by_cases zero : v = 0
  · subst zero
    rw [if_pos rfl, ← back]
    simp [roundVal, others.2.2.1, fp.1, intCode, wrap]
  · rw [if_neg zero]
    simp only [roundVal, if_neg others.2.2.1, fp.1, if_neg others.1, range, roundToInt_int c low high, back]

/-- Settles O15: floating-point, L and integer formats in turn. -/
theorem valuesRoundToThemselves : Obligations.ValuesRoundToThemselves := by
  intro c ty hty code short number wide
  rcases Nat.lt_or_ge ty 9 with fp | other
  · obtain ⟨f, h⟩ : ∃ f, fpSpec ty = some f := by interval_cases ty <;> exact ⟨_, rfl⟩
    exact roundVal_codeVal_fp h c short number wide
  · by_cases log : ty = 9 ∨ ty = 10
    · exact roundVal_codeVal_log log c short number
    · refine roundVal_codeVal_int ⟨by omega, ?_⟩ c short
      simp only [List.mem_cons, List.not_mem_nil, or_false] at hty
      omega

end Sys2Proof.Machine
end
section
/-! SUPPORT. NaNs of FP32, FP16 and BF16: the quietened operand, the NaN that an invalid operation creates (R116 to R118). -/

namespace Sys2Proof.Machine

theorem bit_eq_testBit (n i : Nat) : bit n i = n.testBit i := by
  rw [bit, Nat.testBit_eq_decide_div_mod_eq]
  rfl

/-! ### Created NaNs -/

theorem originHash_lt (pc fid : Nat) : originHash pc fid < 2 ^ 21 := by
  have bound : mix64 (pc * 1024 + fid) < 2 ^ 64 := BitVec.isLt _
  unfold originHash
  omega

theorem nanCode_quiet {c : RndCtx} {neg : Bool} {frac : Nat} (quiet : bit frac 22 = true) :
    nanCode c 0 neg (some frac) = (if neg then 1 else 0) * 2 ^ 31 + 0x7F800000 + frac := by
  simp only [nanCode]
  rw [if_pos quiet]

theorem nanCode_origin (c : RndCtx) (neg : Bool) : nanCode c 0 neg (some (originFrac c.pc c.fid)) =
    (if neg then 2 ^ 31 else 0) + 0x7FE00000 + mix64 (c.pc * 1024 + c.fid) / 2 ^ 43 := by
  have small := originHash_lt c.pc c.fid
  have quiet : bit (originFrac c.pc c.fid) 22 = true := by
    simp only [bit, originFrac, beq_iff_eq]
    omega
  rw [nanCode_quiet quiet, originFrac, originHash]
  split <;> ring

/-- The result of an invalid operation in FP32 (R117). -/
theorem invalidRes_eq (c : RndCtx) : (⟨nanCode c 0 false (some (originFrac c.pc c.fid)), flgNV, [1]⟩ : NumRes) = invalidRes c 0 := by
  rw [nanCode_origin, if_neg Bool.false_ne_true, zero_add]
  rfl

/-! ### Operand NaNs -/

/-- The number of a format's quiet bit. -/
def quietBit (ty : Nat) : Nat :=
  if ty = 0 then 22 else if ty = 1 then 9 else 6

/-- What FP32, FP16 and BF16 have in common: infinities, NaNs with payloads, the quiet bit at the top of the fraction. -/
theorem fpSpec_small {ty : Nat} (h : ty ≤ 2) : ∃ f, fpSpec ty = some f ∧ f.inf = true ∧ 2 ≤ f.mb ∧ f.mb ≤ 23 ∧ quietBit ty = f.mb - 1 ∧
    ∀ c neg frac, nanCode c ty neg (some frac) =
      f.sign neg + (2 ^ f.eb - 1) * 2 ^ f.mb + (if bit frac 22 then frac else frac + 2 ^ 22) / 2 ^ (23 - f.mb) := by
  interval_cases ty
  all_goals
    refine ⟨_, rfl, rfl, by decide, by decide, rfl, fun c neg frac => ?_⟩
    cases neg <;> simp [nanCode, FpSpec.sign]

theorem FpSpec.sign_mod (f : FpSpec) (neg : Bool) (k : Nat) : (f.sign neg + k) % 2 ^ f.mb = k % 2 ^ f.mb := by
  cases neg
  · simp [FpSpec.sign]
  · simp [FpSpec.sign, pow_add]

/-- A NaN code carries a payload, whose quiet and marker bits are those of the code; rounded to its own format it is quietened. -/
theorem codeVal_nan {ty k : Nat} (h : ty ≤ 2) (short : k < 2 ^ tyWidth ty) (nan : (codeVal ty k).isNan = true) :
    ∃ neg frac, codeVal ty k = .nan neg (some frac) ∧ bit frac 22 = k.testBit (quietBit ty) ∧ bit frac 21 = k.testBit (quietBit ty - 1) ∧
      ∀ c, nanCode c ty neg (some frac) = quietCode ty k := by
  obtain ⟨f, hf, inf, two, wide, quiet, code⟩ := fpSpec_small h
  obtain ⟨neg, j, rfl, hj⟩ := code_split hf short
  have above : f.top < j := by
    by_contra within
    rw [codeVal_finite hf neg (not_lt.1 within), FpSpec.val] at nan
    split at nan <;> simp [Val.isNan] at nan
  have value := codeVal_above hf neg above hj
  split at value
  · simp [value, Val.isNan] at nan
  rw [if_pos ⟨inf, by omega⟩, ← f.sign_mod neg] at value
  have top := f.top_add (fpSpec_sound hf).1
  have last := (f.last_exponent_iff hj).2 (by simp only [inf, if_true] at top; omega)
  have decompose : f.sign neg + j = f.sign neg + (2 ^ f.eb - 1) * 2 ^ f.mb + (f.sign neg + j) % 2 ^ f.mb := by
    rw [f.sign_mod, ← last, add_assoc, Nat.div_add_mod']
  generalize f.sign neg + j = k at *
  have payload (i : Nat) (hi : 23 - f.mb ≤ i) (hi' : i < 23) :
      bit (k % 2 ^ f.mb * 2 ^ (23 - f.mb)) i = k.testBit (i + f.mb - 23) := by
    rw [bit_eq_testBit, Nat.testBit_mul_two_pow, Nat.testBit_mod_two_pow]
    have e : i - (23 - f.mb) = i + f.mb - 23 := by omega
    have lt : i + f.mb - 23 < f.mb := by omega
    simp [hi, e, lt]
  have quiet22 := payload 22 (by omega) (by omega)
  have marker21 := payload 21 (by omega) (by omega)
  rw [show 22 + f.mb - 23 = quietBit ty by omega] at quiet22
  rw [show 21 + f.mb - 23 = quietBit ty - 1 by omega] at marker21
  refine ⟨neg, _, value, quiet22, marker21, fun c => ?_⟩
  rw [code, quiet22]
  change _ = if k.testBit (quietBit ty) then k else k + 2 ^ quietBit ty
  have pos : 0 < 2 ^ (23 - f.mb) := Nat.two_pow_pos _
  split
  · rw [Nat.mul_div_cancel _ pos, ← decompose]
  · have unit : 2 ^ 22 = 2 ^ quietBit ty * 2 ^ (23 - f.mb) := by
      rw [← pow_add]
      congr 1
      omega
    rw [unit, ← Nat.add_mul, Nat.mul_div_cancel _ pos, ← Nat.add_assoc, ← decompose]

/-- A NaN code signals where its quiet bit is clear. -/
theorem isSnan_codeVal {ty k : Nat} (h : ty ≤ 2) (short : k < 2 ^ tyWidth ty) (nan : (codeVal ty k).isNan = true) :
    (codeVal ty k).isSnan = !k.testBit (quietBit ty) := by
  obtain ⟨neg, frac, value, quiet, -, -⟩ := codeVal_nan h short nan
  rw [value, ← quiet]
  rfl

theorem roundVal_nan_code {ty : Nat} (h : ty ≤ 2) (c : RndCtx) (neg : Bool) (frac : Option Nat) :
    (roundVal c ty (.nan neg frac)).code = nanCode c ty neg frac := by
  have notBin : ty ≠ 19 := by omega
  have nans : hasNan ty = true := by simp [hasNan]; omega
  simp [roundVal, notBin, nans]

/-- A NaN rounded to its own format (R118). -/
theorem roundVal_nan {ty k : Nat} (h : ty ≤ 2) (short : k < 2 ^ tyWidth ty) (nan : (codeVal ty k).isNan = true) (c : RndCtx) :
    roundVal c ty (codeVal ty k) = nanRes (quietCode ty k) [codeVal ty k] := by
  obtain ⟨neg, frac, value, -, -, code⟩ := codeVal_nan h short nan
  have notBin : ty ≠ 19 := by omega
  have nans : hasNan ty = true := by simp [hasNan]; omega
  rw [value, ← code c]
  simp [roundVal, notBin, nans, nanRes]

/-- A NaN operand alone: quietened where it signals, with NV and a record (R118). -/
theorem nanRes_quietCode {ty k : Nat} (h : ty ≤ 2) (short : k < 2 ^ tyWidth ty) (nan : (codeVal ty k).isNan = true) :
    nanRes (quietCode ty k) [codeVal ty k] = if (codeVal ty k).isSnan then ⟨k + 2 ^ quietBit ty, flgNV, [1]⟩ else ⟨k, 0, []⟩ := by
  have signals := isSnan_codeVal h short nan
  have quiet : quietCode ty k = if k.testBit (quietBit ty) then k else k + 2 ^ quietBit ty := rfl
  rw [nanRes, quiet]
  cases set : k.testBit (quietBit ty) <;> simp [signals, set]

end Sys2Proof.Machine
end
section
/-! SUPPORT. The correctly rounded SFU functions: an exact result known to a whole number of fine units and a sticky bit is rounded to a nearest
FP32 value (R152 to R154). -/

namespace Sys2Proof.Machine

/-! ### FP32 -/

/-- FP32. -/
def fp32 : FpSpec :=
  ⟨8, 23, 127, true, false⟩

theorem fpSpec_fp32 : fpSpec 0 = some fp32 := rfl

theorem fp32_sound : fp32.Sound :=
  ⟨by decide, by decide⟩

theorem fp32_top : fp32.top = 0x7F7FFFFF := by
  decide

theorem fp32_sign (neg : Bool) : fp32.sign neg = if neg then 2 ^ 31 else 0 := rfl

/-- The largest FP32 value, and what follows it. -/
theorem fp32_sig_top : (fp32.sig fp32.top, fp32.unit fp32.top) = (2 ^ 24 - 1, 104) := by
  decide

/-- Rounding to nearest with ties to even, outside an instruction. -/
def rne : RndCtx :=
  ⟨0, 0, 0, 0, 0, false⟩

/-! ### Sticky bits -/

/-- A number whose whole units are known, with whether it has a fraction of one besides. -/
structure Sticky (q : Nat) (sticky : Bool) (e : Int) (t : ℝ) : Prop where
  low : q * 2 ^ e ≤ t
  high : t < (q + 1) * 2 ^ e
  exact_iff : sticky = false ↔ q * 2 ^ e = t

/-- A number and its stand-in with the sticky bit as a half compare alike with whole numbers of units. -/
theorem Sticky.compare {q : Nat} {sticky : Bool} {e : Int} {t : ℝ} (h : Sticky q sticky e t) (n : Nat) :
    ((n : ℝ) * 2 ^ e ≤ t ↔ 2 * n ≤ 2 * q + sticky.toNat) ∧ (t ≤ n * 2 ^ e ↔ 2 * q + sticky.toNat ≤ 2 * n) := by
  obtain ⟨low, high, exact_iff⟩ := h
  have scale {a b : Nat} (le : a ≤ b) : (a : ℝ) * 2 ^ e ≤ b * 2 ^ e := mul_le_mul_of_nonneg_right (by exact_mod_cast le) (by positivity)
  have next : ((q + 1 : Nat) : ℝ) * 2 ^ e = (q + 1) * 2 ^ e := by push_cast; rfl
  have bit : sticky.toNat ≤ 1 := Bool.toNat_le sticky
  rcases lt_trichotomy n q with lt | rfl | gt
  · have below : (n : ℝ) * 2 ^ e < q * 2 ^ e := mul_lt_mul_of_pos_right (by exact_mod_cast lt) (by positivity)
    exact ⟨iff_of_true (below.le.trans low) (by omega), iff_of_false (by linarith) (by omega)⟩
  · refine ⟨iff_of_true low (by omega), ⟨fun le => ?_, fun le => ?_⟩⟩
    · rw [exact_iff.2 (le_antisymm low le)]
      exact le_rfl
    · exact (exact_iff.1 (Bool.toNat_eq_zero.1 (by omega))).ge
  · have := scale (Nat.succ_le_of_lt gt)
    exact ⟨iff_of_false (by linarith) (by omega), iff_of_true (by linarith) (by omega)⟩

/-- Half a unit above an FP32 magnitude: where rounding to nearest changes over to the next one. -/
noncomputable def fp32Mid (k : Nat) : ℝ :=
  (2 * fp32.sig k + 1) * 2 ^ (fp32.unit k - 1)

theorem fp32Mid_eq (k : Nat) : 2 * fp32Mid k = fp32.mag k + fp32.mag (k + 1) := by
  rw [fp32Mid, fp32.mag_succ, FpSpec.mag, zpow_sub_one₀ two_ne_zero]
  push_cast
  ring

theorem fp32Mid_top : fp32Mid fp32.top = 2 ^ 128 - 2 ^ 103 := by
  obtain ⟨sig, unit⟩ := Prod.mk.inj fp32_sig_top
  rw [fp32Mid, sig, unit]
  norm_num

/-- What rounding to nearest with ties to even selects of the two magnitudes about a number (R110). -/
def Nearest (t : ℝ) (k : Nat) : Prop :=
  ∃ j, fp32.mag j ≤ t ∧ t < fp32.mag (j + 1) ∧
    (k = j ∧ t ≤ fp32Mid j ∧ (t = fp32Mid j → j % 2 = 0) ∨ k = j + 1 ∧ fp32Mid j ≤ t ∧ (t = fp32Mid j → j % 2 = 1))

theorem fp32_mag_mono {j k : Nat} (h : j ≤ k) : (fp32.mag j : ℝ) ≤ fp32.mag k := by
  exact_mod_cast fp32.mag_strictMono.monotone h

/-- No FP32 magnitude is nearer. -/
theorem Nearest.le {t : ℝ} {k : Nat} (h : Nearest t k) (i : Nat) : |(fp32.mag k : ℝ) - t| ≤ |(fp32.mag i : ℝ) - t| := by
  obtain ⟨j, low, high, side⟩ := h
  have mid := fp32Mid_eq j
  have near : |(fp32.mag k : ℝ) - t| ≤ t - fp32.mag j ∧ |(fp32.mag k : ℝ) - t| ≤ fp32.mag (j + 1) - t := by
    rcases side with ⟨rfl, side, -⟩ | ⟨rfl, side, -⟩
    · rw [abs_of_nonpos (by linarith)]
      constructor <;> linarith
    · rw [abs_of_pos (by linarith)]
      constructor <;> linarith
  rcases Nat.lt_or_ge j i with above | below
  · have := fp32_mag_mono (Nat.succ_le_of_lt above)
    exact near.2.trans ((by linarith : _ ≤ (fp32.mag i : ℝ) - t).trans (le_abs_self _))
  · have := fp32_mag_mono below
    exact near.1.trans ((by linarith : _ ≤ -((fp32.mag i : ℝ) - t)).trans (neg_le_abs _))

/-- Rounding to nearest leaves the range of FP32 from half a unit above the largest value on (R113). -/
theorem Nearest.top_lt_iff {t : ℝ} {k : Nat} (h : Nearest t k) : fp32.top < k ↔ 2 ^ 128 - 2 ^ 103 ≤ t := by
  obtain ⟨j, low, high, side⟩ := h
  rw [← fp32Mid_top]
  have odd : fp32.top % 2 = 1 := by rw [fp32_top]
  have mid := fp32Mid_eq fp32.top
  have step : (fp32.mag fp32.top : ℝ) < fp32.mag (fp32.top + 1) := by exact_mod_cast fp32.mag_strictMono (Nat.lt_succ_self _)
  rcases lt_trichotomy j fp32.top with lt | rfl | gt
  · have := fp32_mag_mono (Nat.succ_le_of_lt lt)
    exact iff_of_false (by rcases side with ⟨rfl, -⟩ | ⟨rfl, -⟩ <;> omega) (by linarith)
  · rcases side with ⟨rfl, side, tie⟩ | ⟨rfl, side, -⟩
    · exact iff_of_false (lt_irrefl _) fun ge => by
        have := tie (le_antisymm side ge)
        omega
    · exact iff_of_true (Nat.lt_succ_self _) side
  · have := fp32_mag_mono (Nat.succ_le_of_lt gt)
    exact iff_of_true (by rcases side with ⟨rfl, -⟩ | ⟨rfl, -⟩ <;> omega) (by linarith)

/-! ### Rounding with a sticky bit -/

/-- A significand of 25 bits or more, its last the sticky bit, compares with half units of its rounding as the exact number does. -/
theorem Sticky.compare_half {q : Nat} {sticky : Bool} {e : Int} {t : ℝ} (h : Sticky q sticky e t) (hq : 2 ^ 24 ≤ q) {k r d : Nat}
    (unit : fp32.unit k = max ((Nat.log2 (2 * q + sticky.toNat) : Int) + (e - 1) - fp32.mb) fp32.least) (rd : r < d)
    (eq : ((2 * q + sticky.toNat : Nat) : ℚ) * 2 ^ (e - 1) = (fp32.sig k + (r : ℚ) / d) * 2 ^ fp32.unit k) (n : Nat) :
    ((n : ℝ) * 2 ^ (fp32.unit k - 1) ≤ t ↔ n * d ≤ 2 * fp32.sig k * d + 2 * r) ∧
      (t ≤ n * 2 ^ (fp32.unit k - 1) ↔ 2 * fp32.sig k * d + 2 * r ≤ n * d) := by
  have bits : 25 ≤ Nat.log2 (2 * q + sticky.toNat) := (Nat.le_log2 (by omega)).2 (by omega)
  have fine : e ≤ fp32.unit k - 1 := by
    have mb : fp32.mb = 23 := rfl
    omega
  obtain ⟨g, hg⟩ := Int.eq_ofNat_of_zero_le (sub_nonneg.2 fine)
  have half {K : Type} [DivisionRing K] [CharZero K] : (2 : K) ^ (fp32.unit k - 1) = (2 ^ g : Nat) * 2 ^ e := by
    push_cast
    rw [← zpow_natCast, ← hg, ← zpow_add₀ two_ne_zero, sub_add_cancel]
  have dpos : (0 : ℚ) < d := by exact_mod_cast (Nat.zero_le r).trans_lt rd
  have gpos : 0 < 2 ^ g := Nat.two_pow_pos g
  -- the significand in half units
  have whole : (2 * q + sticky.toNat) * d = 2 * 2 ^ g * (2 * fp32.sig k * d + 2 * r) := by
    have unit : (2 : ℚ) ^ fp32.unit k = 2 * ((2 ^ g : Nat) * 2 ^ e) := by
      rw [← half, zpow_sub_one₀ two_ne_zero]
      ring
    rw [unit, zpow_sub_one₀ two_ne_zero] at eq
    have cancel : ((2 * q + sticky.toNat : Nat) : ℚ) * d = 2 * (2 ^ g : Nat) * (2 * fp32.sig k * d + 2 * r) := by
      have e_pos := (two_zpow_pos e).ne'
      field_simp at eq
      push_cast at eq ⊢
      linarith
    exact_mod_cast cancel
  obtain ⟨low, high⟩ := h.compare (n * 2 ^ g)
  have scale : ((n * 2 ^ g : Nat) : ℝ) * 2 ^ e = n * 2 ^ (fp32.unit k - 1) := by
    rw [half]
    push_cast
    ring
  have d_pos : 0 < d := (Nat.zero_le r).trans_lt rd
  rw [scale] at low high
  have product : 2 * (n * 2 ^ g) * d = 2 * 2 ^ g * (n * d) := by ring
  have scale_pos : 0 < 2 * 2 ^ g := by omega
  constructor
  · rw [low, ← Nat.mul_le_mul_right_iff d_pos, whole, product, Nat.mul_le_mul_left_iff scale_pos]
  · rw [high, ← Nat.mul_le_mul_right_iff d_pos, whole, product, Nat.mul_le_mul_left_iff scale_pos]

/-- The exact number that a significand and a sticky bit stand for is rounded to a nearest FP32 value (R152, R154). -/
theorem sfuRound_spec {q : Nat} {sticky : Bool} {e : Int} {t : ℝ} (h : Sticky q sticky e t) (hq : 2 ^ 24 ≤ q) (neg : Bool) :
    ∃ k, Nearest t k ∧ sfuRound neg q sticky e =
      if fp32.top < k then ⟨fp32.sign neg + (fp32.top + 1), flgOF ||| flgNX, []⟩
      else ⟨fp32.sign neg + k, if (fp32.mag k : ℝ) = t then 0 else flgNX ||| if k ≠ 0 ∧ k < 2 ^ 23 then flgUF else 0, []⟩ := by
  obtain ⟨k, r, d, unit, rd, eq, round⟩ := roundFp_eq fp32_sound rne neg (m := 2 * q + sticky.toNat) (by omega) (e - 1)
  have compare := h.compare_half hq unit rd eq
  have double : (2 : ℝ) ^ fp32.unit k = 2 * 2 ^ (fp32.unit k - 1) := by
    rw [zpow_sub_one₀ two_ne_zero]
    ring
  have here : (fp32.mag k : ℝ) = (2 * fp32.sig k : Nat) * 2 ^ (fp32.unit k - 1) := by
    rw [FpSpec.mag]
    push_cast
    rw [double]
    ring
  have next : (fp32.mag (k + 1) : ℝ) = (2 * fp32.sig k + 2 : Nat) * 2 ^ (fp32.unit k - 1) := by
    rw [fp32.mag_succ]
    push_cast
    rw [double]
    ring
  have mid : fp32Mid k = (2 * fp32.sig k + 1 : Nat) * 2 ^ (fp32.unit k - 1) := by
    rw [fp32Mid]
    push_cast
    rfl
  obtain ⟨here_le, le_here⟩ := compare (2 * fp32.sig k)
  obtain ⟨next_le, le_next⟩ := compare (2 * fp32.sig k + 2)
  obtain ⟨mid_le, le_mid⟩ := compare (2 * fp32.sig k + 1)
  rw [← here] at here_le le_here
  rw [← next] at next_le le_next
  rw [← mid] at mid_le le_mid
  clear compare eq
  have low : (fp32.mag k : ℝ) ≤ t := here_le.2 (by omega)
  have high : t < fp32.mag (k + 1) := not_le.1 (mt next_le.1 (by rw [Nat.add_mul]; omega))
  have exact_iff : (fp32.mag k : ℝ) = t ↔ r = 0 := by
    rw [le_antisymm_iff, here_le, le_here]
    omega
  rw [Nat.add_mul, one_mul, Nat.add_le_add_iff_left] at mid_le
  rw [Nat.add_mul, one_mul, Nat.add_le_add_iff_left] at le_mid
  have tie : t = fp32Mid k ↔ d = 2 * r := by
    rw [le_antisymm_iff, mid_le, le_mid]
    omega
  have up : (r ≠ 0 ∧ roundsUp rne neg (k % 2 == 0) r d = true) ↔ d < 2 * r ∨ d = 2 * r ∧ k % 2 = 1 := by
    simp only [roundsUp, rne, Bool.or_eq_true, Bool.and_eq_true, decide_eq_true_eq, Bool.not_eq_true', beq_eq_false_iff_ne]
    omega
  refine ⟨fpSelect rne neg k r d, ⟨k, low, high, ?_⟩, ?_⟩
  · by_cases h : d < 2 * r ∨ d = 2 * r ∧ k % 2 = 1
    · exact .inr ⟨if_pos (up.2 h), mid_le.2 (by omega), fun eq => by have := tie.1 eq; omega⟩
    · exact .inl ⟨if_neg (mt up.1 h), le_mid.2 (by omega), fun eq => by have := tie.1 eq; omega⟩
  · have select : (fp32.mag (fpSelect rne neg k r d) : ℝ) = t ↔ r = 0 := by
      unfold fpSelect
      split
      · exact iff_of_false high.ne' (by omega)
      · exact exact_iff
    have wide : (rne.narrow || !fp32.inf) = false := rfl
    have fraction : fp32.mb = 23 := rfl
    have inf : fpOverflow rne fp32 neg = ⟨fp32.sign neg + (fp32.top + 1), flgOF ||| flgNX, []⟩ := by
      rw [← infCode_eq fpSpec_fp32 neg rfl]
      rfl
    rw [sfuRound]
    refine round.trans ?_
    simp only [inf, select, wide, fraction, Bool.false_eq_true, false_and, or_false]

/-- The parts of a result of rounding: the magnitude of its code, and its flags. -/
theorem sfuRound_result {q : Nat} {sticky : Bool} {e : Int} {t : ℝ} (h : Sticky q sticky e t) (hq : 2 ^ 24 ≤ q) (neg : Bool) :
    (2 ^ 128 - 2 ^ 103 ≤ t → sfuRound neg q sticky e = ⟨fp32.sign neg + (fp32.top + 1), flgOF ||| flgNX, []⟩) ∧
    (t < 2 ^ 128 - 2 ^ 103 → ∃ k ≤ fp32.top, (∀ i, |(fp32.mag k : ℝ) - t| ≤ |(fp32.mag i : ℝ) - t|) ∧ sfuRound neg q sticky e =
      ⟨fp32.sign neg + k, if (fp32.mag k : ℝ) = t then 0 else flgNX ||| if k ≠ 0 ∧ k < 2 ^ 23 then flgUF else 0, []⟩) := by
  obtain ⟨k, near, result⟩ := sfuRound_spec h hq neg
  refine ⟨fun large => ?_, fun small => ⟨k, not_lt.1 (mt near.top_lt_iff.1 (not_le.2 small)), near.le, ?_⟩⟩
  · rw [result, if_pos (near.top_lt_iff.2 large)]
  · rw [result, if_neg (mt near.top_lt_iff.1 (not_le.2 small))]

end Sys2Proof.Machine
end
section
/-! The SFU words (R118, R152 to R154). -/

namespace Sys2Proof.Machine

/-! ### Exact roots and quotients with their sticky bits -/

theorem isqrtAux_bounds (n k r : Nat) (low : r * r ≤ n) (high : n < (r + 2 ^ k) * (r + 2 ^ k)) :
    isqrtAux n k r * isqrtAux n k r ≤ n ∧ n < (isqrtAux n k r + 1) * (isqrtAux n k r + 1) := by
  induction k generalizing r with
  | zero => exact ⟨low, high⟩
  | succ k ih =>
    rw [isqrtAux]
    split
    · rename_i le
      exact ih _ le (by rwa [add_assoc, ← two_mul, ← pow_succ'])
    · rename_i gt
      exact ih _ low (not_le.1 gt)

theorem isqrt_eq_sqrt (n : Nat) : isqrt n = Nat.sqrt n := by
  have bits : n < (0 + 2 ^ (Nat.log2 n / 2 + 1)) * (0 + 2 ^ (Nat.log2 n / 2 + 1)) := by
    rw [zero_add, ← pow_add]
    exact Nat.lt_log2_self.trans_le (Nat.pow_le_pow_right two_pos (by omega))
  obtain ⟨low, high⟩ := isqrtAux_bounds n (Nat.log2 n / 2 + 1) 0 (Nat.zero_le _) bits
  exact Nat.eq_sqrt.2 ⟨low, high⟩

theorem sticky_div (n : Nat) {m : Nat} (hm : 0 < m) (e : Int) : Sticky (n / m) (n % m != 0) e ((n : ℝ) / m * 2 ^ e) := by
  have pos : (0 : ℝ) < 2 ^ e := by positivity
  have mpos : (0 : ℝ) < m := by exact_mod_cast hm
  have decompose : (n : ℝ) = (n / m : Nat) * m + (n % m : Nat) := by exact_mod_cast (Nat.div_add_mod' n m).symm
  have small : ((n % m : Nat) : ℝ) < m := by exact_mod_cast Nat.mod_lt n hm
  have rest : (0 : ℝ) ≤ (n % m : Nat) := Nat.cast_nonneg _
  refine ⟨?_, ?_, ?_⟩
  · rw [mul_le_mul_iff_left₀ pos, le_div_iff₀ mpos]
    linarith
  · rw [mul_lt_mul_iff_left₀ pos, div_lt_iff₀ mpos]
    linarith
  · rw [mul_left_inj' pos.ne', eq_div_iff mpos.ne', bne_eq_false_iff_eq, decompose, left_eq_add, Nat.cast_eq_zero]

/-- The root of a number between two squares. -/
theorem sticky_sqrt {q : Nat} {y : ℝ} (low : (q : ℝ) ^ 2 ≤ y) (high : y < (q + 1 : ℝ) ^ 2) {sticky : Bool} (exact_iff : sticky = false ↔ (q : ℝ) ^ 2 = y)
    (e : Int) : Sticky q sticky e (√y * 2 ^ e) := by
  have pos : (0 : ℝ) < 2 ^ e := by positivity
  have q0 : (0 : ℝ) ≤ q := Nat.cast_nonneg q
  refine ⟨?_, ?_, ?_⟩
  · rw [mul_le_mul_iff_left₀ pos]
    exact Real.le_sqrt_of_sq_le low
  · rw [mul_lt_mul_iff_left₀ pos]
    exact (Real.sqrt_lt' (by linarith)).2 high
  · rw [mul_left_inj' pos.ne', exact_iff, eq_comm (b := √y), Real.sqrt_eq_iff_eq_sq ((sq_nonneg _).trans low) q0, eq_comm]

/-! ### A result rounded from an exact number -/

/-- A result that is inexact: NX, and UF beside it below the first normal, no cause (R154). -/
def Inexact (r : NumRes) : Prop :=
  r.causes = [] ∧ r.flg = flgNX ||| if r.code % 2 ^ 31 ≠ 0 ∧ r.code % 2 ^ 31 < 0x800000 then flgUF else 0

theorem inexact_sfuInexact (code : Nat) : Inexact (sfuInexact code) :=
  ⟨rfl, rfl⟩

/-- A result is a nearest FP32 value to a magnitude, with the sign given, and inexact unless it is that magnitude. -/
structure RoundedTo (r : NumRes) (neg : Bool) (t : ℝ) (k : Nat) : Prop where
  code : r.code = fp32.sign neg + k
  within : k ≤ fp32.top
  nonneg : 0 ≤ t
  nearest : ∀ i, |(fp32.mag k : ℝ) - t| ≤ |(fp32.mag i : ℝ) - t|
  exact_ : (fp32.mag k : ℝ) = t → r.flg = 0 ∧ r.causes = []
  inexact : (fp32.mag k : ℝ) ≠ t → Inexact r

theorem sfuRound_roundedTo {q : Nat} {sticky : Bool} {e : Int} {t : ℝ} (h : Sticky q sticky e t) (hq : 2 ^ 24 ≤ q) (neg : Bool)
    (small : t < 2 ^ 128 - 2 ^ 103) : ∃ k, RoundedTo (sfuRound neg q sticky e) neg t k := by
  obtain ⟨k, within, nearest, result⟩ := (sfuRound_result h hq neg).2 small
  have low : (fp32.sign neg + k) % 2 ^ 31 = k := by
    rw [fp32_sign]
    rw [fp32_top] at within
    split <;> omega
  rw [result]
  have nonneg : 0 ≤ t := by simpa using (h.compare 0).1.2 (Nat.zero_le _)
  refine ⟨k, rfl, within, nonneg, nearest, fun eq => ⟨if_pos eq, rfl⟩, fun ne => ⟨rfl, ?_⟩⟩
  dsimp only
  rw [if_neg ne, low]
  rfl

section
variable {r : NumRes} {neg : Bool} {t : ℝ} {k : Nat} (h : RoundedTo r neg t k)
include h

theorem RoundedTo.number : numberOf 0 r.code = (if neg then -1 else 1) * fp32.mag k := by
  rw [h.code, numberOf_sign_add fpSpec_fp32 neg h.within]

theorem RoundedTo.finite : isFinite 0 r.code := by
  rw [h.code, isFinite_sign_add fpSpec_fp32 neg (h.within.trans_lt (FpSpec.top_bounds fp32_sound).2)]
  exact h.within

/-- No FP32 value is nearer to the exact number. -/
theorem RoundedTo.nearest_number (j : Nat) (finite : isFinite 0 j) :
    |(numberOf 0 r.code : ℝ) - (if neg then -1 else 1) * t| ≤ |(numberOf 0 j : ℝ) - (if neg then -1 else 1) * t| := by
  obtain ⟨i, -, eq⟩ := exists_mag_of_isFinite fpSpec_fp32 finite
  have magnitude : (fp32.mag i : ℝ) = |(numberOf 0 j : ℝ)| := by
    rw [← eq]
    push_cast
    rfl
  have here : |(numberOf 0 r.code : ℝ) - (if neg then -1 else 1) * t| = |(fp32.mag k : ℝ) - t| := by
    rw [h.number]
    cases neg
    · simp
    · simp [← abs_neg ((fp32.mag k : ℝ) - t)]
      ring_nf
  have apart : |(fp32.mag i : ℝ) - t| ≤ |(numberOf 0 j : ℝ) - (if neg then -1 else 1) * t| := by
    have size : |(if neg then -1 else 1) * t| = t := by cases neg <;> simp [abs_of_nonneg h.nonneg]
    rw [magnitude]
    nth_rw 1 [← size]
    exact abs_abs_sub_abs_le _ _
  exact here.le.trans ((h.nearest i).trans apart)

/-- What R152 and R154 say of a correctly rounded result, whatever the exact number is called and its exactness is told by. -/
theorem RoundedTo.result {x : ℝ} (hx : x = (if neg then -1 else 1) * t) {P : Prop} [Decidable P] (hP : (numberOf 0 r.code : ℝ) = x ↔ P) :
    isFinite 0 r.code ∧ (∀ j, isFinite 0 j → |(numberOf 0 r.code : ℝ) - x| ≤ |(numberOf 0 j : ℝ) - x|) ∧
      if P then r.flg = 0 ∧ r.causes = [] else Inexact r := by
  subst hx
  have same : (fp32.mag k : ℝ) = t ↔ P := by
    rw [← hP, h.number]
    cases neg <;> simp
  refine ⟨h.finite, h.nearest_number, ?_⟩
  split
  · rename_i p
    exact h.exact_ (same.2 p)
  · rename_i p
    exact h.inexact (mt same.1 p)

end

theorem RoundedTo.number_nonneg {r : NumRes} {t : ℝ} {k : Nat} (h : RoundedTo r false t k) : 0 ≤ numberOf 0 r.code := by
  rw [h.number, if_neg Bool.false_ne_true, one_mul]
  exact fp32.mag_nonneg k

/-! ### Finite inputs -/

theorem fp32_mag_top_succ : fp32.mag (fp32.top + 1) = 2 ^ 128 := by
  obtain ⟨sig, unit⟩ := Prod.mk.inj fp32_sig_top
  rw [fp32.mag_succ, sig, unit]
  norm_num

theorem fp32_le_top {i : Nat} (h : fp32.mag i < 2 ^ 128) : i ≤ fp32.top := by
  rw [← fp32_mag_top_succ, fp32.mag_strictMono.lt_iff_lt] at h
  omega

theorem fp32_bounds {j : Nat} (pos : 0 < j) (within : j ≤ fp32.top) : (2 : ℚ) ^ (-149 : Int) ≤ fp32.mag j ∧ fp32.mag j < 2 ^ 128 := by
  have first : fp32.mag 1 = 2 ^ (-149 : Int) := by
    simp [FpSpec.mag, FpSpec.sig, FpSpec.unit, FpSpec.least, fp32]
  rw [← first, ← fp32_mag_top_succ]
  exact ⟨fp32.mag_strictMono.monotone pos, fp32.mag_strictMono (by omega)⟩

/-- A finite nonzero FP32 code: sign, significand and exponent, number. -/
theorem fp32_finite {k : Nat} (short : k < 2 ^ 32) (finite : isFinite 0 k) (nonzero : numberOf 0 k ≠ 0) :
    ∃ neg j, 0 < j ∧ j ≤ fp32.top ∧ codeVal 0 k = .fin neg (fp32.sig j) (fp32.unit j) ∧ numberOf 0 k = (if neg then -1 else 1) * fp32.mag j := by
  obtain ⟨neg, j, rfl, within, value, number⟩ := magnitude_of_isFinite fpSpec_fp32 short finite
  have pos : j ≠ 0 := by
    rintro rfl
    rw [number, fp32.mag_zero, mul_zero] at nonzero
    exact nonzero rfl
  exact ⟨neg, j, Nat.pos_of_ne_zero pos, within, by rw [value, FpSpec.val, if_neg pos], number⟩

theorem sfuRes_fin {c : RndCtx} {fn k : Nat} {neg : Bool} {m : Nat} {e : Int} (value : codeVal 0 k = .fin neg m e) :
    sfuRes c fn k = sfuFin c fn k neg m e := by
  unfold sfuRes
  rw [value]

theorem fp32_sig_bounds {j : Nat} (pos : 0 < j) : 0 < fp32.sig j ∧ fp32.sig j < 2 ^ 24 := by
  have small := Nat.mod_lt j (Nat.two_pow_pos 23)
  have fraction : fp32.mb = 23 := rfl
  unfold FpSpec.sig
  rw [fraction]
  split <;> omega

/-! ### RCP, RSQ and SQRT -/

theorem sticky_rcp {m : Nat} (hm : 0 < m) (e : Int) :
    Sticky (2 ^ (Nat.log2 m + 64) / m) (2 ^ (Nat.log2 m + 64) % m != 0) (-e - (Nat.log2 m + 64 : Nat)) (1 / (m * 2 ^ e)) ∧
      2 ^ 24 ≤ 2 ^ (Nat.log2 m + 64) / m := by
  have mpos : (0 : ℝ) < m := by exact_mod_cast hm
  constructor
  · generalize Nat.log2 m + 64 = n
    have same : ((2 ^ n : Nat) : ℝ) / m * 2 ^ (-e - (n : Int)) = 1 / (m * 2 ^ e) := by
      rw [zpow_sub₀ two_ne_zero, zpow_natCast, zpow_neg]
      push_cast
      field_simp
    rw [← same]
    exact sticky_div (2 ^ n) hm _
  · rw [Nat.le_div_iff_mul_le hm]
    calc 2 ^ 24 * m ≤ 2 ^ 24 * 2 ^ (Nat.log2 m + 1) := Nat.mul_le_mul_left _ Nat.lt_log2_self.le
      _ = 2 ^ (Nat.log2 m + 25) := by ring
      _ ≤ 2 ^ (Nat.log2 m + 64) := Nat.pow_le_pow_right two_pos (by omega)

theorem sqrt_mul_zpow {y : ℝ} (hy : 0 ≤ y) (e : Int) : √y * 2 ^ e = √(y * 2 ^ (2 * e)) := by
  have square : (2 : ℝ) ^ (2 * e) = (2 ^ e) ^ 2 := by rw [mul_comm, zpow_mul, zpow_ofNat]
  rw [Real.sqrt_mul hy, square, Real.sqrt_sq (by positivity)]

theorem sticky_sqrtRes {m : Nat} (hm : 0 < m) (e : Int) : let n := m * pow2 (60 + e % 2)
    Sticky (isqrt n) (isqrt n * isqrt n != n) ((e - e % 2 - 60) / 2) (√(m * 2 ^ e)) ∧ 2 ^ 24 ≤ isqrt n := by
  intro n
  rw [isqrt_eq_sqrt]
  have low := Nat.sqrt_le' n
  have high := Nat.lt_succ_sqrt' n
  constructor
  · have sticky := sticky_sqrt (q := Nat.sqrt n) (y := n) (by exact_mod_cast low) (by exact_mod_cast high) (sticky := Nat.sqrt n * Nat.sqrt n != n)
      (by rw [bne_eq_false_iff_eq, ← pow_two]; norm_cast) ((e - e % 2 - 60) / 2)
    have same : (n : ℝ) * 2 ^ (2 * ((e - e % 2 - 60) / 2)) = m * 2 ^ e := by
      have exponent : 60 + e % 2 + 2 * ((e - e % 2 - 60) / 2) = e := by omega
      have product : ((m * pow2 (60 + e % 2) : Nat) : ℝ) = m * 2 ^ (60 + e % 2) := by
        rw [Nat.cast_mul, pow2_cast (by omega)]
      rw [product, mul_assoc, ← zpow_add₀ two_ne_zero, exponent]
    rwa [sqrt_mul_zpow (Nat.cast_nonneg n), same] at sticky
  · have large : 1 * pow2 60 ≤ n := Nat.mul_le_mul hm (Nat.pow_le_pow_right two_pos (by omega))
    exact Nat.le_sqrt.2 ((by decide : 2 ^ 24 * 2 ^ 24 ≤ 1 * pow2 60).trans large)

theorem sticky_rsqRes {m : Nat} (hm : 0 < m) (bits : m < 2 ^ 24) (e : Int) : let mm := m * pow2 (e % 2)
    Sticky (isqrt (2 ^ 128 / mm)) (isqrt (2 ^ 128 / mm) * isqrt (2 ^ 128 / mm) * mm != 2 ^ 128) (-(e - e % 2) / 2 - 64) (1 / √(m * 2 ^ e)) ∧
      2 ^ 24 ≤ isqrt (2 ^ 128 / mm) := by
  intro mm
  have mm_pos : 0 < mm := Nat.mul_pos hm (pow2_pos _)
  have mm_small : mm ≤ 2 ^ 24 * pow2 1 := Nat.mul_le_mul bits.le (Nat.pow_le_pow_right two_pos (by omega))
  rw [isqrt_eq_sqrt]
  have low := (Nat.le_div_iff_mul_le mm_pos).1 (Nat.sqrt_le' (2 ^ 128 / mm))
  have high := (Nat.div_lt_iff_lt_mul mm_pos).1 (Nat.lt_succ_sqrt' (2 ^ 128 / mm))
  have large : 2 ^ 24 ≤ Nat.sqrt (2 ^ 128 / mm) :=
    Nat.le_sqrt.2 ((Nat.le_div_iff_mul_le mm_pos).2 ((Nat.mul_le_mul_left _ mm_small).trans (by decide)))
  refine ⟨?_, large⟩
  generalize Nat.sqrt (2 ^ 128 / mm) = q at *
  have mpos : (0 : ℝ) < mm := by exact_mod_cast mm_pos
  have sticky := sticky_sqrt (q := q) (y := 2 ^ 128 / mm) (sticky := q * q * mm != 2 ^ 128)
    (by rw [le_div_iff₀ mpos]; exact_mod_cast low) (by rw [div_lt_iff₀ mpos]; exact_mod_cast high)
    (by rw [bne_eq_false_iff_eq, eq_div_iff mpos.ne', ← pow_two]; norm_cast) (-(e - e % 2) / 2 - 64)
  have same : (2 ^ 128 / mm : ℝ) * 2 ^ (2 * (-(e - e % 2) / 2 - 64)) = ((m : ℝ) * 2 ^ e)⁻¹ := by
    have exponent : 2 * (-(e - e % 2) / 2 - 64) = e % 2 - e - (128 : Nat) := by omega
    have product : (mm : ℝ) = m * 2 ^ (e % 2) := by
      rw [Nat.cast_mul, pow2_cast (by omega)]
    have m_ne : (m : ℝ) ≠ 0 := by exact_mod_cast hm.ne'
    rw [exponent, product, zpow_sub₀ two_ne_zero, zpow_sub₀ two_ne_zero, zpow_natCast]
    field_simp
  rwa [sqrt_mul_zpow (by positivity), same, Real.sqrt_inv, ← one_div] at sticky

/-! ### Integers and powers of two -/

/-- The model's test of a whole number. -/
theorem Dy.whole_iff (d : Dy) : (decide (d.e ≥ 0) || d.m % pow2 (-d.e) == 0) = true ↔ ∃ n : Int, d.number = n := by
  rw [Bool.or_eq_true, decide_eq_true_eq, beq_iff_eq]
  rcases le_or_gt 0 d.e with nonneg | neg
  · refine iff_of_true (.inl nonneg) ⟨d.m * pow2 d.e, ?_⟩
    push_cast
    rw [pow2_cast nonneg]
    rfl
  · have unit : d.number = d.m / (pow2 (-d.e) : Nat) := by
      rw [pow2_cast (by omega), zpow_neg, div_inv_eq_mul]
      rfl
    have pos : ((pow2 (-d.e) : Nat) : ℚ) ≠ 0 := by exact_mod_cast (pow2_pos _).ne'
    rw [or_iff_right (by omega)]
    constructor
    · intro zero
      obtain ⟨n, eq⟩ := Int.dvd_of_emod_eq_zero zero
      refine ⟨n, ?_⟩
      rw [unit, eq, div_eq_iff pos]
      push_cast
      ring
    · rintro ⟨n, eq⟩
      rw [unit, div_eq_iff pos] at eq
      have : d.m = n * pow2 (-d.e) := by exact_mod_cast eq
      rw [this, Int.mul_emod_left]

/-- The fixed-point form of a whole number. -/
theorem Dy.fix_int {d : Dy} {n : Int} (whole : d.number = n) (fine : -400 ≤ d.e) : d.fix / sfuOne = n := by
  have nonneg : 0 ≤ d.e + sfuP := by
    have : sfuP = 400 := rfl
    omega
  have scaled : d.m * pow2 (d.e + sfuP) = n * (sfuOne : Nat) := by
    have number : (d.m : ℚ) * 2 ^ d.e = n := whole
    have eq : (d.m : ℚ) * (pow2 (d.e + sfuP) : Nat) = n * (sfuOne : Nat) := by
      rw [pow2_cast nonneg, zpow_add₀ two_ne_zero, ← mul_assoc, number, zpow_natCast, sfuOne]
      push_cast
      rfl
    exact_mod_cast eq
  have one : ((sfuOne : Nat) : Int) ≠ 0 := by exact_mod_cast (Nat.two_pow_pos sfuP).ne'
  rw [Dy.fix, if_pos nonneg, scaled, Int.mul_ediv_cancel _ one]

/-- The model's test of a power of two. -/
theorem pow_log2_eq_iff {m : Nat} (hm : 0 < m) (e : Int) : 2 ^ Nat.log2 m = m ↔ ∃ n : Int, (m : ℚ) * 2 ^ e = 2 ^ n := by
  constructor
  · intro eq
    refine ⟨Nat.log2 m + e, ?_⟩
    rw [zpow_add₀ two_ne_zero, zpow_natCast]
    nth_rw 1 [← eq]
    push_cast
    rfl
  · rintro ⟨n, eq⟩
    obtain ⟨low, high⟩ := log2_bounds hm e
    rw [eq] at low high
    have exponent : n = Nat.log2 m + e := by
      have := (zpow_le_zpow_iff_right₀ (one_lt_two (α := ℚ))).1 low
      have := (zpow_lt_zpow_iff_right₀ (one_lt_two (α := ℚ))).1 high
      omega
    rw [exponent, zpow_add₀ two_ne_zero, zpow_natCast, mul_left_inj' (two_zpow_pos e).ne'] at eq
    exact_mod_cast eq.symm

/-! ### The functions at a finite nonzero input -/

section
variable {c : RndCtx} {k j : Nat} {neg : Bool} (pos : 0 < j) (within : j ≤ fp32.top) (value : codeVal 0 k = .fin neg (fp32.sig j) (fp32.unit j))
  (number : numberOf 0 k = (if neg then -1 else 1) * fp32.mag j)

theorem fp32_unit_bound (j : Nat) : -149 ≤ fp32.unit j := by
  have least : fp32.least = -149 := by decide
  unfold FpSpec.unit
  omega

include value in
/-- The input as the model's significand and exponent. -/
theorem input_number : (Val.fin neg (fp32.sig j) (fp32.unit j)).dy.number = numberOf 0 k := by
  rw [← value]
  rfl

include pos within number in
theorem input_sign : (neg = true ↔ numberOf 0 k < 0) ∧ (neg = false ↔ 0 < numberOf 0 k) := by
  have := (two_zpow_pos _).trans_le (fp32_bounds pos within).1
  rw [number]
  cases neg <;> simp [this, this.le]

include value in
/-- EXP2 (R153, R154). -/
theorem exp2_cases :
    (128 ≤ numberOf 0 k → sfuRes c 0 k = ⟨0x7F800000, flgOF ||| flgNX, []⟩) ∧
    (numberOf 0 k ≤ -150 → sfuRes c 0 k = ⟨0, flgUF ||| flgNX, []⟩) ∧
    (∀ n : Int, numberOf 0 k = n → -149 ≤ n → n ≤ 127 → numberOf 0 (sfuRes c 0 k).code = 2 ^ n ∧ (sfuRes c 0 k).flg = 0) ∧
    (-150 < numberOf 0 k → numberOf 0 k < 128 → (∀ n : Int, numberOf 0 k ≠ n) → Inexact (sfuRes c 0 k)) := by
  have input := input_number value
  have high : (Val.fin neg (fp32.sig j) (fp32.unit j)).dy.lt ⟨128, 0⟩ = true ↔ numberOf 0 k < 128 := by
    rw [Dy.lt_iff, input, Dy.number_int]
    exact Iff.rfl
  have low : (Dy.mk (-150) 0).lt (Val.fin neg (fp32.sig j) (fp32.unit j)).dy = true ↔ -150 < numberOf 0 k := by
    rw [Dy.lt_iff, input, Dy.number_int]
    exact Iff.rfl
  have whole := (Val.fin neg (fp32.sig j) (fp32.unit j)).dy.whole_iff
  rw [input] at whole
  have run := sfuRes_fin (c := c) (fn := 0) value
  have inside (h : -150 < numberOf 0 k) (h' : numberOf 0 k < 128) : sfuRes c 0 k = _ :=
    run.trans ((if_neg (by rw [high.2 h']; decide)).trans (if_neg (by rw [low.2 h]; decide)))
  refine ⟨fun large => ?_, fun small => ?_, fun n eq lower upper => ?_, fun above below fraction => ?_⟩
  · exact run.trans (if_pos (by rw [Bool.eq_false_iff.2 (mt high.1 (not_lt.2 large))]; rfl))
  · have below : numberOf 0 k < 128 := small.trans_lt (by norm_num)
    exact run.trans ((if_neg (by rw [high.2 below]; decide)).trans (if_pos (by rw [Bool.eq_false_iff.2 (mt low.1 (not_lt.2 small))]; rfl)))
  · obtain ⟨i, mag⟩ := fp32.exists_mag (n := 1) (q := n) (Nat.one_le_two_pow) lower
    rw [Nat.cast_one, one_mul] at mag
    have within : i ≤ fp32.top := fp32_le_top (by
      rw [mag, ← zpow_natCast]
      exact zpow_lt_zpow_right₀ one_lt_two (by omega))
    have rounded : roundFp c fp32 false 1 n = ⟨fp32.sign false + i, 0, []⟩ :=
      roundFp_exact fp32_sound c false one_pos within (by rw [mag, Nat.cast_one, one_mul])
    have above : -150 < numberOf 0 k := by
      rw [eq]
      exact_mod_cast (by omega : -150 < n)
    have below : numberOf 0 k < 128 := by
      rw [eq]
      exact_mod_cast (by omega : n < 128)
    have unit : -149 ≤ (Val.fin neg (fp32.sig j) (fp32.unit j)).dy.e := fp32_unit_bound j
    rw [inside above below, if_pos (whole.2 ⟨n, eq⟩), Dy.fix_int (input.trans eq) (by omega)]
    change numberOf 0 (roundFp c fp32 false 1 n).code = _ ∧ _
    rw [rounded, numberOf_sign_add fpSpec_fp32 false within, mag]
    exact ⟨by simp, rfl⟩
  · rw [inside above below, if_neg (mt whole.1 (by simpa using fraction))]
    exact inexact_sfuInexact _

include value in
theorem log2_run (h : neg = false) : sfuRes c 1 k = if 2 ^ Nat.log2 (fp32.sig j) = fp32.sig j then
    sfuIs (roundVal c 0 (.ofInt ((Nat.log2 (fp32.sig j) : Int) + fp32.unit j))).code
      else sfuInexact (sfuClimb 1 k (sfuMonotone 1 neg k (sfuAllowed 1 (Val.fin neg (fp32.sig j) (fp32.unit j)).dy))) := by
  rw [sfuRes_fin value]
  subst h
  rfl

include value pos within number in
/-- LOG2 (R153, R154). -/
theorem log2_cases :
    (∀ n : Int, numberOf 0 k = 2 ^ n → numberOf 0 (sfuRes c 1 k).code = n ∧ (sfuRes c 1 k).flg = 0) ∧
    (0 < numberOf 0 k → (∀ n : Int, numberOf 0 k ≠ 2 ^ n) → Inexact (sfuRes c 1 k)) := by
  have run := log2_run (c := c) value
  have sig := (fp32_sig_bounds pos).1
  have power : 2 ^ Nat.log2 (fp32.sig j) = fp32.sig j ↔ ∃ n : Int, fp32.mag j = 2 ^ n := pow_log2_eq_iff sig (fp32.unit j)
  obtain ⟨low, high⟩ := fp32_bounds pos within
  have positive (h : 0 < numberOf 0 k) : neg = false ∧ numberOf 0 k = fp32.mag j := by
    obtain rfl := (input_sign pos within number).2.2 h
    exact ⟨rfl, by simpa using number⟩
  refine ⟨fun n eq => ?_, fun above other => ?_⟩
  · obtain ⟨rfl, mag⟩ := positive (eq ▸ two_zpow_pos n)
    rw [mag] at eq
    have significand := power.2 ⟨n, eq⟩
    have exponent : (Nat.log2 (fp32.sig j) : Int) + fp32.unit j = n := by
      refine zpow_right_injective₀ (two_pos (α := ℚ)) (by norm_num) ?_
      dsimp only
      rw [← eq, FpSpec.mag, ← significand, zpow_add₀ two_ne_zero, zpow_natCast, Nat.log2_two_pow]
      push_cast
      rfl
    have range : -149 ≤ n ∧ n < 128 := by
      rw [eq, ← zpow_natCast] at high
      rw [eq] at low
      exact ⟨(zpow_le_zpow_iff_right₀ one_lt_two).1 low, (zpow_lt_zpow_iff_right₀ one_lt_two).1 high⟩
    obtain ⟨i, hi⟩ := fp32.exists_mag (n := n.natAbs) (q := 0) ((by omega : n.natAbs ≤ 149).trans (by decide)) (by decide)
    rw [zpow_zero, mul_one] at hi
    have small : fp32.mag i < 2 ^ 128 := by
      rw [hi]
      exact_mod_cast (by omega : n.natAbs < 2 ^ 128)
    rw [run rfl, if_pos significand, exponent, roundVal_ofInt fpSpec_fp32 c (fp32_le_top small) hi.symm]
    refine ⟨(numberOf_sign_add fpSpec_fp32 _ (fp32_le_top small)).trans ?_, rfl⟩
    rw [hi]
    rcases lt_or_ge n 0 with negative | nonneg
    · simp [negative, abs_of_neg]
    · simp [not_lt.2 nonneg, abs_of_nonneg nonneg]
  · obtain ⟨rfl, mag⟩ := positive above
    rw [mag] at other
    rw [run rfl, if_neg (mt power.1 (not_exists.2 other))]
    exact inexact_sfuInexact _

include value in
/-- LOG2, RSQ and SQRT of a negative number are invalid (R154). -/
theorem negative_invalid (h : neg = true) {fn : Nat} (hfn : fn = 1 ∨ fn = 3 ∨ fn = 4) : sfuRes c fn k = invalidRes c 0 := by
  subst h
  rw [sfuRes_fin value, ← invalidRes_eq]
  rcases hfn with rfl | rfl | rfl <;> rfl

include value in
theorem rcp_run : sfuRes c 2 k = rcpRes neg (fp32.sig j) (fp32.unit j) := by
  rw [sfuRes_fin value]
  rfl

include value pos within number in
/-- RCP (R153, R154). -/
theorem rcp_cases :
    (2 ^ 128 - 2 ^ 103 ≤ 1 / |numberOf 0 k| → sfuRes c 2 k = ⟨if 0 < numberOf 0 k then 0x7F800000 else 0xFF800000, flgOF ||| flgNX, []⟩) ∧
    (1 / |numberOf 0 k| < 2 ^ 128 - 2 ^ 103 → let y := numberOf 0 (sfuRes c 2 k).code
      isFinite 0 (sfuRes c 2 k).code ∧ (∀ i, isFinite 0 i → |y - 1 / numberOf 0 k| ≤ |numberOf 0 i - 1 / numberOf 0 k|) ∧
      if numberOf 0 k * y = 1 then (sfuRes c 2 k).flg = 0 ∧ (sfuRes c 2 k).causes = [] else Inexact (sfuRes c 2 k)) := by
  obtain ⟨sticky, bits⟩ := sticky_rcp (fp32_sig_bounds pos).1 (fp32.unit j)
  have sign := (input_sign pos within number).2
  have mag_pos : 0 < fp32.mag j := (two_zpow_pos _).trans_le (fp32_bounds pos within).1
  have exact_ : (1 / (fp32.sig j * 2 ^ fp32.unit j) : ℝ) = ((1 / fp32.mag j : ℚ) : ℝ) := by
    rw [FpSpec.mag]
    push_cast
    rfl
  have size : |numberOf 0 k| = fp32.mag j := by
    rw [number]
    cases neg <;> simp [abs_of_pos mag_pos]
  rw [exact_] at sticky
  rw [size, rcp_run value, rcpRes]
  refine ⟨fun large => ?_, fun small => ?_⟩
  · rw [(sfuRound_result sticky bits neg).1 (by exact_mod_cast large), fp32_sign, fp32_top]
    congr 1
    cases neg
    · rw [if_pos (sign.1 rfl)]
      rfl
    · rw [if_neg fun above => Bool.noConfusion (sign.2 above)]
      rfl
  · obtain ⟨i, rounded⟩ := sfuRound_roundedTo sticky bits neg (by exact_mod_cast small)
    have nonzero : numberOf 0 k ≠ 0 := by
      rw [← abs_pos, size]
      exact mag_pos
    have inverse : ((1 / numberOf 0 k : ℚ) : ℝ) = (if neg then -1 else 1) * ((1 / fp32.mag j : ℚ) : ℝ) := by
      rw [number]
      cases neg <;> simp
    obtain ⟨finite, nearest, result⟩ := rounded.result inverse (by rw [Rat.cast_inj, eq_div_iff nonzero, mul_comm])
    exact ⟨finite, fun l hl => by exact_mod_cast nearest l hl, result⟩

include value in
theorem sqrt_run (h : neg = false) : sfuRes c 4 k = sqrtRes (fp32.sig j) (fp32.unit j) := by
  rw [sfuRes_fin value]
  subst h
  rfl

include value in
theorem rsq_run (h : neg = false) : sfuRes c 3 k = rsqRes (fp32.sig j) (fp32.unit j) := by
  rw [sfuRes_fin value]
  subst h
  rfl

include value pos within number in
/-- A positive input is its own magnitude, in the real numbers too. -/
theorem input_positive (h : 0 < numberOf 0 k) : neg = false ∧ numberOf 0 k = fp32.mag j ∧ (fp32.sig j * 2 ^ fp32.unit j : ℝ) = (numberOf 0 k : ℝ) := by
  obtain rfl := (input_sign pos within number).2.2 h
  have mag : numberOf 0 k = fp32.mag j := by simpa using number
  refine ⟨rfl, mag, ?_⟩
  rw [mag, FpSpec.mag]
  push_cast
  rfl

include value pos within number in
/-- SQRT (R153, R154). -/
theorem sqrt_cases (h : 0 < numberOf 0 k) : let y := numberOf 0 (sfuRes c 4 k).code
    isFinite 0 (sfuRes c 4 k).code ∧ (∀ i, isFinite 0 i → |(y : ℝ) - √(numberOf 0 k : ℝ)| ≤ |(numberOf 0 i : ℝ) - √(numberOf 0 k : ℝ)|) ∧
      if y ^ 2 = numberOf 0 k then (sfuRes c 4 k).flg = 0 ∧ (sfuRes c 4 k).causes = [] else Inexact (sfuRes c 4 k) := by
  obtain ⟨rfl, mag, real⟩ := input_positive pos within value number h
  obtain ⟨sticky, bits⟩ := sticky_sqrtRes (fp32_sig_bounds pos).1 (fp32.unit j)
  rw [real] at sticky
  have small : √(numberOf 0 k : ℝ) < 2 ^ 128 - 2 ^ 103 := by
    have bound : numberOf 0 k < 2 ^ 128 := mag ▸ (fp32_bounds pos within).2
    rw [Real.sqrt_lt' (by norm_num)]
    calc (numberOf 0 k : ℝ) < 2 ^ 128 := by exact_mod_cast bound
      _ < _ := by norm_num
  obtain ⟨i, rounded⟩ := sfuRound_roundedTo sticky bits false small
  rw [sqrt_run value rfl, sqrtRes]
  refine rounded.result (by simp) ?_
  rw [eq_comm, Real.sqrt_eq_iff_eq_sq (by exact_mod_cast h.le) (by exact_mod_cast rounded.number_nonneg), eq_comm]
  norm_cast

include value pos within number in
/-- RSQ (R153, R154). -/
theorem rsq_cases (h : 0 < numberOf 0 k) : let y := numberOf 0 (sfuRes c 3 k).code
    isFinite 0 (sfuRes c 3 k).code ∧
      (∀ i, isFinite 0 i → |(y : ℝ) - 1 / √(numberOf 0 k : ℝ)| ≤ |(numberOf 0 i : ℝ) - 1 / √(numberOf 0 k : ℝ)|) ∧
      if numberOf 0 k * y ^ 2 = 1 then (sfuRes c 3 k).flg = 0 ∧ (sfuRes c 3 k).causes = [] else Inexact (sfuRes c 3 k) := by
  obtain ⟨rfl, mag, real⟩ := input_positive pos within value number h
  obtain ⟨sig, short⟩ := fp32_sig_bounds pos
  obtain ⟨sticky, bits⟩ := sticky_rsqRes sig short (fp32.unit j)
  rw [real] at sticky
  have positive : (0 : ℝ) < numberOf 0 k := by exact_mod_cast h
  have small : 1 / √(numberOf 0 k : ℝ) < 2 ^ 128 - 2 ^ 103 := by
    have bound : 2 ^ (-149 : Int) ≤ numberOf 0 k := mag ▸ (fp32_bounds pos within).1
    have low : ((2 : ℝ) ^ (-75 : Int)) ≤ √(numberOf 0 k : ℝ) := Real.le_sqrt_of_sq_le (by
      calc ((2 : ℝ) ^ (-75 : Int)) ^ 2 ≤ 2 ^ (-149 : Int) := by norm_num
        _ = ((2 ^ (-149 : Int) : ℚ) : ℝ) := by rw [Rat.cast_zpow, Rat.cast_ofNat]
        _ ≤ numberOf 0 k := Rat.cast_le.2 bound)
    calc 1 / √(numberOf 0 k : ℝ) ≤ 1 / 2 ^ (-75 : Int) := one_div_le_one_div_of_le (by positivity) low
      _ < _ := by norm_num
  obtain ⟨i, rounded⟩ := sfuRound_roundedTo sticky bits false small
  rw [rsq_run value rfl, rsqRes]
  refine rounded.result (by simp) ?_
  have nonneg := rounded.number_nonneg
  generalize numberOf 0 (sfuRound _ _ _ _).code = y at nonneg ⊢
  have root : 0 < √(numberOf 0 k : ℝ) := Real.sqrt_pos.2 positive
  have square := Real.sq_sqrt positive.le
  have product : (y : ℝ) = 1 / √(numberOf 0 k : ℝ) ↔ (numberOf 0 k : ℝ) * y ^ 2 = 1 := by
    have nonneg_real : (0 : ℝ) ≤ y := by exact_mod_cast nonneg
    rw [eq_div_iff root.ne', ← sq_eq_sq₀ (mul_nonneg nonneg_real root.le) zero_le_one, mul_pow, square, one_pow, mul_comm]
  rw [product]
  norm_cast

include value in
/-- SIN, COS, TANH and SIGM are inexact (R154). -/
theorem inexact_trig : Inexact (sfuRes c 5 k) ∧ Inexact (sfuRes c 6 k) ∧ Inexact (sfuRes c 7 k) ∧ Inexact (sfuRes c 8 k) := by
  simp only [sfuRes_fin value, sfuFin]
  refine ⟨?_, ?_, inexact_sfuInexact _, inexact_sfuInexact _⟩
  · split <;> exact inexact_sfuInexact _
  · split <;> exact inexact_sfuInexact _

/-- The free result of SIN and COS far from zero, a code of magnitude at most one (R153). -/
theorem far_bound {v : Nat} (h : v < 2 * 0x3F800001) :
    |numberOf 0 (if v < 0x3F800001 then v else 2 ^ 31 + (v - 0x3F800001))| ≤ 1 := by
  have one : fp32.mag 0x3F800000 = 1 := by
    have fraction : fp32.mb = 23 := rfl
    have least : fp32.least = -149 := by decide
    norm_num [FpSpec.mag, FpSpec.sig, FpSpec.unit, fraction, least]
  have bound (negative : Bool) (i : Nat) (hi : i ≤ 0x3F800000) : |numberOf 0 (fp32.sign negative + i)| ≤ 1 := by
    rw [numberOf_sign_add fpSpec_fp32 negative (by rw [fp32_top]; omega)]
    have mono : fp32.mag i ≤ 1 := one ▸ fp32.mag_strictMono.monotone hi
    have nonneg := fp32.mag_nonneg i
    cases negative <;> simpa [abs_of_nonneg nonneg] using mono
  split
  · simpa [fp32_sign] using bound false v (by omega)
  · simpa [fp32_sign] using bound true (v - 0x3F800001) (by omega)

include value in
/-- SIN and COS far from zero (R153). -/
theorem far_cases (size : |numberOf 0 k| = fp32.mag j) (far : 2 ^ 20 < |numberOf 0 k|) :
    |numberOf 0 (sfuRes c 5 k).code| ≤ 1 ∧ |numberOf 0 (sfuRes c 6 k).code| ≤ 1 := by
  have large : Dy.lt ⟨2 ^ 20, 0⟩ ⟨fp32.sig j, fp32.unit j⟩ = true := by
    rw [Dy.lt_iff, Dy.number_int]
    rw [size] at far
    exact_mod_cast far
  constructor
  · rw [sfuRes_fin value, sfuFin, if_pos large]
    exact far_bound (Nat.mod_lt _ (by decide))
  · rw [sfuRes_fin value, sfuFin, if_pos large]
    exact far_bound (Nat.mod_lt _ (by decide))

end

/-! ### Special inputs, NaNs and the words -/

theorem sfuRes_nan {c : RndCtx} {fn k : Nat} (short : k < 2 ^ 32) (nan : (codeVal 0 k).isNan = true) :
    sfuRes c fn k = if (codeVal 0 k).isSnan then ⟨k + 2 ^ 22, flgNV, [1]⟩ else ⟨k, 0, []⟩ := by
  have run : sfuRes c fn k = nanRes (quietCode 0 k) [codeVal 0 k] := by
    rw [← roundVal_nan (Nat.zero_le 2) short nan c, sfuRes]
    obtain ⟨neg, frac, value, -, -⟩ := codeVal_nan (Nat.zero_le 2) short nan
    rw [value]
  rw [run, nanRes_quietCode (Nat.zero_le 2) short nan]
  rfl

/-- The invalid infinities (R154). -/
theorem sfuRes_invalid (c : RndCtx) :
    ∀ q ∈ [(1, 0xFF800000), (3, 0xFF800000), (4, 0xFF800000), (5, 0x7F800000), (5, 0xFF800000), (6, 0x7F800000), (6, 0xFF800000)],
      sfuRes c q.1 q.2 = invalidRes c 0 := by
  rw [← invalidRes_eq]
  intro q hq
  fin_cases hq <;> rfl

theorem sfu_completes : ∀ q ∈ [(Instr.exp2, 0), (Instr.log2, 1), (Instr.rcp, 2), (Instr.rsq, 3), (Instr.sqrt, 4), (Instr.sin, 5), (Instr.cos, 6),
    (Instr.tanh, 7), (Instr.sigm, 8)], ∀ x : FmtU0,
    Completes (q.1 x) { lrWord x.g none [x.a.toNat] [x.d.toNat] with eighths := true } fun c f =>
      let r := sfuRes (laneRnd c none f 0) q.2 (readReg c.p f x.a.toNat).toNat
      (f.setV x.d.toNat (BitVec.ofNat 32 r.code), r.flg, r.causes) := by
  intro q hq x
  refine runPure_completes _ rfl _ _ (fun s => ?_) fun _ _ => rfl
  fin_cases hq <;> rfl

/-- Settles O20: RCP, RSQ and SQRT round an exact quotient or root with a sticky bit, which selects a nearest FP32 value. -/
theorem specialFunctions : Obligations.SpecialFunctions := by
  refine ⟨sfu_completes, fun c => ?_, sfuRes_invalid, fun c fn k _ short nan _ => sfuRes_nan short nan, fun c k short finite nonzero => ?_⟩
  · and_intros <;> rfl
  · obtain ⟨neg, j, pos, within, value, number⟩ := fp32_finite short finite nonzero
    obtain ⟨exp2_large, exp2_small, exp2_exact, exp2_inexact⟩ := exp2_cases (c := c) value
    obtain ⟨log2_exact, log2_inexact⟩ := log2_cases (c := c) pos within value number
    obtain ⟨rcp_large, rcp_near⟩ := rcp_cases (c := c) pos within value number
    obtain ⟨sin_inexact, cos_inexact, tanh_inexact, sigm_inexact⟩ := inexact_trig (c := c) value
    have negative := (input_sign pos within number).1
    refine ⟨exp2_large, exp2_small, exp2_exact, exp2_inexact, log2_exact, log2_inexact, fun below => ?_, rcp_large, rcp_near,
      rsq_cases pos within value number, sqrt_cases pos within value number, sin_inexact, cos_inexact, tanh_inexact, sigm_inexact,
      far_cases value (by rw [number]; cases neg <;> simp [abs_of_nonneg (fp32.mag_nonneg j)])⟩
    have sign := negative.2 below
    exact ⟨negative_invalid value sign (.inl rfl), negative_invalid value sign (.inr (.inl rfl)), negative_invalid value sign (.inr (.inr rfl))⟩

end Sys2Proof.Machine
end
section
/-! FMIN, FMAX, FCMP, FCLASS and FRND (R118, R142 to R145). -/

namespace Sys2Proof.Machine

/-! ### The order of the values -/

/-- The place of the infinities: below and above the numbers. -/
def Val.key (v : Val) : Int :=
  match v with
  | .inf true => -1
  | .inf false => 1
  | _ => 0

/-- A value in the order of the numbers with the infinities at its ends; a NaN counts as zero. -/
def Val.extended (v : Val) : WithBot (WithTop ℚ) :=
  match v with
  | .inf true => ⊥
  | .inf false => ((⊤ : WithTop ℚ) : WithBot (WithTop ℚ))
  | v => ((v.dy.number : WithTop ℚ) : WithBot (WithTop ℚ))

theorem extendedOf_eq (ty k : Nat) : extendedOf ty k = (codeVal ty k).extended := by
  unfold extendedOf numberOf
  generalize codeVal ty k = v
  cases v with
  | inf n => cases n <;> rfl
  | nan n f => rfl
  | zero n => rfl
  | fin n m e => rfl

theorem Val.extended_cases (v : Val) : (v.key = -1 ∧ v.extended = ⊥ ∧ v.dy.number = 0) ∨
    (v.key = 1 ∧ v.extended = ((⊤ : WithTop ℚ) : WithBot (WithTop ℚ)) ∧ v.dy.number = 0) ∨
    (v.key = 0 ∧ v.extended = ((v.dy.number : WithTop ℚ) : WithBot (WithTop ℚ))) := by
  have zero : (Dy.mk 0 0).number = 0 := by simp [Dy.number]
  cases v with
  | inf n => cases n
             · exact .inr (.inl ⟨rfl, rfl, zero⟩)
             · exact .inl ⟨rfl, rfl, zero⟩
  | nan n f => exact .inr (.inr ⟨rfl, rfl⟩)
  | zero n => exact .inr (.inr ⟨rfl, rfl⟩)
  | fin n m e => exact .inr (.inr ⟨rfl, rfl⟩)

theorem Val.extended_lt_iff (a b : Val) : a.extended < b.extended ↔ a.key < b.key ∨ a.key = b.key ∧ a.dy.number < b.dy.number := by
  have below_top (q : ℚ) : ((q : WithTop ℚ) : WithBot (WithTop ℚ)) < ⊤ := WithBot.coe_lt_coe.2 (WithTop.coe_lt_top q)
  rcases a.extended_cases with ⟨ka, ea, na⟩ | ⟨ka, ea, na⟩ | ⟨ka, ea⟩ <;> rcases b.extended_cases with ⟨kb, eb, nb⟩ | ⟨kb, eb, nb⟩ | ⟨kb, eb⟩ <;>
    simp [*]

/-- The model's order of two values is the order of the numbers and infinities. -/
theorem valOrd_eq_cmp (a b : Val) : valOrd a b = cmp a.extended b.extended := by
  have unfolded : valOrd a b = if a.key < b.key then .lt else if b.key < a.key then .gt
      else if a.dy.lt b.dy then .lt else if b.dy.lt a.dy then .gt else .eq := rfl
  rw [unfolded, cmp, cmpUsing]
  simp only [Val.extended_lt_iff, Dy.lt_iff]
  rcases lt_trichotomy a.key b.key with lt | eq | gt
  · simp [lt]
  · simp [eq]
  · simp [gt, gt.not_gt, gt.ne']

theorem valOrd_eq (a b : Val) : valOrd a b = .eq ↔ a.extended = b.extended := by
  rw [valOrd_eq_cmp, cmp_eq_eq_iff]

theorem valOrd_lt (a b : Val) : valOrd a b = .lt ↔ a.extended < b.extended := by
  rw [valOrd_eq_cmp, cmp_eq_lt_iff]

theorem valOrd_gt (a b : Val) : valOrd a b = .gt ↔ b.extended < a.extended := by
  rw [valOrd_eq_cmp, cmp_eq_gt_iff]

theorem valBelow_iff (a b : Val) :
    valBelow a b = true ↔ a.extended < b.extended ∨ a.extended = b.extended ∧ a.isNeg = true ∧ b.isNeg = false := by
  unfold valBelow
  cases order : valOrd a b with
  | lt => simp [(valOrd_lt a b).1 order]
  | gt =>
    have above := (valOrd_gt a b).1 order
    simp [above.not_gt, above.ne']
  | eq => simp [(valOrd_eq a b).1 order]

theorem snanFlags_pair (a b : Val) : snanFlags [a, b] = if a.isSnan ∨ b.isSnan then (flgNV, [1]) else (0, []) := by
  simp [snanFlags]

/-! ### FMIN and FMAX -/

theorem extended_min (a b : Val) : (if valBelow b a then b else a).extended = min a.extended b.extended := by
  split
  · rename_i below
    rcases (valBelow_iff b a).1 below with lt | ⟨eq, -⟩
    · exact (min_eq_right lt.le).symm
    · exact (min_eq_right eq.le).symm
  · rename_i above
    exact (min_eq_left (not_lt.1 fun lt => above ((valBelow_iff b a).2 (.inl lt)))).symm

theorem extended_max (a b : Val) : (if valBelow a b then b else a).extended = max a.extended b.extended := by
  split
  · rename_i below
    rcases (valBelow_iff a b).1 below with lt | ⟨eq, -⟩
    · exact (max_eq_right lt.le).symm
    · exact (max_eq_right eq.le).symm
  · rename_i above
    exact (max_eq_left (not_lt.1 fun lt => above ((valBelow_iff a b).2 (.inl lt)))).symm

/-- Between equals, the sign decides: -0 below +0 (R142). -/
theorem valBelow_of_eq {a b : Val} (eq : a.extended = b.extended) (apart : a.isNeg ≠ b.isNeg) : valBelow a b = a.isNeg := by
  rw [Bool.eq_iff_iff, valBelow_iff]
  cases ha : a.isNeg <;> cases hb : b.isNeg <;> simp_all

section
variable {pc fid ty k l : Nat} {m : Bool}

/-- The branches of FMIN and FMAX: a NaN is ignored beside a number (R142). -/
theorem minMaxCode_eq (h : ty ≤ 2) : minMaxCode pc fid ty m k l =
    let a := codeVal ty k
    let b := codeVal ty l
    if a.isNan = true ∧ b.isNan = true then
      ⟨(roundVal ⟨0, 0, fid, 0, pc, false⟩ ty a).code, (snanFlags [a, b]).1, (snanFlags [a, b]).2⟩
    else if a.isNan = true then ⟨l, (snanFlags [a, b]).1, (snanFlags [a, b]).2⟩
    else if b.isNan = true then ⟨k, (snanFlags [a, b]).1, (snanFlags [a, b]).2⟩
    else ⟨if m then (if valBelow a b then l else k) else if valBelow b a then l else k, 0, []⟩ := by
  unfold minMaxCode
  generalize codeVal ty k = a
  generalize codeVal ty l = b
  cases a with
  | nan n f =>
    cases b with
    | nan n' f' => simp [roundVal_nan_code h, Val.isNan]
    | inf _ => rfl
    | zero _ => rfl
    | fin _ _ _ => rfl
  | inf _ => cases b <;> rfl
  | zero _ => cases b <;> rfl
  | fin _ _ _ => cases b <;> rfl

theorem isSnan_of_number {v : Val} (h : v.isNan = false) : v.isSnan = false := by
  cases v with
  | nan n f => cases h
  | inf n => rfl
  | zero n => rfl
  | fin n m e => rfl

theorem extended_of_isZero {v : Val} (h : v.isZero = true) : v.extended = ((0 : WithTop ℚ) : WithBot (WithTop ℚ)) := by
  cases v with
  | zero n => simp [Val.extended, Val.dy, Dy.number]
  | nan n f => cases h
  | inf n => cases h
  | fin n m e => cases h

/-- FMIN and FMAX of numbers and infinities: one of the operands whole, the smaller or the larger, -0 below +0 (R142). -/
theorem minMaxCode_number (h : ty ≤ 2) (ha : (codeVal ty k).isNan = false) (hb : (codeVal ty l).isNan = false) :
    let r := minMaxCode pc fid ty m k l
    let a := codeVal ty k
    let b := codeVal ty l
    (r.code = k ∨ r.code = l) ∧ r.flg = 0 ∧ r.causes = [] ∧
      extendedOf ty r.code = (if m then max (extendedOf ty k) (extendedOf ty l) else min (extendedOf ty k) (extendedOf ty l)) ∧
      (a.isZero = true → b.isZero = true → a.isNeg ≠ b.isNeg → (codeVal ty r.code).isNeg = !m) := by
  have run := minMaxCode_eq (pc := pc) (fid := fid) (k := k) (l := l) (m := m) h
  simp only [ha, hb, Bool.false_eq_true, false_and, if_false] at run
  intro r a b
  have code : r = _ := run
  rw [code]
  have value (p : Bool) : codeVal ty (if p = true then l else k) = if p = true then b else a := apply_ite (codeVal ty) _ _ _
  refine ⟨?_, rfl, rfl, ?_, fun za zb apart => ?_⟩
  · dsimp only
    split <;> split <;> simp
  · simp only [extendedOf_eq]
    cases m
    · exact (congrArg Val.extended (value _)).trans (extended_min a b)
    · exact (congrArg Val.extended (value _)).trans (extended_max a b)
  · have same : a.extended = b.extended := (extended_of_isZero za).trans (extended_of_isZero zb).symm
    cases m
    · refine (congrArg Val.isNeg (value _)).trans ?_
      rw [valBelow_of_eq same.symm apart.symm]
      cases hb : b.isNeg <;> simp_all
    · refine (congrArg Val.isNeg (value _)).trans ?_
      rw [valBelow_of_eq same apart]
      cases ha : a.isNeg <;> simp_all

/-- The flags and records of FMIN and FMAX are those of their operands (R118). -/
theorem minMaxCode_flags (h : ty ≤ 2) :
    ((minMaxCode pc fid ty m k l).flg, (minMaxCode pc fid ty m k l).causes) = snanFlags [codeVal ty k, codeVal ty l] := by
  rw [minMaxCode_eq h]
  dsimp only
  split
  · rfl
  split
  · rfl
  split
  · rfl
  · rename_i left right
    rw [snanFlags_pair, isSnan_of_number (Bool.eq_false_iff.2 left), isSnan_of_number (Bool.eq_false_iff.2 right)]
    rfl

theorem minMaxCode_spec (h : ty ≤ 2) :
    let r := minMaxCode pc fid ty m k l
    let a := codeVal ty k
    let b := codeVal ty l
    (a.isNan = false → b.isNan = false → (r.code = k ∨ r.code = l) ∧ r.flg = 0 ∧ r.causes = [] ∧
      extendedOf ty r.code = (if m then max (extendedOf ty k) (extendedOf ty l) else min (extendedOf ty k) (extendedOf ty l)) ∧
      (a.isZero = true → b.isZero = true → a.isNeg ≠ b.isNeg → (codeVal ty r.code).isNeg = !m)) ∧
    (a.isNan = true → b.isNan = false → r.code = l) ∧ (a.isNan = false → b.isNan = true → r.code = k) ∧
    (a.isNan = true → b.isNan = true → r.code = (roundVal ⟨0, 0, fid, 0, pc, false⟩ ty a).code) ∧
    (r.flg, r.causes) = if a.isSnan ∨ b.isSnan then (flgNV, [1]) else (0, []) := by
  refine ⟨minMaxCode_number h, fun ha hb => ?_, fun ha hb => ?_, fun ha hb => ?_, (minMaxCode_flags h).trans (snanFlags_pair _ _)⟩
  all_goals
    rw [minMaxCode_eq h]
    simp [ha, hb]

end

theorem minMax_completes : ∀ q ∈ [(Instr.fmin, false), (Instr.fmax, true)], ∀ x : FmtR,
    Completes (q.1 x) (lrWord x.g x.p [x.a.toNat, x.b.toNat] [x.d.toNat] (pTy x.p)) fun c f =>
      let r := byElem (pTy x.p) [readReg c.p f x.a.toNat, readReg c.p f x.b.toNat] fun _ l =>
        minMaxCode c.iss.pc.toNat f.fid (elemTy (pTy x.p)) q.2 (l.getD 0 0) (l.getD 1 0)
      (f.setV x.d.toNat r.1, r.2.1, r.2.2) := by
  intro q hq x
  refine runPure_completes _ rfl _ _ (fun s => ?_) fun _ _ => rfl
  fin_cases hq <;> rfl

/-! ### FCMP -/

section
variable (a b : Val)

theorem valOrd_beq_eq : (valOrd a b == .eq) = decide (a.extended = b.extended) := by
  rw [Bool.eq_iff_iff, beq_iff_eq, decide_eq_true_iff, valOrd_eq]

theorem valOrd_beq_lt : (valOrd a b == .lt) = decide (a.extended < b.extended) := by
  rw [Bool.eq_iff_iff, beq_iff_eq, decide_eq_true_iff, valOrd_lt]

theorem valOrd_bne_lt : (valOrd a b != .lt) = decide (b.extended ≤ a.extended) := by
  rw [Bool.eq_iff_iff, bne_iff_ne, decide_eq_true_iff, ← not_lt, ← valOrd_lt]

theorem valOrd_beq_gt : (valOrd a b == .gt) = decide (b.extended < a.extended) := by
  rw [Bool.eq_iff_iff, beq_iff_eq, decide_eq_true_iff, valOrd_gt]

theorem valOrd_bne_gt : (valOrd a b != .gt) = decide (a.extended ≤ b.extended) := by
  rw [Bool.eq_iff_iff, bne_iff_ne, decide_eq_true_iff, ← not_lt, ← valOrd_gt]

end

theorem fcmp_completes (x : FmtC0) : Completes (.fcmp x) (lrWord x.g none [x.a.toNat, x.b.toNat] []) fun c f =>
    let k := (readReg c.p f x.a.toNat).toNat
    let l := (readReg c.p f x.b.toNat).toNat
    let unordered := (codeVal 0 k).isNan ∨ (codeVal 0 l).isNan
    (f.setPred x.pd.toNat (match x.cond.toNat with
      | 0 => decide (¬unordered ∧ extendedOf 0 k = extendedOf 0 l)
      | 1 => decide (unordered ∨ extendedOf 0 k ≠ extendedOf 0 l)
      | 2 => decide (¬unordered ∧ extendedOf 0 k < extendedOf 0 l)
      | 3 => decide (¬unordered ∧ extendedOf 0 k ≤ extendedOf 0 l)
      | 4 => decide (¬unordered ∧ extendedOf 0 l < extendedOf 0 k)
      | 5 => decide (¬unordered ∧ extendedOf 0 l ≤ extendedOf 0 k)
      | 6 => decide unordered
      | _ => decide ¬unordered),
      if (codeVal 0 k).isSnan ∨ (codeVal 0 l).isSnan then (flgNV, [1]) else (0, [])) := by
  refine Completes.of _ (fun _ => by rfl) rfl (fun _ f => f.setPred_fid _ _) fun c f => ?_
  dsimp only
  rw [snanFlags_pair]
  simp only [extendedOf_eq]
  generalize codeVal 0 (readReg c.p f x.a.toNat).toNat = a
  generalize codeVal 0 (readReg c.p f x.b.toNat).toNat = b
  refine congrArg (fun p => (f.setPred x.pd.toNat p, _)) ?_
  match x.cond.toNat with
  | 0 => simp [fcond, valOrd_beq_eq]
  | 1 => simp [fcond, valOrd_beq_eq, bne]
  | 2 => simp [fcond, valOrd_beq_lt]
  | 3 => simp [fcond, valOrd_bne_gt]
  | 4 => simp [fcond, valOrd_beq_gt]
  | 5 => simp [fcond, valOrd_bne_lt]
  | 6 => simp [fcond]
  | n + 7 => simp [fcond]

/-! ### FCLASS -/

theorem abs_numberOf {f : FpSpec} {x : ℚ} {neg : Bool} {j : Nat} (number : x = (if neg then -1 else 1) * f.mag j) : |x| = f.mag j := by
  rw [number]
  cases neg <;> simp [abs_of_nonneg (f.mag_nonneg j)]

/-- The exponent field of a code is zero below the first normal. -/
theorem field_exponent {f : FpSpec} (neg : Bool) {j : Nat} (short : j < 2 ^ (f.eb + f.mb)) :
    field (f.sign neg + j) f.mb f.eb = 0 ↔ ¬ (2 : ℚ) ^ (1 - f.bias) ≤ f.mag j := by
  have pos : 0 < 2 ^ f.mb := Nat.two_pow_pos _
  have exponent : field (f.sign neg + j) f.mb f.eb = j / 2 ^ f.mb := by
    have bound : j / 2 ^ f.mb < 2 ^ f.eb := Nat.div_lt_of_lt_mul (by rwa [← pow_add, Nat.add_comm])
    unfold field FpSpec.sign
    split
    · rw [pow_add, Nat.mul_comm, Nat.mul_add_div pos, Nat.add_mod_left, Nat.mod_eq_of_lt bound]
    · rw [Nat.zero_add, Nat.mod_eq_of_lt bound]
  rw [exponent, ← f.mag_normal, f.mag_strictMono.le_iff_le, Nat.div_eq_zero_iff, not_le]
  omega

/-- The smallest normal of FP32, FP16 and BF16. -/
theorem fpSpec_normal {ty : Nat} {f : FpSpec} (small : ty ≤ 2) (h : fpSpec ty = some f) :
    (if ty = 1 then 2 ^ (-14 : Int) else 2 ^ (-126 : Int) : ℚ) = 2 ^ (1 - f.bias) := by
  interval_cases ty
  all_goals
    obtain rfl := Option.some.inj h
    rfl

theorem classWord_spec {ty k : Nat} (small : ty ≤ 2) (short : k < 2 ^ tyWidth ty) :
    let least : ℚ := if ty = 1 then 2 ^ (-14 : Int) else 2 ^ (-126 : Int)
    let quiet := if ty = 0 then 22 else if ty = 1 then 9 else 6
    classWord ty k = match codeVal ty k with
      | .inf n => if n then 1 else 128
      | .zero n => if n then 8 else 16
      | .fin n _ _ => if least ≤ |numberOf ty k| then (if n then 2 else 64) else if n then 4 else 32
      | .nan _ _ => if k.testBit quiet = false then 256 else if k.testBit (quiet - 1) = false then 512 else 512 + 1024 := by
  obtain ⟨f, h, -⟩ := fpSpec_small small
  intro least quiet
  have normal : least = 2 ^ (1 - f.bias) := fpSpec_normal small h
  simp only [classWord, h]
  cases value : codeVal ty k with
  | inf n => rfl
  | zero n => rfl
  | fin n m e =>
    obtain ⟨neg, j, rfl, within, -, number⟩ := magnitude_of_isFinite h short (by rw [isFinite, value]; exact ⟨rfl, rfl⟩)
    have exponent := field_exponent (f := f) neg (within.trans_lt (FpSpec.top_bounds (fpSpec_sound h).1).2)
    rw [← normal, ← abs_numberOf number] at exponent
    dsimp only
    by_cases above : least ≤ |numberOf ty (f.sign neg + j)|
    · rw [if_neg (mt exponent.1 (not_not.2 above)), if_pos above]
      cases n <;> rfl
    · rw [if_pos (exponent.2 above), if_neg above]
      cases n <;> rfl
  | nan n frac =>
    obtain ⟨neg, payload, eq, bit22, bit21, -⟩ := codeVal_nan small short (by rw [value]; rfl)
    obtain ⟨rfl, rfl⟩ := Val.nan.inj (value.symm.trans eq)
    have same : quiet = quietBit ty := rfl
    dsimp only
    rw [bit22, bit21, same]
    cases k.testBit (quietBit ty) <;> cases k.testBit (quietBit ty - 1) <;> rfl

theorem fclass_completes (x : FmtU) : Completes (.fclass x) (lrWord x.g x.p [x.a.toNat] [x.d.toNat]) fun c f =>
    (f.setV x.d.toNat (BitVec.ofNat 32 (classWord (pTy x.p) ((readReg c.p f x.a.toNat).toNat % 2 ^ tyWidth (pTy x.p)))), 0, []) :=
  runPure_completes _ rfl _ _ (fun _ => by rfl) fun _ _ => rfl

/-! ### FRND -/

/-- What the modes select for a magnitude t of a sign (R110). -/
def SelectsMagnitude (rm : Nat) (neg : Bool) (t : ℚ) (n : Nat) : Prop :=
  |(n : ℚ) - t| < 1 ∧ (rm = 1 → (n : ℚ) ≤ t) ∧ (rm = 2 → if neg then (n : ℚ) ≤ t else t ≤ n) ∧ (rm = 3 → if neg then t ≤ n else (n : ℚ) ≤ t) ∧
    (rm = 0 ∨ rm = 4 → 2 * |(n : ℚ) - t| ≤ 1) ∧ (2 * |(n : ℚ) - t| = 1 → (rm = 0 → Even n) ∧ (rm = 4 → t ≤ n))

theorem SelectsMagnitude.selectsInt {rm : Nat} {neg : Bool} {t : ℚ} {n : Nat} (nonneg : 0 ≤ t) (h : SelectsMagnitude rm neg t n) :
    SelectsInt rm ((if neg then -1 else 1) * t) (if neg then -(n : Int) else n) := by
  obtain ⟨near, zero, up, down, nearest, tie⟩ := h
  cases neg
  · simp only [Bool.false_eq_true, if_false, one_mul, SelectsInt, Int.cast_natCast, Int.even_coe_nat, abs_of_nonneg nonneg, Nat.abs_cast]
    exact ⟨near, zero, up, down, nearest, tie⟩
  · have apart : |-(n : ℚ) - -t| = |(n : ℚ) - t| := by
      rw [← abs_neg]
      ring_nf
    simp only [if_true] at up down
    simp only [if_true, SelectsInt, Int.cast_neg, Int.cast_natCast, neg_one_mul, apart, abs_neg, Nat.abs_cast, even_neg, Int.even_coe_nat,
      abs_of_nonneg nonneg, neg_le_neg_iff]
    exact ⟨near, zero, up, down, nearest, tie⟩

/-- The remainder of a magnitude against the half of a unit. -/
theorem remainder_bounds {r d : Nat} (rd : r < d) :
    0 ≤ (r : ℚ) / d ∧ (r : ℚ) / d < 1 ∧ ((r : ℚ) / d = 0 ↔ r = 0) ∧ ((r : ℚ) / d < 1 / 2 ↔ 2 * r < d) ∧ ((r : ℚ) / d = 1 / 2 ↔ 2 * r = d) := by
  have pos : (0 : ℚ) < d := by exact_mod_cast (Nat.zero_le r).trans_lt rd
  refine ⟨by positivity, (div_lt_one pos).2 (by exact_mod_cast rd), ?_, ?_, ?_⟩
  · rw [div_eq_zero_iff, or_iff_left pos.ne', Nat.cast_eq_zero]
  · rw [div_lt_div_iff₀ pos two_pos, one_mul, mul_comm]
    norm_cast
  · rw [div_eq_div_iff pos.ne' two_ne_zero, one_mul, mul_comm]
    norm_cast

/-- Rounding a magnitude n + r / d up or not, as the mode has it. -/
theorem roundsUp_selects (c : RndCtx) (neg : Bool) {n r d : Nat} (rd : r < d) :
    SelectsMagnitude c.rm neg (n + (r : ℚ) / d) (if r ≠ 0 ∧ roundsUp c neg (n % 2 == 0) r d = true then n + 1 else n) := by
  obtain ⟨nonneg, one, zero, half, tie⟩ := remainder_bounds rd
  have mode0 (h : c.rm = 0) : roundsUp c neg (n % 2 == 0) r d = true ↔ d < 2 * r ∨ d = 2 * r ∧ n % 2 = 1 := by
    simp [roundsUp, h]
  have mode1 (h : c.rm = 1) : ¬roundsUp c neg (n % 2 == 0) r d = true := by simp [roundsUp, h]
  have mode2 (h : c.rm = 2) : roundsUp c neg (n % 2 == 0) r d = true ↔ neg = false := by simp [roundsUp, h]
  have mode3 (h : c.rm = 3) : roundsUp c neg (n % 2 == 0) r d = true ↔ neg = true := by simp [roundsUp, h]
  have mode4 (h : c.rm = 4) : roundsUp c neg (n % 2 == 0) r d = true ↔ d ≤ 2 * r := by simp [roundsUp, h]
  generalize roundsUp c neg (n % 2 == 0) r d = up at *
  generalize (r : ℚ) / d = rest at *
  by_cases h : r ≠ 0 ∧ up = true
  · obtain ⟨nonzero, rfl⟩ := h
    have positive : 0 < rest := lt_of_le_of_ne nonneg fun eq => nonzero (zero.1 eq.symm)
    have apart : |((n + 1 : Nat) : ℚ) - (n + rest)| = 1 - rest := by
      rw [Nat.cast_add_one, add_sub_add_left_eq_sub, abs_of_pos (by linarith)]
    rw [if_pos ⟨nonzero, rfl⟩, SelectsMagnitude, apart]
    have reach : (n : ℚ) + rest ≤ (n + 1 : Nat) := by
      push_cast
      linarith
    have upper (le : ¬2 * r < d) : 2 * (1 - rest) ≤ 1 := by
      have := mt half.1 le
      linarith
    refine ⟨by linarith, fun rm => (mode1 rm rfl).elim, fun rm => ?_, fun rm => ?_, ?_, fun eq => ⟨fun rm => ?_, fun _ => reach⟩⟩
    · rw [(mode2 rm).1 rfl]
      exact reach
    · rw [(mode3 rm).1 rfl]
      exact reach
    · rintro (rm | rm)
      · exact upper (by have := (mode0 rm).1 rfl; omega)
      · exact upper (by have := (mode4 rm).1 rfl; omega)
    · have := tie.1 (by linarith)
      have := (mode0 rm).1 rfl
      exact Nat.even_iff.2 (by omega)
  · have apart : |(n : ℚ) - (n + rest)| = rest := by
      rw [sub_add_cancel_left, abs_neg, abs_of_nonneg nonneg]
    rw [if_neg h, SelectsMagnitude, apart]
    have below : (n : ℚ) ≤ n + rest := by linarith
    have exact_ (set : up = true) : (n : ℚ) + rest ≤ n := by
      have := zero.2 (by_contra fun nonzero => h ⟨nonzero, set⟩)
      linarith
    have lower (le : 2 * r ≤ d) : 2 * rest ≤ 1 := by
      rcases le.lt_or_eq with lt | eq
      · have := half.2 lt
        linarith
      · have := tie.2 eq
        linarith
    refine ⟨one, fun _ => below, fun rm => ?_, fun rm => ?_, fun rm => lower (by_contra fun gt => ?_), fun eq => ?_⟩
    · cases neg
      · exact exact_ ((mode2 rm).2 rfl)
      · exact below
    · cases neg
      · exact below
      · exact exact_ ((mode3 rm).2 rfl)
    · rcases rm with rm | rm
      · exact h ⟨by omega, (mode0 rm).2 (by omega)⟩
      · exact h ⟨by omega, (mode4 rm).2 (by omega)⟩
    · have half_way := tie.1 (by linarith)
      exact ⟨fun rm => Nat.even_iff.2 (by_contra fun odd => h ⟨by omega, (mode0 rm).2 (by omega)⟩),
        fun rm => (h ⟨by omega, (mode4 rm).2 (by omega)⟩).elim⟩

/-- Rounding to an integer (R110): the mode selects it, and it has no more digits than the significand, or is the number itself. -/
theorem roundInt_spec (c : RndCtx) (neg : Bool) {m : Nat} (hm : 0 < m) (e : Int) : ∃ n : Nat,
    (roundInt c neg m e).1 = (if neg then -(n : Int) else n) ∧ SelectsMagnitude c.rm neg (m * 2 ^ e) n ∧ (n ≤ m ∨ (n : ℚ) = m * 2 ^ e) := by
  obtain ⟨n, r, d, split, rd, eq⟩ := splitAt_spec m e 0
  rw [zpow_zero, mul_one] at eq
  refine ⟨if r ≠ 0 ∧ roundsUp c neg (n % 2 == 0) r d = true then n + 1 else n, ?_, ?_, ?_⟩
  · unfold roundInt
    rw [split]
    push_cast
    rfl
  · rw [eq]
    exact roundsUp_selects c neg rd
  · rcases le_or_gt 0 e with whole | fraction
    · obtain ⟨rfl, rfl, rfl⟩ : m * pow2 (e - 0) = n ∧ 0 = r ∧ 1 = d := by simpa [splitAt, whole] using split
      exact .inr (by simpa using eq.symm)
    · obtain ⟨rfl, rfl, rfl⟩ : m / pow2 (0 - e) = n ∧ m % pow2 (0 - e) = r ∧ pow2 (0 - e) = d := by simpa [splitAt, fraction.not_ge] using split
      have two : 2 ≤ pow2 (0 - e) := Nat.le_self_pow (n := (0 - e).toNat) (by omega) 2
      have shrinks : m / pow2 (0 - e) < m := Nat.div_lt_self hm two
      exact .inl (by split <;> omega)

theorem frndCode_fin {c : RndCtx} {ty k : Nat} {neg : Bool} {m : Nat} {e : Int} (value : codeVal ty k = .fin neg m e) {n : Nat}
    (round : (roundInt c neg m e).1 = if neg then -(n : Int) else n) {f : FpSpec} (h : fpSpec ty = some f) {i : Nat} (within : i ≤ f.top)
    (mag : (n : ℚ) = f.mag i) : frndCode c ty k = ⟨f.sign neg + i, 0, []⟩ := by
  have code : roundVal c ty (if (roundInt c neg m e).1 = 0 then .zero neg else .ofInt (roundInt c neg m e).1) = ⟨f.sign neg + i, 0, []⟩ := by
    rw [round]
    rcases Nat.eq_zero_or_pos n with rfl | pos
    · obtain rfl : i = 0 := f.mag_strictMono.injective (by rw [← mag, f.mag_zero]; rfl)
      rw [if_pos (by simp)]
      exact roundVal_zero_fp h c neg
    · rw [if_neg (by split <;> omega), roundVal_ofInt h c within (by rw [← mag]; split <;> simp)]
      congr 3
      cases neg <;> simp [pos]
  unfold frndCode
  rw [value]
  dsimp only
  rw [code]

/-- The integers up to twice the significands are numbers of FP32, FP16 and BF16. -/
theorem fpSpec_integers {ty : Nat} {f : FpSpec} (small : ty ≤ 2) (h : fpSpec ty = some f) {n : Nat} (hn : n ≤ 2 ^ (f.mb + 1)) :
    ∃ i ≤ f.top, (n : ℚ) = f.mag i := by
  have bounds : f.least ≤ 0 ∧ 2 ^ f.mb ≤ f.sig f.top ∧ 1 ≤ f.unit f.top := by
    interval_cases ty
    all_goals
      obtain rfl := Option.some.inj h
      decide
  obtain ⟨least, sig, unit⟩ := bounds
  obtain ⟨i, mag⟩ := f.exists_mag hn least
  rw [zpow_zero, mul_one] at mag
  refine ⟨i, f.mag_strictMono.le_iff_le.1 ?_, mag.symm⟩
  calc f.mag i = n := mag
    _ ≤ 2 ^ (f.mb + 1) := by exact_mod_cast hn
    _ = (2 ^ f.mb : Nat) * 2 ^ (1 : Int) := by push_cast; ring
    _ ≤ f.mag f.top := mul_le_mul (by exact_mod_cast sig) (zpow_le_zpow_right₀ one_le_two unit) (by positivity) (by positivity)

theorem frndCode_finite {c : RndCtx} {ty k : Nat} (small : ty ≤ 2) (short : k < 2 ^ tyWidth ty) (finite : isFinite ty k) :
    let r := frndCode c ty k
    r.flg = 0 ∧ r.causes = [] ∧ isFinite ty r.code ∧ (codeVal ty r.code).isNeg = (codeVal ty k).isNeg ∧
      ∃ n : Int, numberOf ty r.code = n ∧ SelectsInt c.rm (numberOf ty k) n := by
  obtain ⟨f, h, -⟩ := fpSpec_small small
  obtain ⟨neg, j, rfl, within, value, number⟩ := magnitude_of_isFinite h short finite
  have sound := (fpSpec_sound h).1
  obtain ⟨n, i, within_i, mag, selects, run⟩ : ∃ n i : Nat, i ≤ f.top ∧ (n : ℚ) = f.mag i ∧ SelectsMagnitude c.rm neg (f.mag j) n ∧
      frndCode c ty (f.sign neg + j) = ⟨f.sign neg + i, 0, []⟩ := by
    rcases Nat.eq_zero_or_pos j with rfl | pos
    · refine ⟨0, 0, within, by simp [f.mag_zero], by simp [SelectsMagnitude, f.mag_zero], ?_⟩
      unfold frndCode
      rw [value]
      exact roundVal_zero_fp h c neg
    · rw [FpSpec.val, if_neg pos.ne'] at value
      have sig := f.sig_pos pos.ne'
      obtain ⟨n, round, selects, small_n⟩ := roundInt_spec c neg sig (f.unit j)
      have held : ∃ i ≤ f.top, (n : ℚ) = f.mag i := by
        rcases small_n with short_n | same
        · exact fpSpec_integers small h (short_n.trans (f.sig_lt j).le)
        · exact ⟨j, within, same⟩
      obtain ⟨i, within_i, mag⟩ := held
      exact ⟨n, i, within_i, mag, selects, frndCode_fin value round h within_i mag⟩
  rw [run]
  dsimp only
  rw [numberOf_sign_add h neg within_i, number]
  refine ⟨rfl, rfl, (isFinite_sign_add h neg (within_i.trans_lt (FpSpec.top_bounds sound).2)).2 within_i, ?_, _, ?_, selects.selectsInt (f.mag_nonneg j)⟩
  · rw [codeVal_finite h neg within_i, value, f.isNeg_val, f.isNeg_val]
  · rw [← mag]
    cases neg <;> simp

theorem frndCode_special {c : RndCtx} {ty k : Nat} (small : ty ≤ 2) (short : k < 2 ^ tyWidth ty) (wide : c.narrow = false) :
    ((codeVal ty k).isZero = true ∨ (codeVal ty k).isInf = true → frndCode c ty k = ⟨k, 0, []⟩) ∧
    ((codeVal ty k).isNan = true →
      frndCode c ty k = if (codeVal ty k).isSnan then ⟨k + 2 ^ (if ty = 0 then 22 else if ty = 1 then 9 else 6), flgNV, [1]⟩ else ⟨k, 0, []⟩) := by
  obtain ⟨f, h, -⟩ := fpSpec_small small
  have run (special : ∀ n m e, codeVal ty k ≠ .fin n m e) : frndCode c ty k = roundVal c ty (codeVal ty k) := by
    unfold frndCode
    split
    · rename_i value
      exact (special _ _ _ value).elim
    · rfl
  refine ⟨fun zero_or_inf => ?_, fun nan => ?_⟩
  · rw [run (fun n m e value => by simp [value, Val.isZero, Val.isInf] at zero_or_inf)]
    refine roundVal_codeVal_fp h c short ?_ fun _ => wide
    cases value : codeVal ty k <;> simp_all [Val.isZero, Val.isInf, Val.isNan]
  · rw [run (fun n m e value => by simp [value, Val.isNan] at nan), roundVal_nan small short nan, nanRes_quietCode small short nan]
    rfl

theorem frnd_completes (x : FmtU) : Completes (.frnd x) (lrWord x.g x.p (withSeed x.p [x.a.toNat]) [x.d.toNat] (pTy x.p)) fun c f =>
    let r := frndCode (laneRnd c x.p f 0) (pTy x.p) ((readReg c.p f x.a.toNat).toNat % 2 ^ tyWidth (pTy x.p))
    (f.setV x.d.toNat (BitVec.ofNat 32 r.code), r.flg, r.causes) :=
  runPure_completes _ rfl _ _ (fun _ => by rfl) fun _ _ => rfl

/-- Settles O17: the model's order is that of the numbers with the infinities at its ends, and an integer that FRND selects is a number of its format. -/
theorem minMaxCompareClassRound : Obligations.MinMaxCompareClassRound :=
  ⟨⟨minMax_completes, fun _ _ _ _ _ _ small _ _ => minMaxCode_spec small, fcmp_completes⟩, fclass_completes,
    fun _ _ small short => classWord_spec small short, frnd_completes,
    fun _ _ _ small short wide => ⟨frndCode_finite small short, frndCode_special small short wide⟩⟩

end Sys2Proof.Machine
end
section
/-! SUPPORT. Exact sums and products of values, and their one rounding (R117, R118, R141). -/

namespace Sys2Proof.Machine

/-! ### Values that are exact numbers -/

/-- A value that is the exact number x: neither a NaN nor an infinity, and a zero only where x is zero. -/
structure Val.Is (v : Val) (x : ℚ) : Prop where
  notNan : v.isNan = false
  notInf : v.isInf = false
  number : v.dy.number = x
  zero_iff : v.isZero = true ↔ x = 0

theorem Val.Is.roundsOnce {v : Val} {x : ℚ} (h : v.Is x) (c : RndCtx) (ty : Nat) {zero : Bool} (sign : x = 0 → v.isNeg = zero) :
    RoundsOnce c ty x zero (roundVal c ty v) :=
  ⟨v, h.notNan, h.notInf, h.number, h.zero_iff, sign, rfl⟩

theorem Val.is_zero (neg : Bool) : (Val.zero neg).Is 0 :=
  ⟨rfl, rfl, by simp [Val.dy, Dy.number], iff_of_true rfl rfl⟩

theorem Val.is_fin (neg : Bool) {m : Nat} (hm : 0 < m) (e : Int) : (Val.fin neg m e).Is ((if neg then -1 else 1) * (m * 2 ^ e)) := by
  refine ⟨rfl, rfl, Val.number_fin neg m e, iff_of_false (by simp [Val.isZero]) ?_⟩
  have : (0 : ℚ) < m * 2 ^ e := mul_pos (by exact_mod_cast hm) (two_zpow_pos e)
  cases neg <;> simp [this.ne']

theorem Dy.is_val (d : Dy) (zneg : Bool) : (d.val zneg).Is d.number :=
  ⟨d.isNan_val zneg, d.isInf_val zneg, d.number_val zneg, d.isZero_val zneg⟩

/-- The two forms of an exact number. -/
theorem Val.Is.cases {v : Val} {x : ℚ} (h : v.Is x) : (∃ neg, v = .zero neg ∧ x = 0) ∨ ∃ neg m e, v = .fin neg m e ∧ 0 < m := by
  obtain ⟨notNan, notInf, number, zero_iff⟩ := h
  cases v with
  | nan n f => cases notNan
  | inf n => cases notInf
  | zero n => exact .inl ⟨n, rfl, zero_iff.1 rfl⟩
  | fin n m e =>
    refine .inr ⟨n, m, e, rfl, Nat.pos_of_ne_zero ?_⟩
    rintro rfl
    cases zero_iff.2 (by simpa [Val.dy, Dy.number] using number.symm)

/-- The finite codes of a floating-point format are exact numbers. -/
theorem codeVal_is {ty : Nat} {f : FpSpec} (h : fpSpec ty = some f) {k : Nat} (short : k < 2 ^ tyWidth ty) (finite : isFinite ty k) :
    (codeVal ty k).Is (numberOf ty k) := by
  obtain ⟨neg, j, rfl, -, value, -⟩ := magnitude_of_isFinite h short finite
  refine ⟨finite.1, finite.2, rfl, ?_⟩
  rw [numberOf]
  change _ ↔ (codeVal ty (f.sign neg + j)).dy.number = 0
  rw [value, f.number_val]
  have mag : f.mag j = 0 ↔ j = 0 := by rw [← f.mag_zero, f.mag_strictMono.injective.eq_iff]
  unfold FpSpec.val
  split
  · rename_i zero
    simp [Val.isZero, mag.2 zero]
  · rename_i nonzero
    cases neg <;> simp [Val.isZero, mag, nonzero]

/-! ### Products -/

/-- A product is invalid where a zero meets an infinity (R141). -/
theorem Val.mul_invalid (u v : Val) :
    (Val.mul u v).invalid = true ↔ u.isInf = true ∧ v.isZero = true ∨ u.isZero = true ∧ v.isInf = true := by
  cases u <;> cases v <;> simp [Val.mul, Val.isInf, Val.isZero]

section
variable {u v : Val} (hu : u.isNan = false) (hv : v.isNan = false) (valid : (Val.mul u v).invalid = false)
include hu hv valid

theorem Val.mul_sign : (Val.mul u v).v.isNan = false ∧ (Val.mul u v).v.isNeg = (u.isNeg != v.isNeg) ∧ (Val.mul u v).v.isInf = (u.isInf || v.isInf) := by
  cases u with
  | nan n f => cases hu
  | inf n => cases v <;> simp_all [Val.mul, Val.isNan, Val.isNeg, Val.isInf]
  | zero n => cases v <;> simp_all [Val.mul, Val.isNan, Val.isNeg, Val.isInf]
  | fin n m e => cases v <;> simp_all [Val.mul, Val.isNan, Val.isNeg, Val.isInf]

end

theorem Val.Is.mul {u v : Val} {x y : ℚ} (hu : u.Is x) (hv : v.Is y) :
    ∃ w : Val, Val.mul u v = ⟨w, false⟩ ∧ w.Is (x * y) ∧ w.isNeg = (u.isNeg != v.isNeg) := by
  rcases hu.cases with ⟨n, rfl, rfl⟩ | ⟨n, m, e, rfl, hm⟩
  · rw [zero_mul]
    rcases hv.cases with ⟨n', rfl, rfl⟩ | ⟨n', m', e', rfl, hm'⟩ <;> exact ⟨_, rfl, Val.is_zero _, rfl⟩
  · rcases hv.cases with ⟨n', rfl, rfl⟩ | ⟨n', m', e', rfl, hm'⟩
    · rw [mul_zero]
      exact ⟨_, rfl, Val.is_zero _, rfl⟩
    · refine ⟨_, rfl, ?_, rfl⟩
      have product : x * y = (if n != n' then -1 else 1) * ((m * m' : Nat) * 2 ^ (e + e')) := by
        rw [← hu.number, ← hv.number, Val.number_fin, Val.number_fin, zpow_add₀ two_ne_zero]
        push_cast
        cases n <;> cases n' <;> simp <;> ring
      rw [product]
      exact Val.is_fin _ (Nat.mul_pos hm hm') _

/-! ### Sums -/

/-- The exact sum of two numbers, and the sign of a zero sum (R141). -/
theorem Val.Is.add {u v : Val} {x y : ℚ} (hu : u.Is x) (hv : v.Is y) (rm : Nat) :
    ∃ w : Val, Val.add rm u v = ⟨w, false⟩ ∧ w.Is (x + y) ∧
      (x + y = 0 → w.isNeg = if x = 0 ∧ u.isNeg = v.isNeg then u.isNeg else decide (rm = 3)) := by
  have general : ((u.dy.add v.dy).val (rm == 3)).Is (x + y) := by
    rw [← hu.number, ← hv.number, ← Dy.number_add]
    exact Dy.is_val _ _
  have sign (eq : x + y = 0) : ((u.dy.add v.dy).val (rm == 3)).isNeg = decide (rm = 3) := by
    rw [Dy.isNeg_val, Dy.number_add, hu.number, hv.number, if_pos eq]
    rfl
  rcases hu.cases with ⟨n, rfl, rfl⟩ | ⟨n, m, e, rfl, hm⟩
  · rcases hv.cases with ⟨n', rfl, rfl⟩ | ⟨n', m', e', rfl, hm'⟩
    · refine ⟨_, rfl, by simpa using Val.is_zero _, fun _ => ?_⟩
      simp only [Val.isNeg, true_and]
      rfl
    · refine ⟨_, rfl, general, fun eq => ?_⟩
      cases hv.zero_iff.2 (by simpa using eq)
  · have nonzero : x ≠ 0 := fun eq => by cases hu.zero_iff.2 eq
    rcases hv.cases with ⟨n', rfl, rfl⟩ | ⟨n', m', e', rfl, hm'⟩
    · exact ⟨_, rfl, general, fun eq => by rw [sign eq, if_neg fun h => nonzero h.1]⟩
    · exact ⟨_, rfl, general, fun eq => by rw [sign eq, if_neg fun h => nonzero h.1]⟩

theorem eq_inf_of_isInf {v : Val} (h : v.isInf = true) : v = .inf v.isNeg := by
  cases v with
  | inf n => rfl
  | nan n f => cases h
  | zero n => cases h
  | fin n m e => cases h

theorem Val.add_inf_left (rm : Nat) (neg : Bool) {v : Val} (h : v.isInf = false) : Val.add rm (.inf neg) v = ⟨.inf neg, false⟩ := by
  cases v with
  | inf n => cases h
  | nan n f => rfl
  | zero n => rfl
  | fin n m e => rfl

/-- A sum with an infinity: invalid beside the opposite one (R141). -/
theorem Val.add_inf_right (rm : Nat) (neg : Bool) (u : Val) :
    Val.add rm u (.inf neg) = if u.isInf = true ∧ u.isNeg ≠ neg then ⟨.zero false, true⟩ else ⟨.inf neg, false⟩ := by
  cases u with
  | inf n => cases n <;> cases neg <;> rfl
  | nan n f => rfl
  | zero n => rfl
  | fin n m e => rfl

/-! ### The rounding of a result -/

theorem snanFlags_eq (code : Nat) (l : List Val) : (⟨code, (snanFlags l).1, (snanFlags l).2⟩ : NumRes) = nanRes code l := by
  simp only [snanFlags, nanRes, List.any_eq_true]
  split <;> rfl

/-- A NaN operand comes before the exact result (R118). -/
theorem roundRes_nan {c : RndCtx} {ops : List Val} {x : ValRes} {neg : Bool} {frac : Option Nat} (first : firstNan ops = some (.nan neg frac)) :
    roundRes c 0 ops x = nanRes (nanCode c 0 neg frac) ops := by
  rw [← snanFlags_eq, roundRes, first]

/-- Without NaN operands: an invalid operation, or the exact result rounded once (R117). -/
theorem roundRes_number {c : RndCtx} {ops : List Val} {x : ValRes} (none : ∀ v ∈ ops, v.isNan = false) :
    roundRes c 0 ops x = if x.invalid = true then invalidRes c 0 else roundVal c 0 x.v := by
  have first : firstNan ops = Option.none := List.find?_eq_none.2 fun v hv => by simp [none v hv]
  rw [roundRes, first, ← invalidRes_eq]

end Sys2Proof.Machine
end
section
/-! The dot products (R107, R117, R118, R149 to R151). -/

namespace Sys2Proof.Machine

/-! ### Elements of a word -/

theorem elemOf_low (a : Word) : elemOf a 16 0 = a.toNat % 2 ^ 16 :=
  congrArg (· % 2 ^ 16) (Nat.div_one _)

theorem elemOf_high (a : Word) : elemOf a 16 1 = a.toNat / 2 ^ 16 :=
  Nat.mod_eq_of_lt (Nat.div_lt_of_lt_mul a.isLt)

/-! ### DOT4 -/

/-- A lane word from its fields. -/
theorem lane_word (op : BitVec 7) (r : BitVec 24) : (0#1 ++ (op ++ r) : BitVec 32) = opWord (0#1 ++ op) r := by
  rw [opWord, BitVec.append_assoc]
  rfl

theorem decode_dot4 (g : BitVec 3) (d a b : BitVec 7) (v : BitVec 32) :
    decodeWords (0#1 ++ (0x37#7 ++ (g ++ (d ++ (a ++ b))))) v = .ok (.dot4 ⟨g, d, a, b, none⟩, 4) := by
  have word : decodeWord none (opWord (0#1 ++ 0x37#7) (g ++ (d ++ (a ++ b)))) = .ok (.dot4 ⟨g, d, a, b, none⟩) :=
    decodeWord_lane none _ _ 0x37 _ rfl (by decide) (congrArg (Except.map Instr.dot4) (FmtR.unpack_pack ⟨g, d, a, b, none⟩))
  rw [lane_word, decodeWords, opWord_notPfx _ _ (by decide), word]
  rfl

/-- DOT4 refuses an XP with a TY, a rounding mode or an IMMX (R66). -/
theorem dot4_refuses (x : FmtR) (q : Pfx) (window : Nat) (some_ : x.p = some q) (other : q.ty ≠ 0 ∨ q.rm ≠ 0 ∨ q.immx ≠ 0) :
    checkWord window (.dot4 x) = false := by
  have refused : pfxOnly x.p false true true false = false := by
    simp only [pfxOnly, pfxTy, some_, pTy, pRm, pImmx, Bool.false_or, Bool.true_or, Bool.and_true, if_false, Bool.and_eq_false_iff,
      beq_eq_false_iff_ne, Bool.false_eq_true, ne_eq]
    simpa [← BitVec.toNat_inj] using other
  have test : checkWord window (.dot4 x) = (wr window x.d 1 && rd window x.a 1 && rd window x.b 1 && pfxOnly x.p false true true false &&
      third window x.p) := rfl
  rw [test, refused, Bool.and_false, Bool.false_and]

theorem dot4_sum (a b c : Word) : (List.range 4).foldl (fun t e => t + signedOf 8 (elemOf a 8 e) * signedOf 8 (elemOf b 8 e)) c.toInt =
    (a.extractLsb' 0 8).toInt * (b.extractLsb' 0 8).toInt + (a.extractLsb' 8 8).toInt * (b.extractLsb' 8 8).toInt +
      (a.extractLsb' 16 8).toInt * (b.extractLsb' 16 8).toInt + (a.extractLsb' 24 8).toInt * (b.extractLsb' 24 8).toInt + c.toInt := by
  have elements : List.range 4 = [0, 1, 2, 3] := rfl
  simp only [elements, List.foldl_cons, List.foldl_nil, signedOf_elemOf]
  ring

theorem dot4_completes (x : FmtR) : Ternary (.dot4 x) x fun a b c => exactInt (pSat x.p)
    ((a.extractLsb' 0 8).toInt * (b.extractLsb' 0 8).toInt + (a.extractLsb' 8 8).toInt * (b.extractLsb' 8 8).toInt +
      (a.extractLsb' 16 8).toInt * (b.extractLsb' 16 8).toInt + (a.extractLsb' 24 8).toInt * (b.extractLsb' 24 8).toInt + c.toInt) :=
  Ternary.of (fun _ => by rfl) fun a b c => (exactInt_eq _ _).trans (congrArg (satWord _) (dot4_sum a b c).symm)

/-! ### FDOT2 -/

theorem fdot2_completes (x : FmtR) :
    Completes (.fdot2 x) (lrWord x.g x.p (withSeed x.p [x.a.toNat, x.b.toNat, pSrc x.p x.d.toNat]) [x.d.toNat]) fun c f =>
      let r := fdot2Res (laneRnd c x.p f 0) (readReg c.p f x.a.toNat) (readReg c.p f x.b.toNat) (readReg c.p f (pSrc x.p x.d.toNat))
      (f.setV x.d.toNat (BitVec.ofNat 32 r.code), r.flg, r.causes) :=
  runPure_completes _ rfl _ _ (fun _ => by rfl) fun _ _ => rfl

/-- The signs of the infinities of a sum's terms. -/
def infinities (l : List Val) : List (Bool × Bool) :=
  l.map fun v => (v.isInf, v.isNeg)

theorem mem_infinities {l : List Val} {n : Bool} : (true, n) ∈ infinities l ↔ ∃ v ∈ l, v.isInf = true ∧ v.isNeg = n := by
  simp [infinities]

section
variable {rm : Nat} {a b c : Val}

theorem add3_opposite (plus : (true, false) ∈ infinities [a, b, c]) (minus : (true, true) ∈ infinities [a, b, c]) :
    add3 rm a b c = ⟨.zero false, true⟩ := by
  have any_minus : [a, b, c].any (fun v => v.isInf && v.isNeg) = true := by simpa [List.any_eq_true] using mem_infinities.1 minus
  have any_plus : [a, b, c].any (fun v => v.isInf && !v.isNeg) = true := by simpa [List.any_eq_true] using mem_infinities.1 plus
  unfold add3
  dsimp only
  rw [any_minus, any_plus]
  rfl

theorem add3_inf {n : Bool} (one : (true, n) ∈ infinities [a, b, c]) (other : (true, !n) ∉ infinities [a, b, c]) :
    add3 rm a b c = ⟨.inf n, false⟩ := by
  obtain ⟨v, hv, inf, -⟩ := mem_infinities.1 one
  obtain ⟨w, first⟩ := Option.isSome_iff_exists.1 (List.find?_isSome.2 ⟨v, hv, inf⟩)
  have w_inf := List.find?_some first
  have sign (u : Val) (hu : u ∈ [a, b, c]) (hi : u.isInf = true) : u.isNeg = n :=
    by_contra fun ne => other (mem_infinities.2 ⟨u, hu, hi, Bool.eq_not.2 ne⟩)
  have valid : ([a, b, c].any (fun v => v.isInf && v.isNeg) && [a, b, c].any fun v => v.isInf && !v.isNeg) = false := by
    rw [Bool.and_eq_false_iff]
    cases n
    · exact .inl (List.any_eq_false.2 fun u hu => by have := sign u hu; simp_all)
    · exact .inr (List.any_eq_false.2 fun u hu => by have := sign u hu; simp_all)
  unfold add3
  dsimp only
  rw [valid, first]
  dsimp only
  rw [eq_inf_of_isInf w_inf, sign w (List.mem_of_find?_eq_some first) w_inf]
  rfl

theorem add3_number {x y z : ℚ} (ha : a.Is x) (hb : b.Is y) (hc : c.Is z) : ∃ w : Val, add3 rm a b c = ⟨w, false⟩ ∧ w.Is (x + y + z) ∧
    (x + y + z = 0 → w.isNeg = if x = 0 ∧ y = 0 ∧ z = 0 ∧ a.isNeg = b.isNeg ∧ b.isNeg = c.isNeg then c.isNeg else decide (rm = 3)) := by
  have run : add3 rm a b c = ⟨((a.dy.add b.dy).add c.dy).val
      (if [a, b, c].all Val.isZero && (a.isNeg == b.isNeg) && (b.isNeg == c.isNeg) then a.isNeg else rm == 3), false⟩ := by
    have none : [a, b, c].find? Val.isInf = Option.none := by
      simp [ha.notInf, hb.notInf, hc.notInf]
    have any : [a, b, c].any (fun v => v.isInf && v.isNeg) = false := by
      simp [ha.notInf, hb.notInf, hc.notInf]
    unfold add3
    dsimp only
    rw [any, none]
    rfl
  have sum : ((a.dy.add b.dy).add c.dy).number = x + y + z := by
    rw [Dy.number_add, Dy.number_add, ha.number, hb.number, hc.number]
  refine ⟨_, run, sum ▸ Dy.is_val _ _, fun zero => ?_⟩
  rw [Dy.isNeg_val, sum, if_pos zero]
  have zeros : ([a, b, c].all Val.isZero && (a.isNeg == b.isNeg) && (b.isNeg == c.isNeg)) = true ↔
      x = 0 ∧ y = 0 ∧ z = 0 ∧ a.isNeg = b.isNeg ∧ b.isNeg = c.isNeg := by
    simp [ha.zero_iff, hb.zero_iff, hc.zero_iff, and_assoc]
  simp only [zeros]
  split
  · rename_i signs
    obtain ⟨-, -, -, ab, bc⟩ := signs
    exact ab.trans bc
  · rfl

end

/-- A product as FDOT2 takes it: a NaN operand waits for its turn (R150). -/
def fdotMul (u v : Val) : ValRes :=
  if u.isNan || v.isNan then ⟨.zero false, false⟩ else Val.mul u v

/-- A zero beside an infinity. -/
def zeroTimesInf (u v : Val) : Prop :=
  u.isInf = true ∧ v.isZero = true ∨ u.isZero = true ∧ v.isInf = true

theorem fdotMul_invalid (u v : Val) : (fdotMul u v).invalid = true ↔ zeroTimesInf u v := by
  unfold fdotMul zeroTimesInf
  split
  · rename_i nan
    cases u <;> cases v <;> simp_all [Val.isNan, Val.isInf, Val.isZero]
  · exact Val.mul_invalid u v

/-- FDOT2 of five values. -/
def fdot2Vals (c : RndCtx) (a0 a1 b0 b1 w : Val) : NumRes :=
  if (fdotMul a0 b0).invalid || (fdotMul a1 b1).invalid then invalidRes c 0
  else roundRes c 0 [a0, a1, b0, b1, w] (add3 c.rm (fdotMul a0 b0).v (fdotMul a1 b1).v w)

theorem fdot2Res_eq (c : RndCtx) (a b d : Word) : fdot2Res c a b d =
    fdot2Vals c (codeVal 1 (a.toNat % 2 ^ 16)) (codeVal 1 (a.toNat / 2 ^ 16)) (codeVal 1 (b.toNat % 2 ^ 16)) (codeVal 1 (b.toNat / 2 ^ 16))
      (codeVal 0 d.toNat) := by
  rw [fdot2Vals, ← invalidRes_eq, ← elemOf_low, ← elemOf_low, ← elemOf_high, ← elemOf_high]
  rfl

section
variable {c : RndCtx} {a0 a1 b0 b1 w : Val}

theorem fdot2_invalid (invalid : zeroTimesInf a0 b0 ∨ zeroTimesInf a1 b1) : fdot2Vals c a0 a1 b0 b1 w = invalidRes c 0 := by
  rw [← fdotMul_invalid, ← fdotMul_invalid, ← Bool.or_eq_true] at invalid
  rw [fdot2Vals, if_pos invalid]

theorem fdot2_valid (valid : ¬(zeroTimesInf a0 b0 ∨ zeroTimesInf a1 b1)) :
    fdot2Vals c a0 a1 b0 b1 w = roundRes c 0 [a0, a1, b0, b1, w] (add3 c.rm (fdotMul a0 b0).v (fdotMul a1 b1).v w) := by
  rw [← fdotMul_invalid, ← fdotMul_invalid, ← Bool.or_eq_true] at valid
  rw [fdot2Vals, if_neg valid]

variable (valid : ¬(zeroTimesInf a0 b0 ∨ zeroTimesInf a1 b1))
  (numbers : ¬(a0.isNan = true ∨ a1.isNan = true ∨ b0.isNan = true ∨ b1.isNan = true ∨ w.isNan = true))
include valid numbers

theorem fdot2_number : fdot2Vals c a0 a1 b0 b1 w =
    if (add3 c.rm (Val.mul a0 b0).v (Val.mul a1 b1).v w).invalid = true then invalidRes c 0
    else roundVal c 0 (add3 c.rm (Val.mul a0 b0).v (Val.mul a1 b1).v w).v := by
  simp only [not_or, Bool.not_eq_true] at numbers
  obtain ⟨n0, n1, n2, n3, n4⟩ := numbers
  have p0 : fdotMul a0 b0 = Val.mul a0 b0 := by simp [fdotMul, n0, n2]
  have p1 : fdotMul a1 b1 = Val.mul a1 b1 := by simp [fdotMul, n1, n3]
  rw [fdot2_valid valid, roundRes_number (by simp [n0, n1, n2, n3, n4]), p0, p1]

/-- The infinities among the terms, told by the operands. -/
theorem fdot2_infinities : infinities [(Val.mul a0 b0).v, (Val.mul a1 b1).v, w] =
    [(a0.isInf || b0.isInf, a0.isNeg != b0.isNeg), (a1.isInf || b1.isInf, a1.isNeg != b1.isNeg), (w.isInf, w.isNeg)] := by
  rw [zeroTimesInf, zeroTimesInf, ← Val.mul_invalid, ← Val.mul_invalid] at valid
  simp only [not_or, Bool.not_eq_true] at numbers valid
  obtain ⟨n0, n1, n2, n3, -⟩ := numbers
  obtain ⟨-, sign0, inf0⟩ := Val.mul_sign n0 n2 valid.1
  obtain ⟨-, sign1, inf1⟩ := Val.mul_sign n1 n3 valid.2
  simp only [infinities, List.map_cons, List.map_nil, sign0, inf0, sign1, inf1]

end

theorem firstNan_cons (v : Val) (l : List Val) : firstNan (v :: l) = if v.isNan = true then some v else firstNan l := by
  rw [firstNan, List.find?_cons]
  cases v.isNan <;> rfl

/-- An FP16 NaN widened to FP32 has its sign, and its payload at the top of the fraction (R118). -/
theorem widened_nan {k : Nat} (short : k < 2 ^ 16) (nan : (codeVal 1 k).isNan = true) :
    ∃ neg frac, codeVal 1 k = .nan neg frac ∧
      ∀ c, nanCode c 0 neg frac = quietCode 0 (k / 2 ^ 15 * 2 ^ 31 + 0x7F800000 + k % 2 ^ 10 * 2 ^ 13) := by
  have h : fpSpec 1 = some ⟨5, 10, 15, true, false⟩ := rfl
  obtain ⟨neg, j, eq, hj⟩ := code_split h (code := k) short
  have above : FpSpec.top ⟨5, 10, 15, true, false⟩ < j := by
    by_contra within
    rw [eq, ((isFinite_sign_add h neg hj).2 (not_lt.1 within)).1] at nan
    cases nan
  have value := codeVal_above h neg above hj
  rw [← eq] at value
  split at value
  · rw [value] at nan
    cases nan
  · refine ⟨neg, _, value, fun c => ?_⟩
    have sign : FpSpec.sign ⟨5, 10, 15, true, false⟩ neg = (if neg then 1 else 0) * 2 ^ 15 := by cases neg <;> rfl
    have short_j : j < 2 ^ 15 := hj
    have top : k / 2 ^ 15 = if neg then 1 else 0 := by
      rw [eq, sign]
      omega
    have low : k % 2 ^ 10 = j % 2 ^ 10 := by
      rw [eq, sign]
      omega
    have payload := Nat.mod_lt j (Nat.two_pow_pos 10)
    rw [top, low]
    simp only [true_and, ne_eq, OfNat.one_ne_ofNat, not_false_eq_true, if_true]
    simp only [nanCode, quietCode, if_true, ← bit_eq_testBit]
    generalize (if neg = true then 1 else 0) = s
    generalize j % 2 ^ 10 = p at payload
    have bit22 : (s * 2 ^ 31 + 2139095040 + p * 2 ^ 13) / 2 ^ 22 % 2 = p * 2 ^ 13 / 2 ^ 22 % 2 := by omega
    have same : bit (s * 2 ^ 31 + 2139095040 + p * 2 ^ 13) 22 = bit (p * 2 ^ 13) 22 := by
      unfold bit
      rw [bit22]
    rw [same]
    split <;> omega

/-- An FP32 NaN, quietened. -/
theorem word_nan {k : Nat} (short : k < 2 ^ 32) (nan : (codeVal 0 k).isNan = true) :
    ∃ neg frac, codeVal 0 k = .nan neg frac ∧ ∀ c, nanCode c 0 neg frac = quietCode 0 k := by
  obtain ⟨neg, frac, value, -, -, code⟩ := codeVal_nan (Nat.zero_le 2) short nan
  exact ⟨neg, _, value, code⟩

/-- The first NaN of operands that begin with an FP16 value. -/
theorem firstNan_widened {c : RndCtx} {k : Nat} (short : k < 2 ^ 16) {rest : List Val} {code : Nat} (later : (codeVal 1 k).isNan = false →
    ∃ neg frac, firstNan rest = some (.nan neg frac) ∧ nanCode c 0 neg frac = quietCode 0 code) :
    ∃ neg frac, firstNan (codeVal 1 k :: rest) = some (.nan neg frac) ∧ nanCode c 0 neg frac =
      quietCode 0 (if (codeVal 1 k).isNan then k / 2 ^ 15 * 2 ^ 31 + 0x7F800000 + k % 2 ^ 10 * 2 ^ 13 else code) := by
  rw [firstNan_cons]
  cases here : (codeVal 1 k).isNan
  · exact later here
  · obtain ⟨neg, frac, value, quiet⟩ := widened_nan short here
    exact ⟨neg, frac, congrArg some value, quiet c⟩

theorem fdot2_nan {c : RndCtx} {a0 a1 b0 b1 d : Nat} (s0 : a0 < 2 ^ 16) (s1 : a1 < 2 ^ 16) (t0 : b0 < 2 ^ 16) (t1 : b1 < 2 ^ 16) (hd : d < 2 ^ 32)
    (valid : ¬(zeroTimesInf (codeVal 1 a0) (codeVal 1 b0) ∨ zeroTimesInf (codeVal 1 a1) (codeVal 1 b1)))
    (nan : (codeVal 1 a0).isNan = true ∨ (codeVal 1 a1).isNan = true ∨ (codeVal 1 b0).isNan = true ∨ (codeVal 1 b1).isNan = true ∨
      (codeVal 0 d).isNan = true) :
    let widened (k : Nat) := k / 2 ^ 15 * 2 ^ 31 + 0x7F800000 + k % 2 ^ 10 * 2 ^ 13
    fdot2Vals c (codeVal 1 a0) (codeVal 1 a1) (codeVal 1 b0) (codeVal 1 b1) (codeVal 0 d) =
      nanRes (quietCode 0 (if (codeVal 1 a0).isNan then widened a0 else if (codeVal 1 a1).isNan then widened a1
        else if (codeVal 1 b0).isNan then widened b0 else if (codeVal 1 b1).isNan then widened b1 else d))
        [codeVal 1 a0, codeVal 1 a1, codeVal 1 b0, codeVal 1 b1, codeVal 0 d] := by
  intro widened
  have found : ∃ neg frac, firstNan [codeVal 1 a0, codeVal 1 a1, codeVal 1 b0, codeVal 1 b1, codeVal 0 d] = some (.nan neg frac) ∧
      nanCode c 0 neg frac = quietCode 0 (if (codeVal 1 a0).isNan then widened a0 else if (codeVal 1 a1).isNan then widened a1
        else if (codeVal 1 b0).isNan then widened b0 else if (codeVal 1 b1).isNan then widened b1 else d) := by
    refine firstNan_widened s0 fun n0 => firstNan_widened s1 fun n1 => firstNan_widened t0 fun n2 => firstNan_widened t1 fun n3 => ?_
    have last : (codeVal 0 d).isNan = true := by simpa [n0, n1, n2, n3] using nan
    obtain ⟨neg, frac, value, quiet⟩ := word_nan hd last
    exact ⟨neg, frac, by rw [firstNan_cons, last, value]; rfl, quiet c⟩
  obtain ⟨neg, frac, first, code⟩ := found
  rw [fdot2_valid valid, roundRes_nan first, code]

theorem fdot2_finite {c : RndCtx} {a0 a1 b0 b1 d : Nat} (s0 : a0 < 2 ^ 16) (s1 : a1 < 2 ^ 16) (t0 : b0 < 2 ^ 16) (t1 : b1 < 2 ^ 16) (hd : d < 2 ^ 32)
    (f0 : isFinite 1 a0) (f1 : isFinite 1 a1) (g0 : isFinite 1 b0) (g1 : isFinite 1 b1) (fd : isFinite 0 d)
    (valid : ¬(zeroTimesInf (codeVal 1 a0) (codeVal 1 b0) ∨ zeroTimesInf (codeVal 1 a1) (codeVal 1 b1))) :
    let p0 := numberOf 1 a0 * numberOf 1 b0
    let p1 := numberOf 1 a1 * numberOf 1 b1
    let n0 := (codeVal 1 a0).isNeg != (codeVal 1 b0).isNeg
    let n1 := (codeVal 1 a1).isNeg != (codeVal 1 b1).isNeg
    RoundsOnce c 0 (p0 + p1 + numberOf 0 d)
      (if p0 = 0 ∧ p1 = 0 ∧ numberOf 0 d = 0 ∧ n0 = n1 ∧ n1 = (codeVal 0 d).isNeg then (codeVal 0 d).isNeg else decide (c.rm = 3))
      (fdot2Vals c (codeVal 1 a0) (codeVal 1 a1) (codeVal 1 b0) (codeVal 1 b1) (codeVal 0 d)) := by
  have fp16 : fpSpec 1 = some ⟨5, 10, 15, true, false⟩ := rfl
  have fp32 : fpSpec 0 = some ⟨8, 23, 127, true, false⟩ := rfl
  obtain ⟨p0, mul0, is0, sign0⟩ := (codeVal_is fp16 s0 f0).mul (codeVal_is fp16 t0 g0)
  obtain ⟨p1, mul1, is1, sign1⟩ := (codeVal_is fp16 s1 f1).mul (codeVal_is fp16 t1 g1)
  obtain ⟨sum, add, isSum, sign⟩ := add3_number (rm := c.rm) is0 is1 (codeVal_is fp32 hd fd)
  rw [fdot2_number valid (by simp [f0.1, f1.1, g0.1, g1.1, fd.1]), mul0, mul1, add, if_neg Bool.false_ne_true]
  rw [sign0, sign1] at sign
  exact isSum.roundsOnce c 0 sign

/-! ### QDOT -/

theorem qdot_completes : ∀ q ∈ [(Instr.qdotE2m1, 7), (Instr.qdotInt4, 15), (Instr.qdotUint4, 16)], ∀ x : FmtRP,
    Completes (q.1 x)
        { lrWord x.g (some x.p) (withSeed (some x.p) [x.a.toNat, x.b.toNat, x.p.c.toNat]) [x.d.toNat] with cost := 2 } fun c f =>
      let sel := x.p.immx.toNat % 16
      let i := c.lane / 2
      let lane := if x.p.immx.getLsbD 4 then 4 * (i / 2) + sel / 4 else 4 * (i / 2) + 2 * (i % 2) + sel / 4 % 2
      let products (l : Nat) : Dy :=
        ((assoc c.parts l).map fun g => qdotSum q.2 (readReg c.p g x.a.toNat) (readReg c.p g x.b.toNat)).getD ⟨0, 0⟩
      let scale := ((assoc c.parts lane).map fun g => (readReg c.p g x.p.c.toNat).toNat / 2 ^ (8 * (sel % 4)) % 256).getD 0
      let block := blockContrib (codeVal x.p.ty.toNat scale) (((products (2 * i)).add (products (2 * i + 1))).val false)
      let r := qdotAdd (laneRnd c (some x.p) f 0) (f.vreg x.d.toNat) block
      (f.setV x.d.toNat (BitVec.ofNat 32 r.code), r.flg, r.causes) := by
  intro q hq x
  have run : ∀ s, exec (q.1 x) s = qdotOp q.2 x s := by
    intro s
    fin_cases hq <;> rfl
  refine Completes.of _ run rfl (fun _ _ => rfl) fun c f => ?_
  have lane : (if x.p.immx.getLsbD 4 then 4 * (c.lane / 2 / 2) + x.p.immx.toNat % 16 / 4
      else 4 * (c.lane / 2 / 2) + 2 * (c.lane / 2 % 2) + x.p.immx.toNat % 16 / 4 % 2) =
      qdotScaleLane c.lane (x.p.immx.toNat % 16) (bit x.p.immx.toNat 4) := by
    rw [bit_eq_testBit]
    rfl
  dsimp only
  rw [lane]
  cases assoc c.parts (2 * (c.lane / 2)) <;> cases assoc c.parts (2 * (c.lane / 2) + 1) <;>
    cases assoc c.parts (qdotScaleLane c.lane (x.p.immx.toNat % 16) (bit x.p.immx.toNat 4)) <;> rfl

theorem foldl_add_number (g : Nat → Dy) (l : List Nat) (d : Dy) :
    (l.foldl (fun t e => t.add (g e)) d).number = d.number + (l.map fun e => (g e).number).sum := by
  induction l generalizing d with
  | nil => simp
  | cons e l ih => rw [List.foldl_cons, ih, Dy.number_add, List.map_cons, List.sum_cons, add_assoc]

theorem qdotSum_number (ty : Nat) (a b : Word) : (qdotSum ty a b).number =
    ((List.range 8).map fun e => numberOf ty (a.toNat / 2 ^ (4 * e) % 16) * numberOf ty (b.toNat / 2 ^ (4 * e) % 16)).sum := by
  rw [qdotSum, foldl_add_number, Dy.number_int, Int.cast_zero, zero_add]
  simp only [Dy.number_mul]
  rfl

/-- A scale byte of E5M2, E4M3 or UE8M0 that is finite is an exact number (R107). -/
theorem scale_is {ty k : Nat} (h : ty = 3 ∨ ty = 4 ∨ ty = 26) (short : k < 256) (finite : isFinite ty k) : (codeVal ty k).Is (numberOf ty k) := by
  rcases h with rfl | rfl | rfl
  · exact codeVal_is rfl short finite
  · exact codeVal_is rfl short finite
  · have value : codeVal 26 k = if k = 255 then .nan false none else .fin false 1 ((k : Int) - 127) := by
      have read : codeVal 26 k = if k % 2 ^ tyWidth 26 = 255 then .nan false none else .fin false 1 (((k % 2 ^ tyWidth 26 : Nat) : Int) - 127) := rfl
      rw [read, Nat.mod_eq_of_lt (show k < 2 ^ tyWidth 26 from short)]
    have notNan : k ≠ 255 := by
      rintro rfl
      exact absurd finite.1 (by decide)
    rw [if_neg notNan] at value
    have is := Val.is_fin false one_pos ((k : Int) - 127)
    rw [← value] at is
    have number : numberOf 26 k = _ := is.number
    rw [number]
    exact is

theorem zero_sign {d : Dy} : (d.val false).isNeg = decide (d.number < 0) := by
  rw [d.isNeg_val]
  split
  · rename_i zero
    rw [zero]
    rfl
  · rfl

section
variable {scale : Val} {S : Dy}

theorem blockContrib_nan (nan : scale.isNan = true) : blockContrib scale (S.val false) = ⟨.nan scale.isNeg none, false⟩ := by
  cases scale with
  | nan n f => rfl
  | inf n => cases nan
  | zero n => cases nan
  | fin n m e => cases nan

/-- A contribution is invalid where the scale is infinite and the sum zero (R107). -/
theorem blockContrib_invalid : (blockContrib scale (S.val false)).invalid = true ↔ scale.isInf = true ∧ S.number = 0 := by
  rw [S.number_eq_zero]
  unfold Dy.val
  split <;> cases scale <;> simp_all [blockContrib, Val.mul, Val.isInf]

theorem blockContrib_inf (inf : scale.isInf = true) (nonzero : S.number ≠ 0) :
    blockContrib scale (S.val false) = ⟨.inf (scale.isNeg != decide (S.number < 0)), false⟩ := by
  rw [← zero_sign, eq_inf_of_isInf inf, Dy.val, if_neg (mt (S.number_eq_zero).2 nonzero)]
  rfl

/-- The contribution of a block of a finite scale (R107, log entry 36). -/
theorem blockContrib_number {x : ℚ} (h : scale.Is x) : ∃ p : Val, blockContrib scale (S.val false) = ⟨p, false⟩ ∧ p.Is (x * S.number) ∧
    (x * S.number = 0 → p.isNeg = scale.isNeg) := by
  have sum := S.is_val false
  rcases h.cases with ⟨n, rfl, rfl⟩ | ⟨n, m, e, rfl, hm⟩
  · rw [zero_mul]
    rcases sum.cases with ⟨n', value, -⟩ | ⟨n', m', e', value, -⟩ <;> rw [value] <;> exact ⟨_, rfl, Val.is_zero n, fun _ => rfl⟩
  · obtain ⟨p, mul, is, sign⟩ := h.mul sum
    have run : blockContrib (.fin n m e) (S.val false) = Val.mul (.fin n m e) (S.val false) := by
      rcases sum.cases with ⟨n', value, -⟩ | ⟨n', m', e', value, -⟩ <;> rw [value] <;> rfl
    refine ⟨p, run.trans mul, is, fun zero => ?_⟩
    have nonzero : x ≠ 0 := fun eq => by cases h.zero_iff.2 eq
    rw [sign, zero_sign, (mul_eq_zero_iff_left nonzero).1 zero]
    simp

end

section
variable {c : RndCtx} {d : Word} {contrib : ValRes}

/-- A NaN accumulator comes first; an invalid contribution beside it still counts (R151). -/
theorem qdotAdd_nan (nan : (codeVal 0 d.toNat).isNan = true) : (qdotAdd c d contrib).code = quietCode 0 d.toNat ∧
    ((qdotAdd c d contrib).flg, (qdotAdd c d contrib).causes) =
      if (codeVal 0 d.toNat).isSnan = true ∨ contrib.invalid = true then (flgNV, [1]) else (0, []) := by
  obtain ⟨neg, frac, value, code⟩ := word_nan d.isLt nan
  rw [← code c]
  unfold qdotAdd
  rw [value]
  refine ⟨rfl, ?_⟩
  simp only [snanFlags, List.any_cons, List.any_nil, Bool.or_false]
  cases Val.isSnan (.nan neg frac) <;> cases contrib.invalid <;> rfl

variable (number : (codeVal 0 d.toNat).isNan = false)
include number

theorem qdotAdd_invalid (invalid : contrib.invalid = true) : qdotAdd c d contrib = invalidRes c 0 := by
  rw [← invalidRes_eq]
  unfold qdotAdd
  cases value : codeVal 0 d.toNat with
  | nan n f => simp [value, Val.isNan] at number
  | inf n => exact if_pos invalid
  | zero n => exact if_pos invalid
  | fin n m e => exact if_pos invalid

theorem qdotAdd_stamp (neg : Bool) (frac : Option Nat) : qdotAdd c d ⟨.nan neg frac, false⟩ = ⟨nanCode c 0 neg none, 0, []⟩ := by
  unfold qdotAdd
  cases value : codeVal 0 d.toNat with
  | nan n f => simp [value, Val.isNan] at number
  | inf n => rfl
  | zero n => rfl
  | fin n m e => rfl

theorem qdotAdd_value {p : Val} (hp : p.isNan = false) : qdotAdd c d ⟨p, false⟩ =
    if (Val.add c.rm (codeVal 0 d.toNat) p).invalid = true then invalidRes c 0 else roundVal c 0 (Val.add c.rm (codeVal 0 d.toNat) p).v := by
  rw [← roundRes_number (ops := []) fun v hv => absurd hv List.not_mem_nil]
  unfold qdotAdd
  cases value : codeVal 0 d.toNat with
  | nan n f => simp [value, Val.isNan] at number
  | inf _ | zero _ | fin _ _ _ =>
    cases p with
    | nan n f => cases hp
    | inf _ | zero _ | fin _ _ _ => exact if_neg Bool.false_ne_true

end

/-- The NaN that stamps the origin on a NaN without a payload (R117). -/
theorem nanCode_stamp (c : RndCtx) (neg : Bool) :
    nanCode c 0 neg none = (if neg then 2 ^ 31 else 0) + 0x7FE00000 + mix64 (c.pc * 1024 + c.fid) / 2 ^ 43 := by
  rw [nanCode, originFrac, originHash]
  cases neg <;> simp only [if_true, Bool.false_eq_true, if_false] <;> ring

section
variable {c : RndCtx} {d : Word} {scale : Val} {S : Dy}

theorem qdotAdd_inf (number : (codeVal 0 d.toNat).isNan = false) (inf : scale.isInf = true) (nonzero : S.number ≠ 0) :
    let neg := scale.isNeg != decide (S.number < 0)
    qdotAdd c d (blockContrib scale (S.val false)) =
      if (codeVal 0 d.toNat).isInf = true ∧ (codeVal 0 d.toNat).isNeg ≠ neg then invalidRes c 0 else roundVal c 0 (.inf neg) := by
  intro neg
  rw [blockContrib_inf inf nonzero, qdotAdd_value number rfl, Val.add_inf_right]
  by_cases opposite : (codeVal 0 d.toNat).isInf = true ∧ (codeVal 0 d.toNat).isNeg ≠ neg
  · rw [if_pos opposite, if_pos opposite, if_pos rfl]
  · rw [if_neg opposite, if_neg opposite, if_neg Bool.false_ne_true]

theorem qdotAdd_inf_accumulator {x : ℚ} (inf : (codeVal 0 d.toNat).isInf = true) (h : scale.Is x) :
    qdotAdd c d (blockContrib scale (S.val false)) = roundVal c 0 (codeVal 0 d.toNat) := by
  obtain ⟨p, block, is, -⟩ := blockContrib_number (S := S) h
  have value := eq_inf_of_isInf inf
  have number : (codeVal 0 d.toNat).isNan = false := by
    rw [value]
    rfl
  rw [block, qdotAdd_value number is.notNan, value, Val.add_inf_left _ _ is.notInf, if_neg Bool.false_ne_true]

theorem qdotAdd_number {x : ℚ} (finite : isFinite 0 d.toNat) (h : scale.Is x) : RoundsOnce c 0 (numberOf 0 d.toNat + x * S.number)
    (if numberOf 0 d.toNat = 0 ∧ (codeVal 0 d.toNat).isNeg = scale.isNeg then (codeVal 0 d.toNat).isNeg else decide (c.rm = 3))
    (qdotAdd c d (blockContrib scale (S.val false))) := by
  obtain ⟨p, block, is, sign⟩ := blockContrib_number (S := S) h
  obtain ⟨sum, add, isSum, sumSign⟩ := (codeVal_is (f := ⟨8, 23, 127, true, false⟩) rfl d.isLt finite).add is c.rm
  rw [block, qdotAdd_value finite.1 is.notNan, add, if_neg Bool.false_ne_true]
  refine isSum.roundsOnce c 0 fun zero => (sumSign zero).trans ?_
  by_cases here : numberOf 0 d.toNat = 0
  · rw [sign (by linarith)]
  · rw [if_neg fun both => here both.1, if_neg fun both => here both.1]

end

/-- Settles O19: exact products and sums of values that are numbers, each rounded once. -/
theorem dotProducts : Obligations.DotProducts := by
  refine ⟨dot4_completes, decode_dot4, fun x q window => dot4_refuses x q window, fdot2_completes, qdot_completes, fun c a b d => ?_,
    fun ty _ => qdotSum_number ty, Dy.number_add, fun c d sty sc S hty short => ?_⟩
  · intro a0 a1 b0 b1 r v w zti invalid widened anyNan infs
    have run : r = fdot2Vals c (v a0) (v a1) (v b0) (v b1) w := fdot2Res_eq c a b d
    have s0 : a0 < 2 ^ 16 := Nat.mod_lt _ (by decide)
    have t0 : b0 < 2 ^ 16 := Nat.mod_lt _ (by decide)
    have s1 : a1 < 2 ^ 16 := Nat.div_lt_of_lt_mul a.isLt
    have t1 : b1 < 2 ^ 16 := Nat.div_lt_of_lt_mul b.isLt
    clear_value r a0 a1 b0 b1
    subst run
    refine ⟨fdot2_invalid, fdot2_nan s0 s1 t0 t1 d.isLt, fun valid numbers minus plus => ?_, fun valid numbers n one other => ?_,
      fun valid numbers none => ?_⟩
    · have terms := fdot2_infinities (w := w) valid numbers
      rw [fdot2_number valid numbers, add3_opposite (terms ▸ plus) (terms ▸ minus), if_pos rfl]
    · have terms := fdot2_infinities (w := w) valid numbers
      change (true, n) ∈ [_, _, _] at one
      change (true, !n) ∉ [_, _, _] at other
      rw [fdot2_number valid numbers, add3_inf (terms ▸ one) (terms ▸ other), if_neg Bool.false_ne_true]
    · have noInf (e : Bool × Bool) (he : e ∈ infs) : e.1 = false :=
        Bool.eq_false_iff.2 fun h => none e.2 (h ▸ he)
      obtain ⟨i0, j0⟩ := Bool.or_eq_false_iff.1 (noInf _ (.head _))
      obtain ⟨i1, j1⟩ := Bool.or_eq_false_iff.1 (noInf _ (.tail _ (.head _)))
      have iw := noInf _ (.tail _ (.tail _ (.head _)))
      have number := numbers
      simp only [anyNan, not_or, Bool.not_eq_true] at number
      obtain ⟨n0, n1, m0, m1, nw⟩ := number
      exact fdot2_finite s0 s1 t0 t1 d.isLt ⟨n0, i0⟩ ⟨n1, i1⟩ ⟨m0, j0⟩ ⟨m1, j1⟩ ⟨nw, iw⟩ valid
  · refine ⟨fun nan => ?_, fun number nan => ?_, fun number inf zero => qdotAdd_invalid number (blockContrib_invalid.2 ⟨inf, zero⟩), qdotAdd_inf,
      fun inf finite => qdotAdd_inf_accumulator inf (scale_is hty short finite), fun finite finite' => qdotAdd_number finite (scale_is hty short finite')⟩
    · simp only [← blockContrib_invalid]
      exact qdotAdd_nan nan
    · rw [blockContrib_nan nan, qdotAdd_stamp number, nanCode_stamp]

end Sys2Proof.Machine
end
section
/-! SUPPORT. What a lane word of known OP decodes to, without and with a prefix (R57, R65, R66). -/

namespace Sys2Proof.Machine

/-- The set bit of a word of the lane set: 0. -/
theorem lane_set (op : BitVec 7) (r : BitVec 24) : (0#1 ++ (op ++ r) : BitVec 32).extractLsb' 31 1 = 0#1 :=
  BitVec.extractLsb'_append_eq_left

theorem lane_op (op : BitVec 7) (r : BitVec 24) : (0#1 ++ (op ++ r) : BitVec 32).extractLsb' 24 7 = op :=
  (BitVec.extractLsb'_append_eq_of_add_le (by decide)).trans BitVec.extractLsb'_append_eq_left

theorem lane_fields (op : BitVec 7) (r : BitVec 24) : (0#1 ++ (op ++ r) : BitVec 32).extractLsb' 0 24 = r :=
  (BitVec.extractLsb'_append_eq_of_add_le (by decide)).trans BitVec.extractLsb'_append_eq_right

theorem isPfxWord_lane_set (op : BitVec 7) (r : BitVec 24) : isPfxWord (0#1 ++ (op ++ r)) = (op == 0x7E#7) := by
  rw [isPfxWord, lane_op]
  rfl

theorem decodeWord_lane_set (p : Option Pfx) (op : BitVec 7) (r : BitVec 24) :
    decodeWord p (0#1 ++ (op ++ r)) = decodeLane p op.toNat r := by
  rw [decodeWord, lane_set, lane_op, lane_fields]
  rfl

theorem decodeWords_lane_set {op : BitVec 7} (other : op ≠ 0x7E#7) (r : BitVec 24) (v : BitVec 32) :
    decodeWords (0#1 ++ (op ++ r)) v = (decodeLane none op.toNat r).map (·, 4) := by
  rw [decodeWords, isPfxWord_lane_set, beq_false_of_ne other, decodeWord_lane_set]
  rfl

theorem decodeWords_lane_set_prefixed {op : BitVec 7} (other : op ≠ 0x7E#7) (p r : BitVec 24) :
    decodeWords (0#1 ++ (0x7E#7 ++ p)) (0#1 ++ (op ++ r)) = (decodeLane (some (.unpack p)) op.toNat r).map (·, 8) := by
  rw [decodeWords, isPfxWord_lane_set, isPfxWord_lane_set, beq_false_of_ne other, lane_set, lane_set, lane_fields, decodeWord_lane_set]
  rfl

end Sys2Proof.Machine
end
section
/-! Logic, shifts, moves, compares, selection and predicate words (R62, R131, R135 to R140). -/

namespace Sys2Proof.Machine

/-! ### Shifts and rotates -/

/-- A word rotated left is the high word of the word beside itself, shifted left. -/
theorem extractHigh_shiftLeft_double (a : Word) {n : Nat} (short : n < 32) : ((a ++ a) <<< n).extractLsb' 32 32 = a.rotateLeft n := by
  apply BitVec.eq_of_getLsbD_eq
  intro i hi
  have inside : 32 + i < 64 := by omega
  have shifted : ¬32 + i < n := by omega
  rw [BitVec.getLsbD_rotateLeft, Nat.mod_eq_of_lt short, BitVec.getLsbD_extractLsb', BitVec.getLsbD_shiftLeft, BitVec.getLsbD_append]
  by_cases wraps : i < n
  · have low : 32 + i - n < 32 := by omega
    have place : 32 + i - n = 32 - n + i := by omega
    simp only [hi, inside, shifted, wraps, low, decide_true, decide_false, Bool.not_false, Bool.true_and, if_true, cond_true]
    rw [place]
  · have high : ¬32 + i - n < 32 := by omega
    have place : 32 + i - n - 32 = i - n := by omega
    simp only [hi, inside, shifted, wraps, high, place, decide_true, decide_false, Bool.not_false, Bool.true_and, if_false, cond_false]

theorem shlWord_eq (a b : Word) : (BitVec.ofNat 32 (a.toNat * 2 ^ (b.toNat % 256)), 0) = noFlg (shlWord a b) :=
  congrArg noFlg (ofNat_mul_two_pow a _)

theorem shrWord_eq (a b : Word) : (BitVec.ofNat 32 (a.toNat / 2 ^ (b.toNat % 256)), 0) = noFlg (shrWord a b) :=
  congrArg noFlg (ofNat_div_two_pow a _)

theorem sarWord_eq (a b : Word) : (BitVec.ofInt 32 (a.toInt / 2 ^ min (b.toNat % 256) 31), 0) = noFlg (sarWord a b) :=
  congrArg noFlg (ofInt_div_two_pow a _)

theorem rolWord_eq (a b : Word) : (((a ++ a) <<< (b.toNat % 32)).extractLsb' 32 32, 0) = noFlg (rolWord a b) :=
  congrArg noFlg (extractHigh_shiftLeft_double a (Nat.mod_lt _ (by decide)))

/-! ### MOVI -/

theorem movi_completes (x : FmtW17) : Completes (.movi x) { size := Machine.sizeOf x.p, dst := [x.d.toNat] } fun _ f =>
    (f.setV x.d.toNat (BitVec.ofInt 32 (simm x.p 17 (x.ih ++ x.il).toNat)), 0, []) :=
  Completes.of _ (fun _ => by rfl) rfl (fun _ _ => rfl) fun _ f =>
    congrArg (fun n => (f.setV x.d.toNat (wordOfInt (simm x.p 17 n)), 0, [])) (movi_eq x.ih x.il)

theorem decode_movi (ih : BitVec 3) (d : BitVec 7) (il : BitVec 14) (v : BitVec 32) :
    decodeWords (0#1 ++ (0x23#7 ++ (ih ++ (d ++ il)))) v = .ok (.movi ⟨ih, d, il, none⟩, 4) :=
  (decodeWords_lane_set (by decide) _ v).trans
    (congrArg (fun e => (e.map Instr.movi).map (·, 4)) (FmtW17.unpack_pack ⟨ih, d, il, none⟩))

/-- Settles O11: each word by its shape and, for shifts and MOVI, the equation of its function. -/
theorem logicShiftMove : Obligations.LogicShiftMove := by
  refine ⟨fun x => ?_, fun x => ?_, fun x => ?_, fun x => ?_, fun x => ?_, fun x => ?_, fun x => ?_, fun x => ?_, fun x => ?_,
    fun x => ?_, fun x => ?_, fun x => ?_, fun x => ?_, fun x => ?_, fun x => ?_, movi_completes, decode_movi⟩
  · exact Binary.of (fun _ => by rfl) fun _ _ => rfl
  · exact Binary.of (fun _ => by rfl) fun _ _ => rfl
  · exact Binary.of (fun _ => by rfl) fun _ _ => rfl
  · exact Binary.of (fun _ => by rfl) shlWord_eq
  · exact Binary.of (fun _ => by rfl) shrWord_eq
  · exact Binary.of (fun _ => by rfl) sarWord_eq
  · exact Binary.of (fun _ => by rfl) rolWord_eq
  · exact Immediate.of (fun _ => by rfl) fun _ _ => rfl
  · exact Immediate.of (fun _ => by rfl) fun _ _ => rfl
  · exact Immediate.of (fun _ => by rfl) fun _ _ => rfl
  · exact Immediate.of (fun _ => by rfl) shlWord_eq
  · exact Immediate.of (fun _ => by rfl) shrWord_eq
  · exact Immediate.of (fun _ => by rfl) sarWord_eq
  · exact Unary.of (fun _ => by rfl) fun _ => rfl
  · exact Unary.of (fun _ => by rfl) fun _ => rfl

/-! ### Compares, selection -/

theorem icmp_completes (x : FmtC) : Completes (.icmp x) (lrWord x.g x.p [x.a.toNat, x.b.toNat] []) fun c f =>
    (f.setPred x.pd.toNat (condition x.cond.toNat (readReg c.p f x.a.toNat) (readReg c.p f x.b.toNat)), 0, []) :=
  Completes.of _ (fun _ => by rfl) rfl (fun _ f => f.setPred_fid _ _) fun _ f =>
    congrArg (fun v => (f.setPred x.pd.toNat v, 0, [])) (condition_eq _ _ _)

theorem icmpLi_completes (x : FmtC) : Completes (.icmpLi x) (lrWord x.g x.p [x.a.toNat] []) fun c f =>
    (f.setPred x.pd.toNat (condition x.cond.toNat (readReg c.p f x.a.toNat) (BitVec.ofInt 32 (simm x.p 7 x.b.toNat))), 0, []) :=
  Completes.of _ (fun _ => by rfl) rfl (fun _ f => f.setPred_fid _ _) fun _ f =>
    congrArg (fun v => (f.setPred x.pd.toNat v, 0, [])) (condition_eq _ _ _)

/-- The default guard of ISEL's word is pt, so every active member selects (R136). -/
theorem isel_completes (x : FmtR) :
    Completes (.isel x) { size := Machine.sizeOf x.p, codes := [x.a.toNat, x.b.toNat], dst := [x.d.toNat] } fun c f =>
      (f.setV x.d.toNat (if f.pred x.g.toNat then readReg c.p f x.a.toNat else readReg c.p f x.b.toNat), 0, []) :=
  Completes.of _ (fun _ => by rfl) rfl (fun _ _ => rfl) fun _ _ => rfl

theorem decode_isel (g : BitVec 3) (d a b : BitVec 7) (v : BitVec 32) :
    decodeWords (0#1 ++ (0x18#7 ++ (g ++ (d ++ (a ++ b))))) v = .ok (.isel ⟨g, d, a, b, none⟩, 4) :=
  (decodeWords_lane_set (by decide) _ v).trans
    (congrArg (fun e => (e.map Instr.isel).map (·, 4)) (FmtR.unpack_pack ⟨g, d, a, b, none⟩))

/-! ### Predicates -/

theorem Predicate.of {i : Instr} {g pd : BitVec 3} {op op' : Fibre → Bool}
    (hi : ∀ s, exec i s = runPure { guard := g.toNat } s fun _ f => (f.setPred pd.toNat (op' f), 0, [])) (e : ∀ f, op f = op' f) :
    Predicate i g pd op :=
  Completes.of _ hi rfl (fun _ f => f.setPred_fid _ _) fun _ f => congrArg (fun v => (f.setPred pd.toNat v, 0, [])) (e f)

@[simp] theorem Fibre.pred_pt (f : Fibre) : f.pred 7 = true :=
  rfl

@[simp] theorem Fibre.setPred_pt (f : Fibre) (v : Bool) : f.setPred 7 v = f :=
  rfl

theorem Fibre.preds_setWidth (f : Fibre) : (BitVec.ofFnLE fun i : Fin 32 => decide ((i : Nat) < 7) && f.pred i) = f.preds.setWidth 32 := by
  apply BitVec.eq_of_getLsbD_eq
  intro i hi
  rw [BitVec.getLsbD_ofFnLE, dif_pos hi, BitVec.getLsbD_setWidth, Fibre.pred]
  by_cases stored : i < 7
  · simp [stored, hi, Nat.ne_of_lt stored]
  · simp [stored, BitVec.getLsbD_of_ge f.preds i (not_lt.1 stored)]

theorem ofFnLE_getLsbD (a : Word) : (BitVec.ofFnLE fun i : Fin 7 => a.getLsbD i) = a.setWidth 7 := by
  apply BitVec.eq_of_getLsbD_eq
  intro i hi
  rw [BitVec.getLsbD_ofFnLE, dif_pos hi, BitVec.getLsbD_setWidth, decide_eq_true hi, Bool.true_and]

theorem p2v_completes (x : FmtD1) : Completes (.p2v x) (lrWord x.g x.p [] [x.d.toNat]) fun _ f =>
    (f.setV x.d.toNat (BitVec.ofFnLE fun i : Fin 32 => decide ((i : Nat) < 7) && f.pred i), 0, []) :=
  Completes.of _ (fun _ => by rfl) rfl (fun _ _ => rfl) fun _ f =>
    congrArg (fun w => (f.setV x.d.toNat w, 0, [])) f.preds_setWidth

theorem v2p_completes (x : FmtA1) : Completes (.v2p x) (lrWord x.g x.p [x.a.toNat] []) fun c f =>
    ({ f with preds := BitVec.ofFnLE fun i : Fin 7 => (readReg c.p f x.a.toNat).getLsbD i }, 0, []) :=
  Completes.of _ (fun _ => by rfl) rfl (fun _ _ => rfl) fun _ f =>
    congrArg (fun w => ({ f with preds := w }, 0, [])) (ofFnLE_getLsbD _)

/-- Settles O13: each word by its shape, the compares by the model's table of conditions. -/
theorem compareSelectPredicates : Obligations.CompareSelectPredicates := by
  refine ⟨icmp_completes, icmpLi_completes, isel_completes, decode_isel, fun x => ?_, fun x => ?_, fun x => ?_, fun x => ?_,
    p2v_completes, v2p_completes, Fibre.pred_pt, Fibre.setPred_pt⟩
  · exact Predicate.of (fun _ => by rfl) fun _ => rfl
  · exact Predicate.of (fun _ => by rfl) fun _ => rfl
  · exact Predicate.of (fun _ => by rfl) fun _ => rfl
  · exact Predicate.of (fun _ => by rfl) fun _ => rfl

end Sys2Proof.Machine
end
section
/-! The cross-lane words (R155 to R159). -/

namespace Sys2Proof.Machine

/-! ### SHFL -/

/-- A shuffle gathers from the lane that its source function names. -/
theorem shfl_gathers {i : Instr} {x : FmtR0} {src src' : Nat → Nat → Option Nat} (hi : ∀ s, exec i s = shflOp x s src')
    (e : ∀ l b, src l b = src' l b) : Gathers i x.g [x.a.toNat, x.b.toNat] x.d fun c f =>
      (((src c.lane (readReg c.p f x.b.toNat).toNat).bind (assoc c.parts)).map fun g => readReg c.p g x.a.toNat).getD
        (readReg c.p f x.a.toNat) := by
  refine Completes.of _ hi rfl (fun _ _ => rfl) fun c f => congrArg (fun w => (f.setV x.d.toNat w, 0, [])) ?_
  beta_reduce
  rw [e]
  cases src' c.lane (readReg c.p f x.b.toNat).toNat with
  | none => rfl
  | some l =>
    simp only [Option.bind_some]
    cases assoc c.parts l <;> rfl

/-- A word whose OP is decoded by format LR without XP stands alone: a prefix before it is refused (R66). -/
theorem decodeWords_noPfx {op : BitVec 7} {i : FmtR0 → Instr} (other : op ≠ 0x7E#7)
    (hop : ∀ p r, decodeLane p op.toNat r = noPfx p ((FmtR0.unpack r).map i)) :
    (∀ g d a b v, decodeWords (0#1 ++ (op ++ (g ++ (d ++ (a ++ b))))) v = .ok (i ⟨g, d, a, b⟩, 4)) ∧
    ∀ (p r : BitVec 24), decodeWords (0#1 ++ (0x7E#7 ++ p)) (0#1 ++ (op ++ r)) = .error .prefixRefused := by
  refine ⟨fun g d a b v => ?_, fun p r => ?_⟩
  · rw [decodeWords_lane_set other, hop]
    exact congrArg (fun e => (e.map i).map (·, 4)) (FmtR0.unpack_pack ⟨g, d, a, b⟩)
  · rw [decodeWords_lane_set_prefixed other, hop]
    rfl

/-! ### VOTE and MATCH -/

/-- The set of the lanes that a test selects, built up lane by lane. -/
theorem foldl_lanes {α : Type} (test : α → Prop) [DecidablePred test] (l : List (Nat × α)) (k : Nat) :
    l.foldl (fun n q => if test q.2 then n + 2 ^ q.1 else n) k = k + ((l.filter fun q => decide (test q.2)).map fun q => 2 ^ q.1).sum := by
  induction l generalizing k with
  | nil => rfl
  | cons q rest ih =>
    rw [List.foldl_cons, ih]
    by_cases selected : test q.2
    · simp [selected, Nat.add_assoc]
    · simp [selected]

theorem vote_gathers {i : Instr} {x : FmtV0} {op : List (Nat × Bool) → Nat} {r : IssueCtx → Word} (hi : ∀ s, exec i s = voteOp x s op)
    (e : ∀ c, r c = BitVec.ofNat 32 (op (c.parts.map fun q => (q.1, q.2.pred x.pa.toNat)))) : Gathers i x.g [] x.d fun c _ => r c :=
  Completes.of _ hi rfl (fun _ _ => rfl) fun c f => congrArg (fun w => (f.setV x.d.toNat w, 0, [])) (e c)

theorem voteAny_gathers (x : FmtV0) :
    Gathers (.voteAny x) x.g [] x.d fun c _ => if ∃ q ∈ c.parts, q.2.pred x.pa.toNat = true then 1 else 0 :=
  vote_gathers (op := fun l => if l.any (·.2) then 1 else 0) (fun _ => by rfl) fun c => by
    rw [List.any_map, apply_ite (BitVec.ofNat 32)]
    exact if_congr List.any_eq_true.symm rfl rfl

theorem voteAll_gathers (x : FmtV0) :
    Gathers (.voteAll x) x.g [] x.d fun c _ => if ∀ q ∈ c.parts, q.2.pred x.pa.toNat = true then 1 else 0 :=
  vote_gathers (op := fun l => if l.all (·.2) then 1 else 0) (fun _ => by rfl) fun c => by
    rw [List.all_map, apply_ite (BitVec.ofNat 32)]
    exact if_congr List.all_eq_true.symm rfl rfl

theorem voteBal_gathers (x : FmtV0) : Gathers (.voteBal x) x.g [] x.d fun c _ =>
    BitVec.ofNat 32 ((c.parts.filter fun q => q.2.pred x.pa.toNat).map fun q => 2 ^ q.1).sum :=
  vote_gathers (fun _ => by rfl) fun c => by
    have lanes := foldl_lanes (fun f : Fibre => f.pred x.pa.toNat = true) c.parts 0
    simp only [Bool.decide_eq_true, Nat.zero_add] at lanes
    rw [List.foldl_map, lanes]

theorem match_gathers (x : FmtU0) : Gathers (.matchLanes x) x.g [x.a.toNat] x.d fun c f =>
    BitVec.ofNat 32 ((c.parts.filter fun m => decide (readReg c.p m.2 x.a.toNat = readReg c.p f x.a.toNat)).map fun m => 2 ^ m.1).sum :=
  Completes.of _ (fun _ => by rfl) rfl (fun _ _ => rfl) fun c f => congrArg (fun n => (f.setV x.d.toNat (BitVec.ofNat 32 n), 0, [])) <|
    ((foldl_lanes (fun g => readReg c.p g x.a.toNat = readReg c.p f x.a.toNat) c.parts 0).trans (Nat.zero_add _)).symm

/-! ### LRED -/

theorem lred_completes {i : Instr} {x : FmtU0} {op op' : Word → Word → Word} (hi : ∀ s, exec i s = lredOp x s op')
    (e : ∀ a b, op a b = op' a b) :
    Completes i { lrWord x.g none [x.a.toNat] [x.d.toNat] with cost := 2 } fun c f =>
      (f.setV x.d.toNat (match c.parts.map fun m => readReg c.p m.2 x.a.toNat with
        | [] => 0
        | v :: rest => rest.foldl op v), 0, []) := by
  obtain rfl : op = op' := funext fun a => funext fun b => e a b
  exact Completes.of _ hi rfl (fun _ _ => rfl) fun _ _ => rfl

/-- Settles O21: a shuffle by the lane that it names, a vote and a match by the lanes that they select, a reduction by its operation. -/
theorem crossLaneWords : Obligations.CrossLaneWords := by
  refine ⟨⟨?_, ?_, voteAny_gathers, voteAll_gathers, voteBal_gathers⟩, ?_, match_gathers⟩
  · refine List.forall_mem_cons.2 ⟨fun x => ?_, List.forall_mem_cons.2 ⟨fun x => ?_, List.forall_mem_cons.2 ⟨fun x => ?_,
      List.forall_mem_singleton.2 fun x => ?_⟩⟩⟩
    · exact shfl_gathers (fun _ => by rfl) fun _ _ => rfl
    · exact shfl_gathers (fun _ => by rfl) fun l b => (if_congr Nat.not_lt.symm rfl rfl).trans (ite_not _ _ _)
    · exact shfl_gathers (fun _ => by rfl) fun l b =>
        (if_congr (show l + b < 32 ↔ ¬31 < l + b by omega) rfl rfl).trans (ite_not _ _ _)
    · exact shfl_gathers (fun _ => by rfl) fun _ _ => rfl
  · refine List.forall_mem_cons.2 ⟨?_, List.forall_mem_cons.2 ⟨?_, List.forall_mem_cons.2 ⟨?_, List.forall_mem_singleton.2 ?_⟩⟩⟩
    · exact decodeWords_noPfx (by decide) fun _ _ => rfl
    · exact decodeWords_noPfx (by decide) fun _ _ => rfl
    · exact decodeWords_noPfx (by decide) fun _ _ => rfl
    · exact decodeWords_noPfx (by decide) fun _ _ => rfl
  · refine List.forall_mem_cons.2 ⟨fun x => ?_, List.forall_mem_cons.2 ⟨fun x => ?_, List.forall_mem_cons.2 ⟨fun x => ?_,
      List.forall_mem_cons.2 ⟨fun x => ?_, List.forall_mem_cons.2 ⟨fun x => ?_, List.forall_mem_cons.2 ⟨fun x => ?_,
      List.forall_mem_cons.2 ⟨fun x => ?_, List.forall_mem_singleton.2 fun x => ?_⟩⟩⟩⟩⟩⟩⟩
    · exact lred_completes (fun _ => by rfl) fun _ _ => rfl
    · exact lred_completes (fun _ => by rfl) fun a b => congrArg Prod.fst (least_eq (below := BitVec.slt) (fun _ _ => rfl) a b)
    · exact lred_completes (fun _ => by rfl) fun a b =>
        congrArg Prod.fst (greatest_eq (below := BitVec.slt) (fun _ _ => rfl) (fun _ _ => BitVec.eq_of_toInt_eq) a b)
    · exact lred_completes (fun _ => by rfl) fun _ _ => rfl
    · exact lred_completes (fun _ => by rfl) fun _ _ => rfl
    · exact lred_completes (fun _ => by rfl) fun _ _ => rfl
    · exact lred_completes (fun _ => by rfl) fun a b => congrArg Prod.fst (least_eq (below := BitVec.ult) (fun _ _ => rfl) a b)
    · exact lred_completes (fun _ => by rfl) fun a b =>
        congrArg Prod.fst (greatest_eq (below := BitVec.ult) (fun _ _ => rfl) (fun _ _ => BitVec.eq_of_toNat_eq) a b)

end Sys2Proof.Machine
end

section
/-! The engine words at the two plots that share a handle (R45, R162). -/

namespace Sys2Proof.Machine

/-- The state after plot 0 has signed an MMRUN. -/
def twinQueued : State :=
  match exec (.mmrun ⟨0, 0, 0⟩) twinState with
  | .next t => t
  | _ => twinState

/-- The same, what plot 0 has signed being complete and at the pipe of core 0, as the statement has it. -/
def twinReady : State :=
  (twinQueued.marked 0 0 0 fun j => { j with complete := true }).modCore 0 fun k => { k with pipeWait := [⟨0, 0, 0, 0⟩] }

/-- Plot 0 then. -/
def twinSigner : Plot :=
  (twinReady.plot? 0).getD (fetchPlot 0)

/-- In the model what the far plot has signed is at the pipe of core 1 after the step. -/
theorem farPipe_twinQueued : farPipe (exec (.uniformPipeExecute 0) twinQueued) = 1 := by
  decide +kernel

/-- The signer of the MMRUN has no access under way, so that the pipe does not hold it (R168). -/
theorem twinReady_quiet :
    twinReady.signersQuiet twinSigner (soleInst (engineWord 0 0 [] .engine false) (.mmrun ⟨0, 0, 0⟩) ⟨0, 0, none, 0, [(0, 0)]⟩ twinFibre true) =
      true := by
  decide +kernel

/-- Putting a command in the queue of core 0 and taking the MMRUN from the pipe leaves the pipe of core 1 empty. -/
theorem farPipe_commanded (d : Cmd) :
    farPipe (.next ((({ twinReady.modCore twinSigner.core (fun k => { k with cmdWait := k.cmdWait ++ [d] }) with
      nextOrder := twinReady.nextOrder + 1 } : State).executed 0 0 0 0 .none).taken 0 ⟨0, 0, 0, 0⟩)) = 0 := by
  rfl

/-- Refutes O47: as for O46, `Solo` lets two plots share a handle, and at the end of the ccy the model queues what the first of them has signed at the
pipe of its own core, where the statement leaves every core but the signer's as it was. -/
theorem not_engineCommands : ¬Obligations.EngineCommands := by
  rintro ⟨-, mmrun, -⟩
  obtain ⟨-, solo⟩ := mmrun ⟨0, 0, 0⟩
  obtain ⟨S, P, T, Q, signed, -, hT, hQ, executed⟩ := solo _ _ _ _ twinState_solo (fun h => nomatch h) (fun _ h => by cases h; rfl)
  obtain rfl : S = twinQueued := by simp only [twinQueued, signed]
  obtain rfl : T = twinReady := hT
  obtain rfl : Q = twinSigner := by simp [twinSigner, show twinReady.plot? 0 = some Q from hQ]
  beta_reduce at executed
  rw [if_neg (by rw [twinReady_quiet]; decide)] at executed
  have far := (congrArg farPipe executed).symm.trans farPipe_twinQueued
  exact absurd (far.symm.trans (farPipe_commanded _)) (by decide)

end Sys2Proof.Machine
end

section
/-! What the end of an engine command changes: the counts of its signers, those who wait for them, the halt of its plot (R163, R167, R255, R300). -/

namespace Sys2Proof.Machine

/-- Waking those parked for a BARINIT adds to the resumes, and to nothing else. -/
theorem State.wakeBarinit_only (s : State) (pid : Nat) : ∃ l, s.wakeBarinit pid = { s with resumes := s.resumes ++ l } := by
  unfold State.wakeBarinit
  split
  · exact ⟨[], by rw [List.append_nil]⟩
  · exact s.resumeWhere_only pid _

/-- Changes of a plot's fibres, one after another, are one change of the plot. -/
theorem State.foldl_modFibre (pid : Nat) (g : Fibre → Fibre) (l : List Nat) (s : State) :
    ∃ F : Plot → Plot, (∀ q, (F q).pid = q.pid) ∧ l.foldl (fun t f => t.modFibre pid f g) s = s.modPlot pid F := by
  induction l generalizing s with
  | nil => exact ⟨fun q => q, fun _ => rfl, (s.modPlot_id pid).symm⟩
  | cons f l ih =>
    obtain ⟨F, hF, eq⟩ := ih (s.modFibre pid f g)
    exact ⟨fun q => F (q.modFibre f g), fun q => hF _, eq.trans (s.modPlot_modPlot pid _ F fun _ => rfl)⟩

/-- Freeing the counts of a command's signers changes its plot and adds to the resumes, and does nothing else (R163, R255, R300). -/
theorem State.freeSigners_only (s : State) (d : Cmd) :
    ∃ (F : Plot → Plot) (l : List Resume), (∀ q, (F q).pid = q.pid) ∧ s.freeSigners d = { s.modPlot d.pid F with resumes := s.resumes ++ l } := by
  obtain ⟨F, hF, freed⟩ := State.foldl_modFibre d.pid
    (fun g => if d.isMatrix then { g with engine := g.engine - 1 } else { g with copies := g.copies - 1 }) d.signers s
  obtain ⟨l, woken, -⟩ := (s.modPlot d.pid F).wake_spec d.pid (if d.isMatrix then .engine else .copies)
  obtain ⟨m, last⟩ := ({ s.modPlot d.pid F with resumes := s.resumes ++ l } : State).wakeBarinit_only d.pid
  refine ⟨F, l ++ m, hF, ?_⟩
  rw [State.freeSigners, freed, woken, State.modPlot_resumes, last, List.append_assoc]

theorem State.freeSigners_mem (s : State) (d : Cmd) : (s.freeSigners d).mem = s.mem := by
  obtain ⟨F, l, -, eq⟩ := s.freeSigners_only d
  rw [eq]
  rfl

theorem State.plot?_freeSigners {s : State} {d : Cmd} {p : Plot} (hp : s.plot? d.pid = some p) : ∃ q, (s.freeSigners d).plot? d.pid = some q := by
  obtain ⟨F, l, hF, eq⟩ := s.freeSigners_only d
  refine ⟨F p, ?_⟩
  rw [eq]
  exact (s.plot?_modPlot d.pid F hF).trans (by rw [hp]; rfl)

/-- A command's fault halts its plot (R167, R413). -/
theorem State.plot?_faultCmd {s : State} {d : Cmd} {p : Plot} (hp : s.plot? d.pid = some p) (r : FaultRec) :
    ∃ q, (s.faultCmd d r).plot? d.pid = some q ∧ q.halt.isSome = true := by
  refine ⟨_, (s.plot?_modPlot d.pid _ fun _ => ?_).trans (by rw [hp]; rfl), ?_⟩
  · rfl
  · rfl

/-- The end of a wain command leaves memory as it is (R302, R306). -/
theorem State.endWain_mem (s : State) (core : Nat) (r : WainRun) : (s.endWain core r).mem = s.mem := by
  unfold State.endWain
  dsimp only
  split
  · exact (State.freeSigners_mem _ _).trans (State.modCore_mem s core _)
  · exact (State.freeSigners_mem _ _).trans (State.modCore_mem s core _)

end Sys2Proof.Machine
end

section
/-! The bytes of a piece that is one run of neighbours, as the engine writes them (R306). -/

namespace Sys2Proof.Machine

/-- Bytes with their places, from a place on. -/
def placed (a : Nat) : List Byte → List (Nat × Byte)
  | [] => []
  | b :: bs => (a, b) :: placed (a + 1) bs

/-- Setting a new key adds its pair at the end. -/
theorem assocSet_fresh {β : Type} {m : List (Nat × β)} {k : Nat} (fresh : ∀ q ∈ m, q.1 < k) (v : β) : assocSet m k v = m ++ [(k, v)] := by
  have absent : (m.any fun q => q.1 == k) = false :=
    List.any_eq_false.2 fun q hq => by simpa using Nat.ne_of_lt (fresh q hq)
  simp [assocSet, absent]

/-- An element above all others is inserted at the end. -/
theorem insertBy_above {α : Type} {key : α → Nat} {a : α} {l : List α} (above : ∀ b ∈ l, key b < key a) : insertBy key a l = l ++ [a] := by
  induction l with
  | nil => rfl
  | cons b l ih =>
    rw [insertBy, if_neg (Nat.lt_asymm (above b List.mem_cons_self)), ih fun c hc => above c (List.mem_cons_of_mem _ hc)]
    rfl

/-- What stands below a place and the pair at it stands below the next place. -/
theorem below_succ {β : Type} {m : List (Nat × β)} {k : Nat} (below : ∀ q ∈ m, q.1 < k) (v : β) : ∀ q ∈ m ++ [(k, v)], q.1 < k + 1 := by
  intro q hq
  rcases List.mem_append.1 hq with hq | hq
  · exact Nat.lt_succ_of_lt (below q hq)
  · rw [List.mem_singleton.1 hq]
    exact Nat.lt_succ_self k

theorem foldl_assocSet_placed (off : Nat) (bs : List Byte) (k : Nat) (m : List (Nat × Byte)) (below : ∀ q ∈ m, q.1 < off + k) :
    ((List.range' k bs.length).zip bs).foldl (fun m q => assocSet m (off + q.1) q.2) m = m ++ placed (off + k) bs := by
  induction bs generalizing k m with
  | nil => exact (List.append_nil m).symm
  | cons b bs ih =>
    have rest := ih (k + 1) _ (below_succ below b)
    simp only [List.length_cons, List.range'_succ, List.zip_cons_cons, List.foldl_cons, assocSet_fresh below, rest, placed,
      List.append_assoc, List.singleton_append, Nat.add_assoc]

theorem foldl_insertBy_placed (bs : List Byte) (k : Nat) (m : List (Nat × Byte)) (below : ∀ q ∈ m, q.1 < k) :
    (placed k bs).foldl (fun acc a => insertBy (·.1) a acc) m = m ++ placed k bs := by
  induction bs generalizing k m with
  | nil => exact (List.append_nil m).symm
  | cons b bs ih =>
    rw [placed, List.foldl_cons, insertBy_above below, ih (k + 1) _ (below_succ below b), List.append_assoc, List.singleton_append]

/-- A byte joins the run that it follows. -/
theorem runsOf_next {l : List (Nat × Byte)} {a : Nat} {front : List Byte} (run : runsOf l = [(a, front)]) (b : Byte) :
    runsOf (l ++ [(a + front.length, b)]) = [(a, front ++ [b])] := by
  unfold runsOf at run ⊢
  rw [List.reverse_eq_iff] at run
  simp only [List.foldl_append, run]
  simp

/-- Neighbours join the run that they follow. -/
theorem runsOf_append_placed (bs : List Byte) {l : List (Nat × Byte)} {a : Nat} {front : List Byte} (run : runsOf l = [(a, front)]) :
    runsOf (l ++ placed (a + front.length) bs) = [(a, front ++ bs)] := by
  induction bs generalizing l front with
  | nil => simpa [placed] using run
  | cons b bs ih => simpa [placed, Nat.add_assoc] using ih (runsOf_next run b)

theorem runsOf_placed (a : Nat) (b : Byte) (bs : List Byte) : runsOf (placed a (b :: bs)) = [(a, b :: bs)] :=
  runsOf_append_placed bs (l := [(a, b)]) rfl

/-- The writes of a piece of one run are one write of that run, if it has a byte. -/
theorem pieceRuns_single (off : Nat) (bs : List Byte) : pieceRuns [(off, bs)] = if bs = [] then [] else [(off, bs)] := by
  have bytes := foldl_assocSet_placed off bs 0 [] (fun _ h => nomatch h)
  have sorted := foldl_insertBy_placed bs off [] (fun _ h => nomatch h)
  simp only [List.nil_append, Nat.add_zero] at bytes sorted
  simp only [pieceRuns, List.foldl_cons, List.foldl_nil, List.range_eq_range', bytes, sortBy, sorted]
  cases bs with
  | nil => rfl
  | cons b bs => rw [runsOf_placed, if_neg (List.cons_ne_nil b bs)]

/-- A written byte reads back. -/
theorem Memory.read_writeN_at {m : List Host.Cell} (h : Memory.wf m = true) (a : Nat) (bs : List Byte) (i : Nat) (hi : i < bs.length) :
    Memory.read (Memory.writeN m a bs) (a + i) = bs[i] := by
  induction bs generalizing m a i with
  | nil => exact absurd hi (Nat.not_lt_zero i)
  | cons b bs ih =>
    have kept := Memory.wf_write m a b h
    cases i with
    | zero => exact (Memory.read_writeN_other _ _ _ bs kept (.inl (Nat.lt_succ_self a))).trans ((Memory.read_write m a a b h).trans (if_pos rfl))
    | succ i =>
      have rest := ih kept (a + 1) i (Nat.lt_of_succ_lt_succ hi)
      rwa [Nat.add_assoc, Nat.add_comm 1 i] at rest

end Sys2Proof.Machine
end

section
/-! The engines' steps: entry, start, the port, completion, pieces, a collective's round (R161, R162, R169, R187, R300, R306, R313). -/

namespace Sys2Proof.Machine

/-! ### Entry (R162, R300) -/

/-- The waiting command that enters next: its queue has room, and no earlier one is of its plot or of a plot held back. -/
theorem Core.firstEntry_spec {k : Core} {held : List Nat} {l : List Cmd} {d : Cmd} (h : k.firstEntry held l = some d) :
    k.roomFor d = true ∧ d.pid ∉ held ∧ ∃ before after, l = before ++ d :: after ∧ ∀ e ∈ before, e.pid ≠ d.pid := by
  induction l generalizing held with
  | nil => exact nomatch h
  | cons e l ih =>
    rw [Core.firstEntry] at h
    split at h
    next enters =>
      obtain rfl : e = d := Option.some.inj h
      obtain ⟨free, room⟩ := (Bool.and_eq_true _ _).mp enters
      exact ⟨room, by simpa using free, [], l, rfl, fun _ h => nomatch h⟩
    next =>
      obtain ⟨room, free, before, after, rfl, others⟩ := ih h
      obtain ⟨other, free⟩ := not_or.1 (mt List.mem_cons.2 free)
      exact ⟨room, free, e :: before, after, rfl, List.forall_mem_cons.2 ⟨Ne.symm other, others⟩⟩

/-- A core in whose queue a waiting command has entered, as the command of an order. -/
def Core.enter (d : Cmd) (order : Nat) (k : Core) : Core :=
  { k with
    cmdWait := k.cmdWait.filter fun e => e.order != d.order
    mat := { k.mat with queue := k.mat.queue ++ if d.isMatrix then [{ d with order := order }] else [] }
    wainQueue := k.wainQueue ++ if d.isMatrix then [] else [{ d with order := order }] }

theorem exec_engineQueueEntry {s : State} {core : Nat} {d : Cmd} (due : (s.core core).entry? = some d) :
    exec (.engineQueueEntry core) s = .next { s.modCore core (Core.enter d s.nextOrder) with nextOrder := s.nextOrder + 1 } := by
  change execEngineQueueEntry core s = _
  unfold execEngineQueueEntry State.modCore Core.enter
  dsimp only
  rw [due]
  dsimp only
  cases d.isMatrix with
  | true => simp only [if_true, List.append_nil]
  | false => simp only [Bool.false_eq_true, if_false, List.append_nil]

/-! ### Matrix commands (R161, R167, R169, R187) -/

/-- The state of the tile memory after an SBLD has begun: its slots are empty; another command leaves it (R180). -/
def Cmd.emptied (d : Cmd) (st : MatState) : MatState :=
  match d.code with
  | .sbld _ => st.dropSlots (d.bits 1 13 2) (d.bits 1 8 5)
  | _ => st

/-- The state that a command meets at the engine: a plot that claims the free engine finds it as after reset (R161). -/
def MatEngine.met (e : MatEngine) : MatState :=
  if e.holder.isNone then .claimed else e.st

/-- The engine of a plot of which a command has left the queue. -/
def MatEngine.taken (e : MatEngine) (d : Cmd) : MatEngine :=
  { e with holder := some d.pid, st := d.emptied e.met, queue := e.queue.filter fun c => c.order != d.order }

/-- The engine that runs a command on its path, with the scratchpad port where the command needs it and it is free (R169, R187). -/
def MatEngine.begun (e : MatEngine) (d : Cmd) : MatEngine :=
  { e.taken d with
    load := if d.onLoad then some d else e.load
    compute := if d.onLoad then e.compute else some d
    port := if d.needsPort && e.port.isNone then some d.order else e.port }

/-- A matrix command that passes its checks runs on its path. -/
theorem exec_matrixCommandStart {s : State} {core : Nat} {d : Cmd} {p : Plot} (due : s.matrixStart? core = some d) (hp : s.plot? d.pid = some p)
    (passes : matrixFault d p (s.core core).reclaim.mat.met = none) :
    exec (.matrixCommandStart core) s = .next (s.modCore core fun k => { k.reclaim with mat := k.reclaim.mat.begun d }) := by
  change execMatrixCommandStart core s = _
  unfold MatEngine.met at passes
  simp only [execMatrixCommandStart, due, hp, passes, State.modCore, MatEngine.begun, MatEngine.taken, MatEngine.met]
  cases d.onLoad <;> rfl

/-- A matrix command that fails its checks ends with its fault. -/
theorem exec_matrixCommandStart_fault {s : State} {core : Nat} {d : Cmd} {p : Plot} {f : CmdFault} (due : s.matrixStart? core = some d)
    (hp : s.plot? d.pid = some p) (fails : matrixFault d p (s.core core).reclaim.mat.met = some f) :
    exec (.matrixCommandStart core) s =
      .next (((s.modCore core fun k => { k.reclaim with mat := k.reclaim.mat.taken d }).freeSigners d).faultCmd d (f.rec_ d)) := by
  change execMatrixCommandStart core s = _
  unfold MatEngine.met at fails
  simp only [execMatrixCommandStart, due, hp, fails, State.modCore, MatEngine.taken, MatEngine.met]
  rfl

theorem Core.reclaim_num (k : Core) : k.reclaim.num = k.num := by
  unfold Core.reclaim
  split <;> rfl

theorem exec_scratchpadPortGrant {s : State} {core : Nat} {d : Cmd} (due : (s.core core).mat.waitsPort = some d) :
    exec (.scratchpadPortGrant core) s = .next (s.modCore core fun k => { k with mat := { k.mat with port := some d.order } }) := by
  change execScratchpadPortGrant core s = _
  simp only [execScratchpadPortGrant, due]

/-- The engine after a command has completed: its path is free, and the port if it was the command's (R187). -/
def MatEngine.without (e : MatEngine) (d : Cmd) : MatEngine :=
  { e with
    load := if d.onLoad then none else e.load
    compute := if d.onLoad then e.compute else none
    port := if e.port = some d.order then none else e.port }

theorem MatEngine.without_port (e : MatEngine) (d : Cmd) : (e.without d).port ≠ some d.order := by
  unfold MatEngine.without
  dsimp only
  split
  · exact Option.some_ne_none _ |>.symm
  · assumption

theorem exec_matrixCommandComplete {s : State} {core : Nat} {d : Cmd} {p : Plot} (due : s.matrixDone? core = some d) (hp : s.plot? d.pid = some p) :
    exec (.matrixCommandComplete core) s =
      .next (((s.endMatrix p d).modCore core fun k => { k with mat := k.mat.without d }).freeSigners d) := by
  change execMatrixCommandComplete core s = _
  simp only [execMatrixCommandComplete, due, hp]
  rfl

/-! ### Wain commands (R300, R302, R306, R463) -/

theorem exec_wainCommandStart {s : State} {core : Nat} {d : Cmd} {p : Plot} (due : s.wainStart? core = some d) (hp : s.plot? d.pid = some p) :
    exec (.wainCommandStart core) s =
      .next ((s.modCore core fun k => { k with wainQueue := k.wainQueue.filter fun c => c.order != d.order }).startWain p d) := by
  change execWainCommandStart core s = _
  simp only [execWainCommandStart, due, hp]

/-- A command that fails its checks ends with its fault (R302). -/
theorem State.startWain_fault {s : State} {p : Plot} {d : Cmd} {e : CmdFault} (fails : s.wainFault p d = some e) :
    s.startWain p d = s.endWain p.core ⟨d, [], none, some (e.rec_ d), false, [], []⟩ := by
  simp only [State.startWain, fails]
  rfl

/-- A command over a Yotis port that is down ends with POISON (R463). -/
theorem State.startWain_shut {s : State} {p : Plot} {d : Cmd} (passes : s.wainFault p d = none) (shut : s.yotisShut p d = true) :
    s.startWain p d = s.endWain p.core ⟨d, [], none, some (.late .poison d.pc 0 0 5 d.unitNum), false, [], []⟩ := by
  simp only [State.startWain, passes, shut, if_true]
  rfl

/-- A BARINIT writes its barrier and ends; no port carries it (R309). -/
theorem State.startWain_barinit {s : State} {p : Plot} {d : Cmd} {x : FmtXI} (passes : s.wainFault p d = none) (code : d.code = .barinit x) :
    s.startWain p d =
      (s.testBarrier (scratchAddr p.core + p.sbase + d.bits 0 0 19) d.barrier).endWain p.core ⟨d, [], none, none, false, [], []⟩ := by
  have carried : s.yotisShut p d = false := by simp [State.yotisShut, Cmd.isCopy, Cmd.isColl, code]
  simp only [State.startWain, passes, carried, code, Bool.false_eq_true, if_false]
  rfl

/-- A command that moves bytes into the scratchpad has read them all, and runs while its pieces land (R304, R306). -/
theorem State.startWain_reads {s t : State} {p : Plot} {d : Cmd} {cells : List (List (Nat × List Byte))} (passes : s.wainFault p d = none)
    (carried : s.yotisShut p d = false) (scratch : d.form.dstGlobal = false) (noBarinit : ∀ x, d.code ≠ .barinit x) (noColl : ∀ x, d.code ≠ .coll x)
    (reads : s.readPieces p d = (t, cells, none)) (moves : cells ≠ []) :
    s.startWain p d =
      t.modCore p.core fun k => { k with wainRun := k.wainRun ++ [⟨d, cells.map fun c => ⟨pieceSize c, c⟩, d.barLoc p, none, false, [], []⟩] } := by
  have running : (cells.map fun c => (⟨pieceSize c, c⟩ : Piece)).isEmpty = false := by simpa using moves
  simp [State.startWain, passes, carried, reads, scratch, State.runWain, running]

/-! ### Pieces (R306) -/

theorem exec_pieceLanded {s : State} {core : Nat} {r : WainRun} (due : s.lands? core = some r) :
    exec (.pieceLanded core) s = .next (s.landPiece core r) := by
  change execPieceLanded core s = _
  simp only [execPieceLanded, due]

/-- A piece of one run for the scratchpad, of a command without a barrier, writes its bytes and no others. -/
theorem State.landPiece_mem {s : State} {core : Nat} {r : WainRun} {p : Plot} {n off : Nat} {bs : List Byte} {rest : List Piece}
    (hp : s.plot? r.cmd.pid = some p) (pieces : r.pieces = ⟨n, [(off, bs)]⟩ :: rest) (noBar : r.bar = none) (scratch : r.cmd.form.dstGlobal = false) :
    (s.landPiece core r).mem = Memory.writeN s.mem (scratchAddr p.core + p.sbase + off) bs := by
  have written : (s.writePiece p r.cmd ⟨n, [(off, bs)]⟩).1.mem = Memory.writeN s.mem (scratchAddr p.core + p.sbase + off) bs ∧
      (s.writePiece p r.cmd ⟨n, [(off, bs)]⟩).2 = none := by
    simp only [State.writePiece, scratch, Bool.false_eq_true, if_false, pieceRuns_single, and_true]
    cases bs with
    | nil => rfl
    | cons b bs => rw [if_neg (List.cons_ne_nil b bs)]; rfl
  obtain ⟨mem, landed⟩ := written
  have counts (t : State) : t.countPiece p r n = t := by simp only [State.countPiece, noBar, Option.bind_none]
  rw [← mem]
  simp only [State.landPiece, hp, pieces]
  split
  next refused => exact nomatch (congrArg Prod.snd refused).symm.trans landed
  next t eq =>
    rw [eq, counts t]
    split
    · exact State.endWain_mem ..
    · exact State.modCore_mem ..

/-! ### Collectives (R313) -/

/-- One contribution for each of some ranks, each of those in hand. -/
theorem contributions_spec {parts : List CollPart} {ranks : List Nat} {l : List CollPart}
    (h : ranks.foldr (fun r acc =>
      match parts.find? (fun x => x.rank == r), acc with
      | some x, some l => some (x :: l)
      | _, _ => none) (some []) = some l) : l.length = ranks.length ∧ ∀ x ∈ l, x ∈ parts := by
  induction ranks generalizing l with
  | nil =>
    obtain rfl : [] = l := Option.some.inj h
    exact ⟨rfl, fun _ hx => nomatch hx⟩
  | cons r ranks ih =>
    rw [List.foldr_cons] at h
    split at h
    next x more found others =>
      obtain rfl : x :: more = l := Option.some.inj h
      obtain ⟨length, inHand⟩ := ih others
      exact ⟨congrArg (· + 1) length, List.forall_mem_cons.2 ⟨List.mem_of_find?_eq_some found, inHand⟩⟩
    next => exact nomatch h

/-- The round of a group: one contribution for each rank, each of those in hand. -/
theorem CollWait.round_spec {c : CollWait} {l : List CollPart} (h : c.round = some l) : l.length = c.nmem ∧ ∀ x ∈ l, x ∈ c.parts := by
  obtain ⟨length, inHand⟩ := contributions_spec h
  exact ⟨length.trans List.length_range, inHand⟩

/-- The groups that wait once a group's round has been taken: the group waits on for what is left of its contributions, if anything is (R313). -/
def State.collsAfter (s : State) (c : CollWait) (ctx gid : Nat) (l : List CollPart) : List CollWait :=
  if (c.parts.filter fun x => !l.contains x).isEmpty then s.colls.filter fun d => !(d.ctx == ctx && d.gid == gid)
  else s.colls.map fun d => if d.ctx == ctx && d.gid == gid then { c with parts := c.parts.filter fun x => !l.contains x } else d

theorem exec_collRootResult {s : State} {ctx gid : Nat} {c : CollWait} {l : List CollPart}
    (waits : s.colls.find? (fun c => c.ctx == ctx && c.gid == gid) = some c) (round : c.round = some l)
    (open_ : ∀ x ∈ l, ∀ y ∈ l, s.wayOpen (dieOf x.core) (dieOf y.core) = true) :
    exec (.collRootResult ctx gid) s = .next (({ s with colls := s.collsAfter c ctx gid l } : State).collFinish c l) := by
  have ways : c.round.filter (fun l => l.all fun x => l.all fun y => s.wayOpen (dieOf x.core) (dieOf y.core)) = some l := by
    rw [round, Option.filter_some, if_pos]
    exact List.all_eq_true.2 fun x hx => List.all_eq_true.2 (open_ x hx)
  change execCollRootResult ctx gid s = _
  simp only [execCollRootResult, waits, ways, State.collsAfter]

/-- A group of which every contribution has been taken waits no more. -/
theorem State.collsAfter_of_all {s : State} {c : CollWait} {l : List CollPart} (all : c.parts.all l.contains = true) (ctx gid : Nat) :
    s.collsAfter c ctx gid l = s.colls.filter fun d => !(d.ctx == ctx && d.gid == gid) := by
  have nothing : c.parts.filter (fun x => !l.contains x) = [] :=
    List.filter_eq_nil_iff.2 fun x hx => by simpa using List.all_eq_true.1 all x hx
  rw [State.collsAfter, nothing]
  rfl

/-! ### The statement -/

/-- Settles O52: each step by the equation of its function. -/
theorem enginesWork : Obligations.EnginesWork := by
  refine ⟨fun s core d due => ?_, fun s core d p due hp => ?_, fun s core d due => ?_, fun s core d p due hp => ?_,
    fun s core d p due hp => ?_, fun s core r due => ?_, fun s ctx gid c l waits round open_ => ?_⟩
  · obtain ⟨room, -, order⟩ := Core.firstEntry_spec due
    have entered := State.core_modCore s core (Core.enter d s.nextOrder) fun _ => rfl
    refine ⟨room, order, _, exec_engineQueueEntry due, ?_, ?_, ?_, rfl, ?_⟩
    · exact congrArg Core.cmdWait entered
    · exact congrArg (fun k => k.mat.queue) entered
    · exact congrArg Core.wainQueue entered
    · rw [State.modCore_eq]
  · refine ⟨fun passes => ?_, fun f fails => ?_⟩
    · have begun := State.core_modCore s core (fun k => { k.reclaim with mat := k.reclaim.mat.begun d }) Core.reclaim_num
      refine ⟨_, exec_matrixCommandStart due hp passes, ?_, ?_, ?_, ?_, ?_, ?_⟩
      · exact congrArg (fun k => k.mat.holder) begun
      · exact congrArg (fun k => k.mat.st) begun
      · exact congrArg (fun k => k.mat.queue) begun
      · exact congrArg (fun k => k.mat.load) begun
      · exact congrArg (fun k => k.mat.compute) begun
      · rw [State.modCore_eq]
    · obtain ⟨q, freed⟩ := State.plot?_freeSigners (s := s.modCore core fun k => { k.reclaim with mat := k.reclaim.mat.taken d }) (d := d)
        ((State.plot?_modCore ..).trans hp)
      obtain ⟨q, hq, halted⟩ := State.plot?_faultCmd freed (f.rec_ d)
      exact ⟨_, q, exec_matrixCommandStart_fault due hp fails, hq, halted, (State.freeSigners_mem _ _).trans (State.modCore_mem s core _)⟩
  · refine ⟨_, exec_scratchpadPortGrant due, State.core_modCore s core _ fun _ => rfl, ?_⟩
    rw [State.modCore_eq]
  · have ended : (((s.endMatrix p d).modCore core fun k => { k with mat := k.mat.without d }).freeSigners d).core core =
        { (s.endMatrix p d).core core with mat := ((s.endMatrix p d).core core).mat.without d } := by
      rw [State.core, State.freeSigners_cores, ← State.core]
      exact State.core_modCore _ core _ fun _ => rfl
    refine ⟨_, exec_matrixCommandComplete due hp, fun load => ?_, fun compute => ?_, ?_⟩
    · rw [ended]
      exact if_pos load
    · rw [ended]
      exact if_neg (Bool.eq_false_iff.1 compute)
    · rw [ended]
      exact MatEngine.without_port _ d
  · refine ⟨exec_wainCommandStart due hp, fun e fails => State.startWain_fault fails, fun passes => ⟨fun shut => State.startWain_shut passes shut,
      fun x code => State.startWain_barinit passes code, fun carried scratch noBarinit noColl t cells reads moves => ?_⟩⟩
    exact State.startWain_reads passes carried scratch noBarinit noColl reads moves
  · refine ⟨_, exec_pieceLanded due, fun p n off bs rest ok hp pieces noBar scratch => ?_⟩
    rw [State.landPiece_mem hp pieces noBar scratch]
    exact ⟨Memory.read_writeN_at ok.mem _ bs, fun a outside => Memory.read_writeN_other _ _ a bs ok.mem outside⟩
  · obtain ⟨length, inHand⟩ := CollWait.round_spec round
    exact ⟨length, inHand, _, exec_collRootResult waits round open_, rfl, fun all => State.collsAfter_of_all all ctx gid⟩

end Sys2Proof.Machine
end

section
/-! SUPPORT. Loads and stores of the scratchpad as words of a counted access (R198, R201, R261, R418, R459). -/

namespace Sys2Proof.Machine

/-! ### Words of a counted access -/

/-- A word of a counted access completes where its members, their counters not full, do what the access says once the check has passed (R254,
R255). -/
theorem Counted.of_runLane {i : Instr} {w w' : LaneWord} {k : OpClass} {check : IssueCtx → Fibre → Except FaultRec (Nat × Nat)}
    {go : IssueCtx → State → Fibre → Nat → Nat → Turn} (body : IssueCtx → State → Fibre → Eff)
    (hi : ∀ s, exec i s = runLane w' s fun c s f => counted k s f fun s => body c s f) (hw : w'.plain = w.plain)
    (refused : ∀ c s f r, check c f = .error r → body c s f = .of s (.fault r))
    (accepted : ∀ c s f o y, check c f = .ok (o, y) → Agrees c (body c s f) (go c s f o y))
    (fid : ∀ c s f o y, (go c s f o y).f.fid = f.fid) : Counted i w k check go := by
  refine serves_of_runLane _ hi hw (fun c s f => ?_) (fun c s f => ?_)
  · by_cases full : counterFull f k = true
    · simp only [counted, full, if_true]
      exact ⟨rfl, rfl, rfl, rfl, rfl, rfl, rfl⟩
    · simp only [counted, full, Bool.false_eq_true, if_false]
      cases h : check c f with
      | error r =>
        rw [refused c s f r h]
        exact ⟨rfl, rfl, rfl, rfl, rfl⟩
      | ok q => exact accepted c s f q.1 q.2 h
  · by_cases full : counterFull f k = true
    · simp only [full, if_true]
      rfl
    · simp only [full, Bool.false_eq_true, if_false]
      cases check c f with
      | error r => rfl
      | ok q => exact fid c s f q.1 q.2

/-! ### The allocation that is reached -/

/-- The first address of the allocation that a plot's LDS and STS reach (R198, R418). -/
def Plot.scratchBase (p : Plot) : Nat :=
  if p.handler = none then scratchAddr p.core + p.sbase else frameAddr p.core

/-- The size of the allocation that a plot's LDS and STS reach (R198, R418). -/
def Plot.scratchSize (p : Plot) : Nat :=
  if p.handler = none then p.ssize else 33024

theorem Plot.alloc_eq (p : Plot) : p.alloc = (p.scratchBase, p.scratchSize) := by
  unfold Plot.alloc Plot.scratchBase Plot.scratchSize
  cases p.handler <;> rfl

/-- The check of a scratchpad access, bounds before alignment: its byte, or the fault that names it (R198, R261). -/
def Plot.scratchAccess (p : Plot) (pc : Pc) (off n acc : Nat) : Except FaultRec (Nat × Nat) :=
  if p.scratchSize < off + n then .error (.access .capb pc 0 off acc)
  else if off % n ≠ 0 then .error (.access .align pc 0 off acc) else .ok (0, off)

/-- A scratchpad access that is refused is refused by the model's check, in whose fault's place the record stands. -/
theorem Plot.scratchCheck_of_error {p : Plot} {pc : Pc} {off n acc : Nat} {r : FaultRec} (h : p.scratchAccess pc off n acc = .error r) :
    ∃ e, scratchCheck p off n = some e ∧ r = .access e pc 0 off acc := by
  simp only [Plot.scratchAccess, scratchCheck, p.alloc_eq] at h ⊢
  split at h
  · next outside =>
    cases h
    exact ⟨.capb, if_pos outside, rfl⟩
  · next inside =>
    split at h
    · next crooked =>
      cases h
      exact ⟨.align, (if_neg inside).trans (if_pos crooked), rfl⟩
    · cases h

/-- A scratchpad access that is accepted passes the model's check and is of its offset. -/
theorem Plot.scratchCheck_of_ok {p : Plot} {pc : Pc} {off n acc o y : Nat} (h : p.scratchAccess pc off n acc = .ok (o, y)) :
    scratchCheck p off n = none ∧ y = off := by
  simp only [Plot.scratchAccess, scratchCheck, p.alloc_eq] at h ⊢
  split at h
  · cases h
  · next inside =>
    split at h
    · cases h
    · next straight =>
      cases h
      exact ⟨(if_neg inside).trans (if_neg straight), rfl⟩

/-! ### Stored bytes -/

/-- The bytes of a store of up to 4 bytes are the low ones of its register (R258). -/
theorem take_leBytes {m n : Nat} (h : m ≤ n) (v : Nat) : (leBytes n v).take m = leBytes m v := by
  induction m generalizing n v with
  | zero => rfl
  | succ m ih =>
    obtain ⟨n, rfl⟩ : ∃ k, n = k + 1 := ⟨n - 1, by omega⟩
    simp [leBytes, ih (show m ≤ n by omega)]

theorem length_leBytes (n v : Nat) : (leBytes n v).length = n := by
  induction n generalizing v with
  | zero => rfl
  | succ n ih => simp [leBytes, ih]

/-- The bytes of a store, as the first bytes of its registers, low word first (R258). -/
theorem storeBytes_eq_take {n : Nat} (h : n ≤ 4 ∨ n % 4 = 0) (p : Plot) (f : Fibre) (d : Nat) : storeBytes p f d n =
    ((List.range (max 1 (n / 4))).flatMap fun i => leBytes 4 (readReg p f (d + i)).toNat).take n := by
  by_cases small : n ≤ 4
  · have one : max 1 (n / 4) = 1 := by omega
    simp [storeBytes, small, one, take_leBytes]
  · have all : ((List.range (n / 4)).flatMap fun i => leBytes 4 (readReg p f (d + i)).toNat).length = n := by
      simp only [List.length_flatMap, length_leBytes, List.map_const', List.sum_replicate, List.length_range, smul_eq_mul]
      omega
    rw [storeBytes, if_neg small, max_eq_right (by omega), List.take_of_length_le all.le]

/-! ### LDS and STS -/

/-- LDS of n bytes: the number, low byte first, on its way to the register, or POISON where a granule is poisoned (R261, R459). -/
theorem counted_lds {i : Instr} {x : FmtMS} {n : Nat} {sx : Bool} (hi : ∀ s, exec i s = ldsOp n sx x s) (hn : (n + 3) / 4 = max 1 (n / 4)) :
    Counted i { guard := x.g.toNat, size := sizeOf x.p, codes := [x.a.toNat], dst := codesFrom x.d.toNat (max 1 (n / 4)) } .loads
      (fun c f => c.p.scratchAccess c.iss.pc ((readReg c.p f x.a.toNat).toNat + n * uimm x.p 3 x.imm.toNat) n 1)
      fun c s f _ off => .next c (s.giveLoad c.p.pid
        (if s.poisoned (c.p.scratchBase + off) n then .fault f.fid (.late .poison c.iss.pc 0 off 1 2)
          else .regs f.fid x.d.toNat (loadWords n sx (leNat (Memory.readN s.mem (c.p.scratchBase + off) n))))) f.moreLoads := by
  refine Counted.of_runLane _ hi (by rw [hn]) (fun c s f r h => ?_) (fun c s f o y h => ?_) (fun _ _ _ _ _ => rfl)
  · obtain ⟨e, refused, rfl⟩ := Plot.scratchCheck_of_error h
    simp only [memOff, refused]
  · obtain ⟨passed, rfl⟩ := Plot.scratchCheck_of_ok h
    simp only [memOff, Plot.alloc_eq, passed]
    split <;> exact ⟨rfl, rfl, rfl, rfl, rfl, rfl, rfl⟩

/-- STS of n bytes: the bytes in memory, the acknowledgement on its way (R201, R261). -/
theorem counted_sts {i : Instr} {x : FmtMS} {n : Nat} (hi : ∀ s, exec i s = stsOp n x s) (hn : n ≤ 4 ∨ n % 4 = 0) :
    Counted i { guard := x.g.toNat, size := sizeOf x.p, codes := x.a.toNat :: codesFrom x.d.toNat (max 1 (n / 4)) } .stores
      (fun c f => c.p.scratchAccess c.iss.pc ((readReg c.p f x.a.toNat).toNat + n * uimm x.p 3 x.imm.toNat) n 2)
      fun c s f _ off => .next c ((s.store (c.p.scratchBase + off)
        (((List.range (max 1 (n / 4))).flatMap fun i => leBytes 4 (readReg c.p f (x.d.toNat + i)).toNat).take n)).giveStore c.p.pid
          (.done f.fid)) f.moreStores := by
  refine Counted.of_runLane _ hi rfl (fun c s f r h => ?_) (fun c s f o y h => ?_) (fun _ _ _ _ _ => rfl)
  · obtain ⟨e, refused, rfl⟩ := Plot.scratchCheck_of_error h
    simp only [memOff, refused]
  · obtain ⟨passed, rfl⟩ := Plot.scratchCheck_of_ok h
    simp only [memOff, Plot.alloc_eq, storeBytes_eq_take hn, passed]
    exact ⟨rfl, rfl, rfl, rfl, rfl, rfl, rfl⟩

/-- Settles O28: each width of LDS and STS is one counted access of the plot's allocation. -/
theorem scratchpadAccesses : Obligations.ScratchpadAccesses := by
  unfold Obligations.ScratchpadAccesses
  simp only [List.forall_mem_cons, List.not_mem_nil, false_imp_iff, implies_true, and_true]
  refine ⟨⟨fun _ => ?_, fun _ => ?_, fun _ => ?_, fun _ => ?_, fun _ => ?_, fun _ => ?_, fun _ => ?_⟩,
    fun _ => ?_, fun _ => ?_, fun _ => ?_, fun _ => ?_, fun _ => ?_⟩
  iterate 7 exact counted_lds (fun _ => rfl) rfl
  iterate 5 exact counted_sts (fun _ => rfl) (by decide)

end Sys2Proof.Machine
end

section
/-! SUPPORT. The lines of an L1 after an update; the bytes that a plot's access finds there after a store (R202, R203, R427, R428). -/

namespace Sys2Proof.Machine

/-! ### Bytes of a line -/

theorem assoc_cons {α β : Type} [BEq α] (q : α × β) (l : List (α × β)) (k : α) : assoc (q :: l) k = if q.1 == k then some q.2 else assoc l k := by
  simp only [assoc, List.find?_cons]
  split <;> simp_all

/-- What a list of pairs holds after one of its keys is set. -/
theorem assoc_assocSet {α β : Type} [BEq α] [LawfulBEq α] (l : List (α × β)) (k j : α) (v : β) :
    assoc (assocSet l k v) j = if k == j then some v else assoc l j := by
  have replaced (l : List (α × β)) : assoc (l.map fun p => if p.1 == k then (k, v) else p) j =
      if k == j then (if l.any (fun p => p.1 == k) then some v else none) else assoc l j := by
    induction l with
    | nil => simp [assoc]
    | cons q l ih =>
      simp only [List.map_cons, assoc_cons, ih, List.any_cons]
      by_cases hq : q.1 = k
      · cases hj : k == j <;> simp [hq, hj]
      · have away : (q.1 == k) = false := beq_false_of_ne hq
        cases hj : k == j with
        | true => simp only [← eq_of_beq hj, away, Bool.false_eq_true, if_false, Bool.false_or]
        | false => simp only [away, Bool.false_eq_true, if_false]
  have added (l : List (α × β)) (absent : l.any (fun p => p.1 == k) = false) : assoc (l ++ [(k, v)]) j = if k == j then some v else assoc l j := by
    induction l with
    | nil => simp [assoc]
    | cons q l ih =>
      simp only [List.any_cons, Bool.or_eq_false_iff] at absent
      simp only [List.cons_append, assoc_cons, ih absent.2]
      cases hj : k == j with
      | true => simp [← eq_of_beq hj, absent.1]
      | false => rfl
  unfold assocSet
  split
  · rename_i present
    rw [replaced, present, if_pos rfl]
  · exact added l (Bool.eq_false_iff.2 ‹_›)

/-- The bytes of a line after bytes are stored into it: those stored, and no others (R202). -/
theorem L1Line.byte?_put (l : L1Line) (o : Nat) (bs : List Byte) (j : Nat) :
    (l.put o bs).byte? j = if o ≤ j then (bs[j - o]?).or (l.byte? j) else l.byte? j := by
  have stored (k : Nat) (m : List (Nat × Byte)) : assoc ((((List.range' k bs.length).map (· + o)).zip bs).foldl (fun m q => assocSet m q.1 q.2) m) j =
      if k + o ≤ j then (bs[j - (k + o)]?).or (assoc m j) else assoc m j := by
    induction bs generalizing k m with
    | nil => simp
    | cons b bs ih =>
      simp only [List.length_cons, List.range'_succ, List.map_cons, List.zip_cons_cons, List.foldl_cons, ih, assoc_assocSet, beq_iff_eq]
      rcases Nat.lt_trichotomy j (k + o) with lt | rfl | gt
      · rw [if_neg (by omega), if_neg (by omega), if_neg (by omega)]
      · rw [if_neg (by omega), if_pos rfl, if_pos (Nat.le_refl _)]
        simp
      · obtain ⟨d, rfl⟩ : ∃ d, j = k + o + 1 + d := ⟨j - (k + o + 1), by omega⟩
        have rest : k + o + 1 + d - (k + 1 + o) = d := by omega
        have here : k + o + 1 + d - (k + o) = d + 1 := by omega
        rw [if_pos (by omega), if_neg (by omega), if_pos (by omega), rest, here, List.getElem?_cons_succ]
  simpa [L1Line.byte?, L1Line.put, List.range_eq_range'] using stored 0 l.bytes

/-! ### Lookups of lines -/

/-- Whether a line is the entry of an L1 with a place, class and owner. -/
def L1Line.sits (l : L1Line) (ctx obj line cls : Nat) (tent : Option Nat) : Bool :=
  l.ctx == ctx && l.obj == obj && l.line == line && l.kind.cls == cls && l.tent == tent

theorem Core.line?_eq (c : Core) (ctx obj line cls : Nat) (tent : Option Nat) :
    c.line? ctx obj line cls tent = c.lines.find? fun l => l.sits ctx obj line cls tent := rfl

theorem L1Line.sits_self (l : L1Line) : l.sits l.ctx l.obj l.line l.kind.cls l.tent = true := by
  simp [L1Line.sits]

/-- The lines that are one entry with a given one sit where it sits. -/
theorem L1Line.sits_of_same {a b : L1Line} (h : a.same b = true) (ctx obj line cls : Nat) (tent : Option Nat) :
    b.sits ctx obj line cls tent = a.sits ctx obj line cls tent := by
  simp only [L1Line.same, Bool.and_eq_true, beq_iff_eq] at h
  obtain ⟨⟨⟨⟨hc, ho⟩, hl⟩, hk⟩, ht⟩ := h
  simp only [L1Line.sits, hc, ho, hl, hk, ht]

theorem L1Line.same_of_sits {a b : L1Line} {ctx obj line cls : Nat} {tent : Option Nat} (ha : a.sits ctx obj line cls tent = true)
    (hb : b.sits ctx obj line cls tent = true) : a.same b = true := by
  simp only [L1Line.sits, Bool.and_eq_true, beq_iff_eq] at ha hb
  obtain ⟨⟨⟨⟨hc, ho⟩, hl⟩, hk⟩, ht⟩ := ha
  obtain ⟨⟨⟨⟨hc', ho'⟩, hl'⟩, hk'⟩, ht'⟩ := hb
  simp [L1Line.same, hc, ho, hl, hk, ht, hc', ho', hl', hk', ht']

/-- The line that is found where a line has been put: that line, or what was found before. -/
theorem Core.line?_setLine (c : Core) (l : L1Line) (ctx obj line cls : Nat) (tent : Option Nat) :
    (c.setLine l).line? ctx obj line cls tent = if l.sits ctx obj line cls tent then some l else c.line? ctx obj line cls tent := by
  have replaced (ls : List L1Line) : (ls.map fun m => if l.same m then l else m).find? (fun m => m.sits ctx obj line cls tent) =
      if l.sits ctx obj line cls tent then (if ls.any l.same then some l else none) else ls.find? fun m => m.sits ctx obj line cls tent := by
    induction ls with
    | nil => simp
    | cons m ls ih =>
      rw [List.map_cons, List.find?_cons, ih]
      by_cases same : l.same m = true
      · have := L1Line.sits_of_same same ctx obj line cls tent
        by_cases here : l.sits ctx obj line cls tent = true <;> simp_all
      · by_cases here : l.sits ctx obj line cls tent = true
        · have away : m.sits ctx obj line cls tent = false := by
            rw [Bool.eq_false_iff]
            exact fun there => same (L1Line.same_of_sits here there)
          simp [same, here, away]
        · simp [same, here, List.find?_cons]
  simp only [Core.line?_eq, Core.setLine]
  split
  · rename_i present
    rw [replaced, present, if_pos rfl]
  · rename_i absent
    by_cases here : l.sits ctx obj line cls tent = true
    · have away : c.lines.find? (fun m => m.sits ctx obj line cls tent) = none :=
        List.find?_eq_none.2 fun m hm there => absent (List.any_eq_true.2 ⟨m, hm, L1Line.same_of_sits here there⟩)
      simp [List.find?_append, here, away]
    · simp [List.find?_append, here]

@[simp] theorem Core.setLine_num (c : Core) (l : L1Line) : (c.setLine l).num = c.num := by
  unfold Core.setLine
  split <;> rfl

@[simp] theorem Core.dropLine_num (c : Core) (l : L1Line) : (c.dropLine l).num = c.num := rfl

/-- A line that is found sits where it was asked for. -/
theorem Core.sits_of_line? {c : Core} {ctx obj line cls : Nat} {tent : Option Nat} {l : L1Line} (h : c.line? ctx obj line cls tent = some l) :
    l.sits ctx obj line cls tent = true :=
  List.find?_some (p := fun l : L1Line => l.sits ctx obj line cls tent) h

/-! ### Tentative lines -/

/-- A plot without tentative lines finds none. -/
theorem Core.line?_of_no_tentative {c : Core} {pid : Nat} (none : c.tentative pid = []) (ctx obj line cls : Nat) :
    c.line? ctx obj line cls (some pid) = .none := by
  refine List.find?_eq_none.2 fun l hl h => ?_
  simp only [Bool.and_eq_true] at h
  exact List.filter_eq_nil_iff.1 none l hl h.2

/-- Putting a line that is nobody's tentative one leaves those of a plot, or fewer. -/
theorem Core.tentative_setLine (c : Core) {l : L1Line} (h : l.tent = none) (pid : Nat) : (c.setLine l).tentative pid ⊆ c.tentative pid := by
  intro m hm
  simp only [Core.tentative, List.mem_filter, Core.setLine] at hm ⊢
  obtain ⟨hm, mine⟩ := hm
  refine ⟨?_, mine⟩
  have other : m ≠ l := by
    rintro rfl
    simp [h] at mine
  split at hm
  · obtain ⟨m', hm', e⟩ := List.mem_map.1 hm
    split at e
    · exact absurd e.symm other
    · exact e ▸ hm'
  · simpa [other] using hm

theorem Core.tentative_dropLine (c : Core) (l : L1Line) (pid : Nat) : (c.dropLine l).tentative pid = (c.tentative pid).filter fun m => !l.same m := by
  simp only [Core.tentative, Core.dropLine, List.filter_filter]
  congr 1
  funext m
  exact Bool.and_comm _ _

/-- A tentative line becomes the core's own (R428). -/
def Core.commitLine (c : Core) (l : L1Line) : Core :=
  let c := c.dropLine l
  match c.line? l.ctx l.obj l.line 0 none with
  | none => c.setLine { l with tent := none, epoch := c.epoch }
  | some m =>
    let cells := l.bytes.filter fun q => l.written.contains q.1
    let m' := cells.foldl (fun m q => m.put q.1 [q.2]) m
    let gs := dedup (l.written.map (· / 16))
    let whole := gs.filter fun g => (l.written.filter fun o => o / 16 == g).length == 16
    c.setLine { m' with
      capKind := l.capKind
      system := l.system
      kind := if m.kind == LineKind.owned then .owned else .partialDirty
      epoch := if m.kind == LineKind.partialDirty then m.epoch else c.epoch
      tags := addAll (without m'.tags gs) l.tags
      poison := addAll (without m'.poison whole) l.poison
      errs := addAll (without m'.errs whole) l.errs
      need := m.need ||| l.need }

/-- A commit is that of each of the plot's tentative lines (R428). -/
theorem State.commit_eq {s : State} {pid : Nat} {p : Plot} (hp : s.plot? pid = some p) (open_ : p.uncommitted = true) : s.commit pid =
    (s.modPlot pid fun p => { p with uncommitted := false }).modCore p.core fun c => (c.tentative pid).foldl Core.commitLine c := by
  simp only [State.commit, hp, open_, Bool.not_true, Bool.false_eq_true, if_false]
  rfl

@[simp] theorem Core.commitLine_num (c : Core) (l : L1Line) : (c.commitLine l).num = c.num := by
  simp only [Core.commitLine]
  split <;> simp

/-- A tentative line that becomes the core's own is nobody's any more. -/
theorem Core.tentative_commitLine (c : Core) (l : L1Line) (pid : Nat) :
    (c.commitLine l).tentative pid ⊆ (c.tentative pid).filter fun m => !l.same m := by
  rw [← Core.tentative_dropLine]
  simp only [Core.commitLine]
  split
  · exact Core.tentative_setLine _ rfl pid
  next m found =>
    have own := Core.sits_of_line? found
    simp only [L1Line.sits, Bool.and_eq_true, beq_iff_eq] at own
    refine Core.tentative_setLine _ ?_ pid
    exact (foldl_keeps L1Line.tent (f := fun (m : L1Line) (q : Nat × Byte) => m.put q.1 [q.2]) (fun _ _ _ => rfl) m).trans own.2

theorem Core.tentative_foldl_commitLine (ls : List L1Line) (c : Core) (pid : Nat) :
    (ls.foldl Core.commitLine c).tentative pid ⊆ (c.tentative pid).filter fun m => ls.all fun l => !l.same m := by
  induction ls generalizing c with
  | nil => simp
  | cons l ls ih =>
    intro m hm
    have kept := List.mem_filter.1 (ih (c.commitLine l) hm)
    have mine := List.mem_filter.1 (c.tentative_commitLine l pid kept.1)
    exact List.mem_filter.2 ⟨mine.1, by rw [List.all_cons, mine.2, kept.2]; rfl⟩

/-- After a commit the plot has no tentative line (R428). -/
theorem State.tentative_commit {s : State} {pid : Nat} {p : Plot} (hp : s.plot? pid = some p) (open_ : p.uncommitted = true) :
    ((s.commit pid).core p.core).tentative pid = [] := by
  rw [State.commit_eq hp open_, State.core_modCore _ _ _ fun c => foldl_keeps Core.num (fun c l _ => c.commitLine_num l) c]
  refine List.subset_nil.1 (List.Subset.trans (Core.tentative_foldl_commitLine _ _ _) fun m hm => ?_)
  obtain ⟨mine, none⟩ := List.mem_filter.1 hm
  have := List.all_eq_true.1 none m mine
  simp [L1Line.same] at this

/-! ### Stores (R202, R427) -/

/-- The byte at a place of a line that a plot's access finds in its core's L1: its tentative line's first, then the core's line's (R427). -/
def Core.byteAt (c : Core) (w : Who) (obj line j : Nat) : Option Byte :=
  ((c.line? w.ctx obj line 0 (some w.pid)).bind (·.byte? j)).or ((c.line? w.ctx obj line 0 none).bind (·.byte? j))

/-- The bytes that a plain access finds, one by one. -/
theorem State.l1Bytes_values (s : State) (w : Who) (obj off n : Nat) : (s.l1Bytes w obj off n 0).map (·.map (·.1)) =
    (List.range n).map fun i => (s.core w.core).byteAt w obj (off / 128) (off % 128 + i) := by
  simp only [State.l1Bytes, if_true, List.map_map]
  refine List.map_congr_left fun i _ => ?_
  simp only [Function.comp_apply, Core.byteAt]
  cases ((s.core w.core).line? w.ctx obj (off / 128) 0 (some w.pid)).bind (·.byte? (off % 128 + i)) with
  | some b => rfl
  | none =>
    cases (s.core w.core).line? w.ctx obj (off / 128) 0 none with
    | none => rfl
    | some l => simp [Function.comp_def]

/-- A store puts one line, which sits where the store goes: its bytes are those of the line before, if there was one, and those stored. -/
theorem State.l1Put_spec (s : State) (w : Who) (kind need obj off : Nat) (bs : List Byte) (tag : Bool) (tent : Option Nat) :
    ∃ l, (s.l1Put w kind need obj off bs tag tent).core w.core = (s.core w.core).setLine l ∧
      l.sits w.ctx obj (off / 128) 0 tent = true ∧
      ∀ j, l.byte? j = if off % 128 ≤ j then
          (bs[j - off % 128]?).or (((s.core w.core).line? w.ctx obj (off / 128) 0 tent).bind (·.byte? j))
        else ((s.core w.core).line? w.ctx obj (off / 128) 0 tent).bind (·.byte? j) := by
  unfold State.l1Put
  rw [State.core_modCore _ _ _ fun c => by dsimp only; split <;> simp]
  dsimp only
  cases found : (s.core w.core).line? w.ctx obj (off / 128) 0 tent with
  | none =>
    refine ⟨_, rfl, ?_, fun j => ?_⟩
    · cases tag <;> simp [L1Line.sits, L1Line.put, LineKind.cls]
    · have bytes := L1Line.byte?_put { ctx := w.ctx, obj := obj, line := off / 128, kind := .partialDirty, bytes := [], written := [], tags := [],
                                       poison := s.poisonUnder w obj off bs.length, errs := [], epoch := (s.core w.core).epoch, tent := tent, sums := [], capKind := kind,
                                       system := w.system, need := need } (off % 128) bs j
      cases tag <;> exact bytes
  | some l =>
    have here := Core.sits_of_line? found
    refine ⟨_, rfl, ?_, fun j => ?_⟩
    · simp only [L1Line.sits, Bool.and_eq_true, beq_iff_eq] at here
      obtain ⟨⟨⟨⟨hc, ho⟩, hl⟩, hk⟩, ht⟩ := here
      cases tag <;> split <;> simp_all [L1Line.sits, L1Line.put, LineKind.cls]
    · have bytes := L1Line.byte?_put l (off % 128) bs j
      cases tag <;> split <;> exact bytes

/-- After a store the plot finds the bytes stored, where it stores in its tentative line, or has none (R202, R427). -/
theorem State.l1Bytes_l1Put (s : State) (w : Who) (kind need obj off : Nat) (bs : List Byte) (tag : Bool) (tent : Option Nat)
    (sees : tent = some w.pid ∨ tent = none ∧ (s.core w.core).tentative w.pid = []) :
    ((s.l1Put w kind need obj off bs tag tent).l1Bytes w obj off bs.length 0).map (·.map (·.1)) = bs.map some := by
  obtain ⟨l, put, sits, bytes⟩ := s.l1Put_spec w kind need obj off bs tag tent
  refine (State.l1Bytes_values ..).trans (List.ext_getElem (by simp) fun i hi hi' => ?_)
  have there : i < bs.length := by simpa using hi
  have stored : l.byte? (off % 128 + i) = some bs[i] := by simp [bytes, there]
  simp only [List.getElem_map, List.getElem_range, Core.byteAt, put, Core.line?_setLine]
  rcases sees with rfl | ⟨rfl, none⟩
  · simp [sits, stored]
  · have other : l.sits w.ctx obj (off / 128) 0 (some w.pid) = false := by
      simp only [L1Line.sits, Bool.and_eq_true, beq_iff_eq] at sits
      simp [L1Line.sits, sits.2]
    simp [sits, stored, other, Core.line?_of_no_tentative none]

/-- A store outside a replant region leaves every other byte of the L1 as it was (R202, R203). -/
theorem State.l1Bytes_l1Put_other (s : State) (w : Who) (kind need obj off : Nat) (bs : List Byte) (tag : Bool) {obj' off' : Nat}
    (other : obj' ≠ obj ∨ off' < off ∨ off + bs.length ≤ off') :
    ((s.l1Put w kind need obj off bs tag none).l1Bytes w obj' off' 1 0).map (·.map (·.1)) =
      (s.l1Bytes w obj' off' 1 0).map (·.map (·.1)) := by
  obtain ⟨l, put, sits, bytes⟩ := s.l1Put_spec w kind need obj off bs tag none
  simp only [L1Line.sits, Bool.and_eq_true, beq_iff_eq] at sits
  obtain ⟨⟨⟨⟨hc, ho⟩, hl⟩, hk⟩, ht⟩ := sits
  simp only [State.l1Bytes_values, List.range_one, List.map_cons, List.map_nil, Nat.add_zero, Core.byteAt, put, Core.line?_setLine]
  have tentative : l.sits w.ctx obj' (off' / 128) 0 (some w.pid) = false := by simp [L1Line.sits, ht]
  by_cases here : obj = obj' ∧ off / 128 = off' / 128
  · have main : l.sits w.ctx obj' (off' / 128) 0 none = true := by simp [L1Line.sits, hc, ho, hl, hk, ht, here]
    have kept : l.byte? (off' % 128) = ((s.core w.core).line? w.ctx obj' (off' / 128) 0 none).bind (·.byte? (off' % 128)) := by
      rw [bytes, ← here.1, ← here.2]
      split
      · rw [List.getElem?_eq_none (by omega), Option.none_or]
      · rfl
    simp [tentative, main, kept]
  · have main : l.sits w.ctx obj' (off' / 128) 0 none = false := by simpa [L1Line.sits, hc, ho, hl, hk, ht] using here
    simp [tentative, main]

/-! ### Loads (R202, R221, R256) -/

/-- A plain load that the L1 holds whole is answered from it, and changes nothing else. -/
theorem State.l1Load_of_held {s : State} {w : Who} {obj off n cls : Nat} {bs : List Byte}
    (held : s.l1Bytes w obj off n cls = bs.map fun b => some (b, false)) (kind need : Nat) :
    ∃ tag, s.l1Load w kind obj off n need cls = (s, .ok (bs, tag)) := by
  have whole : (bs.map fun b => some (b, false)).all Option.isSome = true := by simp
  have clean : bs.any ((fun x : Byte × Bool => x.2) ∘ (fun q : Option (Byte × Bool) => q.getD (0, false)) ∘ fun b => some (b, false)) = false :=
    List.any_eq_false.2 fun _ _ => by simp
  have bytes : bs.map ((fun x : Byte × Bool => x.1) ∘ (fun q : Option (Byte × Bool) => q.getD (0, false)) ∘ fun b => some (b, false)) = bs :=
    List.map_id bs
  simp only [State.l1Load, held, whole, if_true, List.map_map, List.any_map, clean, Bool.false_eq_true, if_false, bytes]
  exact ⟨_, rfl⟩

/-- A load of a global object that the L1 holds whole takes a load and answers with the bytes. -/
theorem globalLoad_of_held {c : IssueCtx} {s : State} {f : Fibre} {obj off n cls : Nat} {bs : List Byte}
    (held : s.l1Bytes (c.who f) obj off n cls = bs.map fun b => some (b, false)) (cap : Cap) (need : Nat) (op : HomeOp)
    (give : List Byte → Bool → PendLoad) :
    ∃ tag, globalLoad c s f cap obj off n need cls op give = .of (s.giveLoad c.p.pid (give bs tag)) (.seq f.moreLoads) := by
  obtain ⟨tag, answer⟩ := State.l1Load_of_held held cap.kind need
  have whole : (bs.map fun b => some (b, false)).all Option.isSome = true := by simp
  refine ⟨tag, ?_⟩
  simp only [globalLoad, held, whole, if_true, answer]
  rfl

/-- A load of a line that no L1 may hold, and of which this one holds nothing, goes to its home (R202, R221). -/
theorem globalLoad_of_uncached {c : IssueCtx} {s : State} {f : Fibre} {cap : Cap} {obj off n need : Nat} {h : PortHit} {op : HomeOp}
    (empty : (s.core c.p.core).lines = []) (bytes : 0 < n)
    (ok : s.port (dieOf c.p.core) c.p.ctx c.p.system cap.kind obj need off = .ok h) (far : h.cacheable = false)
    (give : List Byte → Bool → PendLoad) :
    globalLoad c s f cap obj off n need 0 op give = .of (s.send (c.request f cap obj off op)) (.seq f.moreLoads) := by
  have nowhere (ctx obj line cls : Nat) (tent : Option Nat) : (s.core c.p.core).line? ctx obj line cls tent = none := by
    rw [Core.line?_eq, empty, List.find?_nil]
  have missing : (s.l1Bytes (c.who f) obj off n 0).all Option.isSome = false := by
    rw [List.all_eq_false]
    refine ⟨none, ?_, by simp⟩
    simp only [State.l1Bytes, IssueCtx.who, nowhere, List.mem_map, List.mem_range]
    exact ⟨0, bytes, rfl⟩
  have taken : s.port (dieOf (c.who f).core) (c.who f).ctx (c.who f).system cap.kind obj need off = .ok h := ok
  simp only [globalLoad, missing, Bool.false_eq_true, if_false, taken, far]
  rfl

/-- Settles O27: a load is answered from the held bytes, or sent; a store puts its bytes in one line, its plot's tentative one or the core's. -/
theorem plainAccessesInTheL1 : Obligations.PlainAccessesInTheL1 := by
  refine ⟨fun c s f cap obj off n sx dst bs length free => ⟨fun held => ?_, fun h empty bytes ok far => ?_⟩,
    fun s w p kind need obj off bs tag hp here _ closed => ⟨?_, fun committed obj' off' other => ?_⟩⟩
  · obtain ⟨_, loaded⟩ := globalLoad_of_held held cap rightR (.load n sx dst) fun bs _ => .regs f.fid dst (loadWords n sx (leNat bs))
    simp only [loadGlobal, onBytes, free, Bool.false_eq_true, if_false, loaded]
    rfl
  · simp only [loadGlobal, onBytes, free, Bool.false_eq_true, if_false, globalLoad_of_uncached empty bytes ok far]
    rfl
  · simp only [State.l1Store, hp]
    split
    · rename_i open_
      split
      · exact State.l1Bytes_l1Put (tent := none) _ _ _ _ _ _ _ _ (.inr ⟨rfl, here ▸ State.tentative_commit hp open_⟩)
      · exact State.l1Bytes_l1Put (tent := some w.pid) _ _ _ _ _ _ _ _ (.inl rfl)
    · exact State.l1Bytes_l1Put (tent := none) _ _ _ _ _ _ _ _ (.inr ⟨rfl, closed (Bool.eq_false_iff.2 ‹_›)⟩)
  · simp only [State.l1Store, hp, committed, Bool.false_eq_true, if_false]
    exact State.l1Bytes_l1Put_other _ _ _ _ _ _ _ _ other

end Sys2Proof.Machine
end

section
/-! Two statements that do not hold of the model, each refuted by a state written out (R203, R209). -/

namespace Sys2Proof.Machine

/-! ### One object of a context -/

/-- A READY package of context c, whose object 1 is one page of data that may be written: its entry, and its page descriptor at byte 0 of object 0,
which names a resident CACHED page of a frame (R395, R396). -/
def dataState (c : Ctx) (frame : Nat) : State :=
  let entry := 2 ^ 64 + 2 ^ 63 + rightW * 2 ^ 48
  let desc := frame * 2 ^ 32 + 2 ^ 14
  { State.reset with
    status := ⟨true, 6, true, 0, 0, true, none, false⟩, ctxs := [c],
    mem := Memory.writeN (Memory.writeN [] (hbmAddr 0 0) (leBytes 8 desc)) (hbmAddr 0 0 + 64) (leBytes 16 entry) }

/-- An Owned copy of line 0 of object 1 whose bytes, as given, a store through a capability of a KIND has written. -/
def ownedLine (kind : Nat) (bytes : List (Nat × Byte)) : L1Line :=
  ⟨0, 1, 0, .owned, bytes, bytes.map (·.1), [], [], [], 0, none, [], kind, true, rightW⟩

/-! ### A write-back that makes its object the exception log -/

/-- A context that names object 1 as its exception log, which object 1 is once its KIND says so (R124). -/
def logCtx : Ctx :=
  { fetchCtx with exlog := 2 ^ 24 + 1 }

/-- A write-back to object 1, whose page is page 0 of object 0: the byte is the last one of the low half of object 1's own entry, which stays VALID
and takes KIND 4. -/
def entryBack : WriteBackMsg :=
  ⟨0, ownedLine 0 [(71, 0x90)]⟩

/-- That write-back on its way. -/
def overlaidState : State :=
  { dataState logCtx 0 with writeBacks := [entryBack] }

theorem overlaidState_memOk : overlaidState.MemOk where
  mem := by decide +kernel
  tags := .nil
  poison := .nil

/-- Before the write-back no byte of object 1 is read only. -/
theorem overlaidState_not_readOnly (y : Nat) : overlaidState.readOnly logCtx 1 y = false := by
  have list : logCtx.isList 1 = false := by decide
  have log : overlaidState.isLog logCtx 1 = false := by decide +kernel
  simp only [State.readOnly, list, log, Bool.false_and, Bool.or_false, Bool.false_or]
  rfl

/-- The byte of a result's memory where the write-back's byte goes. -/
def entryByte : Result → Byte
  | .next t => Memory.read t.mem (hbmAddr 0 0 + 71)
  | _ => 0

/-- In the model the home keeps the old byte, the object being the exception log once the byte stands there. -/
theorem entryByte_writeBack : entryByte (exec .writeBack overlaidState) = 0x80 := by
  decide +kernel

theorem overlaidState_accepts :
    (overlaidState.acceptsWriteBack 0 entryBack.line entryBack.line.need).map PortHit.addr = some (hbmAddr 0 0) := by
  decide +kernel

/-- Refutes O53 at its clause on the bytes of an Owned line's write-back: it asks that none of the object's bytes is read only before, but a page of
object 1 that is also a page of object 0 holds the entry of object 1, and the write itself makes object 1 the exception log, whose bytes from 20 on the
home then keeps as they were (R10, R124). -/
theorem not_homesServe : ¬Obligations.HomesServe := by
  rintro ⟨-, -, -, -, -, writeBack, -⟩
  obtain ⟨t, done, -, stored⟩ := writeBack overlaidState entryBack (by decide +kernel)
  obtain ⟨h, accepted, place⟩ := Option.map_eq_some_iff.1 overlaidState_accepts
  have free (c : Ctx) (hc : overlaidState.ctx? 0 = some c) (y : Nat) : overlaidState.readOnly c 1 y = false := by
    obtain rfl : logCtx = c := Option.some.inj hc
    exact overlaidState_not_readOnly y
  obtain ⟨written, -⟩ := stored h rfl overlaidState_memOk rfl accepted (by decide) free (List.pairwise_singleton _ _) (by decide)
  have byte : Memory.read t.mem (h.addr + 71) = 0x90 := written (71, 0x90) (List.mem_singleton.2 rfl)
  have kept := entryByte_writeBack
  rw [done] at kept
  rw [place] at byte
  exact absurd (byte.symm.trans kept) (by decide)

/-! ### A host read that recalls a line whose write-back is discarded -/

/-- Core 0 owns line 0 of object 1, by a store through a capability of another KIND than the object's. -/
def discardState : State :=
  { dataState fetchCtx 1 with owners := [(⟨0, 1, 0, 0⟩, 0)], cores := [{ Core.reset 0 with lines := [ownedLine 1 [(0, 7)]] }] }

/-- How many reports a result shows. -/
def reportCount : Result → Nat
  | .next t => t.reports.length
  | _ => 0

/-- In the model the recalled line is discarded with a contained error, whose message goes before the answer (R399, R466). -/
theorem reportCount_hostMemRead : reportCount (exec (.hostMemRead 0 1 0 4) discardState) = 2 := by
  decide +kernel

theorem discardState_exposed : ((discardState.place? 0 0 1 0).map PortHit.exposed) = some true := by
  decide +kernel

/-- Refutes O54 at its clause on a host read while READY: it adds the answer alone to the reports, where in the model the recall that goes before it can
meet a refusal of the port, which reports an error record first. -/
theorem not_pagesHostAndExchange : ¬Obligations.PagesHostAndExchange := by
  rintro ⟨-, -, -, -, -, -, -, read, -⟩
  have exposed : ∀ l ∈ linesOf 0 4, ∃ h, discardState.place? 0 0 1 l.1 = some h ∧ h.exposed = true := by
    rw [show linesOf 0 4 = [(0, 4)] by decide +kernel, List.forall_mem_singleton]
    exact Option.map_eq_some_iff.1 discardState_exposed
  obtain ⟨t, bs, bad, done, reports, -⟩ := read discardState 0 1 0 4 rfl exposed
  have two := reportCount_hostMemRead
  rw [done] at two
  have one : t.reports.length = 1 := congrArg List.length reports
  exact absurd (one.symm.trans two) (by decide)

end Sys2Proof.Machine
end
